-- ==== Sys2Proof/Word.lean ====
section
/-! DEFINITION. The word types of the KW-D96 (R4, R9): bytes, 32-bit register words and 64-bit values. -/
namespace Sys2Proof

/-- One byte of memory, scratchpad or a message (R4). -/
abbrev Byte := BitVec 8
/-- One 32-bit general register (R252). -/
abbrev Word := BitVec 32
/-- A 64-bit value: a register pair, a control register or an address (R252, R205). -/
abbrev DWord := BitVec 64
/-- A string of bytes, lowest address first. -/
abbrev Bytes := List Byte

/-- A virtual device number, 0 (the monitor's) to 15 (R79). -/
abbrev Vd := Fin 16
/-- A core number, 0 to 831 (R1, R131). -/
abbrev Core := Fin 832
/-- A compute die, CD0 to CD3 (R10). -/
abbrev Die := Fin 4
/-- A cluster of the package, 52 on each die (R1, R10). -/
abbrev Cluster := Fin 208

end Sys2Proof
end

