-- ==== Sys2Proof/Config.lean ====
section
/-! DEFINITION. What one part or its manufacture fixes, and the values the spec leaves open: constants without a body, so that
no proof can see what they are. -/
namespace Sys2Proof.Config

/-- Free values: the value the model has for its n-th use of a value the spec leaves open. -/
opaque free : Nat → DWord

/-- The free bytes of SHA-class random sources: the crypto engines' and the attestation unit's internal random source (R73,
R220), by use and byte. -/
opaque randomByte : Nat → Nat → Byte

/-- The crypto engines' random bytes for the data key and the MAC key of a key identifier, by its allocation and byte (R220). -/
opaque keyByte : Nat → Nat → Nat → Byte
/-- The address that stands for a node of the assay tree in its MAC, by level, stack and number: R222 gives its region no SPA. -/
opaque nodeAddr : Nat → Nat → Nat → Nat

/-- This package's number in the load-store domain (R257). -/
opaque pkgId : BitVec 16

/-- The guest-physical address of each VD's launch-queue page and, for a die, of its governor page (R86, R109). -/
opaque lqPage : Vd → DWord
opaque govPage : Vd → Die → DWord

/-- The set of a line in its L2 slice and in its MSC: the spec gives the ways and not the index. -/
opaque l2Set : Nat → Nat
opaque mscSet : Nat → Nat

/-- The Braze port that reaches another package (R58, R59). -/
opaque brazePort : Nat → Fin 16

/-- The LPID of the management endpoints, and how many queue pairs' state the network engine holds on chip (R50, R68). -/
opaque mgmtLpid : Nat
opaque qpCapacity : Nat
/-- The bytes of a trimmed flash block, by the number of the trim and offset (R62). -/
opaque trimByte : Nat → Nat → Byte

/-- The namespaces that the NAND flash is divided into: identifier and 4 KiB blocks of each (R60, R62). -/
opaque namespaces : List (Nat × Nat)

/-- The fuses (R22 and the list before R20): secret, root key hashes and their revocation, lifecycle, rollback levels, serial. -/
opaque deviceSecret : Bytes
opaque rootHash : Fin 4 → Bytes
opaque rootRevoked : Fin 4 → Bool
opaque development : Bool
opaque rollbackLevel : Fin 8 → Nat
opaque serial : BitVec 64
/-- The fused caps of the boundary fields (R22). -/
opaque capModPwr : BitVec 12
opaque capDiePwr : Die → BitVec 10
opaque capThrot : BitVec 8
opaque capEgress : Fin 4 → BitVec 11
opaque capPeerChk : Fin 4 → Bool
opaque capRpcOk : Fin 2 → Bool
opaque capMaxLog2 : Fin 2 → BitVec 8
opaque capMaxWin : Fin 2 → BitVec 6
opaque capPolLock : Bool
opaque capHmLock : Bool
opaque capDbgMode : BitVec 2
/-- What step 1 extends MEAS0 with besides the marker of R30: ROM digest and fused configuration, 512 bits each. -/
opaque romDigest : Bytes
opaque fusedConfig : Bytes
opaque developmentMarker : Bytes

/-- The values a boundary policy image gives, whose body layout the spec does not state (R22 step 4). -/
structure Policy where
  modPwr : BitVec 12
  diePwr : List (BitVec 10)
  tThrot : BitVec 8
  peerChk : List Bool
  egrCap : List (BitVec 11)
  rpcOk : List Bool
  maxLog2 : List (BitVec 8)
  maxWin : List (BitVec 6)
  polLock : Bool
  hmLock : Bool
  dbgMode : BitVec 2
  egress : List (BitVec 128 × Nat)
  deriving DecidableEq, Repr, Inhabited

opaque policyOf : Bytes → Policy
/-- The bytes step 4 digests for MEAS2: the spec names the values and not their layout. -/
opaque policyBytes : Policy → Bytes
/-- Where the ROM puts the monitor image, and the monitor entry point (R22 steps 5 and 7). -/
opaque monitorBase : Nat
opaque monitorEntry : DWord
/-- What the ROM sets for VD 0 before the monitor runs (R79), whose values the spec does not give: the ten quota registers and the frames
VD 0 owns. -/
opaque bootVdq : Fin 10 → DWord
opaque bootFrames : List Nat

/-- Falcon-1024: signature check of a key, a digest and a signature; the signature of the identity key (R20, R25, R26). -/
opaque falconVerify : Bytes → Bytes → Bytes → Bool
opaque falconSign : Bytes → Bytes → Bytes
/-- ML-KEM-1024 (FIPS 203): key pair of a seed; ciphertext and secret of a key and a seed; secret of a key and a ciphertext. -/
opaque kemKeygen : Bytes → Bytes × Bytes
opaque kemEncaps : Bytes → Bytes → Bytes × Bytes
opaque kemDecaps : Bytes → Bytes → Bytes

end Sys2Proof.Config
end

