-- ==== Sys2Proof/Syntax.lean ====
section
/-! DEFINITION. The steps of the KW-D96: every opcode of R261 with its decoded fields (R249 to R256), and every event of the
table of operations with the data its agent supplies. -/
namespace Sys2Proof

/-- Scope codes (R256): 0 thread to 6 SYS; 7 is reserved. -/
inductive Scope where
  | thread | grp | blk | clu | die | pkg | sys
  deriving DecidableEq, Repr

/-- Rounding modes (R256): codes 5 to 7 are reserved. -/
inductive Rnd where
  | rn | rz | ru | rd | rna
  deriving DecidableEq, Repr

/-- Element types (R256): codes 14 and 15 are reserved. -/
inductive ETy where
  | i8 | n8 | i16 | n16 | i32 | n32 | i64 | n64 | f16 | bf16 | f32 | f64 | f8 | f8w
  deriving DecidableEq, Repr

/-- Access paths in the bit order of R256. -/
inductive Path where
  | ls | mx | sw | ne | co | sg | wk | if_ | lq
  deriving DecidableEq, Repr

/-- MUL field of row 0x1 (R275): 11 is reserved. -/
inductive MulSel where
  | lo | hi | wide
  deriving DecidableEq, Repr

/-- Predicate combination BOP (R281). -/
inductive Bop where
  | none | and | or | xor
  deriving DecidableEq, Repr

/-- Integer comparison codes (R281): 6 and 7 are reserved. -/
inductive ICmp where
  | eq | ne | lt | le | gt | ge
  deriving DecidableEq, Repr

/-- Float comparison codes (R311). -/
inductive FCmp where
  | eq | ne | lt | le | gt | ge | num | nan
  deriving DecidableEq, Repr

/-- Formats of FCLASS (R312): 6 and 7 are reserved. -/
inductive ClassFmt where
  | f32 | f64 | f16 | bf16 | f8 | f8w
  deriving DecidableEq, Repr

/-- Operations of CVTP (R315). -/
inductive CvtpOp where
  | pk2 | pk4 | up2 | up4
  deriving DecidableEq, Repr

/-- Formats of the special functions (R316): 11 is reserved. -/
inductive SfuFmt where
  | f32 | f16 | bf16
  deriving DecidableEq, Repr

/-- Lane selection of LXCH (R319). -/
inductive LxMode where
  | pick | rot | slide | flip
  deriving DecidableEq, Repr

/-- Modes of PCOL (R320): 5 to 7 are reserved. -/
inductive PcolMode where
  | every | any_ | same | mask | count
  deriving DecidableEq, Repr

/-- Operations of XRED and XSCAN (R321): 7 is reserved. -/
inductive XOp where
  | add | min | max | and | or | xor | satadd
  deriving DecidableEq, Repr

/-- Operations of XFRED (R323): 11 is reserved. -/
inductive XfOp where
  | add | min | max
  deriving DecidableEq, Repr

/-- Access sizes (R327): 7 is reserved. -/
inductive Sz where
  | b | h | w | d | q | sb | sh
  deriving DecidableEq, Repr

/-- Swizzle selection of a scratchpad access (R334). -/
inductive Swz where
  | none | x | k | win
  deriving DecidableEq, Repr

/-- Atomic operations (R335): 8 to 15 are reserved. -/
inductive AOp where
  | add | min | max | and | or | xor | exch | inc
  deriving DecidableEq, Repr

/-- CAS sizes (R335): 11 is reserved. -/
inductive CasSz where
  | c32 | c64 | c128
  deriving DecidableEq, Repr

/-- FENCE kinds (R338): 11 is reserved. -/
inductive FenceKind where
  | ar | rel | acq
  deriving DecidableEq, Repr

/-- CBAR modes (R347): 11 is reserved. -/
inductive CbarMode where
  | sync | arrive | wait
  deriving DecidableEq, Repr

/-- Conditions of WAITA (R348): 7 is reserved. -/
inductive WaCmp where
  | eq | ne | geu | ltu | ge | lt | anyset
  deriving DecidableEq, Repr

/-- Spaces of WAITA (R348): 11 is reserved. -/
inductive WaSpace where
  | mem | spad | map
  deriving DecidableEq, Repr

/-- CCTL levels (R356): 10 and 11 are reserved. -/
inductive CcLevel where
  | l1 | l2
  deriving DecidableEq, Repr

/-- CCTL operations (R356): 11 is reserved. -/
inductive CcOp where
  | wb | wbinv | discard
  deriving DecidableEq, Repr

/-- Element types of MXDRAIN (R367): 5 to 7 are reserved. -/
inductive DrainTy where
  | f32 | bf16 | f16 | f8 | f8w
  deriving DecidableEq, Repr

/-- Forms of SVRET and TRET (R380, R383): 11 is reserved. -/
inductive RetForm where
  | next | replay | exit
  deriving DecidableEq, Repr

/-- Forms of TLBINV (R386). -/
inductive TlbForm where
  | va | as_ | vd | s2
  deriving DecidableEq, Repr

/-- Actions of a bound register (R233, R390): 11 is reserved. -/
inductive BAct where
  | flag | clamp | trap
  deriving DecidableEq, Repr

/-- Operand of an instruction field (R251): a general register, a group-uniform register, a predicate or zero. -/
inductive Opnd where
  | g (n : Fin 192) | k (n : Fin 32) | p (n : Fin 16) | zero
  deriving DecidableEq, Repr

/-- One guard term (R249): negate flag and predicate index. -/
structure Guard where
  neg : Bool
  idx : Fin 16
  deriving DecidableEq, Repr

/-- Guard combination GM (R249): 11 is Illegal Instruction. -/
inductive GMode where
  | a | and | or
  deriving DecidableEq, Repr

/-- The instruction header (R249) less its opcode. -/
structure Hdr where
  ga : Guard
  gb : Guard
  gm : GMode
  hint : Fin 4
  deriving DecidableEq, Repr

/-- MOD of row 0x1 (R275). -/
structure ArithMod where
  mul : MulSel
  sat : Bool
  u : Bool
  w64 : Bool
  deriving DecidableEq, Repr

/-- MOD of row 0x2 (R279). -/
structure LogicMod where
  tbl : Fin 256
  right : Bool
  s : Bool
  w64 : Bool
  deriving DecidableEq, Repr

/-- MOD of ICMP (R281). -/
structure IcmpMod where
  bop : Bop
  cmp : ICmp
  u : Bool
  w64 : Bool
  deriving DecidableEq, Repr

/-- MOD of FCMP (R311). -/
structure FcmpMod where
  bop : Bop
  cmp : FCmp
  w64 : Bool
  deriving DecidableEq, Repr

/-- MOD of HCMP (R311). -/
structure HcmpMod where
  bop : Bop
  cmp : FCmp
  bf : Bool
  deriving DecidableEq, Repr

/-- MOD of FCLASS (R312). -/
structure FclassMod where
  ft : ClassFmt
  cls : Fin 512
  deriving DecidableEq, Repr

/-- MOD of SEL (R282). -/
structure SelMod where
  byte : Bool
  w64 : Bool
  deriving DecidableEq, Repr

/-- MOD of PCOMB (R283). -/
structure PcombMod where
  tbl : Fin 256
  deriving DecidableEq, Repr

/-- MOD of P2G (R284). -/
structure P2gMod where
  hi : Bool
  deriving DecidableEq, Repr

/-- MOD of G2P (R284). -/
structure G2pMod where
  keep : Fin 256
  hi : Bool
  deriving DecidableEq, Repr

/-- MOD of MOV (R285). -/
structure MovMod where
  u : Bool
  w64 : Bool
  deriving DecidableEq, Repr

/-- MOD of LEA (R285). -/
structure LeaMod where
  u : Bool
  sh : Fin 8
  deriving DecidableEq, Repr

/-- MOD of row 0x4 (R308). -/
structure FpMod where
  nc : Bool
  na : Bool
  rnd : Rnd
  deriving DecidableEq, Repr

/-- MOD of the packed 16-bit float instructions (R310). -/
structure HalfMod where
  bf : Bool
  rnd : Rnd
  deriving DecidableEq, Repr

/-- MOD of the packed-integer instructions (R286); `dp` is the decision predicate of ACS2, present when DPEN is 1. -/
structure VecMod where
  dp : Option (Fin 16)
  max : Bool
  sat : Bool
  u : Bool
  e8 : Bool
  deriving DecidableEq, Repr

/-- MOD of CVT (R314). -/
structure CvtMod where
  dt : ETy
  st : ETy
  rnd : Rnd
  sat : Bool
  ef : Bool
  deriving DecidableEq, Repr

/-- MOD of CVTP (R315). -/
structure CvtpMod where
  pt : ETy
  op : CvtpOp
  rnd : Rnd
  sat : Bool
  ef : Bool
  deriving DecidableEq, Repr

/-- MOD of EXP2, LOG2, SIN.PI and COS.PI (R316). -/
structure SfuMod where
  ft : SfuFmt
  rnd : Rnd
  deriving DecidableEq, Repr

/-- MOD of RNDH (R317). -/
structure RndhMod where
  u01 : Bool
  deriving DecidableEq, Repr

/-- MOD of FRND and FSCALE (R313). -/
structure FrndMod where
  w64 : Bool
  rnd : Rnd
  deriving DecidableEq, Repr

/-- MOD of LXCH (R319). -/
structure LxchMod where
  w64 : Bool
  seg : Fin 7
  mode : LxMode
  deriving DecidableEq, Repr

/-- MOD of PCOL (R320). -/
structure PcolMod where
  pair : Bool
  pb : Fin 4
  mode : PcolMode
  deriving DecidableEq, Repr

/-- MOD of XRED and XSCAN (R321). -/
structure XredMod where
  excl : Bool
  w64 : Bool
  u : Bool
  op : XOp
  deriving DecidableEq, Repr

/-- MOD of XFIND (R322). -/
structure XfindMod where
  w64 : Bool
  deriving DecidableEq, Repr

/-- MOD of XFRED (R323). -/
structure XfredMod where
  w64 : Bool
  rnd : Rnd
  op : XfOp
  deriving DecidableEq, Repr

/-- MOD of LD, LDM, STM, PRF and of an ST without BC (R327); `scope` thread is a plain access. -/
structure MemMod where
  usr : Bool
  scope : Scope
  col : Fin 8
  sh : Fin 8
  sz : Sz
  deriving DecidableEq, Repr

/-- MOD of a checked store (R330), less its bit 15. -/
structure BcMod where
  bnd : Fin 32
  ety : ETy
  col : Fin 8
  sz : Sz
  deriving DecidableEq, Repr

/-- MOD of LD.PROBE (R331). -/
structure ProbeMod where
  usr : Bool
  scope : Scope
  pd : Fin 16
  sh : Fin 8
  sz : Sz
  deriving DecidableEq, Repr

/-- MOD of LDS and STS (R334). -/
structure LdsMod where
  win : Fin 256
  swz : Swz
  sh : Fin 8
  sz : Sz
  deriving DecidableEq, Repr

/-- MOD of ATOM and RED (R335). -/
structure AtomMod where
  scope : Scope
  col : Fin 8
  acq : Bool
  rel : Bool
  op : AOp
  u : Bool
  w64 : Bool
  sh : Fin 4
  deriving DecidableEq, Repr

/-- MOD of CAS (R335). -/
structure CasMod where
  scope : Scope
  col : Fin 8
  acq : Bool
  rel : Bool
  csz : CasSz
  sh : Fin 4
  deriving DecidableEq, Repr

/-- MOD of ATOMS and REDS (R337). -/
structure AtomsMod where
  win : Fin 256
  swz : Swz
  op : AOp
  u : Bool
  w64 : Bool
  deriving DecidableEq, Repr

/-- MOD of CASS (R337). -/
structure CassMod where
  win : Fin 256
  swz : Swz
  csz : CasSz
  sh : Fin 4
  deriving DecidableEq, Repr

/-- MOD of FENCE (R338); `mask` is present when MEN is 1. -/
structure FenceMod where
  mask : Option (Fin 256)
  scope : Scope
  kind : FenceKind
  deriving DecidableEq, Repr

/-- MOD of PFENCE (R339). -/
structure PfenceMod where
  dst : Fin 512
  scope : Scope
  frm : Path
  deriving DecidableEq, Repr

/-- MOD of BAR.INIT, BAR.WAIT and BAR.INV (R341). -/
structure BarMod where
  id : Fin 16
  deriving DecidableEq, Repr

/-- MOD of BAR.ARRIVE and BAR.SYNC (R341). -/
structure BarArrMod where
  pm : Fin 512
  id : Fin 16
  deriving DecidableEq, Repr

/-- MOD of CBAR (R347). -/
structure CbarMod where
  pm : Fin 512
  mode : CbarMode
  deriving DecidableEq, Repr

/-- MOD of WAITA (R348). -/
structure WaitaMod where
  scope : Scope
  cmp : WaCmp
  w64 : Bool
  space : WaSpace
  deriving DecidableEq, Repr

/-- MOD of UNSEAL (R355). -/
structure UnsealMod where
  sync : Bool
  deriving DecidableEq, Repr

/-- MOD of CCTL (R356). -/
structure CctlMod where
  level : CcLevel
  op : CcOp
  deriving DecidableEq, Repr

/-- MOD of MXDRAIN (R367). -/
structure MxdrainMod where
  dt : DrainTy
  rnd : Rnd
  sat : Bool
  ef : Bool
  clr : Bool
  rclr : Bool
  ben : Bool
  bnd : Fin 32
  deriving DecidableEq, Repr

/-- MOD of MXWAIT (R369). -/
structure MxwaitMod where
  all : Bool
  deriving DecidableEq, Repr

/-- MOD of TASK.DEP (R375). -/
structure TaskDepMod where
  clrp : Bool
  deriving DecidableEq, Repr

/-- MOD of SVQTAKE (R379). -/
structure SvqtakeMod where
  pd : Fin 16
  deriving DecidableEq, Repr

/-- MOD of SVRET (R380). -/
structure SvretMod where
  g1 : Bool
  form : RetForm
  deriving DecidableEq, Repr

/-- MOD of PTSYNC (R385); `mask` is present when MEN is 1. -/
structure PtsyncMod where
  mask : Option (Fin 256)
  scope : Scope
  deriving DecidableEq, Repr

/-- MOD of TLBINV (R386). -/
structure TlbinvMod where
  scope : Scope
  sync : Bool
  form : TlbForm
  deriving DecidableEq, Repr

/-- MOD of PGMOVE (R387). -/
structure PgmoveMod where
  s2 : Bool
  deriving DecidableEq, Repr

/-- MOD of BND.SET (R390). -/
structure BndMod where
  kcnt : Bool
  i32 : Bool
  nanp : Bool
  action : BAct
  deriving DecidableEq, Repr

/-- MOD of SCHED.STEP (R391). -/
structure SchedMod where
  set : Bool
  deriving DecidableEq, Repr

/-- MOD of ST: the plain layout of R327 or the checked store of R330. -/
inductive StMod where
  | plain (m : MemMod) | bc (m : BcMod)
  deriving DecidableEq, Repr

/-- The rails, in the order the regulators raise them (R14). -/
inductive Rail where
  | v1p8 | vhbm | vio | vsram | vcore0 | vcore1 | vcore2 | vcore3
  deriving DecidableEq, Repr

/-- What the network answers for one operation of a queue pair (R39): a status, the bytes read and the old value. A status above 8 is no
answer: the engine ends an operation that is decided already. -/
structure NetResult where
  status : Nat
  data : Bytes
  old : BitVec 64
  deriving DecidableEq, Repr

/-- An inbound packet as its port delivers it (R33, R45): which checks the link found true is part of the packet.
PROFILE as R38 codes it, the delivery context, and, of a Write, its number among those of its initiator queue pair to the VD and among
those of its context, in the order they were sent, from 0. -/
structure InPkt where
  port : Fin 4
  domain : Option Nat
  lpid : Nat
  rkey : BitVec 32
  rva : BitVec 64
  len : Nat
  addend : BitVec 64
  data : Bytes
  prof : Nat
  pdc : Nat
  seq : Nat
  cseq : Nat
  flagged : Bool
  supported : Bool
  gcmOk : Bool
  src : Bytes
  rpid : Nat
  deriving DecidableEq, Repr

/-- A PCI Express memory write as an endpoint receives it (R52, R55, R64). -/
structure PeerWrite where
  rid : BitVec 16
  off : Nat
  data : Bytes
  relaxed : Bool
  crcOk : Bool
  deriving DecidableEq, Repr

/-- How a host message travelled (R68, R69). -/
inductive Transport where
  | ue (port : Fin 4) (src : Bytes) (rpid : Nat)
  | pcie (ep : Fin 2) (w : Fin 32)
  deriving DecidableEq, Repr

/-- The source of a MAP call (R75). -/
inductive MapSource where
  | frames (gpa : Nat) | flash (nsid lba : Nat) | remote (pkg handle : Nat)
  deriving DecidableEq, Repr

/-- A MAP request (R75) with the table pages the serving supervisor may use for missing levels. -/
structure MapReq where
  asid : Fin 256
  va : Nat
  len : Nat
  perm : Fin 16
  source : MapSource
  pool : List Nat
  deriving DecidableEq, Repr

/-- A launch or a task, as a kill names it (R241). -/
inductive Work where
  | launch (lid : Nat) | task (tid : Nat)
  deriving DecidableEq, Repr

/-- The matched post of one other rank of a collective (R373): its descriptor codes, and its data when it is reachable, with the
poisoned ones among the 32-byte units of the data. -/
structure PeerPost where
  rank : Nat
  reachable : Bool
  op : Nat
  dtype : Nat
  rop : Nat
  count : Nat
  root : Nat
  bad : List Nat
  data : Bytes
  deriving DecidableEq, Repr

/-- The posts of the other ranks (R373). -/
abbrev CollPeers := List PeerPost

/-- What an access asks of a translation (R209). -/
structure WalkAcc where
  write : Bool
  fetch : Bool
  user : Bool
  deriving DecidableEq, Repr

/-- The register a REGISTER_WRITE names (R6): a control register as a core reaches it, or a register page of a VD. -/
inductive RegTarget where
  | csr (core : Core) (index : Nat)
  | page (vd : Vd) (gpa : Nat)
  deriving DecidableEq, Repr

/-- Every step of the table: the opcodes, then the events that bring data from outside, then the steps of the hardware's own
agents, which carry none: the agent of such a step is the one `State.sch.sel` names. -/
inductive Instr where
  /-- NOP, opcode 0x00, layout X (R261). -/
  | nop (h : Hdr)
  /-- BRA, opcode 0x01, layout Y (R261). -/
  | bra (h : Hdr) (imm : BitVec 32)
  /-- CALL, opcode 0x02, layout Y (R261). -/
  | call (h : Hdr) (d : Opnd) (imm : BitVec 32)
  /-- RET, opcode 0x03, layout X (R261). -/
  | ret (h : Hdr) (a : Opnd)
  /-- BRX, opcode 0x04, layout X (R261). -/
  | brx (h : Hdr) (a : Opnd) (b : Opnd)
  /-- CALLX, opcode 0x05, layout X (R261). -/
  | callx (h : Hdr) (d : Opnd) (a : Opnd) (b : Opnd)
  /-- YIELD, opcode 0x06, layout X (R261). -/
  | yield (h : Hdr)
  /-- EXIT, opcode 0x07, layout X (R261). -/
  | exit (h : Hdr)
  /-- IADD, opcode 0x10, layout X (R261). -/
  | iadd (h : Hdr) (m : ArithMod) (d : Opnd) (a : Opnd) (b : Opnd)
  /-- IADD_IMM, opcode 0x11, layout Y (R261). -/
  | iaddImm (h : Hdr) (m : ArithMod) (d : Opnd) (a : Opnd) (imm : BitVec 32)
  /-- ISUB, opcode 0x12, layout X (R261). -/
  | isub (h : Hdr) (m : ArithMod) (d : Opnd) (a : Opnd) (b : Opnd)
  /-- ISUB_IMM, opcode 0x13, layout Y (R261). -/
  | isubImm (h : Hdr) (m : ArithMod) (d : Opnd) (a : Opnd) (imm : BitVec 32)
  /-- IMUL, opcode 0x14, layout X (R261). -/
  | imul (h : Hdr) (m : ArithMod) (d : Opnd) (a : Opnd) (b : Opnd)
  /-- IMUL_IMM, opcode 0x15, layout Y (R261). -/
  | imulImm (h : Hdr) (m : ArithMod) (d : Opnd) (a : Opnd) (imm : BitVec 32)
  /-- IMAD, opcode 0x16, layout X (R261). -/
  | imad (h : Hdr) (m : ArithMod) (d : Opnd) (a : Opnd) (b : Opnd) (c : Opnd)
  /-- IMAD_IMM, opcode 0x17, layout Y (R261). -/
  | imadImm (h : Hdr) (m : ArithMod) (d : Opnd) (a : Opnd) (b : Opnd) (imm : BitVec 32)
  /-- IDIV, opcode 0x18, layout X (R261). -/
  | idiv (h : Hdr) (m : ArithMod) (d : Opnd) (a : Opnd) (b : Opnd)
  /-- IREM, opcode 0x19, layout X (R261). -/
  | irem (h : Hdr) (m : ArithMod) (d : Opnd) (a : Opnd) (b : Opnd)
  /-- IMIN, opcode 0x1A, layout X (R261). -/
  | imin (h : Hdr) (m : ArithMod) (d : Opnd) (a : Opnd) (b : Opnd)
  /-- IMIN_IMM, opcode 0x1B, layout Y (R261). -/
  | iminImm (h : Hdr) (m : ArithMod) (d : Opnd) (a : Opnd) (imm : BitVec 32)
  /-- IMAX, opcode 0x1C, layout X (R261). -/
  | imax (h : Hdr) (m : ArithMod) (d : Opnd) (a : Opnd) (b : Opnd)
  /-- IMAX_IMM, opcode 0x1D, layout Y (R261). -/
  | imaxImm (h : Hdr) (m : ArithMod) (d : Opnd) (a : Opnd) (imm : BitVec 32)
  /-- IABS, opcode 0x1E, layout X (R261). -/
  | iabs (h : Hdr) (m : ArithMod) (d : Opnd) (a : Opnd)
  /-- ISAD, opcode 0x1F, layout X (R261). -/
  | isad (h : Hdr) (m : ArithMod) (d : Opnd) (a : Opnd) (b : Opnd) (c : Opnd)
  /-- AND, opcode 0x20, layout X (R261). -/
  | and (h : Hdr) (m : LogicMod) (d : Opnd) (a : Opnd) (b : Opnd)
  /-- AND_IMM, opcode 0x21, layout Y (R261). -/
  | andImm (h : Hdr) (m : LogicMod) (d : Opnd) (a : Opnd) (imm : BitVec 32)
  /-- OR, opcode 0x22, layout X (R261). -/
  | or (h : Hdr) (m : LogicMod) (d : Opnd) (a : Opnd) (b : Opnd)
  /-- OR_IMM, opcode 0x23, layout Y (R261). -/
  | orImm (h : Hdr) (m : LogicMod) (d : Opnd) (a : Opnd) (imm : BitVec 32)
  /-- XOR, opcode 0x24, layout X (R261). -/
  | xor (h : Hdr) (m : LogicMod) (d : Opnd) (a : Opnd) (b : Opnd)
  /-- XOR_IMM, opcode 0x25, layout Y (R261). -/
  | xorImm (h : Hdr) (m : LogicMod) (d : Opnd) (a : Opnd) (imm : BitVec 32)
  /-- NOT, opcode 0x26, layout X (R261). -/
  | not (h : Hdr) (m : LogicMod) (d : Opnd) (a : Opnd)
  /-- LOGT, opcode 0x27, layout X (R261). -/
  | logt (h : Hdr) (m : LogicMod) (d : Opnd) (a : Opnd) (b : Opnd) (c : Opnd)
  /-- SHL, opcode 0x28, layout X (R261). -/
  | shl (h : Hdr) (m : LogicMod) (d : Opnd) (a : Opnd) (b : Opnd)
  /-- SHL_IMM, opcode 0x29, layout Y (R261). -/
  | shlImm (h : Hdr) (m : LogicMod) (d : Opnd) (a : Opnd) (imm : BitVec 32)
  /-- SHR, opcode 0x2A, layout X (R261). -/
  | shr (h : Hdr) (m : LogicMod) (d : Opnd) (a : Opnd) (b : Opnd)
  /-- SHR_IMM, opcode 0x2B, layout Y (R261). -/
  | shrImm (h : Hdr) (m : LogicMod) (d : Opnd) (a : Opnd) (imm : BitVec 32)
  /-- ROT, opcode 0x2C, layout X (R261). -/
  | rot (h : Hdr) (m : LogicMod) (d : Opnd) (a : Opnd) (b : Opnd)
  /-- POPC, opcode 0x2D, layout X (R261). -/
  | popc (h : Hdr) (m : LogicMod) (d : Opnd) (a : Opnd)
  /-- CLZ, opcode 0x2E, layout X (R261). -/
  | clz (h : Hdr) (m : LogicMod) (d : Opnd) (a : Opnd)
  /-- BFX, opcode 0x2F, layout X (R261). -/
  | bfx (h : Hdr) (m : LogicMod) (d : Opnd) (a : Opnd) (b : Opnd) (c : Opnd)
  /-- ICMP, opcode 0x30, layout X (R261). -/
  | icmp (h : Hdr) (m : IcmpMod) (d : Opnd) (a : Opnd) (b : Opnd) (c : Option Opnd)
  /-- ICMP_IMM, opcode 0x31, layout Y (R261). -/
  | icmpImm (h : Hdr) (m : IcmpMod) (d : Opnd) (a : Opnd) (imm : BitVec 32)
  /-- FCMP, opcode 0x32, layout X (R261). -/
  | fcmp (h : Hdr) (m : FcmpMod) (d : Opnd) (a : Opnd) (b : Opnd) (c : Option Opnd)
  /-- FCMP_IMM, opcode 0x33, layout Y (R261). -/
  | fcmpImm (h : Hdr) (m : FcmpMod) (d : Opnd) (a : Opnd) (imm : BitVec 32)
  /-- FCLASS, opcode 0x34, layout X (R261). -/
  | fclass (h : Hdr) (m : FclassMod) (d : Opnd) (a : Opnd)
  /-- HCMP, opcode 0x35, layout X (R261). -/
  | hcmp (h : Hdr) (m : HcmpMod) (d : Opnd) (a : Opnd) (b : Opnd) (c : Option Opnd)
  /-- SEL, opcode 0x36, layout X (R261). -/
  | sel (h : Hdr) (m : SelMod) (d : Opnd) (p : Opnd) (a : Opnd) (b : Opnd)
  /-- SEL_IMM, opcode 0x37, layout Y (R261). -/
  | selImm (h : Hdr) (m : SelMod) (d : Opnd) (p : Opnd) (a : Opnd) (imm : BitVec 32)
  /-- PCOMB, opcode 0x38, layout X (R261). -/
  | pcomb (h : Hdr) (m : PcombMod) (d : Opnd) (a : Opnd) (b : Opnd) (c : Opnd)
  /-- P2G, opcode 0x39, layout X (R261). -/
  | p2g (h : Hdr) (m : P2gMod) (d : Opnd)
  /-- G2P, opcode 0x3A, layout X (R261). -/
  | g2p (h : Hdr) (m : G2pMod) (a : Opnd)
  /-- MOV, opcode 0x3B, layout X (R261). -/
  | mov (h : Hdr) (m : MovMod) (d : Opnd) (a : Opnd)
  /-- MOV_IMM, opcode 0x3C, layout Y (R261). -/
  | movImm (h : Hdr) (m : MovMod) (d : Opnd) (imm : BitVec 32)
  /-- MOVH, opcode 0x3D, layout Y (R261). -/
  | movh (h : Hdr) (d : Opnd) (imm : BitVec 32)
  /-- LEA, opcode 0x3E, layout X (R261). -/
  | lea (h : Hdr) (m : LeaMod) (d : Opnd) (a : Opnd) (b : Opnd)
  /-- LEA_IMM, opcode 0x3F, layout Y (R261). -/
  | leaImm (h : Hdr) (m : LeaMod) (d : Opnd) (a : Opnd) (imm : BitVec 32)
  /-- FADD, opcode 0x40, layout X (R261). -/
  | fadd (h : Hdr) (m : FpMod) (d : Opnd) (a : Opnd) (b : Opnd)
  /-- FADD_IMM, opcode 0x41, layout Y (R261). -/
  | faddImm (h : Hdr) (m : FpMod) (d : Opnd) (a : Opnd) (imm : BitVec 32)
  /-- FSUB, opcode 0x42, layout X (R261). -/
  | fsub (h : Hdr) (m : FpMod) (d : Opnd) (a : Opnd) (b : Opnd)
  /-- FMUL, opcode 0x43, layout X (R261). -/
  | fmul (h : Hdr) (m : FpMod) (d : Opnd) (a : Opnd) (b : Opnd)
  /-- FMUL_IMM, opcode 0x44, layout Y (R261). -/
  | fmulImm (h : Hdr) (m : FpMod) (d : Opnd) (a : Opnd) (imm : BitVec 32)
  /-- FFMA, opcode 0x45, layout X (R261). -/
  | ffma (h : Hdr) (m : FpMod) (d : Opnd) (a : Opnd) (b : Opnd) (c : Opnd)
  /-- FFMA_IMM, opcode 0x46, layout Y (R261). -/
  | ffmaImm (h : Hdr) (m : FpMod) (d : Opnd) (a : Opnd) (b : Opnd) (imm : BitVec 32)
  /-- FMIN, opcode 0x47, layout X (R261). -/
  | fmin (h : Hdr) (m : FpMod) (d : Opnd) (a : Opnd) (b : Opnd)
  /-- FMAX, opcode 0x48, layout X (R261). -/
  | fmax (h : Hdr) (m : FpMod) (d : Opnd) (a : Opnd) (b : Opnd)
  /-- FDIV, opcode 0x49, layout X (R261). -/
  | fdiv (h : Hdr) (m : FpMod) (d : Opnd) (a : Opnd) (b : Opnd)
  /-- FSQRT, opcode 0x4A, layout X (R261). -/
  | fsqrt (h : Hdr) (m : FpMod) (d : Opnd) (a : Opnd)
  /-- FRCP, opcode 0x4B, layout X (R261). -/
  | frcp (h : Hdr) (m : FpMod) (d : Opnd) (a : Opnd)
  /-- FRSQ, opcode 0x4C, layout X (R261). -/
  | frsq (h : Hdr) (m : FpMod) (d : Opnd) (a : Opnd)
  /-- DADD, opcode 0x4D, layout X (R261). -/
  | dadd (h : Hdr) (m : FpMod) (d : Opnd) (a : Opnd) (b : Opnd)
  /-- DMUL, opcode 0x4E, layout X (R261). -/
  | dmul (h : Hdr) (m : FpMod) (d : Opnd) (a : Opnd) (b : Opnd)
  /-- DFMA, opcode 0x4F, layout X (R261). -/
  | dfma (h : Hdr) (m : FpMod) (d : Opnd) (a : Opnd) (b : Opnd) (c : Opnd)
  /-- HADD, opcode 0x50, layout X (R261). -/
  | hadd (h : Hdr) (m : HalfMod) (d : Opnd) (a : Opnd) (b : Opnd)
  /-- HMUL, opcode 0x51, layout X (R261). -/
  | hmul (h : Hdr) (m : HalfMod) (d : Opnd) (a : Opnd) (b : Opnd)
  /-- HFMA, opcode 0x52, layout X (R261). -/
  | hfma (h : Hdr) (m : HalfMod) (d : Opnd) (a : Opnd) (b : Opnd) (c : Opnd)
  /-- HMIN, opcode 0x53, layout X (R261). -/
  | hmin (h : Hdr) (m : HalfMod) (d : Opnd) (a : Opnd) (b : Opnd)
  /-- HMAX, opcode 0x54, layout X (R261). -/
  | hmax (h : Hdr) (m : HalfMod) (d : Opnd) (a : Opnd) (b : Opnd)
  /-- VADD, opcode 0x55, layout X (R261). -/
  | vadd (h : Hdr) (m : VecMod) (d : Opnd) (a : Opnd) (b : Opnd)
  /-- VADD_IMM, opcode 0x56, layout Y (R261). -/
  | vaddImm (h : Hdr) (m : VecMod) (d : Opnd) (a : Opnd) (imm : BitVec 32)
  /-- VSUB, opcode 0x57, layout X (R261). -/
  | vsub (h : Hdr) (m : VecMod) (d : Opnd) (a : Opnd) (b : Opnd)
  /-- VMIN, opcode 0x58, layout X (R261). -/
  | vmin (h : Hdr) (m : VecMod) (d : Opnd) (a : Opnd) (b : Opnd)
  /-- VMAX, opcode 0x59, layout X (R261). -/
  | vmax (h : Hdr) (m : VecMod) (d : Opnd) (a : Opnd) (b : Opnd)
  /-- VMUL, opcode 0x5A, layout X (R261). -/
  | vmul (h : Hdr) (m : VecMod) (d : Opnd) (a : Opnd) (b : Opnd)
  /-- VDOT, opcode 0x5B, layout X (R261). -/
  | vdot (h : Hdr) (m : VecMod) (d : Opnd) (a : Opnd) (b : Opnd) (c : Opnd)
  /-- ACS2, opcode 0x5C, layout X (R261). -/
  | acs2 (h : Hdr) (m : VecMod) (d : Opnd) (a : Opnd) (b : Opnd) (c : Opnd) (e : Opnd)
  /-- VABSD, opcode 0x5D, layout X (R261). -/
  | vabsd (h : Hdr) (m : VecMod) (d : Opnd) (a : Opnd) (b : Opnd)
  /-- PRMT, opcode 0x5E, layout X (R261). -/
  | prmt (h : Hdr) (m : VecMod) (d : Opnd) (a : Opnd) (b : Opnd) (c : Opnd)
  /-- PRMT_IMM, opcode 0x5F, layout Y (R261). -/
  | prmtImm (h : Hdr) (m : VecMod) (d : Opnd) (a : Opnd) (b : Opnd) (imm : BitVec 32)
  /-- CVT, opcode 0x60, layout X (R261). -/
  | cvt (h : Hdr) (m : CvtMod) (d : Opnd) (a : Opnd) (b : Option Opnd)
  /-- CVTP, opcode 0x61, layout X (R261). -/
  | cvtp (h : Hdr) (m : CvtpMod) (d : Opnd) (a : Opnd) (b : Option Opnd) (c : Option Opnd)
  /-- EXP2, opcode 0x62, layout X (R261). -/
  | exp2 (h : Hdr) (m : SfuMod) (d : Opnd) (a : Opnd)
  /-- LOG2, opcode 0x63, layout X (R261). -/
  | log2 (h : Hdr) (m : SfuMod) (d : Opnd) (a : Opnd)
  /-- SIN_PI, opcode 0x64, layout X (R261). -/
  | sinPi (h : Hdr) (m : SfuMod) (d : Opnd) (a : Opnd)
  /-- COS_PI, opcode 0x65, layout X (R261). -/
  | cosPi (h : Hdr) (m : SfuMod) (d : Opnd) (a : Opnd)
  /-- RNDH, opcode 0x66, layout X (R261). -/
  | rndh (h : Hdr) (m : RndhMod) (d : Opnd) (a : Opnd) (b : Opnd)
  /-- RNDH_IMM, opcode 0x67, layout Y (R261). -/
  | rndhImm (h : Hdr) (m : RndhMod) (d : Opnd) (a : Opnd) (imm : BitVec 32)
  /-- FRND, opcode 0x68, layout X (R261). -/
  | frnd (h : Hdr) (m : FrndMod) (d : Opnd) (a : Opnd)
  /-- FSCALE, opcode 0x69, layout X (R261). -/
  | fscale (h : Hdr) (m : FrndMod) (d : Opnd) (a : Opnd) (b : Opnd)
  /-- FSCALE_IMM, opcode 0x6A, layout Y (R261). -/
  | fscaleImm (h : Hdr) (m : FrndMod) (d : Opnd) (a : Opnd) (imm : BitVec 32)
  /-- LXCH, opcode 0x70, layout X (R261). -/
  | lxch (h : Hdr) (m : LxchMod) (d : Opnd) (a : Opnd) (b : Opnd) (c : Option Opnd)
  /-- LXCH_IMM, opcode 0x71, layout Y (R261). -/
  | lxchImm (h : Hdr) (m : LxchMod) (d : Opnd) (a : Opnd) (imm : BitVec 32)
  /-- PCOL, opcode 0x72, layout X (R261). -/
  | pcol (h : Hdr) (m : PcolMod) (d : Opnd) (a : Opnd)
  /-- XRED, opcode 0x73, layout X (R261). -/
  | xred (h : Hdr) (m : XredMod) (d : Opnd) (a : Opnd)
  /-- XSCAN, opcode 0x74, layout X (R261). -/
  | xscan (h : Hdr) (m : XredMod) (d : Opnd) (a : Opnd)
  /-- XFIND, opcode 0x75, layout X (R261). -/
  | xfind (h : Hdr) (m : XfindMod) (d : Opnd) (a : Opnd) (c : Option Opnd)
  /-- XFRED, opcode 0x76, layout X (R261). -/
  | xfred (h : Hdr) (m : XfredMod) (d : Opnd) (a : Opnd)
  /-- LD, opcode 0x80, layout Y (R261). -/
  | ld (h : Hdr) (m : MemMod) (d : Opnd) (a : Opnd) (b : Opnd) (imm : BitVec 32)
  /-- ST, opcode 0x81, layout Y (R261). -/
  | st (h : Hdr) (m : StMod) (d : Opnd) (a : Opnd) (b : Opnd) (imm : BitVec 32)
  /-- LD_PROBE, opcode 0x82, layout Y (R261). -/
  | ldProbe (h : Hdr) (m : ProbeMod) (d : Opnd) (a : Opnd) (b : Opnd) (imm : BitVec 32)
  /-- LDS, opcode 0x83, layout Y (R261). -/
  | lds (h : Hdr) (m : LdsMod) (d : Opnd) (a : Opnd) (b : Opnd) (imm : BitVec 32)
  /-- STS, opcode 0x84, layout Y (R261). -/
  | sts (h : Hdr) (m : LdsMod) (d : Opnd) (a : Opnd) (b : Opnd) (imm : BitVec 32)
  /-- LDM, opcode 0x85, layout Y (R261). -/
  | ldm (h : Hdr) (m : MemMod) (d : Opnd) (a : Opnd) (b : Opnd) (imm : BitVec 32)
  /-- STM, opcode 0x86, layout Y (R261). -/
  | stm (h : Hdr) (m : MemMod) (d : Opnd) (a : Opnd) (b : Opnd) (imm : BitVec 32)
  /-- PRF, opcode 0x87, layout Y (R261). -/
  | prf (h : Hdr) (m : MemMod) (a : Opnd) (b : Opnd) (imm : BitVec 32)
  /-- ATOM_IMM, opcode 0x90, layout Y (R261). -/
  | atomImm (h : Hdr) (m : AtomMod) (d : Opnd) (a : Opnd) (b : Opnd) (imm : BitVec 32)
  /-- ATOM, opcode 0x91, layout X (R261). -/
  | atom (h : Hdr) (m : AtomMod) (d : Opnd) (a : Opnd) (b : Opnd) (c : Opnd)
  /-- RED_IMM, opcode 0x92, layout Y (R261). -/
  | redImm (h : Hdr) (m : AtomMod) (a : Opnd) (b : Opnd) (imm : BitVec 32)
  /-- RED, opcode 0x93, layout X (R261). -/
  | red (h : Hdr) (m : AtomMod) (a : Opnd) (b : Opnd) (c : Opnd)
  /-- CAS, opcode 0x94, layout X (R261). -/
  | cas (h : Hdr) (m : CasMod) (d : Opnd) (a : Opnd) (b : Opnd) (c : Opnd) (e : Opnd)
  /-- ATOMS, opcode 0x95, layout Y (R261). -/
  | atoms (h : Hdr) (m : AtomsMod) (d : Opnd) (a : Opnd) (b : Opnd) (imm : BitVec 32)
  /-- REDS, opcode 0x96, layout Y (R261). -/
  | reds (h : Hdr) (m : AtomsMod) (a : Opnd) (b : Opnd) (imm : BitVec 32)
  /-- CASS, opcode 0x97, layout X (R261). -/
  | cass (h : Hdr) (m : CassMod) (d : Opnd) (a : Opnd) (b : Opnd) (c : Opnd) (e : Opnd)
  /-- FENCE, opcode 0xA0, layout X (R261). -/
  | fence (h : Hdr) (m : FenceMod)
  /-- PFENCE, opcode 0xA1, layout X (R261). -/
  | pfence (h : Hdr) (m : PfenceMod)
  /-- BAR_INIT, opcode 0xA2, layout X (R261). -/
  | barInit (h : Hdr) (m : BarMod) (a : Opnd)
  /-- BAR_INIT_IMM, opcode 0xA3, layout Y (R261). -/
  | barInitImm (h : Hdr) (m : BarMod) (imm : BitVec 32)
  /-- BAR_ARRIVE, opcode 0xA4, layout X (R261). -/
  | barArrive (h : Hdr) (m : BarArrMod) (a : Opnd)
  /-- BAR_ARRIVE_IMM, opcode 0xA5, layout Y (R261). -/
  | barArriveImm (h : Hdr) (m : BarArrMod) (imm : BitVec 32)
  /-- BAR_WAIT, opcode 0xA6, layout X (R261). -/
  | barWait (h : Hdr) (m : BarMod)
  /-- BAR_SYNC, opcode 0xA7, layout X (R261). -/
  | barSync (h : Hdr) (m : BarArrMod) (a : Opnd)
  /-- BAR_SYNC_IMM, opcode 0xA8, layout Y (R261). -/
  | barSyncImm (h : Hdr) (m : BarArrMod) (imm : BitVec 32)
  /-- BAR_INV, opcode 0xA9, layout X (R261). -/
  | barInv (h : Hdr) (m : BarMod)
  /-- WAITA_IMM, opcode 0xAA, layout Y (R261). -/
  | waitaImm (h : Hdr) (m : WaitaMod) (d : Opnd) (a : Opnd) (b : Opnd) (imm : BitVec 32)
  /-- WAITA, opcode 0xAB, layout X (R261). -/
  | waita (h : Hdr) (m : WaitaMod) (d : Opnd) (a : Opnd) (b : Opnd) (c : Opnd)
  /-- CBAR, opcode 0xAC, layout X (R261). -/
  | cbar (h : Hdr) (m : CbarMod)
  /-- WIN_BIND, opcode 0xB0, layout X (R261). -/
  | winBind (h : Hdr) (d : Opnd) (a : Opnd) (b : Opnd)
  /-- WIN_TOUCH, opcode 0xB1, layout X (R261). -/
  | winTouch (h : Hdr) (a : Opnd)
  /-- WIN_RETIRE, opcode 0xB2, layout X (R261). -/
  | winRetire (h : Hdr) (a : Opnd)
  /-- WIN_STATE, opcode 0xB3, layout X (R261). -/
  | winState (h : Hdr) (d : Opnd) (a : Opnd)
  /-- SEAL, opcode 0xB4, layout X (R261). -/
  | seal (h : Hdr) (d : Opnd) (a : Opnd) (b : Opnd) (c : Opnd)
  /-- UNSEAL, opcode 0xB5, layout X (R261). -/
  | unseal (h : Hdr) (m : UnsealMod) (d : Opnd) (a : Opnd) (b : Opnd) (c : Opnd)
  /-- CCTL_IMM, opcode 0xB6, layout Y (R261). -/
  | cctlImm (h : Hdr) (m : CctlMod) (a : Opnd) (imm : BitVec 32)
  /-- CCTL, opcode 0xB7, layout X (R261). -/
  | cctl (h : Hdr) (m : CctlMod) (a : Opnd) (b : Opnd)
  /-- IINV, opcode 0xB8, layout X (R261). -/
  | iinv (h : Hdr) (a : Opnd) (b : Opnd)
  /-- ISYNC, opcode 0xB9, layout X (R261). -/
  | isync (h : Hdr)
  /-- MXOP, opcode 0xC0, layout X (R261). -/
  | mxop (h : Hdr) (d : Opnd) (a : Opnd)
  /-- MXOP_IMM, opcode 0xC1, layout Y (R261). -/
  | mxopImm (h : Hdr) (d : Opnd) (imm : BitVec 32)
  /-- MXDRAIN, opcode 0xC2, layout X (R261). -/
  | mxdrain (h : Hdr) (m : MxdrainMod) (d : Opnd) (a : Opnd) (b : Opnd) (c : Opnd)
  /-- MXWAIT, opcode 0xC3, layout X (R261). -/
  | mxwait (h : Hdr) (m : MxwaitMod) (a : Option Opnd)
  /-- MXBURST, opcode 0xC4, layout X (R261). -/
  | mxburst (h : Hdr) (a : Opnd)
  /-- MXBURST_IMM, opcode 0xC5, layout Y (R261). -/
  | mxburstImm (h : Hdr) (imm : BitVec 32)
  /-- COLL_POST, opcode 0xC6, layout X (R261). -/
  | collPost (h : Hdr) (d : Opnd) (a : Opnd)
  /-- TASK_POST, opcode 0xD0, layout X (R261). -/
  | taskPost (h : Hdr) (d : Opnd) (a : Opnd) (b : Opnd)
  /-- TASK_DEP, opcode 0xD1, layout X (R261). -/
  | taskDep (h : Hdr) (m : TaskDepMod) (d : Opnd) (a : Opnd) (b : Opnd) (c : Opnd)
  /-- TASK_DEP_IMM, opcode 0xD2, layout Y (R261). -/
  | taskDepImm (h : Hdr) (m : TaskDepMod) (d : Opnd) (a : Opnd) (b : Opnd) (imm : BitVec 32)
  /-- PHASE, opcode 0xD3, layout X (R261). -/
  | phase (h : Hdr)
  /-- SYSCALL, opcode 0xE0, layout Y (R261). -/
  | syscall (h : Hdr) (imm : BitVec 32)
  /-- SVQTAKE, opcode 0xE1, layout X (R261). -/
  | svqtake (h : Hdr) (m : SvqtakeMod) (d : Opnd)
  /-- SVRET, opcode 0xE2, layout X (R261). -/
  | svret (h : Hdr) (m : SvretMod) (a : Option Opnd) (b : Option Opnd)
  /-- SVQWAIT, opcode 0xE3, layout X (R261). -/
  | svqwait (h : Hdr)
  /-- MOVS, opcode 0xE4, layout Y (R261). -/
  | movs (h : Hdr) (d : Opnd) (imm : BitVec 32)
  /-- CSRR_IMM, opcode 0xE5, layout Y (R261). -/
  | csrrImm (h : Hdr) (d : Opnd) (imm : BitVec 32)
  /-- CSRR, opcode 0xE6, layout X (R261). -/
  | csrr (h : Hdr) (d : Opnd) (a : Opnd)
  /-- CSRW_IMM, opcode 0xE7, layout Y (R261). -/
  | csrwImm (h : Hdr) (a : Opnd) (imm : BitVec 32)
  /-- CSRW, opcode 0xE8, layout X (R261). -/
  | csrw (h : Hdr) (a : Opnd) (b : Opnd)
  /-- PTSYNC, opcode 0xE9, layout X (R261). -/
  | ptsync (h : Hdr) (m : PtsyncMod)
  /-- TLBINV, opcode 0xEA, layout X (R261). -/
  | tlbinv (h : Hdr) (m : TlbinvMod) (a : Option Opnd) (b : Option Opnd) (c : Option Opnd)
  /-- PGMOVE, opcode 0xEB, layout X (R261). -/
  | pgmove (h : Hdr) (m : PgmoveMod) (d : Opnd) (a : Opnd) (b : Opnd) (c : Opnd)
  /-- SOLDER_HANDOFF, opcode 0xEC, layout X (R261). -/
  | solderHandoff (h : Hdr) (d : Opnd) (a : Opnd)
  /-- BND_SET, opcode 0xED, layout X (R261). -/
  | bndSet (h : Hdr) (m : BndMod) (a : Opnd) (b : Opnd) (c : Opnd)
  /-- SCHED_STEP, opcode 0xEE, layout X (R261). -/
  | schedStep (h : Hdr) (m : SchedMod) (a : Option Opnd)
  /-- SVWAKE, opcode 0xF0, layout X (R261). -/
  | svwake (h : Hdr) (d : Opnd) (a : Opnd) (b : Opnd) (c : Opnd)
  /-- TRET, opcode 0xF1, layout X (R261). -/
  | tret (h : Hdr) (d : Opnd) (a : Opnd) (b : Opnd) (c : Opnd)
  /-- FRASSIGN, opcode 0xF2, layout X (R261). -/
  | frassign (h : Hdr) (d : Opnd) (a : Opnd) (b : Opnd) (c : Opnd)
  /-- SOLDER_REKEY, opcode 0xF3, layout X (R261). -/
  | solderRekey (h : Hdr) (d : Opnd) (a : Opnd)
  /-- HALT, opcode 0xF4, layout X (R261). -/
  | halt (h : Hdr) (a : Opnd)
  /-- RAIL_IN_TOLERANCE (R14). A rail reaches tolerance, so the next rail starts; after the last rail PWR_GOOD rises. -/
  | railInTolerance (rail : Rail)
  /-- RAIL_OUT_OF_TOLERANCE (R14). A rail leaves tolerance, so the module drops PWR_GOOD, enters cold reset and lowers the rails in reverse order. -/
  | railOutOfTolerance (rail : Rail)
  /-- RESET_RELEASE (R14). The first rising edge of MOD_RESET_N at least 1 ms after PWR_GOOD rose takes the module out of cold reset, and the Hallmark ROM starts. -/
  | resetRelease (us : Nat) (hbmOk : Bool)
  /-- BOARD_NOR_WRITE (R23). While MOD_RESET_N is low, board logic rewrites the NOR flash through the xSPI management port. -/
  | boardNorWrite (addr : Nat) (data : Bytes)
  /-- DIE_POWER_SAMPLE (R17). Every 1 us a die's power controller compares power and temperature with its clamps and chooses its gate step. -/
  | diePowerSample (die : Fin 22) (watts : Nat) (sensors : List Nat) (pick : Nat)
  /-- MODULE_POWER_SAMPLE (R18). Every 10 us the module power controller compares module power with MODPWR and chooses the module step. -/
  | modulePowerSample (watts pick : Nat)
  /-- THERMAL_TRIP (R19). A die reaching the trip temperature writes a thermal-trip record, drops PWR_GOOD and enters cold reset. -/
  | thermalTrip (die : Fin 22) (sensors : List Nat)
  /-- ATTEST_EXTEND (R27). A GO write to the extend slot starts an extend of MEAS[INDEX], or is refused with BUSY. -/
  | attestExtend (v : BitVec 64)
  /-- ATTEST_REPORT_REQUEST (R26). A GO write to the report slot starts a signed attestation report to RDEST. -/
  | attestReportRequest (v : BitVec 64)
  /-- NOR_OP_COMPLETE (R31). A NOR operation ends: STATUS is written and DONE is set as a release covering SG to LS. -/
  | norOpComplete (devOk : Bool)
  /-- BDY_PWR_WRITE (R28). A write to BDY_PWR lowers MODPWR or the all-die clamp, and a higher or equal value is ignored. -/
  | bdyPwrWrite (v : BitVec 64)
  /-- BDY_DIEPWR_WRITE (R28). A write to BDY_DIEPWRd lowers one die's clamp, and a higher or equal value is ignored. -/
  | bdyDiepwrWrite (die : Die) (v : BitVec 64)
  /-- BDY_THERM_WRITE (R28). A write to BDY_THERM lowers TTHROT, and a higher value, an equal value or a value below 60 is ignored. -/
  | bdyThermWrite (v : BitVec 64)
  /-- QP_TAIL_WRITE (R41). A store to QP_TAIL is filtered by distance, may advance TAIL, and restarts a stopped engine. -/
  | qpTailWrite (vd : Vd) (q : Nat) (v : BitVec 64)
  /-- QP_CQHEAD_WRITE (R44). Software advances CQHEAD, which resumes an engine stalled on a full completion ring. -/
  | qpCqheadWrite (vd : Vd) (q : Nat) (v : BitVec 64)
  /-- QP_RQHEAD_WRITE (R50). Software advances RQHEAD, which frees receive slots for inbound Sends. -/
  | qpRqheadWrite (vd : Vd) (q : Nat) (v : BitVec 64)
  /-- NET_COMPLETION (R44). A network operation ends: the completion entry is written as a release, with an optional Queue-notify post and CNT decrement. -/
  | netCompletion (vd : Vd) (q : Nat) (res : NetResult)
  /-- INBOUND_SEND (R45). An inbound Send is delivered to a receive slot of the queue pair it names, or is dropped or NACKed. -/
  | inboundSend (pkt : InPkt)
  /-- INBOUND_WRITE (R49). An inbound Write is checked against the remote region table and written to the target VD's memory. -/
  | inboundWrite (pkt : InPkt)
  /-- INBOUND_READ (R45). An inbound Read is checked against the remote region table and served by the network engine. -/
  | inboundRead (pkt : InPkt)
  /-- INBOUND_FETCH_ADD (R48). An inbound Fetch-Add is performed at the memory-side cache as one 64-bit atomic. -/
  | inboundFetchAdd (pkt : InPkt)
  /-- LANDING_WRITE (R54). A PCI Express write to the BAR is checked, translated and landed in a window, or is discarded. -/
  | landingWrite (ep : Fin 2) (w : PeerWrite)
  /-- LANDING_FLAG_WRITE (R55). A flag write is performed after the earlier writes, and the window fires DEC, WAKE and NOTIFY as one release at SYS scope. -/
  | landingFlagWrite (ep : Fin 2) (w : PeerWrite)
  /-- BAR_READ (R52). A PCI Express memory read to the BAR outside the MSI-X structures is answered with Unsupported Request. -/
  | barRead (ep : Fin 2) (off len : Nat)
  /-- MSIX_ACCESS (R51). The host reads or writes the endpoint's MSI-X table or pending-bit array. -/
  | msixAccess (ep : Fin 2) (off : Nat) (wr : Option Bytes)
  /-- LWD_CTL_WRITE (R53). A write to a landing-window descriptor is checked when it sets EN, and drains accepted writes when it clears EN. -/
  | lwdCtlWrite (ep : Fin 2) (w : Fin 32) (v : BitVec 64)
  /-- BRAZE_FLIT_RECEIVE (R58). A Braze flit group arrives and is checked, and a failed group is replayed; after 8 replays the link is taken down. -/
  | brazeFlitReceive (port : Fin 16) (flits : Nat) (ok : Bool)
  /-- REMOTE_ACCESS_TIMEOUT (R59). A remote access outstanding for 20 us on a failed link or home package ends in poison or discard, and a RAS record is written. -/
  | remoteAccessTimeout (port : Fin 16) (idx : Nat) (performed : Bool)
  /-- FLASH_BLOCK_FILL (R60). The storage controller completes a flash-window block fill after a miss, and the stalled load proceeds. -/
  | flashBlockFill (vd : Vd) (nsid lba : Nat) (readOk : Bool)
  /-- BLOCK_COMPLETION (R63). A block-ring request ends, and its completion entry is written as a release at PKG scope. -/
  | blockCompletion (vd : Vd) (q idx : Nat) (mediaOk : Bool)
  /-- HANDSHAKE_RPC_KEY (R72). A HANDSHAKE of mode 0 establishes a new RPC key for a VD through ML-KEM and a report. -/
  | handshakeRpcKey (via : Transport) (msg : Bytes)
  /-- HANDSHAKE_LOCAL_DOMAIN (R72). A HANDSHAKE of mode 1 creates a secure domain between two VDs of this module. -/
  | handshakeLocalDomain (via : Transport) (msg : Bytes)
  /-- HANDSHAKE_OPEN (R73). A HANDSHAKE of mode 2 generates a pending ML-KEM key pair for a cross-package domain. -/
  | handshakeOpen (via : Transport) (msg : Bytes)
  /-- HANDSHAKE_ACCEPT (R73). A HANDSHAKE of mode 3 encapsulates to the peer's key and installs the domain. -/
  | handshakeAccept (via : Transport) (msg : Bytes)
  /-- HANDSHAKE_COMPLETE (R73). A HANDSHAKE of mode 4 decapsulates with the pending key and installs the domain. -/
  | handshakeComplete (via : Transport) (msg : Bytes)
  /-- ATTEST (R74). An ATTEST request returns a signed report for the host's nonce. -/
  | attest (slot : Fin 16)
  /-- PART_CREATE (R75). A PART_CREATE call builds a VD, writes its quota registers and puts it into RUN. -/
  | partCreate (slot : Fin 16) (v : Vd) (imgs : List (BitVec 64))
  /-- PART_DESTROY (R75). A PART_DESTROY call destroys a VD. -/
  | partDestroy (slot : Fin 16) (v : Vd)
  /-- PART_RESET (R84). A PART_RESET call resets a VD and returns the duration. -/
  | partReset (slot : Fin 16) (v : Vd)
  /-- QUOTA_SET (R75). A QUOTA_SET call sets one quota register of a VD. -/
  | quotaSet (slot : Fin 16) (v : Vd) (k : Fin 10) (x : BitVec 64)
  /-- CAL_SET (R75). A CAL_SET call writes the four calendar ownership registers. -/
  | calSet (slot : Fin 16) (imgs : List (BitVec 64))
  /-- IMAGE_LOAD (R75). An IMAGE_LOAD call loads a chunk of a guest image, and the final chunk has the image verified and measured into MEAS4. -/
  | imageLoad (slot : Fin 16) (v : Vd) (off : Nat) (final : Bool) (chunk : Bytes)
  /-- LAUNCH (R87). A LAUNCH call has the supervisor write a launch record into the VD's queue, and the reply gives its index. -/
  | launch (vd : Vd) (slot : Fin 16) (record : Bytes)
  /-- MAP (R75). A MAP call maps frames, a flash namespace or a remote region into a guest address space. -/
  | map (vd : Vd) (slot : Fin 16) (req : MapReq)
  /-- UNMAP (R75). An UNMAP call unmaps a range, and the reply follows unmap completion. -/
  | unmap (vd : Vd) (slot : Fin 16) (asid : Fin 256) (va len : Nat)
  /-- COPY (R75). A COPY call copies a range from a source to a destination. -/
  | copy (vd : Vd) (slot : Fin 16) (asid : Fin 256) (src dst len : Nat)
  /-- QUERY_INTERFACE_VERSION (R77). A QUERY of item 0 returns the interface version. -/
  | queryInterfaceVersion (vd : Vd) (slot : Fin 16) (arg : BitVec 64)
  /-- QUERY_PACKAGE_TIME (R77). A QUERY of item 1 returns the package time in ns. -/
  | queryPackageTime (vd : Vd) (slot : Fin 16) (arg : BitVec 64)
  /-- QUERY_LAUNCH_STATUS (R77). A QUERY of item 2 returns the DONE word of a launch-queue entry. -/
  | queryLaunchStatus (vd : Vd) (slot : Fin 16) (arg : BitVec 64)
  /-- QUERY_RAS_RING (R77). A QUERY of item 3 returns RAS_PTR and RAS_STAT of the VD's ring. -/
  | queryRasRing (vd : Vd) (slot : Fin 16) (arg : BitVec 64)
  /-- QUERY_LAUNCH_QUEUE (R77). A QUERY of item 4 returns LQ_HEAD and LQ_STATUS. -/
  | queryLaunchQueue (vd : Vd) (slot : Fin 16) (arg : BitVec 64)
  /-- SUBSCRIBE (R78). A SUBSCRIBE call records an event mask and a reply address for the VD. -/
  | subscribe (vd : Vd) (slot : Fin 16) (mask : BitVec 64)
  /-- RPC_REPLY (R71). A write of RPC_REPLY with a busy slot has the RPC unit check, MAC and send the reply, then free the slot. -/
  | rpcReply (vd : Vd) (v : BitVec 64)
  /-- RPC_EVENT (R78). A write of RPC_REPLY with SLOT 63 sends an EVENT message to the subscribed address, or is refused with NOSUB. -/
  | rpcEvent (vd : Vd) (v : BitVec 64)
  /-- VDQ_QUOTA_WRITE (R81). A write to a quota register is ignored and refused with reason 4 while the VD is in RUN or RESETTING. -/
  | vdqQuotaWrite (v : Vd) (k : Fin 10) (x : BitVec 64)
  /-- CAL_OWN_WRITE (R123). A write to CAL_OWN is ignored if it would leave a running VD or VD 0 without a slot, and otherwise stages a new table. -/
  | calOwnWrite (j : Fin 4) (x : BitVec 64)
  /-- LQ_TAIL_WRITE (R87). A store to LQ_TAIL is filtered as for QP_TAIL and restarts a stopped launch unit. -/
  | lqTailWrite (vd : Vd) (v : BitVec 64)
  /-- LAUNCH_KILL (R241). A launch or task is killed in five steps, and is replayed or ended with STATUS 4. -/
  | launchKill (vd : Vd) (w : Work)
  /-- STG_TAIL_WRITE (R110). A store to STG_TAIL is filtered as in R41 and wakes waiting workers. -/
  | stgTailWrite (vd : Vd) (die : Die) (s : Fin 8) (v : BitVec 64)
  /-- SLICE_PAIR_ENABLE (R125). Setting EN of a slice pair is checked, and the pair is either enabled with HOLDER 0 or refused. -/
  | slicePairEnable (n : Fin 4) (v : BitVec 64)
  /-- L1_WAYSEG_WRITE (R160). A write to L1_WAYSEG is checked, and is either refused or starts a way change. -/
  | l1WaysegWrite (vd : Vd) (v : BitVec 64)
  /-- COLL_COMPLETE (R374). A collective completes on this rank: WRITE and DEC are performed as a release at SYS scope. -/
  | collComplete (vd : Vd) (peers : CollPeers)
  /-- TABLE_WALK (R209). A TLB miss walks both translation stages, sets A and D bits, and installs an entry or faults. -/
  | tableWalk (cl : Cluster) (vd : Vd) (asid : Fin 256) (va : BitVec 64) (acc : WalkAcc)
  /-- SOLDER_WINDOW_ENABLE (R229). Setting EN of a solder window is checked, then a key is taken and the frames are scrubbed to SOLDER held by VDA. -/
  | solderWindowEnable (n : Fin 64) (v : BitVec 64)
  /-- RAS_BASE_WRITE (R236). A write to RAS_BASE changes BASE and LOG2 only while EN is 0, and rejects a bad LOG2. -/
  | rasBaseWrite (v : Vd) (x : BitVec 64)
  /-- RAS_HEAD_WRITE (R236). A write to HEAD is accepted only when it lies within the ring's records. -/
  | rasHeadWrite (v : Vd) (x : BitVec 64)
  /-- REGISTER_WRITE (R6). A write to a control or page register with no row of its own acts as its field access codes say. -/
  | registerWrite (t : RegTarget) (v : BitVec 64)
  /-- DEBUG_PORT_ACCESS (R28). An access through the debug port reads the monitor RAS ring, or more when DBGMODE is open, as DBGMODE allows. -/
  | debugPortAccess (spa len : Nat)
  /-- COLD_RESET (R14). Assertion of MOD_RESET_N or power-on puts the whole module into cold reset, and all state held only in the package is lost. -/
  | coldReset
  /-- BUS_IN_RANGE (R14). The 48 V bus comes into range, and the regulators start raising the rails in order. -/
  | busInRange
  /-- GATE_STEP_CHANGE (R17). A new die or module gate step takes effect, within 10 us, on every quarter and engine of the die. -/
  | gateStepChange
  /-- EXTEND_COMPLETE (R27). An extend completes within 50 us and writes XSTAT and DONE. -/
  | extendComplete
  /-- REPORT_COMPLETE (R26). The report is written on path NE as a release, then RSTAT and DONE are set. -/
  | reportComplete
  /-- NOR_READ (R31). A GO write with OP READ copies NLEN bytes from the NOR flash into the buffer on path SG. -/
  | norRead
  /-- NOR_ERASE (R31). A GO write with OP ERASE erases one 64 KiB sector, unless a lock or the alignment rules forbid it. -/
  | norErase
  /-- NOR_PROGRAM (R31). A GO write with OP PROGRAM programs NLEN bytes from the buffer, unless a lock or the alignment rules forbid it. -/
  | norProgram
  /-- NET_ENABLE (R35). NET_CMD ENABLE reads and checks a queue-pair table entry, and makes the queue pair or block ring usable. -/
  | netEnable
  /-- NET_DISABLE (R35). NET_CMD DISABLE stops a queue pair or block ring taking work, and completes when no operation is in progress. -/
  | netDisable
  /-- QP_WATCH_WAKE (R42). A watched work entry becomes valid, and the stopped engine resumes taking entries. -/
  | qpWatchWake
  /-- NET_SEND (R38). The engine takes a Send work entry and transmits its payload to the peer's receive ring. -/
  | netSend
  /-- NET_WRITE (R38). The engine takes a Write work entry and writes its payload to remote memory under an RKEY. -/
  | netWrite
  /-- NET_READ (R38). The engine takes a Read work entry and reads remote memory into local memory. -/
  | netRead
  /-- NET_FETCH_ADD (R38). The engine takes a Fetch-Add work entry and performs a remote 64-bit fetch-add. -/
  | netFetchAdd
  /-- QP_STATE_RELOAD (R50). The state of an evicted queue pair reloads, and the held packets and tail stores are then applied. -/
  | qpStateReload
  /-- BRAZE_REKEY (R58). A Braze link is re-keyed after 2^32 flits. -/
  | brazeRekey
  /-- BLOCK_READ (R62). A block-ring Read request transfers flash blocks to the buffer. -/
  | blockRead
  /-- BLOCK_WRITE (R62). A block-ring Write request programs flash blocks from the buffer and invalidates the overlapped flash-window buffer blocks. -/
  | blockWrite
  /-- BLOCK_TRIM (R62). A block-ring Trim request trims a range of logical blocks. -/
  | blockTrim
  /-- BLOCK_FLUSH (R63). A block-ring Flush request makes the earlier completed Writes of its ring durable. -/
  | blockFlush
  /-- VD_BUILD (R81). CMD BUILD takes a VD from EMPTY to BUILT and allocates its data key. -/
  | vdBuild
  /-- VD_RUN (R81). CMD RUN checks the quotas, overlaps and slot ownership, and puts the VD into RUN. -/
  | vdRun
  /-- VD_RESET (R84). CMD RESET runs the five reset steps of a VD and leaves it in BUILT. -/
  | vdReset
  /-- VD_DESTROY (R81). CMD DESTROY returns a BUILT VD that owns no frame to EMPTY. -/
  | vdDestroy
  /-- VIRTUAL_TIMER_FIRE (R79). Package time reaches VTCMP, so VTEN clears and a Virtual-timer entry is posted to the SVQ on VTCORE. -/
  | virtualTimerFire
  /-- CALENDAR_ROUND_START (R82). At slot 0 of each round, every shared unit puts the last written calendar table in force. -/
  | calendarRoundStart
  /-- LAUNCH_TAKE_RECORD (R87). The launch unit of CD0 takes the record at HEAD, checks it and accepts or refuses it. -/
  | launchTakeRecord
  /-- PLACE_BLOCK (R115). In a slot, a die's dispatcher places the cursor block of a launch on a core where it fits. -/
  | placeBlock
  /-- PLACE_TEAM (R116). The dispatcher gang-places four team blocks on the four cores of one cluster. -/
  | placeTeam
  /-- PLACE_TASK (R117). The dispatcher places the head of the VD's ready queue on a core. -/
  | placeTask
  /-- PHASE_RESUME (R108). A ready phased task resumes on a core of its cluster, and its carry registers and scratchpad are restored from the billet. -/
  | phaseResume
  /-- LAUNCH_COMPLETE (R96). A launch completes: the release, the DONE write and the CNT decrement are performed, and the shadows are promoted. -/
  | launchComplete
  /-- COUNTER_DECREMENT (R102). A dependence-counter decrement is applied in key order, and a counter reaching 0 enqueues its task. -/
  | counterDecrement
  /-- TASK_COMPLETE (R105). A task completes, issues its successor decrements and frees its counter. -/
  | taskComplete
  /-- STAGE_WORKER_TAKE (R110). A free worker takes the packet at HEAD of its stage ring and starts it as a task. -/
  | stageWorkerTake
  /-- GOVERNOR_EVALUATE (R111). Every 4,000 ns the governor snapshots occupancies and moves workers between stages. -/
  | governorEvaluate
  /-- SLICE_PAIR_DISABLE (R125). Clearing EN of a slice pair takes effect only when the VD not holding the region has SAVED clear. -/
  | slicePairDisable
  /-- SLICE_SWITCH (R127). At a switch instant the region's holder saves its state and the other VD's state is restored. -/
  | sliceSwitch
  /-- ACTIVE_SET_ROTATE (R138). Every 1,024 issue cycles of a VD, its oldest active group is exchanged for the oldest ready pending group. -/
  | activeSetRotate
  /-- MANDREL_TIMER (R142). MTIME reaches MTCMP and sets MIP.TIMER. -/
  | mandrelTimer
  /-- SVQ_BATCH_TIMER (R148). The SVQ batch timer runs SVQTMR us with entries queued, and BATCH becomes 1. -/
  | svqBatchTimer
  /-- SVQ_WATCHDOG (R146). BATCH stays set for WDOG us with no entry taken, so WDFIRED and MIP.WDOG are set. -/
  | svqWatchdog
  /-- SVQ_POST_RETRY (R143). A post whose entry slot failed translation or ownership is retried at least every 1 us. -/
  | svqPostRetry
  /-- SVQ_WAITER_POST (R147). A source waiting for room in an SVQ posts its entry when a place is freed, in the order of first refusal. -/
  | svqWaiterPost
  /-- GROUP_SWAP_OUT (R155). A group held for 4 us is written to its context frame, and its slot and rows are freed. -/
  | groupSwapOut
  /-- GROUP_RESTORE (R156). A swapped-out group is restored to its quarter and lane column when room is found. -/
  | groupRestore
  /-- WAY_SURRENDER_COMPLETE (R164). Every core has written back and invalidated the removed way segments, so BUSY clears. -/
  | waySurrenderComplete
  /-- MSC_SCHEDULE_ENABLE (R172). Writing EN 1 to MSCS_CTL copies the schedule into every MSC and sets LOADED, or is refused. -/
  | mscScheduleEnable
  /-- MSC_SCHEDULE_DISABLE (R172). Writing EN 0 to MSCS_CTL clears LOADED and returns the MSC to LRU. -/
  | mscScheduleDisable
  /-- SWAGE_CONTEXT_START (R176). A queued fill or drain starts on a Swage context that has become free. -/
  | swageContextStart
  /-- SWAGE_BEAT (R177). A Swage context moves one granted beat of a fill or drain, and stops at a fault. -/
  | swageBeat
  /-- WINDOW_FILL_COMPLETE (R178). The last payload byte of a fill is written, so the window becomes PRESENT and its completion action runs. -/
  | windowFillComplete
  /-- WINDOW_DRAIN_COMPLETE (R178). A drain finishes with its bounds checked, so its completion action runs and the window becomes EMPTY. -/
  | windowDrainComplete
  /-- ANVIL_ENTRY_ACCEPT (R361). An MXOP or MXDRAIN waiting for a reservation entry takes a freed one and is accepted. -/
  | anvilEntryAccept
  /-- ANVIL_PASS (R182). At a pass boundary the Anvil chooses a ready entry and runs one K-step pass into its tile. -/
  | anvilPass
  /-- ANVIL_OP_COMPLETE (R365). An Anvil operation completes: STATUS and KDONE are written, WRITE and DEC are performed and the entry is freed. -/
  | anvilOpComplete
  /-- ANVIL_DRAIN_COMPLETE (R367). An accumulator drain finishes writing the window and frees its entry. -/
  | anvilDrainComplete
  /-- ANVIL_RAMP_DOWN (R185). After the last pass of a burst, or when the withholding count expires, the engine runs 24 ramp-down filler cycles. -/
  | anvilRampDown
  /-- SNAPSHOT_SHADOW (R231). The first write to a snapshot frame copies it to a shadow frame from the pool and repoints the leaves. -/
  | snapshotShadow
  /-- SOLDER_WINDOW_DISABLE (R229). Clearing EN of a solder window scrubs its frames to FREE and frees its key identifier. -/
  | solderWindowDisable
  /-- MINOR_COUNTER_WRAP (R221). A write-back whose minor counter is 127 increments the major counter and re-encrypts the node's lines. -/
  | minorCounterWrap
  /-- WAITA_WAKE (R349). A write to the watched sector or a WAKE makes a waiting thread re-read its word, and it continues if the condition holds. -/
  | waitaWake
  /-- WAITA_TIMEOUT (R349). A WAITA timeout expires, and a final plain read decides the result. -/
  | waitaTimeout
  /-- FETCH_LINE (R245). A convoy fetches a line and checks parity, code-write marks, line word and PAIR bits. -/
  | fetchLine
  /-- BRAZE_LINK_BRING_UP (R58). A Braze port link comes up, and the monitor agrees its per-direction AES-256-GCM keys before it carries flits. -/
  | brazeLinkBringUp
  deriving DecidableEq, Repr

end Sys2Proof
end

