-- ==== Sys2Proof/WellFormed.lean ====
section
/-! DEFINITION. Which instructions have an encoding: the operand kinds of R251, the register alignment of R252 and the MOD
combinations of R254, field by field of each description. The check against REGS, which needs a group, is the machine's. -/
namespace Sys2Proof

/-- Registers an operand of a W64 form spans (R252, R274). -/
def W (w64 : Bool) : Nat := if w64 then 2 else 1

/-- R275: WIDE writes a pair from 32-bit sources. -/
def ArithMod.dWidth (m : ArithMod) : Nat := if m.mul = .wide then 2 else W m.w64

/-- R275: the reserved combinations of the multiplies. -/
def ArithMod.mulOk (m : ArithMod) : Bool :=
  !(m.sat && (m.mul == .hi || m.mul == .wide)) && !(m.w64 && m.mul == .wide)

/-- Registers that hold one value of an element type (R252, R298). -/
def ETy.words : ETy → Nat
  | .i64 | .n64 | .f64 => 2
  | _ => 1

/-- R256, R298: size of an element type in bytes. -/
def ETy.size : ETy → Nat
  | .i8 | .n8 | .f8 | .f8w => 1
  | .i16 | .n16 | .f16 | .bf16 => 2
  | .i32 | .n32 | .f32 => 4
  | .i64 | .n64 | .f64 => 8

/-- R296: the float types. -/
def ETy.isFloat : ETy → Bool
  | .f16 | .bf16 | .f32 | .f64 | .f8 | .f8w => true
  | _ => false

/-- R306, R314: the types an error-feedback conversion may write. -/
def ETy.isEfTarget : ETy → Bool
  | .f16 | .bf16 | .f8 | .f8w => true
  | _ => false

/-- R314: the reserved combinations of CVT. -/
def CvtMod.ok (m : CvtMod) : Bool :=
  m.dt != m.st && (m.dt.isFloat || m.st.isFloat || m.rnd == .rn) && !(m.sat && m.st.isFloat && !m.dt.isFloat)
    && (!m.ef || (m.st == .f32 && m.dt.isEfTarget))

/-- R315: the packing forms. -/
def CvtpOp.isPack : CvtpOp → Bool
  | .pk2 | .pk4 => true
  | .up2 | .up4 => false

/-- R315: sub-elements of a form. -/
def CvtpOp.count : CvtpOp → Nat
  | .pk2 | .up2 => 2
  | .pk4 | .up4 => 4

/-- R315: the packed types. -/
def ETy.isPacked : ETy → Bool
  | .i8 | .n8 | .i16 | .n16 | .f16 | .bf16 | .f8 | .f8w => true
  | _ => false

/-- R315: the reserved combinations of CVTP. -/
def CvtpMod.ok (m : CvtpMod) : Bool :=
  m.pt.isPacked && m.pt.size * m.op.count == 4
    && (m.op.isPack || (m.rnd == .rn && !m.sat && !m.ef)) && (!m.ef || m.pt.isFloat)

/-- R315: registers of D, of A and B, and of the companion. -/
def CvtpMod.dWords (m : CvtpMod) : Nat := if m.op.isPack then 1 else m.op.count
def CvtpMod.aWords (m : CvtpMod) : Nat := if m.op = .pk4 then 2 else 1
def CvtpMod.cWords (m : CvtpMod) : Nat := m.op.count

/-- R321: U is used only by MIN, MAX and SATADD. -/
def XredMod.ok (m : XredMod) : Bool := !m.u || m.op == .min || m.op == .max || m.op == .satadd

/-- R327: bytes of an access. -/
def Sz.bytes : Sz → Nat
  | .b | .sb => 1
  | .h | .sh => 2
  | .w => 4
  | .d => 8
  | .q => 16

/-- R328: registers an access fills or reads. -/
def Sz.words : Sz → Nat
  | .d => 2
  | .q => 4
  | _ => 1

/-- R327, R331: the sizes without sign extension. -/
def Sz.unsignedLoad : Sz → Bool
  | .sb | .sh => false
  | _ => true

/-- R327, R330: the size field of a store. -/
def StMod.sz : StMod → Sz
  | .plain m => m.sz
  | .bc m => m.sz

/-- R327, R330: the reserved combinations of ST. -/
def StMod.ok : StMod → Bool
  | .plain m => m.sz.unsignedLoad
  | .bc m => m.sz.unsignedLoad && decide (m.ety.size ≤ m.sz.bytes)

/-- R334: WIN is zero unless SWZ names a window. -/
def LdsMod.ok (m : LdsMod) : Bool := m.swz == .win || m.win == 0

/-- R335: U belongs to MIN and MAX. -/
def AtomMod.ok (m : AtomMod) : Bool := !m.u || m.op == .min || m.op == .max

/-- R334, R335, R337. -/
def AtomsMod.ok (m : AtomsMod) : Bool := (m.swz == .win || m.win == 0) && (!m.u || m.op == .min || m.op == .max)

/-- R335: registers of a CAS value. -/
def CasSz.words : CasSz → Nat
  | .c32 => 1
  | .c64 => 2
  | .c128 => 4

/-- R337: CASS has no 128-bit form. -/
def CassMod.ok (m : CassMod) : Bool := (m.swz == .win || m.win == 0) && m.csz != .c128

/-- R338: a mask with KIND ACQ is reserved. -/
def FenceMod.ok (m : FenceMod) : Bool := m.kind != .acq || m.mask == none

/-- R385: the scopes of PTSYNC. -/
def PtsyncMod.ok (m : PtsyncMod) : Bool := m.scope == .clu || m.scope == .die || m.scope == .pkg || m.scope == .sys

/-- R386: the scopes of TLBINV. -/
def TlbinvMod.ok (m : TlbinvMod) : Bool := m.scope == .clu || m.scope == .die || m.scope == .pkg

/-- R386: which forms take a range and which an identifier. -/
def TlbForm.hasRange : TlbForm → Bool
  | .va | .s2 => true
  | .as_ | .vd => false
def TlbForm.hasId : TlbForm → Bool
  | .vd => false
  | _ => true

/-- R367: the reserved combinations of MXDRAIN. -/
def MxdrainMod.ok (m : MxdrainMod) : Bool :=
  (m.dt != .f32 || (m.rnd == .rn && !m.sat && !m.ef)) && (!m.rclr || m.ef) && (m.ben || m.bnd == 0)

/-- R257: special registers of 64 bits. -/
def srWidth (imm : BitVec 32) : Nat := if 0x40 ≤ imm.toNat ∧ imm.toNat ≤ 0x42 then 2 else 1

/-- The operand kinds of the encoding tables (R251, R274): g or zero; g, k or zero; p or zero. -/
inductive OKind where
  | G | V | P
  deriving DecidableEq, Repr

/-- R251: does a field accept an operand of this kind? -/
def OKind.accepts : OKind → Opnd → Bool
  | .G, .g _ | .G, .zero | .V, .g _ | .V, .k _ | .V, .zero | .P, .p _ | .P, .zero => true
  | _, _ => false

/-- R252: alignment of an operand that spans n registers; the sixteen registers of SVQTAKE are aligned to 4 (R379). -/
def alignOf (n : Nat) : Nat := if n = 16 then 4 else n

/-- R252: does the operand's register, with those after it, obey the alignment, and lie in the file? -/
def Opnd.aligned (o : Opnd) (n : Nat) : Bool :=
  match o with
  | .g j => j.val % alignOf n == 0 && decide (j.val + n ≤ 192)
  | .k j => j.val % alignOf n == 0 && decide (j.val + n ≤ 32)
  | _ => true

/-- One operand of an instruction with the kind its field accepts and the registers it spans. -/
structure OperandUse where
  o : Opnd
  kind : OKind
  n : Nat
  deriving DecidableEq, Repr

/-- The operand when it is present. -/
def useOpt (o : Option Opnd) (kind : OKind) (n : Nat) : List OperandUse :=
  match o with
  | some x => [⟨x, kind, n⟩]
  | none => []

/-- The operands of an instruction, field by field of its description (R251); events have none. -/
def Instr.uses : Instr → List OperandUse
  | .nop _ => []
  | .bra _ _ => []
  | .call _ d _ => [⟨d, .G, 2⟩]
  | .ret _ a => [⟨a, .G, 2⟩]
  | .brx _ a b => [⟨a, .V, 2⟩] ++ [⟨b, .V, 1⟩]
  | .callx _ d a b => [⟨d, .G, 2⟩] ++ [⟨a, .V, 2⟩] ++ [⟨b, .V, 1⟩]
  | .yield _ => []
  | .exit _ => []
  | .iadd _ m d a b => [⟨d, .G, (W m.w64)⟩] ++ [⟨a, .V, (W m.w64)⟩] ++ [⟨b, .V, (W m.w64)⟩]
  | .iaddImm _ m d a _ => [⟨d, .G, (W m.w64)⟩] ++ [⟨a, .V, (W m.w64)⟩]
  | .isub _ m d a b => [⟨d, .G, (W m.w64)⟩] ++ [⟨a, .V, (W m.w64)⟩] ++ [⟨b, .V, (W m.w64)⟩]
  | .isubImm _ m d a _ => [⟨d, .G, (W m.w64)⟩] ++ [⟨a, .V, (W m.w64)⟩]
  | .imul _ m d a b => [⟨d, .G, m.dWidth⟩] ++ [⟨a, .V, (W m.w64)⟩] ++ [⟨b, .V, (W m.w64)⟩]
  | .imulImm _ m d a _ => [⟨d, .G, m.dWidth⟩] ++ [⟨a, .V, (W m.w64)⟩]
  | .imad _ m d a b c => [⟨d, .G, m.dWidth⟩] ++ [⟨a, .V, (W m.w64)⟩] ++ [⟨b, .V, (W m.w64)⟩] ++ [⟨c, .V, m.dWidth⟩]
  | .imadImm _ m d a b _ => [⟨d, .G, m.dWidth⟩] ++ [⟨a, .V, (W m.w64)⟩] ++ [⟨b, .V, (W m.w64)⟩]
  | .idiv _ m d a b => [⟨d, .G, (W m.w64)⟩] ++ [⟨a, .V, (W m.w64)⟩] ++ [⟨b, .V, (W m.w64)⟩]
  | .irem _ m d a b => [⟨d, .G, (W m.w64)⟩] ++ [⟨a, .V, (W m.w64)⟩] ++ [⟨b, .V, (W m.w64)⟩]
  | .imin _ m d a b => [⟨d, .G, (W m.w64)⟩] ++ [⟨a, .V, (W m.w64)⟩] ++ [⟨b, .V, (W m.w64)⟩]
  | .iminImm _ m d a _ => [⟨d, .G, (W m.w64)⟩] ++ [⟨a, .V, (W m.w64)⟩]
  | .imax _ m d a b => [⟨d, .G, (W m.w64)⟩] ++ [⟨a, .V, (W m.w64)⟩] ++ [⟨b, .V, (W m.w64)⟩]
  | .imaxImm _ m d a _ => [⟨d, .G, (W m.w64)⟩] ++ [⟨a, .V, (W m.w64)⟩]
  | .iabs _ m d a => [⟨d, .G, (W m.w64)⟩] ++ [⟨a, .V, (W m.w64)⟩]
  | .isad _ m d a b c => [⟨d, .G, (W m.w64)⟩] ++ [⟨a, .V, (W m.w64)⟩] ++ [⟨b, .V, (W m.w64)⟩] ++ [⟨c, .V, (W m.w64)⟩]
  | .and _ m d a b => [⟨d, .G, (W m.w64)⟩] ++ [⟨a, .V, (W m.w64)⟩] ++ [⟨b, .V, (W m.w64)⟩]
  | .andImm _ m d a _ => [⟨d, .G, (W m.w64)⟩] ++ [⟨a, .V, (W m.w64)⟩]
  | .or _ m d a b => [⟨d, .G, (W m.w64)⟩] ++ [⟨a, .V, (W m.w64)⟩] ++ [⟨b, .V, (W m.w64)⟩]
  | .orImm _ m d a _ => [⟨d, .G, (W m.w64)⟩] ++ [⟨a, .V, (W m.w64)⟩]
  | .xor _ m d a b => [⟨d, .G, (W m.w64)⟩] ++ [⟨a, .V, (W m.w64)⟩] ++ [⟨b, .V, (W m.w64)⟩]
  | .xorImm _ m d a _ => [⟨d, .G, (W m.w64)⟩] ++ [⟨a, .V, (W m.w64)⟩]
  | .not _ m d a => [⟨d, .G, (W m.w64)⟩] ++ [⟨a, .V, (W m.w64)⟩]
  | .logt _ m d a b c => [⟨d, .G, (W m.w64)⟩] ++ [⟨a, .V, (W m.w64)⟩] ++ [⟨b, .V, (W m.w64)⟩] ++ [⟨c, .V, (W m.w64)⟩]
  | .shl _ m d a b => [⟨d, .G, (W m.w64)⟩] ++ [⟨a, .V, (W m.w64)⟩] ++ [⟨b, .V, 1⟩]
  | .shlImm _ m d a _ => [⟨d, .G, (W m.w64)⟩] ++ [⟨a, .V, (W m.w64)⟩]
  | .shr _ m d a b => [⟨d, .G, (W m.w64)⟩] ++ [⟨a, .V, (W m.w64)⟩] ++ [⟨b, .V, 1⟩]
  | .shrImm _ m d a _ => [⟨d, .G, (W m.w64)⟩] ++ [⟨a, .V, (W m.w64)⟩]
  | .rot _ m d a b => [⟨d, .G, (W m.w64)⟩] ++ [⟨a, .V, (W m.w64)⟩] ++ [⟨b, .V, 1⟩]
  | .popc _ m d a => [⟨d, .G, 1⟩] ++ [⟨a, .V, (W m.w64)⟩]
  | .clz _ m d a => [⟨d, .G, 1⟩] ++ [⟨a, .V, (W m.w64)⟩]
  | .bfx _ m d a b c => [⟨d, .G, (W m.w64)⟩] ++ [⟨a, .V, (W m.w64)⟩] ++ [⟨b, .V, 1⟩] ++ [⟨c, .V, 1⟩]
  | .icmp _ m d a b c => [⟨d, .P, 1⟩] ++ [⟨a, .V, (W m.w64)⟩] ++ [⟨b, .V, (W m.w64)⟩] ++ useOpt c .P 1
  | .icmpImm _ m d a _ => [⟨d, .P, 1⟩] ++ [⟨a, .V, (W m.w64)⟩]
  | .fcmp _ m d a b c => [⟨d, .P, 1⟩] ++ [⟨a, .V, (W m.w64)⟩] ++ [⟨b, .V, (W m.w64)⟩] ++ useOpt c .P 1
  | .fcmpImm _ _ d a _ => [⟨d, .P, 1⟩] ++ [⟨a, .V, 1⟩]
  | .fclass _ m d a => [⟨d, .P, 1⟩] ++ [⟨a, .V, (W (m.ft == .f64))⟩]
  | .hcmp _ _ d a b c => [⟨d, .P, 1⟩] ++ [⟨a, .V, 1⟩] ++ [⟨b, .V, 1⟩] ++ useOpt c .P 1
  | .sel _ m d p a b => [⟨d, .G, (W m.w64)⟩] ++ [⟨p, .P, 1⟩] ++ [⟨a, .V, (W m.w64)⟩] ++ [⟨b, .V, (W m.w64)⟩]
  | .selImm _ m d p a _ => [⟨d, .G, (W m.w64)⟩] ++ [⟨p, .P, 1⟩] ++ [⟨a, .V, (W m.w64)⟩]
  | .pcomb _ _ d a b c => [⟨d, .P, 1⟩] ++ [⟨a, .P, 1⟩] ++ [⟨b, .P, 1⟩] ++ [⟨c, .P, 1⟩]
  | .p2g _ _ d => [⟨d, .G, 1⟩]
  | .g2p _ _ a => [⟨a, .V, 1⟩]
  | .mov _ m d a => [⟨d, .V, (W m.w64)⟩] ++ [⟨a, .V, (W m.w64)⟩]
  | .movImm _ m d _ => [⟨d, .V, (W m.w64)⟩]
  | .movh _ d _ => [⟨d, .V, 2⟩]
  | .lea _ _ d a b => [⟨d, .V, 2⟩] ++ [⟨a, .V, 2⟩] ++ [⟨b, .V, 1⟩]
  | .leaImm _ _ d a _ => [⟨d, .V, 2⟩] ++ [⟨a, .V, 2⟩]
  | .fadd _ _ d a b => [⟨d, .G, 1⟩] ++ [⟨a, .V, 1⟩] ++ [⟨b, .V, 1⟩]
  | .faddImm _ _ d a _ => [⟨d, .G, 1⟩] ++ [⟨a, .V, 1⟩]
  | .fsub _ _ d a b => [⟨d, .G, 1⟩] ++ [⟨a, .V, 1⟩] ++ [⟨b, .V, 1⟩]
  | .fmul _ _ d a b => [⟨d, .G, 1⟩] ++ [⟨a, .V, 1⟩] ++ [⟨b, .V, 1⟩]
  | .fmulImm _ _ d a _ => [⟨d, .G, 1⟩] ++ [⟨a, .V, 1⟩]
  | .ffma _ _ d a b c => [⟨d, .G, 1⟩] ++ [⟨a, .V, 1⟩] ++ [⟨b, .V, 1⟩] ++ [⟨c, .V, 1⟩]
  | .ffmaImm _ _ d a b _ => [⟨d, .G, 1⟩] ++ [⟨a, .V, 1⟩] ++ [⟨b, .V, 1⟩]
  | .fmin _ _ d a b => [⟨d, .G, 1⟩] ++ [⟨a, .V, 1⟩] ++ [⟨b, .V, 1⟩]
  | .fmax _ _ d a b => [⟨d, .G, 1⟩] ++ [⟨a, .V, 1⟩] ++ [⟨b, .V, 1⟩]
  | .fdiv _ _ d a b => [⟨d, .G, 1⟩] ++ [⟨a, .V, 1⟩] ++ [⟨b, .V, 1⟩]
  | .fsqrt _ _ d a => [⟨d, .G, 1⟩] ++ [⟨a, .V, 1⟩]
  | .frcp _ _ d a => [⟨d, .G, 1⟩] ++ [⟨a, .V, 1⟩]
  | .frsq _ _ d a => [⟨d, .G, 1⟩] ++ [⟨a, .V, 1⟩]
  | .dadd _ _ d a b => [⟨d, .G, 2⟩] ++ [⟨a, .V, 2⟩] ++ [⟨b, .V, 2⟩]
  | .dmul _ _ d a b => [⟨d, .G, 2⟩] ++ [⟨a, .V, 2⟩] ++ [⟨b, .V, 2⟩]
  | .dfma _ _ d a b c => [⟨d, .G, 2⟩] ++ [⟨a, .V, 2⟩] ++ [⟨b, .V, 2⟩] ++ [⟨c, .V, 2⟩]
  | .hadd _ _ d a b => [⟨d, .G, 1⟩] ++ [⟨a, .V, 1⟩] ++ [⟨b, .V, 1⟩]
  | .hmul _ _ d a b => [⟨d, .G, 1⟩] ++ [⟨a, .V, 1⟩] ++ [⟨b, .V, 1⟩]
  | .hfma _ _ d a b c => [⟨d, .G, 1⟩] ++ [⟨a, .V, 1⟩] ++ [⟨b, .V, 1⟩] ++ [⟨c, .V, 1⟩]
  | .hmin _ _ d a b => [⟨d, .G, 1⟩] ++ [⟨a, .V, 1⟩] ++ [⟨b, .V, 1⟩]
  | .hmax _ _ d a b => [⟨d, .G, 1⟩] ++ [⟨a, .V, 1⟩] ++ [⟨b, .V, 1⟩]
  | .vadd _ _ d a b => [⟨d, .G, 1⟩] ++ [⟨a, .V, 1⟩] ++ [⟨b, .V, 1⟩]
  | .vaddImm _ _ d a _ => [⟨d, .G, 1⟩] ++ [⟨a, .V, 1⟩]
  | .vsub _ _ d a b => [⟨d, .G, 1⟩] ++ [⟨a, .V, 1⟩] ++ [⟨b, .V, 1⟩]
  | .vmin _ _ d a b => [⟨d, .G, 1⟩] ++ [⟨a, .V, 1⟩] ++ [⟨b, .V, 1⟩]
  | .vmax _ _ d a b => [⟨d, .G, 1⟩] ++ [⟨a, .V, 1⟩] ++ [⟨b, .V, 1⟩]
  | .vmul _ _ d a b => [⟨d, .G, 1⟩] ++ [⟨a, .V, 1⟩] ++ [⟨b, .V, 1⟩]
  | .vdot _ _ d a b c => [⟨d, .G, 1⟩] ++ [⟨a, .V, 1⟩] ++ [⟨b, .V, 1⟩] ++ [⟨c, .V, 1⟩]
  | .acs2 _ _ d a b c e => [⟨d, .G, 1⟩] ++ [⟨a, .V, 1⟩] ++ [⟨b, .V, 1⟩] ++ [⟨c, .V, 1⟩] ++ [⟨e, .V, 1⟩]
  | .vabsd _ _ d a b => [⟨d, .G, 1⟩] ++ [⟨a, .V, 1⟩] ++ [⟨b, .V, 1⟩]
  | .prmt _ _ d a b c => [⟨d, .G, 1⟩] ++ [⟨a, .V, 1⟩] ++ [⟨b, .V, 1⟩] ++ [⟨c, .V, 1⟩]
  | .prmtImm _ _ d a b _ => [⟨d, .G, 1⟩] ++ [⟨a, .V, 1⟩] ++ [⟨b, .V, 1⟩]
  | .cvt _ m d a b => [⟨d, .G, m.dt.words⟩] ++ [⟨a, .V, m.st.words⟩] ++ useOpt b .G 1
  | .cvtp _ m d a b c => [⟨d, .G, m.dWords⟩] ++ [⟨a, .V, m.aWords⟩] ++ useOpt b .V m.aWords ++ useOpt c .G m.cWords
  | .exp2 _ _ d a => [⟨d, .G, 1⟩] ++ [⟨a, .V, 1⟩]
  | .log2 _ _ d a => [⟨d, .G, 1⟩] ++ [⟨a, .V, 1⟩]
  | .sinPi _ _ d a => [⟨d, .G, 1⟩] ++ [⟨a, .V, 1⟩]
  | .cosPi _ _ d a => [⟨d, .G, 1⟩] ++ [⟨a, .V, 1⟩]
  | .rndh _ _ d a b => [⟨d, .G, 1⟩] ++ [⟨a, .V, 2⟩] ++ [⟨b, .V, 1⟩]
  | .rndhImm _ _ d a _ => [⟨d, .G, 1⟩] ++ [⟨a, .V, 2⟩]
  | .frnd _ m d a => [⟨d, .G, (W m.w64)⟩] ++ [⟨a, .V, (W m.w64)⟩]
  | .fscale _ m d a b => [⟨d, .G, (W m.w64)⟩] ++ [⟨a, .V, (W m.w64)⟩] ++ [⟨b, .V, 1⟩]
  | .fscaleImm _ m d a _ => [⟨d, .G, (W m.w64)⟩] ++ [⟨a, .V, (W m.w64)⟩]
  | .lxch _ m d a b c => [⟨d, .G, (W m.w64)⟩] ++ [⟨a, .V, (W m.w64)⟩] ++ [⟨b, .V, 1⟩] ++ useOpt c .P 1
  | .lxchImm _ m d a _ => [⟨d, .G, (W m.w64)⟩] ++ [⟨a, .V, (W m.w64)⟩]
  | .pcol _ m d a => [⟨d, (if m.mode = .mask ∨ m.mode = .count then .V else .P), 1⟩] ++ [⟨a, .P, 1⟩]
  | .xred _ m d a => [⟨d, .V, (W m.w64)⟩] ++ [⟨a, .V, (W m.w64)⟩]
  | .xscan _ m d a => [⟨d, .G, (W m.w64)⟩] ++ [⟨a, .V, (W m.w64)⟩]
  | .xfind _ m d a c => [⟨d, .G, 1⟩] ++ [⟨a, .V, (W m.w64)⟩] ++ useOpt c .P 1
  | .xfred _ m d a => [⟨d, .G, (W m.w64)⟩] ++ [⟨a, .V, (W m.w64)⟩]
  | .ld _ m d a b _ => [⟨d, .V, m.sz.words⟩] ++ [⟨a, .V, 2⟩] ++ [⟨b, .V, 1⟩]
  | .st _ m d a b _ => [⟨d, .G, m.sz.words⟩] ++ [⟨a, .V, 2⟩] ++ [⟨b, .V, 1⟩]
  | .ldProbe _ m d a b _ => [⟨d, .G, m.sz.words⟩] ++ [⟨a, .V, 2⟩] ++ [⟨b, .V, 1⟩]
  | .lds _ m d a b _ => [⟨d, .G, m.sz.words⟩] ++ [⟨a, .V, 1⟩] ++ [⟨b, .V, 1⟩]
  | .sts _ m d a b _ => [⟨d, .G, m.sz.words⟩] ++ [⟨a, .V, 1⟩] ++ [⟨b, .V, 1⟩]
  | .ldm _ m d a b _ => [⟨d, .G, m.sz.words⟩] ++ [⟨a, .V, 2⟩] ++ [⟨b, .V, 1⟩]
  | .stm _ m d a b _ => [⟨d, .G, m.sz.words⟩] ++ [⟨a, .V, 2⟩] ++ [⟨b, .V, 1⟩]
  | .prf _ _ a b _ => [⟨a, .V, 2⟩] ++ [⟨b, .V, 1⟩]
  | .atomImm _ m d a b _ => [⟨d, .G, (W m.w64)⟩] ++ [⟨a, .V, 2⟩] ++ [⟨b, .V, (W m.w64)⟩]
  | .atom _ m d a b c => [⟨d, .G, (W m.w64)⟩] ++ [⟨a, .V, 2⟩] ++ [⟨b, .V, 1⟩] ++ [⟨c, .V, (W m.w64)⟩]
  | .redImm _ m a b _ => [⟨a, .V, 2⟩] ++ [⟨b, .V, (W m.w64)⟩]
  | .red _ m a b c => [⟨a, .V, 2⟩] ++ [⟨b, .V, 1⟩] ++ [⟨c, .V, (W m.w64)⟩]
  | .cas _ m d a b c e => [⟨d, .G, m.csz.words⟩] ++ [⟨a, .V, 2⟩] ++ [⟨b, .V, 1⟩] ++ [⟨c, .V, m.csz.words⟩] ++ [⟨e, .V, m.csz.words⟩]
  | .atoms _ m d a b _ => [⟨d, .G, (W m.w64)⟩] ++ [⟨a, .V, 1⟩] ++ [⟨b, .V, (W m.w64)⟩]
  | .reds _ m a b _ => [⟨a, .V, 1⟩] ++ [⟨b, .V, (W m.w64)⟩]
  | .cass _ m d a b c e => [⟨d, .G, m.csz.words⟩] ++ [⟨a, .V, 1⟩] ++ [⟨b, .V, 1⟩] ++ [⟨c, .V, m.csz.words⟩] ++ [⟨e, .V, m.csz.words⟩]
  | .fence _ _ => []
  | .pfence _ _ => []
  | .barInit _ _ a => [⟨a, .V, 1⟩]
  | .barInitImm _ _ _ => []
  | .barArrive _ _ a => [⟨a, .V, 1⟩]
  | .barArriveImm _ _ _ => []
  | .barWait _ _ => []
  | .barSync _ _ a => [⟨a, .V, 1⟩]
  | .barSyncImm _ _ _ => []
  | .barInv _ _ => []
  | .waitaImm _ m d a b _ => [⟨d, .P, 1⟩] ++ [⟨a, .V, (if m.space = .spad then 1 else 2)⟩] ++ [⟨b, .V, (W m.w64)⟩]
  | .waita _ m d a b c => [⟨d, .P, 1⟩] ++ [⟨a, .V, (if m.space = .spad then 1 else 2)⟩] ++ [⟨b, .V, (W m.w64)⟩] ++ [⟨c, .V, 1⟩]
  | .cbar _ _ => []
  | .winBind _ d a b => [⟨d, .G, 1⟩] ++ [⟨a, .V, 1⟩] ++ [⟨b, .V, 2⟩]
  | .winTouch _ a => [⟨a, .V, 1⟩]
  | .winRetire _ a => [⟨a, .V, 1⟩]
  | .winState _ d a => [⟨d, .G, 1⟩] ++ [⟨a, .V, 1⟩]
  | .seal _ d a b c => [⟨d, .G, 1⟩] ++ [⟨a, .V, 2⟩] ++ [⟨b, .V, 1⟩] ++ [⟨c, .V, 1⟩]
  | .unseal _ _ d a b c => [⟨d, .G, 1⟩] ++ [⟨a, .V, 2⟩] ++ [⟨b, .V, 1⟩] ++ [⟨c, .V, 1⟩]
  | .cctlImm _ _ a _ => [⟨a, .V, 2⟩]
  | .cctl _ _ a b => [⟨a, .V, 2⟩] ++ [⟨b, .V, 1⟩]
  | .iinv _ a b => [⟨a, .V, 2⟩] ++ [⟨b, .V, 1⟩]
  | .isync _ => []
  | .mxop _ d a => [⟨d, .G, 1⟩] ++ [⟨a, .V, 1⟩]
  | .mxopImm _ d _ => [⟨d, .G, 1⟩]
  | .mxdrain _ _ d a b c => [⟨d, .G, 1⟩] ++ [⟨a, .V, 1⟩] ++ [⟨b, .V, 1⟩] ++ [⟨c, .V, 1⟩]
  | .mxwait _ _ a => useOpt a .V 1
  | .mxburst _ a => [⟨a, .V, 1⟩]
  | .mxburstImm _ _ => []
  | .collPost _ d a => [⟨d, .G, 1⟩] ++ [⟨a, .V, 2⟩]
  | .taskPost _ d a b => [⟨d, .G, 1⟩] ++ [⟨a, .V, 2⟩] ++ [⟨b, .V, 1⟩]
  | .taskDep _ _ d a b c => [⟨d, .G, 1⟩] ++ [⟨a, .V, 2⟩] ++ [⟨b, .V, 1⟩] ++ [⟨c, .V, 1⟩]
  | .taskDepImm _ _ d a b _ => [⟨d, .G, 1⟩] ++ [⟨a, .V, 2⟩] ++ [⟨b, .V, 1⟩]
  | .phase _ => []
  | .syscall _ _ => []
  | .svqtake _ _ d => [⟨d, .G, 16⟩]
  | .svret _ _ a b => useOpt a .V 1 ++ useOpt b .V 1
  | .svqwait _ => []
  | .movs _ d imm => [⟨d, .V, (srWidth imm)⟩]
  | .csrrImm _ d _ => [⟨d, .G, 2⟩]
  | .csrr _ d a => [⟨d, .G, 2⟩] ++ [⟨a, .V, 1⟩]
  | .csrwImm _ a _ => [⟨a, .V, 2⟩]
  | .csrw _ a b => [⟨a, .V, 1⟩] ++ [⟨b, .V, 2⟩]
  | .ptsync _ _ => []
  | .tlbinv _ _ a b c => useOpt a .V 2 ++ useOpt b .V 1 ++ useOpt c .V 1
  | .pgmove _ _ d a b c => [⟨d, .G, 1⟩] ++ [⟨a, .V, 2⟩] ++ [⟨b, .V, 2⟩] ++ [⟨c, .V, 1⟩]
  | .solderHandoff _ d a => [⟨d, .G, 1⟩] ++ [⟨a, .V, 1⟩]
  | .bndSet _ _ a b c => [⟨a, .V, 1⟩] ++ [⟨b, .V, 1⟩] ++ [⟨c, .V, 1⟩]
  | .schedStep _ _ a => useOpt a .V 1
  | .svwake _ d a b c => [⟨d, .G, 1⟩] ++ [⟨a, .V, 1⟩] ++ [⟨b, .V, 2⟩] ++ [⟨c, .V, 1⟩]
  | .tret _ d a b c => [⟨d, .G, 1⟩] ++ [⟨a, .V, 1⟩] ++ [⟨b, .V, 2⟩] ++ [⟨c, .V, 1⟩]
  | .frassign _ d a b c => [⟨d, .G, 1⟩] ++ [⟨a, .V, 1⟩] ++ [⟨b, .V, 1⟩] ++ [⟨c, .V, 1⟩]
  | .solderRekey _ d a => [⟨d, .G, 1⟩] ++ [⟨a, .V, 1⟩]
  | .halt _ a => [⟨a, .V, 1⟩]
  | _ => []

/-- The MOD combinations, the presence of optional operands and the limits of immediates that each description allows (R254). -/
def Instr.modOk : Instr → Bool
  | .iadd _ m _ _ _ => decide (m.mul = .lo)
  | .iaddImm _ m _ _ _ => decide (m.mul = .lo)
  | .isub _ m _ _ _ => decide (m.mul = .lo)
  | .isubImm _ m _ _ _ => decide (m.mul = .lo)
  | .imul _ m _ _ _ => decide (m.mulOk)
  | .imulImm _ m _ _ _ => decide (m.mulOk)
  | .imad _ m _ _ _ _ => decide (m.mulOk)
  | .imadImm _ m _ _ _ _ => decide (m.mulOk)
  | .idiv _ m _ _ _ => decide (m.mul = .lo)
  | .irem _ m _ _ _ => decide (m.mul = .lo ∧ m.sat = false)
  | .imin _ m _ _ _ => decide (m.mul = .lo ∧ m.sat = false)
  | .iminImm _ m _ _ _ => decide (m.mul = .lo ∧ m.sat = false)
  | .imax _ m _ _ _ => decide (m.mul = .lo ∧ m.sat = false)
  | .imaxImm _ m _ _ _ => decide (m.mul = .lo ∧ m.sat = false)
  | .iabs _ m _ _ => decide (m.mul = .lo ∧ m.u = false)
  | .isad _ m _ _ _ _ => decide (m.mul = .lo)
  | .and _ m _ _ _ => decide (m.tbl = 0 ∧ m.right = false ∧ m.s = false)
  | .andImm _ m _ _ _ => decide (m.tbl = 0 ∧ m.right = false ∧ m.s = false)
  | .or _ m _ _ _ => decide (m.tbl = 0 ∧ m.right = false ∧ m.s = false)
  | .orImm _ m _ _ _ => decide (m.tbl = 0 ∧ m.right = false ∧ m.s = false)
  | .xor _ m _ _ _ => decide (m.tbl = 0 ∧ m.right = false ∧ m.s = false)
  | .xorImm _ m _ _ _ => decide (m.tbl = 0 ∧ m.right = false ∧ m.s = false)
  | .not _ m _ _ => decide (m.tbl = 0 ∧ m.right = false ∧ m.s = false)
  | .logt _ m _ _ _ _ => decide (m.right = false ∧ m.s = false)
  | .shl _ m _ _ _ => decide (m.tbl = 0 ∧ m.right = false ∧ m.s = false)
  | .shlImm _ m _ _ _ => decide (m.tbl = 0 ∧ m.right = false ∧ m.s = false)
  | .shr _ m _ _ _ => decide (m.tbl = 0 ∧ m.right = false)
  | .shrImm _ m _ _ _ => decide (m.tbl = 0 ∧ m.right = false)
  | .rot _ m _ _ _ => decide (m.tbl = 0 ∧ m.s = false)
  | .popc _ m _ _ => decide (m.tbl = 0 ∧ m.right = false ∧ m.s = false)
  | .clz _ m _ _ => decide (m.tbl = 0 ∧ m.right = false ∧ m.s = false)
  | .bfx _ m _ _ _ _ => decide (m.tbl = 0 ∧ m.right = false)
  | .icmp _ m _ _ _ c => decide ((m.bop = .none ↔ c = none))
  | .icmpImm _ m _ _ _ => decide (m.bop = .none)
  | .fcmp _ m _ _ _ c => decide ((m.bop = .none ↔ c = none))
  | .fcmpImm _ m _ _ _ => decide (m.bop = .none ∧ m.w64 = false)
  | .hcmp _ m _ _ _ c => decide ((m.bop = .none ↔ c = none))
  | .sel _ m _ _ _ _ => decide ((m.byte && m.w64) = false)
  | .selImm _ m _ _ _ _ => decide ((m.byte && m.w64) = false)
  | .mov _ m _ _ => decide (m.u = false)
  | .movImm _ m _ _ => decide ((m.u → m.w64))
  | .fmul _ m _ _ _ => decide (m.nc = false)
  | .fmulImm _ m _ _ _ => decide (m.nc = false)
  | .fmin _ m _ _ _ => decide (m.nc = false ∧ m.rnd = .rn)
  | .fmax _ m _ _ _ => decide (m.nc = false ∧ m.rnd = .rn)
  | .fdiv _ m _ _ _ => decide (m.nc = false)
  | .fsqrt _ m _ _ => decide (m.nc = false)
  | .frcp _ m _ _ => decide (m.nc = false)
  | .frsq _ m _ _ => decide (m.nc = false)
  | .dmul _ m _ _ _ => decide (m.nc = false)
  | .hmin _ m _ _ _ => decide (m.rnd = .rn)
  | .hmax _ m _ _ _ => decide (m.rnd = .rn)
  | .vadd _ m _ _ _ => decide (m.max = false ∧ m.dp = none)
  | .vaddImm _ m _ _ _ => decide (m.max = false ∧ m.dp = none)
  | .vsub _ m _ _ _ => decide (m.max = false ∧ m.dp = none)
  | .vmin _ m _ _ _ => decide (m.max = false ∧ m.dp = none ∧ m.sat = false)
  | .vmax _ m _ _ _ => decide (m.max = false ∧ m.dp = none ∧ m.sat = false)
  | .vmul _ m _ _ _ => decide (m.max = false ∧ m.dp = none)
  | .vdot _ m _ _ _ _ => decide (m.max = false ∧ m.dp = none)
  | .acs2 _ m _ _ _ _ _ => decide (m.e8 = false)
  | .vabsd _ m _ _ _ => decide (m.max = false ∧ m.dp = none ∧ m.sat = false)
  | .prmt _ m _ _ _ _ => decide (m.max = false ∧ m.dp = none)
  | .prmtImm _ m _ _ _ _ => decide (m.max = false ∧ m.dp = none)
  | .cvt _ m _ _ b => decide (m.ok ∧ (m.ef = true ↔ b ≠ none))
  | .cvtp _ m _ _ b c => decide (m.ok ∧ (m.op.isPack = true ↔ b ≠ none) ∧ (m.ef = true ↔ c ≠ none))
  | .pcol _ m _ _ => decide ((m.pair → m.mode = .mask ∧ m.pb = 0))
  | .xred _ m _ _ => decide (m.ok ∧ m.excl = false)
  | .xscan _ m _ _ => decide (m.ok)
  | .xfred _ m _ _ => decide ((m.op = .add ∨ m.rnd = .rn))
  | .ld _ m _ _ _ _ => decide (m.col = 0)
  | .st _ m _ _ _ _ => decide (m.ok)
  | .ldProbe _ m _ _ _ _ => decide (m.sz.unsignedLoad)
  | .lds _ m _ _ _ _ => decide (m.ok)
  | .sts _ m _ _ _ _ => decide (m.ok ∧ m.sz.unsignedLoad)
  | .ldm _ m _ _ _ _ => decide (m.col = 0 ∧ m.usr = false)
  | .stm _ m _ _ _ _ => decide (m.usr = false ∧ m.sz.unsignedLoad)
  | .prf _ m _ _ _ => decide (m.col = 0 ∧ m.usr = false ∧ m.scope = .thread ∧ m.sz = .b)
  | .atomImm _ m _ _ _ _ => decide (m.ok ∧ m.sh = 0)
  | .atom _ m _ _ _ _ => decide (m.ok)
  | .redImm _ m _ _ _ => decide (m.ok ∧ m.sh = 0 ∧ m.acq = false)
  | .red _ m _ _ _ => decide (m.ok ∧ m.acq = false)
  | .atoms _ m _ _ _ _ => decide (m.ok)
  | .reds _ m _ _ _ => decide (m.ok)
  | .cass _ m _ _ _ _ _ => decide (m.ok)
  | .fence _ m => decide (m.ok)
  | .mxdrain _ m _ _ _ _ => decide (m.ok)
  | .mxwait _ m a => decide ((m.all = true ↔ a = none))
  | .taskDep _ m _ a _ c => decide ((m.clrp = true → a = .zero ∧ c = .zero))
  | .taskDepImm _ m _ a _ _ => decide ((m.clrp = true → a = .zero))
  | .svret _ m a b => decide ((m.form = .next ↔ a ≠ none) ∧ (m.g1 = true ↔ b ≠ none) ∧ (m.g1 = true → m.form = .next))
  | .ptsync _ m => decide (m.ok)
  | .tlbinv _ m a b c => decide (m.ok ∧ (m.form.hasRange = true ↔ a ≠ none) ∧ (m.form.hasRange = true ↔ b ≠ none) ∧ (m.form.hasId = true ↔ c ≠ none))
  | .schedStep _ m a => decide ((m.set = true ↔ a ≠ none))
  | _ => true

/-- The header of an opcode's word; an event has none. -/
def Instr.hdr? : Instr → Option Hdr
  | .nop h => some h
  | .bra h _ => some h
  | .call h _ _ => some h
  | .ret h _ => some h
  | .brx h _ _ => some h
  | .callx h _ _ _ => some h
  | .yield h => some h
  | .exit h => some h
  | .iadd h _ _ _ _ => some h
  | .iaddImm h _ _ _ _ => some h
  | .isub h _ _ _ _ => some h
  | .isubImm h _ _ _ _ => some h
  | .imul h _ _ _ _ => some h
  | .imulImm h _ _ _ _ => some h
  | .imad h _ _ _ _ _ => some h
  | .imadImm h _ _ _ _ _ => some h
  | .idiv h _ _ _ _ => some h
  | .irem h _ _ _ _ => some h
  | .imin h _ _ _ _ => some h
  | .iminImm h _ _ _ _ => some h
  | .imax h _ _ _ _ => some h
  | .imaxImm h _ _ _ _ => some h
  | .iabs h _ _ _ => some h
  | .isad h _ _ _ _ _ => some h
  | .and h _ _ _ _ => some h
  | .andImm h _ _ _ _ => some h
  | .or h _ _ _ _ => some h
  | .orImm h _ _ _ _ => some h
  | .xor h _ _ _ _ => some h
  | .xorImm h _ _ _ _ => some h
  | .not h _ _ _ => some h
  | .logt h _ _ _ _ _ => some h
  | .shl h _ _ _ _ => some h
  | .shlImm h _ _ _ _ => some h
  | .shr h _ _ _ _ => some h
  | .shrImm h _ _ _ _ => some h
  | .rot h _ _ _ _ => some h
  | .popc h _ _ _ => some h
  | .clz h _ _ _ => some h
  | .bfx h _ _ _ _ _ => some h
  | .icmp h _ _ _ _ _ => some h
  | .icmpImm h _ _ _ _ => some h
  | .fcmp h _ _ _ _ _ => some h
  | .fcmpImm h _ _ _ _ => some h
  | .fclass h _ _ _ => some h
  | .hcmp h _ _ _ _ _ => some h
  | .sel h _ _ _ _ _ => some h
  | .selImm h _ _ _ _ _ => some h
  | .pcomb h _ _ _ _ _ => some h
  | .p2g h _ _ => some h
  | .g2p h _ _ => some h
  | .mov h _ _ _ => some h
  | .movImm h _ _ _ => some h
  | .movh h _ _ => some h
  | .lea h _ _ _ _ => some h
  | .leaImm h _ _ _ _ => some h
  | .fadd h _ _ _ _ => some h
  | .faddImm h _ _ _ _ => some h
  | .fsub h _ _ _ _ => some h
  | .fmul h _ _ _ _ => some h
  | .fmulImm h _ _ _ _ => some h
  | .ffma h _ _ _ _ _ => some h
  | .ffmaImm h _ _ _ _ _ => some h
  | .fmin h _ _ _ _ => some h
  | .fmax h _ _ _ _ => some h
  | .fdiv h _ _ _ _ => some h
  | .fsqrt h _ _ _ => some h
  | .frcp h _ _ _ => some h
  | .frsq h _ _ _ => some h
  | .dadd h _ _ _ _ => some h
  | .dmul h _ _ _ _ => some h
  | .dfma h _ _ _ _ _ => some h
  | .hadd h _ _ _ _ => some h
  | .hmul h _ _ _ _ => some h
  | .hfma h _ _ _ _ _ => some h
  | .hmin h _ _ _ _ => some h
  | .hmax h _ _ _ _ => some h
  | .vadd h _ _ _ _ => some h
  | .vaddImm h _ _ _ _ => some h
  | .vsub h _ _ _ _ => some h
  | .vmin h _ _ _ _ => some h
  | .vmax h _ _ _ _ => some h
  | .vmul h _ _ _ _ => some h
  | .vdot h _ _ _ _ _ => some h
  | .acs2 h _ _ _ _ _ _ => some h
  | .vabsd h _ _ _ _ => some h
  | .prmt h _ _ _ _ _ => some h
  | .prmtImm h _ _ _ _ _ => some h
  | .cvt h _ _ _ _ => some h
  | .cvtp h _ _ _ _ _ => some h
  | .exp2 h _ _ _ => some h
  | .log2 h _ _ _ => some h
  | .sinPi h _ _ _ => some h
  | .cosPi h _ _ _ => some h
  | .rndh h _ _ _ _ => some h
  | .rndhImm h _ _ _ _ => some h
  | .frnd h _ _ _ => some h
  | .fscale h _ _ _ _ => some h
  | .fscaleImm h _ _ _ _ => some h
  | .lxch h _ _ _ _ _ => some h
  | .lxchImm h _ _ _ _ => some h
  | .pcol h _ _ _ => some h
  | .xred h _ _ _ => some h
  | .xscan h _ _ _ => some h
  | .xfind h _ _ _ _ => some h
  | .xfred h _ _ _ => some h
  | .ld h _ _ _ _ _ => some h
  | .st h _ _ _ _ _ => some h
  | .ldProbe h _ _ _ _ _ => some h
  | .lds h _ _ _ _ _ => some h
  | .sts h _ _ _ _ _ => some h
  | .ldm h _ _ _ _ _ => some h
  | .stm h _ _ _ _ _ => some h
  | .prf h _ _ _ _ => some h
  | .atomImm h _ _ _ _ _ => some h
  | .atom h _ _ _ _ _ => some h
  | .redImm h _ _ _ _ => some h
  | .red h _ _ _ _ => some h
  | .cas h _ _ _ _ _ _ => some h
  | .atoms h _ _ _ _ _ => some h
  | .reds h _ _ _ _ => some h
  | .cass h _ _ _ _ _ _ => some h
  | .fence h _ => some h
  | .pfence h _ => some h
  | .barInit h _ _ => some h
  | .barInitImm h _ _ => some h
  | .barArrive h _ _ => some h
  | .barArriveImm h _ _ => some h
  | .barWait h _ => some h
  | .barSync h _ _ => some h
  | .barSyncImm h _ _ => some h
  | .barInv h _ => some h
  | .waitaImm h _ _ _ _ _ => some h
  | .waita h _ _ _ _ _ => some h
  | .cbar h _ => some h
  | .winBind h _ _ _ => some h
  | .winTouch h _ => some h
  | .winRetire h _ => some h
  | .winState h _ _ => some h
  | .seal h _ _ _ _ => some h
  | .unseal h _ _ _ _ _ => some h
  | .cctlImm h _ _ _ => some h
  | .cctl h _ _ _ => some h
  | .iinv h _ _ => some h
  | .isync h => some h
  | .mxop h _ _ => some h
  | .mxopImm h _ _ => some h
  | .mxdrain h _ _ _ _ _ => some h
  | .mxwait h _ _ => some h
  | .mxburst h _ => some h
  | .mxburstImm h _ => some h
  | .collPost h _ _ => some h
  | .taskPost h _ _ _ => some h
  | .taskDep h _ _ _ _ _ => some h
  | .taskDepImm h _ _ _ _ _ => some h
  | .phase h => some h
  | .syscall h _ => some h
  | .svqtake h _ _ => some h
  | .svret h _ _ _ => some h
  | .svqwait h => some h
  | .movs h _ _ => some h
  | .csrrImm h _ _ => some h
  | .csrr h _ _ => some h
  | .csrwImm h _ _ => some h
  | .csrw h _ _ => some h
  | .ptsync h _ => some h
  | .tlbinv h _ _ _ _ => some h
  | .pgmove h _ _ _ _ _ => some h
  | .solderHandoff h _ _ => some h
  | .bndSet h _ _ _ _ => some h
  | .schedStep h _ _ => some h
  | .svwake h _ _ _ _ => some h
  | .tret h _ _ _ _ => some h
  | .frassign h _ _ _ _ => some h
  | .solderRekey h _ _ => some h
  | .halt h _ => some h
  | _ => none

/-- R254: the opcodes whose HINT may be nonzero. -/
def Instr.takesHint : Instr → Bool
  | .ld _ _ _ _ _ _ | .st _ _ _ _ _ _ | .ldProbe _ _ _ _ _ _ | .prf _ _ _ _ _ | .atomImm _ _ _ _ _ _ | .atom _ _ _ _ _ _ | .redImm _ _ _ _ _ | .red _ _ _ _ _ | .cas _ _ _ _ _ _ _ | .cctlImm _ _ _ _ | .cctl _ _ _ _ => true
  | _ => false

/-- R249: with GM 00 the second guard is zero. -/
def Hdr.ok (h : Hdr) : Bool := h.gm != .a || h.gb == ⟨false, 0⟩

/-- An opcode's instruction is well formed when its word raises no Illegal Instruction that the word alone decides
(R249, R251, R252, R254). -/
def Instr.wf (i : Instr) : Bool :=
  match i.hdr? with
  | none => false
  | some h => h.ok && (h.hint == 0 || i.takesHint) && i.uses.all (fun u => u.kind.accepts u.o && u.o.aligned u.n) && i.modOk

end Sys2Proof
end

