-- ==== Sys2Proof/Decode.lean ====
section
/-! DEFINITION. The 96-bit instruction word (R243, R249 to R256): its fields, the decoder, and the encoder after it. A word is a
Nat below 2^96 whose bit 0 is bit 0 of the slot. -/
namespace Sys2Proof

/-- Bits [lo + n - 1 : lo] of a word. -/
def fld (w lo n : Nat) : Nat := w / 2 ^ lo % 2 ^ n

/-- A field value as a finite index, when it lies below the bound. -/
def finOf? (n v : Nat) : Option (Fin n) := if h : v < n then some ⟨v, h⟩ else none

/-- A one-bit field. -/
def flag (w lo : Nat) : Bool := fld w lo 1 == 1

/-- Codes of Scope. -/
def Scope.code : Scope → Nat
  | .thread => 0
  | .grp => 1
  | .blk => 2
  | .clu => 3
  | .die => 4
  | .pkg => 5
  | .sys => 6
def Scope.ofCode : Nat → Option Scope
  | 0 => Option.some .thread
  | 1 => Option.some .grp
  | 2 => Option.some .blk
  | 3 => Option.some .clu
  | 4 => Option.some .die
  | 5 => Option.some .pkg
  | 6 => Option.some .sys
  | _ => Option.none

/-- Codes of Rnd. -/
def Rnd.code : Rnd → Nat
  | .rn => 0
  | .rz => 1
  | .ru => 2
  | .rd => 3
  | .rna => 4
def Rnd.ofCode : Nat → Option Rnd
  | 0 => Option.some .rn
  | 1 => Option.some .rz
  | 2 => Option.some .ru
  | 3 => Option.some .rd
  | 4 => Option.some .rna
  | _ => Option.none

/-- Codes of ETy. -/
def ETy.code : ETy → Nat
  | .i8 => 0
  | .n8 => 1
  | .i16 => 2
  | .n16 => 3
  | .i32 => 4
  | .n32 => 5
  | .i64 => 6
  | .n64 => 7
  | .f16 => 8
  | .bf16 => 9
  | .f32 => 10
  | .f64 => 11
  | .f8 => 12
  | .f8w => 13
def ETy.ofCode : Nat → Option ETy
  | 0 => Option.some .i8
  | 1 => Option.some .n8
  | 2 => Option.some .i16
  | 3 => Option.some .n16
  | 4 => Option.some .i32
  | 5 => Option.some .n32
  | 6 => Option.some .i64
  | 7 => Option.some .n64
  | 8 => Option.some .f16
  | 9 => Option.some .bf16
  | 10 => Option.some .f32
  | 11 => Option.some .f64
  | 12 => Option.some .f8
  | 13 => Option.some .f8w
  | _ => Option.none

/-- Codes of Path. -/
def Path.code : Path → Nat
  | .ls => 0
  | .mx => 1
  | .sw => 2
  | .ne => 3
  | .co => 4
  | .sg => 5
  | .wk => 6
  | .if_ => 7
  | .lq => 8
def Path.ofCode : Nat → Option Path
  | 0 => Option.some .ls
  | 1 => Option.some .mx
  | 2 => Option.some .sw
  | 3 => Option.some .ne
  | 4 => Option.some .co
  | 5 => Option.some .sg
  | 6 => Option.some .wk
  | 7 => Option.some .if_
  | 8 => Option.some .lq
  | _ => Option.none

/-- Codes of MulSel. -/
def MulSel.code : MulSel → Nat
  | .lo => 0
  | .hi => 1
  | .wide => 2
def MulSel.ofCode : Nat → Option MulSel
  | 0 => Option.some .lo
  | 1 => Option.some .hi
  | 2 => Option.some .wide
  | _ => Option.none

/-- Codes of Bop. -/
def Bop.code : Bop → Nat
  | .none => 0
  | .and => 1
  | .or => 2
  | .xor => 3
def Bop.ofCode : Nat → Option Bop
  | 0 => Option.some .none
  | 1 => Option.some .and
  | 2 => Option.some .or
  | 3 => Option.some .xor
  | _ => Option.none

/-- Codes of ICmp. -/
def ICmp.code : ICmp → Nat
  | .eq => 0
  | .ne => 1
  | .lt => 2
  | .le => 3
  | .gt => 4
  | .ge => 5
def ICmp.ofCode : Nat → Option ICmp
  | 0 => Option.some .eq
  | 1 => Option.some .ne
  | 2 => Option.some .lt
  | 3 => Option.some .le
  | 4 => Option.some .gt
  | 5 => Option.some .ge
  | _ => Option.none

/-- Codes of FCmp. -/
def FCmp.code : FCmp → Nat
  | .eq => 0
  | .ne => 1
  | .lt => 2
  | .le => 3
  | .gt => 4
  | .ge => 5
  | .num => 6
  | .nan => 7
def FCmp.ofCode : Nat → Option FCmp
  | 0 => Option.some .eq
  | 1 => Option.some .ne
  | 2 => Option.some .lt
  | 3 => Option.some .le
  | 4 => Option.some .gt
  | 5 => Option.some .ge
  | 6 => Option.some .num
  | 7 => Option.some .nan
  | _ => Option.none

/-- Codes of ClassFmt. -/
def ClassFmt.code : ClassFmt → Nat
  | .f32 => 0
  | .f64 => 1
  | .f16 => 2
  | .bf16 => 3
  | .f8 => 4
  | .f8w => 5
def ClassFmt.ofCode : Nat → Option ClassFmt
  | 0 => Option.some .f32
  | 1 => Option.some .f64
  | 2 => Option.some .f16
  | 3 => Option.some .bf16
  | 4 => Option.some .f8
  | 5 => Option.some .f8w
  | _ => Option.none

/-- Codes of CvtpOp. -/
def CvtpOp.code : CvtpOp → Nat
  | .pk2 => 0
  | .pk4 => 1
  | .up2 => 2
  | .up4 => 3
def CvtpOp.ofCode : Nat → Option CvtpOp
  | 0 => Option.some .pk2
  | 1 => Option.some .pk4
  | 2 => Option.some .up2
  | 3 => Option.some .up4
  | _ => Option.none

/-- Codes of SfuFmt. -/
def SfuFmt.code : SfuFmt → Nat
  | .f32 => 0
  | .f16 => 1
  | .bf16 => 2
def SfuFmt.ofCode : Nat → Option SfuFmt
  | 0 => Option.some .f32
  | 1 => Option.some .f16
  | 2 => Option.some .bf16
  | _ => Option.none

/-- Codes of LxMode. -/
def LxMode.code : LxMode → Nat
  | .pick => 0
  | .rot => 1
  | .slide => 2
  | .flip => 3
def LxMode.ofCode : Nat → Option LxMode
  | 0 => Option.some .pick
  | 1 => Option.some .rot
  | 2 => Option.some .slide
  | 3 => Option.some .flip
  | _ => Option.none

/-- Codes of PcolMode. -/
def PcolMode.code : PcolMode → Nat
  | .every => 0
  | .any_ => 1
  | .same => 2
  | .mask => 3
  | .count => 4
def PcolMode.ofCode : Nat → Option PcolMode
  | 0 => Option.some .every
  | 1 => Option.some .any_
  | 2 => Option.some .same
  | 3 => Option.some .mask
  | 4 => Option.some .count
  | _ => Option.none

/-- Codes of XOp. -/
def XOp.code : XOp → Nat
  | .add => 0
  | .min => 1
  | .max => 2
  | .and => 3
  | .or => 4
  | .xor => 5
  | .satadd => 6
def XOp.ofCode : Nat → Option XOp
  | 0 => Option.some .add
  | 1 => Option.some .min
  | 2 => Option.some .max
  | 3 => Option.some .and
  | 4 => Option.some .or
  | 5 => Option.some .xor
  | 6 => Option.some .satadd
  | _ => Option.none

/-- Codes of XfOp. -/
def XfOp.code : XfOp → Nat
  | .add => 0
  | .min => 1
  | .max => 2
def XfOp.ofCode : Nat → Option XfOp
  | 0 => Option.some .add
  | 1 => Option.some .min
  | 2 => Option.some .max
  | _ => Option.none

/-- Codes of Sz. -/
def Sz.code : Sz → Nat
  | .b => 0
  | .h => 1
  | .w => 2
  | .d => 3
  | .q => 4
  | .sb => 5
  | .sh => 6
def Sz.ofCode : Nat → Option Sz
  | 0 => Option.some .b
  | 1 => Option.some .h
  | 2 => Option.some .w
  | 3 => Option.some .d
  | 4 => Option.some .q
  | 5 => Option.some .sb
  | 6 => Option.some .sh
  | _ => Option.none

/-- Codes of Swz. -/
def Swz.code : Swz → Nat
  | .none => 0
  | .x => 1
  | .k => 2
  | .win => 3
def Swz.ofCode : Nat → Option Swz
  | 0 => Option.some .none
  | 1 => Option.some .x
  | 2 => Option.some .k
  | 3 => Option.some .win
  | _ => Option.none

/-- Codes of AOp. -/
def AOp.code : AOp → Nat
  | .add => 0
  | .min => 1
  | .max => 2
  | .and => 3
  | .or => 4
  | .xor => 5
  | .exch => 6
  | .inc => 7
def AOp.ofCode : Nat → Option AOp
  | 0 => Option.some .add
  | 1 => Option.some .min
  | 2 => Option.some .max
  | 3 => Option.some .and
  | 4 => Option.some .or
  | 5 => Option.some .xor
  | 6 => Option.some .exch
  | 7 => Option.some .inc
  | _ => Option.none

/-- Codes of CasSz. -/
def CasSz.code : CasSz → Nat
  | .c32 => 0
  | .c64 => 1
  | .c128 => 2
def CasSz.ofCode : Nat → Option CasSz
  | 0 => Option.some .c32
  | 1 => Option.some .c64
  | 2 => Option.some .c128
  | _ => Option.none

/-- Codes of FenceKind. -/
def FenceKind.code : FenceKind → Nat
  | .ar => 0
  | .rel => 1
  | .acq => 2
def FenceKind.ofCode : Nat → Option FenceKind
  | 0 => Option.some .ar
  | 1 => Option.some .rel
  | 2 => Option.some .acq
  | _ => Option.none

/-- Codes of CbarMode. -/
def CbarMode.code : CbarMode → Nat
  | .sync => 0
  | .arrive => 1
  | .wait => 2
def CbarMode.ofCode : Nat → Option CbarMode
  | 0 => Option.some .sync
  | 1 => Option.some .arrive
  | 2 => Option.some .wait
  | _ => Option.none

/-- Codes of WaCmp. -/
def WaCmp.code : WaCmp → Nat
  | .eq => 0
  | .ne => 1
  | .geu => 2
  | .ltu => 3
  | .ge => 4
  | .lt => 5
  | .anyset => 6
def WaCmp.ofCode : Nat → Option WaCmp
  | 0 => Option.some .eq
  | 1 => Option.some .ne
  | 2 => Option.some .geu
  | 3 => Option.some .ltu
  | 4 => Option.some .ge
  | 5 => Option.some .lt
  | 6 => Option.some .anyset
  | _ => Option.none

/-- Codes of WaSpace. -/
def WaSpace.code : WaSpace → Nat
  | .mem => 0
  | .spad => 1
  | .map => 2
def WaSpace.ofCode : Nat → Option WaSpace
  | 0 => Option.some .mem
  | 1 => Option.some .spad
  | 2 => Option.some .map
  | _ => Option.none

/-- Codes of CcLevel. -/
def CcLevel.code : CcLevel → Nat
  | .l1 => 0
  | .l2 => 1
def CcLevel.ofCode : Nat → Option CcLevel
  | 0 => Option.some .l1
  | 1 => Option.some .l2
  | _ => Option.none

/-- Codes of CcOp. -/
def CcOp.code : CcOp → Nat
  | .wb => 0
  | .wbinv => 1
  | .discard => 2
def CcOp.ofCode : Nat → Option CcOp
  | 0 => Option.some .wb
  | 1 => Option.some .wbinv
  | 2 => Option.some .discard
  | _ => Option.none

/-- Codes of DrainTy. -/
def DrainTy.code : DrainTy → Nat
  | .f32 => 0
  | .bf16 => 1
  | .f16 => 2
  | .f8 => 3
  | .f8w => 4
def DrainTy.ofCode : Nat → Option DrainTy
  | 0 => Option.some .f32
  | 1 => Option.some .bf16
  | 2 => Option.some .f16
  | 3 => Option.some .f8
  | 4 => Option.some .f8w
  | _ => Option.none

/-- Codes of RetForm. -/
def RetForm.code : RetForm → Nat
  | .next => 0
  | .replay => 1
  | .exit => 2
def RetForm.ofCode : Nat → Option RetForm
  | 0 => Option.some .next
  | 1 => Option.some .replay
  | 2 => Option.some .exit
  | _ => Option.none

/-- Codes of TlbForm. -/
def TlbForm.code : TlbForm → Nat
  | .va => 0
  | .as_ => 1
  | .vd => 2
  | .s2 => 3
def TlbForm.ofCode : Nat → Option TlbForm
  | 0 => Option.some .va
  | 1 => Option.some .as_
  | 2 => Option.some .vd
  | 3 => Option.some .s2
  | _ => Option.none

/-- Codes of BAct. -/
def BAct.code : BAct → Nat
  | .flag => 0
  | .clamp => 1
  | .trap => 2
def BAct.ofCode : Nat → Option BAct
  | 0 => Option.some .flag
  | 1 => Option.some .clamp
  | 2 => Option.some .trap
  | _ => Option.none

/-- The 16 bits of ArithMod. -/
def ArithMod.enc (m : ArithMod) : Nat :=
  (m.mul).code * 8 + (m.sat).toNat * 4 + (m.u).toNat * 2 + (m.w64).toNat
/-- ArithMod of a 16-bit MOD; a reserved code or a set bit that no field names is refused. -/
def ArithMod.dec (w : Nat) : Option ArithMod := do
  let mul ← MulSel.ofCode (fld w 3 2)
  let sat := flag w 2
  let u := flag w 1
  let w64 := flag w 0
  let m : ArithMod := ⟨mul, sat, u, w64⟩
  if m.enc = w then some m else none

/-- The 16 bits of LogicMod. -/
def LogicMod.enc (m : LogicMod) : Nat :=
  (m.tbl).val * 256 + (m.right).toNat * 4 + (m.s).toNat * 2 + (m.w64).toNat
/-- LogicMod of a 16-bit MOD; a reserved code or a set bit that no field names is refused. -/
def LogicMod.dec (w : Nat) : Option LogicMod := do
  let tbl ← finOf? 256 (fld w 8 8)
  let right := flag w 2
  let s := flag w 1
  let w64 := flag w 0
  let m : LogicMod := ⟨tbl, right, s, w64⟩
  if m.enc = w then some m else none

/-- The 16 bits of IcmpMod. -/
def IcmpMod.enc (m : IcmpMod) : Nat :=
  (m.bop).code * 32 + (m.cmp).code * 4 + (m.u).toNat * 2 + (m.w64).toNat
/-- IcmpMod of a 16-bit MOD; a reserved code or a set bit that no field names is refused. -/
def IcmpMod.dec (w : Nat) : Option IcmpMod := do
  let bop ← Bop.ofCode (fld w 5 2)
  let cmp ← ICmp.ofCode (fld w 2 3)
  let u := flag w 1
  let w64 := flag w 0
  let m : IcmpMod := ⟨bop, cmp, u, w64⟩
  if m.enc = w then some m else none

/-- The 16 bits of FcmpMod. -/
def FcmpMod.enc (m : FcmpMod) : Nat :=
  (m.bop).code * 32 + (m.cmp).code * 4 + (m.w64).toNat
/-- FcmpMod of a 16-bit MOD; a reserved code or a set bit that no field names is refused. -/
def FcmpMod.dec (w : Nat) : Option FcmpMod := do
  let bop ← Bop.ofCode (fld w 5 2)
  let cmp ← FCmp.ofCode (fld w 2 3)
  let w64 := flag w 0
  let m : FcmpMod := ⟨bop, cmp, w64⟩
  if m.enc = w then some m else none

/-- The 16 bits of HcmpMod. -/
def HcmpMod.enc (m : HcmpMod) : Nat :=
  (m.bop).code * 32 + (m.cmp).code * 4 + (m.bf).toNat
/-- HcmpMod of a 16-bit MOD; a reserved code or a set bit that no field names is refused. -/
def HcmpMod.dec (w : Nat) : Option HcmpMod := do
  let bop ← Bop.ofCode (fld w 5 2)
  let cmp ← FCmp.ofCode (fld w 2 3)
  let bf := flag w 0
  let m : HcmpMod := ⟨bop, cmp, bf⟩
  if m.enc = w then some m else none

/-- The 16 bits of FclassMod. -/
def FclassMod.enc (m : FclassMod) : Nat :=
  (m.ft).code * 1024 + (m.cls).val
/-- FclassMod of a 16-bit MOD; a reserved code or a set bit that no field names is refused. -/
def FclassMod.dec (w : Nat) : Option FclassMod := do
  let ft ← ClassFmt.ofCode (fld w 10 3)
  let cls ← finOf? 512 (fld w 0 9)
  let m : FclassMod := ⟨ft, cls⟩
  if m.enc = w then some m else none

/-- The 16 bits of SelMod. -/
def SelMod.enc (m : SelMod) : Nat :=
  (m.byte).toNat * 2 + (m.w64).toNat
/-- SelMod of a 16-bit MOD; a reserved code or a set bit that no field names is refused. -/
def SelMod.dec (w : Nat) : Option SelMod := do
  let byte := flag w 1
  let w64 := flag w 0
  let m : SelMod := ⟨byte, w64⟩
  if m.enc = w then some m else none

/-- The 16 bits of PcombMod. -/
def PcombMod.enc (m : PcombMod) : Nat :=
  (m.tbl).val * 256
/-- PcombMod of a 16-bit MOD; a reserved code or a set bit that no field names is refused. -/
def PcombMod.dec (w : Nat) : Option PcombMod := do
  let tbl ← finOf? 256 (fld w 8 8)
  let m : PcombMod := ⟨tbl⟩
  if m.enc = w then some m else none

/-- The 16 bits of P2gMod. -/
def P2gMod.enc (m : P2gMod) : Nat :=
  (m.hi).toNat
/-- P2gMod of a 16-bit MOD; a reserved code or a set bit that no field names is refused. -/
def P2gMod.dec (w : Nat) : Option P2gMod := do
  let hi := flag w 0
  let m : P2gMod := ⟨hi⟩
  if m.enc = w then some m else none

/-- The 16 bits of G2pMod. -/
def G2pMod.enc (m : G2pMod) : Nat :=
  (m.keep).val * 256 + (m.hi).toNat
/-- G2pMod of a 16-bit MOD; a reserved code or a set bit that no field names is refused. -/
def G2pMod.dec (w : Nat) : Option G2pMod := do
  let keep ← finOf? 256 (fld w 8 8)
  let hi := flag w 0
  let m : G2pMod := ⟨keep, hi⟩
  if m.enc = w then some m else none

/-- The 16 bits of MovMod. -/
def MovMod.enc (m : MovMod) : Nat :=
  (m.u).toNat * 2 + (m.w64).toNat
/-- MovMod of a 16-bit MOD; a reserved code or a set bit that no field names is refused. -/
def MovMod.dec (w : Nat) : Option MovMod := do
  let u := flag w 1
  let w64 := flag w 0
  let m : MovMod := ⟨u, w64⟩
  if m.enc = w then some m else none

/-- The 16 bits of LeaMod. -/
def LeaMod.enc (m : LeaMod) : Nat :=
  (m.u).toNat * 8 + (m.sh).val
/-- LeaMod of a 16-bit MOD; a reserved code or a set bit that no field names is refused. -/
def LeaMod.dec (w : Nat) : Option LeaMod := do
  let u := flag w 3
  let sh ← finOf? 8 (fld w 0 3)
  let m : LeaMod := ⟨u, sh⟩
  if m.enc = w then some m else none

/-- The 16 bits of FpMod. -/
def FpMod.enc (m : FpMod) : Nat :=
  (m.nc).toNat * 16 + (m.na).toNat * 8 + (m.rnd).code
/-- FpMod of a 16-bit MOD; a reserved code or a set bit that no field names is refused. -/
def FpMod.dec (w : Nat) : Option FpMod := do
  let nc := flag w 4
  let na := flag w 3
  let rnd ← Rnd.ofCode (fld w 0 3)
  let m : FpMod := ⟨nc, na, rnd⟩
  if m.enc = w then some m else none

/-- The 16 bits of HalfMod. -/
def HalfMod.enc (m : HalfMod) : Nat :=
  (m.bf).toNat * 8 + (m.rnd).code
/-- HalfMod of a 16-bit MOD; a reserved code or a set bit that no field names is refused. -/
def HalfMod.dec (w : Nat) : Option HalfMod := do
  let bf := flag w 3
  let rnd ← Rnd.ofCode (fld w 0 3)
  let m : HalfMod := ⟨bf, rnd⟩
  if m.enc = w then some m else none

/-- The 16 bits of VecMod. -/
def VecMod.enc (m : VecMod) : Nat :=
  (match m.dp with | some p => 16 + p.val | none => 0) * 256 + (m.max).toNat * 8 + (m.sat).toNat * 4 + (m.u).toNat * 2 + (m.e8).toNat
/-- VecMod of a 16-bit MOD; a reserved code or a set bit that no field names is refused. -/
def VecMod.dec (w : Nat) : Option VecMod := do
  let dp := (if flag w 12 then finOf? 16 (fld w 8 4) else none)
  let max := flag w 3
  let sat := flag w 2
  let u := flag w 1
  let e8 := flag w 0
  let m : VecMod := ⟨dp, max, sat, u, e8⟩
  if m.enc = w then some m else none

/-- The 16 bits of CvtMod. -/
def CvtMod.enc (m : CvtMod) : Nat :=
  (m.dt).code * 4096 + (m.st).code * 256 + (m.rnd).code * 32 + (m.sat).toNat * 16 + (m.ef).toNat * 8
/-- CvtMod of a 16-bit MOD; a reserved code or a set bit that no field names is refused. -/
def CvtMod.dec (w : Nat) : Option CvtMod := do
  let dt ← ETy.ofCode (fld w 12 4)
  let st ← ETy.ofCode (fld w 8 4)
  let rnd ← Rnd.ofCode (fld w 5 3)
  let sat := flag w 4
  let ef := flag w 3
  let m : CvtMod := ⟨dt, st, rnd, sat, ef⟩
  if m.enc = w then some m else none

/-- The 16 bits of CvtpMod. -/
def CvtpMod.enc (m : CvtpMod) : Nat :=
  (m.pt).code * 4096 + (m.op).code * 1024 + (m.rnd).code * 128 + (m.sat).toNat * 64 + (m.ef).toNat * 32
/-- CvtpMod of a 16-bit MOD; a reserved code or a set bit that no field names is refused. -/
def CvtpMod.dec (w : Nat) : Option CvtpMod := do
  let pt ← ETy.ofCode (fld w 12 4)
  let op ← CvtpOp.ofCode (fld w 10 2)
  let rnd ← Rnd.ofCode (fld w 7 3)
  let sat := flag w 6
  let ef := flag w 5
  let m : CvtpMod := ⟨pt, op, rnd, sat, ef⟩
  if m.enc = w then some m else none

/-- The 16 bits of SfuMod. -/
def SfuMod.enc (m : SfuMod) : Nat :=
  (m.ft).code * 8 + (m.rnd).code
/-- SfuMod of a 16-bit MOD; a reserved code or a set bit that no field names is refused. -/
def SfuMod.dec (w : Nat) : Option SfuMod := do
  let ft ← SfuFmt.ofCode (fld w 3 2)
  let rnd ← Rnd.ofCode (fld w 0 3)
  let m : SfuMod := ⟨ft, rnd⟩
  if m.enc = w then some m else none

/-- The 16 bits of RndhMod. -/
def RndhMod.enc (m : RndhMod) : Nat :=
  (m.u01).toNat
/-- RndhMod of a 16-bit MOD; a reserved code or a set bit that no field names is refused. -/
def RndhMod.dec (w : Nat) : Option RndhMod := do
  let u01 := flag w 0
  let m : RndhMod := ⟨u01⟩
  if m.enc = w then some m else none

/-- The 16 bits of FrndMod. -/
def FrndMod.enc (m : FrndMod) : Nat :=
  (m.w64).toNat * 8 + (m.rnd).code
/-- FrndMod of a 16-bit MOD; a reserved code or a set bit that no field names is refused. -/
def FrndMod.dec (w : Nat) : Option FrndMod := do
  let w64 := flag w 3
  let rnd ← Rnd.ofCode (fld w 0 3)
  let m : FrndMod := ⟨w64, rnd⟩
  if m.enc = w then some m else none

/-- The 16 bits of LxchMod. -/
def LxchMod.enc (m : LxchMod) : Nat :=
  (m.w64).toNat * 32 + (m.seg).val * 4 + (m.mode).code
/-- LxchMod of a 16-bit MOD; a reserved code or a set bit that no field names is refused. -/
def LxchMod.dec (w : Nat) : Option LxchMod := do
  let w64 := flag w 5
  let seg ← finOf? 7 (fld w 2 3)
  let mode ← LxMode.ofCode (fld w 0 2)
  let m : LxchMod := ⟨w64, seg, mode⟩
  if m.enc = w then some m else none

/-- The 16 bits of PcolMod. -/
def PcolMod.enc (m : PcolMod) : Nat :=
  (m.pair).toNat * 32 + (m.pb).val * 8 + (m.mode).code
/-- PcolMod of a 16-bit MOD; a reserved code or a set bit that no field names is refused. -/
def PcolMod.dec (w : Nat) : Option PcolMod := do
  let pair := flag w 5
  let pb ← finOf? 4 (fld w 3 2)
  let mode ← PcolMode.ofCode (fld w 0 3)
  let m : PcolMod := ⟨pair, pb, mode⟩
  if m.enc = w then some m else none

/-- The 16 bits of XredMod. -/
def XredMod.enc (m : XredMod) : Nat :=
  (m.excl).toNat * 32 + (m.w64).toNat * 16 + (m.u).toNat * 8 + (m.op).code
/-- XredMod of a 16-bit MOD; a reserved code or a set bit that no field names is refused. -/
def XredMod.dec (w : Nat) : Option XredMod := do
  let excl := flag w 5
  let w64 := flag w 4
  let u := flag w 3
  let op ← XOp.ofCode (fld w 0 3)
  let m : XredMod := ⟨excl, w64, u, op⟩
  if m.enc = w then some m else none

/-- The 16 bits of XfindMod. -/
def XfindMod.enc (m : XfindMod) : Nat :=
  (m.w64).toNat
/-- XfindMod of a 16-bit MOD; a reserved code or a set bit that no field names is refused. -/
def XfindMod.dec (w : Nat) : Option XfindMod := do
  let w64 := flag w 0
  let m : XfindMod := ⟨w64⟩
  if m.enc = w then some m else none

/-- The 16 bits of XfredMod. -/
def XfredMod.enc (m : XfredMod) : Nat :=
  (m.w64).toNat * 32 + (m.rnd).code * 4 + (m.op).code
/-- XfredMod of a 16-bit MOD; a reserved code or a set bit that no field names is refused. -/
def XfredMod.dec (w : Nat) : Option XfredMod := do
  let w64 := flag w 5
  let rnd ← Rnd.ofCode (fld w 2 3)
  let op ← XfOp.ofCode (fld w 0 2)
  let m : XfredMod := ⟨w64, rnd, op⟩
  if m.enc = w then some m else none

/-- The 16 bits of MemMod. -/
def MemMod.enc (m : MemMod) : Nat :=
  (m.usr).toNat * 16384 + (m.scope).code * 2048 + (m.col).val * 256 + (m.sh).val * 16 + (m.sz).code
/-- MemMod of a 16-bit MOD; a reserved code or a set bit that no field names is refused. -/
def MemMod.dec (w : Nat) : Option MemMod := do
  let usr := flag w 14
  let scope ← Scope.ofCode (fld w 11 3)
  let col ← finOf? 8 (fld w 8 3)
  let sh ← finOf? 8 (fld w 4 3)
  let sz ← Sz.ofCode (fld w 0 3)
  let m : MemMod := ⟨usr, scope, col, sh, sz⟩
  if m.enc = w then some m else none

/-- The 16 bits of BcMod. -/
def BcMod.enc (m : BcMod) : Nat :=
  (m.bnd).val * 1024 + (m.ety).code * 64 + (m.col).val * 8 + (m.sz).code
/-- BcMod of a 16-bit MOD; a reserved code or a set bit that no field names is refused. -/
def BcMod.dec (w : Nat) : Option BcMod := do
  let bnd ← finOf? 32 (fld w 10 5)
  let ety ← ETy.ofCode (fld w 6 4)
  let col ← finOf? 8 (fld w 3 3)
  let sz ← Sz.ofCode (fld w 0 3)
  let m : BcMod := ⟨bnd, ety, col, sz⟩
  if m.enc = w then some m else none

/-- The 16 bits of ProbeMod. -/
def ProbeMod.enc (m : ProbeMod) : Nat :=
  (m.usr).toNat * 16384 + (m.scope).code * 2048 + (m.pd).val * 128 + (m.sh).val * 16 + (m.sz).code
/-- ProbeMod of a 16-bit MOD; a reserved code or a set bit that no field names is refused. -/
def ProbeMod.dec (w : Nat) : Option ProbeMod := do
  let usr := flag w 14
  let scope ← Scope.ofCode (fld w 11 3)
  let pd ← finOf? 16 (fld w 7 4)
  let sh ← finOf? 8 (fld w 4 3)
  let sz ← Sz.ofCode (fld w 0 3)
  let m : ProbeMod := ⟨usr, scope, pd, sh, sz⟩
  if m.enc = w then some m else none

/-- The 16 bits of LdsMod. -/
def LdsMod.enc (m : LdsMod) : Nat :=
  (m.win).val * 256 + (m.swz).code * 64 + (m.sh).val * 8 + (m.sz).code
/-- LdsMod of a 16-bit MOD; a reserved code or a set bit that no field names is refused. -/
def LdsMod.dec (w : Nat) : Option LdsMod := do
  let win ← finOf? 256 (fld w 8 8)
  let swz ← Swz.ofCode (fld w 6 2)
  let sh ← finOf? 8 (fld w 3 3)
  let sz ← Sz.ofCode (fld w 0 3)
  let m : LdsMod := ⟨win, swz, sh, sz⟩
  if m.enc = w then some m else none

/-- The 16 bits of AtomMod. -/
def AtomMod.enc (m : AtomMod) : Nat :=
  (m.scope).code * 8192 + (m.col).val * 1024 + (m.acq).toNat * 512 + (m.rel).toNat * 256 + (m.op).code * 16 + (m.u).toNat * 8 + (m.w64).toNat * 4 + (m.sh).val
/-- AtomMod of a 16-bit MOD; a reserved code or a set bit that no field names is refused. -/
def AtomMod.dec (w : Nat) : Option AtomMod := do
  let scope ← Scope.ofCode (fld w 13 3)
  let col ← finOf? 8 (fld w 10 3)
  let acq := flag w 9
  let rel := flag w 8
  let op ← AOp.ofCode (fld w 4 4)
  let u := flag w 3
  let w64 := flag w 2
  let sh ← finOf? 4 (fld w 0 2)
  let m : AtomMod := ⟨scope, col, acq, rel, op, u, w64, sh⟩
  if m.enc = w then some m else none

/-- The 16 bits of CasMod. -/
def CasMod.enc (m : CasMod) : Nat :=
  (m.scope).code * 8192 + (m.col).val * 1024 + (m.acq).toNat * 512 + (m.rel).toNat * 256 + (m.csz).code * 64 + (m.sh).val
/-- CasMod of a 16-bit MOD; a reserved code or a set bit that no field names is refused. -/
def CasMod.dec (w : Nat) : Option CasMod := do
  let scope ← Scope.ofCode (fld w 13 3)
  let col ← finOf? 8 (fld w 10 3)
  let acq := flag w 9
  let rel := flag w 8
  let csz ← CasSz.ofCode (fld w 6 2)
  let sh ← finOf? 4 (fld w 0 2)
  let m : CasMod := ⟨scope, col, acq, rel, csz, sh⟩
  if m.enc = w then some m else none

/-- The 16 bits of AtomsMod. -/
def AtomsMod.enc (m : AtomsMod) : Nat :=
  (m.win).val * 256 + (m.swz).code * 64 + (m.op).code * 4 + (m.u).toNat * 2 + (m.w64).toNat
/-- AtomsMod of a 16-bit MOD; a reserved code or a set bit that no field names is refused. -/
def AtomsMod.dec (w : Nat) : Option AtomsMod := do
  let win ← finOf? 256 (fld w 8 8)
  let swz ← Swz.ofCode (fld w 6 2)
  let op ← AOp.ofCode (fld w 2 4)
  let u := flag w 1
  let w64 := flag w 0
  let m : AtomsMod := ⟨win, swz, op, u, w64⟩
  if m.enc = w then some m else none

/-- The 16 bits of CassMod. -/
def CassMod.enc (m : CassMod) : Nat :=
  (m.win).val * 256 + (m.swz).code * 64 + (m.csz).code * 16 + (m.sh).val * 4
/-- CassMod of a 16-bit MOD; a reserved code or a set bit that no field names is refused. -/
def CassMod.dec (w : Nat) : Option CassMod := do
  let win ← finOf? 256 (fld w 8 8)
  let swz ← Swz.ofCode (fld w 6 2)
  let csz ← CasSz.ofCode (fld w 4 2)
  let sh ← finOf? 4 (fld w 2 2)
  let m : CassMod := ⟨win, swz, csz, sh⟩
  if m.enc = w then some m else none

/-- The 16 bits of FenceMod. -/
def FenceMod.enc (m : FenceMod) : Nat :=
  (match m.mask with | some p => 256 + p.val | none => 0) * 128 + (m.scope).code * 16 + (m.kind).code * 4
/-- FenceMod of a 16-bit MOD; a reserved code or a set bit that no field names is refused. -/
def FenceMod.dec (w : Nat) : Option FenceMod := do
  let mask := (if flag w 15 then finOf? 256 (fld w 7 8) else none)
  let scope ← Scope.ofCode (fld w 4 3)
  let kind ← FenceKind.ofCode (fld w 2 2)
  let m : FenceMod := ⟨mask, scope, kind⟩
  if m.enc = w then some m else none

/-- The 16 bits of PfenceMod. -/
def PfenceMod.enc (m : PfenceMod) : Nat :=
  (m.dst).val * 128 + (m.scope).code * 16 + (m.frm).code
/-- PfenceMod of a 16-bit MOD; a reserved code or a set bit that no field names is refused. -/
def PfenceMod.dec (w : Nat) : Option PfenceMod := do
  let dst ← finOf? 512 (fld w 7 9)
  let scope ← Scope.ofCode (fld w 4 3)
  let frm ← Path.ofCode (fld w 0 4)
  let m : PfenceMod := ⟨dst, scope, frm⟩
  if m.enc = w then some m else none

/-- The 16 bits of BarMod. -/
def BarMod.enc (m : BarMod) : Nat :=
  (m.id).val
/-- BarMod of a 16-bit MOD; a reserved code or a set bit that no field names is refused. -/
def BarMod.dec (w : Nat) : Option BarMod := do
  let id ← finOf? 16 (fld w 0 4)
  let m : BarMod := ⟨id⟩
  if m.enc = w then some m else none

/-- The 16 bits of BarArrMod. -/
def BarArrMod.enc (m : BarArrMod) : Nat :=
  (m.pm).val * 128 + (m.id).val
/-- BarArrMod of a 16-bit MOD; a reserved code or a set bit that no field names is refused. -/
def BarArrMod.dec (w : Nat) : Option BarArrMod := do
  let pm ← finOf? 512 (fld w 7 9)
  let id ← finOf? 16 (fld w 0 4)
  let m : BarArrMod := ⟨pm, id⟩
  if m.enc = w then some m else none

/-- The 16 bits of CbarMod. -/
def CbarMod.enc (m : CbarMod) : Nat :=
  (m.pm).val * 128 + (m.mode).code
/-- CbarMod of a 16-bit MOD; a reserved code or a set bit that no field names is refused. -/
def CbarMod.dec (w : Nat) : Option CbarMod := do
  let pm ← finOf? 512 (fld w 7 9)
  let mode ← CbarMode.ofCode (fld w 0 2)
  let m : CbarMod := ⟨pm, mode⟩
  if m.enc = w then some m else none

/-- The 16 bits of WaitaMod. -/
def WaitaMod.enc (m : WaitaMod) : Nat :=
  (m.scope).code * 8192 + (m.cmp).code * 1024 + (m.w64).toNat * 512 + (m.space).code * 128
/-- WaitaMod of a 16-bit MOD; a reserved code or a set bit that no field names is refused. -/
def WaitaMod.dec (w : Nat) : Option WaitaMod := do
  let scope ← Scope.ofCode (fld w 13 3)
  let cmp ← WaCmp.ofCode (fld w 10 3)
  let w64 := flag w 9
  let space ← WaSpace.ofCode (fld w 7 2)
  let m : WaitaMod := ⟨scope, cmp, w64, space⟩
  if m.enc = w then some m else none

/-- The 16 bits of UnsealMod. -/
def UnsealMod.enc (m : UnsealMod) : Nat :=
  (m.sync).toNat
/-- UnsealMod of a 16-bit MOD; a reserved code or a set bit that no field names is refused. -/
def UnsealMod.dec (w : Nat) : Option UnsealMod := do
  let sync := flag w 0
  let m : UnsealMod := ⟨sync⟩
  if m.enc = w then some m else none

/-- The 16 bits of CctlMod. -/
def CctlMod.enc (m : CctlMod) : Nat :=
  (m.level).code * 4 + (m.op).code
/-- CctlMod of a 16-bit MOD; a reserved code or a set bit that no field names is refused. -/
def CctlMod.dec (w : Nat) : Option CctlMod := do
  let level ← CcLevel.ofCode (fld w 2 2)
  let op ← CcOp.ofCode (fld w 0 2)
  let m : CctlMod := ⟨level, op⟩
  if m.enc = w then some m else none

/-- The 16 bits of MxdrainMod. -/
def MxdrainMod.enc (m : MxdrainMod) : Nat :=
  (m.dt).code * 8192 + (m.rnd).code * 1024 + (m.sat).toNat * 512 + (m.ef).toNat * 256 + (m.clr).toNat * 128 + (m.rclr).toNat * 64 + (m.ben).toNat * 32 + (m.bnd).val
/-- MxdrainMod of a 16-bit MOD; a reserved code or a set bit that no field names is refused. -/
def MxdrainMod.dec (w : Nat) : Option MxdrainMod := do
  let dt ← DrainTy.ofCode (fld w 13 3)
  let rnd ← Rnd.ofCode (fld w 10 3)
  let sat := flag w 9
  let ef := flag w 8
  let clr := flag w 7
  let rclr := flag w 6
  let ben := flag w 5
  let bnd ← finOf? 32 (fld w 0 5)
  let m : MxdrainMod := ⟨dt, rnd, sat, ef, clr, rclr, ben, bnd⟩
  if m.enc = w then some m else none

/-- The 16 bits of MxwaitMod. -/
def MxwaitMod.enc (m : MxwaitMod) : Nat :=
  (m.all).toNat
/-- MxwaitMod of a 16-bit MOD; a reserved code or a set bit that no field names is refused. -/
def MxwaitMod.dec (w : Nat) : Option MxwaitMod := do
  let all := flag w 0
  let m : MxwaitMod := ⟨all⟩
  if m.enc = w then some m else none

/-- The 16 bits of TaskDepMod. -/
def TaskDepMod.enc (m : TaskDepMod) : Nat :=
  (m.clrp).toNat
/-- TaskDepMod of a 16-bit MOD; a reserved code or a set bit that no field names is refused. -/
def TaskDepMod.dec (w : Nat) : Option TaskDepMod := do
  let clrp := flag w 0
  let m : TaskDepMod := ⟨clrp⟩
  if m.enc = w then some m else none

/-- The 16 bits of SvqtakeMod. -/
def SvqtakeMod.enc (m : SvqtakeMod) : Nat :=
  (m.pd).val
/-- SvqtakeMod of a 16-bit MOD; a reserved code or a set bit that no field names is refused. -/
def SvqtakeMod.dec (w : Nat) : Option SvqtakeMod := do
  let pd ← finOf? 16 (fld w 0 4)
  let m : SvqtakeMod := ⟨pd⟩
  if m.enc = w then some m else none

/-- The 16 bits of SvretMod. -/
def SvretMod.enc (m : SvretMod) : Nat :=
  (m.g1).toNat * 4 + (m.form).code
/-- SvretMod of a 16-bit MOD; a reserved code or a set bit that no field names is refused. -/
def SvretMod.dec (w : Nat) : Option SvretMod := do
  let g1 := flag w 2
  let form ← RetForm.ofCode (fld w 0 2)
  let m : SvretMod := ⟨g1, form⟩
  if m.enc = w then some m else none

/-- The 16 bits of PtsyncMod. -/
def PtsyncMod.enc (m : PtsyncMod) : Nat :=
  (match m.mask with | some p => 256 + p.val | none => 0) * 128 + (m.scope).code * 16
/-- PtsyncMod of a 16-bit MOD; a reserved code or a set bit that no field names is refused. -/
def PtsyncMod.dec (w : Nat) : Option PtsyncMod := do
  let mask := (if flag w 15 then finOf? 256 (fld w 7 8) else none)
  let scope ← Scope.ofCode (fld w 4 3)
  let m : PtsyncMod := ⟨mask, scope⟩
  if m.enc = w then some m else none

/-- The 16 bits of TlbinvMod. -/
def TlbinvMod.enc (m : TlbinvMod) : Nat :=
  (m.scope).code * 8 + (m.sync).toNat * 4 + (m.form).code
/-- TlbinvMod of a 16-bit MOD; a reserved code or a set bit that no field names is refused. -/
def TlbinvMod.dec (w : Nat) : Option TlbinvMod := do
  let scope ← Scope.ofCode (fld w 3 3)
  let sync := flag w 2
  let form ← TlbForm.ofCode (fld w 0 2)
  let m : TlbinvMod := ⟨scope, sync, form⟩
  if m.enc = w then some m else none

/-- The 16 bits of PgmoveMod. -/
def PgmoveMod.enc (m : PgmoveMod) : Nat :=
  (m.s2).toNat
/-- PgmoveMod of a 16-bit MOD; a reserved code or a set bit that no field names is refused. -/
def PgmoveMod.dec (w : Nat) : Option PgmoveMod := do
  let s2 := flag w 0
  let m : PgmoveMod := ⟨s2⟩
  if m.enc = w then some m else none

/-- The 16 bits of BndMod. -/
def BndMod.enc (m : BndMod) : Nat :=
  (m.kcnt).toNat * 16 + (m.i32).toNat * 8 + (m.nanp).toNat * 4 + (m.action).code
/-- BndMod of a 16-bit MOD; a reserved code or a set bit that no field names is refused. -/
def BndMod.dec (w : Nat) : Option BndMod := do
  let kcnt := flag w 4
  let i32 := flag w 3
  let nanp := flag w 2
  let action ← BAct.ofCode (fld w 0 2)
  let m : BndMod := ⟨kcnt, i32, nanp, action⟩
  if m.enc = w then some m else none

/-- The 16 bits of SchedMod. -/
def SchedMod.enc (m : SchedMod) : Nat :=
  (m.set).toNat
/-- SchedMod of a 16-bit MOD; a reserved code or a set bit that no field names is refused. -/
def SchedMod.dec (w : Nat) : Option SchedMod := do
  let set := flag w 0
  let m : SchedMod := ⟨set⟩
  if m.enc = w then some m else none

/-- MOD of ST: bit 15 selects the layout of R330. -/
def StMod.enc : StMod → Nat
  | .plain m => m.enc
  | .bc m => 32768 + m.enc
def StMod.dec (w : Nat) : Option StMod :=
  if flag w 15 then (BcMod.dec (w - 32768)).map .bc else (MemMod.dec w).map .plain

/-- Operand codes (R251). -/
def Opnd.code : Opnd → Nat
  | .g n => n.val
  | .k n => 0xC0 + n.val
  | .p n => 0xE0 + n.val
  | .zero => 0xFE

/-- R251: 0xF0 to 0xFD are reserved, and 0xFF is no operand. -/
def Opnd.ofCode (c : Nat) : Option Opnd :=
  if h : c < 192 then some (.g ⟨c, h⟩)
  else if h : c - 192 < 32 then some (.k ⟨c - 192, h⟩)
  else if h : c - 224 < 16 then some (.p ⟨c - 224, h⟩)
  else if c = 254 then some .zero else none

/-- A field that may be absent (R251): 0xFF. -/
def optCode : Option Opnd → Nat
  | some o => o.code
  | none => 0xFF
def optOf (c : Nat) : Option (Option Opnd) := if c = 0xFF then some none else (Opnd.ofCode c).map some

/-- R249: guards and guard mode. -/
def Guard.enc (g : Guard) : Nat := g.neg.toNat * 16 + g.idx.val
def Guard.dec (c : Nat) : Option Guard := do
  let i ← finOf? 16 (fld c 0 4)
  some ⟨flag c 4, i⟩
def GMode.code : GMode → Nat
  | .a => 0
  | .and => 1
  | .or => 2
def GMode.ofCode : Nat → Option GMode
  | 0 => some .a
  | 1 => some .and
  | 2 => some .or
  | _ => none

/-- The fields of a word (R249, R250): `low` is bits [31:0], which hold C, E and zeros in layout X and IMM32 in layout Y. -/
structure Raw where
  opc : Nat
  hdr : Hdr
  md : Nat
  d : Nat
  a : Nat
  b : Nat
  low : Nat
  deriving DecidableEq, Repr

/-- Bits [31:0] of layout X. -/
def lowX (c e : Nat) : Nat := c * 2 ^ 24 + e * 2 ^ 16

/-- R249, R250: the word of the fields. -/
def Raw.pack (r : Raw) : Nat :=
  r.opc * 2 ^ 88 + r.hdr.ga.enc * 2 ^ 83 + r.hdr.gb.enc * 2 ^ 78 + r.hdr.gm.code * 2 ^ 76 + r.hdr.hint.val * 2 ^ 74
    + r.md * 2 ^ 56 + r.d * 2 ^ 48 + r.a * 2 ^ 40 + r.b * 2 ^ 32 + r.low

/-- R249: the fields of a word; GM 11 and a nonzero bit of [73:72] are refused. -/
def Raw.unpack (w : Nat) : Option Raw := do
  let ga ← Guard.dec (fld w 83 5)
  let gb ← Guard.dec (fld w 78 5)
  let gm ← GMode.ofCode (fld w 76 2)
  let hint ← finOf? 4 (fld w 74 2)
  if fld w 72 2 = 0 ∧ w < 2 ^ 96 then
    some ⟨fld w 88 8, ⟨ga, gb, gm, hint⟩, fld w 56 16, fld w 48 8, fld w 40 8, fld w 32 8, fld w 0 32⟩
  else none

/-- Fields C, E and the zero bits of layout X. -/
def Raw.c (r : Raw) : Nat := fld r.low 24 8
def Raw.e (r : Raw) : Nat := fld r.low 16 8

/-- The fields of an opcode's instruction (R250, R251, R261): an unused field holds 0xFF. -/
def Instr.raw : Instr → Option Raw
  | .nop h => some ⟨0x00, h, 0, 0xFF, 0xFF, 0xFF, (lowX 0xFF 0xFF)⟩
  | .bra h imm => some ⟨0x01, h, 0, 0xFF, 0xFF, 0xFF, imm.toNat⟩
  | .call h d imm => some ⟨0x02, h, 0, d.code, 0xFF, 0xFF, imm.toNat⟩
  | .ret h a => some ⟨0x03, h, 0, 0xFF, a.code, 0xFF, (lowX 0xFF 0xFF)⟩
  | .brx h a b => some ⟨0x04, h, 0, 0xFF, a.code, b.code, (lowX 0xFF 0xFF)⟩
  | .callx h d a b => some ⟨0x05, h, 0, d.code, a.code, b.code, (lowX 0xFF 0xFF)⟩
  | .yield h => some ⟨0x06, h, 0, 0xFF, 0xFF, 0xFF, (lowX 0xFF 0xFF)⟩
  | .exit h => some ⟨0x07, h, 0, 0xFF, 0xFF, 0xFF, (lowX 0xFF 0xFF)⟩
  | .iadd h m d a b => some ⟨0x10, h, m.enc, d.code, a.code, b.code, (lowX 0xFF 0xFF)⟩
  | .iaddImm h m d a imm => some ⟨0x11, h, m.enc, d.code, a.code, 0xFF, imm.toNat⟩
  | .isub h m d a b => some ⟨0x12, h, m.enc, d.code, a.code, b.code, (lowX 0xFF 0xFF)⟩
  | .isubImm h m d a imm => some ⟨0x13, h, m.enc, d.code, a.code, 0xFF, imm.toNat⟩
  | .imul h m d a b => some ⟨0x14, h, m.enc, d.code, a.code, b.code, (lowX 0xFF 0xFF)⟩
  | .imulImm h m d a imm => some ⟨0x15, h, m.enc, d.code, a.code, 0xFF, imm.toNat⟩
  | .imad h m d a b c => some ⟨0x16, h, m.enc, d.code, a.code, b.code, (lowX c.code 0xFF)⟩
  | .imadImm h m d a b imm => some ⟨0x17, h, m.enc, d.code, a.code, b.code, imm.toNat⟩
  | .idiv h m d a b => some ⟨0x18, h, m.enc, d.code, a.code, b.code, (lowX 0xFF 0xFF)⟩
  | .irem h m d a b => some ⟨0x19, h, m.enc, d.code, a.code, b.code, (lowX 0xFF 0xFF)⟩
  | .imin h m d a b => some ⟨0x1A, h, m.enc, d.code, a.code, b.code, (lowX 0xFF 0xFF)⟩
  | .iminImm h m d a imm => some ⟨0x1B, h, m.enc, d.code, a.code, 0xFF, imm.toNat⟩
  | .imax h m d a b => some ⟨0x1C, h, m.enc, d.code, a.code, b.code, (lowX 0xFF 0xFF)⟩
  | .imaxImm h m d a imm => some ⟨0x1D, h, m.enc, d.code, a.code, 0xFF, imm.toNat⟩
  | .iabs h m d a => some ⟨0x1E, h, m.enc, d.code, a.code, 0xFF, (lowX 0xFF 0xFF)⟩
  | .isad h m d a b c => some ⟨0x1F, h, m.enc, d.code, a.code, b.code, (lowX c.code 0xFF)⟩
  | .and h m d a b => some ⟨0x20, h, m.enc, d.code, a.code, b.code, (lowX 0xFF 0xFF)⟩
  | .andImm h m d a imm => some ⟨0x21, h, m.enc, d.code, a.code, 0xFF, imm.toNat⟩
  | .or h m d a b => some ⟨0x22, h, m.enc, d.code, a.code, b.code, (lowX 0xFF 0xFF)⟩
  | .orImm h m d a imm => some ⟨0x23, h, m.enc, d.code, a.code, 0xFF, imm.toNat⟩
  | .xor h m d a b => some ⟨0x24, h, m.enc, d.code, a.code, b.code, (lowX 0xFF 0xFF)⟩
  | .xorImm h m d a imm => some ⟨0x25, h, m.enc, d.code, a.code, 0xFF, imm.toNat⟩
  | .not h m d a => some ⟨0x26, h, m.enc, d.code, a.code, 0xFF, (lowX 0xFF 0xFF)⟩
  | .logt h m d a b c => some ⟨0x27, h, m.enc, d.code, a.code, b.code, (lowX c.code 0xFF)⟩
  | .shl h m d a b => some ⟨0x28, h, m.enc, d.code, a.code, b.code, (lowX 0xFF 0xFF)⟩
  | .shlImm h m d a imm => some ⟨0x29, h, m.enc, d.code, a.code, 0xFF, imm.toNat⟩
  | .shr h m d a b => some ⟨0x2A, h, m.enc, d.code, a.code, b.code, (lowX 0xFF 0xFF)⟩
  | .shrImm h m d a imm => some ⟨0x2B, h, m.enc, d.code, a.code, 0xFF, imm.toNat⟩
  | .rot h m d a b => some ⟨0x2C, h, m.enc, d.code, a.code, b.code, (lowX 0xFF 0xFF)⟩
  | .popc h m d a => some ⟨0x2D, h, m.enc, d.code, a.code, 0xFF, (lowX 0xFF 0xFF)⟩
  | .clz h m d a => some ⟨0x2E, h, m.enc, d.code, a.code, 0xFF, (lowX 0xFF 0xFF)⟩
  | .bfx h m d a b c => some ⟨0x2F, h, m.enc, d.code, a.code, b.code, (lowX c.code 0xFF)⟩
  | .icmp h m d a b c => some ⟨0x30, h, m.enc, d.code, a.code, b.code, (lowX (optCode c) 0xFF)⟩
  | .icmpImm h m d a imm => some ⟨0x31, h, m.enc, d.code, a.code, 0xFF, imm.toNat⟩
  | .fcmp h m d a b c => some ⟨0x32, h, m.enc, d.code, a.code, b.code, (lowX (optCode c) 0xFF)⟩
  | .fcmpImm h m d a imm => some ⟨0x33, h, m.enc, d.code, a.code, 0xFF, imm.toNat⟩
  | .fclass h m d a => some ⟨0x34, h, m.enc, d.code, a.code, 0xFF, (lowX 0xFF 0xFF)⟩
  | .hcmp h m d a b c => some ⟨0x35, h, m.enc, d.code, a.code, b.code, (lowX (optCode c) 0xFF)⟩
  | .sel h m d p a b => some ⟨0x36, h, m.enc, d.code, p.code, a.code, (lowX b.code 0xFF)⟩
  | .selImm h m d p a imm => some ⟨0x37, h, m.enc, d.code, p.code, a.code, imm.toNat⟩
  | .pcomb h m d a b c => some ⟨0x38, h, m.enc, d.code, a.code, b.code, (lowX c.code 0xFF)⟩
  | .p2g h m d => some ⟨0x39, h, m.enc, d.code, 0xFF, 0xFF, (lowX 0xFF 0xFF)⟩
  | .g2p h m a => some ⟨0x3A, h, m.enc, 0xFF, a.code, 0xFF, (lowX 0xFF 0xFF)⟩
  | .mov h m d a => some ⟨0x3B, h, m.enc, d.code, a.code, 0xFF, (lowX 0xFF 0xFF)⟩
  | .movImm h m d imm => some ⟨0x3C, h, m.enc, d.code, 0xFF, 0xFF, imm.toNat⟩
  | .movh h d imm => some ⟨0x3D, h, 0, d.code, 0xFF, 0xFF, imm.toNat⟩
  | .lea h m d a b => some ⟨0x3E, h, m.enc, d.code, a.code, b.code, (lowX 0xFF 0xFF)⟩
  | .leaImm h m d a imm => some ⟨0x3F, h, m.enc, d.code, a.code, 0xFF, imm.toNat⟩
  | .fadd h m d a b => some ⟨0x40, h, m.enc, d.code, a.code, b.code, (lowX 0xFF 0xFF)⟩
  | .faddImm h m d a imm => some ⟨0x41, h, m.enc, d.code, a.code, 0xFF, imm.toNat⟩
  | .fsub h m d a b => some ⟨0x42, h, m.enc, d.code, a.code, b.code, (lowX 0xFF 0xFF)⟩
  | .fmul h m d a b => some ⟨0x43, h, m.enc, d.code, a.code, b.code, (lowX 0xFF 0xFF)⟩
  | .fmulImm h m d a imm => some ⟨0x44, h, m.enc, d.code, a.code, 0xFF, imm.toNat⟩
  | .ffma h m d a b c => some ⟨0x45, h, m.enc, d.code, a.code, b.code, (lowX c.code 0xFF)⟩
  | .ffmaImm h m d a b imm => some ⟨0x46, h, m.enc, d.code, a.code, b.code, imm.toNat⟩
  | .fmin h m d a b => some ⟨0x47, h, m.enc, d.code, a.code, b.code, (lowX 0xFF 0xFF)⟩
  | .fmax h m d a b => some ⟨0x48, h, m.enc, d.code, a.code, b.code, (lowX 0xFF 0xFF)⟩
  | .fdiv h m d a b => some ⟨0x49, h, m.enc, d.code, a.code, b.code, (lowX 0xFF 0xFF)⟩
  | .fsqrt h m d a => some ⟨0x4A, h, m.enc, d.code, a.code, 0xFF, (lowX 0xFF 0xFF)⟩
  | .frcp h m d a => some ⟨0x4B, h, m.enc, d.code, a.code, 0xFF, (lowX 0xFF 0xFF)⟩
  | .frsq h m d a => some ⟨0x4C, h, m.enc, d.code, a.code, 0xFF, (lowX 0xFF 0xFF)⟩
  | .dadd h m d a b => some ⟨0x4D, h, m.enc, d.code, a.code, b.code, (lowX 0xFF 0xFF)⟩
  | .dmul h m d a b => some ⟨0x4E, h, m.enc, d.code, a.code, b.code, (lowX 0xFF 0xFF)⟩
  | .dfma h m d a b c => some ⟨0x4F, h, m.enc, d.code, a.code, b.code, (lowX c.code 0xFF)⟩
  | .hadd h m d a b => some ⟨0x50, h, m.enc, d.code, a.code, b.code, (lowX 0xFF 0xFF)⟩
  | .hmul h m d a b => some ⟨0x51, h, m.enc, d.code, a.code, b.code, (lowX 0xFF 0xFF)⟩
  | .hfma h m d a b c => some ⟨0x52, h, m.enc, d.code, a.code, b.code, (lowX c.code 0xFF)⟩
  | .hmin h m d a b => some ⟨0x53, h, m.enc, d.code, a.code, b.code, (lowX 0xFF 0xFF)⟩
  | .hmax h m d a b => some ⟨0x54, h, m.enc, d.code, a.code, b.code, (lowX 0xFF 0xFF)⟩
  | .vadd h m d a b => some ⟨0x55, h, m.enc, d.code, a.code, b.code, (lowX 0xFF 0xFF)⟩
  | .vaddImm h m d a imm => some ⟨0x56, h, m.enc, d.code, a.code, 0xFF, imm.toNat⟩
  | .vsub h m d a b => some ⟨0x57, h, m.enc, d.code, a.code, b.code, (lowX 0xFF 0xFF)⟩
  | .vmin h m d a b => some ⟨0x58, h, m.enc, d.code, a.code, b.code, (lowX 0xFF 0xFF)⟩
  | .vmax h m d a b => some ⟨0x59, h, m.enc, d.code, a.code, b.code, (lowX 0xFF 0xFF)⟩
  | .vmul h m d a b => some ⟨0x5A, h, m.enc, d.code, a.code, b.code, (lowX 0xFF 0xFF)⟩
  | .vdot h m d a b c => some ⟨0x5B, h, m.enc, d.code, a.code, b.code, (lowX c.code 0xFF)⟩
  | .acs2 h m d a b c e => some ⟨0x5C, h, m.enc, d.code, a.code, b.code, (lowX c.code e.code)⟩
  | .vabsd h m d a b => some ⟨0x5D, h, m.enc, d.code, a.code, b.code, (lowX 0xFF 0xFF)⟩
  | .prmt h m d a b c => some ⟨0x5E, h, m.enc, d.code, a.code, b.code, (lowX c.code 0xFF)⟩
  | .prmtImm h m d a b imm => some ⟨0x5F, h, m.enc, d.code, a.code, b.code, imm.toNat⟩
  | .cvt h m d a b => some ⟨0x60, h, m.enc, d.code, a.code, (optCode b), (lowX 0xFF 0xFF)⟩
  | .cvtp h m d a b c => some ⟨0x61, h, m.enc, d.code, a.code, (optCode b), (lowX (optCode c) 0xFF)⟩
  | .exp2 h m d a => some ⟨0x62, h, m.enc, d.code, a.code, 0xFF, (lowX 0xFF 0xFF)⟩
  | .log2 h m d a => some ⟨0x63, h, m.enc, d.code, a.code, 0xFF, (lowX 0xFF 0xFF)⟩
  | .sinPi h m d a => some ⟨0x64, h, m.enc, d.code, a.code, 0xFF, (lowX 0xFF 0xFF)⟩
  | .cosPi h m d a => some ⟨0x65, h, m.enc, d.code, a.code, 0xFF, (lowX 0xFF 0xFF)⟩
  | .rndh h m d a b => some ⟨0x66, h, m.enc, d.code, a.code, b.code, (lowX 0xFF 0xFF)⟩
  | .rndhImm h m d a imm => some ⟨0x67, h, m.enc, d.code, a.code, 0xFF, imm.toNat⟩
  | .frnd h m d a => some ⟨0x68, h, m.enc, d.code, a.code, 0xFF, (lowX 0xFF 0xFF)⟩
  | .fscale h m d a b => some ⟨0x69, h, m.enc, d.code, a.code, b.code, (lowX 0xFF 0xFF)⟩
  | .fscaleImm h m d a imm => some ⟨0x6A, h, m.enc, d.code, a.code, 0xFF, imm.toNat⟩
  | .lxch h m d a b c => some ⟨0x70, h, m.enc, d.code, a.code, b.code, (lowX (optCode c) 0xFF)⟩
  | .lxchImm h m d a imm => some ⟨0x71, h, m.enc, d.code, a.code, 0xFF, imm.toNat⟩
  | .pcol h m d a => some ⟨0x72, h, m.enc, d.code, a.code, 0xFF, (lowX 0xFF 0xFF)⟩
  | .xred h m d a => some ⟨0x73, h, m.enc, d.code, a.code, 0xFF, (lowX 0xFF 0xFF)⟩
  | .xscan h m d a => some ⟨0x74, h, m.enc, d.code, a.code, 0xFF, (lowX 0xFF 0xFF)⟩
  | .xfind h m d a c => some ⟨0x75, h, m.enc, d.code, a.code, 0xFF, (lowX (optCode c) 0xFF)⟩
  | .xfred h m d a => some ⟨0x76, h, m.enc, d.code, a.code, 0xFF, (lowX 0xFF 0xFF)⟩
  | .ld h m d a b imm => some ⟨0x80, h, m.enc, d.code, a.code, b.code, imm.toNat⟩
  | .st h m d a b imm => some ⟨0x81, h, m.enc, d.code, a.code, b.code, imm.toNat⟩
  | .ldProbe h m d a b imm => some ⟨0x82, h, m.enc, d.code, a.code, b.code, imm.toNat⟩
  | .lds h m d a b imm => some ⟨0x83, h, m.enc, d.code, a.code, b.code, imm.toNat⟩
  | .sts h m d a b imm => some ⟨0x84, h, m.enc, d.code, a.code, b.code, imm.toNat⟩
  | .ldm h m d a b imm => some ⟨0x85, h, m.enc, d.code, a.code, b.code, imm.toNat⟩
  | .stm h m d a b imm => some ⟨0x86, h, m.enc, d.code, a.code, b.code, imm.toNat⟩
  | .prf h m a b imm => some ⟨0x87, h, m.enc, 0xFF, a.code, b.code, imm.toNat⟩
  | .atomImm h m d a b imm => some ⟨0x90, h, m.enc, d.code, a.code, b.code, imm.toNat⟩
  | .atom h m d a b c => some ⟨0x91, h, m.enc, d.code, a.code, b.code, (lowX c.code 0xFF)⟩
  | .redImm h m a b imm => some ⟨0x92, h, m.enc, 0xFF, a.code, b.code, imm.toNat⟩
  | .red h m a b c => some ⟨0x93, h, m.enc, 0xFF, a.code, b.code, (lowX c.code 0xFF)⟩
  | .cas h m d a b c e => some ⟨0x94, h, m.enc, d.code, a.code, b.code, (lowX c.code e.code)⟩
  | .atoms h m d a b imm => some ⟨0x95, h, m.enc, d.code, a.code, b.code, imm.toNat⟩
  | .reds h m a b imm => some ⟨0x96, h, m.enc, 0xFF, a.code, b.code, imm.toNat⟩
  | .cass h m d a b c e => some ⟨0x97, h, m.enc, d.code, a.code, b.code, (lowX c.code e.code)⟩
  | .fence h m => some ⟨0xA0, h, m.enc, 0xFF, 0xFF, 0xFF, (lowX 0xFF 0xFF)⟩
  | .pfence h m => some ⟨0xA1, h, m.enc, 0xFF, 0xFF, 0xFF, (lowX 0xFF 0xFF)⟩
  | .barInit h m a => some ⟨0xA2, h, m.enc, 0xFF, a.code, 0xFF, (lowX 0xFF 0xFF)⟩
  | .barInitImm h m imm => some ⟨0xA3, h, m.enc, 0xFF, 0xFF, 0xFF, imm.toNat⟩
  | .barArrive h m a => some ⟨0xA4, h, m.enc, 0xFF, a.code, 0xFF, (lowX 0xFF 0xFF)⟩
  | .barArriveImm h m imm => some ⟨0xA5, h, m.enc, 0xFF, 0xFF, 0xFF, imm.toNat⟩
  | .barWait h m => some ⟨0xA6, h, m.enc, 0xFF, 0xFF, 0xFF, (lowX 0xFF 0xFF)⟩
  | .barSync h m a => some ⟨0xA7, h, m.enc, 0xFF, a.code, 0xFF, (lowX 0xFF 0xFF)⟩
  | .barSyncImm h m imm => some ⟨0xA8, h, m.enc, 0xFF, 0xFF, 0xFF, imm.toNat⟩
  | .barInv h m => some ⟨0xA9, h, m.enc, 0xFF, 0xFF, 0xFF, (lowX 0xFF 0xFF)⟩
  | .waitaImm h m d a b imm => some ⟨0xAA, h, m.enc, d.code, a.code, b.code, imm.toNat⟩
  | .waita h m d a b c => some ⟨0xAB, h, m.enc, d.code, a.code, b.code, (lowX c.code 0xFF)⟩
  | .cbar h m => some ⟨0xAC, h, m.enc, 0xFF, 0xFF, 0xFF, (lowX 0xFF 0xFF)⟩
  | .winBind h d a b => some ⟨0xB0, h, 0, d.code, a.code, b.code, (lowX 0xFF 0xFF)⟩
  | .winTouch h a => some ⟨0xB1, h, 0, 0xFF, a.code, 0xFF, (lowX 0xFF 0xFF)⟩
  | .winRetire h a => some ⟨0xB2, h, 0, 0xFF, a.code, 0xFF, (lowX 0xFF 0xFF)⟩
  | .winState h d a => some ⟨0xB3, h, 0, d.code, a.code, 0xFF, (lowX 0xFF 0xFF)⟩
  | .seal h d a b c => some ⟨0xB4, h, 0, d.code, a.code, b.code, (lowX c.code 0xFF)⟩
  | .unseal h m d a b c => some ⟨0xB5, h, m.enc, d.code, a.code, b.code, (lowX c.code 0xFF)⟩
  | .cctlImm h m a imm => some ⟨0xB6, h, m.enc, 0xFF, a.code, 0xFF, imm.toNat⟩
  | .cctl h m a b => some ⟨0xB7, h, m.enc, 0xFF, a.code, b.code, (lowX 0xFF 0xFF)⟩
  | .iinv h a b => some ⟨0xB8, h, 0, 0xFF, a.code, b.code, (lowX 0xFF 0xFF)⟩
  | .isync h => some ⟨0xB9, h, 0, 0xFF, 0xFF, 0xFF, (lowX 0xFF 0xFF)⟩
  | .mxop h d a => some ⟨0xC0, h, 0, d.code, a.code, 0xFF, (lowX 0xFF 0xFF)⟩
  | .mxopImm h d imm => some ⟨0xC1, h, 0, d.code, 0xFF, 0xFF, imm.toNat⟩
  | .mxdrain h m d a b c => some ⟨0xC2, h, m.enc, d.code, a.code, b.code, (lowX c.code 0xFF)⟩
  | .mxwait h m a => some ⟨0xC3, h, m.enc, 0xFF, (optCode a), 0xFF, (lowX 0xFF 0xFF)⟩
  | .mxburst h a => some ⟨0xC4, h, 0, 0xFF, a.code, 0xFF, (lowX 0xFF 0xFF)⟩
  | .mxburstImm h imm => some ⟨0xC5, h, 0, 0xFF, 0xFF, 0xFF, imm.toNat⟩
  | .collPost h d a => some ⟨0xC6, h, 0, d.code, a.code, 0xFF, (lowX 0xFF 0xFF)⟩
  | .taskPost h d a b => some ⟨0xD0, h, 0, d.code, a.code, b.code, (lowX 0xFF 0xFF)⟩
  | .taskDep h m d a b c => some ⟨0xD1, h, m.enc, d.code, a.code, b.code, (lowX c.code 0xFF)⟩
  | .taskDepImm h m d a b imm => some ⟨0xD2, h, m.enc, d.code, a.code, b.code, imm.toNat⟩
  | .phase h => some ⟨0xD3, h, 0, 0xFF, 0xFF, 0xFF, (lowX 0xFF 0xFF)⟩
  | .syscall h imm => some ⟨0xE0, h, 0, 0xFF, 0xFF, 0xFF, imm.toNat⟩
  | .svqtake h m d => some ⟨0xE1, h, m.enc, d.code, 0xFF, 0xFF, (lowX 0xFF 0xFF)⟩
  | .svret h m a b => some ⟨0xE2, h, m.enc, 0xFF, (optCode a), (optCode b), (lowX 0xFF 0xFF)⟩
  | .svqwait h => some ⟨0xE3, h, 0, 0xFF, 0xFF, 0xFF, (lowX 0xFF 0xFF)⟩
  | .movs h d imm => some ⟨0xE4, h, 0, d.code, 0xFF, 0xFF, imm.toNat⟩
  | .csrrImm h d imm => some ⟨0xE5, h, 0, d.code, 0xFF, 0xFF, imm.toNat⟩
  | .csrr h d a => some ⟨0xE6, h, 0, d.code, a.code, 0xFF, (lowX 0xFF 0xFF)⟩
  | .csrwImm h a imm => some ⟨0xE7, h, 0, 0xFF, a.code, 0xFF, imm.toNat⟩
  | .csrw h a b => some ⟨0xE8, h, 0, 0xFF, a.code, b.code, (lowX 0xFF 0xFF)⟩
  | .ptsync h m => some ⟨0xE9, h, m.enc, 0xFF, 0xFF, 0xFF, (lowX 0xFF 0xFF)⟩
  | .tlbinv h m a b c => some ⟨0xEA, h, m.enc, 0xFF, (optCode a), (optCode b), (lowX (optCode c) 0xFF)⟩
  | .pgmove h m d a b c => some ⟨0xEB, h, m.enc, d.code, a.code, b.code, (lowX c.code 0xFF)⟩
  | .solderHandoff h d a => some ⟨0xEC, h, 0, d.code, a.code, 0xFF, (lowX 0xFF 0xFF)⟩
  | .bndSet h m a b c => some ⟨0xED, h, m.enc, 0xFF, a.code, b.code, (lowX c.code 0xFF)⟩
  | .schedStep h m a => some ⟨0xEE, h, m.enc, 0xFF, (optCode a), 0xFF, (lowX 0xFF 0xFF)⟩
  | .svwake h d a b c => some ⟨0xF0, h, 0, d.code, a.code, b.code, (lowX c.code 0xFF)⟩
  | .tret h d a b c => some ⟨0xF1, h, 0, d.code, a.code, b.code, (lowX c.code 0xFF)⟩
  | .frassign h d a b c => some ⟨0xF2, h, 0, d.code, a.code, b.code, (lowX c.code 0xFF)⟩
  | .solderRekey h d a => some ⟨0xF3, h, 0, d.code, a.code, 0xFF, (lowX 0xFF 0xFF)⟩
  | .halt h a => some ⟨0xF4, h, 0, 0xFF, a.code, 0xFF, (lowX 0xFF 0xFF)⟩
  | _ => none

/-- Row 0x0 of the opcode map (R261): the instruction of the fields, operand kinds unchecked. -/
def decodeRow0 (r : Raw) : Option Instr :=
  match r.opc with
  | 0x00 => do
    some (.nop r.hdr)
  | 0x01 => do
    some (.bra r.hdr (BitVec.ofNat 32 r.low))
  | 0x02 => do
    let d ← Opnd.ofCode r.d
    some (.call r.hdr d (BitVec.ofNat 32 r.low))
  | 0x03 => do
    let a ← Opnd.ofCode r.a
    some (.ret r.hdr a)
  | 0x04 => do
    let a ← Opnd.ofCode r.a
    let b ← Opnd.ofCode r.b
    some (.brx r.hdr a b)
  | 0x05 => do
    let d ← Opnd.ofCode r.d
    let a ← Opnd.ofCode r.a
    let b ← Opnd.ofCode r.b
    some (.callx r.hdr d a b)
  | 0x06 => do
    some (.yield r.hdr)
  | 0x07 => do
    some (.exit r.hdr)
  | _ => none

/-- Row 0x1 of the opcode map (R261): the instruction of the fields, operand kinds unchecked. -/
def decodeRow1 (r : Raw) : Option Instr :=
  match r.opc with
  | 0x10 => do
    let m ← ArithMod.dec r.md
    let d ← Opnd.ofCode r.d
    let a ← Opnd.ofCode r.a
    let b ← Opnd.ofCode r.b
    some (.iadd r.hdr m d a b)
  | 0x11 => do
    let m ← ArithMod.dec r.md
    let d ← Opnd.ofCode r.d
    let a ← Opnd.ofCode r.a
    some (.iaddImm r.hdr m d a (BitVec.ofNat 32 r.low))
  | 0x12 => do
    let m ← ArithMod.dec r.md
    let d ← Opnd.ofCode r.d
    let a ← Opnd.ofCode r.a
    let b ← Opnd.ofCode r.b
    some (.isub r.hdr m d a b)
  | 0x13 => do
    let m ← ArithMod.dec r.md
    let d ← Opnd.ofCode r.d
    let a ← Opnd.ofCode r.a
    some (.isubImm r.hdr m d a (BitVec.ofNat 32 r.low))
  | 0x14 => do
    let m ← ArithMod.dec r.md
    let d ← Opnd.ofCode r.d
    let a ← Opnd.ofCode r.a
    let b ← Opnd.ofCode r.b
    some (.imul r.hdr m d a b)
  | 0x15 => do
    let m ← ArithMod.dec r.md
    let d ← Opnd.ofCode r.d
    let a ← Opnd.ofCode r.a
    some (.imulImm r.hdr m d a (BitVec.ofNat 32 r.low))
  | 0x16 => do
    let m ← ArithMod.dec r.md
    let d ← Opnd.ofCode r.d
    let a ← Opnd.ofCode r.a
    let b ← Opnd.ofCode r.b
    let c ← Opnd.ofCode r.c
    some (.imad r.hdr m d a b c)
  | 0x17 => do
    let m ← ArithMod.dec r.md
    let d ← Opnd.ofCode r.d
    let a ← Opnd.ofCode r.a
    let b ← Opnd.ofCode r.b
    some (.imadImm r.hdr m d a b (BitVec.ofNat 32 r.low))
  | 0x18 => do
    let m ← ArithMod.dec r.md
    let d ← Opnd.ofCode r.d
    let a ← Opnd.ofCode r.a
    let b ← Opnd.ofCode r.b
    some (.idiv r.hdr m d a b)
  | 0x19 => do
    let m ← ArithMod.dec r.md
    let d ← Opnd.ofCode r.d
    let a ← Opnd.ofCode r.a
    let b ← Opnd.ofCode r.b
    some (.irem r.hdr m d a b)
  | 0x1A => do
    let m ← ArithMod.dec r.md
    let d ← Opnd.ofCode r.d
    let a ← Opnd.ofCode r.a
    let b ← Opnd.ofCode r.b
    some (.imin r.hdr m d a b)
  | 0x1B => do
    let m ← ArithMod.dec r.md
    let d ← Opnd.ofCode r.d
    let a ← Opnd.ofCode r.a
    some (.iminImm r.hdr m d a (BitVec.ofNat 32 r.low))
  | 0x1C => do
    let m ← ArithMod.dec r.md
    let d ← Opnd.ofCode r.d
    let a ← Opnd.ofCode r.a
    let b ← Opnd.ofCode r.b
    some (.imax r.hdr m d a b)
  | 0x1D => do
    let m ← ArithMod.dec r.md
    let d ← Opnd.ofCode r.d
    let a ← Opnd.ofCode r.a
    some (.imaxImm r.hdr m d a (BitVec.ofNat 32 r.low))
  | 0x1E => do
    let m ← ArithMod.dec r.md
    let d ← Opnd.ofCode r.d
    let a ← Opnd.ofCode r.a
    some (.iabs r.hdr m d a)
  | 0x1F => do
    let m ← ArithMod.dec r.md
    let d ← Opnd.ofCode r.d
    let a ← Opnd.ofCode r.a
    let b ← Opnd.ofCode r.b
    let c ← Opnd.ofCode r.c
    some (.isad r.hdr m d a b c)
  | _ => none

/-- Row 0x2 of the opcode map (R261): the instruction of the fields, operand kinds unchecked. -/
def decodeRow2 (r : Raw) : Option Instr :=
  match r.opc with
  | 0x20 => do
    let m ← LogicMod.dec r.md
    let d ← Opnd.ofCode r.d
    let a ← Opnd.ofCode r.a
    let b ← Opnd.ofCode r.b
    some (.and r.hdr m d a b)
  | 0x21 => do
    let m ← LogicMod.dec r.md
    let d ← Opnd.ofCode r.d
    let a ← Opnd.ofCode r.a
    some (.andImm r.hdr m d a (BitVec.ofNat 32 r.low))
  | 0x22 => do
    let m ← LogicMod.dec r.md
    let d ← Opnd.ofCode r.d
    let a ← Opnd.ofCode r.a
    let b ← Opnd.ofCode r.b
    some (.or r.hdr m d a b)
  | 0x23 => do
    let m ← LogicMod.dec r.md
    let d ← Opnd.ofCode r.d
    let a ← Opnd.ofCode r.a
    some (.orImm r.hdr m d a (BitVec.ofNat 32 r.low))
  | 0x24 => do
    let m ← LogicMod.dec r.md
    let d ← Opnd.ofCode r.d
    let a ← Opnd.ofCode r.a
    let b ← Opnd.ofCode r.b
    some (.xor r.hdr m d a b)
  | 0x25 => do
    let m ← LogicMod.dec r.md
    let d ← Opnd.ofCode r.d
    let a ← Opnd.ofCode r.a
    some (.xorImm r.hdr m d a (BitVec.ofNat 32 r.low))
  | 0x26 => do
    let m ← LogicMod.dec r.md
    let d ← Opnd.ofCode r.d
    let a ← Opnd.ofCode r.a
    some (.not r.hdr m d a)
  | 0x27 => do
    let m ← LogicMod.dec r.md
    let d ← Opnd.ofCode r.d
    let a ← Opnd.ofCode r.a
    let b ← Opnd.ofCode r.b
    let c ← Opnd.ofCode r.c
    some (.logt r.hdr m d a b c)
  | 0x28 => do
    let m ← LogicMod.dec r.md
    let d ← Opnd.ofCode r.d
    let a ← Opnd.ofCode r.a
    let b ← Opnd.ofCode r.b
    some (.shl r.hdr m d a b)
  | 0x29 => do
    let m ← LogicMod.dec r.md
    let d ← Opnd.ofCode r.d
    let a ← Opnd.ofCode r.a
    some (.shlImm r.hdr m d a (BitVec.ofNat 32 r.low))
  | 0x2A => do
    let m ← LogicMod.dec r.md
    let d ← Opnd.ofCode r.d
    let a ← Opnd.ofCode r.a
    let b ← Opnd.ofCode r.b
    some (.shr r.hdr m d a b)
  | 0x2B => do
    let m ← LogicMod.dec r.md
    let d ← Opnd.ofCode r.d
    let a ← Opnd.ofCode r.a
    some (.shrImm r.hdr m d a (BitVec.ofNat 32 r.low))
  | 0x2C => do
    let m ← LogicMod.dec r.md
    let d ← Opnd.ofCode r.d
    let a ← Opnd.ofCode r.a
    let b ← Opnd.ofCode r.b
    some (.rot r.hdr m d a b)
  | 0x2D => do
    let m ← LogicMod.dec r.md
    let d ← Opnd.ofCode r.d
    let a ← Opnd.ofCode r.a
    some (.popc r.hdr m d a)
  | 0x2E => do
    let m ← LogicMod.dec r.md
    let d ← Opnd.ofCode r.d
    let a ← Opnd.ofCode r.a
    some (.clz r.hdr m d a)
  | 0x2F => do
    let m ← LogicMod.dec r.md
    let d ← Opnd.ofCode r.d
    let a ← Opnd.ofCode r.a
    let b ← Opnd.ofCode r.b
    let c ← Opnd.ofCode r.c
    some (.bfx r.hdr m d a b c)
  | _ => none

/-- Row 0x3 of the opcode map (R261): the instruction of the fields, operand kinds unchecked. -/
def decodeRow3 (r : Raw) : Option Instr :=
  match r.opc with
  | 0x30 => do
    let m ← IcmpMod.dec r.md
    let d ← Opnd.ofCode r.d
    let a ← Opnd.ofCode r.a
    let b ← Opnd.ofCode r.b
    let c ← optOf r.c
    some (.icmp r.hdr m d a b c)
  | 0x31 => do
    let m ← IcmpMod.dec r.md
    let d ← Opnd.ofCode r.d
    let a ← Opnd.ofCode r.a
    some (.icmpImm r.hdr m d a (BitVec.ofNat 32 r.low))
  | 0x32 => do
    let m ← FcmpMod.dec r.md
    let d ← Opnd.ofCode r.d
    let a ← Opnd.ofCode r.a
    let b ← Opnd.ofCode r.b
    let c ← optOf r.c
    some (.fcmp r.hdr m d a b c)
  | 0x33 => do
    let m ← FcmpMod.dec r.md
    let d ← Opnd.ofCode r.d
    let a ← Opnd.ofCode r.a
    some (.fcmpImm r.hdr m d a (BitVec.ofNat 32 r.low))
  | 0x34 => do
    let m ← FclassMod.dec r.md
    let d ← Opnd.ofCode r.d
    let a ← Opnd.ofCode r.a
    some (.fclass r.hdr m d a)
  | 0x35 => do
    let m ← HcmpMod.dec r.md
    let d ← Opnd.ofCode r.d
    let a ← Opnd.ofCode r.a
    let b ← Opnd.ofCode r.b
    let c ← optOf r.c
    some (.hcmp r.hdr m d a b c)
  | 0x36 => do
    let m ← SelMod.dec r.md
    let d ← Opnd.ofCode r.d
    let p ← Opnd.ofCode r.a
    let a ← Opnd.ofCode r.b
    let b ← Opnd.ofCode r.c
    some (.sel r.hdr m d p a b)
  | 0x37 => do
    let m ← SelMod.dec r.md
    let d ← Opnd.ofCode r.d
    let p ← Opnd.ofCode r.a
    let a ← Opnd.ofCode r.b
    some (.selImm r.hdr m d p a (BitVec.ofNat 32 r.low))
  | 0x38 => do
    let m ← PcombMod.dec r.md
    let d ← Opnd.ofCode r.d
    let a ← Opnd.ofCode r.a
    let b ← Opnd.ofCode r.b
    let c ← Opnd.ofCode r.c
    some (.pcomb r.hdr m d a b c)
  | 0x39 => do
    let m ← P2gMod.dec r.md
    let d ← Opnd.ofCode r.d
    some (.p2g r.hdr m d)
  | 0x3A => do
    let m ← G2pMod.dec r.md
    let a ← Opnd.ofCode r.a
    some (.g2p r.hdr m a)
  | 0x3B => do
    let m ← MovMod.dec r.md
    let d ← Opnd.ofCode r.d
    let a ← Opnd.ofCode r.a
    some (.mov r.hdr m d a)
  | 0x3C => do
    let m ← MovMod.dec r.md
    let d ← Opnd.ofCode r.d
    some (.movImm r.hdr m d (BitVec.ofNat 32 r.low))
  | 0x3D => do
    let d ← Opnd.ofCode r.d
    some (.movh r.hdr d (BitVec.ofNat 32 r.low))
  | 0x3E => do
    let m ← LeaMod.dec r.md
    let d ← Opnd.ofCode r.d
    let a ← Opnd.ofCode r.a
    let b ← Opnd.ofCode r.b
    some (.lea r.hdr m d a b)
  | 0x3F => do
    let m ← LeaMod.dec r.md
    let d ← Opnd.ofCode r.d
    let a ← Opnd.ofCode r.a
    some (.leaImm r.hdr m d a (BitVec.ofNat 32 r.low))
  | _ => none

/-- Row 0x4 of the opcode map (R261): the instruction of the fields, operand kinds unchecked. -/
def decodeRow4 (r : Raw) : Option Instr :=
  match r.opc with
  | 0x40 => do
    let m ← FpMod.dec r.md
    let d ← Opnd.ofCode r.d
    let a ← Opnd.ofCode r.a
    let b ← Opnd.ofCode r.b
    some (.fadd r.hdr m d a b)
  | 0x41 => do
    let m ← FpMod.dec r.md
    let d ← Opnd.ofCode r.d
    let a ← Opnd.ofCode r.a
    some (.faddImm r.hdr m d a (BitVec.ofNat 32 r.low))
  | 0x42 => do
    let m ← FpMod.dec r.md
    let d ← Opnd.ofCode r.d
    let a ← Opnd.ofCode r.a
    let b ← Opnd.ofCode r.b
    some (.fsub r.hdr m d a b)
  | 0x43 => do
    let m ← FpMod.dec r.md
    let d ← Opnd.ofCode r.d
    let a ← Opnd.ofCode r.a
    let b ← Opnd.ofCode r.b
    some (.fmul r.hdr m d a b)
  | 0x44 => do
    let m ← FpMod.dec r.md
    let d ← Opnd.ofCode r.d
    let a ← Opnd.ofCode r.a
    some (.fmulImm r.hdr m d a (BitVec.ofNat 32 r.low))
  | 0x45 => do
    let m ← FpMod.dec r.md
    let d ← Opnd.ofCode r.d
    let a ← Opnd.ofCode r.a
    let b ← Opnd.ofCode r.b
    let c ← Opnd.ofCode r.c
    some (.ffma r.hdr m d a b c)
  | 0x46 => do
    let m ← FpMod.dec r.md
    let d ← Opnd.ofCode r.d
    let a ← Opnd.ofCode r.a
    let b ← Opnd.ofCode r.b
    some (.ffmaImm r.hdr m d a b (BitVec.ofNat 32 r.low))
  | 0x47 => do
    let m ← FpMod.dec r.md
    let d ← Opnd.ofCode r.d
    let a ← Opnd.ofCode r.a
    let b ← Opnd.ofCode r.b
    some (.fmin r.hdr m d a b)
  | 0x48 => do
    let m ← FpMod.dec r.md
    let d ← Opnd.ofCode r.d
    let a ← Opnd.ofCode r.a
    let b ← Opnd.ofCode r.b
    some (.fmax r.hdr m d a b)
  | 0x49 => do
    let m ← FpMod.dec r.md
    let d ← Opnd.ofCode r.d
    let a ← Opnd.ofCode r.a
    let b ← Opnd.ofCode r.b
    some (.fdiv r.hdr m d a b)
  | 0x4A => do
    let m ← FpMod.dec r.md
    let d ← Opnd.ofCode r.d
    let a ← Opnd.ofCode r.a
    some (.fsqrt r.hdr m d a)
  | 0x4B => do
    let m ← FpMod.dec r.md
    let d ← Opnd.ofCode r.d
    let a ← Opnd.ofCode r.a
    some (.frcp r.hdr m d a)
  | 0x4C => do
    let m ← FpMod.dec r.md
    let d ← Opnd.ofCode r.d
    let a ← Opnd.ofCode r.a
    some (.frsq r.hdr m d a)
  | 0x4D => do
    let m ← FpMod.dec r.md
    let d ← Opnd.ofCode r.d
    let a ← Opnd.ofCode r.a
    let b ← Opnd.ofCode r.b
    some (.dadd r.hdr m d a b)
  | 0x4E => do
    let m ← FpMod.dec r.md
    let d ← Opnd.ofCode r.d
    let a ← Opnd.ofCode r.a
    let b ← Opnd.ofCode r.b
    some (.dmul r.hdr m d a b)
  | 0x4F => do
    let m ← FpMod.dec r.md
    let d ← Opnd.ofCode r.d
    let a ← Opnd.ofCode r.a
    let b ← Opnd.ofCode r.b
    let c ← Opnd.ofCode r.c
    some (.dfma r.hdr m d a b c)
  | _ => none

/-- Row 0x5 of the opcode map (R261): the instruction of the fields, operand kinds unchecked. -/
def decodeRow5 (r : Raw) : Option Instr :=
  match r.opc with
  | 0x50 => do
    let m ← HalfMod.dec r.md
    let d ← Opnd.ofCode r.d
    let a ← Opnd.ofCode r.a
    let b ← Opnd.ofCode r.b
    some (.hadd r.hdr m d a b)
  | 0x51 => do
    let m ← HalfMod.dec r.md
    let d ← Opnd.ofCode r.d
    let a ← Opnd.ofCode r.a
    let b ← Opnd.ofCode r.b
    some (.hmul r.hdr m d a b)
  | 0x52 => do
    let m ← HalfMod.dec r.md
    let d ← Opnd.ofCode r.d
    let a ← Opnd.ofCode r.a
    let b ← Opnd.ofCode r.b
    let c ← Opnd.ofCode r.c
    some (.hfma r.hdr m d a b c)
  | 0x53 => do
    let m ← HalfMod.dec r.md
    let d ← Opnd.ofCode r.d
    let a ← Opnd.ofCode r.a
    let b ← Opnd.ofCode r.b
    some (.hmin r.hdr m d a b)
  | 0x54 => do
    let m ← HalfMod.dec r.md
    let d ← Opnd.ofCode r.d
    let a ← Opnd.ofCode r.a
    let b ← Opnd.ofCode r.b
    some (.hmax r.hdr m d a b)
  | 0x55 => do
    let m ← VecMod.dec r.md
    let d ← Opnd.ofCode r.d
    let a ← Opnd.ofCode r.a
    let b ← Opnd.ofCode r.b
    some (.vadd r.hdr m d a b)
  | 0x56 => do
    let m ← VecMod.dec r.md
    let d ← Opnd.ofCode r.d
    let a ← Opnd.ofCode r.a
    some (.vaddImm r.hdr m d a (BitVec.ofNat 32 r.low))
  | 0x57 => do
    let m ← VecMod.dec r.md
    let d ← Opnd.ofCode r.d
    let a ← Opnd.ofCode r.a
    let b ← Opnd.ofCode r.b
    some (.vsub r.hdr m d a b)
  | 0x58 => do
    let m ← VecMod.dec r.md
    let d ← Opnd.ofCode r.d
    let a ← Opnd.ofCode r.a
    let b ← Opnd.ofCode r.b
    some (.vmin r.hdr m d a b)
  | 0x59 => do
    let m ← VecMod.dec r.md
    let d ← Opnd.ofCode r.d
    let a ← Opnd.ofCode r.a
    let b ← Opnd.ofCode r.b
    some (.vmax r.hdr m d a b)
  | 0x5A => do
    let m ← VecMod.dec r.md
    let d ← Opnd.ofCode r.d
    let a ← Opnd.ofCode r.a
    let b ← Opnd.ofCode r.b
    some (.vmul r.hdr m d a b)
  | 0x5B => do
    let m ← VecMod.dec r.md
    let d ← Opnd.ofCode r.d
    let a ← Opnd.ofCode r.a
    let b ← Opnd.ofCode r.b
    let c ← Opnd.ofCode r.c
    some (.vdot r.hdr m d a b c)
  | 0x5C => do
    let m ← VecMod.dec r.md
    let d ← Opnd.ofCode r.d
    let a ← Opnd.ofCode r.a
    let b ← Opnd.ofCode r.b
    let c ← Opnd.ofCode r.c
    let e ← Opnd.ofCode r.e
    some (.acs2 r.hdr m d a b c e)
  | 0x5D => do
    let m ← VecMod.dec r.md
    let d ← Opnd.ofCode r.d
    let a ← Opnd.ofCode r.a
    let b ← Opnd.ofCode r.b
    some (.vabsd r.hdr m d a b)
  | 0x5E => do
    let m ← VecMod.dec r.md
    let d ← Opnd.ofCode r.d
    let a ← Opnd.ofCode r.a
    let b ← Opnd.ofCode r.b
    let c ← Opnd.ofCode r.c
    some (.prmt r.hdr m d a b c)
  | 0x5F => do
    let m ← VecMod.dec r.md
    let d ← Opnd.ofCode r.d
    let a ← Opnd.ofCode r.a
    let b ← Opnd.ofCode r.b
    some (.prmtImm r.hdr m d a b (BitVec.ofNat 32 r.low))
  | _ => none

/-- Row 0x6 of the opcode map (R261): the instruction of the fields, operand kinds unchecked. -/
def decodeRow6 (r : Raw) : Option Instr :=
  match r.opc with
  | 0x60 => do
    let m ← CvtMod.dec r.md
    let d ← Opnd.ofCode r.d
    let a ← Opnd.ofCode r.a
    let b ← optOf r.b
    some (.cvt r.hdr m d a b)
  | 0x61 => do
    let m ← CvtpMod.dec r.md
    let d ← Opnd.ofCode r.d
    let a ← Opnd.ofCode r.a
    let b ← optOf r.b
    let c ← optOf r.c
    some (.cvtp r.hdr m d a b c)
  | 0x62 => do
    let m ← SfuMod.dec r.md
    let d ← Opnd.ofCode r.d
    let a ← Opnd.ofCode r.a
    some (.exp2 r.hdr m d a)
  | 0x63 => do
    let m ← SfuMod.dec r.md
    let d ← Opnd.ofCode r.d
    let a ← Opnd.ofCode r.a
    some (.log2 r.hdr m d a)
  | 0x64 => do
    let m ← SfuMod.dec r.md
    let d ← Opnd.ofCode r.d
    let a ← Opnd.ofCode r.a
    some (.sinPi r.hdr m d a)
  | 0x65 => do
    let m ← SfuMod.dec r.md
    let d ← Opnd.ofCode r.d
    let a ← Opnd.ofCode r.a
    some (.cosPi r.hdr m d a)
  | 0x66 => do
    let m ← RndhMod.dec r.md
    let d ← Opnd.ofCode r.d
    let a ← Opnd.ofCode r.a
    let b ← Opnd.ofCode r.b
    some (.rndh r.hdr m d a b)
  | 0x67 => do
    let m ← RndhMod.dec r.md
    let d ← Opnd.ofCode r.d
    let a ← Opnd.ofCode r.a
    some (.rndhImm r.hdr m d a (BitVec.ofNat 32 r.low))
  | 0x68 => do
    let m ← FrndMod.dec r.md
    let d ← Opnd.ofCode r.d
    let a ← Opnd.ofCode r.a
    some (.frnd r.hdr m d a)
  | 0x69 => do
    let m ← FrndMod.dec r.md
    let d ← Opnd.ofCode r.d
    let a ← Opnd.ofCode r.a
    let b ← Opnd.ofCode r.b
    some (.fscale r.hdr m d a b)
  | 0x6A => do
    let m ← FrndMod.dec r.md
    let d ← Opnd.ofCode r.d
    let a ← Opnd.ofCode r.a
    some (.fscaleImm r.hdr m d a (BitVec.ofNat 32 r.low))
  | _ => none

/-- Row 0x7 of the opcode map (R261): the instruction of the fields, operand kinds unchecked. -/
def decodeRow7 (r : Raw) : Option Instr :=
  match r.opc with
  | 0x70 => do
    let m ← LxchMod.dec r.md
    let d ← Opnd.ofCode r.d
    let a ← Opnd.ofCode r.a
    let b ← Opnd.ofCode r.b
    let c ← optOf r.c
    some (.lxch r.hdr m d a b c)
  | 0x71 => do
    let m ← LxchMod.dec r.md
    let d ← Opnd.ofCode r.d
    let a ← Opnd.ofCode r.a
    some (.lxchImm r.hdr m d a (BitVec.ofNat 32 r.low))
  | 0x72 => do
    let m ← PcolMod.dec r.md
    let d ← Opnd.ofCode r.d
    let a ← Opnd.ofCode r.a
    some (.pcol r.hdr m d a)
  | 0x73 => do
    let m ← XredMod.dec r.md
    let d ← Opnd.ofCode r.d
    let a ← Opnd.ofCode r.a
    some (.xred r.hdr m d a)
  | 0x74 => do
    let m ← XredMod.dec r.md
    let d ← Opnd.ofCode r.d
    let a ← Opnd.ofCode r.a
    some (.xscan r.hdr m d a)
  | 0x75 => do
    let m ← XfindMod.dec r.md
    let d ← Opnd.ofCode r.d
    let a ← Opnd.ofCode r.a
    let c ← optOf r.c
    some (.xfind r.hdr m d a c)
  | 0x76 => do
    let m ← XfredMod.dec r.md
    let d ← Opnd.ofCode r.d
    let a ← Opnd.ofCode r.a
    some (.xfred r.hdr m d a)
  | _ => none

/-- Row 0x8 of the opcode map (R261): the instruction of the fields, operand kinds unchecked. -/
def decodeRow8 (r : Raw) : Option Instr :=
  match r.opc with
  | 0x80 => do
    let m ← MemMod.dec r.md
    let d ← Opnd.ofCode r.d
    let a ← Opnd.ofCode r.a
    let b ← Opnd.ofCode r.b
    some (.ld r.hdr m d a b (BitVec.ofNat 32 r.low))
  | 0x81 => do
    let m ← StMod.dec r.md
    let d ← Opnd.ofCode r.d
    let a ← Opnd.ofCode r.a
    let b ← Opnd.ofCode r.b
    some (.st r.hdr m d a b (BitVec.ofNat 32 r.low))
  | 0x82 => do
    let m ← ProbeMod.dec r.md
    let d ← Opnd.ofCode r.d
    let a ← Opnd.ofCode r.a
    let b ← Opnd.ofCode r.b
    some (.ldProbe r.hdr m d a b (BitVec.ofNat 32 r.low))
  | 0x83 => do
    let m ← LdsMod.dec r.md
    let d ← Opnd.ofCode r.d
    let a ← Opnd.ofCode r.a
    let b ← Opnd.ofCode r.b
    some (.lds r.hdr m d a b (BitVec.ofNat 32 r.low))
  | 0x84 => do
    let m ← LdsMod.dec r.md
    let d ← Opnd.ofCode r.d
    let a ← Opnd.ofCode r.a
    let b ← Opnd.ofCode r.b
    some (.sts r.hdr m d a b (BitVec.ofNat 32 r.low))
  | 0x85 => do
    let m ← MemMod.dec r.md
    let d ← Opnd.ofCode r.d
    let a ← Opnd.ofCode r.a
    let b ← Opnd.ofCode r.b
    some (.ldm r.hdr m d a b (BitVec.ofNat 32 r.low))
  | 0x86 => do
    let m ← MemMod.dec r.md
    let d ← Opnd.ofCode r.d
    let a ← Opnd.ofCode r.a
    let b ← Opnd.ofCode r.b
    some (.stm r.hdr m d a b (BitVec.ofNat 32 r.low))
  | 0x87 => do
    let m ← MemMod.dec r.md
    let a ← Opnd.ofCode r.a
    let b ← Opnd.ofCode r.b
    some (.prf r.hdr m a b (BitVec.ofNat 32 r.low))
  | _ => none

/-- Row 0x9 of the opcode map (R261): the instruction of the fields, operand kinds unchecked. -/
def decodeRow9 (r : Raw) : Option Instr :=
  match r.opc with
  | 0x90 => do
    let m ← AtomMod.dec r.md
    let d ← Opnd.ofCode r.d
    let a ← Opnd.ofCode r.a
    let b ← Opnd.ofCode r.b
    some (.atomImm r.hdr m d a b (BitVec.ofNat 32 r.low))
  | 0x91 => do
    let m ← AtomMod.dec r.md
    let d ← Opnd.ofCode r.d
    let a ← Opnd.ofCode r.a
    let b ← Opnd.ofCode r.b
    let c ← Opnd.ofCode r.c
    some (.atom r.hdr m d a b c)
  | 0x92 => do
    let m ← AtomMod.dec r.md
    let a ← Opnd.ofCode r.a
    let b ← Opnd.ofCode r.b
    some (.redImm r.hdr m a b (BitVec.ofNat 32 r.low))
  | 0x93 => do
    let m ← AtomMod.dec r.md
    let a ← Opnd.ofCode r.a
    let b ← Opnd.ofCode r.b
    let c ← Opnd.ofCode r.c
    some (.red r.hdr m a b c)
  | 0x94 => do
    let m ← CasMod.dec r.md
    let d ← Opnd.ofCode r.d
    let a ← Opnd.ofCode r.a
    let b ← Opnd.ofCode r.b
    let c ← Opnd.ofCode r.c
    let e ← Opnd.ofCode r.e
    some (.cas r.hdr m d a b c e)
  | 0x95 => do
    let m ← AtomsMod.dec r.md
    let d ← Opnd.ofCode r.d
    let a ← Opnd.ofCode r.a
    let b ← Opnd.ofCode r.b
    some (.atoms r.hdr m d a b (BitVec.ofNat 32 r.low))
  | 0x96 => do
    let m ← AtomsMod.dec r.md
    let a ← Opnd.ofCode r.a
    let b ← Opnd.ofCode r.b
    some (.reds r.hdr m a b (BitVec.ofNat 32 r.low))
  | 0x97 => do
    let m ← CassMod.dec r.md
    let d ← Opnd.ofCode r.d
    let a ← Opnd.ofCode r.a
    let b ← Opnd.ofCode r.b
    let c ← Opnd.ofCode r.c
    let e ← Opnd.ofCode r.e
    some (.cass r.hdr m d a b c e)
  | _ => none

/-- Row 0xA of the opcode map (R261): the instruction of the fields, operand kinds unchecked. -/
def decodeRowA (r : Raw) : Option Instr :=
  match r.opc with
  | 0xA0 => do
    let m ← FenceMod.dec r.md
    some (.fence r.hdr m)
  | 0xA1 => do
    let m ← PfenceMod.dec r.md
    some (.pfence r.hdr m)
  | 0xA2 => do
    let m ← BarMod.dec r.md
    let a ← Opnd.ofCode r.a
    some (.barInit r.hdr m a)
  | 0xA3 => do
    let m ← BarMod.dec r.md
    some (.barInitImm r.hdr m (BitVec.ofNat 32 r.low))
  | 0xA4 => do
    let m ← BarArrMod.dec r.md
    let a ← Opnd.ofCode r.a
    some (.barArrive r.hdr m a)
  | 0xA5 => do
    let m ← BarArrMod.dec r.md
    some (.barArriveImm r.hdr m (BitVec.ofNat 32 r.low))
  | 0xA6 => do
    let m ← BarMod.dec r.md
    some (.barWait r.hdr m)
  | 0xA7 => do
    let m ← BarArrMod.dec r.md
    let a ← Opnd.ofCode r.a
    some (.barSync r.hdr m a)
  | 0xA8 => do
    let m ← BarArrMod.dec r.md
    some (.barSyncImm r.hdr m (BitVec.ofNat 32 r.low))
  | 0xA9 => do
    let m ← BarMod.dec r.md
    some (.barInv r.hdr m)
  | 0xAA => do
    let m ← WaitaMod.dec r.md
    let d ← Opnd.ofCode r.d
    let a ← Opnd.ofCode r.a
    let b ← Opnd.ofCode r.b
    some (.waitaImm r.hdr m d a b (BitVec.ofNat 32 r.low))
  | 0xAB => do
    let m ← WaitaMod.dec r.md
    let d ← Opnd.ofCode r.d
    let a ← Opnd.ofCode r.a
    let b ← Opnd.ofCode r.b
    let c ← Opnd.ofCode r.c
    some (.waita r.hdr m d a b c)
  | 0xAC => do
    let m ← CbarMod.dec r.md
    some (.cbar r.hdr m)
  | _ => none

/-- Row 0xB of the opcode map (R261): the instruction of the fields, operand kinds unchecked. -/
def decodeRowB (r : Raw) : Option Instr :=
  match r.opc with
  | 0xB0 => do
    let d ← Opnd.ofCode r.d
    let a ← Opnd.ofCode r.a
    let b ← Opnd.ofCode r.b
    some (.winBind r.hdr d a b)
  | 0xB1 => do
    let a ← Opnd.ofCode r.a
    some (.winTouch r.hdr a)
  | 0xB2 => do
    let a ← Opnd.ofCode r.a
    some (.winRetire r.hdr a)
  | 0xB3 => do
    let d ← Opnd.ofCode r.d
    let a ← Opnd.ofCode r.a
    some (.winState r.hdr d a)
  | 0xB4 => do
    let d ← Opnd.ofCode r.d
    let a ← Opnd.ofCode r.a
    let b ← Opnd.ofCode r.b
    let c ← Opnd.ofCode r.c
    some (.seal r.hdr d a b c)
  | 0xB5 => do
    let m ← UnsealMod.dec r.md
    let d ← Opnd.ofCode r.d
    let a ← Opnd.ofCode r.a
    let b ← Opnd.ofCode r.b
    let c ← Opnd.ofCode r.c
    some (.unseal r.hdr m d a b c)
  | 0xB6 => do
    let m ← CctlMod.dec r.md
    let a ← Opnd.ofCode r.a
    some (.cctlImm r.hdr m a (BitVec.ofNat 32 r.low))
  | 0xB7 => do
    let m ← CctlMod.dec r.md
    let a ← Opnd.ofCode r.a
    let b ← Opnd.ofCode r.b
    some (.cctl r.hdr m a b)
  | 0xB8 => do
    let a ← Opnd.ofCode r.a
    let b ← Opnd.ofCode r.b
    some (.iinv r.hdr a b)
  | 0xB9 => do
    some (.isync r.hdr)
  | _ => none

/-- Row 0xC of the opcode map (R261): the instruction of the fields, operand kinds unchecked. -/
def decodeRowC (r : Raw) : Option Instr :=
  match r.opc with
  | 0xC0 => do
    let d ← Opnd.ofCode r.d
    let a ← Opnd.ofCode r.a
    some (.mxop r.hdr d a)
  | 0xC1 => do
    let d ← Opnd.ofCode r.d
    some (.mxopImm r.hdr d (BitVec.ofNat 32 r.low))
  | 0xC2 => do
    let m ← MxdrainMod.dec r.md
    let d ← Opnd.ofCode r.d
    let a ← Opnd.ofCode r.a
    let b ← Opnd.ofCode r.b
    let c ← Opnd.ofCode r.c
    some (.mxdrain r.hdr m d a b c)
  | 0xC3 => do
    let m ← MxwaitMod.dec r.md
    let a ← optOf r.a
    some (.mxwait r.hdr m a)
  | 0xC4 => do
    let a ← Opnd.ofCode r.a
    some (.mxburst r.hdr a)
  | 0xC5 => do
    some (.mxburstImm r.hdr (BitVec.ofNat 32 r.low))
  | 0xC6 => do
    let d ← Opnd.ofCode r.d
    let a ← Opnd.ofCode r.a
    some (.collPost r.hdr d a)
  | _ => none

/-- Row 0xD of the opcode map (R261): the instruction of the fields, operand kinds unchecked. -/
def decodeRowD (r : Raw) : Option Instr :=
  match r.opc with
  | 0xD0 => do
    let d ← Opnd.ofCode r.d
    let a ← Opnd.ofCode r.a
    let b ← Opnd.ofCode r.b
    some (.taskPost r.hdr d a b)
  | 0xD1 => do
    let m ← TaskDepMod.dec r.md
    let d ← Opnd.ofCode r.d
    let a ← Opnd.ofCode r.a
    let b ← Opnd.ofCode r.b
    let c ← Opnd.ofCode r.c
    some (.taskDep r.hdr m d a b c)
  | 0xD2 => do
    let m ← TaskDepMod.dec r.md
    let d ← Opnd.ofCode r.d
    let a ← Opnd.ofCode r.a
    let b ← Opnd.ofCode r.b
    some (.taskDepImm r.hdr m d a b (BitVec.ofNat 32 r.low))
  | 0xD3 => do
    some (.phase r.hdr)
  | _ => none

/-- Row 0xE of the opcode map (R261): the instruction of the fields, operand kinds unchecked. -/
def decodeRowE (r : Raw) : Option Instr :=
  match r.opc with
  | 0xE0 => do
    some (.syscall r.hdr (BitVec.ofNat 32 r.low))
  | 0xE1 => do
    let m ← SvqtakeMod.dec r.md
    let d ← Opnd.ofCode r.d
    some (.svqtake r.hdr m d)
  | 0xE2 => do
    let m ← SvretMod.dec r.md
    let a ← optOf r.a
    let b ← optOf r.b
    some (.svret r.hdr m a b)
  | 0xE3 => do
    some (.svqwait r.hdr)
  | 0xE4 => do
    let d ← Opnd.ofCode r.d
    some (.movs r.hdr d (BitVec.ofNat 32 r.low))
  | 0xE5 => do
    let d ← Opnd.ofCode r.d
    some (.csrrImm r.hdr d (BitVec.ofNat 32 r.low))
  | 0xE6 => do
    let d ← Opnd.ofCode r.d
    let a ← Opnd.ofCode r.a
    some (.csrr r.hdr d a)
  | 0xE7 => do
    let a ← Opnd.ofCode r.a
    some (.csrwImm r.hdr a (BitVec.ofNat 32 r.low))
  | 0xE8 => do
    let a ← Opnd.ofCode r.a
    let b ← Opnd.ofCode r.b
    some (.csrw r.hdr a b)
  | 0xE9 => do
    let m ← PtsyncMod.dec r.md
    some (.ptsync r.hdr m)
  | 0xEA => do
    let m ← TlbinvMod.dec r.md
    let a ← optOf r.a
    let b ← optOf r.b
    let c ← optOf r.c
    some (.tlbinv r.hdr m a b c)
  | 0xEB => do
    let m ← PgmoveMod.dec r.md
    let d ← Opnd.ofCode r.d
    let a ← Opnd.ofCode r.a
    let b ← Opnd.ofCode r.b
    let c ← Opnd.ofCode r.c
    some (.pgmove r.hdr m d a b c)
  | 0xEC => do
    let d ← Opnd.ofCode r.d
    let a ← Opnd.ofCode r.a
    some (.solderHandoff r.hdr d a)
  | 0xED => do
    let m ← BndMod.dec r.md
    let a ← Opnd.ofCode r.a
    let b ← Opnd.ofCode r.b
    let c ← Opnd.ofCode r.c
    some (.bndSet r.hdr m a b c)
  | 0xEE => do
    let m ← SchedMod.dec r.md
    let a ← optOf r.a
    some (.schedStep r.hdr m a)
  | _ => none

/-- Row 0xF of the opcode map (R261): the instruction of the fields, operand kinds unchecked. -/
def decodeRowF (r : Raw) : Option Instr :=
  match r.opc with
  | 0xF0 => do
    let d ← Opnd.ofCode r.d
    let a ← Opnd.ofCode r.a
    let b ← Opnd.ofCode r.b
    let c ← Opnd.ofCode r.c
    some (.svwake r.hdr d a b c)
  | 0xF1 => do
    let d ← Opnd.ofCode r.d
    let a ← Opnd.ofCode r.a
    let b ← Opnd.ofCode r.b
    let c ← Opnd.ofCode r.c
    some (.tret r.hdr d a b c)
  | 0xF2 => do
    let d ← Opnd.ofCode r.d
    let a ← Opnd.ofCode r.a
    let b ← Opnd.ofCode r.b
    let c ← Opnd.ofCode r.c
    some (.frassign r.hdr d a b c)
  | 0xF3 => do
    let d ← Opnd.ofCode r.d
    let a ← Opnd.ofCode r.a
    some (.solderRekey r.hdr d a)
  | 0xF4 => do
    let a ← Opnd.ofCode r.a
    some (.halt r.hdr a)
  | _ => none

/-- R261: the instruction of the fields; an unassigned opcode has none. -/
def decodeFields (r : Raw) : Option Instr :=
  match r.opc / 16 with
  | 0 => decodeRow0 r
  | 1 => decodeRow1 r
  | 2 => decodeRow2 r
  | 3 => decodeRow3 r
  | 4 => decodeRow4 r
  | 5 => decodeRow5 r
  | 6 => decodeRow6 r
  | 7 => decodeRow7 r
  | 8 => decodeRow8 r
  | 9 => decodeRow9 r
  | 10 => decodeRowA r
  | 11 => decodeRowB r
  | 12 => decodeRowC r
  | 13 => decodeRowD r
  | 14 => decodeRowE r
  | 15 => decodeRowF r
  | _ => none

/-- The decoder of one 96-bit word: the instruction whose fields these are, when every field is as its description has it
(R255 check 2, less the checks that need the executing group). An unused field other than 0xFF, a set bit that must be zero and
a reserved code are refused, because the instruction's own fields would differ. -/
def decodeWord (w : Nat) : Option Instr := do
  let r ← Raw.unpack w
  let i ← decodeFields r
  if i.raw = some r ∧ i.wf = true then some i else none

/-- R243: a slot's word from its 12 bytes, little-endian. -/
def wordOfBytes : Bytes → Nat
  | [] => 0
  | b :: bs => b.toNat + 256 * wordOfBytes bs

/-- The decoder on bytes: the first 12 are a slot (R243). -/
def decodeBytes (bs : Bytes) : Option Instr :=
  if bs.length < 12 then none else decodeWord (wordOfBytes (bs.take 12))

/-- R243: the bytes of a word, low byte first. -/
def bytesOfNat : Nat → Nat → Bytes
  | 0, _ => []
  | n + 1, w => BitVec.ofNat 8 w :: bytesOfNat n (w / 256)

/-- The encoder: the word of a well-formed instruction (R249, R250). -/
def encode (i : Instr) : Option Nat := if i.wf then i.raw.map Raw.pack else none

/-- The encoder's 12 bytes (R243). -/
def encodeBytes (i : Instr) : Option Bytes := (encode i).map (bytesOfNat 12)

/-- The instruction this decoder reads from an instruction whose bits are `w`, numbered from the first byte: a slot is 12 bytes
in which the byte of lowest address holds bits [7:0] (R243), so bits above `nbits` are zero. -/
def decodeTableWord (nbits w : Nat) : Option Instr := decodeBytes (bytesOfNat 12 (w % 2 ^ nbits % 2 ^ 96))

end Sys2Proof
end

