-- ==== Sys2Proof/Machine/State.lean ====
section
/-! DEFINITION. The state of the KW-D96: everything the spec gives the machine, by chapter, as plain data; its reset. -/
namespace Sys2Proof.Machine

/-- A sparse table: entries in rising key order; an unlisted key holds the table's default. -/
abbrev Tab (α : Type) := List (Nat × α)

/-- What a group belongs to (R96, R105, R118). -/
inductive Owner where
  | launch (lid : Nat)
  | task (tid : Nat)
  | server
  | monitor
  deriving DecidableEq, Repr

/-- Power and gate of one compute die (R17). -/
structure DiePower where
  watts : Nat
  /-- own gate step, 0 to 12, and the cycle it was taken -/
  step : Nat
  since : Nat
  /-- the combined step in effect, and one chosen but not yet in effect -/
  inEffect : Nat
  next : Option Nat
  deriving DecidableEq, Repr

/-- Signals, rails, boot progress and the power controllers (R11 to R19, R22, R23). -/
structure PkgState where
  busGood : Bool
  /-- rails within tolerance, counted in the order of R14 -/
  rails : Nat
  pwrGood : Bool
  modResetN : Bool
  /-- out of cold reset -/
  running : Bool
  bootStat : BitVec 4
  /-- the failing step, once the ROM has stopped (R23) -/
  bootFailed : Option Nat
  /-- the cycle in which it stopped -/
  bootFailAt : Nat
  thermAlertN : Bool
  coldResets : Nat
  /-- the unique device secret can be read (R22 step 6) -/
  secretReadable : Bool
  identityReady : Bool
  dies : Vector DiePower 4
  /-- the temperature of each die, the hottest of its sensors (R16): CD0 to CD3, ID0, ID1, then the sixteen HBM4 base dies -/
  temps : Vector Nat 22
  modWatts : Nat
  modStep : Nat
  modSince : Nat
  deriving DecidableEq, Repr

/-- A request the attestation unit has taken, in arrival order (R26). -/
inductive AttReq where
  | extend
  | report
  deriving DecidableEq, Repr

/-- The attestation unit, its request block and the NOR interface with the flash behind it (R21, R24 to R27, R31). -/
structure AttState where
  meas : Vector (BitVec 512) 16
  xIndex : BitVec 4
  xBusy : Bool
  xDone : Bool
  xStat : BitVec 64
  xDig : BitVec 512
  rBusy : Bool
  rDone : Bool
  rStat : BitVec 64
  rDest : BitVec 64
  rNonce : BitVec 512
  queue : List AttReq
  norOp : BitVec 2
  norStatus : BitVec 8
  norBusy : Bool
  norDone : Bool
  /-- the operation in progress: its OP, address and length -/
  norRun : Option (Nat × Nat × Nat)
  nAddr : BitVec 64
  nLen : BitVec 64
  nBuf : BitVec 64
  /-- the NOR flash: an unlisted byte reads 0xFF, the erased value -/
  nor : List Host.Cell
  deriving DecidableEq, Repr

/-- The boundary registers and the egress peer table (R28, R29). -/
structure BdyState where
  locked : Bool
  copyB : Bool
  rollback : BitVec 8
  modPwr : BitVec 12
  diePwr : Vector (BitVec 10) 4
  tTrip : BitVec 8
  tThrot : BitVec 8
  peerChk : Vector Bool 4
  egrCap : Vector (BitVec 11) 4
  rpcOk : Vector Bool 2
  maxLog2 : Vector (BitVec 8) 2
  maxWin : Vector (BitVec 6) 2
  polLock : Bool
  hmLock : Bool
  dbgMode : BitVec 2
  /-- prefix and prefix length of each entry -/
  egress : List (BitVec 128 × Nat)
  deriving DecidableEq, Repr

/-- One VD's network configuration registers (R35). -/
structure NetRegs where
  qpt : DWord
  peer : DWord
  rkey : DWord
  pages : DWord
  stat : BitVec 8
  deriving DecidableEq, Repr

/-- The fields of a queue-pair table entry, read at ENABLE (R36). -/
structure QpCfg where
  block : Bool
  port : Nat
  sqLog2 : Nat
  cqLog2 : Nat
  rqLog2 : Nat
  slotLog2 : Nat
  notify : Bool
  asid : Nat
  ncore : Nat
  lpid : Nat
  sqva : Nat
  cqva : Nat
  rqva : Nat
  deriving DecidableEq, Repr

/-- An operation of a queue pair or block ring that has started (R38, R62): its entry's bytes and its ring index. -/
structure NetOp where
  idx : Nat
  entry : Bytes
  /-- the outcome when it is already decided, and the bytes moved and the old value -/
  status : Option Nat
  bytes : Nat
  value : BitVec 64
  /-- the network's answer, once it is here -/
  res : Option NetResult
  deriving DecidableEq, Repr

/-- A packet a receive buffer holds (R50): for a Send of this module, the VD, the queue and the ring index it comes from. -/
structure HeldPkt where
  pkt : InPkt
  back : Option (Nat × Nat × Nat)
  deriving DecidableEq, Repr

/-- The inbound Writes of one flow of a secure domain that have been performed (R49): those of an initiator's queue pair, or of a packet
delivery context, with every number below `next` and the numbers of `more`. -/
structure Flow where
  dom : Nat
  src : Bytes
  ctx : Bool
  id : Nat
  next : Nat
  more : List Nat
  deriving DecidableEq, Repr

/-- An enabled queue pair or block ring (R35, R40, R42, R44, R50). -/
structure Qp where
  cfg : QpCfg
  tail : BitVec 16
  head : BitVec 16
  cqHead : BitVec 16
  rqHead : BitVec 16
  cqTail : BitVec 16
  rqIdx : BitVec 16
  evicted : Bool
  cqFull : Bool
  stopped : Bool
  error : Bool
  /-- DISABLE has been written and operations are still in progress -/
  stopping : Bool
  ops : List NetOp
  heldPkts : List HeldPkt
  heldTails : List (BitVec 16)
  /-- the cycle it was last used in -/
  used : Nat
  /-- grants spent on the entry at HEAD (R120) -/
  beats : Nat
  /-- what has been read of its payload, and whether any of that is poisoned (R38, R62) -/
  part : Bytes := []
  partBad : Bool := false
  deriving DecidableEq, Repr

/-- A secure domain (R34, R72, R73): its local VD, and the other end, which is a VD here or one of another package. -/
structure Domain where
  vd : Nat
  peerPkg : Option Nat
  peerVd : Nat
  key : Bytes
  deriving DecidableEq, Repr

/-- One Braze port (R58): its link, the flits since the last key, and the replays of the group in flight. -/
structure BrazePort where
  up : Bool
  keyed : Bool
  keyEpoch : Nat
  flits : Nat
  replays : Nat
  deriving DecidableEq, Repr

/-- A remote access outstanding on a failed link (R59). -/
structure RemoteOp where
  port : Nat
  gid : Nat
  tid : Nat
  pkg : Nat
  frame : Nat
  off : Nat
  data : Bytes
  store : Bool
  atomic : Bool
  /-- the work of its thread (R241) -/
  owner : Owner
  deriving DecidableEq, Repr

/-- The network engine, secure domains, Braze ports and the memory of other packages as this package sees it. -/
structure NetState where
  regs : Tab NetRegs
  qps : Tab Qp
  domains : Tab Domain
  /-- bytes each VD's receive buffer holds (R50) -/
  rxUsed : Tab Nat
  /-- inbound Writes performed, by flow (R49) -/
  flows : List Flow
  /-- the queue pair and the block ring last served, at key 2 vd + 1 for the ring (R122) -/
  lastQ : Tab Nat
  /-- packets the egress check discarded, by port (R29) -/
  blocked : Tab Nat
  braze : Tab BrazePort
  remoteOps : List RemoteOp
  /-- remote memory by (package, handle, offset) key; an unlisted byte reads 0 -/
  remote : List Host.Cell
  /-- poisoned 32-byte sectors of it -/
  remotePoison : List Nat
  deriving DecidableEq, Repr

/-- A landing-window descriptor (R53). -/
structure Lwd where
  ctl : DWord
  tgt : DWord
  flag : DWord
  act : DWord
  deriving DecidableEq, Repr

/-- The two endpoints: descriptors, relaxed writes accepted and not yet performed, MSI-X structures (R51 to R57). -/
structure PcieState where
  lwd : Tab Lwd
  held : Tab (List PeerWrite)
  /-- MSI-X table entry (16 bytes) and pending bit of each endpoint -/
  msixTable : Vector (BitVec 128) 2
  msixPending : Vector Bool 2
  /-- what has landed in a window of KIND RPC: bytes at 2^40 (32 endpoint + window) + offset; an unlisted byte reads 0 (R68) -/
  rpcWin : List Host.Cell
  deriving DecidableEq, Repr

/-- A request in a slot of a VD's receive area (R71). -/
structure RpcReq where
  vd : Nat
  seq : BitVec 64
  call : BitVec 16
  via : Transport
  /-- the mask before a SUBSCRIBE (R78) -/
  was : BitVec 64
  deriving DecidableEq, Repr

/-- The RPC unit's state for one VD (R66, R67, R71, R78). -/
structure RpcVd where
  key : Option Bytes
  high : Nat
  map : BitVec 64
  rx : DWord
  slots : Tab RpcReq
  result : BitVec 8
  subMask : BitVec 64
  subAddr : Option Transport
  evSeq : BitVec 64
  deriving DecidableEq, Repr

/-- A pending ML-KEM decapsulation key (R73). -/
structure PendingKem where
  vd : Nat
  pkg : Nat
  peerVd : Nat
  dk : Bytes
  deriving DecidableEq, Repr

/-- The RPC unit (R65 to R78). -/
structure RpcState where
  vds : Tab RpcVd
  pending : List PendingKem
  /-- an image being loaded for each VD: its bytes so far (R75) -/
  images : Tab Bytes
  /-- accepted requests whose slot lies on a page being migrated (R71, R209), oldest first -/
  late : List (Transport × Bytes)
  deriving DecidableEq, Repr

/-- STATE of VDQ_CTL (R79). -/
inductive VdSt where
  | empty | built | run | resetting
  deriving DecidableEq, Repr

/-- The ten control registers of one VD (R79). -/
structure VdRec where
  reason : BitVec 8
  refused : Bool
  priv : Bool
  st : VdSt
  core : DWord
  clu : DWord
  cache : DWord
  cnt : DWord
  queue : DWord
  keyValid : Bool
  kid : BitVec 6
  lend : DWord
  vtimer : DWord
  rpc : DWord
  deriving DecidableEq, Repr

/-- A slice pair (R124, R126). -/
structure SlicePair where
  en : Bool
  refused : Bool
  switching : Bool
  /-- false: VDA holds the region -/
  holderB : Bool
  switches : BitVec 16
  savedA : Bool
  savedB : Bool
  vda : BitVec 4
  vdb : BitVec 4
  slice : BitVec 16
  core : DWord
  clu : DWord
  saveA : DWord
  saveB : DWord
  /-- package time in ns of the next switch instant -/
  nextNs : Nat
  /-- a reset of one of the two VDs has stopped switching until EN is cleared (R130) -/
  stopped : Bool
  deriving DecidableEq, Repr

/-- Virtual devices, the calendar and slice pairs (R79 to R85, R119, R123 to R130). -/
structure VdsState where
  vd : Vector VdRec 16
  /-- CAL_OWN as last written, and the table in force since the last round began -/
  calLast : Vector DWord 4
  calForce : Vector DWord 4
  /-- for unit u and owner v at key 16 u + v, the VD last served in a lent slot of v (R82) -/
  lent : Tab Nat
  slices : Vector SlicePair 4
  deriving DecidableEq, Repr

/-- The launch queue of one VD: its register page (R86) and whether its engine watches a record (R87). -/
structure LqRegs where
  tail : BitVec 16
  head : BitVec 16
  base : DWord
  stopped : Bool
  error : Bool
  /-- the last launch accepted from it -/
  last : Option Nat
  deriving DecidableEq, Repr

/-- An accepted launch, from the launch unit's copy of its record (R89, R94 to R97). -/
structure Launch where
  lid : Nat
  /-- the accepted launch before it in the queue (R96) -/
  prev : Option Nat
  vd : Nat
  /-- ring index and the virtual address of its ring entry, for DONE -/
  idx : BitVec 16
  slotVa : Nat
  asid : Nat
  record : Bytes
  rank : Nat
  nbrs : List Nat
  shareBase : Nat
  shareCnt : Nat
  /-- the linear index of the lowest undispatched block (R115) -/
  cursor : Nat
  dispatched : Nat
  /-- blocks resident and blocks ended -/
  resident : Nat
  ended : Nat
  /-- die of each die team already fixed (R116) -/
  teamDie : Tab Nat
  replays : Nat
  /-- a kill in progress: the SEQ of the causing record (R241) -/
  killing : Option Nat
  /-- its snapshot regions: virtual address and length (R93, R231) -/
  snap : List (Nat × Nat)
  deriving DecidableEq, Repr

/-- Counter states (R102). -/
inductive CntSt where
  | free | armed | ready | running
  deriving DecidableEq, Repr

/-- A dependence counter (R102): POISON, VALUE, and the packet slot with the VD and ASID that armed it. -/
structure Counter where
  st : CntSt
  value : BitVec 16
  poison : Bool
  packet : Bytes
  vd : Nat
  asid : Nat
  deriving DecidableEq, Repr

/-- A write on path LS or SW that no crossing to IF has covered yet (R204): the agent that made it, its colour, and its number among
all accesses. A thread is agent 2 (1,024 group + thread), the Swage of a cluster 2 cluster + 1. -/
structure Writer where
  agent : Nat
  col : Nat
  time : Nat
  deriving DecidableEq, Repr

/-- Writes of one agent that a chain has brought to another (R195): those numbered up to `upTo`, of the colours that every release in
the chain covers, to sectors from `lo` up to `hi`, on the paths of the chain's path set. -/
structure Know where
  agent : Nat
  upTo : Nat
  cols : Nat
  paths : Nat
  lo : Nat
  hi : Nat
  deriving DecidableEq, Repr

/-- A release that an acquire may meet (R193): its agent, the agent's core, its scope and mask, and what it covers. -/
structure Rel where
  agent : Nat
  core : Nat
  scope : Nat
  mask : Nat
  know : List Know
  deriving DecidableEq, Repr

/-- A waiting decrement list (R104): the cycle and source key it arrived with, the core whose SVQ an underflow uses, and the
handles left, with the releases it carries (R102). -/
structure Dec where
  cycle : Nat
  key : Nat
  vd : Nat
  core : Option Nat
  asid : Nat
  /-- the launch it completes (R96), and the landing window whose action goes on after it (R55) -/
  launch : Option Nat
  after : Option (Nat × Nat)
  handles : List (BitVec 32)
  rels : List Rel := []
  deriving DecidableEq, Repr

/-- An entry of a ready queue (R104): a task not yet started, or a phased task to resume on its cluster. -/
structure Ready where
  pri : Nat
  handle : Option (BitVec 32)
  packet : Bytes
  vd : Nat
  asid : Nat
  /-- the phased task resuming: its task number and cluster -/
  resume : Option (Nat × Nat)
  /-- the cycle it joined in -/
  joined : Nat
  deriving DecidableEq, Repr

/-- A task that has started (R100, R105, R106). -/
structure Task where
  tid : Nat
  vd : Nat
  die : Nat
  core : Nat
  asid : Nat
  packet : Bytes
  handle : Option (BitVec 32)
  phaseNo : BitVec 16
  /-- the worker that took it from a stage ring -/
  worker : Option Nat
  killing : Option Nat
  deriving DecidableEq, Repr

/-- One stage of a governor page (R109, R110). -/
structure Stage where
  ring : DWord
  tail : BitVec 16
  head : BitVec 16
  thr : DWord
  /-- a read has failed since the last TAIL store -/
  failed : Bool
  deriving DecidableEq, Repr

/-- A governor page: of one VD on one die (R109). -/
structure Gov where
  ctl : DWord
  stages : Tab Stage
  workers : Tab DWord
  deriving DecidableEq, Repr

/-- Launch queues, launches, counters, ready queues, tasks, governors and the dispatchers' toggles (R86 to R117). -/
structure LqState where
  queues : Tab LqRegs
  launches : List Launch
  /-- at key 65,536 die + index -/
  counters : Tab Counter
  decs : List Dec
  /-- at key 4 vd + die -/
  ready : Tab (List Ready)
  tasks : List Task
  gov : Tab Gov
  /-- at key 4 vd + die: the last placement came from the launch stream -/
  toggles : Tab Bool
  /-- numbers given so far to launches and tasks -/
  nextId : Nat
  deriving DecidableEq, Repr

/-- The frame or flash block or remote frame a translation ends at. -/
inductive Target where
  | spa (a : Nat)
  | flash (win nsid lba off : Nat)
  | remote (pkg handle off : Nat)
  /-- a device register page (R430): its guest-physical address -/
  | page (gpa : Nat)
  deriving DecidableEq, Repr

/-- Where the word a WAITA watches lies (R348). -/
inductive Place where
  | mem (t : Target)
  /-- a word of a core's local SRAM, and the address of the word in the on-chip map -/
  | sram (core word : Nat)
  | map (addr : Nat)
  deriving DecidableEq, Repr

/-- A WAITA in progress (R348, R349): its word, condition, acquire scope, destination and the cycle it expires; none for never. -/
structure WaitRec where
  place : Place
  va : Nat
  w64 : Bool
  cmp : WaCmp
  scope : Scope
  arg : Nat
  d : Opnd
  deadline : Option Nat
  deriving DecidableEq, Repr

/-- Why a thread waits (R137). A wait that ends by running the instruction again names only what it waits for. -/
inductive Wait where
  /-- BAR.WAIT or BAR.SYNC on named barrier j (R343) -/
  | bar (j : Nat)
  /-- CBAR (R347) -/
  | cbar
  /-- WAITA (R349) -/
  | waita (r : WaitRec)
  | svqWait
  /-- MXWAIT on one handle, or on all the thread's operations (R369) -/
  | mxWait (handle : Option (BitVec 32))
  /-- MXOP or MXDRAIN waiting for a reservation entry (R361): its destination, the drain's MOD, its operands, and its cycle of issue -/
  | mxEntry (d : Opnd) (mdr : Option MxdrainMod) (ops : Bytes) (issued : Nat)
  | phase
  /-- the state of window entry e of the core (R176) -/
  | window (e : Nat)
  /-- WIN.RETIRE, until window entry e is EMPTY (R353) -/
  | retire (e : Nat)
  /-- a flash-window block of a namespace (R60) -/
  | flash (win nsid lba : Nat)
  /-- a page being migrated (R209) -/
  | mig
  /-- PGMOVE, until its move or an earlier thread's is done (R218, R387) -/
  | move
  /-- a remote access outstanding (R59) -/
  | remote
  /-- a CSRW whose write completes later (R35, R53) -/
  | csr
  deriving DecidableEq, Repr

/-- What a thread is doing (R132, R137). -/
inductive TSt where
  | ready
  | wait (w : Wait)
  /-- held at a trap until a release names it (R146); `posted` is false while it waits for room (R147) -/
  | held (trap : Nat) (posted : Bool)
  | exited
  deriving DecidableEq, Repr

/-- The token a server lane holds (R151): its entry's number and whether threads are held for it, and its user context. -/
structure Token where
  trap : Nat
  caller : Bool
  usrVd : Nat
  usrAsid : Nat
  deriving DecidableEq, Repr

/-- A thread (R132, R133, R340, R347). Its general registers lie in the register rows. -/
structure Thread where
  pc : DWord
  /-- p0 to p15, four bits each (R253); the bits of p0 are not used, since it reads as all ones -/
  preds : DWord
  jpc : DWord
  jarr : Bool
  age : Nat
  st : TSt
  /-- TOK and PEND of the sixteen named barriers -/
  tok : BitVec 16
  pend : BitVec 16
  /-- TOK and PEND of the cluster barrier -/
  ctok : Bool
  cpend : Bool
  /-- its arrivals at the cluster barrier that no completed phase has counted yet -/
  carr : Nat
  token : Option Token
  /-- the VDs whose memory its .USR accesses have reached (R332) -/
  usr : BitVec 16
  /-- it has not yet passed the entry checks of R248 -/
  entry : Bool
  deriving DecidableEq, Repr

/-- Privilege levels (R140). -/
inductive Priv where
  | u | s | h
  deriving DecidableEq, Repr

/-- Where a group's state is (R127, R155): in the core, in a context frame, or in a save area. -/
inductive Resid where
  | core
  /-- swapped out; `restoring` once a release has asked for it -/
  | frame (restoring : Bool)
  | saved (pair : Nat)
  deriving DecidableEq, Repr

/-- A group, or a mandrel lane (R131, R132, R141). -/
structure Group where
  gid : Nat
  mandrel : Bool
  vd : Nat
  priv : Priv
  core : Nat
  quarter : Nat
  slot : Nat
  col : Nat
  width : Nat
  regs : Nat
  rowBase : Nat
  asid : Nat
  /-- its block's number, and its index in the block; a server group is a block of its own -/
  blk : Nat
  gix : Nat
  owner : Owner
  kregs : Vector Word 32
  threads : List Thread
  resid : Resid
  active : Bool
  /-- the cycle it entered the set it is in, and the cycle it was last selected -/
  since : Nat
  lastSel : Nat
  /-- a YIELD has acted in this cycle (R294) -/
  yielded : Bool
  /-- the cycle from which every thread has been held (R155) -/
  heldSince : Option Nat
  /-- fetched lines the group holds: virtual line address and bytes (R203) -/
  ibuf : List (Nat × Bytes)
  deriving DecidableEq, Repr

/-- A named barrier (R340). -/
structure Barrier where
  expect : BitVec 16
  arr : BitVec 16
  phase : Bool
  out : BitVec 15
  deriving DecidableEq, Repr

/-- A block (R91, R113, R340, R347). -/
structure Block where
  bid : Nat
  /-- its block index on the core (R128) -/
  num : Nat
  vd : Nat
  core : Nat
  owner : Owner
  /-- linear index, index at each level, and EXTENT of each level -/
  lin : Nat
  idx : List Nat
  ext : List Nat
  rank : Nat
  nbrs : List Nat
  /-- its scratchpad rows, lowest first -/
  rowStart : Nat
  rowCount : Nat
  groups : List Nat
  bars : Tab Barrier
  /-- the number of its team, and its cluster-barrier arrivals -/
  team : Option Nat
  inRegion : Option Nat
  deriving DecidableEq, Repr

/-- Where a post's core comes from (R150): the thread's own core, VTCORE, RPCCORE, a queue's NCORE or a landing window's. -/
inductive PostSrc where
  | core
  | vtimer
  | rpc
  | queue (q : Nat)
  | landing (ep w : Nat)
  deriving DecidableEq, Repr

/-- A trap or source that has an SVQ entry, or waits for room (R145 to R147). -/
structure SvqPost where
  num : Nat
  core : Nat
  vd : Nat
  entry : Bytes
  /-- the group of its held threads -/
  gid : Option Nat
  /-- the Swage context it stopped -/
  swage : Option Nat
  src : PostSrc
  /-- its place in the ring, once written -/
  idx : Option (BitVec 9)
  deriving DecidableEq, Repr

/-- One supervisor queue (R143, R148): keyed by 16 core + vd. -/
structure Svq where
  base : DWord
  ctx : DWord
  tail : BitVec 9
  head : BitVec 9
  wdog : BitVec 32
  wdFired : Bool
  /-- the cycle the batch timer started; BATCH held by an expired timer -/
  timer : Option Nat
  expired : Bool
  /-- the cycle from which BATCH has been set with no entry taken -/
  batchSince : Option Nat
  deriving DecidableEq, Repr

/-- A mandrel lane's registers (R141, R142). -/
structure Mandrel where
  regs : Vector Word 64
  /-- MIP less BATCH, which is a level -/
  mip : DWord
  mie : DWord
  mtcmp : DWord
  deriving DecidableEq, Repr

/-- Groups, blocks, supervisor queues and mandrel lanes (R131 to R157). -/
structure CoresState where
  groups : List Group
  blocks : List Block
  /-- team number to the phase bit of its cluster barrier (R347) -/
  teams : Tab Bool
  svq : Tab Svq
  posts : List SvqPost
  /-- SVQ_SRVPC and SVQ_SRVCFG by VD (R144) -/
  srvPc : Tab DWord
  srvCfg : Tab DWord
  mandrel : Tab Mandrel
  /-- halted cores with the code or cause (R149, R392) -/
  halted : Tab Nat
  /-- issue cycles granted to a VD in a quarter since its last rotation, at key 64 core + 16 quarter + vd (R138) -/
  issue : Tab Nat
  /-- the next group, block, team and trap number -/
  nextGid : Nat
  nextNum : Nat
  deriving DecidableEq, Repr

/-- States of a region-table entry (R176). -/
inductive WinSt where
  | empty | absent | filling | present | bound | draining | error
  deriving DecidableEq, Repr

/-- A region-table entry (R175, R176), keyed by 256 core + entry. -/
structure Window where
  st : WinSt
  desc : Bytes
  blk : Nat
  vd : Nat
  asid : Nat
  /-- Swage status of a failure (R431) -/
  status : Nat
  deriving DecidableEq, Repr

/-- Work queued for, or running on, a Swage context (R176, R177). -/
structure SwageJob where
  core : Nat
  entry : Nat
  drain : Bool
  /-- the thread whose touch or WIN.RETIRE started it -/
  caller : Option (Nat × Nat)
  vd : Nat
  asid : Nat
  /-- what had reached whoever started it (R190) -/
  know : List Know := []
  deriving DecidableEq, Repr

/-- A Swage context (R177, R179, R215), keyed by 8 cluster + context. -/
structure SwageCtx where
  job : SwageJob
  /-- payload bytes moved -/
  pos : Nat
  /-- where the current block of a compressed source begins, and its bytes read so far -/
  cpos : Nat
  part : Bytes
  /-- the raw stream of a compressed source so far, the current row of an expanding fill, or the payload of a drain with its bounds
  applied -/
  buf : Bytes
  /-- poisoned 4 KiB blocks of the raw stream, or the poisoned bytes of the current row -/
  bad : List Nat
  /-- the entry it stopped for -/
  stopped : Option Nat
  /-- the page whose translation it holds: VA, SPA, and whether it is sealed -/
  held : Option (Nat × Nat × Bool)
  /-- a drain's violations and first offending value; the outliers so far of a K4 fill's tile -/
  viol : Nat
  first : Option (BitVec 64)
  /-- the bound register of a drain as read at its start: ACTION -/
  action : Nat
  deriving DecidableEq, Repr

/-- An Anvil reservation entry (R180, R359 to R367), keyed by 32 cluster + entry. -/
structure AnvilEntry where
  vd : Nat
  gen : Nat
  order : Nat
  core : Nat
  gid : Nat
  tid : Nat
  blk : Nat
  asid : Nat
  /-- the offset of an MXOP's block; or the window's SOFF and swizzle, the tile and the offset of an MXDRAIN -/
  ops : Bytes
  /-- the parameter block and index vector of an MXOP, as read at acceptance -/
  param : Bytes
  mdr : Option MxdrainMod
  /-- the PC of its instruction (R423), and whether ZERO has been done (R364) -/
  pc : DWord
  zeroed : Bool
  /-- passes done, and arbitrations passed over -/
  done : Nat
  passed : Nat
  status : Nat
  /-- what had reached its thread at its issue (R190), the cycle of its issue (R182), and whether its block or index vector was poisoned
  (R240) -/
  know : List Know := []
  issued : Nat := 0
  tainted : Bool := false
  deriving DecidableEq, Repr

/-- One VD's use of an Anvil between passes (R182, R185), keyed by 16 cluster + vd. -/
structure AnvilEngine where
  last : Option Nat
  nextOrder : Nat
  /-- a burst runs; it is ramping down; granted cycles left of a pass, and of filler; passes and granted cycles for which ramp-down
  is withheld -/
  burst : Bool
  down : Bool
  busy : Nat
  filler : Nat
  withheldPasses : Nat
  withheldCycles : Nat
  deriving DecidableEq, Repr

/-- A collective context: its descriptor and the work that posted it (R371 to R374). -/
structure CollCtx where
  cid : Nat
  vd : Nat
  asid : Nat
  owner : Owner
  core : Nat
  desc : Bytes
  /-- its context of the engine; without one it waits in its VD's post queue -/
  ctx : Option Nat
  /-- beats its data take and those granted so far (R120), and the matched posts of the other ranks once they are known -/
  need : Nat
  beats : Nat
  peers : Option CollPeers
  /-- what had reached the thread that posted it (R190) -/
  know : List Know := []
  /-- once it has run: its status, and the address, bytes and poison still to be written to DST (R374) -/
  out : Option (Nat × Nat × Bytes × List Bool) := none
  deriving DecidableEq, Repr

/-- A bound register (R233), keyed by 512 core + 32 vd + b. -/
structure Bound where
  count : BitVec 32
  i32 : Bool
  nanp : Bool
  action : BitVec 2
  lo : BitVec 32
  hi : BitVec 32
  deriving DecidableEq, Repr

/-- L1 way registers of one VD (R160). -/
structure WayRegs where
  ways : DWord
  reason : BitVec 8
  refused : Bool
  busy : Bool
  /-- segments still to be surrendered -/
  leaving : DWord
  next : DWord
  deriving DecidableEq, Repr

/-- On-core and cluster storage and its engines (R158 to R168, R175 to R185, R233). -/
structure LocState where
  /-- register words at key 131,072 core + 32,768 quarter + 64 row + lane -/
  rows : Tab Word
  /-- local SRAM words at key 131,072 core + word -/
  sram : Tab Word
  /-- poisoned 32-byte units of SRAM at key 16,384 core + unit -/
  sramPoison : List Nat
  /-- accumulator words at key 65,536 cluster + 4,096 tile + 64 row + column -/
  tiles : Tab Word
  /-- the error-feedback residue of each tile, in the same numbering (R367) -/
  residue : Tab Word
  /-- poisoned accumulator rows at key 1,024 cluster + 64 tile + row -/
  tilePoison : List Nat
  windows : Tab Window
  swage : Tab SwageCtx
  /-- queued work by cluster, oldest first -/
  swageQueue : Tab (List SwageJob)
  /-- last context served, by 16 cluster + vd (R122) -/
  swageLast : Tab Nat
  entries : Tab AnvilEntry
  /-- generation of each entry (R360) -/
  gens : Tab Nat
  engines : Tab AnvilEngine
  /-- threads waiting for an entry, oldest first, at key 16 cluster + vd (R180) -/
  mxQueue : Tab (List (Nat × Nat))
  /-- operand places at key 4 cluster + place: the entry whose B tile it holds and the tile -/
  places : Tab (Nat × Nat)
  colls : List CollCtx
  /-- last collective context served, by VD (R122) -/
  collLast : Tab Nat
  bounds : Tab Bound
  ways : Tab WayRegs
  deriving DecidableEq, Repr

/-- What carries releases to acquires besides memory (R192, R202): the phase in progress and the last complete phase of a named or
cluster barrier, a supervisor-queue post, an Anvil operation, a counter, the work of a launch or task, a launch queue, a queue pair or
block ring, and the stage rings of a die. -/
inductive Chan where
  | bar (bid j : Nat) (complete : Bool)
  | cbar (team : Nat) (complete : Bool)
  | post (num : Nat)
  | anvil (cl handle : Nat)
  | counter (key : Nat)
  | work (o : Owner)
  | launches (vd : Nat)
  | queue (vd q : Nat)
  | ring (vd die : Nat)
  deriving DecidableEq, Repr

/-- Damage done to the DRAM of a stack from outside (R223, R238): a line's or a node's stored bytes and MAC replaced, and ECC errors
that cannot be or are corrected, the last with a syndrome. -/
inductive Harm where
  | line (line : Nat) (stored : Bytes)
  | node (lvl stack node : Nat) (stored : Bytes)
  | ecc (line : Nat)
  | flip (line syndrome : Nat)
  deriving DecidableEq, Repr

/-- A line of an L1 data cache (R162, R211), keyed by 4,096 core + 64 segment + set. -/
structure L1Line where
  vpage : Nat
  vd : Nat
  asid : Nat
  kid : Nat
  spa : Nat
  valid : BitVec 4
  dirty : BitVec 4
  poison : BitVec 4
  /-- colours of the writes in each dirty sector, eight bits a sector -/
  colours : BitVec 32
  /-- the bytes written since their sector was last clean, and who wrote each sector -/
  wr : BitVec 128
  who : List (Nat × Writer)
  data : Bytes
  /-- W and SEAL of the translation it was filled under -/
  w : Bool
  sealedP : Bool
  stamp : Nat
  deriving DecidableEq, Repr

/-- A line of an L2 slice (R169, R170), keyed by 2^20 die + 2^14 slice + 16 set + way. -/
structure L2Line where
  spa : Nat
  vd : Nat
  kid : Nat
  home : Bool
  valid : BitVec 4
  dirty : BitVec 4
  poison : BitVec 4
  colours : BitVec 32
  /-- the bytes written since their sector was last clean, and who wrote each sector: the code-write marks of writes performed in
  this slice and not yet at the MSC (R204) -/
  wr : BitVec 128
  who : List (Nat × Writer)
  data : Bytes
  replica : Bool
  stamp : Nat
  deriving DecidableEq, Repr

/-- A line of the memory-side cache (R171), keyed by 2^25 stack + 16 set + way; its bytes are the memory's. -/
structure MscLine where
  spa : Nat
  vd : Nat
  kid : Nat
  dirty : Bool
  stamp : Nat
  deriving DecidableEq, Repr

/-- A line of an L1 instruction cache (R203, R211), keyed by 2^42 core + line address in its VD and ASID order. -/
structure ILine where
  core : Nat
  vd : Nat
  asid : Nat
  va : Nat
  spa : Nat
  data : Bytes
  deriving DecidableEq, Repr

/-- Scheduled replacement of one VD (R172 to R174): registers, and the entries copied at EN. -/
structure MscSched where
  tbl : DWord
  en : Bool
  loaded : Bool
  refused : Bool
  step : BitVec 16
  /-- CLASS, FIRST, LAST and the frames' line ranges of each entry in use -/
  entries : List (Nat × Nat × Nat × List (Nat × Nat))
  deriving DecidableEq, Repr

/-- A block in the buffer of a flash window (R60, R61). A window is numbered 2^52 ASID + its first page. -/
structure FlashBlock where
  vd : Nat
  win : Nat
  nsid : Nat
  lba : Nat
  data : Bytes
  poisoned : Bool
  stamp : Nat
  deriving DecidableEq, Repr

/-- Memory, its caches, encryption counters, poison and flash (R60, R61, R162 to R174, R204, R221, R223, R239). -/
structure MemState where
  /-- the memory at its point of coherence, by system-physical address -/
  cells : List Host.Cell
  /-- poisoned 32-byte sectors -/
  poison : List Nat
  /-- sectors whose code-write mark is set, with the writes that keep it set -/
  marks : Tab (List Writer)
  /-- damage done to the DRAM and not yet written over -/
  harm : List Harm
  l1 : Tab L1Line
  l2 : Tab L2Line
  msc : Tab MscLine
  l1i : List ILine
  /-- the assay tree: major counters by level and node, minor counters by level and child, and root counters (R221) -/
  major : Tab Nat
  minor : Tab Nat
  roots : Tab Nat
  sched : Tab MscSched
  flash : List FlashBlock
  /-- block fills asked of the storage controller: VD, window, namespace and block -/
  fills : List (Nat × Nat × Nat × Nat)
  /-- the NAND namespaces: bytes at 2^52 nsid + address; an unlisted byte reads 0 -/
  nand : List Host.Cell
  /-- trimmed blocks at key 2^40 nsid + block, whose bytes are free values, with the number of the free value (R62) -/
  trimmed : Tab Nat
  /-- counts accesses, for exact LRU -/
  clock : Nat
  deriving DecidableEq, Repr

/-- The chains of the memory model (R193 to R196), as far as code-write marks depend on them (R204). -/
structure OrdState where
  /-- what has reached each agent besides its own accesses -/
  know : Tab (List Know)
  /-- the release fences in force for a thread's later stores and atomics (R192) -/
  fences : Tab (List Rel)
  /-- releases whose stores a thread has read, each with the number of the access, for its acquires -/
  seen : Tab (List (Nat × Rel))
  /-- stores that carry a release, by 16-byte block: their offset, bytes and release -/
  told : Tab (List (Nat × Bytes × Rel))
  chan : List (Chan × List Rel)
  deriving DecidableEq, Repr

/-- Translation registers of one VD (R206). -/
structure TrnRegs where
  astb : DWord
  uasid : BitVec 8
  s2 : DWord
  deriving DecidableEq, Repr

/-- A cluster TLB entry (R210). -/
structure TlbEntry where
  cluster : Nat
  set : Nat
  way : Nat
  vd : Nat
  asid : Nat
  va : Nat
  size : Nat
  target : Target
  gpa : Nat
  /-- combined permissions, and stage 1's own, to say which stage refuses -/
  r : Bool
  w : Bool
  x : Bool
  u : Bool
  r1 : Bool
  w1 : Bool
  x1 : Bool
  sealedP : Bool
  d1 : Bool
  d2 : Bool
  leaf1 : Nat
  leaf2 : Nat
  /-- each leaf's value when it was read, to tell a leaf that has changed (R216) -/
  raw1 : Nat
  raw2 : Nat
  stamp : Nat
  deriving DecidableEq, Repr

/-- A nested TLB entry (R210). -/
structure NtlbEntry where
  cluster : Nat
  set : Nat
  way : Nat
  vd : Nat
  gpa : Nat
  size : Nat
  target : Target
  r : Bool
  w : Bool
  x : Bool
  d2 : Bool
  leaf2 : Nat
  raw2 : Nat
  stamp : Nat
  deriving DecidableEq, Repr

/-- Frame states (R224). -/
inductive FrSt where
  | free | scrub | owned | solder | shadow | migrating
  deriving DecidableEq, Repr

/-- An entry of the frame ownership table (R224). -/
structure Frame where
  st : FrSt
  owner : Nat
  kid : Nat
  peer : Nat
  link : Nat
  swin : Nat
  leaf : Nat
  deriving DecidableEq, Repr

/-- A solder window (R228). -/
structure Solder where
  en : Bool
  refused : Bool
  busy : Bool
  /-- true: VDB holds the window -/
  holderB : Bool
  vda : BitVec 4
  vdb : BitVec 4
  hseq : BitVec 16
  kid : BitVec 6
  range : DWord
  hwa : DWord
  hwb : DWord
  deriving DecidableEq, Repr

/-- A shadow pool (R231). -/
structure ShdPool where
  pool : DWord
  used : BitVec 16
  count : BitVec 16
  deriving DecidableEq, Repr

/-- A shadow in use: its launch, the shadow frame and the stage-2 leaves redirected. -/
structure Shadow where
  lid : Nat
  vd : Nat
  frame : Nat
  primary : Nat
  leaves : List Nat
  deriving DecidableEq, Repr

/-- A PGMOVE in progress (R218): its thread and destination register, whose page in whose tables, the leaves with their parts' offsets
and their values at step 1, the pieces to copy, the frames that migrate, the cycle it began, and its status once it is done. -/
structure Move where
  gid : Nat
  tid : Nat
  core : Nat
  own : Nat
  d : Opnd
  vd : Nat
  tables : Nat
  dst : Nat
  leaves : List (Nat × Nat × Nat)
  size : Nat
  parts : List (Nat × Nat)
  frames : Nat
  begun : Nat
  status : Option Nat
  deriving DecidableEq, Repr

/-- Translation, keys and frames (R205 to R232). -/
structure TrnState where
  regs : Tab TrnRegs
  tlb : List TlbEntry
  ntlb : List NtlbEntry
  /-- frame entries; an unlisted frame is FREE -/
  fot : Tab Frame
  fotIdx : BitVec 24
  /-- generation of the data key held under each identifier, counted at each allocation and re-key (R220) -/
  keyGen : Tab Nat
  solder : Tab Solder
  pools : Tab ShdPool
  shadows : List Shadow
  /-- flash windows and remote regions mapped by MAP: VD, ASID, first page, pages, source (R60, R75) -/
  windows : List (Nat × Nat × Nat × Nat × MapSource)
  /-- guest-physical pages that a sealed leaf names: VD and page (R219) -/
  sealedPages : List (Nat × Nat)
  moves : List Move
  deriving DecidableEq, Repr

/-- The ring registers of one VD's RAS ring (R236, R237). -/
structure RasRing where
  base : DWord
  tail : BitVec 32
  head : BitVec 32
  drops : BitVec 32
  ovf : Bool
  notify : Bool
  seq : BitVec 64
  deriving DecidableEq, Repr

/-- The RAS engine (R236, R237). -/
structure RasState where
  rings : Tab RasRing
  /-- records that have taken their SEQ and are still to be written, oldest first: VD and bytes -/
  pending : List (Nat × Bytes)
  deriving DecidableEq, Repr

/-- The agent of a step that carries no data of its own. -/
structure Sel where
  vd : Vd
  die : Die
  core : Core
  cl : Cluster
  n : Nat
  k : Nat
  deriving DecidableEq, Repr

/-- The convoy an opcode's step runs for: group, PC and thread indices in ascending order (R134). -/
structure Convoy where
  gid : Nat
  pc : DWord
  tids : List Nat
  deriving DecidableEq, Repr

/-- One turn of the machine: an event, the issue of a group's convoy, the paired slot of one (R135, R259), or the placement slot of a die's
dispatcher (R112), whose placement is chosen when its turn comes. -/
inductive Turn where
  | ev (i : Instr) (sel : Sel)
  | place (die : Nat)
  | issue (gid : Nat)
  | pair (gid : Nat) (pc : DWord) (tids : List Nat)
  deriving DecidableEq, Repr

/-- A message or signal that leaves the package (R29, R38, R51, R69, R78). -/
inductive OutMsg where
  | ue (port : Nat) (dest : Bytes) (corrupt : Bool) (body : Bytes)
  | pcie (ep : Nat) (addr : Nat) (poisoned : Bool) (body : Bytes)
  | msix (ep : Nat) (addr data : Nat)
  | pcieRead (ep : Nat) (unsupported : Bool) (body : Bytes)
  | nack (port : Nat)
  | remoteAccess (port : Nat)
  | debug (body : Bytes)
  deriving DecidableEq, Repr

/-- Where a cycle stands: over, so that the next one begins; begun with a new table in force and its turns not listed yet (R82); or
listed. -/
inductive CyclePhase where
  | over | opened | listed
  deriving DecidableEq, Repr

/-- Time, the turns still to take, inputs from outside, the running convoy, and the model's own counters. -/
structure SchState where
  cycle : Nat
  inputs : List (Instr × Sel)
  todo : List Turn
  ctx : Option Convoy
  sel : Sel
  phase : CyclePhase
  /-- damage that comes to the DRAM from outside, each with the cycle it comes in -/
  damage : List (Nat × Harm)
  /-- counts the free values the model has used: no field of the spec's -/
  free : Nat
  outbox : List OutMsg
  deriving DecidableEq, Repr

/-- The whole machine. -/
structure State where
  pkg : PkgState
  att : AttState
  bdy : BdyState
  net : NetState
  pcie : PcieState
  rpc : RpcState
  vds : VdsState
  lq : LqState
  cores : CoresState
  loc : LocState
  mem : MemState
  ord : OrdState
  trn : TrnState
  ras : RasState
  sch : SchState
  deriving DecidableEq, Repr

/-- Why the machine stops. -/
inductive Fault where
  /-- Raised by an opcode's meaning when no convoy is selected, which no turn of `step` does. Safe: a stop. -/
  | noConvoy
  deriving DecidableEq, Repr

/-- Why an instruction has no next state. -/
inductive Refusal where
  /-- Raised by an arm of `exec` whose instruction has no meaning yet. Safe: a stop. -/
  | notModelled (mnemonic : String)
  deriving DecidableEq, Repr

/-- A VD at cold reset (R79): EMPTY, every field zero. -/
def VdRec.reset : VdRec :=
  { reason := 0, refused := false, priv := false, st := .empty, core := 0, clu := 0, cache := 0, cnt := 0, queue := 0,
    keyValid := false, kid := 0, lend := 0, vtimer := 0, rpc := 0 }

/-- A slice pair at cold reset (R124). -/
def SlicePair.reset : SlicePair :=
  { en := false, refused := false, switching := false, holderB := false, switches := 0, savedA := false, savedB := false,
    vda := 0, vdb := 0, slice := 0, core := 0, clu := 0, saveA := 0, saveB := 0, nextNs := 0,
    stopped := false }

/-- A die's power controller at cold reset (R17). -/
def DiePower.reset : DiePower := { watts := 0, step := 0, since := 0, inEffect := 0, next := none }

/-- No agent. -/
def Sel.none : Sel := { vd := 0, die := 0, core := 0, cl := 0, n := 0, k := 0 }

/-- The machine in cold reset: no rail in tolerance, MOD_RESET_N low, every register at its reset value (R6, R14). -/
def State.reset : State :=
  { pkg :=
      { busGood := false, rails := 0, pwrGood := false, modResetN := false, running := false, bootStat := 0,
        bootFailed := Option.none, bootFailAt := 0, thermAlertN := true, coldResets := 0, secretReadable := true, identityReady := false,
        dies := Vector.replicate 4 DiePower.reset, temps := Vector.replicate 22 0, modWatts := 0, modStep := 0, modSince := 0 }
    att :=
      { meas := Vector.replicate 16 0, xIndex := 0, xBusy := false, xDone := false, xStat := 0, xDig := 0, rBusy := false,
        rDone := false, rStat := 0, rDest := 0, rNonce := 0, queue := [], norOp := 0, norStatus := 0, norBusy := false,
        norDone := false, norRun := Option.none, nAddr := 0, nLen := 0, nBuf := 0, nor := [] }
    bdy :=
      { locked := false, copyB := false, rollback := 0, modPwr := 0, diePwr := Vector.replicate 4 0, tTrip := 110,
        tThrot := 0, peerChk := Vector.replicate 4 false, egrCap := Vector.replicate 4 0, rpcOk := Vector.replicate 2 false,
        maxLog2 := Vector.replicate 2 0, maxWin := Vector.replicate 2 0, polLock := false, hmLock := false, dbgMode := 0,
        egress := [] }
    net := { regs := [], qps := [], domains := [], rxUsed := [], flows := [], lastQ := [], blocked := [], braze := [], remoteOps := [],
             remote := [], remotePoison := [] }
    pcie :=
      { lwd := [], held := [], msixTable := Vector.replicate 2 (BitVec.ofNat 128 (2 ^ 96)),
        msixPending := Vector.replicate 2 false, rpcWin := [] }
    rpc := { vds := [], pending := [], images := [], late := [] }
    vds :=
      { vd := Vector.replicate 16 VdRec.reset, calLast := Vector.replicate 4 0, calForce := Vector.replicate 4 0, lent := [],
        slices := Vector.replicate 4 SlicePair.reset }
    lq :=
      { queues := [], launches := [], counters := [], decs := [], ready := [], tasks := [], gov := [], toggles := [],
        nextId := 1 }
    cores :=
      { groups := [], blocks := [], teams := [], svq := [], posts := [], srvPc := [], srvCfg := [], mandrel := [],
        halted := [], issue := [], nextGid := 832, nextNum := 1 }
    loc :=
      { rows := [], sram := [], sramPoison := [], tiles := [], residue := [], tilePoison := [], windows := [], swage := [],
        swageQueue := [], swageLast := [], entries := [], gens := [], engines := [], mxQueue := [], places := [], colls := [], collLast := [],
        bounds := [], ways := [] }
    mem :=
      { cells := [], poison := [], marks := [], harm := [], l1 := [], l2 := [], msc := [], l1i := [], major := [],
        minor := [], roots := [], sched := [], flash := [], fills := [], nand := [], trimmed := [], clock := 0 }
    ord := { know := [], fences := [], seen := [], told := [], chan := [] }
    trn :=
      { regs := [], tlb := [], ntlb := [], fot := [], fotIdx := 0, keyGen := [], solder := [], pools := [], shadows := [],
        windows := [], sealedPages := [], moves := [] }
    ras := { rings := [], pending := [] }
    sch :=
      { cycle := 0, inputs := [], todo := [], ctx := Option.none, sel := Sel.none, phase := .over, damage := [], free := 0, outbox := [] } }

end Sys2Proof.Machine
end

