-- ==== Sys2Proof/Machine/Bits.lean ====
section
/-! DEFINITION. Bit fields, sign extension, byte order and sparse tables. -/
namespace Sys2Proof.Machine

/-- Bits [hi:lo] of a number (R4). -/
def bits (v hi lo : Nat) : Nat := v / 2 ^ lo % 2 ^ (hi + 1 - lo)

/-- One bit of a number. -/
def bit (v i : Nat) : Bool := v / 2 ^ i % 2 == 1

/-- The number with bits [hi:lo] replaced. -/
def setBits (v hi lo x : Nat) : Nat := v - bits v hi lo * 2 ^ lo + x % 2 ^ (hi + 1 - lo) * 2 ^ lo

/-- The value of the low n bits as a two's-complement number. -/
def sext (n v : Nat) : Int := if v % 2 ^ n < 2 ^ (n - 1) then ((v % 2 ^ n : Nat) : Int) else ((v % 2 ^ n : Nat) : Int) - 2 ^ n

/-- The low n bits of an integer (R8: wrapping where a width is written). -/
def wrap (n : Nat) (v : Int) : Nat := (v % (2 ^ n : Int)).toNat

/-- Saturation to n bits, signed or unsigned. -/
def clampS (n : Nat) (v : Int) : Int := max (-(2 ^ (n - 1) : Int)) (min v (2 ^ (n - 1) - 1))
def clampU (n : Nat) (v : Int) : Int := max 0 (min v (2 ^ n - 1))

/-- The low n bits of a value that is signed or not, as an integer. -/
def toInt (signed : Bool) (n v : Nat) : Int := if signed then sext n v else ((v % 2 ^ n : Nat) : Int)

/-- Little-endian value of a byte string, and the n low bytes of a value (R4). -/
def leNat (b : Bytes) : Nat := wordOfBytes b
def leBytes (n v : Nat) : Bytes := bytesOfNat n v

/-- n bytes from offset o of a string, as a little-endian number; bytes past the end read 0. -/
def field (b : Bytes) (o n : Nat) : Nat := leNat ((b.drop o).take n)

/-- A string with the bytes from offset o replaced. -/
def splice (b : Bytes) (o : Nat) (x : Bytes) : Bytes := b.take o ++ x ++ b.drop (o + x.length)

/-- Number of ones among the low n bits. -/
def popcount : Nat → Nat → Nat
  | 0, _ => 0
  | n + 1, v => v % 2 + popcount n (v / 2)

/-- The indices below n whose bit is set, ascending. -/
def bitList (n v : Nat) : List Nat := (List.range n).filter (fun i => bit v i)

/-- The number whose set bits are the listed indices. -/
def maskOf (l : List Nat) : Nat := l.foldl (fun m i => if bit m i then m else m + 2 ^ i) 0

/-- Bitwise operations on naturals. -/
def nAnd (a b : Nat) : Nat := a &&& b
def nOr (a b : Nat) : Nat := a ||| b
def nXor (a b : Nat) : Nat := a ^^^ b
/-- a with the set bits of b cleared. -/
def nClr (a b : Nat) : Nat := a - (a &&& b)

/-! Sparse tables: entries in rising key order. -/

/-- The entry at a key. -/
def Tab.find {α : Type} : Tab α → Nat → Option α
  | [], _ => none
  | (k, v) :: t, i => if k = i then some v else Tab.find t i

/-- The entry at a key, or the default. -/
def Tab.at {α : Type} (t : Tab α) (d : α) (i : Nat) : α := (Tab.find t i).getD d

/-- The table with an entry written. -/
def Tab.put {α : Type} : Tab α → Nat → α → Tab α
  | [], i, x => [(i, x)]
  | (k, v) :: t, i, x => if i < k then (i, x) :: (k, v) :: t else if i = k then (i, x) :: t else (k, v) :: Tab.put t i x

/-- The table with an entry removed. -/
def Tab.del {α : Type} (t : Tab α) (i : Nat) : Tab α := t.filter (fun e => e.1 != i)

/-- The table with a value written; writing the default removes the entry. -/
def Tab.write {α : Type} [DecidableEq α] (t : Tab α) (d : α) (i : Nat) (x : α) : Tab α :=
  if x = d then Tab.del t i else Tab.put t i x

/-- The entries kept by a test on keys. -/
def Tab.keep {α : Type} (t : Tab α) (f : Nat → Bool) : Tab α := t.filter (fun e => f e.1)

/-- Keys rise strictly and no entry equals the default: the canonical form. -/
def Tab.wf {α : Type} [DecidableEq α] (d : α) : Tab α → Bool
  | [] => true
  | [(_, v)] => v ≠ d
  | (k, v) :: (k', v') :: t => decide (k < k') && v ≠ d && Tab.wf d ((k', v') :: t)

/-- Sets of numbers as strictly rising lists. -/
def setIns : List Nat → Nat → List Nat
  | [], i => [i]
  | k :: t, i => if i < k then i :: k :: t else if i = k then k :: t else k :: setIns t i
def setDel (l : List Nat) (i : Nat) : List Nat := l.filter (fun k => k ≠ i)

/-- Consecutive numbers from a base. -/
def rangeFrom (a n : Nat) : List Nat := (List.range n).map (fun i => a + i)

end Sys2Proof.Machine
end

