-- ==== Sys2Proof/Machine/Ops.lean ====
section
/-! DEFINITION. Named operations over the state: part updates, time, the fields of a VD's quota registers, groups, threads and
registers. -/
namespace Sys2Proof.Machine

/-! One update per part of the state. -/
def State.onPkg (s : State) (f : PkgState → PkgState) : State := { s with pkg := f s.pkg }
def State.onAtt (s : State) (f : AttState → AttState) : State := { s with att := f s.att }
def State.onBdy (s : State) (f : BdyState → BdyState) : State := { s with bdy := f s.bdy }
def State.onNet (s : State) (f : NetState → NetState) : State := { s with net := f s.net }
def State.onPcie (s : State) (f : PcieState → PcieState) : State := { s with pcie := f s.pcie }
def State.onRpc (s : State) (f : RpcState → RpcState) : State := { s with rpc := f s.rpc }
def State.onVds (s : State) (f : VdsState → VdsState) : State := { s with vds := f s.vds }
def State.onLq (s : State) (f : LqState → LqState) : State := { s with lq := f s.lq }
def State.onCores (s : State) (f : CoresState → CoresState) : State := { s with cores := f s.cores }
def State.onLoc (s : State) (f : LocState → LocState) : State := { s with loc := f s.loc }
def State.onMem (s : State) (f : MemState → MemState) : State := { s with mem := f s.mem }
def State.onOrd (s : State) (f : OrdState → OrdState) : State := { s with ord := f s.ord }
def State.onTrn (s : State) (f : TrnState → TrnState) : State := { s with trn := f s.trn }
def State.onRas (s : State) (f : RasState → RasState) : State := { s with ras := f s.ras }
def State.onSch (s : State) (f : SchState → SchState) : State := { s with sch := f s.sch }

/-! Time. -/

/-- Package time in ns (R142, R257): 13 cycles of the 1.3 GHz clock are 10 ns (R3). -/
def nsNow (s : State) : Nat := s.sch.cycle * 10 / 13

/-- Cycles of a duration in ns, rounded up. -/
def cyclesOfNs (n : Nat) : Nat := (n * 13 + 9) / 10

/-- Slot and round of the present cycle (R119). -/
def slotNow (s : State) : Nat := s.sch.cycle / 4 % 64
def roundNow (s : State) : Nat := s.sch.cycle / 256

/-- A free value: the next of the model's sequence, with the state that has used it. -/
def freeValue (s : State) : State × DWord := (s.onSch fun c => { c with free := c.free + 1 }, Config.free s.sch.free)

/-- A turn put before the turns still to take, and one put after them. -/
def State.push (s : State) (t : Turn) : State := s.onSch fun c => { c with todo := t :: c.todo }
def State.queue (s : State) (t : Turn) : State := s.onSch fun c => { c with todo := c.todo ++ [t] }

/-- A message or signal leaves the package. -/
def State.emit (s : State) (m : OutMsg) : State := s.onSch fun c => { c with outbox := c.outbox ++ [m] }

/-! Virtual devices (R79). -/

/-- VD v's registers. -/
def vdRec (s : State) (v : Nat) : VdRec := if h : v < 16 then s.vds.vd[v] else VdRec.reset
def setVd (s : State) (v : Nat) (f : VdRec → VdRec) : State :=
  s.onVds fun x => { x with vd := Vector.ofFn fun i => if i.val = v then f x.vd[i] else x.vd[i] }

def vdRuns (s : State) (v : Nat) : Bool := (vdRec s v).st == .run
def vdState (s : State) (v : Nat) : VdSt := (vdRec s v).st

/-- Fields of VDQ_CORE. -/
def rtCnt (s : State) (v : Nat) : Nat := 8 * bits (vdRec s v).core.toNat 50 45
def rtBase (s : State) (v : Nat) : Nat := 8 * bits (vdRec s v).core.toNat 44 40
def segCnt (s : State) (v : Nat) : Nat := bits (vdRec s v).core.toNat 36 30
def segBase (s : State) (v : Nat) : Nat := bits (vdRec s v).core.toNat 29 24
def rowCnt (s : State) (v : Nat) : Nat := 32 * bits (vdRec s v).core.toNat 20 16
def rowBase (s : State) (v : Nat) : Nat := 32 * bits (vdRec s v).core.toNat 15 12
def slotCnt (s : State) (v : Nat) : Nat := bits (vdRec s v).core.toNat 8 4
def slotBase (s : State) (v : Nat) : Nat := bits (vdRec s v).core.toNat 3 0
/-- Fields of VDQ_CLU. -/
def swgCnt (s : State) (v : Nat) : Nat := bits (vdRec s v).clu.toNat 30 27
def swgBase (s : State) (v : Nat) : Nat := bits (vdRec s v).clu.toNat 26 24
def accCnt (s : State) (v : Nat) : Nat := bits (vdRec s v).clu.toNat 20 16
def accBase (s : State) (v : Nat) : Nat := bits (vdRec s v).clu.toNat 15 12
def rsvCnt (s : State) (v : Nat) : Nat := bits (vdRec s v).clu.toNat 10 5
def rsvBase (s : State) (v : Nat) : Nat := bits (vdRec s v).clu.toNat 4 0
/-- Fields of VDQ_CACHE, VDQ_CNT and VDQ_QUEUE; a threshold or timer of 0 acts as 1 (R79). -/
def mscWays (s : State) (v : Nat) : Nat := bits (vdRec s v).cache.toNat 31 16
def l2Ways (s : State) (v : Nat) : Nat := bits (vdRec s v).cache.toNat 15 0
def mscSchedOk (s : State) (v : Nat) : Bool := bit (vdRec s v).cache.toNat 32
def cntCnt (s : State) (v : Nat) : Nat := 256 * bits (vdRec s v).cnt.toNat 16 8
def cntBase (s : State) (v : Nat) : Nat := 256 * bits (vdRec s v).cnt.toNat 7 0
def svqTmr (s : State) (v : Nat) : Nat := max 1 (bits (vdRec s v).queue.toNat 55 48)
def svqThr (s : State) (v : Nat) : Nat := max 1 (bits (vdRec s v).queue.toNat 46 40)
def lqLog2 (s : State) (v : Nat) : Nat := bits (vdRec s v).queue.toNat 39 36
def flBuf (s : State) (v : Nat) : Nat := bits (vdRec s v).queue.toNat 35 20
def rxBuf (s : State) (v : Nat) : Nat := bits (vdRec s v).queue.toNat 19 12
def qpMax (s : State) (v : Nat) : Nat := bits (vdRec s v).queue.toNat 11 0
def isLend (s : State) (v : Nat) : Bool := bit (vdRec s v).lend.toNat 16
def lendMask (s : State) (v : Nat) : Nat := bits (vdRec s v).lend.toNat 15 0
def rpcCore (s : State) (v : Nat) : Nat := bits (vdRec s v).rpc.toNat 9 0
def dataKid (s : State) (v : Nat) : Nat := if v = 0 then 0 else (vdRec s v).kid.toNat

/-- The owner of a calendar slot in a table (R82). -/
def slotOwner (t : Vector DWord 4) (n : Nat) : Nat :=
  if h : n / 16 < 4 then bits (t[n / 16]).toNat (4 * (n % 16) + 3) (4 * (n % 16)) else 0

/-! Cores and their numbers. -/
def dieOfCore (c : Nat) : Nat := c / 208
def clusterOfCore (c : Nat) : Nat := c / 4
def dieOfCluster (q : Nat) : Nat := q / 52
def halted (s : State) (c : Nat) : Bool := (s.cores.halted.find c).isSome

/-! Groups and threads. -/

/-- A thread that does not exist. -/
def Thread.none : Thread :=
  { pc := 0, preds := 0, jpc := 0, jarr := false, age := 0, st := .exited, tok := 0, pend := 0, ctok := false, cpend := false, carr := 0,
    token := Option.none, usr := 0, entry := false }

def findGroup (s : State) (gid : Nat) : Option Group := s.cores.groups.find? (fun g => g.gid == gid)
def setGroup (s : State) (g : Group) : State :=
  s.onCores fun c => { c with groups := c.groups.map (fun x => if x.gid = g.gid then g else x) }
def onGroup (s : State) (gid : Nat) (f : Group → Group) : State :=
  s.onCores fun c => { c with groups := c.groups.map (fun x => if x.gid = gid then f x else x) }
def Group.thread (g : Group) (t : Nat) : Thread := g.threads.getD t Thread.none
def Group.onThread (g : Group) (t : Nat) (f : Thread → Thread) : Group :=
  { g with threads := g.threads.mapIdx (fun i x => if i = t then f x else x) }
def onThread (s : State) (gid t : Nat) (f : Thread → Thread) : State := onGroup s gid (fun g => g.onThread t f)

/-- The threads of a group that have not exited, ascending. -/
def Group.live (g : Group) : List Nat := (List.range g.threads.length).filter (fun t => (g.thread t).st != .exited)

def findBlock (s : State) (bid : Nat) : Option Block := s.cores.blocks.find? (fun b => b.bid == bid)
def onBlock (s : State) (bid : Nat) (f : Block → Block) : State :=
  s.onCores fun c => { c with blocks := c.blocks.map (fun x => if x.bid = bid then f x else x) }
def blockOf (s : State) (g : Group) : Option Block := findBlock s g.blk

def findLaunch (s : State) (lid : Nat) : Option Launch := s.lq.launches.find? (fun l => l.lid == lid)
def onLaunch (s : State) (lid : Nat) (f : Launch → Launch) : State :=
  s.onLq fun q => { q with launches := q.launches.map (fun x => if x.lid = lid then f x else x) }
def findTask (s : State) (tid : Nat) : Option Task := s.lq.tasks.find? (fun t => t.tid == tid)
def onTask (s : State) (tid : Nat) (f : Task → Task) : State :=
  s.onLq fun q => { q with tasks := q.tasks.map (fun x => if x.tid = tid then f x else x) }

/-! Registers (R158, R252, R141). -/

/-- Mandrel registers of a core. -/
def Mandrel.reset : Mandrel := { regs := Vector.replicate 64 0, mip := 0, mie := 0, mtcmp := BitVec.allOnes 64 }
def mandrelOf (s : State) (c : Nat) : Mandrel := s.cores.mandrel.at Mandrel.reset c
def onMandrel (s : State) (c : Nat) (f : Mandrel → Mandrel) : State :=
  s.onCores fun x => { x with mandrel := x.mandrel.put c (f (x.mandrel.at Mandrel.reset c)) }

/-- The key of lane l of row r of a quarter in the register rows. -/
def rowKey (core quarter row lane : Nat) : Nat := 131072 * core + 32768 * quarter + 64 * row + lane

/-- R158: where general register j of thread t lies. -/
def Group.regKey (g : Group) (t j : Nat) : Nat :=
  rowKey g.core g.quarter (g.rowBase + (j * g.width + t) / 64) ((j * g.width + t) % 64)

/-- General register j of thread t. -/
def readReg (s : State) (g : Group) (t j : Nat) : Word :=
  if g.mandrel then (mandrelOf s g.core).regs[j]?.getD 0 else s.loc.rows.at 0 (g.regKey t j)
def writeReg (s : State) (g : Group) (t j : Nat) (v : Word) : State :=
  if g.mandrel then onMandrel s g.core (fun m => { m with regs := m.regs.setIfInBounds j v })
  else s.onLoc fun l => { l with rows := l.rows.write 0 (g.regKey t j) v }

/-- Group-uniform register j of the group as the state holds it. -/
def readK (s : State) (g : Group) (j : Nat) : Word := ((findGroup s g.gid).getD g).kregs[j]?.getD 0
def writeK (s : State) (g : Group) (j : Nat) (v : Word) : State :=
  onGroup s g.gid (fun x => { x with kregs := x.kregs.setIfInBounds j v })

/-- Predicate n of a thread (R253): p0 reads as all ones; the mandrel lane's predicates are single bits (R141). -/
def Thread.pred (x : Thread) (n : Nat) : Nat := if n = 0 then 15 else bits x.preds.toNat (4 * n + 3) (4 * n)
def readPred (s : State) (g : Group) (t n : Nat) : Nat := (((findGroup s g.gid).getD g).thread t).pred n
def Thread.setPred (x : Thread) (n v : Nat) : Thread :=
  if n = 0 then x else { x with preds := BitVec.ofNat 64 (setBits x.preds.toNat (4 * n + 3) (4 * n) v) }
def writePred (s : State) (g : Group) (t n v : Nat) : State := onThread s g.gid t (fun x => x.setPred n v)

/-! The slots of a fetch line and the PC (R247). -/
def linOf (pc : Nat) : Nat := pc / 64 * 5 + pc % 8
def pcOfLin (l : Nat) : Nat := l / 5 * 64 + l % 5
def nextPc (pc : DWord) : DWord := BitVec.ofNat 64 (pcOfLin (linOf pc.toNat + 1))

end Sys2Proof.Machine
end

