-- ==== Sys2Proof/Machine/Chains.lean ====
section
/-! DEFINITION. The chains of the memory model (R186, R190 to R196, R201, R202) as far as code-write marks need them: what has reached an
agent, the releases that memory, barriers, posts, completions and counters carry, and path crossings (R204). -/
namespace Sys2Proof.Machine

/-- The agents whose writes set marks, and the path of their accesses in the bit order of R256: LS, or SW of a Swage. -/
def threadAgent (gid tid : Nat) : Nat := 2 * (1024 * gid + tid)
def swageAgent (cl : Nat) : Nat := 2 * cl + 1
def agentPaths (a : Nat) : Nat := if a % 2 = 0 then 1 else 4

/-- R186: do two agents, on their cores, share a scope, thread 0 to SYS 6? A Swage belongs to its cluster and wider. -/
def shares (sc a c b d : Nat) : Bool :=
  match sc with
  | 0 => a == b
  | 1 => a % 2 == 0 && b % 2 == 0 && a / 2048 == b / 2048
  | 2 => a % 2 == 0 && b % 2 == 0 && c == d
  | 3 => clusterOfCore c == clusterOfCore d
  | 4 => dieOfCore c == dieOfCore d
  | _ => true

/-- Does an item of knowledge cover a write to a sector (R194)? -/
def Know.covers (k : Know) (sec : Nat) (w : Writer) : Bool :=
  k.agent == w.agent && decide (w.time ≤ k.upTo) && bit k.cols w.col && decide (k.lo ≤ sec ∧ sec < k.hi)
/-- Does one item say no more than another? -/
def Know.within (x y : Know) : Bool :=
  x.agent == y.agent && decide (x.upTo ≤ y.upTo) && nAnd x.cols y.cols == x.cols && nAnd x.paths y.paths == x.paths
    && decide (y.lo ≤ x.lo ∧ x.hi ≤ y.hi)
/-- An item added to what is known. -/
def addKnow (l : List Know) (k : Know) : List Know := if l.any (k.within ·) then l else l.filter (fun x => !x.within k) ++ [k]

/-- An agent's own accesses so far. -/
def ownKnow (s : State) (a : Nat) : Know := { agent := a, upTo := s.mem.clock, cols := 0xFF, paths := agentPaths a, lo := 0, hi := 2 ^ 64 }
/-- What has reached an agent, its own accesses among it. -/
def knowOf (s : State) (a : Nat) : List Know := addKnow (s.ord.know.at [] a) (ownKnow s a)
/-- An agent is reached by more. -/
def learn (s : State) (a : Nat) (ks : List Know) : State :=
  if ks.isEmpty then s else s.onOrd fun o => { o with know := o.know.put a (ks.foldl addKnow (o.know.at [] a)) }

/-- What a release of an agent covers, by its colour mask (R194). -/
def relOf (s : State) (a core sc mask : Nat) : Rel :=
  { agent := a, core := core, scope := sc, mask := mask
    know := (knowOf s a).filterMap (fun k => if nAnd k.cols mask = 0 then none else some { k with cols := nAnd k.cols mask }) }
/-- R193: can an agent's acquire at a scope meet a release: do both share its scope and the acquire's? -/
def syncs (a core sc : Nat) (r : Rel) : Bool := shares r.scope r.agent r.core a core && shares sc r.agent r.core a core
/-- An acquire of an agent at a scope synchronises with the releases of a list that it can meet. -/
def meet (s : State) (a core sc : Nat) (rs : List Rel) : State := learn s a ((rs.filter (syncs a core sc)).flatMap (·.know))

/-! Memory: a store carries its own release and the release fences in force for its thread (R192), and a read that returns it syncs
them. -/

/-- The number of a location (R188): a byte of memory, of a core's local SRAM, or of another package's memory. -/
def memLoc (spa : Nat) : Nat := spa
def sramLoc (core byte : Nat) : Nat := 2 ^ 64 + core * 2 ^ 19 + byte
def remoteLoc (key : Nat) : Nat := 2 ^ 128 + key

/-- Do bytes at an offset of a block overlap others there and agree with them? -/
def agrees (o : Nat) (b : Bytes) (p : Nat) (c : Bytes) : Bool :=
  decide (o < p + c.length ∧ p < o + b.length)
    && (List.range 16).all (fun i => !decide (o ≤ i ∧ i < o + b.length ∧ p ≤ i ∧ i < p + c.length) || b.getD (i - o) 0 == c.getD (i - p) 0)
/-- The releases that a read of some bytes at a location returns. -/
def heard (s : State) (loc : Nat) (b : Bytes) : List Rel :=
  ((s.ord.told.at [] (loc / 16)).filter (fun e => agrees e.1 e.2.1 (loc % 16) b)).map (·.2.2)
/-- A store of bytes at a location carries releases, and none that an earlier store of the same value carried (R193). -/
def tell (s : State) (loc : Nat) (b : Bytes) (rs : List Rel) : State :=
  let old := s.ord.told.at [] (loc / 16)
  let new := old.filter (fun e => !(e.1 == loc % 16 && e.2.1 == b)) ++ rs.map (fun r => (loc % 16, b, r))
  if rs.isEmpty && old.isEmpty then s else s.onOrd fun o => { o with told := Tab.write o.told [] (loc / 16) new }
/-- The same for an engine's write of any length. -/
def tellAll (s : State) (loc : Nat) (b : Bytes) (rs : List Rel) : State :=
  (List.range ((loc % 16 + b.length + 15) / 16)).foldl (fun s i =>
    let o := if i = 0 then loc else loc / 16 * 16 + 16 * i
    tell s o ((b.drop (o - loc)).take (16 - o % 16)) rs) s
/-- A thread has read a release's store, which its acquires may then meet. -/
def hear (s : State) (a loc : Nat) (b : Bytes) : State :=
  match heard s loc b with
  | [] => s
  | rs => s.onOrd fun o =>
    { o with seen := o.seen.put a ((o.seen.at [] a).filter (fun e => !rs.contains e.2) ++ rs.map (fun r => (s.mem.clock, r))) }
/-- A thread's acquire at a scope of what it has read since access number `since`: of one load, or with 0 of all before a fence. -/
def meetSeen (s : State) (a core sc since : Nat) : State :=
  match s.ord.seen.at [] a with
  | [] => s
  | l =>
    let now := fun (e : Nat × Rel) => decide (since < e.1) && syncs a core sc e.2
    meet (s.onOrd fun o => { o with seen := Tab.write o.seen [] a (l.filter (fun e => !now e)) }) a core sc ((l.filter now).map (·.2))
/-- A release fence of a thread comes into force. -/
def addFence (s : State) (r : Rel) : State :=
  s.onOrd fun o => { o with fences := o.fences.put r.agent ((o.fences.at [] r.agent).filter (fun x => !(x.scope == r.scope && x.mask == r.mask)) ++ [r]) }
/-- The releases a thread's store carries: its fences', and its own at a scope other than 0. -/
def storeRels (s : State) (a core sc : Nat) : List Rel :=
  s.ord.fences.at [] a ++ (if sc = 0 then [] else [relOf s a core sc 0xFF])

/-! What else carries releases. -/

def chanOf (s : State) (c : Chan) : List Rel := ((s.ord.chan.find? (fun e => e.1 == c)).map (·.2)).getD []
def setChan (s : State) (c : Chan) (rs : List Rel) : State :=
  s.onOrd fun o => { o with chan := o.chan.filter (fun e => e.1 != c) ++ (if rs.isEmpty then [] else [(c, rs)]) }
/-- Releases added to a channel; a later one of an agent says all that its earlier one did. -/
def addChan (s : State) (c : Chan) (rs : List Rel) : State :=
  if rs.isEmpty then s
  else setChan s c ((chanOf s c).filter (fun x => !rs.any (fun r => r.agent == x.agent && r.scope == x.scope && r.mask == x.mask)) ++ rs)

/-- What is under way in a channel is complete: its releases pass to the complete side, but for those that count for what follows. -/
def passChan (s : State) (c d : Chan) (stays : Rel → Bool) : State :=
  let rs := chanOf s c
  setChan (setChan s d rs) c (rs.filter stays)

/-- The release of an engine of the package, which shares no scope narrower than PKG with anyone: what the releases of its work carry. -/
def pkgRel (sc : Nat) (rs : List Rel) : Rel :=
  { agent := 2 ^ 32 + 1, core := 2 ^ 32, scope := sc, mask := 0xFF, know := (rs.flatMap (·.know)).foldl addKnow [] }

/-- What has reached an engine on its path gains the paths of a mask (R202). -/
def Know.carry (frm dst : Nat) (k : Know) : Know := if bit k.paths frm then { k with paths := nOr k.paths dst } else k
/-- The release of an engine at a scope with the crossings from its path to those of a mask. -/
def engineRel (sc frm dst : Nat) (rs : List Rel) : Rel := let r := pkgRel sc rs; { r with know := r.know.map (·.carry frm dst) }

/-! Code-write marks and crossings (R204, R195, R196). -/

/-- The write a thread makes now, and one the Swage of a cluster makes. -/
def Writer.thread (s : State) (gid tid col : Nat) : Writer := { agent := threadAgent gid tid, col := col, time := s.mem.clock + 1 }
def Writer.swage (s : State) (cl : Nat) : Writer := { agent := swageAgent cl, col := 0, time := s.mem.clock + 1 }

/-- The writes for which a test of their sector and themselves holds keep a mark set no more. -/
def clearMarks (s : State) (f : Nat → Writer → Bool) : State :=
  s.onMem fun m =>
    { m with
      marks := (m.marks.map (fun e => (e.1, e.2.filter (fun w => !f e.1 w)))).filter (fun e => !e.2.isEmpty)
      l1 := m.l1.map (fun e => (e.1, { e.2 with who := e.2.who.filter (fun x => !f (4 * e.2.spa + x.1) x.2) }))
      l2 := m.l2.map (fun e => (e.1, { e.2 with who := e.2.who.filter (fun x => !f (4 * e.2.spa + x.1) x.2) })) }

/-- R195, R196: a crossing of an agent from a path to the paths of a mask: what has reached it on that path gains those paths, and one
to IF clears the marks of the writes it covers (R204). -/
def cross (s : State) (a frm dst : Nat) : State :=
  let ks := ((knowOf s a).filter (fun k => bit k.paths frm)).map (fun k => { k with paths := nOr k.paths dst })
  let s := learn s a ks
  if bit dst 7 then clearMarks s (fun sec w => ks.any (fun k => k.covers sec w)) else s

/-- The release of a Swage's completion: what had reached the thread that gave it its work (R190) and its own writes, carried from SW to
the paths of a mask (R201, R202). -/
def swageRel (s : State) (cl sc paths : Nat) (ks : List Know) : Rel :=
  { agent := swageAgent cl, core := 4 * cl, scope := sc, mask := 0xFF
    know := (addKnow ks (ownKnow s (swageAgent cl))).map (·.carry 2 paths) }

end Sys2Proof.Machine
end

