-- ==== Sys2Proof/Machine/Crypto.lean ====
section
/-! DEFINITION. SHAKE256 (FIPS 202) and KMAC256 (NIST SP 800-185), as the spec names them (R20, R24, R66). -/
namespace Sys2Proof.Machine

/-! Keccak-f[1600]: five sheets of five lanes, sheet x and row y. -/

abbrev Sheet := List DWord
/-- The lane at x and y, each modulo 5. -/
def laneAt (a : List Sheet) (x y : Nat) : DWord := (a.getD (x % 5) []).getD (y % 5) 0
/-- The state with a given lane at each x and y. -/
def sheets (f : Nat → Nat → DWord) : List Sheet := (List.range 5).map fun x => (List.range 5).map fun y => f x y
/-- The parity of each sheet, its rows added. -/
def parities (a : List Sheet) : Sheet := a.map (List.foldl BitVec.xor 0)

/-- θ: each lane takes in the parities of the two neighbouring sheets. -/
def theta (a : List Sheet) : List Sheet :=
  let p := [parities a]
  sheets fun x y => laneAt a x y ^^^ laneAt p 0 (x + 4) ^^^ (laneAt p 0 (x + 1)).rotateLeft 1

/-- ρ and π in one walk over the lanes but that at 0 0: after `turn` places the walk stands at x y with offset `off`; the lane found
there, rotated, moves to the walk's next place. -/
def walkLanes (a : List Sheet) : Nat → Nat → Nat → Nat → Nat → List ((Nat × Nat) × DWord)
  | 0, _, _, _, _ => []
  | left + 1, turn, x, y, off =>
    let nxt := (y, (2 * x + 3 * y) % 5)
    (nxt, (laneAt a x y).rotateLeft ((off + turn) % 64)) :: walkLanes a left (turn + 1) nxt.1 nxt.2 (off + turn)
def rhoPi (a : List Sheet) : List Sheet :=
  let moved := walkLanes a 24 1 1 0 0
  sheets fun x y => (moved.lookup (x, y)).getD (laneAt a 0 0)

/-- χ: each row against its next two lanes. -/
def chi (a : List Sheet) : List Sheet := sheets fun x y => laneAt a x y ^^^ (laneAt a (x + 2) y &&& ~~~laneAt a (x + 1) y)

/-- The shift register of ι, and the constant of a round with the register after it: bit 2^j − 1 is the register's j-th output. -/
def iotaShift (r : Nat) : Nat := if bit r 7 then nXor (2 * r % 256) 0x71 else 2 * r
def iotaConst (r : Nat) : Nat × Nat :=
  (List.range 7).foldl (fun c j => (c.1 + c.2 % 2 * 2 ^ (2 ^ j - 1), iotaShift c.2)) (0, r)

/-- `n` rounds from a value of the shift register. -/
def keccakRounds : Nat → Nat → List Sheet → List Sheet
  | 0, _, a => a
  | n + 1, r, a =>
    let c := iotaConst r
    let b := chi (rhoPi (theta a))
    keccakRounds n c.2 (sheets fun x y => if x + y = 0 then laneAt b 0 0 ^^^ BitVec.ofNat 64 c.1 else laneAt b x y)
def keccak (a : List Sheet) : List Sheet := keccakRounds 24 1 a

/-! The sponge with rate 136, the first 17 lanes in the order x + 5 y. -/

/-- A block of 136 bytes added to the state. -/
def takeIn (a : List Sheet) (blk : Bytes) : List Sheet := sheets fun x y => laneAt a x y ^^^ BitVec.ofNat 64 (field (blk.take 136) (8 * (x + 5 * y)) 8)
/-- The 136 bytes the state gives out. -/
def giveOut (a : List Sheet) : Bytes := ((List.range 17).map fun i => leBytes 8 (laneAt a i (i / 5)).toNat).flatten
/-- A string under a domain byte, filled up to whole blocks: the domain byte first, the top bit of the last byte set. -/
def sealMsg (dom : Nat) (b : Bytes) : Bytes :=
  let n := (b.length / 136 + 1) * 136
  (List.range n).map fun i =>
    (if i < b.length then b.getD i 0 else if i = b.length then BitVec.ofNat 8 dom else 0) ^^^ (if i + 1 = n then 128 else 0)
/-- The state after a string's next `n` blocks, and the first bytes of `n` blocks of output. -/
def takeAll (m : Bytes) : Nat → List Sheet → List Sheet
  | 0, a => a
  | n + 1, a => takeAll (m.drop 136) n (keccak (takeIn a m))
def giveAll (n : Nat) (a : List Sheet) : Bytes := ((List.range n).foldl (fun (o, a) _ => (o ++ giveOut a, keccak a)) (([] : Bytes), a)).1
def sponge (dom : Nat) (b : Bytes) (n : Nat) : Bytes :=
  let m := sealMsg dom b
  (giveAll (n / 136 + 1) (takeAll m (m.length / 136) (sheets fun _ _ => 0))).take n

/-- SHAKE256 with n bytes of output. -/
def shake256 (b : Bytes) (n : Nat) : Bytes := sponge 0x1F b n

/-! AES-256 (FIPS 197) and GMAC (NIST SP 800-38D), for the lines of DRAM (R220). -/

/-- A product modulo x^8 + x^4 + x^3 + x + 1. -/
def gf8 (a b : Nat) : Nat :=
  ((List.range 8).foldl (fun (z, v) i =>
    (if bit b i then nXor z v else z, if 128 ≤ v then nXor (2 * v - 256) 0x1B else 2 * v)) (0, a)).1
/-- The inverse, the 254th power, and the S-box: its bits spread and the constant added. -/
def gfInv (a : Nat) : Nat := let b := (List.range 6).foldl (fun y _ => gf8 (gf8 y y) a) a; gf8 b b
def sbox (a : Nat) : Nat :=
  let y := gfInv a
  (List.range 5).foldl (fun z i => nXor z ((y * 2 ^ i) % 256 + y * 2 ^ i / 256)) 0x63
def sboxes : List Nat := (List.range 256).map sbox
def subByte (a : Nat) : Nat := sboxes.getD a 0

/-- Four-byte words of the key schedule, from the eight of the key. -/
def roundWords (key : List Nat) : List (List Nat) :=
  (List.range 52).foldl (fun w i =>
    let old := w.getD i []
    let last := w.getD (i + 7) []
    let t := if i % 8 = 0 then ((last.drop 1 ++ last.take 1).map subByte).zipWith nXor [2 ^ (i / 8), 0, 0, 0]
      else if i % 8 = 4 then last.map subByte else last
    w ++ [List.zipWith nXor old t]) ((List.range 8).map (fun i => (key.drop (4 * i)).take 4))

/-- The four bytes of a column mixed. -/
def mixColumn (c : List Nat) : List Nat :=
  (List.range 4).map (fun i => [2, 3, 1, 1].zipIdx.foldl (fun z m => nXor z (gf8 (c.getD ((i + m.2) % 4) 0) m.1)) 0)
/-- AES-256 of a 16-byte block; byte 4 x + y of the state lies in column x and row y. -/
def aes256 (key blk : Bytes) : Bytes :=
  let ws := roundWords (key.map (·.toNat))
  let addKey := fun (st : List Nat) r => List.zipWith nXor st ((ws.drop (4 * r)).take 4).flatten
  let sub := fun (st : List Nat) => (List.range 16).map (fun i => subByte (st.getD ((i + 4 * (i % 4)) % 16) 0))
  let mid := (List.range 13).foldl (fun st r =>
    addKey ((List.range 4).flatMap (fun x => mixColumn (((sub st).drop (4 * x)).take 4))) (r + 1)) (addKey (blk.map (·.toNat)) 0)
  (addKey (sub mid) 14).map (BitVec.ofNat 8)

/-- A product in the field of GHASH, whose first bit is the highest. -/
def ghashMul (x y : Nat) : Nat :=
  ((List.range 128).foldl (fun (z, v) i =>
    (if bit x (127 - i) then nXor z v else z, if v % 2 = 1 then nXor (v / 2) (0xE1 * 2 ^ 120) else v / 2)) (0, y)).1
/-- A string as a number, its first byte highest. -/
def beNat (b : Bytes) : Nat := leNat b.reverse
/-- GMAC of a string of whole blocks, from the pre-counter block. -/
def gmac (key pre b : Bytes) : Bytes :=
  let h := beNat (aes256 key (List.replicate 16 0))
  let y := (List.range (b.length / 16)).foldl (fun y i => ghashMul (nXor y (beNat ((b.drop (16 * i)).take 16))) h) 0
  let z := ghashMul (nXor y (8 * b.length * 2 ^ 64)) h
  (leBytes 16 (nXor z (beNat (aes256 key pre)))).reverse
/-- Two strings added bit by bit. -/
def xorBytes (a b : Bytes) : Bytes := List.zipWith (· ^^^ ·) a b

/-! KMAC256. -/

/-- Bytes of a number, highest first, at least one. -/
def beMin (v : Nat) : Bytes :=
  let n := (Nat.log2 (max v 1) / 8) + 1
  (leBytes n v).reverse
def leftEncode (v : Nat) : Bytes := leBytes 1 (beMin v).length ++ beMin v
def rightEncode (v : Nat) : Bytes := beMin v ++ leBytes 1 (beMin v).length
def encodeString (b : Bytes) : Bytes := leftEncode (8 * b.length) ++ b
def bytepad (b : Bytes) : Bytes :=
  let x := leftEncode 136 ++ b
  x ++ List.replicate ((136 - x.length % 136) % 136) 0
/-- A text as bytes. -/
def ascii (t : String) : Bytes := t.toList.map (fun c => BitVec.ofNat 8 c.toNat)
/-- KMAC256 of a key, a message, n bytes of output and a customization. -/
def kmac256 (key msg : Bytes) (n : Nat) (cust : Bytes) : Bytes :=
  sponge 0x04 (bytepad (encodeString (ascii "KMAC") ++ encodeString cust) ++ bytepad (encodeString key) ++ msg ++ rightEncode (8 * n)) n

end Sys2Proof.Machine
end

