-- ==== Sys2Proof/Machine/Cache.lean ====
section
/-! DEFINITION. Memory behind the cores: bytes and poison at the point of coherence, the frame check of the MSC (R226), the
MSC's lines and replacement (R171, R174), the assay tree's counters (R221), the L2 slices (R169, R170) and the L1 data caches
(R162 to R164). Every access here lies inside one 32-byte sector. -/
namespace Sys2Proof.Machine

/-! Bytes and poison at the point of coherence; an unlisted byte reads 0, since a line never written reads zeros (R221). -/

def cellAt (m : List Host.Cell) (a : Nat) : Byte := Tab.at m 0 a
/-- The canonical form of a memory: addresses rise strictly, and no byte listed is what an unlisted one reads as. -/
def Memory.wf (m : List Host.Cell) : Bool := Tab.wf 0 m
def cellPut (m : List Host.Cell) (a : Nat) (b : Byte) : List Host.Cell := Tab.write m 0 a b

/-- One byte of memory. -/
def readByte (s : State) (a : Nat) : Byte := cellAt s.mem.cells a
/-- Bytes of memory from an address. -/
def readMem (s : State) (a n : Nat) : Bytes := (List.range n).map (fun i => readByte s (a + i))
def cellsPut (m : List Host.Cell) : Nat → Bytes → List Host.Cell
  | _, [] => m
  | a, b :: bs => cellPut (cellsPut m (a + 1) bs) a b
def writeMem (s : State) (a : Nat) (b : Bytes) : State := s.onMem fun m => { m with cells := cellsPut m.cells a b }

/-- Does a write of n bytes at address a cover the whole sector? -/
def wholeSector (a n : Nat) : Bool := a % 32 == 0 && n == 32

/-- Poison of the sector of an address (R239): a whole write clears or sets it, a partial write leaves it. -/
def sectorPoison (s : State) (a : Nat) : Bool := s.mem.poison.contains (a / 32)
def setPoison (s : State) (a : Nat) (p : Bool) : State :=
  s.onMem fun m => { m with poison := if p then setIns m.poison (a / 32) else setDel m.poison (a / 32) }

/-! Frames (R224, R226). -/

/-- The frames of the package (R224). -/
def frameCount : Nat := 15466496
/-- An unlisted frame. -/
def Frame.free : Frame := { st := .free, owner := 0, kid := 0, peer := 0, link := 0, swin := 0, leaf := 0 }
def frameAt (s : State) (f : Nat) : Frame := s.trn.fot.at Frame.free f
def setFrame (s : State) (f : Nat) (x : Frame) : State := s.onTrn fun t => { t with fot := t.fot.write Frame.free f x }

/-- Why the MSC refuses an access: a SOLDER frame the VD does not hold, or any other case. -/
inductive Deny where
  | solder | other
  deriving DecidableEq, Repr

/-- The key identifier an access of VD v to a line carries: the window's in a solder window, else its data key. -/
def kidFor (s : State) (v spa : Nat) : Nat :=
  let f := frameAt s (spa / 65536)
  if f.st = .solder then f.kid else dataKid s v

/-- R226: the MSC's check of an access. -/
def mscCheck (s : State) (v kid spa : Nat) : Option Deny :=
  let f := frameAt s (spa / 65536)
  match f.st with
  | .owned | .shadow | .migrating => if f.owner = v ∧ f.kid = kid ∧ spa / 65536 < frameCount then none else some .other
  | .solder => if f.owner = v then (if f.kid = kid then none else some .other) else some .solder
  | .free | .scrub => some .other

/-! Where a line lives (R169). -/

/-- The line of an address. -/
def lineOf (a : Nat) : Nat := a / 128
def homeStack (a : Nat) : Nat := nXor (bits a 16 13) (bits a 20 17)
def homeDie (a : Nat) : Nat := homeStack a / 4
def sliceOf (a : Nat) : Nat := 16 * (homeStack a % 4) + bits a 10 7
/-- The stack-local number of a line (R169). -/
def localLine (a : Nat) : Nat := bits a 39 17 * 64 + bits a 12 7

/-! The assay tree (R221). -/

/-- Keys of a node's major counter and of a child's minor counter, by level and stack. -/
def majorKey (lvl stack node : Nat) : Nat := lvl * 2 ^ 36 + stack * 2 ^ 32 + node
def minorKey (lvl stack child : Nat) : Nat := lvl * 2 ^ 40 + stack * 2 ^ 36 + child

/-- The minor counter of the line of an address: 0 when it has not been written since its frame's last scrub. -/
def lineMinor (s : State) (a : Nat) : Nat := s.mem.minor.at 0 (minorKey 0 (homeStack a) (localLine a))
/-- The line's counter C (R221). -/
def lineCounter (s : State) (a : Nat) : Nat :=
  s.mem.major.at 0 (majorKey 0 (homeStack a) (localLine a / 64)) * 128 + lineMinor s a

/-- R221: when a minor counter at 127 would rise, the node's major counter rises and its nonzero minors become 1. -/
def minorWrap (m : MemState) (lvl stack child : Nat) : MemState :=
  { m with
    major := m.major.put (majorKey lvl stack (child / 64)) (m.major.at 0 (majorKey lvl stack (child / 64)) + 1)
    minor := m.minor.map (fun e =>
      if minorKey lvl stack (child / 64 * 64) ≤ e.1 ∧ e.1 < minorKey lvl stack (child / 64 * 64) + 64 then (e.1, 1) else e) }

/-- One write-back counted at a level. -/
def countChild (m : MemState) (lvl stack child : Nat) : MemState :=
  let v := m.minor.at 0 (minorKey lvl stack child)
  if v = 127 then minorWrap m lvl stack child else { m with minor := m.minor.put (minorKey lvl stack child) (v + 1) }

/-- Is damage on the way to a line: to the line itself, or to a node above it? -/
def Harm.onPath (h : Harm) (a : Nat) : Bool :=
  match h with
  | .line l _ | .ecc l | .flip l _ => l == lineOf a
  | .node lvl stack n _ => stack == homeStack a && n == localLine a / 64 ^ (lvl + 1)

/-- A leaf node written to DRAM is counted in the nodes above it and in its root (R221). -/
def countAbove (m : MemState) (k l : Nat) : MemState :=
  let m := countChild m 1 k (l / 64)
  let m := countChild m 2 k (l / 4096)
  let m := countChild m 3 k (l / 262144)
  { m with roots := m.roots.put (32 * k + l / 16777216 % 32) (m.roots.at 0 (32 * k + l / 16777216 % 32) + 1) }

/-- R221: a line written to DRAM raises its minor counter and, above it, the counters of its nodes and its root. -/
def writeBackLine (s : State) (a : Nat) : State :=
  s.onMem fun m =>
    let m := countAbove (countChild m 0 (homeStack a) (localLine a)) (homeStack a) (localLine a)
    { m with harm := m.harm.filter (fun h => !h.onPath a) }

/-! Records offered to the RAS engine by the memory system are queued here and written when the step ends (R237). -/

/-- The ring of a VD at reset: LOG2 and EN are 0. -/
def RasRing.reset : RasRing := { base := 0, tail := 0, head := 0, drops := 0, ovf := false, notify := false, seq := 0 }
def ringOf (s : State) (v : Nat) : RasRing := s.ras.rings.at RasRing.reset v

/-- The fields of a record (R238) less SEQ and TIME, which the engine fills in. -/
structure Rec where
  type : Nat
  sev : Nat
  vd : Nat
  unit : Nat
  addr : Option Nat := none
  pc : Option Nat := none
  tag : Option Nat := none
  data0 : Nat := 0
  data1 : Nat := 0
  deriving DecidableEq, Repr

/-- R238: the 64 bytes of a record. -/
def Rec.bytes (r : Rec) (seq time : Nat) : Bytes :=
  leBytes 2 r.type ++ leBytes 1 r.sev ++ leBytes 1 r.vd ++ leBytes 2 r.unit
    ++ leBytes 2 (r.addr.isSome.toNat + 2 * r.pc.isSome.toNat + 4 * r.tag.isSome.toNat)
    ++ leBytes 8 seq ++ leBytes 8 time ++ leBytes 8 (r.addr.getD 0) ++ leBytes 8 (r.pc.getD 0) ++ leBytes 8 (r.tag.getD 0)
    ++ leBytes 8 r.data0 ++ leBytes 8 r.data1

/-- R237: a record offered to a VD's ring takes the ring's next SEQ and waits to be written. -/
def offerRec (s : State) (v : Nat) (r : Rec) : State :=
  let q := ringOf s v
  s.onRas fun x =>
    { rings := x.rings.put v { q with seq := q.seq + 1 }
      pending := x.pending ++ [(v, r.bytes q.seq.toNat (nsNow s))] }

/-- The SEQ the next record of a VD's ring takes. -/
def nextSeq (s : State) (v : Nat) : Nat := (ringOf s v).seq.toNat

/-- One record to the owner's ring and one to the monitor's, each with its own SEQ. -/
def offerBoth (s : State) (v : Nat) (r : Rec) : State := let s := offerRec s v r; if v = 0 then s else offerRec s 0 r

/-! The MSC (R171, R172, R174, R223). -/

/-- Advance of the access clock, for exact LRU. -/
def tick (s : State) : State := s.onMem fun m => { m with clock := m.clock + 1 }

/-! Line encryption (R220): what DRAM stores of a line and of a node, under their present keys and counters. -/

/-- DK and MK of a key identifier, drawn from the crypto engines' random source at its last allocation or re-key. -/
def dataKey (s : State) (kid : Nat) : Bytes := (List.range 32).map (Config.keyByte kid (s.trn.keyGen.at 0 kid))
def macKey (s : State) (kid : Nat) : Bytes := (List.range 32).map (fun i => Config.keyByte kid (s.trn.keyGen.at 0 kid) (32 + i))
/-- Tj of the line at an address. -/
def tweak (a kid c j : Nat) : Nat := j + 2 ^ 3 * bits a 39 7 + 2 ^ 36 * kid + 2 ^ 42 * (c % 2 ^ 71)
/-- The key identifier a line is encrypted under: its frame's (R224). -/
def lineKid (s : State) (a : Nat) : Nat := (frameAt s (a / 65536)).kid
/-- The 128 bytes of ciphertext of a line. -/
def cipherLine (s : State) (a : Nat) : Bytes :=
  let p := lineOf a * 128
  (List.range 8).flatMap (fun j =>
    xorBytes (readMem s (p + 16 * j) 16) (aes256 (dataKey s (lineKid s a)) (leBytes 16 (tweak p (lineKid s a) (lineCounter s a) j))))
/-- The 64-bit MAC of bytes that R220 gives under a tweak. -/
def mac64 (key : Bytes) (b : Bytes) (t0 : Nat) : Bytes := (gmac key (leBytes 16 (t0 + 2 ^ 113 * 0x7FFF)) (b ++ leBytes 16 t0)).take 8
/-- A line as DRAM stores it: ciphertext and MAC. -/
def sealedLine (s : State) (a : Nat) : Bytes :=
  let c := cipherLine s a
  c ++ mac64 (macKey s (lineKid s a)) c (tweak (lineOf a * 128) (lineKid s a) (lineCounter s a) 0)
/-- The counter of a node of the assay tree: its minor in its parent, or its root. -/
def nodeCounter (s : State) (lvl stack node : Nat) : Nat :=
  if lvl = 3 then s.mem.roots.at 0 (32 * stack + node)
  else s.mem.major.at 0 (majorKey (lvl + 1) stack (node / 64)) * 128 + s.mem.minor.at 0 (minorKey (lvl + 1) stack node)
/-- A node as DRAM stores it: major counter, minor counters, and its MAC under the key of identifier 0 (R221). -/
def sealedNode (s : State) (lvl stack node : Nat) : Bytes :=
  let b := leBytes 8 (s.mem.major.at 0 (majorKey lvl stack node))
    ++ leBytes 56 (((List.range 64).map (fun i => s.mem.minor.at 0 (minorKey lvl stack (64 * node + i)) * 2 ^ (7 * i))).sum)
  b ++ mac64 (macKey s 0) b (tweak (Config.nodeAddr lvl stack node) 0 (nodeCounter s lvl stack node) 0)

/-- The line at a place of a stack (R169). -/
def lineAt (stack l : Nat) : Nat := l / 64 * 1024 + nXor stack (l / 64 % 16) * 64 + l % 64
/-- The lines below a node that have been written since their frame's last scrub. -/
def linesBelow (s : State) (lvl stack node : Nat) : List Nat :=
  (s.mem.minor.filter (fun e => e.1 / 2 ^ 36 == stack && e.1 % 2 ^ 36 / 64 ^ (lvl + 1) == node)).map (fun e => lineAt stack (e.1 % 2 ^ 36))

/-- Poison on all four sectors of a line (R239). -/
def poisonLine (s : State) (line : Nat) : State := [0, 32, 64, 96].foldl (fun s o => setPoison s (line * 128 + o) true) s
/-- R223: a check that fails poisons lines, and a type 0x02 record goes to the owner's ring and the monitor ring. -/
def checkFails (s : State) (a : Nat) (lines : List Nat) (addr kind : Nat) : State :=
  offerBoth (lines.foldl poisonLine s) (frameAt s (a / 65536)).owner
    { type := 0x02, sev := 1, vd := (frameAt s (a / 65536)).owner, unit := 0x0410 + homeStack a, addr := some addr, data0 := kind }

/-- What a read of a damaged line meets: the check of a node on its path, its own check, or an ECC error. -/
def meetHarm (a : Nat) (s : State) (h : Harm) : State :=
  match h with
  | .line _ b => if b = sealedLine s a then s else checkFails s a [lineOf a] (lineOf a * 128) 0
  | .node lvl stack n b =>
    if b = sealedNode s lvl stack n then s else checkFails s a (linesBelow s lvl stack n) (lineAt stack (n * 64 ^ (lvl + 1)) * 128) 1
  | .ecc _ => checkFails s a [lineOf a] (lineOf a * 128) 2
  | .flip _ y =>
    offerRec s 0
      { type := 0x01, sev := 0, vd := (frameAt s (a / 65536)).owner, unit := 0x0410 + homeStack a, addr := some (lineOf a * 128),
        data0 := y }

/-- A DRAM read of a line (R221, R223): a line never written reads zeros without a check; any other is checked, and its nodes. -/
def dramRead (s : State) (a : Nat) : State :=
  if lineMinor s a = 0 then s else (s.mem.harm.filter (fun h => h.onPath a)).foldl (meetHarm a) s

/-- R173: the class and window of the schedule entry that covers a line: the lowest-numbered in use. -/
def schedEntry (q : MscSched) (line : Nat) : Option (Nat × Nat × Nat) :=
  (q.entries.find? (fun e => e.2.2.2.any (fun r => r.1 ≤ line ∧ line < r.1 + r.2))).map (fun e => (e.1, e.2.1, e.2.2.1))

/-- The schedule of a VD at reset. -/
def MscSched.reset : MscSched := { tbl := 0, en := false, loaded := false, refused := false, step := 0, entries := [] }
def schedOf (s : State) (v : Nat) : MscSched := s.mem.sched.at MscSched.reset v

/-- R174: rank of a line under a schedule, with its FIRST for rank 3. -/
def schedRank (q : MscSched) (line : Nat) : Nat × Nat :=
  match schedEntry q line with
  | some (1, first, last) =>
    if last < q.step.toNat then (1, 0) else if first > q.step.toNat then (3, first) else (4, 0)
  | _ => (2, 0)

/-- The least element by a number, the earliest among equals. -/
def leastBy {α : Type} (f : α → Nat) : List α → Option α
  | [] => none
  | x :: t =>
    match leastBy f t with
    | none => some x
    | some y => if f y < f x then some y else some x

/-- The MSC way a VD's fill takes (R163, R171, R174): the lowest invalid way, else the least recently used, else by rank. -/
def mscVictim (s : State) (v base : Nat) : Option Nat :=
  let ws := bitList 16 (mscWays s v)
  match ws.find? (fun w => (s.mem.msc.find (base + w)).isNone) with
  | some w => some w
  | none =>
    let q := schedOf s v
    leastBy (fun w =>
      match s.mem.msc.find (base + w) with
      | none => 0
      | some l =>
        if q.loaded then let r := schedRank q l.spa; r.1 * 2 ^ 17 + (if r.1 = 3 then 65535 - r.2 else 0) else l.stamp) ws

/-- One access to a line at its MSC: a hit renews its stamp; a miss reads DRAM and fills a way of the VD. -/
def mscTouch (s : State) (v kid a : Nat) (write : Bool) : State :=
  let s := tick s
  let base := 2 ^ 25 * homeStack a + 16 * (Config.mscSet (lineOf a) % 131072)
  match (List.range 16).find? (fun w => (s.mem.msc.find (base + w)).any (fun l => l.spa == lineOf a)) with
  | some w =>
    s.onMem fun m =>
      { m with msc := match m.msc.find (base + w) with
        | some l => m.msc.put (base + w) { l with dirty := l.dirty || write, stamp := m.clock }
        | none => m.msc }
  | none =>
    let s := dramRead s a
    match mscVictim s v base with
    | none => if write then writeBackLine s a else s
    | some w =>
      let s := match s.mem.msc.find (base + w) with
        | some l => if l.dirty then writeBackLine s (l.spa * 128) else s
        | none => s
      s.onMem fun m =>
        { m with msc := m.msc.put (base + w) { spa := lineOf a, vd := v, kid := kid, dirty := write, stamp := m.clock } }

/-- What a read of a sector answers: bytes with the sector's poison, or a refusal. -/
abbrev ReadAns := Except Deny (Bytes × Bool)

/-- A read at the MSC by VD v under key kid (R226). -/
def mscRead (s : State) (v kid a n : Nat) : State × ReadAns :=
  match mscCheck s v kid a with
  | some d => (s, .error d)
  | none => let s := mscTouch s v kid a false; (s, .ok (readMem s a n, sectorPoison s a))

/-- A write at the MSC: bytes, and for a whole sector its poison. -/
def mscWrite (s : State) (v kid a : Nat) (b : Bytes) (p : Bool := false) : State × Option Deny :=
  match mscCheck s v kid a with
  | some d => (s, some d)
  | none =>
    let s := mscTouch s v kid a true
    let s := writeMem s a b
    (if wholeSector a b.length then setPoison s a p else if p then setPoison s a true else s, none)

/-- The device's own write in a VD's slot, which no frame check meets (R226): it is made at the MSC, like any other. -/
def devWrite (s : State) (v a : Nat) (b : Bytes) : State := writeMem (mscTouch s v (kidFor s v a) a true) a b

/-! Code-write marks (R204): a mark rises where a write is performed at the L2 or the MSC, where instruction fetches read. -/

/-- Writers added to a list, each once. -/
def addWriters {α : Type} [DecidableEq α] (l ws : List α) : List α := ws.foldl (fun l w => if l.contains w then l else l ++ [w]) l
/-- The mark of a sector set by some writes. -/
def setMark (s : State) (a : Nat) (ws : List Writer) : State :=
  if ws.isEmpty then s else s.onMem fun m => { m with marks := m.marks.put (a / 32) (addWriters (m.marks.at [] (a / 32)) ws) }
/-- The writers of sector k of a line. -/
def whoOf (l : List (Nat × Writer)) (k : Nat) : List Writer := (l.filter (fun x => x.1 == k)).map (·.2)

/-! L2 slices. -/

def l2Base (die a : Nat) : Nat := 2 ^ 20 * die + 2 ^ 14 * sliceOf a + 16 * (Config.l2Set (lineOf a) % 1024)

/-- The way that holds a line of a VD (R169). -/
def l2Find (s : State) (die v kid a : Nat) : Option Nat :=
  (List.range 16).find? (fun w =>
    (s.mem.l2.find (l2Base die a + w)).any (fun l => l.spa == lineOf a && l.vd == v && l.kid == kid))

/-- Sector k of a line's bit vector. -/
def secBit (b : BitVec 4) (k : Nat) : Bool := bit b.toNat k
def setSec (b : BitVec 4) (k : Nat) (x : Bool) : BitVec 4 := BitVec.ofNat 4 (setBits b.toNat k k x.toNat)
/-- Colour set of sector k (R170). -/
def colourSet (c : BitVec 32) (k : Nat) : Nat := bits c.toNat (8 * k + 7) (8 * k)
def addColours (c : BitVec 32) (k cols : Nat) : BitVec 32 :=
  BitVec.ofNat 32 (setBits c.toNat (8 * k + 7) (8 * k) (nOr (colourSet c k) cols))
def clearColour (c : BitVec 32) (k : Nat) : BitVec 32 := BitVec.ofNat 32 (setBits c.toNat (8 * k + 7) (8 * k) 0)

/-- The bytes of a line marked as written: n from offset o; and those of a sector no longer marked. -/
def markBytes (w : BitVec 128) (o n : Nat) : BitVec 128 := w ||| BitVec.ofNat 128 ((2 ^ n - 1) * 2 ^ o)
def clearBytes (w : BitVec 128) (k : Nat) : BitVec 128 := BitVec.ofNat 128 (setBits w.toNat (32 * k + 31) (32 * k) 0)
/-- The written bytes of sector k as runs: offset in the line, and length. A write-back carries them alone, since a location is one
byte (R188, R191). -/
def runsOf (w : BitVec 128) (k : Nat) : List (Nat × Nat) :=
  (rangeFrom (32 * k) 32).foldr (fun i l =>
    if bit w.toNat i then (match l with | (o, n) :: t => if o = i + 1 then (i, n + 1) :: t else (i, 1) :: l | [] => [(i, 1)]) else l) []

/-- The dirty sectors of a non-home line whose colours meet a mask go to the MSC and are clean (R170). -/
def l2Clean (s : State) (key mask : Nat) : State :=
  match s.mem.l2.find key with
  | none => s
  | some l =>
    if l.home then s
    else
      let ks := [0, 1, 2, 3].filter (fun k => secBit l.dirty k && nAnd (colourSet l.colours k) mask != 0)
      let s := ks.foldl (fun s k =>
        let s := (runsOf l.wr k).foldl (fun s r =>
          (mscWrite s l.vd l.kid (l.spa * 128 + r.1) ((l.data.drop r.1).take r.2) (secBit l.poison k)).1) s
        setMark s (l.spa * 128 + 32 * k) (whoOf l.who k)) s
      let l' := ks.foldl (fun l k =>
        { l with dirty := setSec l.dirty k false, colours := clearColour l.colours k, wr := clearBytes l.wr k,
                 who := l.who.filter (fun x => x.1 != k) }) l
      s.onMem fun m => { m with l2 := m.l2.put key l' }

/-- Removes an L2 line, after its dirty sectors have gone to the MSC. -/
def l2Evict (s : State) (key : Nat) : State :=
  let s := l2Clean s key 0xFF
  s.onMem fun m => { m with l2 := m.l2.del key }

/-- The way of the VD a fill takes (R163, R169). -/
def l2Victim (s : State) (v base : Nat) : Option Nat :=
  let ws := bitList 16 (l2Ways s v)
  match ws.find? (fun w => (s.mem.l2.find (base + w)).isNone) with
  | some w => some w
  | none => leastBy (fun w => match s.mem.l2.find (base + w) with | some l => l.stamp | none => 0) ws

/-- A line with no sector valid, put into a way of the VD; none when the VD has no way. -/
def l2Alloc (s : State) (die v kid a : Nat) : State × Option Nat :=
  let base := l2Base die a
  match l2Victim s v base with
  | none => (s, none)
  | some w =>
    let s := l2Evict s (base + w)
    let l : L2Line :=
      { spa := lineOf a, vd := v, kid := kid, home := homeDie a == die, valid := 0, dirty := 0, poison := 0, colours := 0,
        wr := 0, who := [], data := List.replicate 128 0, replica := false, stamp := s.mem.clock }
    (s.onMem fun m => { m with l2 := m.l2.put (base + w) l }, some (base + w))

/-- The line's key, allocated if it is absent. -/
def l2Get (s : State) (die v kid a : Nat) : State × Option Nat :=
  match l2Find s die v kid a with
  | some w => (s.onMem fun m => { m with l2 := match m.l2.find (l2Base die a + w) with
      | some l => m.l2.put (l2Base die a + w) { l with stamp := m.clock + (if 2 ^ 40 ≤ l.stamp then 2 ^ 40 else 0) }
      | none => m.l2 }, some (l2Base die a + w))
  | none => l2Alloc s die v kid a

def onL2 (s : State) (key : Nat) (f : L2Line → L2Line) : State :=
  s.onMem fun m => { m with l2 := match m.l2.find key with | some l => m.l2.put key (f l) | none => m.l2 }

/-- A non-home sector is fetched from the MSC when it is not valid. -/
def l2Fill (s : State) (v kid a key : Nat) : State × Option Deny :=
  match s.mem.l2.find key with
  | none => (s, none)
  | some l =>
    if secBit l.valid (a / 32 % 4) then (s, none)
    else
      match mscRead s v kid (a / 32 * 32) 32 with
      | (s, .error d) => (s, some d)
      | (s, .ok (b, p)) =>
        (onL2 s key (fun l =>
          { l with valid := setSec l.valid (a / 32 % 4) true, poison := setSec l.poison (a / 32 % 4) p,
                   data := splice l.data (a / 32 % 4 * 32) b }), none)

/-- A read at the L2 of a die: home lines are read where the MSC is coherent, non-home lines from the slice (R169). -/
def l2Read (s : State) (die v kid a n : Nat) (replica : Bool := false) : State × ReadAns :=
  let s := tick s
  if homeDie a = die then
    match l2Find s die v kid a with
    | some _ => let s := (l2Get s die v kid a).1; (s, .ok (readMem s a n, sectorPoison s a))
    | none =>
      match mscRead s v kid a n with
      | (s, .error d) => (s, .error d)
      | (s, .ok x) => ((l2Alloc s die v kid a).1, .ok x)
  else
    match mscCheck s v kid a, l2Find s die v kid a with
    | some d, none => (s, .error d)
    | _, _ =>
      match l2Get s die v kid a with
      | (s, none) => mscRead s v kid a n
      | (s, some key) =>
        let s := onL2 s key (fun l => { l with replica := l.replica || replica })
        match l2Fill s v kid a key with
        | (s, some d) => (s, .error d)
        | (s, none) =>
          match s.mem.l2.find key with
          | none => (s, .error .other)
          | some l => (s, .ok ((l.data.drop (a % 128)).take n, secBit l.poison (a / 32 % 4)))

/-- A write at the L2 of a die, of a set of colours; the writes of paths LS and SW that it stands for set the code-write mark (R204). -/
def l2Write (s : State) (die v kid a : Nat) (b : Bytes) (cols : Nat) (ws : List Writer) (p : Bool := false) : State × Option Deny :=
  let s := tick s
  if homeDie a = die then
    match mscWrite s v kid a b p with
    | (s, some d) => (s, some d)
    | (s, none) => (setMark (l2Get s die v kid a).1 a ws, none)
  else
    match mscCheck s v kid a, l2Find s die v kid a with
    | some d, none => (s, some d)
    | _, _ =>
      match l2Get s die v kid a with
      | (s, none) => let r := mscWrite s v kid a b p; (if r.2.isNone then setMark r.1 a ws else r.1, r.2)
      | (s, some key) =>
        match (if wholeSector a b.length then (s, none) else l2Fill s v kid a key) with
        | (s, some d) => (s, some d)
        | (s, none) =>
          let k := a / 32 % 4
          (onL2 s key (fun l =>
            { l with valid := setSec l.valid k true, dirty := setSec l.dirty k true, wr := markBytes l.wr (a % 128) b.length,
                     who := addWriters l.who (ws.map (fun w => (k, w))),
                     poison := if wholeSector a b.length then setSec l.poison k p
                       else if p then setSec l.poison k true else l.poison,
                     colours := addColours l.colours k cols, data := splice l.data (a % 128) b }), none)

/-- Keys of the L2 lines of a die for which a test holds. -/
def l2Keys (s : State) (die : Nat) (f : L2Line → Bool) : List Nat :=
  (s.mem.l2.filter (fun e => e.1 / 2 ^ 20 == die && f e.2)).map (·.1)

/-- R170, release at PKG or SYS: the VD's dirty non-home sectors of the die whose colours meet the mask are written back. -/
def l2Release (s : State) (die v mask : Nat) : State :=
  (l2Keys s die (fun l => l.vd == v && !l.home)).foldl (fun s k => l2Clean s k mask) s

/-- R170, acquire at PKG or SYS: write-back for all colours, then every non-home line of the VD that is no replica (R219) is
invalid. -/
def l2Acquire (s : State) (die v : Nat) : State :=
  let s := l2Release s die v 0xFF
  s.onMem fun m => { m with l2 := m.l2.filter (fun e => !(e.1 / 2 ^ 20 == die && e.2.vd == v && !e.2.home && !e.2.replica)) }

/-! L1 data caches (R162 to R164, R211). -/

def WayRegs.reset : WayRegs := { ways := 0, reason := 0, refused := false, busy := false, leaving := 0, next := 0 }
def waysOf (s : State) (v : Nat) : WayRegs := s.loc.ways.at WayRegs.reset v

/-- The L1 name of an access: core, VD, address space, key and virtual address. -/
structure L1Name where
  core : Nat
  vd : Nat
  asid : Nat
  kid : Nat
  va : Nat
  deriving DecidableEq, Repr

def l1Key (core seg va : Nat) : Nat := 4096 * core + 64 * seg + bits va 12 7

/-- Does a line carry a name? (R162) -/
def L1Line.named (l : L1Line) (n : L1Name) : Bool :=
  l.vd == n.vd && l.asid == n.asid && l.kid == n.kid && l.vpage == n.va / 8192

/-- The key of the line that hits (R162). -/
def l1Find (s : State) (n : L1Name) : Option Nat :=
  ((List.range 64).map (fun g => l1Key n.core g n.va)).find? (fun k => (s.mem.l1.find k).any (fun l => l.named n))

def onL1 (s : State) (key : Nat) (f : L1Line → L1Line) : State :=
  s.onMem fun m => { m with l1 := match m.l1.find key with | some l => m.l1.put key (f l) | none => m.l1 }

/-- The dirty sectors of an L1 line whose colours meet a mask are written through to the die's L2, with their colours. -/
def l1Clean (s : State) (key mask : Nat) : State :=
  match s.mem.l1.find key with
  | none => s
  | some l =>
    let ks := [0, 1, 2, 3].filter (fun k => secBit l.dirty k && nAnd (colourSet l.colours k) mask != 0)
    let s := ks.foldl (fun s k => (runsOf l.wr k).foldl (fun s r =>
      (l2Write s (dieOfCore (key / 4096)) l.vd l.kid (l.spa * 128 + r.1) ((l.data.drop r.1).take r.2) (colourSet l.colours k)
        (whoOf l.who k) (secBit l.poison k)).1) s) s
    onL1 s key (fun l => ks.foldl (fun l k =>
      { l with dirty := setSec l.dirty k false, colours := clearColour l.colours k, wr := clearBytes l.wr k,
               who := l.who.filter (fun x => x.1 != k) }) l)

/-- Eviction (R163): write back, then invalid. -/
def l1Evict (s : State) (key : Nat) : State :=
  let s := l1Clean s key 0xFF
  s.onMem fun m => { m with l1 := m.l1.del key }

/-- R211: before a fill of a physical line under a name, the copies of it under another name in the cluster's L1s go: data lines
written back and invalid, instruction lines invalid. -/
def l1Unname (s : State) (n : L1Name) (line : Nat) : State :=
  let s := ((s.mem.l1.filter (fun e => clusterOfCore (e.1 / 4096) == clusterOfCore n.core && e.2.spa == line
    && !(e.2.named n && e.1 % 64 == bits n.va 12 7))).map (·.1)).foldl l1Evict s
  s.onMem fun m =>
    { m with l1i := m.l1i.filter (fun e => !(clusterOfCore e.core == clusterOfCore n.core && e.spa / 128 == line
        && !(e.vd == n.vd && e.asid == n.asid && e.va / 128 == n.va / 128))) }

/-- The way segment a fill takes (R163): the lowest invalid way of the VD, else its least recently used line of the set. -/
def l1Victim (s : State) (n : L1Name) : Option Nat :=
  let ks := (bitList 64 (waysOf s n.vd).ways.toNat).map (fun g => l1Key n.core g n.va)
  match ks.find? (fun k => (s.mem.l1.find k).isNone) with
  | some k => some k
  | none => leastBy (fun k => match s.mem.l1.find k with | some l => l.stamp | none => 0) ks

/-- The key of the named line, allocated if it misses; none when the VD has no way. -/
def l1Get (s : State) (n : L1Name) (line : Nat) (w sl : Bool) : State × Option Nat :=
  match l1Find s n with
  | some k => (onL1 s k (fun l => { l with stamp := s.mem.clock + (if 2 ^ 40 ≤ l.stamp then 2 ^ 40 else 0) }), some k)
  | none =>
    match l1Victim s n with
    | none => (s, none)
    | some k =>
      let s := l1Unname s n line
      let s := l1Evict s k
      let l : L1Line :=
        { vpage := n.va / 8192, vd := n.vd, asid := n.asid, kid := n.kid, spa := line, valid := 0, dirty := 0, poison := 0,
          colours := 0, wr := 0, who := [], data := List.replicate 128 0, w := w, sealedP := sl, stamp := s.mem.clock }
      (s.onMem fun m => { m with l1 := m.l1.put k l }, some k)

/-- A sector is fetched from the L2 when it is not valid (R163). -/
def l1Fill (s : State) (n : L1Name) (a key : Nat) (sl : Bool) : State × Option Deny :=
  match s.mem.l1.find key with
  | none => (s, none)
  | some l =>
    if secBit l.valid (a / 32 % 4) then (s, none)
    else
      match l2Read s (dieOfCore n.core) n.vd n.kid (a / 32 * 32) 32 sl with
      | (s, .error d) => (s, some d)
      | (s, .ok (b, p)) =>
        (onL1 s key (fun l =>
          { l with valid := setSec l.valid (a / 32 % 4) true, poison := setSec l.poison (a / 32 % 4) p,
                   data := splice l.data (a / 32 % 4 * 32) b }), none)

/-- A load at the core's L1 (R163); with no way it goes to the L2. -/
def l1Read (s : State) (n : L1Name) (a len : Nat) (w sl : Bool) : State × ReadAns :=
  let s := tick s
  match l1Find s n, mscCheck s n.vd n.kid a with
  | none, some d => (s, .error d)
  | _, _ =>
    match l1Get s n (lineOf a) w sl with
    | (s, none) => l2Read s (dieOfCore n.core) n.vd n.kid a len sl
    | (s, some key) =>
      match l1Fill s n a key sl with
      | (s, some d) => (s.onMem (fun m => { m with l1 := match m.l1.find key with
          | some l => if l.valid = 0 then m.l1.del key else m.l1
          | none => m.l1 }), .error d)
      | (s, none) =>
        match s.mem.l1.find key with
        | none => (s, .error .other)
        | some l => (s, .ok ((l.data.drop (a % 128)).take len, secBit l.poison (a / 32 % 4)))

/-- A store at the core's L1 (R163): a whole sector allocates without a fetch, a partial one fetches the sector first. -/
def l1Write (s : State) (n : L1Name) (a : Nat) (b : Bytes) (w : Writer) : State × Option Deny :=
  let s := tick s
  match l1Find s n, mscCheck s n.vd n.kid a with
  | none, some d => (s, some d)
  | _, _ =>
    match l1Get s n (lineOf a) true false with
    | (s, none) => l2Write s (dieOfCore n.core) n.vd n.kid a b (2 ^ w.col) [w]
    | (s, some key) =>
      match (if wholeSector a b.length then (s, none) else l1Fill s n a key false) with
      | (s, some d) => (s, some d)
      | (s, none) =>
        let k := a / 32 % 4
        (onL1 s key (fun l =>
          { l with valid := setSec l.valid k true, dirty := setSec l.dirty k true, w := true,
                   wr := markBytes l.wr (a % 128) b.length, who := addWriters l.who [(k, w)],
                   poison := if wholeSector a b.length then setSec l.poison k false else l.poison,
                   colours := addColours l.colours k (2 ^ w.col), data := splice l.data (a % 128) b }), none)

/-- Keys of a core's L1 lines for which a test holds. -/
def l1Keys (s : State) (f : Nat → L1Line → Bool) : List Nat := (s.mem.l1.filter (fun e => f (e.1 / 4096) e.2)).map (·.1)

/-- Release at CLU or wider: the VD's dirty L1 sectors of the core with a colour in the mask are written through. -/
def l1Release (s : State) (core v mask : Nat) : State :=
  (l1Keys s (fun c l => c == core && l.vd == v)).foldl (fun s k => l1Clean s k mask) s

/-- Acquire at CLU or wider: the VD's L1 lines of the core that are no replicas are invalid, their dirty sectors written back. -/
def l1Acquire (s : State) (core v : Nat) : State :=
  (l1Keys s (fun c l => c == core && l.vd == v && !l.sealedP)).foldl l1Evict s

/-- Every copy of a physical line in every L1 and L2 of the package: dirty sectors written back, then invalid. -/
def flushLine (s : State) (line : Nat) : State :=
  let s := (l1Keys s (fun _ l => l.spa == line)).foldl l1Evict s
  ((s.mem.l2.filter (fun e => e.2.spa == line)).map (·.1)).foldl l2Evict s

/-! Releases and acquires as the caches carry them out (R170, R198, chapter 8). -/

/-- Width of a scope, thread 0 to SYS 6. -/
def scopeRank : Scope → Nat
  | .thread => 0
  | .grp => 1
  | .blk => 2
  | .clu => 3
  | .die => 4
  | .pkg => 5
  | .sys => 6

/-- A release at a scope by an agent of VD v on a core, of the colours in a mask. -/
def release (s : State) (core v : Nat) (sc mask : Nat) : State :=
  let s := if 3 ≤ sc then l1Release s core v mask else s
  if 5 ≤ sc then l2Release s (dieOfCore core) v mask else s

/-- An acquire at a scope. -/
def acquire (s : State) (core v : Nat) (sc : Nat) : State :=
  let s := if 3 ≤ sc then l1Acquire s core v else s
  if 5 ≤ sc then l2Acquire s (dieOfCore core) v else s

/-- A path crossing to the paths of a mask in the bit order of R256: the VD's earlier accesses on the core are performed where those
paths read, the L2 for MX, SW, WK and IF and the MSC for the others. -/
def crossing (s : State) (core v : Nat) (toMask : Nat) : State :=
  let s := if nAnd toMask 0x1FE ≠ 0 then l1Release s core v 0xFF else s
  if nAnd toMask 0x138 ≠ 0 then l2Release s (dieOfCore core) v 0xFF else s

/-! The same by threads of a group, for their own VD's memory and for that which their .USR accesses have reached (R332). -/

def threadVds (s : State) (g : Group) (tids : List Nat) : List Nat :=
  if tids.isEmpty then []
  else (g.vd :: tids.flatMap (fun t => bitList 16 (((findGroup s g.gid).getD g).thread t).usr.toNat)).eraseDups
/-- A release by threads of a group (R192). What it covers goes with the store, fence or channel that carries it. -/
def releaseBy (s : State) (g : Group) (tids : List Nat) (sc mask : Nat) : State :=
  (threadVds s g tids).foldl (fun s v => release s g.core v sc mask) s
/-- What releases of threads at a scope cover. -/
def relsBy (s : State) (g : Group) (tids : List Nat) (sc mask : Nat) : List Rel :=
  tids.map (fun t => relOf s (threadAgent g.gid t) g.core sc mask)
/-- A release fence: in force for every later store and atomic of its threads. -/
def fenceBy (s : State) (g : Group) (tids : List Nat) (sc mask : Nat) : State :=
  (relsBy s g tids sc mask).foldl addFence (releaseBy s g tids sc mask)
/-- A release into a channel. -/
def sendBy (s : State) (g : Group) (tids : List Nat) (sc mask : Nat) (c : Chan) : State :=
  addChan (releaseBy s g tids sc mask) c (relsBy s g tids sc mask)
/-- An acquire by threads of a group, of the releases whose stores they have read since access number `since` (R192, R193). -/
def acquireBy (s : State) (g : Group) (tids : List Nat) (sc since : Nat) : State :=
  tids.foldl (fun s t => meetSeen s (threadAgent g.gid t) g.core sc since)
    ((threadVds s g tids).foldl (fun s v => acquire s g.core v sc) s)
/-- An acquire by threads of a group of the releases of a channel. -/
def recvBy (s : State) (g : Group) (tids : List Nat) (sc : Nat) (c : Chan) : State :=
  let rs := chanOf s c
  tids.foldl (fun s t => meet s (threadAgent g.gid t) g.core sc rs) ((threadVds s g tids).foldl (fun s v => acquire s g.core v sc) s)
/-- A crossing by threads of a group from a path to the paths of a mask (R196). -/
def crossBy (s : State) (g : Group) (tids : List Nat) (frm toMask : Nat) : State :=
  tids.foldl (fun s t => cross s (threadAgent g.gid t) frm toMask)
    ((threadVds s g tids).foldl (fun s v => crossing s g.core v toMask) s)

/-- R190: an instruction that starts an engine's work precedes every access of the work. The dirty lines of its threads go to memory
first, as an eviction may take them at any time, so that whoever acquires the work's completion reads them (R195, R202). -/
def issueWork (s : State) (g : Group) (tids : List Nat) : State := releaseBy s g tids 6 0xFF

/-- R163: the L1 line of a sector that a convoy's stores wholly cover, allocated without a fetch. -/
def l1Claim (s : State) (n : L1Name) (a : Nat) : State :=
  match mscCheck s n.vd n.kid a with
  | some _ => s
  | none =>
    match l1Get (tick s) n (lineOf a) true false with
    | (s, none) => s
    | (s, some key) => onL1 s key (fun l => { l with valid := setSec l.valid (a / 32 % 4) true })

end Sys2Proof.Machine
end

