-- ==== Sys2Proof/Machine/Translate.lean ====
section
/-! DEFINITION. Translation (R205 to R216): walks of both stages, the cluster and nested TLBs, A and D bits, register pages and
flash windows. -/
namespace Sys2Proof.Machine

/-- What an access is, for permission (R209): the privilege tells whose U check applies. -/
structure Acc where
  write : Bool
  fetch : Bool
  /-- needs a U page: a U group or a .USR form -/
  user : Bool
  /-- an S group, which may not fetch from U pages -/
  sup : Bool
  /-- an atomic, which needs R as well as W (R336) -/
  atomic : Bool := false
  deriving DecidableEq, Repr

/-- Why a translation gives no frame: a fault of a stage with its address, a sealed page, or a page being migrated. -/
inductive XErr where
  | page (s2 : Bool) (addr : Nat)
  | prot (s2 : Bool) (addr : Nat)
  | sealedStore (addr : Nat)
  | mig
  deriving DecidableEq, Repr

/-- A stage's answer: where its page starts, its size, its permissions and its leaf. -/
structure Leaf where
  target : Target
  size : Nat
  r : Bool
  w : Bool
  x : Bool
  u : Bool
  sl : Bool
  d : Bool
  /-- the leaf's SPA and the value read, or none for the identity of VD 0 -/
  at? : Option (Nat × Nat)
  deriving DecidableEq, Repr

/-- A translated address. -/
structure Xl where
  target : Target
  gpa : Nat
  w : Bool
  sl : Bool
  deriving DecidableEq, Repr

def TrnRegs.reset : TrnRegs := { astb := 0, uasid := 0, s2 := 0 }
def trnOf (s : State) (v : Nat) : TrnRegs := s.trn.regs.at TrnRegs.reset v

/-- The target at an offset past another. -/
def Target.plus : Target → Nat → Target
  | .spa a, o => .spa (a + o)
  | .flash i n l f, o => .flash i n (l + (f + o) / 4096) ((f + o) % 4096)
  | .remote p h f, o => .remote p h (f + o)
  | .page g, o => .page (g + o)

/-- The network configuration registers of a VD (R35). -/
def NetRegs.reset : NetRegs := { qpt := 0, peer := 0, rkey := 0, pages := 0, stat := 0 }
def netOf (s : State) (v : Nat) : NetRegs := s.net.regs.at NetRegs.reset v

/-- Addresses of the launch-queue page and of a die's governor page, as page bases (R86, R109). -/
def lqPageOf (v : Nat) : Nat := if h : v < 16 then (Config.lqPage ⟨v, h⟩).toNat / 4096 * 4096 % 2 ^ 48 else 0
def govPageOf (v d : Nat) : Nat :=
  if h : v < 16 ∧ d < 4 then (Config.govPage ⟨v, h.1⟩ ⟨d, h.2⟩).toNat / 4096 * 4096 % 2 ^ 48 else 0

/-- R430: does a guest-physical address lie in a register page of the VD? -/
def isRegPage (s : State) (v gpa : Nat) : Bool :=
  let np := (netOf s v).pages.toNat
  decide (np ≤ gpa ∧ gpa < np + 4096 * qpMax s v)
    || gpa / 4096 * 4096 == lqPageOf v || (List.range 4).any (fun d => gpa / 4096 * 4096 == govPageOf v d)

/-- The bytes that writes of a VD have put into a die's L2 line and that are not yet at the MSC, over those read there. -/
def l2Over (s : State) (die v kid a : Nat) (b : Bytes) : Bytes :=
  match (l2Find s die v kid a).bind (fun w => s.mem.l2.find (l2Base die a + w)) with
  | some l => b.mapIdx (fun i x => if bit l.wr.toNat (a % 128 + i) then l.data.getD (a % 128 + i) 0 else x)
  | none => b

/-- A walker's read of 8 bytes on path WK (R209, R213): at the MSC, but for the bytes that the die's own writes hold in its L2, so
that a walk reads every entry that a PTSYNC of its die or of the package has covered, and never one older than it read before (R191). -/
def wkRead (s : State) (cl v spa : Nat) : State × Except Deny Nat :=
  let kid := kidFor s v spa
  match mscRead s v kid spa 8 with
  | (s, .error d) => (s, .error d)
  | (s, .ok (b, _)) => (s, .ok (leNat (l2Over s (dieOfCluster cl) v kid spa b)))

/-- A WK-path atomic OR at the home MSC (R216); copies of the line in the walker's die are first written back. It answers the
value found. -/
def wkOr (s : State) (cl v spa m : Nat) : State × Nat :=
  let kid := kidFor s v spa
  let s := (l2Keys s (dieOfCluster cl) (fun l => l.spa == lineOf spa && !l.home)).foldl l2Evict s
  match mscRead s v kid spa 8 with
  | (s, .error _) => (s, 0)
  | (s, .ok (b, _)) => ((mscWrite s v kid spa (leBytes 8 (nOr (leNat b) m))).1, leNat b)

/-- Bytes a leaf at a level maps (R205). -/
def levelSize (lvl : Nat) : Nat := 2 ^ (12 + 9 * lvl)

/-- R207: is a stage-1 entry read at a level well formed? -/
def s1Ok (e lvl : Nat) : Bool :=
  let leaf := bit e 7
  bits e 58 48 == 0 && !bit e 11
    && (if leaf then decide (lvl ≤ 2) && bits e 47 12 * 4096 % levelSize lvl == 0 && (!bit e 8 || lvl == 0)
        else decide (1 ≤ lvl) && bits e 10 1 == 0)

/-- R208: is a stage-2 entry read at a level well formed? -/
def s2Ok (e lvl : Nat) : Bool :=
  let leaf := bit e 7
  let remote := bits e 49 48 == 1
  bits e 51 50 == 0 && decide (bits e 49 48 ≤ 1) && !bit e 11 && !bit e 9 && !bit e 4
    && (if leaf then
          decide (lvl ≤ 2) && (!bit e 8 || lvl == 0)
            && (if remote then bit e 8 && bits e 15 12 == 0 && decide (bits e 61 52 < 576)
                else bits e 61 52 == 0 && bits e 47 12 * 4096 % levelSize lvl == 0
                  && decide (bits e 47 12 * 4096 + levelSize lvl ≤ 0xEC00000000))
        else decide (1 ≤ lvl) && bits e 10 1 == 0 && bits e 61 48 == 0 && decide (bits e 47 12 * 4096 < 0xEC00000000))

/-- Size and base of a leaf's page, by an address in it: a C64 entry stands for its 64 KiB group, and one that breaks the group
rule for itself (R207). -/
def leafSize (e lvl addr : Nat) : Nat :=
  if bit e 8 && (bits e 49 48 == 1 || bits e 15 12 == bits addr 15 12) then 65536 else levelSize lvl
def leafBase (e lvl addr : Nat) : Nat := bits e 47 12 * 4096 / leafSize e lvl addr * leafSize e lvl addr

/-- R226: the frames a stage-2 walk of a LOCAL leaf permits. -/
def walkPermits (s : State) (v spa : Nat) : Bool :=
  let f := frameAt s (spa / 65536)
  match f.st with
  | .owned | .shadow | .migrating => f.owner == v
  | .solder => f.owner == v || f.peer == v
  | .free | .scrub => false

/-- Stage-2 levels from a table down to the leaf (R209). Stage-2 tables are the monitor's memory. Nothing is installed and A is not
set: that follows a successful walk. -/
def s2Walk (s : State) (cl v gpa table : Nat) : Nat → State × Except XErr Leaf
  | 0 => (s, .error (.page true gpa))
  | n + 1 =>
    match wkRead s cl 0 (table + 8 * bits gpa (12 + 9 * n + 8) (12 + 9 * n)) with
    | (s, .error .solder) => (s, .error (.prot false gpa))
    | (s, .error .other) => (s, .error (.prot true gpa))
    | (s, .ok e) =>
      let at' := table + 8 * bits gpa (12 + 9 * n + 8) (12 + 9 * n)
      if !bit e 0 then (s, .error (.page true gpa))
      else if bit e 7 && bit e 10 then (s, .error .mig)
      else if !s2Ok e n then (s, .error (.page true gpa))
      else if bit e 7 then
        let size := leafSize e n gpa
        let tgt := if bits e 49 48 = 1 then Target.remote (bits e 61 52) (bits e 47 16) 0 else .spa (leafBase e n gpa)
        let okFrame := match tgt with
          | .spa a => walkPermits s v (a + gpa % size)
          | _ => true
        if !okFrame then (s, .error (.page true gpa))
        else
          (s, .ok { target := tgt, size := size, r := bit e 1, w := bit e 2, x := bit e 3, u := true, sl := false,
                    d := bit e 6, at? := some (at', e) })
      else s2Walk s cl v gpa (bits e 47 12 * 4096) n

/-- Sets and ways of the TLBs (R210): a fill takes a way of the VD's L2WAYS, the lowest free, else the least recently used. -/
def tlbWay (ways : Nat) (used : List (Nat × Nat)) : Option Nat :=
  let ws := bitList 16 ways
  match ws.find? (fun w => !(used.any (fun u => u.1 == w))) with
  | some w => some w
  | none => leastBy (fun w => ((used.find? (fun u => u.1 == w)).map (·.2)).getD 0) ws

/-- A nested TLB hit (R210): the set is GPA[18:12]. -/
def NtlbEntry.hits (e : NtlbEntry) (cl v gpa : Nat) : Bool :=
  e.cluster == cl && e.vd == v && e.set == bits gpa 18 12 && e.gpa == gpa / e.size * e.size
/-- A nested TLB fill (R210). -/
def ntlbFill (s : State) (cl v gpa : Nat) (l : Leaf) : State :=
  let set := bits gpa 18 12
  let used := (s.trn.ntlb.filter (fun e => e.cluster == cl && e.set == set)).map (fun e => (e.way, e.stamp))
  match tlbWay (l2Ways s v) used with
  | none => s
  | some w =>
    let s := tick s
    let e : NtlbEntry :=
      { cluster := cl, set := set, way := w, vd := v, gpa := gpa / l.size * l.size, size := l.size, target := l.target, r := l.r,
        w := l.w, x := l.x, d2 := l.d, leaf2 := (l.at?.getD (0, 0)).1,
        raw2 := (l.at?.getD (0, 0)).2, stamp := s.mem.clock }
    s.onTrn fun t =>
      { t with ntlb := e :: t.ntlb.filter (fun x => !(x.cluster == cl && x.set == set && x.way == w)
          && !x.hits cl v gpa) }

/-- A of a leaf that a walk installs, set where it is clear (R216). -/
def setAccessed (s : State) (cl : Nat) (l : Leaf) : State :=
  match l.at? with
  | some (a, raw) => if bit raw 5 then s else (wkOr s cl 0 a 0x20).1
  | none => s

/-- A hit makes its entry the most recently used (R163, R210). -/
def renewNested (s : State) (e : NtlbEntry) : State :=
  let s := tick s
  s.onTrn fun t => { t with ntlb := t.ntlb.map (fun x =>
    if x.cluster = e.cluster ∧ x.set = e.set ∧ x.way = e.way then { x with stamp := s.mem.clock } else x) }

/-- Stage 2 of a guest-physical address (R206, R209): register pages need none, VD 0 may have none, and EN 0 in another VD is a
Page Fault. A cached entry that does not allow the access is walked again, since widening a permission needs no TLBINV (R213). -/
def stage2 (s : State) (cl v gpa : Nat) (allow : Bool → Bool → Bool → Bool) : State × Except XErr Leaf :=
  if isRegPage s v gpa then
    (s, .ok { target := .page (gpa / 4096 * 4096), size := 4096, r := true, w := true, x := false, u := true, sl := false,
              d := true, at? := none })
  else if bit (trnOf s v).s2.toNat 0 = false then
    if v = 0 then
      (s, .ok { target := .spa (gpa / 2 ^ 30 * 2 ^ 30), size := 2 ^ 30, r := true, w := true, x := true, u := true, sl := false,
                d := true, at? := none })
    else (s, .error (.page true gpa))
  else
    match s.trn.ntlb.find? (fun e => e.hits cl v gpa && allow e.r e.w e.x) with
    | some e =>
      (renewNested s e, .ok
        { target := e.target, size := e.size, r := e.r, w := e.w, x := e.x, u := true, sl := false, d := e.d2,
          at? := some (e.leaf2, e.raw2) })
    | none =>
      match s2Walk s cl v gpa (bits (trnOf s v).s2.toNat 63 12 * 4096) 4 with
      | (s, .error e) => (s, .error e)
      | (s, .ok l) => (if allow l.r l.w l.x then ntlbFill (setAccessed s cl l) cl v gpa l else s, .ok l)

/-- A walker's read of a guest-physical table word (R209): R is checked at the stage-2 leaf. -/
def gpaRead (s : State) (cl v gpa : Nat) : State × Except XErr (Nat × Nat) :=
  match stage2 s cl v gpa (fun r _ _ => r) with
  | (s, .error e) => (s, .error e)
  | (s, .ok l) =>
    if !l.r then (s, .error (.prot true gpa))
    else
      match l.target.plus (gpa % l.size) with
      | .spa a =>
        match wkRead s cl v a with
        | (s, .error .solder) => (s, .error (.prot false gpa))
        | (s, .error .other) => (s, .error (.prot true gpa))
        | (s, .ok w) => (s, .ok (w, a))
      | _ => (s, .error (.page true gpa))

/-- Stage-1 levels from a table down to the leaf, be it under migration or not. It answers the entry, its level and the SPA it was
read at. -/
def s1Find (s : State) (cl v va table : Nat) : Nat → State × Except XErr (Nat × Nat × Nat)
  | 0 => (s, .error (.page false va))
  | n + 1 =>
    match gpaRead s cl v (table + 8 * bits va (12 + 9 * n + 8) (12 + 9 * n)) with
    | (s, .error e) => (s, .error e)
    | (s, .ok (e, a)) =>
      if !bit e 0 then (s, .error (.page false va))
      else if bit e 7 && bit e 10 then (s, .ok (e, n, a))
      else if !s1Ok e n then (s, .error (.page false va))
      else if bit e 7 then (s, .ok (e, n, a))
      else s1Find s cl v va (bits e 47 12 * 4096) n

/-- The stage-1 walk of an access (R209), which waits on a leaf with MIG set. -/
def s1Walk (s : State) (cl v va table n : Nat) : State × Except XErr (Nat × Nat × Nat) :=
  match s1Find s cl v va table n with
  | (s, .error e) => (s, .error e)
  | (s, .ok x) => if bit x.1 10 then (s, .error .mig) else (s, .ok x)

/-- R205: bits [63:48] of a virtual address repeat bit 47. -/
def canonical (va : Nat) : Bool := bits va 63 47 == 0 || bits va 63 47 == 2 ^ 17 - 1

/-- The permission check of one stage (R209). -/
def permits (acc : Acc) (r w x : Bool) : Bool := if acc.fetch then x else if acc.write then w && (!acc.atomic || r) else r

/-- The U check of stage 1 (R209): a U group and a .USR form need U, and an S group fetches from no U page. -/
def userOk (acc : Acc) (u : Bool) : Bool := (!acc.user || u) && !(acc.sup && acc.fetch && u)

/-- A full walk of both stages, with the entry it would install (R209, R210). A of a clear stage-1 leaf is set (R216). -/
def walk (s : State) (cl v asid va : Nat) (acc : Acc) : State × Except XErr TlbEntry :=
  match gpaRead s cl v (bits (trnOf s v).astb.toNat 63 12 * 4096 + 8 * asid) with
  | (s, .error e) => (s, .error e)
  | (s, .ok (r, _)) =>
    if !bit r 0 || bits r 63 48 != 0 || bits r 11 1 != 0 then (s, .error (.page false va))
    else
      match s1Walk s cl v va (bits r 47 12 * 4096) 4 with
      | (s, .error e) => (s, .error e)
      | (s, .ok (e, lvl, a)) =>
        if !permits acc (bit e 1) (bit e 2) (bit e 3) || !userOk acc (bit e 4) then (s, .error (.prot false va))
        else
          let gpa := leafBase e lvl va + va % leafSize e lvl va
          match stage2 s cl v gpa (permits acc) with
          | (s, .error e) => (s, .error e)
          | (s, .ok l) =>
            if !permits acc l.r l.w l.x then (s, .error (.prot true gpa))
            else
              let s := if bit e 5 then s else (wkOr s cl v a 0x20).1
              let size := min (leafSize e lvl va) l.size
              (s, .ok
                { cluster := cl, set := va / size % 256, way := 0, vd := v, asid := asid, va := va / size * size, size := size,
                  target := l.target.plus (gpa % l.size / size * size), gpa := gpa / size * size, r := bit e 1 && l.r,
                  w := bit e 2 && l.w, x := bit e 3 && l.x, u := bit e 4, sealedP := bit e 9, d1 := bit e 6, d2 := l.d,
                  leaf1 := a, raw1 := e, leaf2 := (l.at?.getD (0, 0)).1, raw2 := (l.at?.getD (0, 0)).2, r1 := bit e 1, w1 := bit e 2, x1 := bit e 3, stamp := 0 })

/-- A cluster TLB fill (R210). -/
def tlbFill (s : State) (e : TlbEntry) : State :=
  let used := (s.trn.tlb.filter (fun x => x.cluster == e.cluster && x.set == e.set)).map (fun x => (x.way, x.stamp))
  match tlbWay (l2Ways s e.vd) used with
  | none => s
  | some w =>
    let s := tick s
    s.onTrn fun t =>
      { t with tlb := { e with way := w, stamp := s.mem.clock }
          :: t.tlb.filter (fun x => !(x.cluster == e.cluster && x.set == e.set && x.way == w)) }

/-- A cluster TLB hit (R210). -/
def tlbFind (s : State) (cl v asid va : Nat) : Option TlbEntry :=
  s.trn.tlb.find? (fun e => e.cluster == cl && e.vd == v && e.asid == asid && e.va == va / e.size * e.size)

/-- A hit makes its entry the most recently used (R163, R210). -/
def renewTlb (s : State) (e : TlbEntry) : State :=
  let s := tick s
  s.onTrn fun t => { t with tlb := t.tlb.map (fun x =>
    if x.cluster = e.cluster ∧ x.set = e.set ∧ x.way = e.way then { x with stamp := s.mem.clock } else x) }

/-- Does a cluster TLB entry allow an access (R209)? -/
def TlbEntry.allows (e : TlbEntry) (acc : Acc) : Bool := permits acc e.r1 e.w1 e.x1 && userOk acc e.u && permits acc e.r e.w e.x

/-- The cluster's entry for an address: a hit whose permissions allow the access, or a walk (R209, R210). An entry that does not
allow it is removed and the access walks again, since widening a permission needs no TLBINV (R213). -/
def lookup (s : State) (cl v asid va : Nat) (acc : Acc) : State × Except XErr TlbEntry :=
  match (tlbFind s cl v asid va).filter (·.allows acc) with
  | some e => (renewTlb s e, .ok e)
  | none =>
    let s := s.onTrn fun t =>
      { t with tlb := t.tlb.filter (fun e => !(e.cluster == cl && e.vd == v && e.asid == asid && e.va == va / e.size * e.size)) }
    match walk s cl v asid va acc with
    | (s, .error e) => (s, .error e)
    | (s, .ok e) =>
      match e.target with
      | .page _ => (s, .ok e)
      | _ => (tlbFill s e, .ok e)

/-- R216: is a leaf's value V, and equal to what its entry was made from in ADDR and bits [4:1]? -/
def leafSame (v raw : Nat) : Bool := bit v 0 && bits v 47 12 == bits raw 47 12 && bits v 4 1 == bits raw 4 1

/-- R216: D is set in each leaf where it is clear; an entry whose leaf has changed is removed. False asks for another
translation. -/
def setDirty (s : State) (e : TlbEntry) : State × Bool :=
  if e.d1 && e.d2 then (s, true)
  else
    let (s, v1) := if e.d1 then (s, 1) else wkOr s e.cluster e.vd e.leaf1 0x40
    let (s, v2) := if e.d2 then (s, 1) else wkOr s e.cluster 0 e.leaf2 0x40
    let ok1 := e.d1 || leafSame v1 e.raw1
    let ok2 := e.d2 || leafSame v2 e.raw2
    let good := ok1 && ok2
    (s.onTrn fun t =>
      { t with
        tlb := if good then t.tlb.map (fun x => if x.cluster = e.cluster ∧ x.vd = e.vd ∧ x.asid = e.asid ∧ x.va = e.va then
            { x with d1 := true, d2 := true } else x)
          else t.tlb.filter (fun x => !(x.cluster == e.cluster && x.vd == e.vd && x.asid == e.asid && x.va == e.va))
        ntlb := if ok2 then t.ntlb.map (fun x => if x.leaf2 = e.leaf2 ∧ x.vd = e.vd then { x with d2 := true } else x)
          else t.ntlb.filter (fun x => !(x.leaf2 == e.leaf2 && x.vd == e.vd)) }, good)

/-- A range mapped by MAP from flash or from another package (R60, R75) that holds the address. -/
def mapped (s : State) (v asid va : Nat) : Option Target :=
  (s.trn.windows.find? (fun w => w.1 == v && w.2.1 == asid && decide (w.2.2.1 ≤ va / 4096 ∧ va / 4096 < w.2.2.1 + w.2.2.2.1))).map
    (fun w =>
      let o := va - 4096 * w.2.2.1
      match w.2.2.2.2 with
      | .flash n l => Target.flash (w.2.1 * 2 ^ 52 + w.2.2.1) n (l + o / 4096) (o % 4096)
      | .remote p h => .remote p h o
      | .frames g => .page (g + o))

/-- A write through a sealed leaf: the MSC's refusal comes first (R325). -/
def sealedErr (s : State) (v va : Nat) (x : Xl) : XErr :=
  match x.target with
  | .spa a =>
    match mscCheck s v (kidFor s v a) a with
    | none => .sealedStore va
    | some .solder => .prot false va
    | some .other => .prot true x.gpa
  | _ => .sealedStore va

/-- Translation of an access (R205 to R209, R216, R219): a write through a sealed leaf is a Sealed Store, and a write waits for
its D bits. A flash window is read-only (R60). -/
def xlate (s : State) (cl v asid va : Nat) (acc : Acc) : Nat → State × Except XErr Xl
  | 0 => (s, .error (.page false va))
  | fuel + 1 =>
    if !canonical va then (s, .error (.page false va))
    else
      match mapped s v asid va with
      | some (.flash i n l o) =>
        if acc.write || acc.fetch then (s, .error (.prot false va))
        else (s, .ok { target := .flash i n l o, gpa := 0, w := false, sl := false })
      | some t => (s, .ok { target := t, gpa := 0, w := true, sl := false })
      | none =>
        match lookup s cl v asid va acc with
        | (s, .error (.prot false _)) => (s, .error (.prot false va))
        | (s, .error e) => (s, .error e)
        | (s, .ok e) =>
          let r : Xl := { target := e.target.plus (va % e.size), gpa := e.gpa + va % e.size, w := e.w, sl := e.sealedP }
          if acc.write && e.sealedP then (s, .error (sealedErr s v va r))
          else
            if acc.write then
              match setDirty s e with
              | (s, true) => (s, .ok r)
              | (s, false) => xlate s cl v asid va acc fuel
            else (s, .ok r)

/-- Translation with room for one retry (R216). -/
def translate (s : State) (cl v asid va : Nat) (acc : Acc) : State × Except XErr Xl := xlate s cl v asid va acc 2

/-- D of a stage-2 leaf set for a write by guest-physical address (R216): false asks for another translation, the leaf having
changed. -/
def setDirtyS2 (s : State) (v : Nat) (l : Leaf) : State × Bool :=
  match l.at? with
  | none => (s, true)
  | some (q, raw) =>
    if l.d then (s, true)
    else
      let r := wkOr s 0 0 q 0x40
      let ok := leafSame r.2 raw
      (r.1.onTrn fun t =>
        { t with
          ntlb := if ok then t.ntlb.map (fun x => if x.leaf2 = q ∧ x.vd = v then { x with d2 := true } else x)
            else t.ntlb.filter (fun x => !(x.leaf2 == q && x.vd == v)) }, ok)

/-- An engine's translation of a guest-physical address, by a cluster-less agent (R36, R54, R237), with room for retries: the walk
starts in cluster 0, whose TLBs it may use. -/
def gpaXlateF (s : State) (v gpa : Nat) (write : Bool) : Nat → State × Except XErr Nat
  | 0 => (s, .error (.page true gpa))
  | fuel + 1 =>
    match stage2 s 0 v gpa (fun r w _ => if write then w else r) with
    | (s, .error e) => (s, .error e)
    | (s, .ok l) =>
      if (if write then !l.w else !l.r) then (s, .error (.prot true gpa))
      else
        match l.target.plus (gpa % l.size) with
        | .spa a =>
          if write then
            match setDirtyS2 s v l with
            | (s, true) => (s, .ok a)
            | (s, false) => gpaXlateF s v gpa write fuel
          else (s, .ok a)
        | _ => (s, .error (.page true gpa))
def gpaXlate (s : State) (v gpa : Nat) (write : Bool) : State × Except XErr Nat := gpaXlateF s v gpa write 2

/-- Does an address lie in a frame the VD owns (R143, R237)? -/
def ownsFrame (s : State) (v spa : Nat) : Bool :=
  let f := frameAt s (spa / 65536)
  f.owner == v && (f.st == .owned || f.st == .shadow || f.st == .migrating)

/-- The physical address of one that a register names as guest-physical, and as system-physical for VD 0 (R35, R71, R236). -/
def regXlate (s : State) (v a : Nat) (write : Bool) : State × Except XErr Nat :=
  if v = 0 then (s, if ownsFrame s 0 a then .ok a else .error (.page false a)) else gpaXlate s v a write

/-! Removing cached translations (R214). -/

/-- TLB entries and held translations for which a test holds are removed. -/
def dropTlb (s : State) (f : TlbEntry → Bool) : State := s.onTrn fun t => { t with tlb := t.tlb.filter (fun e => !f e) }

/-- Translations that name a frame are removed everywhere, held ones too (R227, R230). -/
def dropFrame (s : State) (f : Nat) : State :=
  let hit : Target → Nat → Bool := fun t size =>
    match t with
    | .spa a => decide (a / 65536 ≤ f ∧ f ≤ (a + size - 1) / 65536)
    | _ => false
  let s := s.onTrn fun t =>
    { t with tlb := t.tlb.filter (fun e => !hit e.target e.size), ntlb := t.ntlb.filter (fun e => !hit e.target e.size) }
  s.onLoc fun l =>
    { l with swage := l.swage.map (fun e =>
        (e.1, if (match e.2.held with | some (_, a, _) => decide (a / 65536 = f) | none => false) then { e.2 with held := none }
          else e.2)) }

end Sys2Proof.Machine
end

