-- ==== Sys2Proof/Machine/Trap.lean ====
section
/-! DEFINITION. RAS records (R237), supervisor-queue posts (R143 to R148), taking a trap in a convoy (R146, R154, R240) and
halting a core (R149, R150). -/
namespace Sys2Proof.Machine

/-! Mandrel interrupt bits (R142). -/

def setMip (s : State) (core b : Nat) : State :=
  onMandrel s core (fun m => { m with mip := BitVec.ofNat 64 (setBits m.mip.toNat b b 1) })
def setMipAll (s : State) (b : Nat) : State := (List.range 832).foldl (fun s c => setMip s c b) s

/-! Supervisor queues. -/

def Svq.reset : Svq :=
  { base := 0, ctx := 0, tail := 0, head := 0, wdog := 0, wdFired := false, timer := none, expired := false, batchSince := none }
def svqKey (core v : Nat) : Nat := 16 * core + v
def svqOf (s : State) (core v : Nat) : Svq := s.cores.svq.at Svq.reset (svqKey core v)
def onSvq (s : State) (core v : Nat) (f : Svq → Svq) : State :=
  s.onCores fun c => { c with svq := c.svq.put (svqKey core v) (f (c.svq.at Svq.reset (svqKey core v))) }

/-- Entries in a queue (R143). -/
def Svq.count (q : Svq) : Nat := (q.tail.toNat + 512 - q.head.toNat) % 512

/-- BATCH of a queue (R148). -/
def batch (s : State) (core v : Nat) : Bool :=
  let q := svqOf s core v
  decide (svqThr s v ≤ q.count) || (decide (1 ≤ q.count) && q.expired)

/-- The cycle at which BATCH rose is kept for the watchdog (R146). -/
def noteBatch (s : State) (core v : Nat) : State :=
  let b := batch s core v
  onSvq s core v (fun q => { q with batchSince := if b then some (q.batchSince.getD s.sch.cycle) else none })

/-- The SPA of a queue's slot, when it translates writable and lies in frames the VD owns and the MSC accepts it (R143). -/
def svqSlot (s : State) (core v i : Nat) : State × Option Nat :=
  let q := svqOf s core v
  match gpaXlate s v (bits q.base.toNat 63 14 * 16384 + 64 * (i % 256)) true with
  | (s, .error _) => (s, none)
  | (s, .ok a) => (s, if ownsFrame s v a && (mscCheck s v (kidFor s v a) a).isNone then some a else none)

/-- Does an earlier source wait on the same queue (R147)? -/
def waitsBefore (s : State) (core v num : Nat) : Bool :=
  s.cores.posts.any (fun p => p.core == core && p.vd == v && p.idx.isNone && decide (p.num < num))

/-- R146: the entry's write is a release at BLK, of all colours, of the earlier accesses of the threads held for it. -/
def postRel (s : State) (num : Nat) : State :=
  s.cores.groups.foldl (fun s g =>
    sendBy s g ((List.range g.threads.length).filter (fun t => match (g.thread t).st with | .held n _ => n == num | _ => false)) 2 0xFF
      (.post num)) s

/-- A post's entry is written when the queue is enabled, has room, its slot can be written and no earlier source waits. The
batch timer starts when the count rises from 0 (R148). -/
def tryPost (s : State) (num : Nat) : State :=
  match s.cores.posts.find? (fun p => p.num == num) with
  | none => s
  | some p =>
    let q := svqOf s p.core p.vd
    if p.idx.isSome || !bit q.base.toNat 0 || q.count == 256 || waitsBefore s p.core p.vd num || halted s p.core then s
    else
      match svqSlot s p.core p.vd q.tail.toNat with
      | (s, none) => s
      | (s, some a) =>
        let s := (mscWrite s p.vd (kidFor s p.vd a) a (p.entry.take 32)).1
        let s := postRel (mscWrite s p.vd (kidFor s p.vd a) (a + 32) (p.entry.drop 32)).1 num
        let s := s.onCores fun c =>
          { c with
            posts := c.posts.map (fun x => if x.num = num then { x with idx := some q.tail } else x)
            groups := c.groups.map (fun g => if some g.gid = p.gid then
              { g with threads := g.threads.map (fun t => if t.st = .held num false then { t with st := .held num true } else t) }
              else g) }
        let s := onSvq s p.core p.vd (fun q =>
          { q with tail := q.tail + 1, timer := if q.count = 0 then some s.sch.cycle else q.timer })
        noteBatch s p.core p.vd

/-- A new post to a queue, written at once when it can be, and otherwise waiting (R146, R147). It answers the post's number. -/
def post (s : State) (core v : Nat) (entry : Bytes) (gid swage : Option Nat) (src : PostSrc := .core) : State × Nat :=
  let num := s.cores.nextNum
  let s := s.onCores fun c =>
    { c with
      nextNum := num + 1
      posts := c.posts ++ [{ num := num, core := core, vd := v, entry := entry, gid := gid, swage := swage, src := src, idx := none }] }
  (tryPost s num, num)

/-- The bytes of an SVQ entry (R145). -/
def svqEntry (cause flags srcVd w qslot lane pc addr lmask : Nat) (arg : Bytes) (asid : Nat) : Bytes :=
  leBytes 1 cause ++ leBytes 1 flags ++ leBytes 1 srcVd ++ leBytes 1 w ++ leBytes 1 qslot ++ leBytes 1 lane ++ leBytes 2 0
    ++ leBytes 8 pc ++ leBytes 8 addr ++ leBytes 8 lmask ++ (arg ++ List.replicate 28 0).take 28 ++ leBytes 4 asid

/-- A post by a direct source (R83): no caller. -/
def postDirect (s : State) (core v cause addr : Nat) (arg : Bytes) (src : PostSrc) (asid : Nat := 0) : State :=
  (post s core v (svqEntry cause 0 v 0 0xFF 0 0 addr 0 arg asid) none none src).1

/-- R150: the monitor names another core for a source of VD v: what waits for a halted core posts there instead. -/
def movePosts (s : State) (v : Nat) (src : PostSrc) (core : Nat) : State :=
  let l := s.cores.posts.filter (fun p => p.vd == v && p.src == src && p.idx.isNone && halted s p.core && p.core != core)
  let s := s.onCores fun c => { c with posts := c.posts.map (fun p => if l.any (fun x => x.num == p.num) then { p with core := core } else p) }
  l.foldl (fun s p => tryPost s p.num) s

/-! The RAS engine. -/

/-- R237: the record at the head of the pending ones is written or dropped. -/
def writeRec (s : State) (v : Nat) (b : Bytes) : State :=
  let q := ringOf s v
  let lg := bits q.base.toNat 6 2
  let drop : State → State := fun s =>
    let q := ringOf s v
    s.onRas fun x => { x with rings := x.rings.put v { q with drops := if q.drops = BitVec.allOnes 32 then q.drops else q.drops + 1,
                                                              ovf := true } }
  if bit q.base.toNat 0 = false ∨ (q.tail - q.head).toNat = 2 ^ lg then drop s
  else
    let gpa := bits q.base.toNat 63 12 * 4096 + 64 * (q.tail.toNat % 2 ^ lg)
    match regXlate s v gpa true with
    | (s, .error _) => drop s
    | (s, .ok a) =>
      if ownsFrame s v a && (mscCheck s v (kidFor s v a) a).isNone then
        let s := (mscWrite s v (kidFor s v a) a (b.take 32)).1
        let s := (mscWrite s v (kidFor s v a) (a + 32) (b.drop 32)).1
        let s := s.onRas fun x => { x with rings := x.rings.put v { ringOf s v with tail := q.tail + 1 } }
        let s := if v = 0 then setMipAll s 4 else setMip s (rpcCore s v) 3
        if q.notify then postDirect s (if v = 0 then 0 else rpcCore s v) v 0x24 q.tail.toNat [] .rpc else s
      else drop s

/-- Records written in order, as many as are pending when it starts. -/
def flushRecs (s : State) : State :=
  let l := s.ras.pending
  let s := s.onRas fun x => { x with pending := [] }
  l.foldl (fun s e => writeRec s e.1 e.2) s

/-! Traps. -/

/-- A trap of one thread (R145, R146). `page` is the 4 KiB page of a memory access fault, whose entries are made by cause and page;
`each` marks a SYSCALL, which has an entry per thread. -/
structure Trap where
  cause : Nat
  addr : Nat := 0
  arg : Bytes := []
  s2 : Bool := false
  write : Bool := false
  fetch : Bool := false
  page : Option Nat := none
  each : Bool := false
  /-- the poisoned line of a Machine Check, where there is one (R238), and the flash-window block it consumed (R61) -/
  line : Option Nat := none
  flash : Option (Nat × Nat × Nat × Nat) := none
  /-- for a Machine Check whose record is already written (R246): its SEQ in the owner's ring -/
  seq : Option Nat := none
  deriving DecidableEq, Repr

def illegal (w : Bytes) : Trap := { cause := 0x02, arg := w }
def privilege (w : Bytes) : Trap := { cause := 0x05, arg := w }
/-- The trap of a failed translation, of an access of n bytes at an address. A page being migrated gives cause 0, which is no
trap: the thread waits (R209). -/
def xerrTrap (e : XErr) (va n : Nat) (write fetch : Bool) : Trap :=
  match e with
  | .page s2 a => { cause := 0x06, addr := a, arg := leBytes 4 n, s2 := s2, write := write, fetch := fetch, page := some (a / 4096) }
  | .prot s2 a => { cause := 0x07, addr := a, arg := leBytes 4 n, s2 := s2, write := write, fetch := fetch, page := some (a / 4096) }
  | .sealedStore _ => { cause := 0x08, addr := va, write := write, page := some (va / 4096) }
  | .mig => { cause := 0, addr := va, page := some (va / 4096) }
/-- R226: the trap of an access the MSC refuses; with STAGE2 its address is guest-physical, as a Page Fault's is (R145). -/
def denyTrap (d : Deny) (va gpa n : Nat) (write : Bool) (fetch : Bool := false) : Trap :=
  let a := if d == .other then gpa else va
  { cause := 0x07, addr := a, arg := leBytes 4 n, s2 := d == .other, write := write, fetch := fetch, page := some (a / 4096) }
def misaligned (va n : Nat) (write : Bool) : Trap :=
  { cause := 0x09, addr := va, arg := leBytes 4 n, write := write, page := some (va / 4096) }
/-- R240: poison consumed; the address is the line's SPA, or 0 where no line of memory holds it. A memory access names its page. -/
def machineCheck (line page : Option Nat) : Trap := { cause := 0x0E, addr := line.getD 0, line := line, page := page }

/-- Stops the work a trap or a halt ends: its LAUNCH_KILL turn comes next, and `seq` is the causing record's (R241). -/
def startKill (s : State) (v : Nat) (o : Owner) (seq : Nat) : State :=
  match o with
  | .launch lid =>
    match findLaunch s lid with
    | some l =>
      if l.killing.isSome then s
      else
        let s := onLaunch s lid (fun l => { l with killing := some seq })
        if h : v < 16 then s.push (.ev (.launchKill ⟨v, h⟩ (.launch lid)) Sel.none) else s
    | none => s
  | .task tid =>
    match findTask s tid with
    | some t =>
      if t.killing.isSome then s
      else
        let s := onTask s tid (fun t => { t with killing := some seq })
        if h : v < 16 then s.push (.ev (.launchKill ⟨v, h⟩ (.task tid)) Sel.none) else s
    | none => s
  | .server | .monitor => s

/-- R149, R150: a core halts with a cause; a type 0x07 record goes to the monitor ring, and every launch and task with a group
there is killed for it. -/
def haltCore (s : State) (core pc cause : Nat) : State :=
  if halted s core then s
  else
    let seq := nextSeq s 0
    let s := offerRec s 0 { type := 0x07, sev := 3, vd := 0, unit := core, pc := some pc, data0 := cause }
    let s := s.onCores fun c => { c with halted := c.halted.put core cause }
    let hit := s.cores.groups.filter (fun g => g.core == core)
    let teams := (s.cores.blocks.filter (fun b => b.core == core)).filterMap (·.team)
    let mates := s.cores.groups.filter (fun g =>
      s.cores.blocks.any (fun b => b.bid == g.blk && b.team.any (fun t => teams.contains t)))
    (hit ++ mates).foldl (fun s g => startKill s g.vd g.owner seq) s

/-- Privilege code (R131). -/
def Priv.code : Priv → Nat
  | .u => 0
  | .s => 1
  | .h => 2

/-- The queue a trap goes to (R146). -/
def trapVd (g : Group) (t : Trap) : Nat := if g.priv = .u ∧ t.s2 = false then g.vd else 0

/-- One entry for the threads of a set, all with the first one's trap; the threads are held for it. -/
def postTrap (s : State) (g : Group) (pc : Nat) (tids : List Nat) (t : Trap) : State :=
  let flags := 1 + 2 * (if g.priv = .u then 0 else 1) + 4 * t.s2.toNat + 8 * t.write.toNat + 16 * t.fetch.toNat
  let e := svqEntry t.cause flags g.vd g.width (16 * g.quarter + g.slot) (tids.headD 0) pc t.addr (maskOf tids) t.arg g.asid
  let num := s.cores.nextNum
  let s := onGroup s g.gid (fun x => tids.foldl (fun x i => x.onThread i (fun y => { y with st := .held num false })) x)
  (post s g.core (trapVd g t) e (some g.gid) none).1

/-- The TAG of the launch a record concerns (R89, R238). -/
def workTag (s : State) (o : Owner) : Option Nat :=
  match o with
  | .launch lid => (findLaunch s lid).map (fun l => field l.record 48 8)
  | _ => none

/-- R240: threads of a U group that consume poison stop, a Machine Check entry with CALLER 0 is posted, and the launch or task
is killed; type 0x03 records name the line and the threads. -/
def postMachineCheck (s : State) (g : Group) (pc : Nat) (tids : List Nat) (t : Trap) : State :=
  let seq := t.seq.getD (nextSeq s g.vd)
  let s := if t.seq.isSome then s else offerBoth s g.vd
    { type := 0x03, sev := if g.priv = .u then 2 else 1, vd := g.vd, unit := g.core, addr := t.line,
      pc := some pc, tag := workTag s g.owner, data0 := maskOf tids }
  let t := { t with arg := leBytes 8 seq }
  match g.priv with
  | .u =>
    let num := s.cores.nextNum
    let s := onGroup s g.gid (fun x => tids.foldl (fun x i => x.onThread i (fun y => { y with st := .held num true })) x)
    let e := svqEntry t.cause (8 * t.write.toNat + 16 * t.fetch.toNat) g.vd 0 0xFF 0 pc t.addr 0 t.arg g.asid
    let s := (post s g.core g.vd e none none).1
    startKill s g.vd g.owner seq
  | .s => postTrap s g pc tids t
  | .h => s

/-- The thread traps of one instruction taken apart into entries (R146): one per thread for a SYSCALL, one per cause, stage and 4 KiB
page for memory faults, one per cause for any other; in ascending order of the lowest thread. -/
def trapKey (e : Nat × Trap) : Nat × Nat × Nat × Bool :=
  if e.2.each then (1, e.1, 0, false)
  else match e.2.page with
    | some p => (2, e.2.cause, p, e.2.s2)
    | none => (3, e.2.cause, 0, e.2.s2)

def trapGroups : Nat → List (Nat × Trap) → List (List (Nat × Trap))
  | 0, _ => []
  | _, [] => []
  | n + 1, e :: l => (e :: l.filter (fun x => trapKey x = trapKey e)) :: trapGroups n (l.filter (fun x => trapKey x ≠ trapKey e))

/-- R61: the flash-window blocks that Machine Checks have consumed leave their buffers. -/
def dropConsumed (s : State) (l : List (Nat × Trap)) : State :=
  let ks := l.filterMap (fun e => e.2.flash)
  if ks.isEmpty then s
  else s.onMem fun m => { m with flash := m.flash.filter (fun b => !(b.poisoned && ks.contains (b.vd, b.win, b.nsid, b.lba))) }

/-- The entries of the traps of one instruction of a group, or for a Machine Check its records and what they start (R146, R240). -/
def postAll (s : State) (g : Group) (pc : Nat) (l : List (Nat × Trap)) : State :=
  (trapGroups l.length l).foldl (fun s grp =>
    match grp with
    | [] => s
    | e :: _ =>
      if e.2.cause = 0x0E then postMachineCheck s g pc (grp.map (·.1)) e.2 else postTrap s g pc (grp.map (·.1)) e.2) s

/-- Taking the traps of one instruction of a group at a PC (R146, R149, R240): a group of privilege H or a mandrel lane halts its
core. -/
def takeTraps (s : State) (g : Group) (pc : Nat) (l : List (Nat × Trap)) : State :=
  match g.priv, l with
  | _, [] => s
  | .h, e :: _ => haltCore (postAll (dropConsumed s l) g pc (l.filter (fun x => x.2.cause == 0x0E))) g.core pc e.2.cause
  | _, _ => postAll (dropConsumed s l) g pc l

end Sys2Proof.Machine
end

