-- ==== Sys2Proof/Machine/Operands.lean ====
section
/-! DEFINITION. Operands, guards, the checks of R255, and how a convoy's instruction ends for each of its threads. -/
namespace Sys2Proof.Machine

/-- An operand of n registers read by a thread (R251, R252): zero reads 0 at any width; the register named holds the low word. -/
def readOp (s : State) (g : Group) (t : Nat) (o : Opnd) : Nat → Nat
  | 0 => 0
  | n + 1 =>
    readOp s g t o n
      + 2 ^ (32 * n) * (match o with
        | .g j => (readReg s g t (j.val + n)).toNat
        | .k j => (readK s g (j.val + n)).toNat
        | .p _ => 0
        | .zero => 0)

/-- A value of n registers written by a thread; a write to zero is discarded (R251). -/
def writeOp (s : State) (g : Group) (t : Nat) (o : Opnd) (v : Nat) : Nat → State
  | 0 => s
  | n + 1 =>
    let s := writeOp s g t o v n
    match o with
    | .g j => writeReg s g t (j.val + n) (BitVec.ofNat 32 (v / 2 ^ (32 * n)))
    | .k j => writeK s g (j.val + n) (BitVec.ofNat 32 (v / 2 ^ (32 * n)))
    | .p _ => s
    | .zero => s

/-- A predicate operand's four bits (R253): zero reads as clear; in the mandrel lane predicates are single bits (R141). -/
def readP (s : State) (g : Group) (t : Nat) : Opnd → Nat
  | .p n => readPred s g t n.val
  | _ => 0

/-- A predicate written bit by bit; the mandrel lane keeps one bit. -/
def writeP (s : State) (g : Group) (t : Nat) (o : Opnd) (v : Nat) : State :=
  match o with
  | .p n => writePred s g t n.val (if g.mandrel then v % 2 else v)
  | _ => s

/-- A predicate written from a 32- or 64-bit result: all four bits (R253). -/
def writePB (s : State) (g : Group) (t : Nat) (o : Opnd) (r : Bool) : State := writeP s g t o (if r then 15 else 0)

/-- Bit b of a thread's guard (R253). -/
def guardBit (s : State) (g : Group) (h : Hdr) (t b : Nat) : Bool :=
  let b := if g.mandrel then 0 else b
  let a := bit (readPred s g t h.ga.idx.val) b ^^ h.ga.neg
  let c := bit (readPred s g t h.gb.idx.val) b ^^ h.gb.neg
  match h.gm with
  | .a => a
  | .and => a && c
  | .or => a || c

/-! The checks of R255 that need the executing group. -/

/-- R252, R141: an operand's registers lie below REGS; the mandrel lane has 64 registers and no k register. -/
def useFits (u : OperandUse) (g : Group) : Bool :=
  match u.o with
  | .g j => decide (j.val + u.n ≤ if g.mandrel then 64 else g.regs)
  | .k _ => !g.mandrel
  | _ => true

/-- R141: the opcodes that raise Illegal Instruction in the mandrel lane. -/
def mandrelExcludes : Instr → Bool
  | .lxch .. | .lxchImm .. | .pcol .. | .xred .. | .xscan .. | .xfind .. | .xfred .. => true
  | .mxop .. | .mxopImm .. | .mxdrain .. | .mxwait .. | .mxburst .. | .mxburstImm .. => true
  | .barInit .. | .barInitImm .. | .barArrive .. | .barArriveImm .. | .barWait .. | .barSync .. | .barSyncImm .. | .barInv .. => true
  | .phase .. | .svqtake .. | .svqwait .. | .cbar .. | .syscall .. | .exit .. => true
  | .lds .. | .sts .. | .atoms .. | .reds .. | .cass .. | .winBind .. | .winTouch .. | .winRetire .. | .winState .. => true
  | .waita _ m .. | .waitaImm _ m .. => m.space == .spad
  | _ => false

/-- Registers of a mask of a width (R320). -/
def maskRegs (n : Nat) : Nat := if n ≤ 32 then 1 else if n ≤ 64 then 2 else 4

/-- R320, R322: the destinations whose width follows the group's. -/
def widthUses (i : Instr) (g : Group) : Bool :=
  let fits := fun (d : Opnd) n => useFits ⟨d, .V, n⟩ g && d.aligned n
  match i with
  | .pcol _ m d _ => m.mode != .mask || fits d (maskRegs (if m.pair then 2 * g.width else g.width))
  | .xfind _ _ d _ _ => fits d (maskRegs g.width)
  | _ => true

/-- Check 2 of R255 for a group. -/
def legal (i : Instr) (g : Group) : Bool :=
  i.wf && i.uses.all (fun u => useFits u g) && widthUses i g && !(g.mandrel && mandrelExcludes i)

/-- Check 3 of R255. -/
def privOk (need : Priv) (g : Group) : Bool := decide (need.code ≤ g.priv.code)

/-- The 12 bytes of an instruction word, for an entry's ARG (R145). -/
def wordBytes (i : Instr) : Bytes := ((i.raw.map Raw.pack).map (bytesOfNat 12)).getD []

/-! Ends of an instruction. -/

/-- How an instruction ends for one thread: on to the next slot, on at another PC, held at a trap, waiting at it, or exited. -/
inductive Done where
  | next
  | jump (pc : DWord)
  | trap (t : Trap)
  | wait (w : Wait)
  | exit
  deriving DecidableEq, Repr

/-- The end that a fetch's trap gives a thread: a page being migrated makes it wait (R209). -/
def trapDone (t : Trap) : Done := if t.cause = 0 then .wait .mig else .trap t

/-- R134: a thread at its join PC arrives; when every thread with that join PC has arrived they are free. -/
def Group.joins (g : Group) : Group :=
  let arrive := g.threads.map (fun t =>
    if t.st ≠ .exited ∧ t.jpc ≠ 0 ∧ t.pc = t.jpc then { t with jarr := true } else t)
  let full : DWord → Bool := fun j => arrive.all (fun t => t.st == .exited || t.jpc != j || t.jarr)
  { g with threads := arrive.map (fun t =>
      if t.st ≠ .exited ∧ t.jpc ≠ 0 ∧ full t.jpc then { t with jpc := 0, jarr := false } else t) }

/-- The thread after its instruction, a trap apart. -/
def Thread.after (x : Thread) (pc : DWord) : Done → Thread
  | .next => { x with pc := nextPc pc, st := .ready, age := 0 }
  | .jump p => { x with pc := p, st := .ready, age := 0 }
  | .wait w => { x with st := .wait w, age := 0 }
  | .exit => { x with st := .exited, age := 0 }
  | .trap _ => { x with age := 0 }

/-- The ends of an instruction at a PC applied to its group: PCs, waits and exits, then joins, then the traps (R154). -/
def finish (s : State) (gid : Nat) (pc : DWord) (l : List (Nat × Done)) : State :=
  let s := onGroup s gid (fun g => (l.foldl (fun g e => g.onThread e.1 (fun x => x.after pc e.2)) g).joins)
  match findGroup s gid with
  | none => s
  | some g =>
    takeTraps s g pc.toNat (l.filterMap (fun e => match e.2 with
      | .trap t => some (e.1, t)
      | _ => none))

/-- The rest of a convoy goes on to the next slot. -/
def withNext (tids : List Nat) (l : List (Nat × Done)) : List (Nat × Done) :=
  tids.map (fun t => (t, ((l.find? (fun e => e.1 == t)).map (·.2)).getD .next))

/-- The body of an instruction: the state, the group and the threads whose guard[0] is 1, to the state and the ends of the
threads that do not simply go on. -/
abbrev Body := State → Group → Convoy → List Nat → State × List (Nat × Done)

/-- An opcode run by the selected convoy: checks 2 and 3 of R255 for every thread, then the body for the threads whose guard[0]
is 1, the others going on (R253); then the ends, and the records the step has offered (R237). -/
def runOp (i : Instr) (need : Priv) (body : Body) (s : State) : Host.Outcome State Fault Refusal :=
  match s.sch.ctx with
  | none => .fault .noConvoy
  | some c =>
    match findGroup s c.gid, i.hdr? with
    | some g, some h =>
      if !legal i g then
        .next (flushRecs (finish s c.gid c.pc (c.tids.map (fun t => (t, .trap (illegal (wordBytes i)))))))
      else if !privOk need g then
        .next (flushRecs (finish s c.gid c.pc (c.tids.map (fun t => (t, .trap (privilege (wordBytes i)))))))
      else
        let r := body s g c (c.tids.filter (fun t => guardBit s g h t 0))
        .next (flushRecs (finish r.1 c.gid c.pc (withNext c.tids r.2)))
    | _, _ => .fault .noConvoy

/-- A body that does something to the state for each thread in turn, reading the state before the instruction (R8, R274). -/
def eachThread (f : State → Group → Nat → State → State) : Body := fun s g _ act => (act.foldl (fun a t => f s g t a) s, [])

/-- A body that computes one register result for each thread from the state before the instruction. -/
def regBody (d : Opnd) (n : Nat) (f : State → Group → Nat → Nat) : Body :=
  eachThread (fun s g t a => writeOp a g t d (f s g t) n)

/-- R255 check 4: an immediate outside its limits raises Illegal Instruction for the threads whose guard[0] is 1. -/
def immBody (ok : Bool) (i : Instr) (b : Body) : Body := fun s g c act =>
  if ok then b s g c act else (s, act.map (fun t => (t, .trap (illegal (wordBytes i)))))

/-- A body that runs for each thread in turn on the state so far, each thread with its own end. -/
def threadBody (f : State → Group → Nat → State × Done) : Body := fun s g _ act =>
  act.foldl (fun (a : State × List (Nat × Done)) t => let r := f a.1 g t; (r.1, a.2 ++ [(t, r.2)])) (s, [])

end Sys2Proof.Machine
end

