-- ==== Sys2Proof/Machine/Flags.lean ====
section
/-! DEFINITION. What integer results and predicates are computed with: Val, Fit, comparison and the combination of predicates
(R274, R281, R283). -/
namespace Sys2Proof.Machine

/-- R274: Val of an n-bit operand. -/
def val (u : Bool) (n v : Nat) : Int := toInt (!u) n v

/-- R274: Fit of an exact integer into m bits. -/
def fit (v : Int) (m : Nat) (u sat : Bool) : Nat :=
  if sat then wrap m (if u then clampU m v else clampS m v) else wrap m v

/-- R281: an integer comparison. -/
def icmp (c : ICmp) (a b : Int) : Bool :=
  match c with
  | .eq => decide (a = b)
  | .ne => decide (a ≠ b)
  | .lt => decide (a < b)
  | .le => decide (a ≤ b)
  | .gt => decide (a > b)
  | .ge => decide (a ≥ b)

/-- R281: a comparison's result combined with a predicate, bit by bit. -/
def combine (o : Bop) (r : Bool) (p : Nat) : Nat :=
  let v := if r then 15 else 0
  match o with
  | .none => v
  | .and => nAnd v p
  | .or => nOr v p
  | .xor => nXor v p

/-- R280, R283: a function of three bits by its table. -/
def tblBit (tbl a b c : Nat) : Nat := bits tbl (a + 2 * b + 4 * c) (a + 2 * b + 4 * c)

/-- A table applied to n bits of three operands (R280). -/
def tblWord (tbl n a b c : Nat) : Nat :=
  (List.range n).foldl (fun v i => v + 2 ^ i * tblBit tbl (bits a i i) (bits b i i) (bits c i i)) 0

/-- R274: IMM32 of a Y form extended to n bits. -/
def extImm (imm : BitVec 32) (n : Nat) (u : Bool) : Nat := if u then imm.toNat else wrap n (sext 32 imm.toNat)

/-- Width of a form in bits. -/
def nBits (w64 : Bool) : Nat := if w64 then 64 else 32

/-- An n-bit value operand. -/
def readV (s : State) (g : Group) (t : Nat) (o : Opnd) (w64 : Bool) : Nat := readOp s g t o (W w64)

end Sys2Proof.Machine
end

