-- ==== Sys2Proof/Machine/FloatFmt.lean ====
section
/-! DEFINITION. Number formats and rounding (R296 to R300), exact arithmetic on their values, error feedback (R306) and
conversion of one element (R314). -/
namespace Sys2Proof.Machine

/-- A floating-point format (R296): fraction bits, exponent bits, bias, and whether E all ones is reserved for infinities and
NaNs; F8 and F8W have one NaN, 0x80. -/
structure Fmt where
  m : Nat
  eb : Nat
  bias : Nat
  ieee : Bool
  deriving DecidableEq, Repr

def f64 : Fmt := ⟨52, 11, 1023, true⟩
def f32 : Fmt := ⟨23, 8, 127, true⟩
def f16 : Fmt := ⟨10, 5, 15, true⟩
def bf16 : Fmt := ⟨7, 8, 127, true⟩
def f8 : Fmt := ⟨3, 4, 7, false⟩
def f8w : Fmt := ⟨2, 5, 15, false⟩

/-- Bits of a format. -/
def Fmt.width (f : Fmt) : Nat := 1 + f.eb + f.m
/-- The sign bit's weight. -/
def Fmt.sign (f : Fmt) : Nat := 2 ^ (f.eb + f.m)
/-- The encoding of the largest finite value, and of an infinity, of positive sign. -/
def Fmt.maxCode (f : Fmt) : Nat := if f.ieee then (2 ^ f.eb - 1) * 2 ^ f.m - 1 else f.sign - 1
def Fmt.infCode (f : Fmt) : Nat := (2 ^ f.eb - 1) * 2 ^ f.m
/-- R297: the canonical NaN. -/
def Fmt.nan (f : Fmt) : Nat := if f.ieee then f.infCode + 2 ^ (f.m - 1) else f.sign

/-- An exact value: NaN, an infinity, or (−1)^neg · n · 2^x. -/
inductive Fl where
  | nan
  | inf (neg : Bool)
  | num (neg : Bool) (n : Nat) (x : Int)
  deriving DecidableEq, Repr

/-- R296: the value of an encoding. -/
def Fmt.dec (f : Fmt) (b : Nat) : Fl :=
  let neg := bit b (f.eb + f.m)
  let e := bits b (f.eb + f.m - 1) f.m
  let fr := b % 2 ^ f.m
  if f.ieee && e == 2 ^ f.eb - 1 then (if fr = 0 then .inf neg else .nan)
  else if !f.ieee && b % (2 * f.sign) == f.sign then .nan
  else if e = 0 then .num neg fr (1 - f.bias - f.m)
  else .num neg (2 ^ f.m + fr) (e - f.bias - f.m)

/-- A rounded result: its bits, and whether it is saturated (R299). -/
structure Rounded where
  bits : Nat
  sat : Bool
  deriving DecidableEq, Repr

/-- R299: does RoundInt move away from the truncated magnitude? `rem` of `2^sh` was cut off. -/
def roundUp (mode : Rnd) (neg odd : Bool) (rem half : Nat) : Bool :=
  match mode with
  | .rn => decide (rem > half) || (decide (rem = half) && odd && decide (0 < half))
  | .rz => false
  | .ru => !neg && decide (0 < rem)
  | .rd => neg && decide (0 < rem)
  | .rna => decide (0 < half) && decide (rem ≥ half)

/-- RoundInt of n / 2^sh (R299). -/
def roundShift (mode : Rnd) (neg : Bool) (n sh : Nat) : Nat :=
  if sh = 0 then n
  else
    let q := n / 2 ^ sh
    if roundUp mode neg (q % 2 == 1) (n % 2 ^ sh) (2 ^ (sh - 1)) then q + 1 else q

/-- A sign put on a magnitude code; F8 and F8W have no −0. -/
def Fmt.signed (f : Fmt) (neg : Bool) (code : Nat) : Nat :=
  if neg && (f.ieee || code != 0) then f.sign + code else code

/-- R299: RoundTo. -/
def roundTo (f : Fmt) (mode : Rnd) (sat : Bool) : Fl → Rounded
  | .nan => ⟨f.nan, false⟩
  | .inf neg => if sat then ⟨f.signed neg f.maxCode, true⟩ else ⟨if f.ieee then f.signed neg f.infCode else f.nan, false⟩
  | .num neg n x =>
    if n = 0 then ⟨f.signed neg 0, false⟩
    else
      let e : Int := max (Nat.log2 n + x) (1 - f.bias)
      let sh : Int := e - f.m - x
      let r := if sh ≤ 0 then n * 2 ^ (-sh).toNat else roundShift mode neg n sh.toNat
      let code := (e + f.bias - 1).toNat * 2 ^ f.m + r
      if code > f.maxCode then
        if sat || mode == .rz || (mode == .ru && neg) || (mode == .rd && !neg) then ⟨f.signed neg f.maxCode, true⟩
        else ⟨if f.ieee then f.signed neg f.infCode else f.nan, false⟩
      else ⟨f.signed neg code, false⟩

/-- RoundTo without SAT, as bits. -/
def rnd (f : Fmt) (mode : Rnd) (v : Fl) : Nat := (roundTo f mode false v).bits

/-! Exact arithmetic. -/

def Fl.neg : Fl → Fl
  | .nan => .nan
  | .inf s => .inf (!s)
  | .num s n x => .num (!s) n x

def Fl.isNan : Fl → Bool
  | .nan => true
  | _ => false
def Fl.isInf : Fl → Bool
  | .inf _ => true
  | _ => false

/-- R307: a product; 0 × ∞ is invalid. -/
def Fl.mul : Fl → Fl → Fl
  | .nan, _ => .nan
  | _, .nan => .nan
  | .inf s, .inf t => .inf (s != t)
  | .inf s, .num t n _ => if n = 0 then .nan else .inf (s != t)
  | .num s n _, .inf t => if n = 0 then .nan else .inf (s != t)
  | .num s n x, .num t k y => .num (s != t) (n * k) (x + y)

/-- The least exponent of the finite terms. -/
def leastExp : List Fl → Int
  | [] => 0
  | [.num _ _ x] => x
  | .num _ _ x :: t => min x (leastExp t)
  | _ :: t => leastExp t

/-- The signed mantissa of a finite value at an exponent not above its own. -/
def Fl.mant (x0 : Int) : Fl → Int
  | .num s n x => if s then -((n * 2 ^ (x - x0).toNat : Nat) : Int) else ((n * 2 ^ (x - x0).toNat : Nat) : Int)
  | _ => 0

def Fl.isNegZero : Fl → Bool
  | .num s n _ => s && n == 0
  | _ => false
def Fl.isPosZero : Fl → Bool
  | .num s n _ => !s && n == 0
  | _ => false

/-- The exact sum of a list with the zeros and specials of R300 and R305; `down` is rounding mode RD. -/
def sumFl (down : Bool) (l : List Fl) : Fl :=
  if l.any Fl.isNan then .nan
  else if l.any (· == .inf false) && l.any (· == .inf true) then .nan
  else if l.any (· == .inf false) then .inf false
  else if l.any (· == .inf true) then .inf true
  else
    let x0 := leastExp l
    let t := (l.map (Fl.mant x0)).foldl (· + ·) 0
    if t = 0 then
      if l.all Fl.isNegZero && !l.isEmpty then .num true 0 0
      else if l.all Fl.isPosZero then .num false 0 0
      else .num down 0 0
    else .num (decide (t < 0)) t.natAbs x0

def addFl (mode : Rnd) (a b : Fl) : Fl := sumFl (mode == .rd) [a, b]
def fmaFl (mode : Rnd) (a b c : Fl) : Fl := sumFl (mode == .rd) [a.mul b, c]

/-- A value cut off at a bit, with the fact that more follows kept in one lower bit, for a later rounding. -/
def sticky (neg : Bool) (n : Nat) (x : Int) (more : Bool) : Fl := .num neg (2 * n + more.toNat) (x - 1)

/-- R307: a quotient of finite numbers of at most 64 bits is kept to more than 128 bits. -/
def Fl.div : Fl → Fl → Fl
  | .nan, _ => .nan
  | _, .nan => .nan
  | .inf _, .inf _ => .nan
  | .inf s, .num t _ _ => .inf (s != t)
  | .num s _ _, .inf t => .num (s != t) 0 0
  | .num s n x, .num t k y =>
    if k = 0 then (if n = 0 then .nan else .inf (s != t))
    else sticky (s != t) (n * 2 ^ 192 / k) (x - y - 192) (n * 2 ^ 192 % k != 0)

/-- The integer square root of a number below 4^n, by bits. -/
def isqrt : Nat → Nat → Nat
  | 0, _ => 0
  | n + 1, v =>
    let r := 2 * isqrt n (v / 4)
    if (r + 1) * (r + 1) ≤ v then r + 1 else r

/-- R308: a square root. -/
def Fl.sqrt : Fl → Fl
  | .nan => .nan
  | .inf s => if s then .nan else .inf false
  | .num s n x =>
    if n = 0 then .num s 0 0
    else if s then .nan
    else
      let odd := (x % 2).toNat
      let v := n * 2 ^ odd * 4 ^ 100
      let r := isqrt 160 v
      sticky false r ((x - odd) / 2 - 100) (r * r != v)

/-- R308: a reciprocal square root. -/
def Fl.rsqrt : Fl → Fl
  | .nan => .nan
  | .inf s => if s then .nan else .num false 0 0
  | .num s n x =>
    if n = 0 then .inf s
    else if s then .nan
    else
      let odd := (x % 2).toNat
      let v := n * 2 ^ odd
      let r := isqrt 210 (4 ^ 200 / v)
      sticky false r (-((x - odd) / 2) - 200) (r * r * v != 4 ^ 200)

/-- The order of two values that are no NaNs, zeros equal: −1, 0 or 1 of the difference. -/
def cmpFl (a b : Fl) : Int :=
  match a, b with
  | .inf s, .inf t => if s = t then 0 else if s then -1 else 1
  | .inf s, _ => if s then -1 else 1
  | _, .inf t => if t then 1 else -1
  | _, _ =>
    let x0 := leastExp [a, b]
    let d := a.mant x0 - b.mant x0
    if d < 0 then -1 else if d = 0 then 0 else 1

/-- R311: a float comparison. -/
def fcmp (c : FCmp) (a b : Fl) : Bool :=
  let n := a.isNan || b.isNan
  let d := cmpFl a b
  match c with
  | .eq => !n && decide (d = 0)
  | .ne => n || decide (d ≠ 0)
  | .lt => !n && decide (d < 0)
  | .le => !n && decide (d ≤ 0)
  | .gt => !n && decide (d > 0)
  | .ge => !n && decide (d ≥ 0)
  | .num => !n
  | .nan => n

/-- R309: the place of a non-NaN encoding in its format's order, −0 below +0. -/
def Fmt.key (f : Fmt) (b : Nat) : Int :=
  if bit b (f.eb + f.m) then -((b % f.sign : Nat) : Int) - 1 else ((b % f.sign : Nat) : Int)

/-- R309: the smaller or larger operand, written unchanged. -/
def minMaxF (f : Fmt) (max : Bool) (a b : Nat) : Nat :=
  match (f.dec a).isNan, (f.dec b).isNan with
  | true, true => f.nan
  | true, false => b
  | false, true => a
  | false, false => if (if max then f.key a < f.key b else f.key b < f.key a) then b else a

/-- RoundInt of a finite value as an integer (R299). -/
def roundInt (mode : Rnd) : Fl → Int
  | .num s n x =>
    let r : Nat := if x ≥ 0 then n * 2 ^ x.toNat else roundShift mode s n (-x).toNat
    if s then -(r : Int) else (r : Int)
  | _ => 0

/-- The exact value of an integer. -/
def flOfInt (v : Int) : Fl := .num (decide (v < 0)) v.natAbs 0

/-! Element types (R256, R298). -/

/-- Format of a float element type. -/
def etyFmt : ETy → Option Fmt
  | .f16 => some f16
  | .bf16 => some bf16
  | .f32 => some f32
  | .f64 => some f64
  | .f8 => some f8
  | .f8w => some f8w
  | _ => none
/-- Is an integer element type unsigned? -/
def etyUnsigned : ETy → Bool
  | .n8 => true
  | .n16 => true
  | .n32 => true
  | .n64 => true
  | _ => false
/-- Bits of an element. -/
def etyBits (t : ETy) : Nat := 8 * t.size

/-- R298: an element as a register holds it: I8 and I16 sign-extended to 32 bits. -/
def etyReg (t : ETy) (v : Nat) : Nat :=
  match t with
  | .i8 => wrap 32 (sext 8 v)
  | .i16 => wrap 32 (sext 16 v)
  | _ => v % 2 ^ (etyBits t)

/-- R314: a float value clamped into an integer type. -/
def floatToInt (dt : ETy) (mode : Rnd) (v : Fl) : Nat :=
  let n := etyBits dt
  let clampI := fun (k : Int) => wrap n (if (etyUnsigned dt) then clampU n k else clampS n k)
  match v with
  | .nan => 0
  | .inf s => clampI (if s then -(2 ^ 65) else 2 ^ 65)
  | .num .. => clampI (roundInt mode v)

/-- R314: one element converted, without error feedback. -/
def convert (dt st : ETy) (mode : Rnd) (sat : Bool) (a : Nat) : Rounded :=
  match etyFmt st, etyFmt dt with
  | none, none => ⟨fit (toInt (!etyUnsigned st) (etyBits st) a) (etyBits dt) (etyUnsigned dt) sat, false⟩
  | some f, none => ⟨floatToInt dt mode (f.dec a), false⟩
  | none, some f => roundTo f mode sat (flOfInt (toInt (!etyUnsigned st) (etyBits st) a))
  | some f, some g => roundTo g mode sat (f.dec a)

/-- R306: a narrowing with error feedback: the result and the new residue, which is +0 when it is zero. -/
def feedback (f : Fmt) (mode : Rnd) (sat : Bool) (x e : Nat) : Nat × Nat :=
  let s := f32.dec (rnd f32 .rn (addFl .rn (f32.dec x) (f32.dec e)))
  let r := roundTo f mode sat s
  let v := f.dec r.bits
  let e := rnd f32 .rn (addFl .rn s v.neg)
  (r.bits, if v.isNan || v.isInf || r.sat || e = 2 ^ 31 then 0 else e)

end Sys2Proof.Machine
end

