-- ==== Sys2Proof/Machine/Fetch.lean ====
section
/-! DEFINITION. Fetching: pipe classes (R262), lines and their checks (R243 to R246, R204), the checks of a transfer (R247,
R248), and the convoy a group issues (R133, R134, R259). -/
namespace Sys2Proof.Machine

/-- Pipe classes (R259). -/
inductive Pipe where
  | int | fp | sfu | mem | ctrl | xlane | eng
  deriving DecidableEq, Repr

/-- R261, R262: the pipe class of an opcode; none when it is unassigned. -/
def pipeOf (opc : Nat) : Option Pipe :=
  let c := opc % 16
  match opc / 16 with
  | 0x0 => if c ≤ 7 then some .ctrl else none
  | 0x1 => some .int
  | 0x2 => some .int
  | 0x3 => if 2 ≤ c ∧ c ≤ 5 then some .fp else some .int
  | 0x4 => if 9 ≤ c ∧ c ≤ 12 then some .sfu else some .fp
  | 0x5 => if c ≤ 4 then some .fp else some .int
  | 0x6 => if 0xA < c then none else if 2 ≤ c ∧ c ≤ 5 then some .sfu else if c = 6 ∨ c = 7 then some .int else some .fp
  | 0x7 => if c ≤ 6 then some .xlane else none
  | 0x8 => if c ≤ 7 then some .mem else none
  | 0x9 => if c ≤ 7 then some .mem else none
  | 0xA => if 0xC < c then none else if c ≤ 1 ∨ c = 0xA ∨ c = 0xB then some .mem else some .ctrl
  | 0xB => if 9 < c then none else if c = 9 then some .ctrl else some .mem
  | 0xC => if c ≤ 6 then some .eng else none
  | 0xD => if 3 < c then none else if c = 3 then some .ctrl else some .eng
  | 0xE =>
    if 0xE < c then none
    else if c = 4 then some .int
    else if c = 1 ∨ c = 9 ∨ c = 0xA ∨ c = 0xB ∨ c = 0xC ∨ c = 0xE then some .mem else some .ctrl
  | 0xF => if 4 < c then none else if c = 2 ∨ c = 3 then some .mem else some .ctrl
  | _ => none

/-! Lines (R243, R244). -/

def slotBytes (l : Bytes) (i : Nat) : Bytes := (l.drop (12 * i)).take 12
def lineWord (l : Bytes) : Nat := field l 60 4
def slotOpc (l : Bytes) (i : Nat) : Nat := field l (12 * i + 11) 1

/-- R244: LPAR and every SPAR bit make even parity. -/
def parityOk (l : Bytes) : Bool :=
  popcount 32 (lineWord l) % 2 == 0
    && (List.range 5).all (fun i => (popcount 96 (leNat (slotBytes l i)) + bits (lineWord l) (9 + i) (9 + i)) % 2 == 0)

/-- R259: may slots i and i + 1 co-issue? -/
def pairOk (l : Bytes) (i : Nat) : Bool :=
  match pipeOf (slotOpc l i), pipeOf (slotOpc l (i + 1)) with
  | some a, some b => a != b
  | _, _ => false

/-- Checks 3 and 4 of R245. -/
def lineOk (l : Bytes) : Bool :=
  bits (lineWord l) 31 15 == 0 && [0, 1, 2, 3].all (fun i => !bit (lineWord l) (5 + i) || pairOk l i)

/-- The access a group's fetch makes (R209). -/
def fetchAcc (g : Group) : Acc := { write := false, fetch := true, user := g.priv == .u, sup := g.priv == .s }

/-- Malformed Line at a line (R245). -/
def malformed (va : Nat) (l : Bytes) : Trap := { cause := 0x03, addr := va, arg := leBytes 4 (lineWord l), page := some (va / 4096) }

/-- Bad Branch Target (R145, R248). -/
def badTarget (pc : Nat) : Trap := { cause := 0x04, addr := pc, page := some (pc / 4096) }

/-- Is the code-write mark of a sector set (R204)? -/
def marked (s : State) (a : Nat) : Bool := (s.mem.marks.find (a / 32)).isSome

/-- A fill of a line on path IF (R203, R204): a fill waits for the writes begun at the L2, so the die's own copy is first written
back. Lines filled through a sealed leaf are replicas (R219). It answers the bytes, the poison of its sectors, and whether the two marks agree. -/
def ifFill (s : State) (g : Group) (spa : Nat) (sl : Bool) : State × Except Deny (Bytes × Bool × Bool) :=
  let die := dieOfCore g.core
  let kid := kidFor s g.vd spa
  let s := (l2Keys s die (fun l => l.spa == lineOf spa && !l.home)).foldl l2Evict s
  match l2Read s die g.vd kid spa 32 sl with
  | (s, .error d) => (s, .error d)
  | (s, .ok (b0, p0)) =>
    match l2Read s die g.vd kid (spa + 32) 32 sl with
    | (s, .error d) => (s, .error d)
    | (s, .ok (b1, p1)) => (s, .ok (b0 ++ b1, p0 || p1, marked s spa == marked s (spa + 32)))

/-- The line of the core's L1 instruction cache under a name (R211). -/
def iFind (s : State) (g : Group) (va spa : Nat) : Option ILine :=
  if g.mandrel then none
  else s.mem.l1i.find? (fun e => e.core == g.core && e.vd == g.vd && e.asid == g.asid && e.va == va && e.spa == spa)

/-- The L1 instruction cache holds 64 KiB of lines a core (R1), the latest filled. Copies of the physical line under another name in the
cluster's L1s go first (R211). -/
def iPut (s : State) (e : ILine) : State :=
  let other := fun (core vd asid line : Nat) =>
    clusterOfCore core == clusterOfCore e.core && !(vd == e.vd && asid == e.asid && line == e.va / 128)
  let s := ((s.mem.l1.filter (fun x => x.2.spa == e.spa / 128 && other (x.1 / 4096) x.2.vd x.2.asid (x.2.vpage * 64 + x.1 % 64))).map
    (·.1)).foldl l1Evict s
  let s := s.onMem fun m => { m with l1i := m.l1i.filter (fun x => !(x.spa / 128 == e.spa / 128 && other x.core x.vd x.asid (x.va / 128))) }
  s.onMem fun m =>
    { m with l1i := e :: (m.l1i.filter (fun x => x.core == e.core && !(x.vd == e.vd && x.asid == e.asid && x.va == e.va))).take 1023
        ++ m.l1i.filter (fun x => x.core != e.core) }
def iDrop (s : State) (f : ILine → Bool) : State := s.onMem fun m => { m with l1i := m.l1i.filter (fun e => !f e) }

/-- What a fetch of a line's bytes ends in (R240, R245, R246): a line that fails parity is fetched once more, and a second
failure is a Machine Check with its type 0x02 records. -/
def lineBytes (s : State) (g : Group) (va spa gpa : Nat) (sl : Bool) : Nat → State × Except Trap Bytes
  | 0 =>
    (offerBoth s g.vd { type := 0x02, sev := 1, vd := g.vd, unit := g.core, addr := some spa, data0 := 2 },
        .error { machineCheck (some spa) (some (va / 4096)) with fetch := true, seq := some (nextSeq s g.vd) })
  | n + 1 =>
    match iFind s g va spa with
    | some e =>
      if parityOk e.data then (s, .ok e.data)
      else lineBytes (iDrop s (fun x => x.core == g.core && x.spa == spa)) g va spa gpa sl n
    | none =>
      match ifFill s g spa sl with
      | (s, .error d) => (s, .error (denyTrap d va gpa 64 false true))
      | (s, .ok (b, poison, same)) =>
        if poison then (s, .error { machineCheck (some (spa / 128 * 128)) (some (va / 4096)) with fetch := true })
        else if !parityOk b then lineBytes s g va spa gpa sl n
        else if !same then (s, .error (malformed va b))
        else (if g.mandrel then s else iPut s { core := g.core, vd := g.vd, asid := g.asid, va := va, spa := spa, data := b }, .ok b)

/-- R245: a group's fetch of the line at a virtual address, with every check of the line. -/
def fetchLine (s : State) (g : Group) (va : Nat) : State × Except Trap Bytes :=
  match translate s (clusterOfCore g.core) g.vd g.asid va (fetchAcc g) with
  | (s, .error e) => (s, .error (xerrTrap e va 64 false true))
  | (s, .ok x) =>
    match x.target with
    | .spa a =>
      match lineBytes s g va a x.gpa x.sl 2 with
      | (s, .error t) => (s, .error t)
      | (s, .ok b) => if lineOk b then (s, .ok b) else (s, .error (malformed va b))
    | _ => (s, .error (xerrTrap (.prot false va) va 64 false true))

/-- Check 1 of R248. -/
def pcOk (pc : Nat) : Bool := bits pc 5 3 == 0 && decide (pc % 8 ≤ 4)

/-- R248: the checks of a transfer to a target. -/
def checkTarget (s : State) (g : Group) (pc : DWord) : State × Option Trap :=
  if !pcOk pc.toNat then (s, some (badTarget pc.toNat))
  else
    match fetchLine s g (pc.toNat / 64 * 64) with
    | (s, .error t) => (s, some t)
    | (s, .ok b) => (s, if bit (lineWord b) (pc.toNat % 8) then none else some (badTarget pc.toNat))

/-- R247: the target of a slot offset; none when no target PC exists. -/
def branchTarget (pc : DWord) (imm : BitVec 32) : Option DWord :=
  let t : Int := (linOf pc.toNat : Int) + sext 32 imm.toNat
  if 0 ≤ t ∧ t < 5 * 2 ^ 58 then some (BitVec.ofNat 64 (pcOfLin t.toNat)) else none

/-! The convoy of a group (R133, R134). -/

/-- The threads of a group that are ready: not exited, held or waiting. -/
def Group.ready (g : Group) : List Nat := (List.range g.threads.length).filter (fun t => (g.thread t).st == .ready)

/-- R134: is a thread held at its join? -/
def Group.heldAtJoin (g : Group) (t : Nat) : Bool :=
  let x := g.thread t
  x.jpc != 0 && x.pc == x.jpc
    && g.threads.any (fun y => y.st != .exited && y.jpc == x.jpc && !y.jarr)

/-- The lowest PC of some threads. -/
def lowestPc (g : Group) (ts : List Nat) : DWord :=
  BitVec.ofNat 64 ((ts.map (fun t => (g.thread t).pc.toNat)).foldl min (2 ^ 64 - 1))

/-- R134: the PC a selected group issues. -/
def Group.choosePc (g : Group) : DWord :=
  let r := g.ready
  let aged := r.filter (fun t => decide (64 ≤ (g.thread t).age))
  if !aged.isEmpty then
    let top := (aged.map (fun t => (g.thread t).age)).foldl max 0
    lowestPc g (aged.filter (fun t => (g.thread t).age == top))
  else
    let free := r.filter (fun t => !g.heldAtJoin t)
    lowestPc g (if free.isEmpty then r else free)

/-- R134: the threads that issue at a PC. -/
def Group.convoyAt (g : Group) (pc : DWord) : List Nat := g.ready.filter (fun t => (g.thread t).pc == pc)

/-- R133: an issue opportunity taken by a convoy adds one to the age of the other ready threads. -/
def Group.ageBy (g : Group) (tids : List Nat) (cycle : Nat) : Group :=
  { g with
    lastSel := cycle
    threads := g.threads.mapIdx (fun i x => if x.st = .ready ∧ !tids.contains i then { x with age := x.age + 1 } else x) }

/-- The fetched line of a convoy: the line the group holds (R203), or one fetched now. A PC that a billet or an image gave must be one
(check 1 of R248), and threads at a group's entry pass the other checks of R248 too. -/
def convoyLine (s : State) (g : Group) (pc : DWord) (tids : List Nat) : State × Except Trap Bytes :=
  let va := pc.toNat / 64 * 64
  let entering := tids.any (fun t => (g.thread t).entry)
  if !pcOk pc.toNat then (s, .error (badTarget pc.toNat))
  else
  match (if entering then none else g.ibuf.find? (fun e => e.1 == va)) with
  | some e => (s, .ok e.2)
  | none =>
    match (if entering then checkTarget s g pc else (s, none)) with
    | (s, some t) => (s, .error t)
    | (s, none) =>
      match fetchLine s g va with
      | (s, .error t) => (s, .error t)
      | (s, .ok b) =>
        (onGroup s g.gid (fun x =>
          tids.foldl (fun x t => x.onThread t (fun y => { y with entry := false })) { x with ibuf := [(va, b)] }), .ok b)

/-- What a turn of a group comes to: nothing to run, or a convoy and its instruction. -/
abbrev Issued := State × Option Instr

/-- The threads of a convoy that its paired slot may take: R134 lets no thread pass its join PC before its siblings have arrived there,
and has them issue it as one convoy, so a thread whose next PC is its join PC stops there. -/
def Group.pairThreads (g : Group) (pc : DWord) (tids : List Nat) : List Nat := tids.filter (fun t => (g.thread t).jpc != pc)

/-- The convoy of a group at a PC made ready to run: its line fetched, its word decoded. A line that fails its checks traps its
threads; a word that is no instruction raises Illegal Instruction (R255). With `pair` a set PAIR bit queues the next slot's turn
(R135, R259). -/
def issueAt (s : State) (g : Group) (pc : DWord) (tids : List Nat) (pair : Bool) : Issued :=
  match convoyLine s g pc tids with
  | (s, .error t) => (flushRecs (finish s g.gid pc (tids.map (fun i => (i, trapDone t)))), none)
  | (s, .ok b) =>
    let i := pc.toNat % 8
    let s := if pair && !g.mandrel && decide (i < 4) && bit (lineWord b) (5 + i) then
        s.push (.pair g.gid (nextPc pc) (g.pairThreads (nextPc pc) tids)) else s
    match decodeBytes (slotBytes b i) with
    | none => (flushRecs (finish s g.gid pc (tids.map (fun t => (t, .trap (illegal (slotBytes b i)))))), none)
    | some ins => (s.onSch (fun c => { c with ctx := some { gid := g.gid, pc := pc, tids := tids } }), some ins)

/-- May a group issue: it is in its core, and the core runs? -/
def canIssue (s : State) (g : Group) : Bool := g.resid == .core && !halted s g.core && !g.ready.isEmpty

/-- The issue of a group (R134). -/
def issueGroup (s : State) (gid : Nat) : Issued :=
  match findGroup s gid with
  | none => (s, none)
  | some g =>
    if !canIssue s g then (s, none)
    else
      let pc := g.choosePc
      let tids := g.convoyAt pc
      issueAt (onGroup s gid (fun x => x.ageBy tids s.sch.cycle)) g pc tids true

/-- The paired slot of a convoy (R135): for those of its threads that are ready there. -/
def issuePair (s : State) (gid : Nat) (pc : DWord) (tids : List Nat) : Issued :=
  match findGroup s gid with
  | none => (s, none)
  | some g =>
    let ts := tids.filter (fun t => (g.thread t).st == .ready && (g.thread t).pc == pc && (g.thread t).jpc != pc)
    if !canIssue s g || ts.isEmpty then (s, none) else issueAt s g pc ts false

end Sys2Proof.Machine
end

