-- ==== Sys2Proof/Machine/Scratch.lean ====
section
/-! DEFINITION. Local SRAM: segments, swizzles, windows over the block's scratchpad (R159, R161, R165, R175, R176, R334), and the
waking of threads. -/
namespace Sys2Proof.Machine

/-! Local SRAM words and their poison (R159, R239). -/

/-- The key of a word of a core's local SRAM. -/
def sramKey (core w : Nat) : Nat := 131072 * core + w
def sramWord (s : State) (core w : Nat) : Word := s.loc.sram.at 0 (sramKey core w)
def sramPut (s : State) (core w : Nat) (x : Word) : State := s.onLoc fun l => { l with sram := l.sram.write 0 (sramKey core w) x }

/-- Poison of the 32-byte unit that holds a word. -/
def sramBad (s : State) (core w : Nat) : Bool := s.loc.sramPoison.contains (16384 * core + w / 8)
def setSramBad (s : State) (core w : Nat) (p : Bool) : State :=
  s.onLoc fun l => { l with sramPoison := (if p then setIns else setDel) l.sramPoison (16384 * core + w / 8) }

/-- R159: is a segment an L1 way of some VD? -/
def isWay (s : State) (seg : Nat) : Bool := (List.range 16).any (fun v => bit (waysOf s v).ways.toNat seg)

/-- R165: the word, from the start of the range, that holds byte b under a swizzle (0 none, 1 X, 2 K). -/
def swzWord (m b : Nat) : Nat :=
  let row := b / 256
  let k := bits b 7 2
  64 * row + (if m = 1 then nXor k (row % 64) else if m = 2 then (k + row) % 64 else k)

/-- The words of n bytes at offset b of a range that starts at a row. -/
def rangeWords (row m b n : Nat) : List Nat := (List.range ((n + 3) / 4)).map (fun i => 64 * row + swzWord m (b + 4 * i))

/-- The n bytes at offset b, from the words that hold them. -/
def sramRead (s : State) (core : Nat) (ws : List Nat) (b n : Nat) : Bytes :=
  ((ws.flatMap (fun w => leBytes 4 (sramWord s core w).toNat)).drop (b % 4)).take n
def sramWrite (s : State) (core : Nat) (ws : List Nat) (b : Nat) (x : Bytes) : State :=
  let new := splice (ws.flatMap (fun w => leBytes 4 (sramWord s core w).toNat)) (b % 4) x
  (List.range ws.length).foldl (fun s i => sramPut s core (ws.getD i 0) (BitVec.ofNat 32 (field new (4 * i) 4))) s

/-! Waking (R132, R137). -/

/-- Threads of the groups are changed; a pending group with a thread that becomes ready has become ready in this cycle. -/
def wakeThreads (s : State) (p : Group → Nat → Thread → Bool) (f : Thread → Thread) : State :=
  s.onCores fun c =>
    { c with groups := c.groups.map (fun g =>
        if (List.range g.threads.length).any (fun i => p g i (g.thread i)) then
          let h := ({ g with threads := g.threads.mapIdx (fun i x => if p g i x then f x else x) } : Group).joins
          if !g.active && g.ready.isEmpty && !h.ready.isEmpty then { h with since := s.sch.cycle } else h
        else g) }

/-- A waiting thread runs its instruction again, or goes on past it. -/
def Thread.again (x : Thread) : Thread := { x with st := .ready }
def Thread.goOn (x : Thread) : Thread := { x with st := .ready, pc := nextPc x.pc, entry := false }

/-- Threads waiting for something run their instruction again. -/
def rerun (s : State) (w : Wait) : State := wakeThreads s (fun _ _ x => x.st == .wait w) Thread.again

/-! Region-table entries (R175, R176). -/

def Window.none : Window := { st := .empty, desc := [], blk := 0, vd := 0, asid := 0, status := 0 }
def winKey (core e : Nat) : Nat := 256 * core + e
def winOf (s : State) (core e : Nat) : Window := s.loc.windows.at Window.none (winKey core e)
def onWin (s : State) (core e : Nat) (f : Window → Window) : State :=
  s.onLoc fun l => { l with windows := l.windows.write Window.none (winKey core e) (f (l.windows.at Window.none (winKey core e))) }

/-! Fields of a window descriptor (R175). -/
def Window.src (w : Window) : Nat := field w.desc 0 8
def Window.soff (w : Window) : Nat := field w.desc 8 4
def Window.slen (w : Window) : Nat := field w.desc 12 4
def Window.kind (w : Window) : Nat := field w.desc 16 1
def Window.fmt (w : Window) : Nat := field w.desc 17 1
def Window.swz (w : Window) : Nat := field w.desc 18 1
def Window.comp (w : Window) : Nat := field w.desc 19 1
def Window.bnd (w : Window) : Nat := field w.desc 20 1
def Window.cpath (w : Window) : Nat := field w.desc 21 1
def Window.cscope (w : Window) : Nat := field w.desc 22 1
def Window.act (w : Window) : Nat := field w.desc 23 1
def Window.barid (w : Window) : Nat := field w.desc 24 1
def Window.ety (w : Window) : Nat := field w.desc 25 1
def Window.cnt (w : Window) : Nat := field w.desc 28 4
def Window.woff (w : Window) : Nat := field w.desc 32 4
def Window.wval (w : Window) : Nat := field w.desc 36 4
def Window.pitch (w : Window) : Nat := field w.desc 40 4
def Window.nrows (w : Window) : Nat := field w.desc 44 2
def Window.cols (w : Window) : Nat := field w.desc 46 2
def Window.ncore (w : Window) : Nat := field w.desc 48 2
def Window.noff (w : Window) : Nat := field w.desc 52 4

/-- The open windows of a block: entry number and entry. -/
def blockWindows (s : State) (b : Block) : List (Nat × Window) :=
  (s.loc.windows.filter (fun e => e.1 / 256 == b.core && e.2.blk == b.bid && e.2.st != .empty)).map (fun e => (e.1 % 256, e.2))

/-- Do two windows' rows, or a window's and a row, meet? -/
def Window.hasRow (w : Window) (r : Nat) : Bool := decide (w.soff / 256 ≤ r ∧ r < (w.soff + w.slen) / 256)

/-- The windows of a block that hold a row of some words (R334). -/
def windowsAt (s : State) (b : Block) (ws : List Nat) : List (Nat × Window) :=
  (blockWindows s b).filter (fun e => ws.any (fun w => e.2.hasRow (w / 64 - b.rowStart)))

/-- A thread starts engine work (R190). -/
def issueBy (s : State) (c : Nat × Nat) : State :=
  match findGroup s c.1 with
  | some g => issueWork s g [c.2]
  | none => s

/-- The queue of Swage work of a cluster grows by one (R176): work that a thread starts, or an Anvil operation that something is known
to have reached. -/
def queueSwage (s : State) (core e : Nat) (drain : Bool) (caller : Option (Nat × Nat)) (ks : List Know := []) : State :=
  let w := winOf s core e
  let q := clusterOfCore core
  let ks := match caller with
    | some c => knowOf s (threadAgent c.1 c.2)
    | none => ks
  let s := match caller with
    | some c => issueBy s c
    | none => s
  s.onLoc fun l =>
    { l with swageQueue := l.swageQueue.put q (l.swageQueue.at [] q ++
        [{ core := core, entry := e, drain := drain, caller := caller, vd := w.vd, asid := w.asid, know := ks }]) }

/-- First touch of an absent window (R176). -/
def firstTouch (s : State) (core e : Nat) (caller : Option (Nat × Nat)) (ks : List Know := []) : State :=
  queueSwage (onWin s core e (fun w => { w with st := .filling })) core e false caller ks

/-- A scratchpad access of a thread to some words meets the states of the block's windows (R176, R334): it may go on, or it waits
for a window. -/
def touchWords (s : State) (b : Block) (ws : List Nat) (caller : Option (Nat × Nat)) : State × Option Wait :=
  match (windowsAt s b ws).find? (fun e => e.2.st == .absent || e.2.st == .filling || e.2.st == .draining) with
  | none => (s, none)
  | some (e, w) => (if w.st = .absent then firstTouch s b.core e caller else s, some (.window e))

/-- R334: where a scratchpad access of n bytes at an exact offset lies: its words and offset, or the thread's trap. -/
def spadPlace (s : State) (g : Group) (swz : Swz) (win : Nat) (o : Int) (n : Nat) (write : Bool) : Except Trap (List Nat × Nat) :=
  let addr := wrap 64 o
  let prot : Trap := { cause := 0x07, addr := addr, arg := leBytes 4 n, write := write, page := some (addr / 4096) }
  match blockOf s g with
  | none => .error prot
  | some b =>
    if o % n ≠ 0 then .error { prot with cause := 0x09 }
    else if swz = .win then
      let e := rtBase s g.vd + win
      let w := winOf s g.core e
      if decide (win < rtCnt s g.vd) && w.blk == b.bid && w.st != .empty && decide (0 ≤ o ∧ o + n ≤ w.slen) then
        .ok (rangeWords (b.rowStart + w.soff / 256) w.swz o.toNat n, o.toNat)
      else .error prot
    else if decide (0 ≤ o ∧ o + n ≤ 256 * b.rowCount) then
      .ok (rangeWords b.rowStart (match swz with | .x => 1 | .k => 2 | _ => 0) o.toNat n, o.toNat)
    else .error prot

end Sys2Proof.Machine
end

