-- ==== Sys2Proof/Machine/Attest.lean ====
section
/-! DEFINITION. The request block of the attestation unit and the NOR interface as LDM and STM reach them (R26, R27, R31). -/
namespace Sys2Proof.Machine

/-- Is a slot's request in progress? -/
def attBusy (s : State) (r : AttReq) : Bool := s.att.queue.contains r

/-- A 64-bit word of a wide value, and the value with the word replaced. -/
def wordAt {n : Nat} (v : BitVec n) (i : Nat) : Nat := bits v.toNat (64 * i + 63) (64 * i)
def putWord {n : Nat} (v : BitVec n) (i x : Nat) : BitVec n := BitVec.ofNat n (setBits v.toNat (64 * i + 63) (64 * i) x)

/-- R27: a write of XCTL: while the slot's request runs only a GO counts, and it sets BUSY. -/
def xctlWrite (s : State) (v : Nat) : State :=
  if attBusy s .extend then (if bit v 0 then s.onAtt fun a => { a with xBusy := true } else s)
  else
    let s := s.onAtt fun a => { a with xIndex := BitVec.ofNat 4 (bits v 11 8), xBusy := a.xBusy && !bit v 2 }
    if bit v 0 then s.onAtt fun a => { a with xDone := false, queue := a.queue ++ [.extend] } else s

/-- R26, R27: a write of RCTL. -/
def rctlWrite (s : State) (v : Nat) : State :=
  if attBusy s .report then (if bit v 0 then s.onAtt fun a => { a with rBusy := true } else s)
  else
    let s := s.onAtt fun a => { a with rBusy := a.rBusy && !bit v 2 }
    if bit v 0 then s.onAtt fun a => { a with rDone := false, queue := a.queue ++ [.report] } else s

/-- R31: a write of NCTL: a GO while an operation runs sets BUSY and is ignored, its OP with it: the model's choice; an accepted one
takes the operation's operands, and the interface's own turn follows. -/
def nctlWrite (s : State) (v : Nat) : State :=
  if bit v 2 && s.att.norRun.isSome then s.onAtt fun a => { a with norBusy := true }
  else
    let s := s.onAtt fun a => { a with norBusy := a.norBusy && !bit v 4, norOp := BitVec.ofNat 2 v }
    if bit v 2 then
      let s := s.onAtt fun a =>
        { a with norDone := false, norRun := some (a.norOp.toNat, a.nAddr.toNat, a.nLen.toNat) }
      match v % 4 with
      | 1 => s.push (.ev .norRead Sel.none)
      | 2 => s.push (.ev .norErase Sel.none)
      | 3 => s.push (.ev .norProgram Sel.none)
      | _ => s
  else s

/-- An aligned 8-byte read of on-chip unit 0x0400. -/
def attRead (s : State) (off : Nat) : Nat :=
  let a := s.att
  if off = 0 then a.xIndex.toNat * 256 + a.xBusy.toNat * 4 + a.xDone.toNat * 2
  else if off = 8 then a.xStat.toNat
  else if 0x40 ≤ off ∧ off < 0x80 then wordAt a.xDig ((off - 0x40) / 8)
  else if off = 0x100 then a.rBusy.toNat * 4 + a.rDone.toNat * 2
  else if off = 0x108 then a.rStat.toNat
  else if off = 0x110 then a.rDest.toNat
  else if 0x140 ≤ off ∧ off < 0x180 then wordAt a.rNonce ((off - 0x140) / 8)
  else if 0x400 ≤ off ∧ off < 0x800 then wordAt (a.meas[(off - 0x400) / 64]?.getD 0) (off % 64 / 8)
  else if off = 0x1000 then a.norStatus.toNat * 256 + a.norBusy.toNat * 16 + a.norDone.toNat * 8 + a.norOp.toNat
  else if off = 0x1008 then a.nAddr.toNat
  else if off = 0x1010 then a.nLen.toNat
  else if off = 0x1018 then a.nBuf.toNat
  else 0

/-- An aligned 8-byte write of on-chip unit 0x0400. -/
def attWrite (s : State) (off v : Nat) : State :=
  let w : DWord := BitVec.ofNat 64 v
  if off = 0 then xctlWrite s v
  else if off = 0x100 then rctlWrite s v
  else if 0x40 ≤ off ∧ off < 0x80 then
    if attBusy s .extend then s else s.onAtt fun a => { a with xDig := putWord a.xDig ((off - 0x40) / 8) v }
  else if off = 0x110 then if attBusy s .report then s else s.onAtt fun a => { a with rDest := w }
  else if 0x140 ≤ off ∧ off < 0x180 then
    if attBusy s .report then s else s.onAtt fun a => { a with rNonce := putWord a.rNonce ((off - 0x140) / 8) v }
  else if off = 0x1000 then nctlWrite s v
  else if off = 0x1008 then s.onAtt fun a => { a with nAddr := BitVec.ofNat 64 (v % 2 ^ 29) }
  else if off = 0x1010 then s.onAtt fun a => { a with nLen := w }
  else if off = 0x1018 then s.onAtt fun a => { a with nBuf := w }
  else s

/-- ATTEST_EXTEND (R27): a GO write to the extend slot. -/
def execAttestExtend (v : BitVec 64) (s : State) : Host.Outcome State Fault Refusal := .next (xctlWrite s v.toNat)
/-- ATTEST_REPORT_REQUEST (R26): a GO write to the report slot. -/
def execAttestReportRequest (v : BitVec 64) (s : State) : Host.Outcome State Fault Refusal := .next (rctlWrite s v.toNat)

end Sys2Proof.Machine
end

