-- ==== Sys2Proof/Machine/OnChip.lean ====
section
/-! DEFINITION. The on-chip physical map (R168) and the words of a mandrel lane's image (R142). -/
namespace Sys2Proof.Machine

/-- R142: MIP as it reads: the pending bits, with BATCH of each VD as a level and TIMER while MTIME has reached MTCMP. -/
def mipImage (s : State) (core : Nat) : Nat :=
  let m := mandrelOf s core
  let base := nClr m.mip.toNat 0xFFFF0000
  base + maskOf (((List.range 16).filter (fun v => batch s core v)).map (fun v => 16 + v))

/-- Key of an accumulator word (R168). -/
def tileKey (cluster tile row col : Nat) : Nat := 65536 * cluster + 4096 * tile + 64 * row + col
def tileWord (s : State) (cluster tile row col : Nat) : Word := s.loc.tiles.at 0 (tileKey cluster tile row col)
def tilePut (s : State) (cluster tile row col : Nat) (v : Word) : State :=
  s.onLoc fun l => { l with tiles := l.tiles.write 0 (tileKey cluster tile row col) v }
def tileBad (s : State) (cluster tile row : Nat) : Bool := s.loc.tilePoison.contains (1024 * cluster + 64 * tile + row)
def setTileBad (s : State) (cluster tile row : Nat) (p : Bool) : State :=
  s.onLoc fun l => { l with tilePoison := (if p then setIns else setDel) l.tilePoison (1024 * cluster + 64 * tile + row) }

/-- What an aligned word of a core unit of the map is. -/
inductive MapCell where
  | row (key : Nat)
  | sram (word : Nat)
  | tile (key : Nat)
  | mreg (i : Nat)
  | mip (hi : Bool)
  | region (e o : Nat)
  | none
  deriving DecidableEq, Repr

/-- R168: the layout of a core unit; a way segment is not there. -/
def mapCell (s : State) (core off : Nat) : MapCell :=
  if off < 0x80000 then .row (rowKey core (off / 0x20000) (off % 0x20000 / 256) (off % 256 / 4))
  else if off < 0x100000 then (if isWay s ((off - 0x80000) / 0x2000) then .none else .sram ((off - 0x80000) / 4))
  else if off < 0x110000 then
    .tile (65536 * clusterOfCore core + 4096 * (4 * (core % 4) + (off - 0x100000) / 0x4000) + off % 0x4000 / 4)
  else if off < 0x110100 then .mreg ((off - 0x110000) / 4)
  else if off = 0x120000 then .mip false
  else if off = 0x120004 then .mip true
  else if 0x130000 ≤ off ∧ off < 0x134000 then .region ((off - 0x130000) / 64) (off % 64)
  else .none

/-- One aligned word of the map, of a core unit. -/
def coreMapWord (s : State) (core off : Nat) : Nat :=
  match mapCell s core off with
  | .row k => (s.loc.rows.at 0 k).toNat
  | .sram w => (sramWord s core w).toNat
  | .tile k => (s.loc.tiles.at 0 k).toNat
  | .mreg i => ((mandrelOf s core).regs[i]?.getD 0).toNat
  | .mip hi => bits (mipImage s core) (if hi then 63 else 31) (if hi then 32 else 0)
  | .region e o => field (winOf s core e).desc o 4
  | .none => 0

/-- A word of the map written; read-only words and absent ones ignore it. -/
def coreMapPut (s : State) (core off : Nat) (v : Word) : State :=
  match mapCell s core off with
  | .row k => s.onLoc fun l => { l with rows := l.rows.write 0 k v }
  | .sram w => sramPut s core w v
  | .tile k => s.onLoc fun l => { l with tiles := l.tiles.write 0 k v }
  | .mreg i => onMandrel s core (fun m => { m with regs := m.regs.setIfInBounds i v })
  | _ => s

/-- Unit and offset of an on-chip address. -/
def mapUnit (a : Nat) : Nat := bits a 39 24
def mapOff (a : Nat) : Nat := a % 2 ^ 24

/-- Is the word of an address poisoned (R239)? -/
def mapBad (s : State) (a : Nat) : Bool :=
  if mapUnit a < 832 then
    match mapCell s (mapUnit a) (mapOff a / 4 * 4) with
    | .sram w => sramBad s (mapUnit a) w
    | .tile k => s.loc.tilePoison.contains (k / 64)
    | _ => false
  else false

/-- n bytes of the map (1, 2, 4, 8 or 16, aligned). The request block and the NOR interface answer aligned 8-byte reads. -/
def mapRead (s : State) (a n : Nat) : Bytes :=
  if mapUnit a < 832 then
    ((List.range ((n + 3) / 4)).flatMap (fun i => leBytes 4 (coreMapWord s (mapUnit a) (mapOff a / 4 * 4 + 4 * i)))).drop (a % 4)
      |>.take n
  else if mapUnit a = 0x400 ∧ n = 8 then leBytes 8 (attRead s (mapOff a))
  else List.replicate n 0

/-- A write of n bytes to the map. -/
def mapWrite (s : State) (a : Nat) (b : Bytes) : State :=
  if mapUnit a < 832 then
    let o := mapOff a / 4 * 4
    let k := (b.length + 3) / 4
    let old := (List.range k).flatMap (fun i => leBytes 4 (coreMapWord s (mapUnit a) (o + 4 * i)))
    let new := splice old (a % 4) b
    (List.range k).foldl (fun s i => coreMapPut s (mapUnit a) (o + 4 * i) (BitVec.ofNat 32 (field new (4 * i) 4))) s
  else if mapUnit a = 0x400 ∧ b.length = 8 then attWrite s (mapOff a) (leNat b)
  else s

end Sys2Proof.Machine
end

