-- ==== Sys2Proof/Machine/Sync.lean ====
section
/-! DEFINITION. Named barriers (R340 to R346), the cluster barrier (R347), counter handles and decrements (R101 to R104). -/
namespace Sys2Proof.Machine

/-! Named barriers. -/

def Barrier.reset : Barrier := { expect := 0, arr := 0, phase := false, out := 0 }
def Block.bar (b : Block) (j : Nat) : Barrier := b.bars.at Barrier.reset j
def onBar (s : State) (bid j : Nat) (f : Barrier → Barrier) : State :=
  onBlock s bid (fun b => { b with bars := b.bars.write Barrier.reset j (f (b.bar j)) })
def barOf (s : State) (bid j : Nat) : Barrier :=
  match findBlock s bid with
  | some b => b.bar j
  | none => Barrier.reset

/-- A bit of a thread's sixteen barrier bits. -/
def bar16 (v : BitVec 16) (j : Nat) : Bool := bit v.toNat j
def setBar16 (v : BitVec 16) (j : Nat) (x : Bool) : BitVec 16 := BitVec.ofNat 16 (setBits v.toNat j j x.toNat)

/-- The threads of each group for which a test holds. -/
def threadsOf (s : State) (p : Group → Thread → Bool) : List (Group × List Nat) :=
  (s.cores.groups.map (fun g => (g, (List.range g.threads.length).filter (fun i => p g (g.thread i))))).filter (fun e => !e.2.isEmpty)
/-- Threads whose wait on a barrier ends go on, and their return acquires the arrivals of its last complete phase at a scope (R343). -/
def barReturn (s : State) (p : Group → Thread → Bool) (f : Thread → Thread) (sc : Nat) (c : Chan) : State :=
  (threadsOf s p).foldl (fun s e => recvBy s e.1 e.2 sc c) (wakeThreads s (fun g _ x => p g x) f)

/-- A thread's return from a named barrier, with PEND clear. -/
def Thread.fromBar (x : Thread) (j : Nat) : Thread := { x.goOn with pend := setBar16 x.pend j false }
/-- Complete() of R342: the phase turns, and every thread waiting on the barrier goes on with PEND clear (R343); one that is saved does
so when it is restored (R358). -/
def barComplete (s : State) (bid j : Nat) : State :=
  let s := onBar s bid j (fun b => { b with phase := !b.phase, arr := 0 })
  barReturn (passChan s (.bar bid j false) (.bar bid j true) (fun _ => false))
    (fun g x => g.blk == bid && g.resid == .core && x.st == .wait (.bar j)) (·.fromBar j) 2 (.bar bid j true)

/-- One arrival counted. -/
def barCount (s : State) (bid j : Nat) : State :=
  let s := onBar s bid j (fun b => { b with arr := b.arr + 1 })
  let b := barOf s bid j
  if b.arr = b.expect then barComplete s bid j else s

/-- Barrier Busy of a barrier (R145). -/
def barBusy (j : Nat) : Trap := { cause := 0x0B, addr := j }

/-- The release of an arrival of threads at a scope (R342, R192), after the crossing of its path mask (R196). -/
def arriving (s : State) (g : Group) (act : List Nat) (sc pm : Nat) (c : Chan) : State :=
  sendBy (crossBy s g act 0 pm) g act sc 0xFF c

/-- R342: the arrival of a thread with a count and a path mask, or Barrier Busy, which changes nothing. -/
def barArrive (s : State) (g : Group) (t j c pm : Nat) : State × Option Trap :=
  let b := barOf s g.blk j
  if c > 65535 ∨ (c = 0 ∧ b.expect = 0) ∨ (c ≠ 0 ∧ b.expect ≠ 0 ∧ c ≠ b.expect.toNat) then (s, some (barBusy j))
  else
    let s := if b.expect = 0 then onBar s g.blk j (fun b => { b with expect := BitVec.ofNat 16 c }) else s
    let s := onThread s g.gid t (fun x => { x with tok := setBar16 x.tok j b.phase, pend := setBar16 x.pend j true })
    (barCount (arriving s g [t] 2 pm (.bar g.blk j false)) g.blk j, none)

/-- R343: the wait of a thread: it goes on at once when its phase has turned, and waits otherwise. -/
def barWaitOn (s : State) (g : Group) (t j : Nat) : State × Done :=
  let b := barOf s g.blk j
  let x := ((findGroup s g.gid).getD g).thread t
  if bar16 x.pend j then
    if bar16 x.tok j != b.phase then
      (recvBy (onThread s g.gid t (fun x => { x with pend := setBar16 x.pend j false })) g [t] 2 (.bar g.blk j true), .next)
    else (s, .wait (.bar j))
  else (onThread s g.gid t (fun x => { x with tok := setBar16 x.tok j b.phase }), .wait (.bar j))

/-- R342: the arrival of a Swage completion, with its release. -/
def barSwage (s : State) (bid j : Nat) (rs : List Rel) : State :=
  let s := onBar s bid j (fun b => { b with out := b.out - 1 })
  if (barOf s bid j).expect = 0 then s else barCount (addChan s (.bar bid j false) rs) bid j

/-- Does a thread of the block wait on the barrier? -/
def barWaiters (s : State) (bid j : Nat) : Bool :=
  s.cores.groups.any (fun g => g.blk == bid && g.threads.any (fun x => x.st == .wait (.bar j)))

/-- R344: BAR.INIT. -/
def barInit (s : State) (bid j c : Nat) : State × Option Trap :=
  if c = 0 ∨ 65535 < c ∨ (barOf s bid j).out ≠ 0 ∨ barWaiters s bid j then (s, some (barBusy j))
  else (onBar s bid j (fun b => { b with expect := BitVec.ofNat 16 c, arr := 0 }), none)

/-- R345: BAR.INV; waiting threads are released with a Barrier Invalidated trap, one entry per waiting convoy. -/
def barInv (s : State) (bid j : Nat) : State × Option Trap :=
  if (barOf s bid j).out ≠ 0 then (s, some (barBusy j))
  else
    let s := onBar s bid j (fun b => { b with expect := 0, arr := 0 })
    let hit := s.cores.groups.filter (fun g => g.blk == bid)
    (hit.foldl (fun s g =>
      let ts := (List.range g.threads.length).filter (fun t => (g.thread t).st == .wait (.bar j))
      let pcs := (ts.map (fun t => (g.thread t).pc)).eraseDups
      pcs.foldl (fun s pc =>
        takeTraps s g pc.toNat ((ts.filter (fun t => (g.thread t).pc == pc)).map (fun t => (t, { cause := 0x0C, addr := j })))) s) s,
      none)

/-! The cluster barrier. -/

/-- Groups of a team's blocks. -/
def teamGroups (s : State) (team : Nat) : List Group :=
  s.cores.groups.filter (fun g => s.cores.blocks.any (fun b => b.bid == g.blk && b.team == some team))

/-- A thread's return from the cluster barrier. -/
def Thread.fromCbar (x : Thread) : Thread := { x.goOn with cpend := false }
/-- The agents of a team's threads whose arrival still counts, for the next phase. -/
def earlyAgents (s : State) (team : Nat) : List Nat :=
  (teamGroups s team).flatMap (fun g =>
    ((List.range g.threads.length).filter (fun t => (g.thread t).carr != 0)).map (threadAgent g.gid))
/-- R347: a phase completes once every thread of the team that has not exited has arrived; each completion counts one arrival of
each thread, and a further arrival counts towards the next phase. -/
def cbarTest (s : State) (team : Nat) : Nat → State
  | 0 => s
  | n + 1 =>
    let gs := teamGroups s team
    let live := gs.flatMap (fun g => g.threads.filter (fun x => x.st != .exited))
    if live.isEmpty || live.any (fun x => x.carr == 0) then s
    else
      let ids := gs.map (·.gid)
      let s := s.onCores fun c =>
        { c with
          teams := c.teams.write false team (!(c.teams.at false team))
          groups := c.groups.map (fun g => if ids.contains g.gid then
            { g with threads := g.threads.map (fun x => { x with carr := x.carr - 1 }) } else g) }
      let s := passChan s (.cbar team false) (.cbar team true) (fun r => (earlyAgents s team).contains r.agent)
      let s := barReturn s (fun g x => ids.contains g.gid && g.resid == .core && x.st == .wait .cbar) Thread.fromCbar 3 (.cbar team true)
      cbarTest s team n

def cbarSettle (s : State) (team : Nat) : State := cbarTest s team 65536

/-- A thread's arrival at its team's barrier. -/
def cbarArrive (s : State) (g : Group) (t team pm : Nat) : State :=
  let s := onThread s g.gid t (fun x => { x with ctok := s.cores.teams.at false team, cpend := true, carr := x.carr + 1 })
  cbarSettle (arriving s g [t] 3 pm (.cbar team false)) team

/-- R358: a restored thread that waits on a barrier whose phase has turned since its arrival goes on. -/
def barResume (s : State) (g : Group) : State :=
  let turned := fun (x : Thread) =>
    match x.st with
    | .wait (.bar j) => bar16 x.pend j && bar16 x.tok j != (barOf s g.blk j).phase
    | _ => false
  let s := (List.range 16).foldl (fun s j =>
    barReturn s (fun h x => h.gid == g.gid && turned x && x.st == .wait (.bar j)) (·.fromBar j) 2 (.bar g.blk j true)) s
  match (blockOf s g).bind (·.team) with
  | none => s
  | some team =>
    barReturn s (fun h x => h.gid == g.gid && x.st == .wait .cbar && x.cpend && x.ctok != s.cores.teams.at false team) Thread.fromCbar 3
      (.cbar team true)

/-- A thread's wait at its team's barrier. -/
def cbarWaitOn (s : State) (g : Group) (t team : Nat) : State × Done :=
  let ph := s.cores.teams.at false team
  let x := ((findGroup s g.gid).getD g).thread t
  if x.cpend then
    if x.ctok != ph then (recvBy (onThread s g.gid t (fun x => { x with cpend := false })) g [t] 3 (.cbar team true), .next)
    else (s, .wait .cbar)
  else (onThread s g.gid t (fun x => { x with ctok := ph }), .wait .cbar)

/-! Counters (R101 to R104). -/

/-- R101: is a handle valid for a VD? -/
def handleOk (s : State) (v h : Nat) : Bool :=
  bits h 29 16 == 0 && decide (cntBase s v ≤ h % 65536 ∧ h % 65536 < cntBase s v + cntCnt s v)
def noHandle : Nat := 0xFFFFFFFF
def counterKey (h : Nat) : Nat := 65536 * bits h 31 30 + h % 65536
def Counter.free : Counter := { st := .free, value := 0, poison := false, packet := [], vd := 0, asid := 0 }
def counterAt (s : State) (h : Nat) : Counter := s.lq.counters.at Counter.free (counterKey h)
def onCounter (s : State) (h : Nat) (f : Counter → Counter) : State :=
  s.onLq fun q => { q with counters := q.counters.write Counter.free (counterKey h) (f (q.counters.at Counter.free (counterKey h))) }

/-- The record of an invalid handle (R101). -/
def badHandle (s : State) (v h : Nat) : State :=
  offerRec s v { type := 0x0B, sev := 1, vd := v, unit := 0x420 + bits h 31 30, data0 := h }

/-- The handles of a CNT field in which 0xFFFF_FFFF means no counter (R39, R62, R89, R101). -/
def cntField (h : Nat) : List Nat := if h = noHandle then [] else [h]

/-- A list of decrements sent by a source, with the releases they carry (R101, R102, R104): valid handles wait at their dies under the source's key; an invalid one is
discarded with a record. -/
def sendDecs (s : State) (v asid key : Nat) (core : Option Nat) (hs : List Nat) (launch : Option Nat := none)
    (after : Option (Nat × Nat) := none) (rels : List Rel := []) : State :=
  let s := (hs.filter (fun h => !handleOk s v h)).foldl (fun s h => badHandle s v h) s
  let ok := hs.filter (fun h => handleOk s v h)
  if ok.isEmpty then s
  else s.onLq fun q =>
    let d : Dec := { cycle := s.sch.cycle, key := key, vd := v, core := core, asid := asid, launch := launch, after := after,
                     handles := ok.map (BitVec.ofNat 32), rels := rels }
    { q with decs := q.decs ++ [d] }

/-- Source keys (R104). -/
def taskKey (core : Nat) : Nat := 3 * core
def swageKey (cluster : Nat) : Nat := 12 * cluster + 1
def anvilKey (cluster : Nat) : Nat := 12 * cluster + 2
def neKey : Nat := 2496
def landKey : Nat := 2497
def sgKey : Nat := 2498
def coKey : Nat := 2499
def lqKey : Nat := 2500

/-! The word a completion writes, and its release (R178, R202). -/

/-- A word of a block's scratchpad, in physical order, with the releases that its store carries. -/
def spadWordPut (s : State) (bid off v : Nat) (rels : List Rel := []) : State :=
  match findBlock s bid with
  | some b =>
    let w := 64 * b.rowStart + off / 4
    tell (sramPut s b.core w (BitVec.ofNat 32 v)) (sramLoc b.core (4 * w)) (leBytes 4 v) rels
  | none => s

/-- A release by an engine of a die at a scope, towards the paths of a mask (R196, R202): its writes are in the die's L2, and go to
the MSC when another die or a path that reads there is to see them. -/
def engineRelease (s : State) (die v sc paths : Nat) : State :=
  if 5 ≤ sc ∨ nAnd paths 0x38 ≠ 0 then l2Release s die v 0xFF else s

end Sys2Proof.Machine
end

