-- ==== Sys2Proof/Machine/Bounds.lean ====
section
/-! DEFINITION. Bound registers and checked elements (R233 to R235). -/
namespace Sys2Proof.Machine

/-- R233: the reset values, −∞ and +∞. -/
def Bound.reset : Bound := { count := 0, i32 := false, nanp := false, action := 0, lo := 0xFF800000, hi := 0x7F800000 }
def boundKey (core v b : Nat) : Nat := 512 * core + 32 * v + b
def boundOf (s : State) (core v b : Nat) : Bound := s.loc.bounds.at Bound.reset (boundKey core v b)
def onBound (s : State) (core v b : Nat) (f : Bound → Bound) : State :=
  s.onLoc fun l => { l with bounds := l.bounds.write Bound.reset (boundKey core v b) (f (l.bounds.at Bound.reset (boundKey core v b))) }

/-- The exact value of an element (R234). -/
def elemFl (t : ETy) (v : Nat) : Fl :=
  match etyFmt t with
  | some f => f.dec v
  | none => flOfInt (toInt (!etyUnsigned t) (etyBits t) v)

/-- A bound's exact value. -/
def Bound.side (b : Bound) (v : BitVec 32) : Fl := if b.i32 then flOfInt (sext 32 v.toNat) else f32.dec v.toNat

/-- Is a value below LOW, or above HIGH? A NaN bound leaves its side unchecked. -/
def Bound.below (b : Bound) (x : Fl) : Bool := !x.isNan && !(b.side b.lo).isNan && decide (cmpFl x (b.side b.lo) < 0)
def Bound.above (b : Bound) (x : Fl) : Bool := !x.isNan && !(b.side b.hi).isNan && decide (cmpFl x (b.side b.hi) > 0)

/-- R234: does an element violate? -/
def Bound.violates (b : Bound) (t : ETy) (v : Nat) : Bool :=
  let x := elemFl t v
  if x.isNan then b.nanp else b.below x || b.above x

/-- A bound as an element: rounded inwards and into the finite range (R235). -/
def boundElem (t : ETy) (mode : Rnd) (x : Fl) : Nat :=
  match etyFmt t with
  | some f => (roundTo f mode true x).bits
  | none => floatToInt t mode x

/-- R235: what CLAMP writes for a violating element. -/
def Bound.clamped (b : Bound) (t : ETy) (v : Nat) : Nat :=
  let x := elemFl t v
  if x.isNan then 0
  else if b.below x then boundElem t .ru (b.side b.lo)
  else boundElem t .rd (b.side b.hi)

/-- An element as a checked operation writes it. -/
def Bound.write (b : Bound) (t : ETy) (v : Nat) : Nat := if b.action = 1 ∧ b.violates t v then b.clamped t v else v

/-- COUNT grows by the violating elements, saturating. -/
def countViol (s : State) (core v b n : Nat) : State :=
  onBound s core v b (fun x => { x with count := BitVec.ofNat 32 (min (2 ^ 32 - 1) (x.count.toNat + n)) })

/-- The record of an operation with violations (R235). -/
def boundRec (s : State) (core v b n first : Nat) (pc tag : Option Nat) : State :=
  offerRec s v { type := 0x04, sev := 1, vd := v, unit := core, addr := some b, pc := pc, tag := tag, data0 := n, data1 := first }

/-- R235: the end of an engine's checked operation in an address space: COUNT, the record of FLAG and TRAP, and the entry of TRAP.
`x` is the register as read at the start. -/
def boundEnd (s : State) (core v asid b : Nat) (x : Bound) (n first : Nat) (pc tag : Option Nat) : State :=
  if n = 0 then s
  else
    let s := countViol s core v b n
    let s := if x.action = 1 then s else boundRec s core v b n first pc tag
    if x.action = 2 then postDirect s core v 0x0A b (leBytes 8 first) .core asid else s

end Sys2Proof.Machine
end

