-- ==== Sys2Proof/Machine/Pages.lean ====
section
/-! DEFINITION. The device's register pages (R430): queue pairs and block rings (R40, R41, R44, R50), the launch queue (R86, R87) and
the governor (R109, R110). -/
namespace Sys2Proof.Machine

/-! Queue pairs. -/

def qpKey (v q : Nat) : Nat := 4096 * v + q
def findQp (s : State) (v q : Nat) : Option Qp := s.net.qps.find (qpKey v q)
def onQp (s : State) (v q : Nat) (f : Qp → Qp) : State :=
  s.onNet fun n => { n with qps := match n.qps.find (qpKey v q) with | some x => n.qps.put (qpKey v q) (f x) | none => n.qps }

/-- R41: the tail after a store. -/
def tailFilter (tail v : BitVec 16) : BitVec 16 :=
  let d := (v - tail).toNat
  if 1 ≤ d ∧ d ≤ 2 ^ 15 then v else tail

/-- R41, R50: a store to TAIL of an enabled queue; an evicted one's store is held with its state. -/
def qpTailStore (s : State) (v q : Nat) (x : BitVec 16) : State :=
  onQp s v q (fun p =>
    if p.evicted then { p with heldTails := p.heldTails ++ [x] } else { p with tail := tailFilter p.tail x, stopped := false })

/-- R44: the completion ring is full. -/
def Qp.full (p : Qp) : Bool := (p.cqTail - p.cqHead).toNat == 2 ^ p.cfg.cqLog2

/-- R44: software advances CQHEAD. -/
def qpCqheadStore (s : State) (v q : Nat) (x : BitVec 16) : State :=
  onQp s v q (fun p => let p := { p with cqHead := x }; { p with cqFull := Qp.full p })
/-- R50: software advances RQHEAD. -/
def qpRqheadStore (s : State) (v q : Nat) (x : BitVec 16) : State := onQp s v q (fun p => { p with rqHead := x })

/-- R40: a register of a queue's page; a queue that is not enabled reads as zero. -/
def qpRead (s : State) (v q off : Nat) : Nat :=
  match findQp s v q with
  | none => 0
  | some p =>
    if off = 0 then p.tail.toNat
    else if off = 8 then p.head.toNat
    else if off = 0x10 then p.cqHead.toNat
    else if off = 0x18 then p.rqHead.toNat
    else if off = 0x20 then 8 * p.evicted.toNat + 4 * p.cqFull.toNat + 2 * p.stopped.toNat + p.error.toNat
    else 0

def qpWrite (s : State) (v q off x : Nat) : State :=
  let w := BitVec.ofNat 16 x
  if off = 0 then qpTailStore s v q w
  else if off = 0x10 then qpCqheadStore s v q w
  else if off = 0x18 then qpRqheadStore s v q w
  else if off = 0x20 then onQp s v q (fun p => { p with error := p.error && !bit x 0 })
  else s

/-! Launch queues. -/

def LqRegs.reset : LqRegs := { tail := 0, head := 0, base := 0, stopped := false, error := false, last := none }
def lqOf (s : State) (v : Nat) : LqRegs := s.lq.queues.at LqRegs.reset v
def onLqRegs (s : State) (v : Nat) (f : LqRegs → LqRegs) : State :=
  s.onLq fun q => { q with queues := q.queues.put v (f (q.queues.at LqRegs.reset v)) }

/-- R86: 16 accepted launches of the VD are incomplete. -/
def lqFull (s : State) (v : Nat) : Bool := decide (16 ≤ (s.lq.launches.filter (fun l => l.vd == v)).length)

/-- R86, R87: a store to LQ_TAIL. -/
def lqTailStore (s : State) (v : Nat) (x : BitVec 16) : State :=
  onLqRegs s v (fun q => { q with tail := tailFilter q.tail x, stopped := false })

/-- The ring base as it reads and acts: bits below the ring size are zero. -/
def lqBase (s : State) (v : Nat) : Nat := (lqOf s v).base.toNat / 2 ^ (8 + lqLog2 s v) * 2 ^ (8 + lqLog2 s v) / 4096 * 4096

def lqRead (s : State) (v off : Nat) : Nat :=
  let q := lqOf s v
  if off = 0 then q.tail.toNat
  else if off = 8 then q.head.toNat
  else if off = 0x20 then 4 * (lqFull s v).toNat + 2 * q.stopped.toNat + q.error.toNat
  else if off = 0x30 then lqBase s v
  else 0

def lqWrite (s : State) (v off x : Nat) : State :=
  let q := lqOf s v
  if off = 0 then lqTailStore s v (BitVec.ofNat 16 x)
  else if off = 0x20 then onLqRegs s v (fun q => { q with error := q.error && !bit x 0 })
  else if off = 0x30 then
    if q.head = q.tail ∧ s.lq.launches.all (fun l => l.vd != v) then
      onLqRegs s v (fun q => { q with base := BitVec.ofNat 64 (x / 4096 * 4096) })
    else s
  else s

/-! Governors. -/

def Stage.reset : Stage := { ring := 0, tail := 0, head := 0, thr := 0, failed := false }
def Gov.reset : Gov := { ctl := 0, stages := [], workers := [] }
def govKey (v d : Nat) : Nat := 4 * v + d
def govOf (s : State) (v d : Nat) : Gov := s.lq.gov.at Gov.reset (govKey v d)
def onGov (s : State) (v d : Nat) (f : Gov → Gov) : State :=
  s.onLq fun q => { q with gov := q.gov.put (govKey v d) (f (q.gov.at Gov.reset (govKey v d))) }
def Gov.stage (g : Gov) (i : Nat) : Stage := g.stages.at Stage.reset i
def Gov.onStage (g : Gov) (i : Nat) (f : Stage → Stage) : Gov := { g with stages := g.stages.put i (f (g.stage i)) }
def Gov.worker (g : Gov) (n : Nat) : Nat := (g.workers.at 0 n).toNat

/-- R110: a store to STG_TAIL is filtered and lets the workers look again. -/
def stgTailStore (s : State) (v d i : Nat) (x : BitVec 16) : State :=
  onGov s v d (fun g => g.onStage i (fun t => { t with tail := tailFilter t.tail x, failed := false }))

def govRead (s : State) (v d off : Nat) : Nat :=
  let g := govOf s v d
  if off = 0 then g.ctl.toNat
  else if 0x100 ≤ off ∧ off < 0x200 then
    let t := g.stage ((off - 0x100) / 0x20)
    if off % 0x20 = 0 then t.ring.toNat
    else if off % 0x20 = 8 then t.tail.toNat
    else if off % 0x20 = 0x10 then t.head.toNat
    else t.thr.toNat
  else if 0x400 ≤ off ∧ off < 0x600 then g.worker ((off - 0x400) / 8)
  else 0

def govWrite (s : State) (v d off x : Nat) : State :=
  let w := fun m => BitVec.ofNat 64 (nAnd x m)
  if off = 0 then onGov s v d (fun g => { g with ctl := w 0xFF01 })
  else if 0x100 ≤ off ∧ off < 0x200 then
    let i := (off - 0x100) / 0x20
    if off % 0x20 = 0 then onGov s v d (fun g => g.onStage i (fun t => { t with ring := w 0xFFFFFFFFFFFFFF01 }))
    else if off % 0x20 = 8 then stgTailStore s v d i (BitVec.ofNat 16 x)
    else if off % 0x20 = 0x18 then onGov s v d (fun g => g.onStage i (fun t => { t with thr := w 0xFFFFFFFFFFFF }))
    else s
  else if 0x400 ≤ off ∧ off < 0x600 then
    onGov s v d (fun g => { g with workers := g.workers.put ((off - 0x400) / 8) (w 0x873F03FF) })
  else s

/-! The pages by guest-physical address. -/

/-- Which register page of a VD a guest-physical address lies in: a queue, the launch queue, or a die's governor. -/
inductive PageId where
  | qp (q : Nat)
  | lq
  | gov (d : Nat)
  deriving DecidableEq, Repr

def pageOf (s : State) (v gpa : Nat) : Option PageId :=
  let np := (netOf s v).pages.toNat
  if np ≤ gpa ∧ gpa < np + 4096 * qpMax s v then some (.qp ((gpa - np) / 4096))
  else if gpa / 4096 * 4096 = lqPageOf v then some .lq
  else ((List.range 4).find? (fun d => gpa / 4096 * 4096 == govPageOf v d)).map .gov

/-- An aligned 64-bit register of a page. -/
def pageRead (s : State) (v gpa : Nat) : Nat :=
  match pageOf s v gpa with
  | some (.qp q) => qpRead s v q (gpa % 4096)
  | some .lq => lqRead s v (gpa % 4096)
  | some (.gov d) => govRead s v d (gpa % 4096)
  | none => 0
def pageWrite (s : State) (v gpa x : Nat) : State :=
  match pageOf s v gpa with
  | some (.qp q) => qpWrite s v q (gpa % 4096) x
  | some .lq => lqWrite s v (gpa % 4096) x
  | some (.gov d) => govWrite s v d (gpa % 4096) x
  | none => s

/-- R430: n bytes of a page. -/
def pageBytes (s : State) (v gpa n : Nat) : Bytes :=
  ((leBytes 8 (pageRead s v (gpa / 8 * 8)) ++ leBytes 8 (pageRead s v (gpa / 8 * 8 + 8))).drop (gpa % 8)).take n

/-! The stores of the table that name a register of a page. -/

abbrev Answer := Host.Outcome State Fault Refusal

/-- QP_TAIL_WRITE (R41). -/
def execQpTailWrite (vd : Vd) (q : Nat) (v : BitVec 64) (s : State) : Answer := .next (qpTailStore s vd.val q (v.setWidth 16))
/-- QP_CQHEAD_WRITE (R44). -/
def execQpCqheadWrite (vd : Vd) (q : Nat) (v : BitVec 64) (s : State) : Answer := .next (qpCqheadStore s vd.val q (v.setWidth 16))
/-- QP_RQHEAD_WRITE (R50). -/
def execQpRqheadWrite (vd : Vd) (q : Nat) (v : BitVec 64) (s : State) : Answer := .next (qpRqheadStore s vd.val q (v.setWidth 16))
/-- LQ_TAIL_WRITE (R87). -/
def execLqTailWrite (vd : Vd) (v : BitVec 64) (s : State) : Answer := .next (lqTailStore s vd.val (v.setWidth 16))
/-- STG_TAIL_WRITE (R110). -/
def execStgTailWrite (vd : Vd) (die : Die) (i : Fin 8) (v : BitVec 64) (s : State) : Answer :=
  .next (stgTailStore s vd.val die.val i.val (v.setWidth 16))

end Sys2Proof.Machine
end

