-- ==== Sys2Proof/Machine/Frames.lean ====
section
/-! DEFINITION. Operations on frames and translations: write-back and scrub (R227), copies, removal of translations (R213, R214),
page migration (R218), sealing (R219) and snapshot shadows (R231, R232). -/
namespace Sys2Proof.Machine

/-! Copies of frames in the caches. -/

/-- The frame of a line. -/
def frameOfLine (l : Nat) : Nat := l / 512

/-- Every cached copy of the lines for which a test holds: dirty sectors written back to memory, then invalid. -/
def flushLines (s : State) (f : Nat → Bool) : State :=
  let s := (l1Keys s (fun _ l => f l.spa)).foldl l1Evict s
  ((s.mem.l2.filter (fun e => f e.2.spa)).map (·.1)).foldl l2Evict s
def flushFrame (s : State) (f : Nat) : State := flushLines s (fun l => frameOfLine l == f)

/-- Every cached copy of a frame's lines discarded, dirty sectors included (R227 step 1). -/
def discardFrame (s : State) (f : Nat) : State :=
  s.onMem fun m =>
    { m with
      l1 := m.l1.filter (fun e => frameOfLine e.2.spa != f)
      l2 := m.l2.filter (fun e => frameOfLine e.2.spa != f)
      msc := m.msc.filter (fun e => frameOfLine e.2.spa != f)
      l1i := m.l1i.filter (fun e => e.spa / 65536 != f) }

/-- R227 step 3: a leaf node whose major is raised and whose minors are 0, counted in the nodes above it (R221). -/
def freshNode (m : MemState) (k node : Nat) : MemState :=
  countAbove
    { m with
      major := m.major.put (majorKey 0 k node) (m.major.at 0 (majorKey 0 k node) + 1)
      minor := m.minor.filter (fun e => !decide (minorKey 0 k (64 * node) ≤ e.1 ∧ e.1 < minorKey 0 k (64 * node) + 64))
      harm := m.harm.filter (fun h => match h with
        | .node lvl stack n _ => !(lvl == 0 && stack == k && n == node)
        | .line l _ | .ecc l | .flip l _ => !(homeStack (128 * l) == k && localLine (128 * l) / 64 == node)) } k (64 * node)
/-- And of the eight leaf nodes of a frame, one to an 8 KiB chunk. -/
def freshCounters (s : State) (f : Nat) : State :=
  s.onMem fun m => (List.range 8).foldl (fun m c => let a := 65536 * f + 8192 * c; freshNode m (homeStack a) (localLine a / 64)) m

/-- The bytes of a range become zeros, without poison and without code-write marks. -/
def clearRange (s : State) (a n : Nat) : State :=
  s.onMem fun m =>
    { m with
      cells := m.cells.filter (fun e => !decide (a ≤ e.1 ∧ e.1 < a + n))
      poison := m.poison.filter (fun k => !decide (a / 32 ≤ k ∧ k < (a + n) / 32))
      marks := m.marks.filter (fun e => !decide (a / 32 ≤ e.1 ∧ e.1 < (a + n) / 32)) }

/-- R227 steps 1 to 3: a frame scrubbed. -/
def scrubFrame (s : State) (f : Nat) : State := clearRange (freshCounters (dropFrame (discardFrame s f) f) f) (65536 * f) 65536

/-- The part of a rising list inside a range, moved to another range whose old part it replaces. -/
def moveTab {α : Type} (t : Tab α) (src dst n : Nat) : Tab α :=
  t.filter (fun e => decide (e.1 < dst)) ++ (t.filter (fun e => decide (src ≤ e.1 ∧ e.1 < src + n))).map (fun e => (e.1 - src + dst, e.2))
    ++ t.filter (fun e => decide (dst + n ≤ e.1))

/-- A device's own copy of n bytes in a VD's slots, with poison, line by line at the MSCs (R218 step 4, R231 step 3). With writers,
every code-write mark of the copy is set for them, as by a write on path SW; otherwise the marks are copied. -/
def copyPhys (s : State) (v src dst n : Nat) (ws : List Writer) : State :=
  let s := (List.range ((n + 127) / 128)).foldl (fun s i =>
    mscTouch (mscTouch s v (kidFor s v (src + 128 * i)) (src + 128 * i) false) v (kidFor s v (dst + 128 * i)) (dst + 128 * i) true) s
  s.onMem fun m =>
    { m with
      cells := moveTab m.cells src dst n
      poison := (moveTab (m.poison.map (fun k => (k, ()))) (src / 32) (dst / 32) (n / 32)).map (·.1)
      marks := if ws.isEmpty then moveTab m.marks (src / 32) (dst / 32) (n / 32)
        else m.marks.filter (fun e => decide (e.1 < dst / 32)) ++ (List.range (n / 32)).map (fun i => (dst / 32 + i, ws))
            ++ m.marks.filter (fun e => decide ((dst + n) / 32 ≤ e.1)) }

/-! Page-table words, read and changed at the MSC by a walker of VD v. -/

/-- The present value of a table word. -/
def ptRead (s : State) (spa : Nat) : Nat := leNat (readMem s spa 8)
/-- A walker's write of a table word of a VD, made at the MSC; the copies in the caches are first written back. -/
def ptWrite (s : State) (v spa new : Nat) : State := devWrite (flushLines s (fun l => l == lineOf spa)) v spa (leBytes 8 new)
/-- A WK-path compare and swap (R218). It answers whether it wrote. -/
def ptCas (s : State) (v spa old new : Nat) : State × Bool :=
  let s := flushLines s (fun l => l == lineOf spa)
  if ptRead s spa = old then (ptWrite s v spa new, true) else (s, false)

/-! Removal of translations (R214). -/

/-- Does a scope's instance at a core hold a cluster? -/
def inScope (sc core cl : Nat) : Bool :=
  if sc ≤ 3 then clusterOfCore core == cl else if sc = 4 then dieOfCore core == dieOfCluster cl else true

/-- A range test on addresses: none matches all. -/
def touches (rng : Option (Nat × Nat)) (a n : Nat) : Bool := rng.all (fun r => decide (a < r.1 + r.2 ∧ r.1 < a + n))

/-- R214 steps 1, 3 and 4 for a VD's stage-1 translations: one address space or all, a range or all. -/
def tlbInv (s : State) (inC : Nat → Bool) (v : Nat) (asid : Option Nat) (rng : Option (Nat × Nat)) : State :=
  let hit : Nat → Nat → Nat → Bool := fun x a n => asid.all (fun y => y == x) && touches rng a n
  let s := dropTlb s (fun e => inC e.cluster && e.vd == v && hit e.asid e.va e.size)
  let keys := (s.mem.l1.filter (fun e =>
    inC (clusterOfCore (e.1 / 4096)) && e.2.vd == v && hit e.2.asid (e.2.vpage * 8192 + e.1 % 64 * 128) 128)).map (·.1)
  let s := keys.foldl l1Evict s
  let s := iDrop s (fun e => inC (clusterOfCore e.core) && e.vd == v && hit e.asid e.va 64)
  s.onLoc fun l =>
    { l with swage := l.swage.map (fun e =>
        (e.1, if inC (e.1 / 8) && e.2.job.vd == v && e.2.held.any (fun h => hit e.2.job.asid h.1 65536) then
          { e.2 with held := none } else e.2)) }

/-- R214 for form .S2: nested entries of a range, and all of the VD's cluster entries and lines. -/
def tlbInvS2 (s : State) (inC : Nat → Bool) (v : Nat) (rng : Nat × Nat) : State :=
  let s := s.onTrn fun t =>
    { t with ntlb := t.ntlb.filter (fun e => !(inC e.cluster && e.vd == v && touches (some rng) e.gpa e.size)) }
  tlbInv s inC v none none

/-- The system-physical ranges of the translations that TLBINV removes, and of the lines filled under them. -/
def tlbHits (s : State) (inC : Nat → Bool) (v : Nat) (asid : Option Nat) (rng : Option (Nat × Nat)) : List (Nat × Nat) :=
  let hit : Nat → Nat → Nat → Bool := fun x a n => asid.all (fun y => y == x) && touches rng a n
  (s.trn.tlb.filter (fun e => inC e.cluster && e.vd == v && hit e.asid e.va e.size)).filterMap (fun e =>
      match e.target with
      | .spa a => some (a, e.size)
      | _ => none)
    ++ (s.mem.l1.filter (fun e => inC (clusterOfCore (e.1 / 4096)) && e.2.vd == v && hit e.2.asid (e.2.vpage * 8192 + e.1 % 64 * 128) 128)).map
      (fun e => (128 * e.2.spa, 128))
    ++ s.loc.swage.filterMap (fun e =>
      if inC (e.1 / 8) && e.2.job.vd == v then
        (e.2.held.filter (fun h => hit e.2.job.asid h.1 65536)).map (fun h => (h.2.1 / 65536 * 65536, 65536))
      else none)

/-- The SYNC of R214: every access made under a removed translation has been performed in memory as though released at PKG with all
crossings, that to IF among them (R204), and the issuing core's thread acquires it. -/
def syncAll (s : State) (core v sc : Nat) (hits : List (Nat × Nat)) : State :=
  let s := (List.range 4).foldl (fun s d => if sc = 5 ∨ d = dieOfCore core then l2Release s d v 0xFF else s) s
  let s := clearMarks s (fun sec _ => hits.any (fun h => decide (h.1 ≤ 32 * sec ∧ 32 * sec < h.1 + h.2)))
  acquire s core v 5

/-- TLBINV.SYNC.PKG of a range, and of a guest-physical range. -/
def unmapRange (s : State) (core v asid lo n : Nat) : State :=
  syncAll (tlbInv s (fun _ => true) v (some asid) (some (lo, n))) core v 5 (tlbHits s (fun _ => true) v (some asid) (some (lo, n)))
def unmapRangeS2 (s : State) (core v : Nat) (rng : Nat × Nat) : State :=
  syncAll (tlbInvS2 s (fun _ => true) v rng) core v 5 (tlbHits s (fun _ => true) v none none)

/-! Leaves. -/

/-- The stage-1 leaf of an address, be it under migration or not: entry, level and where it lies. -/
def s1LeafAny (s : State) (cl v asid va : Nat) : State × Except XErr (Nat × Nat × Nat) :=
  if !canonical va then (s, .error (.page false va))
  else
    match gpaRead s cl v (bits (trnOf s v).astb.toNat 63 12 * 4096 + 8 * asid) with
    | (s, .error e) => (s, .error e)
    | (s, .ok (r, _)) =>
      if !bit r 0 || bits r 63 48 != 0 || bits r 11 1 != 0 then (s, .error (.page false va))
      else s1Find s cl v va (bits r 47 12 * 4096) 4

/-- The stage-1 leaf of an address that is not under migration. -/
def s1Leaf (s : State) (cl v asid va : Nat) : State × Except XErr (Nat × Nat × Nat) :=
  match s1LeafAny s cl v asid va with
  | (s, .error e) => (s, .error e)
  | (s, .ok x) => if bit x.1 10 then (s, .error .mig) else (s, .ok x)

/-- The stage-2 leaf of a guest-physical address, without a check of its frame: entry, level and where it lies. -/
def s2LeafAt (s : State) (cl gpa table : Nat) : Nat → State × Option (Nat × Nat × Nat)
  | 0 => (s, none)
  | n + 1 =>
    let a := table + 8 * bits gpa (12 + 9 * n + 8) (12 + 9 * n)
    match wkRead s cl 0 a with
    | (s, .error _) => (s, none)
    | (s, .ok e) =>
      if !bit e 0 || !s2Ok e n then (s, none)
      else if bit e 7 then (s, some (e, n, a))
      else s2LeafAt s cl gpa (bits e 47 12 * 4096) n
def s2Leaf (s : State) (cl v gpa : Nat) : State × Option (Nat × Nat × Nat) :=
  if bit (trnOf s v).s2.toNat 0 then s2LeafAt s cl gpa (bits (trnOf s v).s2.toNat 63 12 * 4096) 4 else (s, none)

/-- The leaves of a page of a size whose leaf lies at an address: itself, or the 16 members of its C64 group, each with its part's
offset. -/
def groupLeaves (size a : Nat) : List (Nat × Nat) :=
  if size = 65536 then (List.range 16).map (fun i => (a / 128 * 128 + 8 * i, 4096 * i)) else [(a, 0)]

/-- An entry with another address. -/
def withAddr (e a : Nat) : Nat := setBits e 47 12 (a / 4096)
def withMig (e : Nat) (m : Bool) : Nat := setBits e 10 10 m.toNat

/-! Migration (R218). -/

/-- A table word as a walk would read it: from an L2 that holds it dirty, else from memory. -/
def tableWord (s : State) (a : Nat) : Nat :=
  match s.mem.l2.find? (fun e => e.2.spa == lineOf a && !e.2.home && secBit e.2.dirty (a / 32 % 4)) with
  | some e => field e.2.data (a % 128) 8
  | none => ptRead s a

/-- Step 5, in the tables of a VD: the first pass repoints each leaf under MIG; a leaf that has changed ends the pass, and the ones
already changed are set back. The second pass clears MIG. `old` holds each leaf's value at step 1. -/
def repoint (s : State) (v dst : Nat) (old : List (Nat × Nat × Nat)) : State × Bool :=
  let r := old.foldl (fun (x : State × List (Nat × Nat × Nat) × Bool) l =>
    if !x.2.2 then x
    else
      let r := ptCas x.1 v l.1 (withMig l.2.2 true) (withAddr (withMig l.2.2 true) (dst + l.2.1))
      if r.2 then (r.1, x.2.1 ++ [l], true) else (r.1, x.2.1, false)) (s, [], true)
  let s := if r.2.2 then r.1
    else r.2.1.foldl (fun s l => (ptCas s v l.1 (withAddr (withMig l.2.2 true) (dst + l.2.1)) (withMig l.2.2 true)).1) r.1
  let fin := fun (l : Nat × Nat × Nat) => if r.2.2 then withAddr l.2.2 (dst + l.2.1) else l.2.2
  old.foldl (fun (x : State × Bool) l =>
    let r := ptCas x.1 v l.1 (withMig (fin l) true) (withMig (fin l) false)
    (r.1, x.2 && r.2)) (s, r.2.2)

/-- Threads that wait on a page being migrated walk again. -/
def migDone (s : State) : State := rerun s .mig

/-- Step 1 on the leaves of a page: each must be a leaf with V set, without MIG; none has changed otherwise. -/
def leavesBusy (s : State) (leaves : List (Nat × Nat)) : Option Nat :=
  let es := leaves.map (fun a => tableWord s a.1)
  if es.any (fun e => !bit e 0 || !bit e 7) then some 1 else if es.any (fun e => bit e 10) then some 2 else none

/-- Steps 1 and 2 of a move: MIG set in every leaf, and the page's translations removed. -/
def moveBegin (s : State) (m : Move) (drop : State → State) : State :=
  let s := flushLines s (fun l => m.leaves.any (fun a => lineOf a.1 == l))
  let s := m.leaves.foldl (fun s l => ptWrite s m.tables l.1 (withMig l.2.2 true)) s
  drop (s.onTrn fun t => { t with moves := t.moves ++ [m] })

/-- The frame address a guest-physical page of a VD translates to, for a check alone: nothing is set in its leaf. -/
def gpaPeek (s : State) (v gpa : Nat) (write : Bool) : Except XErr Nat :=
  match (stage2 s 0 v gpa (fun r w _ => if write then w else r)).2 with
  | .error e => .error e
  | .ok l =>
    if (if write then !l.w else !l.r) then .error (.prot true gpa)
    else
      match l.target.plus (gpa % l.size) with
      | .spa a => .ok a
      | _ => .error (.page true gpa)

/-- The answers of a list, when all are good. -/
def allOk {α : Type} : List (Except XErr α) → Except XErr (List α)
  | [] => .ok []
  | .error e :: _ => .error e
  | .ok x :: l =>
    match allOk l with
    | .error e => .error e
    | .ok xs => .ok (x :: xs)

/-- What PGMOVE comes to at its issue: a wait for another migration, a status at once, or a move that has begun. -/
abbrev MoveAns := State × Except (Option Nat) Unit

/-- PGMOVE at S (R218): the stage-1 leaf of an address moves to a guest-physical destination, 4 KiB by 4 KiB. -/
def pgmoveS1 (s : State) (g : Group) (t : Nat) (d : Opnd) (asid va dst : Nat) : MoveAns :=
  let v := g.vd
  match s1LeafAny s (clusterOfCore g.core) v asid va with
  | (s, .error .mig) => (s, .error none)
  | (s, .error _) => (s, .error (some 1))
  | (s, .ok (e, n, a)) =>
    let size := leafSize e n va
    let pages := (List.range (size / 4096)).map (4096 * ·)
    match allOk (pages.map (fun o => gpaPeek s v (dst + o) true)), allOk (pages.map (fun o => gpaPeek s v (leafBase e n va + o) false)) with
    | .error .mig, _ => (s, .error none)
    | .error _, _ => (s, .error (some 3))
    | .ok ds, src =>
      if dst % size ≠ 0 ∨ !ds.all (ownsFrame s v) then (s, .error (some 3))
      else
        let ls := groupLeaves size a
        match leavesBusy s ls, src with
        | some st, _ => (s, .error (some st))
        | none, .error .mig => (s, .error none)
        | none, .error _ => (s, .error (some 1))
        | none, .ok ss =>
          let s := pages.foldl (fun s o => (gpaXlate s v (dst + o) true).1) s
          let m : Move :=
            { gid := g.gid, tid := t, core := g.core, own := g.vd, d := d, vd := v, tables := v, dst := dst
              leaves := ls.map (fun l => (l.1, l.2, tableWord s l.1)), size := 4096, parts := ss.zip ds, frames := 0, begun := s.sch.cycle
              status := none }
          (moveBegin s m (fun s => unmapRange s g.core v asid (va / size * size) size), .ok ())

/-- Frames of a range. -/
def framesOf (a n : Nat) : List Nat := rangeFrom (a / 65536) (max 1 (n / 65536))

/-- The frames of a big page at H enter MIGRATING, source and destination linked; and leave it, moved or not. -/
def framesMigrate (s : State) (src dst : Nat) (k : Nat) : State :=
  (List.range k).foldl (fun s i =>
    let f := src + i
    let g := dst + i
    let s := setFrame s g { Frame.free with st := .migrating, owner := (frameAt s f).owner, kid := (frameAt s f).kid, link := f }
    setFrame s f { frameAt s f with st := .migrating, link := g }) s
def framesMoved (s : State) (src dst : Nat) (k : Nat) (ok : Bool) : State :=
  (List.range k).foldl (fun s i =>
    let f := src + i
    let g := dst + i
    if ok then
      let s := setFrame s g { frameAt s g with st := .owned, link := 0 }
      setFrame (scrubFrame s f) f Frame.free
    else
      let s := setFrame s g Frame.free
      setFrame s f { frameAt s f with st := .owned, link := 0 }) s

/-- PGMOVE at H (R218): the stage-2 leaf of a VD's guest-physical address moves to a system-physical destination. A source frame that
is not OWNED by the VD is refused with BUSY (R225). -/
def pgmoveS2 (s : State) (g : Group) (t : Nat) (d : Opnd) (v gpa dst : Nat) : MoveAns :=
  match s2Leaf s (clusterOfCore g.core) v gpa with
  | (s, none) => (s, .error (some 1))
  | (s, some (e, n, a)) =>
    if bits e 49 48 = 1 then (s, .error (some 1))
    else
      let size := leafSize e n gpa
      let src := leafBase e n gpa
      let big := decide (65536 ≤ size)
      let mine := fun (f : Nat) => (frameAt s f).st == .owned && (frameAt s f).owner == v
      let good := dst % size == 0 && decide (dst + size ≤ 65536 * frameCount)
        && (if big then (framesOf dst size).all (fun f => (frameAt s f).st == .free) else mine (dst / 65536))
      if !good then (s, .error (some 3))
      else
        let ls := groupLeaves size a
        match leavesBusy s ls with
        | some st => (s, .error (some st))
        | none =>
          if !(framesOf src size).all mine then (s, .error (some 2))
          else
            let k := if big then size / 65536 else 0
            let m : Move :=
              { gid := g.gid, tid := t, core := g.core, own := g.vd, d := d, vd := v, tables := 0, dst := dst
                leaves := ls.map (fun l => (l.1, l.2, tableWord s l.1)), size := size, parts := [(src, dst)], frames := k
                begun := s.sch.cycle, status := none }
            (moveBegin (framesMigrate s (src / 65536) (dst / 65536) k) m
              (fun s => unmapRangeS2 s g.core v (gpa / size * size, size)), .ok ())

/-- Steps 3 to 7 of a move: the copy, the repointing of its leaves, its frames, and its release at PKG, which the issuing thread
acquires; it answers the status. -/
def moveDo (s : State) (m : Move) : State × Nat :=
  let s := flushLines s (fun l => m.parts.any (fun p =>
    decide (p.1 / 128 ≤ l ∧ l < (p.1 + m.size) / 128) || decide (p.2 / 128 ≤ l ∧ l < (p.2 + m.size) / 128)))
  let cl := clusterOfCore m.core
  let s := m.parts.foldl (fun s p => copyPhys s m.vd p.1 p.2 m.size [Writer.swage s cl]) (tick s)
  let r := repoint s m.tables m.dst m.leaves
  let s := framesMoved r.1 ((m.parts.headD (0, 0)).1 / 65536) (m.dst / 65536) m.frames r.2
  let s := acquire s m.core m.own 5
  let s := learn s (threadAgent m.gid m.tid) [{ ownKnow s (swageAgent cl) with paths := 0x3F }]
  (migDone s, if r.2 then 0 else 4)

/-- A move that is done hands its status to its thread when that waits in its core; the group's other threads that wait try again. -/
def moveGive (s : State) (m : Move) (st : Nat) : State :=
  match findGroup s m.gid with
  | none => s
  | some g =>
    if (g.thread m.tid).st = .wait .move ∧ g.resid = .core then
      let s := writeOp s g m.tid m.d st 1
      let s := wakeThreads s (fun x i _ => x.gid == m.gid && i == m.tid) Thread.goOn
      wakeThreads s (fun x _ y => x.gid == m.gid && y.st == .wait .move) Thread.again
    else s.onTrn fun t => { t with moves := t.moves ++ [{ m with status := some st }] }

/-- The moves in progress for which a test holds end. -/
def finishMoves (s : State) (p : Move → Bool) : State :=
  (s.trn.moves.filter (fun m => m.status.isNone && p m)).foldl (fun s m =>
    let r := moveDo (s.onTrn fun t => { t with moves := t.moves.erase m }) m
    moveGive r.1 m r.2) s
/-- The moves that have lasted a whole cycle end. -/
def endMoves (s : State) : State := finishMoves s (fun m => decide (m.begun + 1 < s.sch.cycle))

/-! Sealing (R219, R355). -/

/-- The stage-1 leaves of a range: entry, where it lies, and its page. An address without a leaf, or whose walk waits, ends the list. -/
def leavesOf (s : State) (cl v asid : Nat) (hi : Nat) : Nat → Nat → State × Except XErr (List (Nat × Nat × Nat × Nat))
  | 0, _ => (s, .ok [])
  | fuel + 1, va =>
    if hi ≤ va then (s, .ok [])
    else
      match s1Leaf s cl v asid va with
      | (s, .error x) => (s, .error x)
      | (s, .ok (e, n, a)) =>
        let size := if bit e 8 then 4096 else leafSize e n va
        match leavesOf s cl v asid hi fuel (va / size * size + size) with
        | (s, .error x) => (s, .error x)
        | (s, .ok l) => (s, .ok ((e, a, (if bit e 8 then bits e 47 12 * 4096 else leafBase e n va), size) :: l))

/-- The 4 KiB pages of system memory under the leaves of a range. -/
def leafPages (s : State) (v : Nat) (ls : List (Nat × Nat × Nat × Nat)) : List Nat :=
  ls.flatMap (fun l => (List.range (l.2.2.2 / 4096)).filterMap (fun i =>
    match gpaPeek s v (l.2.2.1 + 4096 * i) false with
    | .ok a => some (a / 4096)
    | .error _ => none))

/-- Is an argument of SEAL or UNSEAL bad (R355)? -/
def sealBad (va len c : Nat) : Bool :=
  len == 0 || len % 4096 != 0 || decide (2 ^ 30 < len) || va % 4096 != 0 || !canonical va || decide (255 < c)

/-- SEAL by a thread: status 0, 1 or 2, or none while a leaf is being migrated (R209). -/
def sealRange (s : State) (g : Group) (t va len c : Nat) : State × Option Nat :=
  if sealBad va len c then (s, some 2)
  else
    match leavesOf s (clusterOfCore g.core) g.vd c (va + len) (len / 4096 + 1) va with
    | (s, .error .mig) => (s, none)
    | (s, .error _) => (s, some 1)
    | (s, .ok ls) =>
      let s := releaseBy s g [t] 5 0xFF
      let s := ls.foldl (fun s l => (wkOr s (clusterOfCore g.core) g.vd l.2.1 0x200).1) s
      let s := unmapRange s g.core g.vd c va len
      let ps := leafPages s g.vd ls
      let s := flushLines s (fun l => ps.contains (l / 32))
      (s.onTrn fun t =>
        { t with sealedPages := t.sealedPages ++ ls.flatMap (fun l => (List.range (l.2.2.2 / 4096)).map (fun i => (g.vd, l.2.2.1 / 4096 + i))) },
        some 0)

/-- UNSEAL; with `sync` every replica of the range goes too. -/
def unsealRange (s : State) (core v va len c : Nat) (sync : Bool) : State × Option Nat :=
  if sealBad va len c then (s, some 2)
  else
    match leavesOf s (clusterOfCore core) v c (va + len) (len / 4096 + 1) va with
    | (s, .error .mig) => (s, none)
    | (s, .error _) => (s, some 1)
    | (s, .ok ls) =>
      let s := ls.foldl (fun s l =>
        let s := flushLines s (fun x => x == lineOf l.2.1)
        ptWrite s v l.2.1 (setBits (ptRead s l.2.1) 9 9 0)) s
      let s := unmapRange s core v c va len
      let ps := leafPages s v ls
      let s := if sync then flushLines s (fun l => ps.contains (l / 32)) else s
      (s.onTrn fun t =>
        { t with sealedPages := t.sealedPages.filter (fun p =>
            !(p.1 == v && ls.any (fun l => decide (l.2.2.1 / 4096 ≤ p.2 ∧ p.2 < (l.2.2.1 + l.2.2.2) / 4096)))) }, some 0)

/-! Assignment of frames (R227). -/

def frassign (s : State) (first count target : Nat) : State × Nat :=
  let toFree := bit target 8
  let v := target % 16
  let fs := rangeFrom first count
  if count = 0 ∨ 16384 < count ∨ frameCount < first + count ∨ nClr target 0x10F ≠ 0
      ∨ (toFree = false ∧ vdState s v = .empty) then (s, 2)
  else if fs.any (fun f => let x := (frameAt s f).st; x == .scrub || x == .solder || x == .shadow || x == .migrating) then (s, 1)
  else
    (fs.foldl (fun s f =>
      setFrame (scrubFrame s f) f
        (if toFree then Frame.free else { Frame.free with st := .owned, owner := v, kid := dataKid s v })) s, 0)

/-! Shadows (R231, R232). -/

def ShdPool.reset : ShdPool := { pool := 0, used := 0, count := 0 }
def poolOf (s : State) (v : Nat) : ShdPool := s.trn.pools.at ShdPool.reset v
def onPool (s : State) (v : Nat) (f : ShdPool → ShdPool) : State :=
  s.onTrn fun t => { t with pools := t.pools.put v (f (t.pools.at ShdPool.reset v)) }

/-- The stage-2 leaves below a table, which maps from a guest-physical address, that name a frame: where each lies, its value, its level
and the guest-physical address it maps. -/
def leavesNaming (s : State) (f table gpa : Nat) : Nat → List (Nat × Nat × Nat × Nat)
  | 0 => []
  | n + 1 =>
    (List.range 512).flatMap (fun i =>
      let a := table + 8 * i
      let e := tableWord s a
      if !bit e 0 || !s2Ok e n then []
      else if bit e 7 then
        if bits e 49 48 = 0 ∧ bits e 47 12 * 4096 / 65536 ≤ f ∧ f ≤ (bits e 47 12 * 4096 + levelSize n - 1) / 65536 then
          [(a, e, n, gpa + levelSize n * i)]
        else []
      else leavesNaming s f (bits e 47 12 * 4096) (gpa + levelSize n * i) n)
/-- Those of a VD's tables. -/
def frameNames (s : State) (v f : Nat) : List (Nat × Nat × Nat × Nat) :=
  if bit (trnOf s v).s2.toNat 0 then leavesNaming s f (bits (trnOf s v).s2.toNat 63 12 * 4096) 0 4 else []

/-- A word of a VD's guest-physical memory as its tables now map it, for a look alone. -/
def gpaWord (s : State) (v gpa : Nat) : Nat :=
  match (s2Leaf s 0 v gpa).2 with
  | some (e, n, _) => if bits e 49 48 = 0 then tableWord s (leafBase e n gpa + gpa % leafSize e n gpa) else 0
  | none => 0
/-- The guest-physical ranges, as base and length, that the stage-1 leaves below a table, which maps from a virtual address, give the
addresses from `lo` up to `hi`. -/
def leavesUnder (s : State) (v lo hi table va : Nat) : Nat → List (Nat × Nat)
  | 0 => []
  | n + 1 =>
    (List.range 512).flatMap (fun i =>
      let a := va + levelSize n * i
      if hi ≤ a ∨ a + levelSize n ≤ lo then []
      else
        let e := gpaWord s v (table + 8 * i)
        if !bit e 0 || !(s1Ok e n || bit e 7 && bit e 10) then []
        else if bit e 7 then
          [(leafBase e n a + a % leafSize e n a + (max lo a - a), min hi (a + levelSize n) - max lo a)]
        else leavesUnder s v lo hi (bits e 47 12 * 4096) a n)
/-- The guest-physical ranges under a virtual region of an address space (R93), in the lower and the upper half of R205. -/
def regionRanges (s : State) (v asid : Nat) (r : Nat × Nat) : List (Nat × Nat) :=
  let e := gpaWord s v (bits (trnOf s v).astb.toNat 63 12 * 4096 + 8 * asid)
  let gap := 2 ^ 64 - 2 ^ 48
  if !bit e 0 || bits e 63 48 != 0 || bits e 11 1 != 0 then []
  else leavesUnder s v r.1 (min (r.1 + r.2) (2 ^ 47)) (bits e 47 12 * 4096) 0 4
    ++ leavesUnder s v (max (r.1 - gap) (2 ^ 47)) (r.1 + r.2 - gap) (bits e 47 12 * 4096) 0 4

/-- The launch of VD v under one of whose snapshot regions a frame lies, as the tables of both stages now map it, with the frame's
guest-physical address (R93, R231). A frame that is a shadow has been copied. -/
def snapOf (s : State) (v f : Nat) : Option (Nat × Nat) :=
  let ls := s.lq.launches.filter (fun l => l.vd == v && !l.snap.isEmpty)
  if ls.isEmpty || (frameAt s f).st == .shadow then none
  else
    match (frameNames s v f).map (fun x =>
      let base := bits x.2.1 47 12 * 4096
      let lo := max base (65536 * f)
      (x.2.2.2 + (lo - base), min (base + levelSize x.2.2.1) (65536 * f + 65536) - lo, lo % 65536)) with
    | [] => none
    | names =>
      ls.findSome? (fun l =>
        let rs := l.snap.flatMap (regionRanges s v l.asid)
        (names.find? (fun p => rs.any (fun r => decide (p.1 < r.1 + r.2 ∧ r.1 < p.1 + p.2.1)))).map (fun p => (l.lid, p.1 - p.2.2)))

/-- The stage-2 leaves of a VD that name a frame: where each lies and its part of the frame. A leaf above 64 KiB gives none. -/
def frameLeaves (s : State) (v f : Nat) : Option (List (Nat × Nat)) :=
  let ls := frameNames s v f
  if ls.any (fun l => l.2.2.1 != 0) then none else some (ls.map (fun l => (l.1, bits l.2.1 47 12 * 4096 % 65536)))

/-- The frame number at entry i of a VD's pool list. -/
def poolEntry (s : State) (v i : Nat) : Nat := leNat (readMem s (bits (poolOf s v).pool.toNat 63 12 * 4096 + 4 * i) 4)

/-- R231: the first write of the VD to a snapshot frame. False: the write takes a stage-2 Page Fault. -/
def shadowTake (s : State) (v lid f : Nat) : State × Bool :=
  let p := poolOf s v
  let g := poolEntry s v p.used.toNat
  match frameLeaves s v f with
  | none => (s, false)
  | some ls =>
    if p.used = p.count ∨ (frameAt s g).st ≠ .owned ∨ (frameAt s g).owner ≠ 0 ∨ ls = [] then (s, false)
    else
      let s := onPool s v (fun p => { p with used := p.used + 1 })
      let s := flushFrame (flushFrame s f) g
      let s := dropFrame s f
      let s := setFrame s g { Frame.free with
        st := .shadow, owner := v, kid := dataKid s v, link := f, leaf := (ls.headD (0, 0)).1 }
      let s := copyPhys s v (65536 * f) (65536 * g) 65536 []
      let s := flushLines s (fun l => ls.any (fun a => lineOf a.1 == l))
      let s := ls.foldl (fun s a => ptWrite s 0 a.1 (withAddr (ptRead s a.1) (65536 * g + a.2))) s
      let s := s.onTrn fun t => { t with shadows := { lid := lid, vd := v, frame := g, primary := f, leaves := ls.map (·.1) } :: t.shadows }
      (migDone s, true)

/-- SNAPSHOT_SHADOW (R231): the shadow of the frame the step's agent names, for the VD it names. -/
def execSnapshotShadow (s : State) : Answer :=
  match snapOf s s.sch.sel.vd.val s.sch.sel.n with
  | none => .next (migDone s)
  | some (lid, _) => .next (migDone (shadowTake s s.sch.sel.vd.val lid s.sch.sel.n).1)

/-- A frame goes back into the pool list of a VD, from entry USED − 1 downwards (R232). -/
def poolReturn (s : State) (v f : Nat) : State :=
  let p := poolOf s v
  let s := devWrite s 0 (bits p.pool.toNat 63 12 * 4096 + 4 * (p.used.toNat - 1)) (leBytes 4 f)
  onPool s v (fun p => { p with used := p.used - 1 })

/-- R232: the launch's shadows become its VD's frames, and their primaries go to the monitor. -/
def promoteShadows (s : State) (lid : Nat) : State :=
  let l := s.trn.shadows.filter (fun x => x.lid == lid)
  let s := s.onTrn fun t => { t with shadows := t.shadows.filter (fun x => x.lid != lid) }
  l.foldl (fun s x =>
    let s := setFrame s x.frame { frameAt s x.frame with st := .owned, link := 0, leaf := 0 }
    let s := setFrame (scrubFrame s x.primary) x.primary { Frame.free with st := .owned, kid := dataKid s 0 }
    poolReturn s x.vd x.primary) s

/-- R232: the launch's shadows are discarded: their leaves name the primaries again. -/
def discardShadows (s : State) (lid : Nat) : State :=
  let l := s.trn.shadows.filter (fun x => x.lid == lid)
  let s := s.onTrn fun t => { t with shadows := t.shadows.filter (fun x => x.lid != lid) }
  l.foldl (fun s x =>
    let s := flushLines s (fun n => x.leaves.any (fun a => lineOf a == n))
    let s := x.leaves.foldl (fun s a =>
      let e := ptRead s a
      if bits e 47 12 * 4096 / 65536 = x.frame then ptWrite s 0 a (withAddr e (65536 * x.primary + bits e 47 12 * 4096 % 65536))
      else s) s
    let s := setFrame (scrubFrame s x.frame) x.frame { Frame.free with st := .owned, kid := dataKid s 0 }
    poolReturn s x.vd x.frame) s

end Sys2Proof.Machine
end

