-- ==== Sys2Proof/Machine/Access.lean ====
section
/-! DEFINITION. A thread's accesses to memory (R325, R326, R332, R333): translation, register pages, flash windows, remote frames,
plain reads and writes, atomics at the point of their scope (R198, R217). -/
namespace Sys2Proof.Machine

/-- A VD number as the events carry it. -/
def vdFin (v : Nat) : Vd := ⟨v % 16, Nat.mod_lt _ (by decide)⟩
def coreFin (c : Nat) : Core := ⟨c % 832, Nat.mod_lt _ (by decide)⟩
def cluFin (c : Nat) : Cluster := ⟨c % 208, Nat.mod_lt _ (by decide)⟩

/-- The context of an access: whose memory it is, and whether it needs U pages (R152, R209). -/
structure MemCtx where
  vd : Nat
  asid : Nat
  user : Bool
  deriving DecidableEq, Repr

/-- A group's own context. -/
def Group.own (g : Group) : MemCtx := { vd := g.vd, asid := g.asid, user := g.priv == .u }

/-- R152, R332: the context of a thread's access; a .USR form without a valid token is Protection. -/
def ctxOf (s : State) (g : Group) (t : Nat) (usr : Bool) : Option MemCtx :=
  if usr then (((findGroup s g.gid).getD g).thread t).token.map (fun k => { vd := k.usrVd, asid := k.usrAsid, user := true })
  else some g.own

/-- What part of an access gives: a value, or the end of the instruction for the thread. -/
abbrev Got (α : Type) := State × Except Done α

/-- Protection at an address (R145), for an access of n bytes. -/
def protTrap (va n : Nat) (write : Bool) : Trap := { cause := 0x07, addr := va, arg := leBytes 4 n, write := write, page := some (va / 4096) }

/-- R231: a write to a snapshot frame first has its shadow made, and the thread walks again; it takes a stage-2 Page Fault when
no shadow can be made. -/
def shadowGate (s : State) (v va n : Nat) (x : Xl) : Got Xl :=
  match x.target with
  | .spa a =>
    match snapOf s v (a / 65536) with
    | none => (s, .ok x)
    | some (lid, _) =>
      if (shadowTake s v lid (a / 65536)).2 then
        (s.push (.ev .snapshotShadow { Sel.none with vd := vdFin v, n := a / 65536 }), .error (.wait .mig))
      else (s, .error (.trap (xerrTrap (.page true x.gpa) va n true false)))
  | _ => (s, .ok x)

/-- The guest-physical address of an access, or its virtual address when it does not translate. -/
def gpaOf (s : State) (core v asid va : Nat) : Nat :=
  match (translate s (clusterOfCore core) v asid va { write := false, fetch := false, user := false, sup := false }).2 with
  | .ok x => x.gpa
  | .error _ => va

/-- Checks 1 to 3 of R325: alignment, translation and permission, flash windows and seals. -/
def locate (s : State) (g : Group) (c : MemCtx) (va n : Nat) (write : Bool) (atomic : Bool := false) : Got Xl :=
  if va % n ≠ 0 then (s, .error (.trap (misaligned va n write)))
  else
    match translate s (clusterOfCore g.core) c.vd c.asid va { write := write, fetch := false, user := c.user, sup := false, atomic := atomic } with
    | (s, .error .mig) => (s, .error (.wait .mig))
    | (s, .error e) => (s, .error (.trap (xerrTrap e va n write false)))
    | (s, .ok x) => if write then shadowGate s c.vd va n x else (s, .ok x)

/-- The name of an access in the core's L1 (R162). -/
def nameOf (s : State) (g : Group) (c : MemCtx) (va a : Nat) : L1Name :=
  { core := g.core, vd := c.vd, asid := c.asid, kid := kidFor s c.vd a, va := va }

/-- Copies of a line in a core's L1 are written back and invalid. -/
def l1Out (s : State) (core line : Nat) : State := (l1Keys s (fun c l => c == core && l.spa == line)).foldl l1Evict s
/-- And the copies in the die's L2. -/
def l2Out (s : State) (die line : Nat) : State := (l2Keys s die (fun l => l.spa == line)).foldl l2Evict s

/-- R326: the age a hint gives a line that an access filled: least recently used, or most and kept so. -/
def hintStamp (s : State) (hint old : Nat) : Nat := if hint = 1 then 0 else if hint = 2 then s.mem.clock + 2 ^ 40 else old
/-- R326: a line that an access filled takes the place its hint gives it, in the L1 or in the L2. -/
def hintPlace (s : State) (n : L1Name) (hint : Nat) (filled : Bool) : State :=
  if !filled then s
  else
    match l1Find s n with
    | none => s
    | some k => onL1 s k (fun l => { l with stamp := hintStamp s hint l.stamp })
def hintPlaceL2 (s : State) (die v kid a hint : Nat) (filled : Bool) : State :=
  if !filled then s
  else
    match l2Find s die v kid a with
    | none => s
    | some w => onL2 s (l2Base die a + w) (fun l => { l with stamp := hintStamp s hint l.stamp })

/-! Flash windows and remote frames. -/

/-- Is a buffered block this one of a window of a VD? -/
def FlashBlock.named (b : FlashBlock) (v win nsid lba : Nat) : Bool := b.vd == v && b.win == win && b.nsid == nsid && b.lba == lba
/-- The block in a window's buffer. -/
def flashFind (s : State) (v win nsid lba : Nat) : Option FlashBlock := s.mem.flash.find? (fun b => b.named v win nsid lba)
/-- A hit makes its block the most recently used of its buffer. -/
def flashRenew (s : State) (v win nsid lba : Nat) : State :=
  (tick s).onMem fun m => { m with flash := m.flash.map (fun x => if x.named v win nsid lba then { x with stamp := m.clock } else x) }
/-- A miss asks the storage controller for the block, once. -/
def flashAsk (s : State) (v win nsid lba : Nat) : State :=
  s.onMem fun m => { m with fills := if m.fills.contains (v, win, nsid, lba) then m.fills else m.fills ++ [(v, win, nsid, lba)] }

/-- R60, R61: a load of a flash window by VA: the buffer's block, or its fill and a wait. A poisoned block is consumed, and stays
until the convoy's traps are taken. -/
def flashRead (s : State) (v va win nsid lba off n : Nat) : Got Bytes :=
  match flashFind s v win nsid lba with
  | some b =>
    if b.poisoned then
      (s, .error (.trap { machineCheck none (some (va / 4096)) with flash := some (v, win, nsid, lba) }))
    else (flashRenew s v win nsid lba, .ok ((b.data.drop off).take n))
  | none => (flashAsk s v win nsid lba, .error (.wait (.flash win nsid lba)))

/-- Bytes of another package's memory, at its memory-side cache (R59). -/
def remoteKey (pkg handle off : Nat) : Nat := (pkg * 2 ^ 32 + handle) * 2 ^ 48 + off
def remoteRead (s : State) (pkg handle off n : Nat) : Bytes := (List.range n).map (fun i => cellAt s.net.remote (remoteKey pkg handle off + i))
/-- Poison of the sector of a remote address (R239). -/
def remoteBad (s : State) (pkg handle off : Nat) : Bool := s.net.remotePoison.contains (remoteKey pkg handle off / 32)
def remoteWrite (s : State) (pkg handle off : Nat) (b : Bytes) (p : Bool := false) : State :=
  let k := remoteKey pkg handle off
  s.onNet fun x =>
    { x with
      remote := cellsPut x.remote k b
      remotePoison := if p then setIns x.remotePoison (k / 32)
        else if wholeSector k b.length then setDel x.remotePoison (k / 32) else x.remotePoison }

/-- A Braze port at reset (R58). -/
def BrazePort.reset : BrazePort := { up := false, keyed := false, keyEpoch := 0, flits := 0, replays := 0 }
def brazeOf (s : State) (p : Nat) : BrazePort := s.net.braze.at BrazePort.reset p
def onBraze (s : State) (p : Nat) (f : BrazePort → BrazePort) : State :=
  s.onNet fun n => { n with braze := n.braze.put p (f (n.braze.at BrazePort.reset p)) }
/-- Can another package be reached? -/
def reaches (s : State) (pkg : Nat) : Bool := let p := brazeOf s (Config.brazePort pkg).val; p.up && p.keyed

/-- What a release at SYS waits for: the acknowledgement of the remote stores of its threads (R59, chapter 8). -/
def storesOut (s : State) (g : Group) (tids : List Nat) (sc : Nat) : Bool :=
  sc == 6 && s.net.remoteOps.any (fun o => o.store && o.gid == g.gid && tids.contains o.tid)
/-- The VD of a .USR access is one that the thread's accesses have reached (R332). -/
def noteUsr (s : State) (g : Group) (t : Nat) (c : MemCtx) : State :=
  if c.vd = g.vd then s else onThread s g.gid t (fun x => { x with usr := BitVec.ofNat 16 (setBits x.usr.toNat c.vd c.vd 1) })

/-- A remote access whose link is down stays outstanding (R59). -/
def remoteWait (s : State) (gid tid pkg handle off : Nat) (data : Bytes) (store atomic : Bool) : State :=
  s.onNet fun x =>
    { x with remoteOps := x.remoteOps ++ [{ port := (Config.brazePort pkg).val, gid := gid, tid := tid, pkg := pkg, frame := handle,
                                            off := off, data := data, store := store, atomic := atomic,
                                            owner := ((findGroup s gid).map (·.owner)).getD .server }] }

/-! Plain reads and writes. -/

/-- A thread's read of n bytes (R328): checks 1 to 4 of R325. -/
def loadBytes (s : State) (g : Group) (t : Nat) (c : MemCtx) (va n hint : Nat) : Got Bytes :=
  let got := fun (s : State) (loc : Nat) (b : Bytes) => ((hear (noteUsr s g t c) (threadAgent g.gid t) loc b, Except.ok b) : Got Bytes)
  match locate s g c va n false with
  | (s, .error e) => (s, .error e)
  | (s, .ok x) =>
    match x.target with
    | .page gpa => (s, .ok (pageBytes s c.vd gpa n))
    | .flash win nsid lba off => flashRead s c.vd va win nsid lba off n
    | .remote pkg h off =>
      if reaches s pkg then
        if remoteBad s pkg h off then (s, .error (.trap (machineCheck none (some (va / 4096)))))
        else got s (remoteLoc (remoteKey pkg h off)) (remoteRead s pkg h off n)
      else (remoteWait s g.gid t pkg h off [] false false, .error (.wait .remote))
    | .spa a =>
      let nm := nameOf s g c va a
      let fresh := (l1Find s nm).isNone
      match (if hint = 3 then l2Read (l1Out s g.core (lineOf a)) (dieOfCore g.core) c.vd nm.kid a n x.sl else l1Read s nm a n x.w x.sl) with
      | (s, .error d) => (s, .error (.trap (denyTrap d va x.gpa n false)))
      | (s, .ok (b, bad)) =>
        if bad then (s, .error (.trap (machineCheck (some (a / 128 * 128)) (some (va / 4096)))))
        else got (hintPlace s nm hint fresh) (memLoc a) b

/-- A thread's read of some aligned 16-byte pieces, as one LS-path load of a descriptor. -/
def loadBlock (s : State) (g : Group) (t : Nat) (va : Nat) : Nat → Got Bytes
  | 0 => (s, .ok [])
  | k + 1 =>
    match loadBytes s g t g.own va 16 0 with
    | (s, .error e) => (s, .error e)
    | (s, .ok b) =>
      match loadBlock s g t ((va + 16) % 2 ^ 64) k with
      | (s, .error e) => (s, .error e)
      | (s, .ok c) => (s, .ok (b ++ c))

/-- R190: the channel of the engine whose work a store to a register page starts, with what has reached the storing thread. -/
def pageChan (s : State) (v gpa : Nat) : Option Chan :=
  (pageOf s v gpa).map fun
    | .qp q => .queue v q
    | .lq => .launches v
    | .gov d => .ring v d

/-- A thread's write of bytes of one colour (R328), as a release at a scope when that is not 0 (R192): the store carries what the
release covers, and its thread's release fences. -/
def storeBytes (s : State) (g : Group) (t : Nat) (c : MemCtx) (va : Nat) (b : Bytes) (col hint sc : Nat) : Got Unit :=
  if storesOut s g [t] sc then (s, .error (.wait .remote))
  else
    match locate s g c va b.length true with
    | (s, .error e) => (s, .error e)
    | (s, .ok x) =>
      let w := Writer.thread s g.gid t col
      let fin := fun (s : State) (loc : Nat) =>
        let s := noteUsr s g t c
        let s := tell s loc b (storeRels s (threadAgent g.gid t) g.core sc)
        ((if sc = 0 then s else releaseBy s g [t] sc 0xFF, Except.ok ()) : Got Unit)
      match x.target with
      | .page gpa =>
        let s := issueWork s g [t]
        let s := match pageChan s c.vd gpa with
          | some ch => addChan s ch (relsBy s g [t] 6 0xFF)
          | none => s
        (if b.length = 8 then pageWrite s c.vd gpa (leNat b) else s, .ok ())
      | .flash _ _ _ _ => (s, .error (.trap (protTrap va b.length true)))
      | .remote pkg h off =>
        fin (if reaches s pkg then remoteWrite s pkg h off b else remoteWait s g.gid t pkg h off b true false) (remoteLoc (remoteKey pkg h off))
      | .spa a =>
        let nm := nameOf s g c va a
        let fresh := (l1Find s nm).isNone
        match (if hint = 3 then l2Write (l1Out s g.core (lineOf a)) (dieOfCore g.core) c.vd nm.kid a b (2 ^ col) [w]
          else l1Write s nm a b w) with
        | (s, some d) => (s, .error (.trap (denyTrap d va x.gpa b.length true)))
        | (s, none) => fin (hintPlace s nm hint fresh) (memLoc a)

/-- Poison of the sector of an address where an access under a name finds it: in the L1, in the die's L2, or in memory (R239). -/
def sectorBad (s : State) (n : L1Name) (a : Nat) : Bool :=
  match (l1Find s n).bind (fun k => s.mem.l1.find k) with
  | some l => if secBit l.valid (a / 32 % 4) then secBit l.poison (a / 32 % 4) else l2Bad
  | none => l2Bad
where l2Bad : Bool :=
  match (l2Find s (dieOfCore n.core) n.vd n.kid a).bind (fun w => s.mem.l2.find (l2Base (dieOfCore n.core) a + w)) with
  | some l => if !l.home && secBit l.valid (a / 32 % 4) then secBit l.poison (a / 32 % 4) else sectorPoison s a
  | none => sectorPoison s a

/-- Does the line of an address hold poison in a sector, where an access under a name finds it? -/
def lineBad (s : State) (n : L1Name) (a : Nat) : Bool := [0, 32, 64, 96].any (fun o => sectorBad s n (lineOf a * 128 + o))
/-- The same of the line of a remote address. -/
def remoteLineBad (s : State) (pkg handle off : Nat) : Bool := [0, 32, 64, 96].any (fun o => remoteBad s pkg handle (off / 128 * 128 + o))

/-- R239: a sector that the stores of a convoy have wholly written holds no poison, wherever the bytes now are. -/
def cleanSector (s : State) (n : L1Name) (a : Nat) : State :=
  let k := a / 32 % 4
  match (l1Find s n).filter (fun k1 => (s.mem.l1.find k1).any (fun l => secBit l.valid k)) with
  | some k1 => onL1 s k1 (fun l => { l with poison := setSec l.poison k false })
  | none =>
    match (l2Find s (dieOfCore n.core) n.vd n.kid a).filter (fun w =>
      (s.mem.l2.find (l2Base (dieOfCore n.core) a + w)).any (fun l => !l.home && secBit l.valid k)) with
    | some w => onL2 s (l2Base (dieOfCore n.core) a + w) (fun l => { l with poison := setSec l.poison k false })
    | none => setPoison s a false

/-- The 32-byte units that some accesses of n bytes at the addresses wholly cover. -/
def wholeUnits (n : Nat) (as : List Nat) : List Nat :=
  ((as.map (· / 32)).eraseDups).filter (fun u => (List.range 32).all (fun i => as.any (fun a => decide (a ≤ 32 * u + i ∧ 32 * u + i < a + n))))

/-- The sectors that a convoy's completed stores of n bytes wholly cover lose their poison. -/
def cleanWhole (s : State) (g : Group) (c : MemCtx) (n : Nat) (vas : List Nat) : State :=
  (wholeUnits n vas).foldl (fun s u =>
    match (translate s (clusterOfCore g.core) c.vd c.asid (32 * u) { write := false, fetch := false, user := false, sup := false }).2 with
    | .ok x => (match x.target with
      | .spa a => cleanSector s (nameOf s g c (32 * u) a) a
      | .remote pkg h off => s.onNet fun y => { y with remotePoison := setDel y.remotePoison (remoteKey pkg h off / 32) }
      | _ => s)
    | .error _ => s) s

/-- R329: a prefetch of the line at an address, all four sectors, towards the L1, or with .BYPASS towards the L2. -/
def prefetch (s : State) (g : Group) (va hint : Nat) : State :=
  match translate s (clusterOfCore g.core) g.vd g.asid va { write := false, fetch := false, user := g.priv == .u, sup := false } with
  | (s, .ok x) =>
    match x.target with
    | .spa a =>
      let nm := nameOf s g g.own va a
      let fresh := (l1Find s nm).isNone
      let line := [0, 32, 64, 96].map (fun o => lineOf a * 128 + o)
      if sectorBad s nm a then s
      else if hint = 3 then
        line.foldl (fun s a => (l2Read s (dieOfCore g.core) g.vd nm.kid a 1 x.sl).1) (l1Out s g.core (lineOf a))
      else hintPlace (line.foldl (fun s a => (l1Read s nm a 1 x.w x.sl).1) s) nm hint fresh
    | .flash win nsid lba _ =>
      if (flashFind s g.vd win nsid lba).isSome then flashRenew s g.vd win nsid lba else flashAsk s g.vd win nsid lba
    | _ => s
  | (s, .error _) => s

/-! Atomics (R336). -/

/-- The new value of an n-bit atomic. -/
def atomNew (op : AOp) (u : Bool) (n old b : Nat) : Nat :=
  match op with
  | .add => (old + b) % 2 ^ n
  | .min => if toInt (!u) n old ≤ toInt (!u) n b then old else b
  | .max => if toInt (!u) n old ≤ toInt (!u) n b then b else old
  | .and => nAnd old b
  | .or => nOr old b
  | .xor => nXor old b
  | .exch => b
  | .inc => if b ≤ old then 0 else old + 1

/-- What an atomic does to a value: its new value, or none for a CAS that does not write. -/
inductive Rmw where
  | op (o : AOp) (u : Bool) (b : Nat)
  | cas (c e : Nat)
  deriving DecidableEq, Repr
def Rmw.apply (r : Rmw) (n old : Nat) : Option Nat :=
  match r with
  | .op o u b => some (atomNew o u (8 * n) old b)
  | .cas c e => if old = c then some e else none

/-- The bytes that stand for an atomic outstanding on a failed link: size, kind and operands. -/
def Rmw.bytes (r : Rmw) (n : Nat) : Bytes :=
  match r with
  | .op o u b => leBytes 1 n ++ leBytes 1 (o.code + 16 * u.toNat) ++ leBytes 16 b ++ leBytes 16 0
  | .cas c e => leBytes 1 n ++ leBytes 1 0x80 ++ leBytes 16 c ++ leBytes 16 e
def rmwOfBytes (b : Bytes) : Rmw :=
  if field b 1 1 = 0x80 then .cas (field b 2 16) (field b 18 16)
  else .op ((AOp.ofCode (field b 1 1 % 16)).getD .add) (bit (field b 1 1) 4) (field b 2 16)

/-- A remote atomic, wholly performed at the home package. -/
def remoteRmw (s : State) (pkg h off n : Nat) (r : Rmw) : State × Nat :=
  let old := leNat (remoteRead s pkg h off n)
  (match r.apply n old with
    | some v => remoteWrite s pkg h off (leBytes n v)
    | none => s, old)

/-- The read and the write of an atomic at the point of its scope (R198). -/
def pointRead (s : State) (nm : L1Name) (a n sc : Nat) (w sl : Bool) : State × ReadAns :=
  let die := dieOfCore nm.core
  if sc ≤ 2 then l1Read s nm a n w sl
  else if sc ≤ 4 then l2Read (l1Out s nm.core (lineOf a)) die nm.vd nm.kid a n
  else mscRead (l2Out (l1Out s nm.core (lineOf a)) die (lineOf a)) nm.vd nm.kid a n
def pointWrite (s : State) (nm : L1Name) (a sc : Nat) (b : Bytes) (w : Writer) : State × Option Deny :=
  if sc ≤ 2 then l1Write s nm a b w
  else if sc ≤ 4 then l2Write s (dieOfCore nm.core) nm.vd nm.kid a b (2 ^ w.col) [w]
  else
    match mscWrite s nm.vd nm.kid a b with
    | (s, some d) => (s, some d)
    | (s, none) => (setMark s a [w], none)

/-- What a hint does around an atomic at its point (R326): a dirty sector in L1 is first written back, and a line that the atomic
filled is placed, or with .BYPASS leaves the L1 again. -/
def hintBefore (s : State) (nm : L1Name) (a hint : Nat) : State := if hint = 3 then l1Out s nm.core (lineOf a) else s
def hintAfter (s : State) (nm : L1Name) (a sc hint : Nat) (fresh1 fresh2 : Bool) : State :=
  if sc ≤ 2 then (if hint = 3 then l1Out s nm.core (lineOf a) else hintPlace s nm hint fresh1)
  else if sc ≤ 4 then hintPlaceL2 s (dieOfCore nm.core) nm.vd nm.kid a hint fresh2
  else s

/-- An atomic of n bytes by a thread (R336): the old value. A scope of 0 acts as GRP. Its store carries, besides its own release and
its thread's release fences, the releases of the store it read that share a scope with it (R193). -/
def atomic (s : State) (g : Group) (t : Nat) (va n hint : Nat) (r : Rmw) (col sc0 : Nat) (rel acq : Bool) : Got Nat :=
  let c := g.own
  let sc := max 1 sc0
  let me := threadAgent g.gid t
  let since := s.mem.clock
  if rel && storesOut s g [t] sc then (s, .error (.wait .remote))
  else
    match locate s g c va n true true with
    | (s, .error e) => (s, .error e)
    | (s, .ok x) =>
      let w := Writer.thread s g.gid t col
      let read := fun (s : State) (loc old : Nat) => hear s me loc (leBytes n old)
      let wrote := fun (s : State) (loc old v : Nat) =>
        let on := (heard s loc (leBytes n old)).filter (fun r => shares r.scope r.agent r.core me g.core)
        tell s loc (leBytes n v) (storeRels s me g.core (if rel then sc else 0) ++ on)
      let fin := fun (s : State) (old : Nat) => ((if acq then acquireBy s g [t] sc since else s, Except.ok old) : Got Nat)
      match x.target with
      | .page _ => (s, .error (.trap (protTrap va n true)))
      | .flash _ _ _ _ => (s, .error (.trap (protTrap va n true)))
      | .remote pkg h off =>
        if reaches s pkg then
          if remoteLineBad s pkg h off then (s, .error (.trap (machineCheck none (some (va / 4096)))))
          else
            let loc := remoteLoc (remoteKey pkg h off)
            let old := leNat (remoteRead s pkg h off n)
            match r.apply n old with
            | none => fin (read (tick s) loc old) old
            | some v =>
              let s := if rel then releaseBy s g [t] sc 0xFF else s
              fin (wrote (read (tick (remoteRmw s pkg h off n r).1) loc old) loc old v) old
        else (remoteWait s g.gid t pkg h off (r.bytes n) false true, .error (.wait .remote))
      | .spa a =>
        let nm := nameOf s g c va a
        let bad := lineBad s nm a
        let s := hintBefore s nm a hint
        let fresh1 := (l1Find s nm).isNone
        let fresh2 := (l2Find s (dieOfCore g.core) nm.vd nm.kid a).isNone
        match pointRead s nm a n sc x.w x.sl with
        | (s, .error d) => (s, .error (.trap (denyTrap d va x.gpa n true)))
        | (s, .ok (b, p)) =>
          if bad || p then (s, .error (.trap (machineCheck (some (a / 128 * 128)) (some (va / 4096)))))
          else
            let old := leNat b
            match r.apply n old with
            | none => fin (read (hintAfter s nm a sc hint fresh1 fresh2) (memLoc a) old) old
            | some v =>
              let s := if rel then releaseBy s g [t] sc 0xFF else s
              match pointWrite s nm a sc (leBytes n v) w with
              | (s, some d) => (s, .error (.trap (denyTrap d va x.gpa n true)))
              | (s, none) =>
                let s := if rel && decide (3 ≤ sc) then releaseBy s g [t] sc 0xFF else s
                fin (wrote (read (hintAfter s nm a sc hint fresh1 fresh2) (memLoc a) old) (memLoc a) old v) old

/-! Effective addresses (R325, R334). -/

def ea (s : State) (g : Group) (t : Nat) (a b : Opnd) (sh : Nat) (off : Int) : Nat :=
  wrap 64 ((readOp s g t a 2 : Int) + sext 32 (readOp s g t b 1) * 2 ^ sh + off)
/-- The exact offset of a scratchpad access; base and index are 32-bit. -/
def spadOff (s : State) (g : Group) (t : Nat) (a b : Opnd) (sh : Nat) (off : Int) : Int :=
  (readOp s g t a 1 : Int) + sext 32 (readOp s g t b 1) * 2 ^ sh + off

/-- A body that reads its operands in the state before the instruction and acts on the state so far, thread by thread (R8). -/
def memBody (f : State → State → Group → Nat → State × Done) : Body := fun s0 g _ act =>
  act.foldl (fun (a : State × List (Nat × Done)) t => let r := f s0 a.1 g t; (r.1, a.2 ++ [(t, r.2)])) (s0, [])

end Sys2Proof.Machine
end

