-- ==== Sys2Proof/Machine/Memory.lean ====
section
/-! DEFINITION. Row 0x8: loads, stores, probes, prefetches, scratchpad and on-chip map accesses (R327 to R334). -/
namespace Sys2Proof.Machine

/-- R298, R328: a loaded value as its registers hold it. -/
def szExtend (z : Sz) (v : Nat) : Nat :=
  match z with
  | .sb => wrap 32 (sext 8 v)
  | .sh => wrap 32 (sext 16 v)
  | _ => v

/-- A body whose .USR forms raise Privilege in a U group (R332, R263). -/
def usrBody (i : Instr) (usr : Bool) (body : Body) : Body := fun s g c act =>
  if usr && g.priv == .u then (s, act.map (fun t => (t, .trap (privilege (wordBytes i))))) else body s g c act

/-- The acquire of a thread's load (R328), which began after access number `since`. -/
def acquireIf (s : State) (g : Group) (t sc since : Nat) : State := if sc = 0 then s else acquireBy s g [t] sc since

/-- LD (R328). -/
def execLd (h : Hdr) (m : MemMod) (d a b : Opnd) (imm : BitVec 32) (s : State) : Answer :=
  let i : Instr := .ld h m d a b imm
  runOp i .u (usrBody i m.usr (memBody fun s0 s g t =>
    let va := ea s0 g t a b m.sh.val (sext 32 imm.toNat)
    match ctxOf s0 g t m.usr with
    | none => (s, .trap (protTrap va m.sz.bytes false))
    | some c =>
      match loadBytes s g t c va m.sz.bytes h.hint.val with
      | (s, .error e) => (s, e)
      | (r, .ok x) => (acquireIf (writeOp r g t d (szExtend m.sz (leNat x)) m.sz.words) g t (scopeRank m.scope) s.mem.clock, .next))) s

/-- LD.PROBE (R331): access failures of stage 1 clear the predicate. -/
def execLdProbe (h : Hdr) (m : ProbeMod) (d a b : Opnd) (imm : BitVec 32) (s : State) : Answer :=
  let i : Instr := .ldProbe h m d a b imm
  runOp i .u (usrBody i m.usr (memBody fun s0 s g t =>
    let va := ea s0 g t a b m.sh.val (sext 32 imm.toNat)
    match ctxOf s0 g t m.usr with
    | none => (s, .trap (protTrap va m.sz.bytes false))
    | some c =>
      match loadBytes s g t c va m.sz.bytes h.hint.val with
      | (s, .error (.trap e)) => if e.cause ≠ 0x0E ∧ e.s2 = false then (writeP s g t (.p m.pd) 0, .next) else (s, .trap e)
      | (s, .error e) => (s, e)
      | (r, .ok x) =>
        (acquireIf (writeP (writeOp r g t d (leNat x) m.sz.words) g t (.p m.pd) 15) g t (scopeRank m.scope) s.mem.clock, .next))) s

/-- The threads of some ends whose instruction is done. -/
def nexts (l : List (Nat × Done)) : List Nat := (l.filter (fun e => e.2 == .next)).map (·.1)

/-- A plain or releasing ST (R328), thread by thread, of operands read in a state s0. -/
def stOnes (h : Hdr) (m : MemMod) (d a b : Opnd) (imm : BitVec 32) (s0 : State) : Body := memBody fun _ s g t =>
  let va := ea s0 g t a b m.sh.val (sext 32 imm.toNat)
  match ctxOf s0 g t m.usr with
  | none => (s, .trap (protTrap va m.sz.bytes true))
  | some c =>
    match storeBytes s g t c va (leBytes m.sz.bytes (readOp s0 g t d m.sz.words)) m.col.val h.hint.val (scopeRank m.scope) with
    | (s, .error e) => (s, e)
    | (s, .ok _) => (s, .next)

/-- R163: the sectors that the stores of a convoy's threads, all at addresses they may write, wholly cover are not fetched first. -/
def claimWhole (s : State) (g : Group) (c : MemCtx) (n hint : Nat) (vas : List Nat) : State :=
  if hint = 3 then s
  else (wholeUnits n vas).foldl (fun s u =>
    match locate s g c (32 * u) 4 true with
    | (s, .ok x) => (match x.target with
      | .spa a => l1Claim s (nameOf s g c (32 * u) a) a
      | _ => s)
    | (_, .error _) => s) s

/-- A plain or releasing ST of a convoy (R328), whose stores together may write whole sectors (R163, R239). -/
def stPlain (h : Hdr) (m : MemMod) (d a b : Opnd) (imm : BitVec 32) : Body := fun s0 g cv act =>
  let at' := fun t => ea s0 g t a b m.sh.val (sext 32 imm.toNat)
  let good := act.filter (fun t => at' t % m.sz.bytes == 0 && !storesOut s0 g [t] (scopeRank m.scope))
  let s1 := ((good.filterMap (fun t => ctxOf s0 g t m.usr)).eraseDups).foldl (fun s x =>
    claimWhole s g x m.sz.bytes h.hint.val ((good.filter (fun t => ctxOf s0 g t m.usr == some x)).map at')) s0
  let r := stOnes h m d a b imm s0 s1 g cv act
  let c := fun t => ctxOf s0 g t m.usr
  let cs := ((nexts r.2).filterMap c).eraseDups
  (cs.foldl (fun s x => cleanWhole s g x m.sz.bytes (((nexts r.2).filter (fun t => c t == some x)).map
    (fun t => ea s0 g t a b m.sh.val (sext 32 imm.toNat)))) r.1, r.2)

/-- What the checks of a store that come before its write end in (R325): translation and permission, flash windows and seals, and
the MSC's refusal. -/
def storeCheck (s : State) (g : Group) (c : MemCtx) (va n : Nat) : Got Unit :=
  match locate s g c va n true with
  | (s, .error e) => (s, .error e)
  | (s, .ok x) =>
    match x.target with
    | .flash _ _ _ _ => (s, .error (.trap (protTrap va n true)))
    | .spa a =>
      match mscCheck s c.vd (kidFor s c.vd a) a with
      | some d => (s, .error (.trap (denyTrap d va x.gpa n true)))
      | none => (s, .ok ())
    | _ => (s, .ok ())

/-- One thread's part of a checked store: its end, the elements that violate, and whether they count. -/
def stCheckedOne (h : Hdr) (m : BcMod) (x : Bound) (s : State) (g : Group) (t va v : Nat) : State × Done × List Nat :=
  let w := etyBits m.ety
  let es := (List.range (m.sz.bytes / m.ety.size)).map (fun j => bits v (w * j + w - 1) (w * j))
  let bad := es.filter (fun e => x.violates m.ety e)
  if x.action = 2 ∧ bad ≠ [] then
    match storeCheck s g g.own va m.sz.bytes with
    | (s, .error e) => (s, e, [])
    | (s, .ok _) => (s, .trap { cause := 0x0A, addr := m.bnd.val, arg := leBytes 8 (bad.headD 0) }, bad)
  else
    match storeBytes s g t g.own va (es.flatMap (fun e => leBytes m.ety.size (x.write m.ety e))) m.col.val h.hint.val 0 with
    | (s, .error e) => (s, e, [])
    | (s, .ok _) => (s, .next, bad)

/-- A checked ST (R330, R234, R235). -/
def stChecked (h : Hdr) (m : BcMod) (d a b : Opnd) (imm : BitVec 32) : Body := fun s0 g c act =>
  let x := boundOf s0 g.core g.vd m.bnd.val
  let r := act.foldl (fun (acc : State × List (Nat × Done) × List Nat) t =>
    let va := ea s0 g t a b 0 (sext 32 imm.toNat)
    let o := stCheckedOne h m x acc.1 g t va (readOp s0 g t d m.sz.words)
    (o.1, acc.2.1 ++ [(t, o.2.1)], acc.2.2 ++ o.2.2)) (s0, [], [])
  let n := r.2.2.length
  let s := cleanWhole r.1 g g.own m.sz.bytes ((nexts r.2.1).map (fun t => ea s0 g t a b 0 (sext 32 imm.toNat)))
  let s := if n = 0 then s else countViol s g.core g.vd m.bnd.val n
  (if n ≠ 0 ∧ x.action = 0 then boundRec s g.core g.vd m.bnd.val n (r.2.2.headD 0) (some c.pc.toNat) (workTag s g.owner) else s, r.2.1)

/-- ST (R328, R330). -/
def execSt (h : Hdr) (m : StMod) (d a b : Opnd) (imm : BitVec 32) (s : State) : Answer :=
  let i : Instr := .st h m d a b imm
  match m with
  | .plain p => runOp i .u (usrBody i p.usr (stPlain h p d a b imm)) s
  | .bc p => runOp i .u (stChecked h p d a b imm) s

/-- PRF (R329). -/
def execPrf (h : Hdr) (m : MemMod) (a b : Opnd) (imm : BitVec 32) (s : State) : Answer :=
  runOp (.prf h m a b imm) .u (memBody fun s0 s g t =>
    (prefetch s g (ea s0 g t a b m.sh.val (sext 32 imm.toNat)) h.hint.val, .next)) s

/-! Scratchpad accesses (R334). -/

/-- A thread's scratchpad access of n bytes: the words and the offset, once the windows let it through. -/
def spadAccess (s : State) (g : Group) (t : Nat) (swz : Swz) (win : Nat) (o : Int) (n : Nat) (write : Bool) : Got (List Nat × Nat) :=
  match spadPlace s g swz win o n write with
  | .error e => (s, .error (.trap e))
  | .ok (ws, off) =>
    match blockOf s g with
    | none => (s, .error (.trap (protTrap (wrap 64 o) n write)))
    | some b =>
      match touchWords s b ws (some (g.gid, t)) with
      | (s, some w) => (s, .error (.wait w))
      | (s, none) => (s, .ok (ws, off))

/-- Is a unit of some words poisoned? -/
def wordsBad (s : State) (core : Nat) (ws : List Nat) : Bool := ws.any (fun w => sramBad s core w)

/-- The places in a core's SRAM of bytes at an offset that lie in some words: number of the first, and the bytes. -/
def spadParts (core : Nat) (ws : List Nat) (o : Nat) (b : Bytes) : List (Nat × Bytes) :=
  if b.length < 4 then [(sramLoc core (4 * ws.headD 0 + o % 4), b)]
  else ws.mapIdx (fun i w => (sramLoc core (4 * w), (b.drop (4 * i)).take 4))
/-- What a thread's scratchpad reads and writes meet and carry (R192, R193). -/
def hearSpad (s : State) (g : Group) (t : Nat) (ws : List Nat) (o : Nat) (b : Bytes) : State :=
  (spadParts g.core ws o b).foldl (fun s p => hear s (threadAgent g.gid t) p.1 p.2) (tick s)
def tellSpad (s : State) (g : Group) (t : Nat) (ws : List Nat) (o : Nat) (b : Bytes) (on : List Rel) : State :=
  (spadParts g.core ws o b).foldl (fun s p => tell s p.1 p.2 (storeRels s (threadAgent g.gid t) g.core 0 ++ on)) s

def execLds (h : Hdr) (m : LdsMod) (d a b : Opnd) (imm : BitVec 32) (s : State) : Answer :=
  runOp (.lds h m d a b imm) .u (memBody fun s0 s g t =>
    match spadAccess s g t m.swz m.win.val (spadOff s0 g t a b m.sh.val (sext 32 imm.toNat)) m.sz.bytes false with
    | (s, .error e) => (s, e)
    | (s, .ok (ws, o)) =>
      if wordsBad s g.core ws then (s, .trap (machineCheck none (some (o / 4096))))
      else
        let x := sramRead s g.core ws o m.sz.bytes
        (writeOp (hearSpad s g t ws o x) g t d (szExtend m.sz (leNat x)) m.sz.words, .next)) s

/-- The bytes of a core's SRAM that an access of n bytes at an offset, to some words, touches. -/
def spadBytes (ws : List Nat) (o n : Nat) : List Nat :=
  if n < 4 then (List.range n).map (fun i => 4 * ws.headD 0 + o % 4 + i) else ws.flatMap (fun w => rangeFrom (4 * w) 4)

/-- One thread's STS: its end, and the bytes it wrote. -/
def stsOne (m : LdsMod) (d a b : Opnd) (imm : BitVec 32) (s0 s : State) (g : Group) (t : Nat) : State × Done × List Nat :=
  match spadAccess s g t m.swz m.win.val (spadOff s0 g t a b m.sh.val (sext 32 imm.toNat)) m.sz.bytes true with
  | (s, .error e) => (s, e, [])
  | (s, .ok (ws, o)) =>
    let x := leBytes m.sz.bytes (readOp s0 g t d m.sz.words)
    (tellSpad (sramWrite s g.core ws o x) g t ws o x [], .next, spadBytes ws o m.sz.bytes)

/-- The 32-byte units of a core's SRAM that some written bytes wholly cover hold no poison (R239). -/
def cleanUnits (s : State) (core : Nat) (bs : List Nat) : State :=
  (wholeUnits 1 bs).foldl (fun s u => setSramBad s core (8 * u) false) s

/-- STS of a convoy, whose stores together may write whole units (R239). -/
def stsBody (m : LdsMod) (d a b : Opnd) (imm : BitVec 32) : Body := fun s0 g _ act =>
  let r := act.foldl (fun (acc : State × List (Nat × Done) × List Nat) t =>
    let o := stsOne m d a b imm s0 acc.1 g t
    (o.1, acc.2.1 ++ [(t, o.2.1)], acc.2.2 ++ o.2.2)) (s0, [], [])
  (cleanUnits r.1 g.core r.2.2, r.2.1)
def execSts (h : Hdr) (m : LdsMod) (d a b : Opnd) (imm : BitVec 32) (s : State) : Answer :=
  runOp (.sts h m d a b imm) .u (stsBody m d a b imm) s

/-! The on-chip map (R333). -/

/-- The checks of a map access: alignment, then bits [63:40]. -/
def mapCheck (va n : Nat) (write : Bool) : Option Trap :=
  if va % n ≠ 0 then some (misaligned va n write) else if va / 2 ^ 40 ≠ 0 then some (protTrap va n write) else none

/-- Registers of on-chip unit 0x0400 answer aligned 8-byte reads; the spec does not say what another size reads there. -/
def mapOpen (a n : Nat) : Bool := mapUnit a == 0x400 && n != 8 && (decide (mapOff a < 0x800) || decide (0x1000 ≤ mapOff a ∧ mapOff a < 0x1040))

/-- The location of a word of a core's SRAM in the map, which is that of the LDS and STS view (R188). -/
def mapLoc (s : State) (a : Nat) : Option Nat :=
  if mapUnit a < 832 then
    match mapCell s (mapUnit a) (mapOff a) with
    | .sram w => some (sramLoc (mapUnit a) (4 * w + a % 4))
    | _ => none
  else none

def execLdm (h : Hdr) (m : MemMod) (d a b : Opnd) (imm : BitVec 32) (s : State) : Answer :=
  runOp (.ldm h m d a b imm) .h (memBody fun s0 s g t =>
    let va := ea s0 g t a b m.sh.val (sext 32 imm.toNat)
    match mapCheck va m.sz.bytes false with
    | some e => (s, .trap e)
    | none =>
      if mapBad s va then (s, .trap (machineCheck none (some (va / 4096))))
      else
        let p := if mapOpen va m.sz.bytes then
            let f := freeValue s
            let k := freeValue f.1
            (k.1, (f.2.toNat + 2 ^ 64 * k.2.toNat) % 2 ^ (8 * m.sz.bytes))
          else (s, leNat (mapRead s va m.sz.bytes))
        let s' := match mapLoc p.1 va with
          | some l => hear (tick p.1) (threadAgent g.gid t) l (leBytes m.sz.bytes p.2)
          | none => p.1
        (acquireIf (writeOp s' g t d (szExtend m.sz p.2) m.sz.words) g t (scopeRank m.scope) s.mem.clock, .next)) s

/-- STM, thread by thread. -/
def stmOnes (m : MemMod) (d a b : Opnd) (imm : BitVec 32) : Body := memBody fun s0 s g t =>
    let va := ea s0 g t a b m.sh.val (sext 32 imm.toNat)
    match mapCheck va m.sz.bytes true with
    | some e => (s, .trap e)
    | none =>
      if storesOut s g [t] (scopeRank m.scope) then (s, .wait .remote)
      else
        let x := leBytes m.sz.bytes (readOp s0 g t d m.sz.words)
        let s := mapWrite s va x
        let s := match mapLoc s va with
          | some l => tell s l x (storeRels s (threadAgent g.gid t) g.core (scopeRank m.scope))
          | none => s
        (if scopeRank m.scope = 0 then s else releaseBy s g [t] (scopeRank m.scope) 0xFF, .next)

/-- STM of a convoy, whose stores together may write whole units of a core's SRAM (R239). -/
def stmBody (m : MemMod) (d a b : Opnd) (imm : BitVec 32) : Body := fun s0 g cv act =>
  let r := stmOnes m d a b imm s0 g cv act
  ((wholeUnits m.sz.bytes ((nexts r.2).map (fun t => ea s0 g t a b m.sh.val (sext 32 imm.toNat)))).foldl (fun s u =>
    if mapUnit (32 * u) < 832 then
      match mapCell s (mapUnit (32 * u)) (mapOff (32 * u)) with
      | .sram w => setSramBad s (mapUnit (32 * u)) w false
      | _ => s
    else s) r.1, r.2)
def execStm (h : Hdr) (m : MemMod) (d a b : Opnd) (imm : BitVec 32) (s : State) : Answer :=
  runOp (.stm h m d a b imm) .h (stmBody m d a b imm) s

end Sys2Proof.Machine
end

