-- ==== Sys2Proof/Machine/Atomics.lean ====
section
/-! DEFINITION. Row 0x9: atomics on memory and on scratchpad (R335 to R337). -/
namespace Sys2Proof.Machine

/-- ATOM and RED: base, index and shift, or offset, and data (R336). -/
def atomBody (h : Hdr) (m : AtomMod) (d : Option Opnd) (addr : State → Group → Nat → Nat) (x : Opnd) : Body := memBody fun s0 s g t =>
  let n := nBits m.w64 / 8
  match atomic s g t (addr s0 g t) n h.hint.val (.op m.op m.u (readV s0 g t x m.w64)) m.col.val (scopeRank m.scope) m.rel m.acq with
  | (s, .error e) => (s, e)
  | (s, .ok old) =>
    (match d with
      | some o => writeOp s g t o old (W m.w64)
      | none => s, .next)

def execAtom (h : Hdr) (m : AtomMod) (d a b c : Opnd) (s : State) : Answer :=
  runOp (.atom h m d a b c) .u (atomBody h m (some d) (fun s g t => ea s g t a b m.sh.val 0) c) s
def execAtomImm (h : Hdr) (m : AtomMod) (d a b : Opnd) (imm : BitVec 32) (s : State) : Answer :=
  runOp (.atomImm h m d a b imm) .u (atomBody h m (some d) (fun s g t => ea s g t a .zero 0 (sext 32 imm.toNat)) b) s
def execRed (h : Hdr) (m : AtomMod) (a b c : Opnd) (s : State) : Answer :=
  runOp (.red h m a b c) .u (atomBody h m none (fun s g t => ea s g t a b m.sh.val 0) c) s
def execRedImm (h : Hdr) (m : AtomMod) (a b : Opnd) (imm : BitVec 32) (s : State) : Answer :=
  runOp (.redImm h m a b imm) .u (atomBody h m none (fun s g t => ea s g t a .zero 0 (sext 32 imm.toNat)) b) s

/-- CAS (R336). -/
def execCas (h : Hdr) (m : CasMod) (d a b c e : Opnd) (s : State) : Answer :=
  runOp (.cas h m d a b c e) .u (memBody fun s0 s g t =>
    let k := m.csz.words
    match atomic s g t (ea s0 g t a b m.sh.val 0) (4 * k) h.hint.val (.cas (readOp s0 g t c k) (readOp s0 g t e k)) m.col.val
        (scopeRank m.scope) m.rel m.acq with
    | (s, .error x) => (s, x)
    | (s, .ok old) => (writeOp s g t d old k, .next)) s

/-- A scratchpad atomic of n bytes (R337): the old value. -/
def spadAtomic (s : State) (g : Group) (t : Nat) (swz : Swz) (win : Nat) (o : Int) (n : Nat) (r : Rmw) : Got Nat :=
  match spadAccess s g t swz win o n true with
  | (s, .error e) => (s, .error e)
  | (s, .ok (ws, off)) =>
    if wordsBad s g.core ws then (s, .error (.trap (machineCheck none (some (off / 4096)))))
    else
      let b := sramRead s g.core ws off n
      let on := (spadParts g.core ws off b).flatMap (fun p =>
        (heard s p.1 p.2).filter (fun r => shares r.scope r.agent r.core (threadAgent g.gid t) g.core))
      let s := hearSpad s g t ws off b
      (match r.apply n (leNat b) with
        | some v => tellSpad (sramWrite s g.core ws off (leBytes n v)) g t ws off (leBytes n v) on
        | none => s, .ok (leNat b))

/-- ATOMS and REDS. -/
def atomsBody (m : AtomsMod) (d : Option Opnd) (a x : Opnd) (imm : BitVec 32) : Body := memBody fun s0 s g t =>
  match spadAtomic s g t m.swz m.win.val (spadOff s0 g t a .zero 0 (sext 32 imm.toNat)) (nBits m.w64 / 8)
      (.op m.op m.u (readV s0 g t x m.w64)) with
  | (s, .error e) => (s, e)
  | (s, .ok old) =>
    (match d with
      | some o => writeOp s g t o old (W m.w64)
      | none => s, .next)

def execAtoms (h : Hdr) (m : AtomsMod) (d a b : Opnd) (imm : BitVec 32) (s : State) : Answer :=
  runOp (.atoms h m d a b imm) .u (atomsBody m (some d) a b imm) s
def execReds (h : Hdr) (m : AtomsMod) (a b : Opnd) (imm : BitVec 32) (s : State) : Answer :=
  runOp (.reds h m a b imm) .u (atomsBody m none a b imm) s
def execCass (h : Hdr) (m : CassMod) (d a b c e : Opnd) (s : State) : Answer :=
  runOp (.cass h m d a b c e) .u (memBody fun s0 s g t =>
    let k := m.csz.words
    match spadAtomic s g t m.swz m.win.val (spadOff s0 g t a b m.sh.val 0) (4 * k) (.cas (readOp s0 g t c k) (readOp s0 g t e k)) with
    | (s, .error x) => (s, x)
    | (s, .ok old) => (writeOp s g t d old k, .next)) s

end Sys2Proof.Machine
end

