-- ==== Sys2Proof/Machine/Fences.lean ====
section
/-! DEFINITION. Row 0xA: fences (R338, R339), named barriers (R341 to R345), the cluster barrier (R347) and WAITA (R348, R349). -/
namespace Sys2Proof.Machine

/-- FENCE (R338, R192). A release at SYS waits, in its threads that have such, for the acknowledgement of remote stores. -/
def execFence (h : Hdr) (m : FenceMod) (s : State) : Answer :=
  runOp (.fence h m) .u (fun s g _ all =>
    let sc := scopeRank m.scope
    let out := fun t => m.kind != .acq && storesOut s g [t] sc
    let act := all.filter (fun t => !out t)
    let s := if m.kind = .acq then s else fenceBy s g act sc ((m.mask.map (·.val)).getD 0xFF)
    (if m.kind = .rel then s else acquireBy s g act sc 0, (all.filter out).map (fun t => (t, .wait .remote)))) s

/-- The number of a path in the bit order of R256. -/
def Path.code : Path → Nat
  | .ls => 0
  | .mx => 1
  | .sw => 2
  | .ne => 3
  | .co => 4
  | .sg => 5
  | .wk => 6
  | .if_ => 7
  | .lq => 8

/-- What a crossing from a path by a thread of a core moves (R339, R196): from LS the thread's accesses go to where the named paths
read. A crossing from another path starts where that path's accesses already are: an engine of the cluster writes in the die's L2,
the others at the MSC. -/
def pathMoves (s : State) (core v : Nat) (frm : Path) (dst : Nat) : State :=
  match frm with
  | .ls => crossing s core v dst
  | .sw | .mx | .wk | .if_ => crossing s core v (nAnd dst 0x1F8)
  | .ne | .co | .sg | .lq => if bit dst 7 then crossing s core v 0x80 else s

/-- PFENCE (R339, R196). -/
def execPfence (h : Hdr) (m : PfenceMod) (s : State) : Answer :=
  runOp (.pfence h m) .u (fun s g _ act =>
    if act.isEmpty then (s, [])
    else
      let s := (threadVds s g act).foldl (fun s v => pathMoves s g.core v m.frm m.dst.val) s
      (act.foldl (fun s t => cross s (threadAgent g.gid t) m.frm.code m.dst.val) s, [])) s

/-! Named barriers. -/

/-- Threads in ascending order, each with its own trap. -/
def trapBody (act : List Nat) (s : State) (f : State → Nat → State × Option Trap) : State × List (Nat × Done) :=
  act.foldl (fun (a : State × List (Nat × Done)) t =>
    match f a.1 t with
    | (s, some e) => (s, a.2 ++ [(t, .trap e)])
    | (s, none) => (s, a.2)) (s, [])

/-- BAR.INIT (R344): the count of the highest participating thread; Barrier Busy in every participant. -/
def barInitBody (m : BarMod) (count : State → Group → Nat → Nat) : Body := fun s g _ act =>
  match act.getLast? with
  | none => (s, [])
  | some t =>
    match barInit s g.blk m.id.val (count s g t) with
    | (s, some e) => (s, act.map (fun t => (t, .trap e)))
    | (s, none) => (s, [])
def execBarInit (h : Hdr) (m : BarMod) (a : Opnd) (s : State) : Answer :=
  runOp (.barInit h m a) .u (barInitBody m (fun s g t => readOp s g t a 1)) s
def execBarInitImm (h : Hdr) (m : BarMod) (imm : BitVec 32) (s : State) : Answer :=
  runOp (.barInitImm h m imm) .u (immBody (decide (1 ≤ imm.toNat ∧ imm.toNat < 65536)) (.barInitImm h m imm)
    (barInitBody m (fun _ _ _ => imm.toNat))) s

/-- The arrivals of a convoy (R342), each thread with its count; the path mask crosses the threads' earlier accesses. -/
def arrivals (m : BarArrMod) (count : State → Group → Nat → Nat) : Body := fun s g _ act =>
  let n := fun t => count s g t
  trapBody act s (fun s t => barArrive s g t m.id.val (n t) m.pm.val)
def execBarArrive (h : Hdr) (m : BarArrMod) (a : Opnd) (s : State) : Answer :=
  runOp (.barArrive h m a) .u (arrivals m (fun s g t => readOp s g t a 1)) s
def execBarArriveImm (h : Hdr) (m : BarArrMod) (imm : BitVec 32) (s : State) : Answer :=
  runOp (.barArriveImm h m imm) .u (immBody (decide (imm.toNat < 65536)) (.barArriveImm h m imm) (arrivals m (fun _ _ _ => imm.toNat))) s

/-- The waits of a convoy (R343). -/
def waits (f : State → Group → Nat → State × Done) : Body := fun s g _ act =>
  act.foldl (fun (a : State × List (Nat × Done)) t => let r := f a.1 g t; (r.1, a.2 ++ [(t, r.2)])) (s, [])
def execBarWait (h : Hdr) (m : BarMod) (s : State) : Answer :=
  runOp (.barWait h m) .u (waits fun s g t => barWaitOn s g t m.id.val) s

/-- A thread that entered a wait on a barrier and waits no longer has been released: its instruction is done. -/
def settle (s : State) (g : Group) (j : Nat) (e : Nat × Done) : Nat × Done :=
  if e.2 == Done.wait (.bar j) && (((findGroup s g.gid).getD g).thread e.1).st != .wait (.bar j) then (e.1, .next) else e

/-- BAR.SYNC: each thread arrives and then waits, in ascending order. A thread that waits already does so when a later thread of its
convoy completes the phase, which releases it. A thread whose arrival raised Barrier Busy does not wait. -/
def barSyncBody (m : BarArrMod) (count : State → Group → Nat → Nat) : Body := fun s g _ act =>
  let n := fun t => count s g t
  let r := act.foldl (fun (a : State × List (Nat × Done)) t =>
    match barArrive a.1 g t m.id.val (n t) m.pm.val with
    | (s, some e) => (s, a.2 ++ [(t, .trap e)])
    | (s, none) =>
      match barWaitOn s g t m.id.val with
      | (s, .wait w) => (onThread s g.gid t (fun x => { x with st := .wait w }), a.2 ++ [(t, .wait w)])
      | (s, d) => (s, a.2 ++ [(t, d)])) (s, [])
  (r.1, r.2.map (settle r.1 g m.id.val))
def execBarSync (h : Hdr) (m : BarArrMod) (a : Opnd) (s : State) : Answer :=
  runOp (.barSync h m a) .u (barSyncBody m (fun s g t => readOp s g t a 1)) s
def execBarSyncImm (h : Hdr) (m : BarArrMod) (imm : BitVec 32) (s : State) : Answer :=
  runOp (.barSyncImm h m imm) .u (immBody (decide (imm.toNat < 65536)) (.barSyncImm h m imm) (barSyncBody m (fun _ _ _ => imm.toNat))) s

/-- BAR.INV (R345). -/
def execBarInv (h : Hdr) (m : BarMod) (s : State) : Answer :=
  runOp (.barInv h m) .u (fun s g _ act =>
    if act.isEmpty then (s, [])
    else
      match barInv s g.blk m.id.val with
      | (s, some e) => (s, act.map (fun t => (t, .trap e)))
      | (s, none) => (s, [])) s

/-! The cluster barrier (R347). -/

/-- The team of a group's block. -/
def teamOf (s : State) (g : Group) : Option Nat := (blockOf s g).bind (·.team)

def execCbar (h : Hdr) (m : CbarMod) (s : State) : Answer :=
  let i : Instr := .cbar h m
  runOp i .u (fun s g _ act =>
    match teamOf s g with
    | none => (s, act.map (fun t => (t, .trap (illegal (wordBytes i)))))
    | some team =>
      let s := if m.mode = .wait then s else act.foldl (fun s t => cbarArrive s g t team m.pm.val) s
      if m.mode = .arrive then (s, [])
      else waits (fun s g t => cbarWaitOn s g t team) s g { gid := g.gid, pc := 0, tids := act } act) s

/-! WAITA. -/

/-- R348: does a word satisfy a condition? -/
def waHolds (c : WaCmp) (w64 : Bool) (x b : Nat) : Bool :=
  let n := nBits w64
  match c with
  | .eq => x == b
  | .ne => x != b
  | .geu => decide (b ≤ x)
  | .ltu => decide (x < b)
  | .ge => decide (sext n b ≤ sext n x)
  | .lt => decide (sext n x < sext n b)
  | .anyset => nAnd x b != 0

/-- Has a thread a read outstanding on a failed link? -/
def readOut (s : State) (g : Group) (t : Nat) : Bool := s.net.remoteOps.any (fun o => !o.store && o.gid == g.gid && o.tid == t)

/-- The word of a WAITA at the point its scope reads, or the thread's end; the read meets the releases of the stores it returns. -/
def waWord (s : State) (g : Group) (t : Nat) (r : WaitRec) (sc : Nat) : Got Nat :=
  let n := nBits r.w64 / 8
  let me := threadAgent g.gid t
  let got := fun (s : State) (loc : Nat) (b : Bytes) => ((hear (tick s) me loc b, Except.ok (leNat b)) : Got Nat)
  match r.place with
  | .sram c w =>
    if sramBad s c w then (s, .error (.trap (machineCheck none (some (r.va / 4096)))))
    else
      let b := (List.range (n / 4)).flatMap (fun k => leBytes 4 (sramWord s c (w + k)).toNat)
      let s := (List.range (n / 4)).foldl (fun s k => hear s me (sramLoc c (4 * (w + k))) ((b.drop (4 * k)).take 4)) (tick s)
      (s, .ok (leNat b))
  | .map a =>
    if mapBad s a then (s, .error (.trap (machineCheck none (some (r.va / 4096)))))
    else
      match mapLoc s a with
      | some l => got s l (mapRead s a n)
      | none => (s, .ok (leNat (mapRead s a n)))
  | .mem (.page gpa) => (s, .ok (leNat (pageBytes s g.vd gpa n)))
  | .mem (.flash win nsid lba off) =>
    match flashRead s g.vd r.va win nsid lba off n with
    | (s, .ok b) => (s, .ok (leNat b))
    | (s, .error e) => (s, .error e)
  | .mem (.remote pkg h off) =>
    if reaches s pkg then
      if remoteBad s pkg h off then (s, .error (.trap (machineCheck none (some (r.va / 4096)))))
      else got s (remoteLoc (remoteKey pkg h off)) (remoteRead s pkg h off n)
    else (if readOut s g t then s else remoteWait s g.gid t pkg h off [] false false, .error (.wait .remote))
  | .mem (.spa a) =>
    match pointRead s (nameOf s g g.own r.va a) a n sc false false with
    | (s, .error d) => (s, .error (.trap (denyTrap d r.va (gpaOf s g.core g.vd g.asid r.va) n false)))
    | (s, .ok (b, bad)) => if bad then (s, .error (.trap (machineCheck (some (a / 128 * 128)) (some (r.va / 4096))))) else got s (memLoc a) b

/-- One reading of a WAITA's word: it continues with D all ones and the acquire when the condition holds; at expiry it continues
with D all zeros; else it waits, as it does for the fill of a flash-window block (R63) and for a link (R59). -/
def waStep (s : State) (g : Group) (t : Nat) (r : WaitRec) (last : Bool) : State × Done :=
  let since := s.mem.clock
  match waWord s g t r (scopeRank r.scope) with
  | (s, .error (.wait _)) => (s, .wait (.waita r))
  | (s, .error e) => (s, e)
  | (s, .ok x) =>
    if waHolds r.cmp r.w64 x r.arg then
      let s := writePB s g t r.d true
      (acquireIf s g t (scopeRank r.scope) since, .next)
    else if last then (writePB s g t r.d false, .next)
    else (s, .wait (.waita r))

/-- R348: the place of a WAITA's word, translated and checked once. -/
def waPlace (s : State) (g : Group) (sp : WaSpace) (va n : Nat) : Got Place :=
  match sp with
  | .mem =>
    match locate s g g.own va n false with
    | (s, .error e) => (s, .error e)
    | (s, .ok x) => (s, .ok (.mem x.target))
  | .spad =>
    match spadPlace s g .none 0 (va : Int) n false with
    | .error e => (s, .error (.trap e))
    | .ok (ws, _) => (s, .ok (.sram g.core (ws.headD 0)))
  | .map =>
    match mapCheck va n false with
    | some e => (s, .error (.trap e))
    | none => (s, .ok (.map va))

/-- WAITA (R348, R349): SPACE 10 below H is Privilege. The deadline counts from issue; 0 reads once. -/
def waitaBody (i : Instr) (m : WaitaMod) (d a b : Opnd) (timeout : State → Group → Nat → Nat) : Body := fun s g c act =>
  if m.space = .map ∧ g.priv ≠ .h then (s, act.map (fun t => (t, .trap (privilege (wordBytes i)))))
  else
    memBody (fun s0 s g t =>
      let va := readOp s0 g t a (if m.space = .spad then 1 else 2)
      let tmo := timeout s0 g t
      match waPlace s g m.space va (nBits m.w64 / 8) with
      | (s, .error e) => (s, e)
      | (s, .ok p) =>
        waStep s g t
          { place := p, va := va, w64 := m.w64, cmp := m.cmp, scope := m.scope, arg := readV s0 g t b m.w64, d := d,
            deadline := if tmo = 0xFFFFFFFF then none else some (s.sch.cycle + cyclesOfNs tmo) } (tmo == 0)) s g c act
def execWaita (h : Hdr) (m : WaitaMod) (d a b c : Opnd) (s : State) : Answer :=
  let i : Instr := .waita h m d a b c
  runOp i .u (waitaBody i m d a b (fun s g t => readOp s g t c 1)) s
def execWaitaImm (h : Hdr) (m : WaitaMod) (d a b : Opnd) (imm : BitVec 32) (s : State) : Answer :=
  let i : Instr := .waitaImm h m d a b imm
  runOp i .u (waitaBody i m d a b (fun _ _ _ => imm.toNat)) s

/-- A waiting WAITA of a thread in its core reads its word again; one that is saved does so when it is restored (R129). -/
def waAgain (s : State) (gid t : Nat) (last : Bool) : State :=
  match findGroup s gid with
  | none => s
  | some g =>
    if g.resid != .core then s
    else
    match (g.thread t).st with
    | .wait (.waita r) =>
      match waStep s g t r last with
      | (s, .wait _) => s
      | (s, .trap e) => flushRecs (takeTraps s g (g.thread t).pc.toNat [(t, e)])
      | (s, _) => wakeThreads s (fun h i _ => h.gid == gid && i == t) Thread.goOn
    | _ => s

/-- WAITA_WAKE (R349): the thread of the step's agent (group n, thread k) re-reads its word. -/
def execWaitaWake (s : State) : Answer := .next (waAgain s s.sch.sel.n s.sch.sel.k false)
/-- WAITA_TIMEOUT (R349): a final plain read decides. -/
def execWaitaTimeout (s : State) : Answer := .next (waAgain s s.sch.sel.n s.sch.sel.k true)

end Sys2Proof.Machine
end

