-- ==== Sys2Proof/Machine/Windows.lean ====
section
/-! DEFINITION. Row 0xB: window instructions (R350 to R354), seals (R355), cache control (R356) and IINV, ISYNC (R357). -/
namespace Sys2Proof.Machine

/-! Windows. -/

/-- A thread's read of a 64-byte descriptor or parameter block, 64-aligned, as a data load of 64 bytes (R351, R359). -/
def loadDesc (s : State) (g : Group) (t va : Nat) : Got Bytes :=
  if va % 64 ≠ 0 then (s, .error (.trap (misaligned va 64 false)))
  else
    match loadBlock s g t va 4 with
    | (s, .error (.trap e)) => (s, .error (.trap (if e.cause = 0x06 ∨ e.cause = 0x07 then { e with arg := leBytes 4 64 } else e)))
    | r => r

/-- R175: bytes of an element of an ETYPE. -/
def winEtySize (e : Nat) : Nat := if e ≤ 1 then 2 else if e ≤ 4 then 1 else 4

/-- R351: is a descriptor valid for a block? -/
def Window.valid (s : State) (w : Window) (b : Block) : Bool :=
  let z := fun o n => field w.desc o n == 0
  z 26 2 && z 50 2 && z 56 8 && w.cpath / 64 == 0 && w.act / 8 == 0
    && w.soff % 256 == 0 && w.slen % 256 == 0 && w.slen != 0 && decide (w.soff + w.slen ≤ 256 * b.rowCount)
    && decide (w.kind ≤ 2) && decide (w.fmt ≤ 3) && decide (w.swz ≤ 2) && decide (w.ety ≤ 6) && decide (1 ≤ w.cscope ∧ w.cscope ≤ 6)
    && decide (w.comp ≤ 1) && (w.fmt == 0 || w.kind == 0) && (w.comp == 0 || w.kind == 0)
    && !(w.kind != 2 && w.fmt == 0 && decide (w.slen < w.nrows * w.cols * winEtySize w.ety))
    && (w.bnd == 0xFF || (decide (w.bnd ≤ 31) && w.kind == 1))
    && (!bit w.act 0 || (w.woff % 4 == 0 && decide (w.woff < 256 * b.rowCount)))
    && (!bit w.act 1 || handleOk s b.vd w.cnt) && (!bit w.act 2 || decide (w.barid ≤ 15))
    && (w.kind != 2 || (w.src == 0 && decide (w.ncore ≤ 831)))

/-- R351: the status of a WIN.BIND of index i, and the state it leaves. -/
def winBind (s : State) (g : Group) (b : Block) (i : Nat) (desc : Bytes) : State × Nat :=
  let e := rtBase s g.vd + i
  let old := winOf s g.core e
  let w : Window := { st := if field desc 16 1 = 1 then .bound else .absent, desc := desc, blk := g.blk, vd := g.vd, asid := g.asid, status := 0 }
  let bar := bit w.act 2
  if rtCnt s g.vd ≤ i ∨ (old.st ≠ .empty ∧ old.blk ≠ g.blk) then (s, 2)
  else if old.st ≠ .empty ∧ old.st ≠ .error then (s, 1)
  else if !w.valid s b then (s, 3)
  else if (blockWindows s b).any (fun x => x.1 != e && decide (x.2.soff < w.soff + w.slen ∧ w.soff < x.2.soff + x.2.slen)) then (s, 4)
  else if bar && (b.bar w.barid).expect == 0 then (s, 5)
  else if bar && (b.bar w.barid).out == 32767 then (s, 1)
  else
    let s := onWin s g.core e (fun _ => w)
    (if bar then onBar s g.blk w.barid (fun x => { x with out := x.out + 1 }) else s, 0)

/-- WIN.BIND (R351). -/
def execWinBind (h : Hdr) (d a b : Opnd) (s : State) : Answer :=
  runOp (.winBind h d a b) .u (memBody fun s0 s g t =>
    match loadDesc s g t (readOp s0 g t b 2) with
    | (s, .error e) => (s, e)
    | (s, .ok desc) =>
      match blockOf s g with
      | none => (writeOp s g t d 2 1, .next)
      | some blk => let r := winBind s g blk (readOp s0 g t a 1) desc; (writeOp r.1 g t d r.2 1, .next)) s

/-- The entry an index names for a block; none when it is outside the range or another block holds it (R350). -/
def winIndex (s : State) (g : Group) (i : Nat) : Option Nat :=
  let e := rtBase s g.vd + i
  let w := winOf s g.core e
  if i < rtCnt s g.vd ∧ (w.st = .empty ∨ w.blk = g.blk) then some e else none

/-- R353: a window with BARRIER that leaves its outstanding completion unperformed. -/
def winDrop (s : State) (w : Window) : State := if bit w.act 2 then onBar s w.blk w.barid (fun x => { x with out := x.out - 1 }) else s

/-- WIN.TOUCH (R352). -/
def winTouch (s : State) (g : Group) (t i : Nat) : State × Done :=
  match winIndex s g i with
  | none => (s, .trap (protTrap i 0 false))
  | some e =>
    let w := winOf s g.core e
    match w.st with
    | .absent => (firstTouch s g.core e (some (g.gid, t)), .wait (.window e))
    | .filling => (s, .wait (.window e))
    | .error => (s, .trap { cause := 0x0F, addr := i, arg := leBytes 4 w.status })
    | _ => (s, .next)
def execWinTouch (h : Hdr) (a : Opnd) (s : State) : Answer :=
  runOp (.winTouch h a) .u (memBody fun s0 s g t => winTouch s g t (readOp s0 g t a 1)) s

/-- An entry becomes EMPTY; it keeps its descriptor image (R168), and threads that waited for it look again or go on. -/
def winEmpty (s : State) (core e : Nat) : State :=
  let s := onWin s core e (fun w => { w with st := .empty })
  let s := wakeThreads s (fun g _ x => g.core == core && x.st == .wait (.retire e)) Thread.goOn
  wakeThreads s (fun g _ x => g.core == core && x.st == .wait (.window e)) Thread.again

/-- WIN.RETIRE (R353). -/
def winRetire (s : State) (g : Group) (t i : Nat) : State × Done :=
  match winIndex s g i with
  | none => (s, .trap (protTrap i 0 false))
  | some e =>
    let w := winOf s g.core e
    match w.st with
    | .bound => (queueSwage (onWin s g.core e (fun w => { w with st := .draining })) g.core e true (some (g.gid, t)), .wait (.retire e))
    | .present => (winEmpty s g.core e, .next)
    | .absent | .error => (winDrop (winEmpty s g.core e) w, .next)
    | .filling => (s, .wait (.window e))
    | .draining => (s, .wait (.retire e))
    | .empty => (s, .next)
def execWinRetire (h : Hdr) (a : Opnd) (s : State) : Answer :=
  runOp (.winRetire h a) .u (memBody fun s0 s g t => winRetire s g t (readOp s0 g t a 1)) s

/-- Codes of WIN.STATE (R354). -/
def WinSt.code : WinSt → Nat
  | .empty => 0
  | .absent => 1
  | .filling => 2
  | .present => 3
  | .bound => 4
  | .draining => 5
  | .error => 6
def winStateOf (s : State) (g : Group) (i : Nat) : Nat :=
  match winIndex s g i with
  | none => 0xFFFFFFFF
  | some e => (winOf s g.core e).kind * 256 + (winOf s g.core e).st.code
def execWinState (h : Hdr) (d a : Opnd) (s : State) : Answer :=
  runOp (.winState h d a) .u (regBody d 1 (fun s g t => winStateOf s g (readOp s g t a 1))) s

/-! Seals (R355). -/

/-- The status written, or the wait for a leaf being migrated (R209). -/
def sealEnd (g : Group) (t : Nat) (d : Opnd) (r : State × Option Nat) : State × Done :=
  match r.2 with
  | some st => (writeOp r.1 g t d st 1, .next)
  | none => (r.1, .wait .mig)
def execSeal (h : Hdr) (d a b c : Opnd) (s : State) : Answer :=
  runOp (.seal h d a b c) .s (memBody fun s0 s g t =>
    sealEnd g t d (sealRange s g t (readOp s0 g t a 2) (readOp s0 g t b 1) (readOp s0 g t c 1))) s
def execUnseal (h : Hdr) (m : UnsealMod) (d a b c : Opnd) (s : State) : Answer :=
  runOp (.unseal h m d a b c) .s (memBody fun s0 s g t =>
    sealEnd g t d (unsealRange s g.core g.vd (readOp s0 g t a 2) (readOp s0 g t b 1) (readOp s0 g t c 1) m.sync)) s

/-! Cache control (R356). -/

/-- The operation on the VD's lines of a physical range. -/
def cctlLines (s : State) (g : Group) (m : CctlMod) (lo n : Nat) : State :=
  let hit := fun l => decide (lo / 128 ≤ l ∧ l * 128 < lo + n)
  let k1 := l1Keys s (fun c l => c == g.core && l.vd == g.vd && hit l.spa)
  let s := match m.op with
    | .wb => k1.foldl (fun s k => l1Clean s k 0xFF) s
    | .wbinv => k1.foldl l1Evict s
    | .discard => s.onMem (fun x => { x with l1 := x.l1.filter (fun e => !k1.contains e.1) })
  if m.level = .l1 then s
  else
    let k2 := l2Keys s (dieOfCore g.core) (fun l => l.vd == g.vd && !l.home && hit l.spa)
    match m.op with
    | .wb => k2.foldl (fun s k => l2Clean s k 0xFF) s
    | .wbinv => k2.foldl l2Evict s
    | .discard => s.onMem (fun x => { x with l2 := x.l2.filter (fun e => !k2.contains e.1) })

/-- The place of an address for CCTL: DISCARD needs W, but writes nothing, so that it sets no D and a seal does not matter. -/
def cctlXlate (s : State) (g : Group) (m : CctlMod) (va : Nat) : State × Except XErr Target :=
  if !canonical va || (mapped s g.vd g.asid va).isSome then (s, .error (.page false va))
  else
    match lookup s (clusterOfCore g.core) g.vd g.asid va { write := m.op == .discard, fetch := false, user := g.priv == .u, sup := false } with
    | (s, .error e) => (s, .error e)
    | (s, .ok e) => (s, .ok (e.target.plus (va % e.size)))

/-- The pages of a range in turn; a page that fails translation or permission is skipped, and one being migrated is waited for (R209). -/
def cctlPages (s : State) (g : Group) (m : CctlMod) : Nat → Nat → Nat → State × Done
  | 0, _, _ => (s, .next)
  | k + 1, va, n =>
    if n = 0 then (s, .next)
    else
      let here := min n (4096 - va % 4096)
      let go := fun (s : State) => cctlPages s g m k ((va + here) % 2 ^ 64) (n - here)
      match cctlXlate s g m va with
      | (s, .ok (.spa a)) => go (cctlLines s g m a here)
      | (s, .ok _) => go s
      | (s, .error .mig) => (s, .wait .mig)
      | (s, .error _) => go s
def execCctl (h : Hdr) (m : CctlMod) (a b : Opnd) (s : State) : Answer :=
  runOp (.cctl h m a b) .u (memBody fun s0 s g t =>
    let n := readOp s0 g t b 1
    cctlPages s g m (n / 4096 + 2) (readOp s0 g t a 2) n) s
def execCctlImm (h : Hdr) (m : CctlMod) (a : Opnd) (imm : BitVec 32) (s : State) : Answer :=
  runOp (.cctlImm h m a imm) .u (memBody fun s0 s g t =>
    cctlPages s g m 2 (wrap 64 ((readOp s0 g t a 2 : Int) + sext 32 imm.toNat)) 1) s

/-! Instruction lines (R357). -/

def execIinv (h : Hdr) (a b : Opnd) (s : State) : Answer :=
  runOp (.iinv h a b) .u (memBody fun s0 s g t =>
    let va := readOp s0 g t a 2
    let n := readOp s0 g t b 1
    (iDrop s (fun e => e.core == g.core && e.vd == g.vd
      && (n == 0 || (e.asid == g.asid && decide (e.va < va + n ∧ va < e.va + 64)))), .next)) s
def execIsync (h : Hdr) (s : State) : Answer :=
  runOp (.isync h) .u (fun s g _ act => (if act.isEmpty then s else onGroup s g.gid (fun x => { x with ibuf := [] }), [])) s

end Sys2Proof.Machine
end

