-- ==== Sys2Proof/Machine/EngineAccess.lean ====
section
/-! DEFINITION. The accesses of engines to memory (R177, R196, R209, R215, R226): by virtual or guest-physical address, at the L2 of
a die (paths SW, MX) or at the MSC (paths NE, CO, SG, LQ), sector by sector. -/
namespace Sys2Proof.Machine

/-- An engine's context: VD, address space, the cluster whose TLBs it walks in, the die whose L2 its accesses are performed at, or
none for the MSC, who its writes set code-write marks for (R204: path SW alone), whether it may use flash windows (R94), and whether
the guest-physical addresses it is given come from a register, where VD 0's are system-physical (R35, R71). -/
structure Eng where
  vd : Nat
  asid : Nat
  cl : Nat
  die : Option Nat
  ws : List Writer := []
  flash : Bool := true
  reg : Bool := false
  deriving DecidableEq, Repr

/-- An engine of the I/O dies: it walks in cluster 0's TLBs and acts at the MSC. -/
def ioEng (v asid : Nat) : Eng := { vd := v, asid := asid, cl := 0, die := none }
/-- An engine of the I/O dies at the addresses that registers of a VD name. -/
def regEng (v : Nat) : Eng := { ioEng v 0 with reg := true }
/-- The Swage of a cluster. -/
def swEng (s : State) (cl v asid : Nat) : Eng :=
  { vd := v, asid := asid, cl := cl, die := some (dieOfCluster cl), ws := [Writer.swage s cl] }

/-- Why an engine's access does not go through: a failed translation, the MSC's refusal, or a wait. -/
inductive EngErr where
  | xl (e : XErr)
  | deny (d : Deny) (addr : Nat)
  | wait
  deriving DecidableEq, Repr

/-- A physical read inside one sector; a line filled through a sealed leaf is a replica (R219). -/
def engPhysRead (s : State) (e : Eng) (a n : Nat) (sl : Bool := false) : State × Except EngErr (Bytes × Bool) :=
  let r := match e.die with
    | some d => l2Read s d e.vd (kidFor s e.vd a) a n sl
    | none => mscRead s e.vd (kidFor s e.vd a) a n
  match r with
  | (s, .error d) => (s, .error (.deny d a))
  | (s, .ok x) => (s, .ok x)

/-- A physical write inside one sector, after the shadow a snapshot frame asks for (R231): it answers false when the address must
be translated again. -/
def engPhysWrite (s : State) (e : Eng) (a : Nat) (b : Bytes) (p : Bool) : State × Except EngErr Bool :=
  match snapOf s e.vd (a / 65536) with
  | some (lid, gpa) =>
    let r := shadowTake s e.vd lid (a / 65536)
    if r.2 then (r.1, .ok false) else (s, .error (.xl (.page true (gpa + a % 65536))))
  | none =>
    let r := match e.die with
      | some d => l2Write s d e.vd (kidFor s e.vd a) a b 1 e.ws p
      | none => mscWrite s e.vd (kidFor s e.vd a) a b p
    match r with
    | (s, some d) => (s, .error (.deny d a))
    | (s, none) => (s, .ok true)

/-- R59: an engine's access over a failed link: poison or nothing, and a record. -/
def linkLost (s : State) (pkg : Nat) : State :=
  offerRec s 0 { type := 0x08, sev := 1, vd := 0, unit := 0x401, addr := some (Config.brazePort pkg).val, data0 := 1 }

/-- A read of n bytes inside one sector by virtual address. A register page fails as a translation (R430). -/
def engRead1 (s : State) (e : Eng) (va n : Nat) : State × Except EngErr (Bytes × Bool) :=
  match translate s e.cl e.vd e.asid va { write := false, fetch := false, user := false, sup := false } with
  | (s, .error .mig) => (s, .error .wait)
  | (s, .error x) => (s, .error (.xl x))
  | (s, .ok x) =>
    match x.target with
    | .spa a => engPhysRead s e a n x.sl
    | .page _ => (s, .error (.xl (.page false va)))
    | .flash win nsid lba off =>
      if !e.flash then (s, .error (.xl (.page false va)))
      else
        match flashFind s e.vd win nsid lba with
        | some b => (flashRenew s e.vd win nsid lba, .ok ((b.data.drop off).take n, b.poisoned))
        | none => (flashAsk s e.vd win nsid lba, .error .wait)
    | .remote pkg h off =>
      if reaches s pkg then (s, .ok (remoteRead s pkg h off n, remoteBad s pkg h off)) else (linkLost s pkg, .ok (List.replicate n 0, true))

/-- A write inside one sector by virtual address. -/
def engWrite1 (s : State) (e : Eng) (va : Nat) (b : Bytes) (p : Bool) : Nat → State × Except EngErr Unit
  | 0 => (s, .error (.xl (.page true va)))
  | fuel + 1 =>
    match translate s e.cl e.vd e.asid va { write := true, fetch := false, user := false, sup := false } with
    | (s, .error .mig) => (s, .error .wait)
    | (s, .error x) => (s, .error (.xl x))
    | (s, .ok x) =>
      match x.target with
      | .spa a =>
        match engPhysWrite s e a b p with
        | (s, .error x) => (s, .error x)
        | (s, .ok true) => (s, .ok ())
        | (s, .ok false) => engWrite1 s e va b p fuel
      | .page _ => (s, .error (.xl (.page false va)))
      | .flash _ _ _ _ => (s, .error (.xl (.prot false va)))
      | .remote pkg h off => if reaches s pkg then (remoteWrite s pkg h off b p, .ok ()) else (linkLost s pkg, .ok ())

/-- Bytes from an address to the end of its sector, at most n. -/
def sectorPart (a n : Nat) : Nat := min n (32 - a % 32)

/-- A read of n bytes by virtual address: its bytes, and whether any is poisoned. -/
def engRead (s : State) (e : Eng) : Nat → Nat → Nat → State × Except EngErr (Bytes × Bool)
  | 0, _, _ => (s, .ok ([], false))
  | fuel + 1, va, n =>
    if n = 0 then (s, .ok ([], false))
    else
      match engRead1 s e va (sectorPart va n) with
      | (s, .error x) => (s, .error x)
      | (s, .ok (b, p)) =>
        match engRead s e fuel ((va + sectorPart va n) % 2 ^ 64) (n - sectorPart va n) with
        | (s, .error x) => (s, .error x)
        | (s, .ok (c, q)) => (s, .ok (b ++ c, p || q))
def engReadN (s : State) (e : Eng) (va n : Nat) : State × Except EngErr (Bytes × Bool) := engRead s e (n / 32 + 2) va n

/-- The same with the poison of each byte, for what keeps it sector by sector (R239). -/
def engReadB (s : State) (e : Eng) : Nat → Nat → Nat → State × Except EngErr (Bytes × List Bool)
  | 0, _, _ => (s, .ok ([], []))
  | fuel + 1, va, n =>
    if n = 0 then (s, .ok ([], []))
    else
      match engRead1 s e va (sectorPart va n) with
      | (s, .error x) => (s, .error x)
      | (s, .ok (b, p)) =>
        match engReadB s e fuel ((va + sectorPart va n) % 2 ^ 64) (n - sectorPart va n) with
        | (s, .error x) => (s, .error x)
        | (s, .ok (c, q)) => (s, .ok (b ++ c, List.replicate b.length p ++ q))
def engReadBits (s : State) (e : Eng) (va n : Nat) : State × Except EngErr (Bytes × List Bool) := engReadB s e (n / 32 + 2) va n

/-- A read of n bytes by virtual address as far as it goes: its bytes, whether any is poisoned, and why it stops before the end. -/
def engReadFar (s : State) (e : Eng) : Nat → Nat → Nat → State × Bytes × Bool × Option EngErr
  | 0, _, _ => (s, [], false, none)
  | fuel + 1, va, n =>
    if n = 0 then (s, [], false, none)
    else
      match engRead1 s e va (sectorPart va n) with
      | (s, .error x) => (s, [], false, some x)
      | (s, .ok (b, p)) =>
        let r := engReadFar s e fuel ((va + sectorPart va n) % 2 ^ 64) (n - sectorPart va n)
        (r.1, b ++ r.2.1, p || r.2.2.1, r.2.2.2)

/-- A write of bytes by virtual address, lowest sector first. -/
def engWrite (s : State) (e : Eng) (p : Bool) : Nat → Nat → Bytes → State × Except EngErr Unit
  | 0, _, _ => (s, .ok ())
  | fuel + 1, va, b =>
    if b.isEmpty then (s, .ok ())
    else
      match engWrite1 s e va (b.take (sectorPart va b.length)) p 2 with
      | (s, .error x) => (s, .error x)
      | (s, .ok _) => engWrite s e p fuel ((va + sectorPart va b.length) % 2 ^ 64) (b.drop (sectorPart va b.length))
def engWriteN (s : State) (e : Eng) (va : Nat) (b : Bytes) (p : Bool := false) : State × Except EngErr Unit :=
  engWrite s e p (b.length / 32 + 2) va b

/-- The same with poison of its own in each sector that holds a poisoned byte (R239). -/
def engWriteP (s : State) (e : Eng) (p : Nat → Bool) : Nat → Nat → Nat → Bytes → State × Except EngErr Unit
  | 0, _, _, _ => (s, .ok ())
  | fuel + 1, va, o, b =>
    if b.isEmpty then (s, .ok ())
    else
      let n := sectorPart va b.length
      match engWrite1 s e va (b.take n) ((List.range n).any (fun i => p (o + i))) 2 with
      | (s, .error x) => (s, .error x)
      | (s, .ok _) => engWriteP s e p fuel ((va + n) % 2 ^ 64) (o + n) (b.drop n)
def engWriteBits (s : State) (e : Eng) (va : Nat) (b : Bytes) (p : Nat → Bool) : State × Except EngErr Unit :=
  engWriteP s e p (b.length / 32 + 2) va 0 b

/-! By guest-physical address. -/

/-- The system-physical address of a guest-physical one, as an engine takes it. -/
def engXlate (s : State) (e : Eng) (gpa : Nat) (w : Bool) : State × Except XErr Nat :=
  if e.reg then regXlate s e.vd gpa w else gpaXlate s e.vd gpa w
def gpaRead1 (s : State) (e : Eng) (gpa n : Nat) : State × Except EngErr (Bytes × Bool) :=
  match engXlate s e gpa false with
  | (s, .error .mig) => (s, .error .wait)
  | (s, .error x) => (s, .error (.xl x))
  | (s, .ok a) => engPhysRead s e a n
def gpaWrite1 (s : State) (e : Eng) (gpa : Nat) (b : Bytes) (p : Bool) : Nat → State × Except EngErr Unit
  | 0 => (s, .error (.xl (.page true gpa)))
  | fuel + 1 =>
    match engXlate s e gpa true with
    | (s, .error .mig) => (s, .error .wait)
    | (s, .error x) => (s, .error (.xl x))
    | (s, .ok a) =>
      match engPhysWrite s e a b p with
      | (s, .error x) => (s, .error x)
      | (s, .ok true) => (s, .ok ())
      | (s, .ok false) => gpaWrite1 s e gpa b p fuel

def gpaReadF (s : State) (e : Eng) : Nat → Nat → Nat → State × Except EngErr (Bytes × Bool)
  | 0, _, _ => (s, .ok ([], false))
  | fuel + 1, a, n =>
    if n = 0 then (s, .ok ([], false))
    else
      match gpaRead1 s e a (sectorPart a n) with
      | (s, .error x) => (s, .error x)
      | (s, .ok (b, p)) =>
        match gpaReadF s e fuel (a + sectorPart a n) (n - sectorPart a n) with
        | (s, .error x) => (s, .error x)
        | (s, .ok (c, q)) => (s, .ok (b ++ c, p || q))
def gpaReadN (s : State) (e : Eng) (gpa n : Nat) : State × Except EngErr (Bytes × Bool) := gpaReadF s e (n / 32 + 2) gpa n

def gpaWriteF (s : State) (e : Eng) (p : Bool) : Nat → Nat → Bytes → State × Except EngErr Unit
  | 0, _, _ => (s, .ok ())
  | fuel + 1, a, b =>
    if b.isEmpty then (s, .ok ())
    else
      match gpaWrite1 s e a (b.take (sectorPart a b.length)) p 2 with
      | (s, .error x) => (s, .error x)
      | (s, .ok _) => gpaWriteF s e p fuel (a + sectorPart a b.length) (b.drop (sectorPart a b.length))
def gpaWriteN (s : State) (e : Eng) (gpa : Nat) (b : Bytes) (p : Bool := false) : State × Except EngErr Unit :=
  gpaWriteF s e p (b.length / 32 + 2) gpa b

/-- An engine's bytes in memory by virtual address, or by guest-physical address, carry releases (R192, R202). -/
def tellVa (s : State) (e : Eng) (va : Nat) (b : Bytes) (rs : List Rel) : State :=
  match (translate s e.cl e.vd e.asid va { write := false, fetch := false, user := false, sup := false }).2 with
  | .ok x => (match x.target with
    | .spa a => tellAll s (memLoc a) b rs
    | _ => s)
  | .error _ => s
def tellGpa (s : State) (e : Eng) (gpa : Nat) (b : Bytes) (rs : List Rel) : State :=
  match (engXlate s e gpa false).2 with
  | .ok a => tellAll s (memLoc a) b rs
  | .error _ => s
/-- Does a guest-physical address lie on a page being migrated (R209)? -/
def gpaWaits (s : State) (e : Eng) (gpa : Nat) : Bool :=
  match (engXlate s e gpa true).2 with
  | .error .mig => true
  | _ => false

/-- Does an access go through? -/
def okOf {α : Type} (x : Except EngErr α) : Bool :=
  match x with
  | .ok _ => true
  | .error _ => false

/-- A device's own write of state to a VD's guest-physical memory from a core, on path SW, released at BLK (R155): the core's L1
copies of the lines it writes are gone, so that the core's threads read it. -/
def frameWrite (s : State) (core v gpa : Nat) (b : Bytes) : State × Bool :=
  let r := gpaWriteN s { vd := v, asid := 0, cl := clusterOfCore core, die := some (dieOfCore core), ws := [Writer.swage s (clusterOfCore core)] } gpa b
  let lines := ((List.range (b.length / 32 + 1)).filterMap (fun i =>
    match (gpaXlate r.1 v (gpa + 32 * i) false).2 with
    | .ok a => some (lineOf a)
    | .error _ => none)).eraseDups
  (lines.foldl (fun s l => l1Out s core l) r.1, okOf r.2)
/-- And its read; what cannot be read reads as zeros, and the answer says so, as it does of poison (R240). -/
def frameRead (s : State) (core v gpa n : Nat) : State × Bytes × Bool :=
  match gpaReadN s { vd := v, asid := 0, cl := clusterOfCore core, die := some (dieOfCore core) } gpa n with
  | (s, .ok (b, p)) => (s, b, !p)
  | (s, .error _) => (s, List.replicate n 0, false)

end Sys2Proof.Machine
end

