-- ==== Sys2Proof/Machine/Contexts.lean ====
section
/-! DEFINITION. Images of groups in context frames and save areas (R128, R155), failing windows (R176, R177, R431), and the release
of held threads (R153, R157, R383). -/
namespace Sys2Proof.Machine

/-! Images (R128). -/

/-- Core slot of a group. -/
def Group.coreSlot (g : Group) : Nat := 16 * g.quarter + g.slot
/-- WID code of a width. -/
def widCode (w : Nat) : Nat := if w = 16 then 0 else if w = 32 then 1 else 2
def widOf (c : Nat) : Nat := if c = 0 then 16 else if c = 1 then 32 else 64

/-- The index of a group's block on its core. -/
def blockIndex (s : State) (g : Group) : Nat := ((findBlock s g.blk).map (·.num)).getD 0

/-- Wait flags of a group record. -/
def Group.waitFlags (g : Group) : Nat :=
  let any := fun (p : TSt → Bool) => (g.threads.any (fun x => p x.st)).toNat
  any (fun x => match x with | .wait (.waita _) => true | _ => false)
    + 2 * any (fun x => match x with | .wait (.bar _) => true | .wait .phase => true | _ => false)
    + 4 * any (fun x => match x with | .wait .svqWait => true | .held _ false => true | _ => false)
    + 8 * any (fun x => match x with | .wait (.mxWait _) => true | .wait (.mxEntry _ _ _ _) => true | _ => false)
    + 16 * any (fun x => match x with | .held _ _ => true | _ => false)
    + 32 * any (fun x => x == .wait .cbar)

/-- Threads of a group for which a test holds, as a mask. -/
def Group.maskIf (g : Group) (p : Thread → Bool) : Nat := maskOf ((List.range g.threads.length).filter (fun t => p (g.thread t)))
def Thread.isHeld (x : Thread) : Bool :=
  match x.st with
  | .held _ _ => true
  | _ => false

/-- A string cut or filled with zeros to n bytes. -/
def padTo (n : Nat) (b : Bytes) : Bytes := (b ++ List.replicate (n - b.length) 0).take n

/-- R128: the group record. -/
def groupRecord (s : State) (g : Group) : Bytes :=
  padTo 1280
    (leBytes 1 (1 + 2 * g.priv.code + 8 * widCode g.width) ++ leBytes 1 g.regs ++ leBytes 2 (blockIndex s g) ++ leBytes 1 g.col
      ++ leBytes 1 g.quarter ++ leBytes 1 0 ++ leBytes 1 g.waitFlags ++ leBytes 8 (g.maskIf Thread.isHeld)
      ++ leBytes 8 (g.maskIf (fun x => x.st == .exited)) ++ List.replicate 40 0
      ++ g.kregs.toList.flatMap (fun k => leBytes 4 k.toNat)
      ++ padTo 512 (g.threads.flatMap (fun x => leBytes 8 x.pc.toNat))
      ++ padTo 512 (g.threads.flatMap (fun x => leBytes 8 (x.preds.toNat / 16))))

/-- R128: the thread extension record. -/
def threadExt (g : Group) : Bytes :=
  padTo 1024 (g.threads.flatMap (fun x =>
    leBytes 8 x.jpc.toNat ++ leBytes 1 (min 255 x.age) ++ leBytes 1 (x.jarr.toNat + 2 * x.ctok.toNat + 4 * x.cpend.toNat) ++ leBytes 2 0
      ++ leBytes 4 (maskOf ((List.range 16).flatMap (fun j =>
          (if bit x.tok.toNat j then [2 * j] else []) ++ (if bit x.pend.toNat j then [2 * j + 1] else []))))))

/-- What a restore takes from the two records: k registers, PCs, predicates, joins, ages and barrier bits, and exits. -/
def Group.ofImage (g : Group) (rec ext : Bytes) : Group :=
  { g with
    kregs := Vector.ofFn fun i => BitVec.ofNat 32 (field rec (64 + 4 * i.val) 4)
    threads := g.threads.mapIdx (fun i x =>
      let m := field ext (16 * i + 12) 4
      { x with
        pc := BitVec.ofNat 64 (field rec (192 + 8 * i) 8)
        preds := BitVec.ofNat 64 (16 * field rec (704 + 8 * i) 8)
        jpc := BitVec.ofNat 64 (field ext (16 * i) 8)
        age := field ext (16 * i + 8) 1
        jarr := bit (field ext (16 * i + 9) 1) 0
        ctok := bit (field ext (16 * i + 9) 1) 1
        cpend := bit (field ext (16 * i + 9) 1) 2
        tok := BitVec.ofNat 16 (maskOf ((List.range 16).filter (fun j => bit m (2 * j))))
        pend := BitVec.ofNat 16 (maskOf ((List.range 16).filter (fun j => bit m (2 * j + 1))))
        st := if bit (field rec 16 8) i then .exited else x.st }) }

/-- R155: where a group's context frame lies. -/
def ctxFrame (s : State) (g : Group) : Nat := bits (svqOf s g.core g.vd).ctx.toNat 63 22 * 2 ^ 22 + 0x10000 * g.coreSlot

/-- A slice pair (R124). -/
def pairAt (s : State) (n : Nat) : SlicePair := s.vds.slices[n]?.getD SlicePair.reset
def onSlice (s : State) (n : Nat) (f : SlicePair → SlicePair) : State :=
  s.onVds fun v => { v with slices := Vector.ofFn fun i => if i.val = n then f v.slices[i] else v.slices[i] }
/-- R128: the base of a core's part of a VD's save area of a pair. -/
def saveBase (s : State) (n v core : Nat) : Nat :=
  let p := pairAt s n
  bits (if p.vda.toNat = v then p.saveA else p.saveB).toNat 63 20 * 2 ^ 20 + core * 0x140000

/-- Where the image of a group's parts lies, as guest-physical addresses: its record, and register j of thread t. -/
def imageRecord (s : State) (g : Group) : Nat :=
  match g.resid with
  | .saved n => saveBase s n g.vd g.core + 0x400 + 1280 * g.coreSlot
  | _ => ctxFrame s g
def imageReg (s : State) (g : Group) (t j : Nat) : Nat :=
  match g.resid with
  | .saved n =>
    saveBase s n g.vd g.core + 0x20000 + 0x20000 * g.quarter + 256 * (g.rowBase + (j * g.width + t) / 64) + 4 * ((j * g.width + t) % 64)
  | _ => ctxFrame s g + 0x800 + 4 * (j * g.width + t)

/-! Windows that fail (R176, R431). -/

/-- The rows of a window. -/
def Window.words (w : Window) (b : Block) : List Nat := rangeFrom (64 * (b.rowStart + w.soff / 256)) (w.slen / 4)
/-- Every 32-byte unit of a window's rows poisoned. -/
def poisonRows (s : State) (b : Block) (w : Window) : State :=
  (List.range (w.slen / 32)).foldl (fun s i => setSramBad s b.core (64 * (b.rowStart + w.soff / 256) + 8 * i) true) s

/-- Threads for which a test holds are held at their instruction for a trap of their own: one entry set per group and PC. -/
def trapThreads (s : State) (p : Group → Thread → Bool) (t : Group → Trap) : State :=
  (s.cores.groups.filter (fun g => g.threads.any (p g))).foldl (fun s g =>
    let ts := (List.range g.threads.length).filter (fun i => p g (g.thread i))
    ((ts.map (fun i => (g.thread i).pc)).eraseDups).foldl (fun s pc =>
      takeTraps s g pc.toNat ((ts.filter (fun i => (g.thread i).pc == pc)).map (fun i => (i, t g)))) s) s

/-- The work a block belongs to. -/
def blockOwner (s : State) (bid : Nat) : Owner := ((findBlock s bid).map (·.owner)).getD .monitor

/-- A fill fails: ERROR with a status, its rows poisoned, a type 0x05 record, and Decode Error for every waiter. -/
def windowFail (s : State) (core e status : Nat) : State :=
  let w := winOf s core e
  let s := onWin s core e (fun w => { w with st := .error, status := status })
  let s := match findBlock s w.blk with
    | some b => poisonRows s b w
    | none => s
  let s := offerRec s w.vd
    { type := 0x05, sev := 1, vd := w.vd, unit := core, addr := some (e - rtBase s w.vd), tag := workTag s (blockOwner s w.blk), data0 := status }
  trapThreads s (fun g x => g.core == core && x.st == .wait (.window e))
    (fun g => { cause := 0x0F, addr := e - rtBase s g.vd, arg := leBytes 4 status })

/-- R177: a stopped context is abandoned and free. -/
def swageAbandon (s : State) (key : Nat) : State :=
  match s.loc.swage.find key with
  | none => s
  | some c =>
    let s := s.onLoc fun l => { l with swage := l.swage.del key }
    if c.job.drain then
      let w := winOf s c.job.core c.job.entry
      winDrop (winEmpty s c.job.core c.job.entry) w
    else windowFail s c.job.core c.job.entry 9

/-! Release of held threads. -/

/-- What a release does to a thread: R153's form with the values of g0 and g1. -/
structure Resume where
  form : RetForm
  a : Nat
  b : Option Nat
  deriving DecidableEq, Repr

/-- The registers a release writes: with `next`, g0 and perhaps g1. -/
def Resume.regs (r : Resume) : List (Nat × Nat) :=
  match r.form with
  | .next => (0, r.a) :: (match r.b with | some v => [(1, v)] | none => [])
  | _ => []
def Resume.thread (r : Resume) (x : Thread) : Thread :=
  match r.form with
  | .next => x.goOn
  | .replay => x.again
  | .exit => { x with st := .exited }

/-- One held thread released: in its core, or in its image, where its registers, PC and exit are written for its restore; a write
that faults kills its work (R156). -/
def releaseThread (s : State) (gid t : Nat) (r : Resume) : State :=
  match findGroup s gid with
  | none => s
  | some g =>
    let x := r.thread (g.thread t)
    let s := match g.resid with
      | .core => r.regs.foldl (fun s e => writeReg s g t e.1 (BitVec.ofNat 32 e.2)) s
      | _ =>
        let one := fun (a : State × Bool) gpa b => let w := frameWrite a.1 g.core g.vd gpa b; (w.1, a.2 && w.2)
        let w := r.regs.foldl (fun a e => one a (imageReg s g t e.1) (leBytes 4 e.2)) (s, true)
        let w := one w (imageRecord s g + 192 + 8 * t) (leBytes 8 x.pc.toNat)
        let w := one w (imageRecord s g + 16) (leBytes 8 ((g.onThread t (fun _ => x)).maskIf (fun y => y.st == .exited)))
        if w.2 then w.1 else startKill w.1 g.vd g.owner 0
    let s := wakeThreads s (fun h i _ => h.gid == gid && i == t) (fun _ => x)
    match g.resid with
    | .frame _ => onGroup s gid (fun g => { g with resid := .frame true })
    | _ => s

/-- The threads held for a trap: group and index. -/
def heldFor (s : State) (trap : Nat) : List (Nat × Nat) :=
  s.cores.groups.flatMap (fun g => ((List.range g.threads.length).filter (fun t =>
    (g.thread t).st == .held trap true)).map (fun t => (g.gid, t)))

/-- Swage contexts stopped for a trap go on, or are abandoned (R177). -/
def releaseSwage (s : State) (trap : Nat) (form : RetForm) : State :=
  ((s.loc.swage.filter (fun e => e.2.stopped == some trap)).map (·.1)).foldl (fun s k =>
    if form = .replay then
      s.onLoc fun l => { l with swage := match l.swage.find k with
        | some c => l.swage.put k { c with stopped := none }
        | none => l.swage }
    else swageAbandon s k) s

/-- A thread of a server releases a caller, which resumes with an acquire at BLK of the thread's release (R153). -/
def releaseCaller (s : State) (g : Group) (t : Nat) (e : Nat × Nat) (r : Resume) : State :=
  meet (releaseThread s e.1 e.2 r) (threadAgent e.1 e.2) g.core 2 (relsBy s g [t] 2 0xFF)

/-- R153, R177: the release by a server lane of its token's callers, and of the context its entry stopped; an entry without caller
releases only a stopped context, for REPLAY. The SVRET is a release at BLK of all colours. -/
def svretToken (s : State) (g : Group) (t : Nat) (k : Token) (r : Resume) : State :=
  let s := releaseBy s g [t] 2 0xFF
  if k.caller then releaseSwage ((heldFor s k.trap).foldl (fun s e => releaseCaller s g t e r) s) k.trap r.form
  else if r.form = .replay then releaseSwage s k.trap .replay
  else s

end Sys2Proof.Machine
end

