-- ==== Sys2Proof/Machine/Place.lean ====
section
/-! DEFINITION. Where work fits: grants and regions of a core, free slots, rows and scratchpad, and the start of groups and blocks
(R80, R100, R113, R114, R118, R127, R131, R140). -/
namespace Sys2Proof.Machine

/-! A VD's grant on a core, taken apart into the part outside every region and the regions it holds (R113, R127). -/

/-- The VD that holds a pair's region. -/
def SlicePair.holder (p : SlicePair) : Nat := if p.holderB then p.vdb.toNat else p.vda.toNat
def SlicePair.slotBase (p : SlicePair) : Nat := bits p.core.toNat 3 0
def SlicePair.slotCnt (p : SlicePair) : Nat := bits p.core.toNat 8 4
def SlicePair.rowBase (p : SlicePair) : Nat := 32 * bits p.core.toNat 15 12
def SlicePair.rowCnt (p : SlicePair) : Nat := 32 * bits p.core.toNat 20 16
def SlicePair.segBase (p : SlicePair) : Nat := bits p.core.toNat 29 24
def SlicePair.segCnt (p : SlicePair) : Nat := bits p.core.toNat 36 30

/-- A part of a grant: none is outside every region, `some n` the region of pair n. -/
abbrev Part := Option Nat

/-- Is x in the n numbers from a? -/
def inRange (x a n : Nat) : Bool := decide (a ≤ x ∧ x < a + n)

/-- The parts a VD may place work in: outside first, then each region it holds. -/
def partsOf (s : State) (v : Nat) : List Part :=
  none :: (((List.range 4).filter (fun n => (pairAt s n).en && !(pairAt s n).switching && (pairAt s n).holder == v)).map some)

/-- Does an enabled region of the host VD hold a resource? -/
def inOwnRegion (s : State) (v : Nat) (f : SlicePair → Bool) : Bool :=
  (List.range 4).any (fun n => (pairAt s n).en && (pairAt s n).vda.toNat == v && f (pairAt s n))

def slotIn (s : State) (v : Nat) (p : Part) (x : Nat) : Bool :=
  match p with
  | some n => inRange x (pairAt s n).slotBase (pairAt s n).slotCnt
  | none => inRange x (slotBase s v) (slotCnt s v) && !inOwnRegion s v (fun q => inRange x q.slotBase q.slotCnt)
def rowIn (s : State) (v : Nat) (p : Part) (x : Nat) : Bool :=
  match p with
  | some n => inRange x (pairAt s n).rowBase (pairAt s n).rowCnt
  | none => inRange x (rowBase s v) (rowCnt s v) && !inOwnRegion s v (fun q => inRange x q.rowBase q.rowCnt)
def segIn (s : State) (v : Nat) (p : Part) (x : Nat) : Bool :=
  (match p with
    | some n => inRange x (pairAt s n).segBase (pairAt s n).segCnt
    | none => inRange x (segBase s v) (segCnt s v) && !inOwnRegion s v (fun q => inRange x q.segBase q.segCnt))
    && !isWay s x && !(List.range 16).any (fun u => bit (waysOf s u).next.toNat x || bit (waysOf s u).leaving.toNat x)

/-! What is taken. -/

/-- Rows of a group. -/
def Group.rows (g : Group) : Nat := (g.regs * g.width + 63) / 64
/-- Has a group put away with its region a slot or rows outside it? One placed before the pair was enabled may. -/
def straddles (s : State) (g : Group) : Bool :=
  match g.resid with
  | .saved n =>
    let p := pairAt s n
    !(inRange g.slot p.slotBase p.slotCnt && inRange g.rowBase p.rowBase p.rowCnt && decide (g.rowBase + g.rows ≤ p.rowBase + p.rowCnt))
  | _ => false
/-- Groups whose slot and rows are taken on a core. -/
def residents (s : State) (core : Nat) : List Group :=
  s.cores.groups.filter (fun g => !g.mandrel && g.core == core && (g.resid == .core || straddles s g))
def slotTaken (l : List Group) (q x : Nat) : Bool := l.any (fun g => g.quarter == q && g.slot == x)
def rowTaken (l : List Group) (q x : Nat) : Bool := l.any (fun g => g.quarter == q && inRange x g.rowBase g.rows)
/-- The reserved server slot and rows of a VD (R80, R118). -/
def reservedSlot (s : State) (v q x : Nat) : Bool := q == 0 && x == slotBase s v
def reservedRow (s : State) (v q x : Nat) : Bool := q == 0 && inRange x (rowBase s v) 32

/-- Slots that an enabled worker names (R112). -/
def workerSlot (s : State) (v core q x : Nat) : Bool :=
  (govOf s v (dieOfCore core)).workers.any (fun e =>
    bit e.2.toNat 31 && bits e.2.toNat 9 0 == core && bits e.2.toNat 21 16 == 16 * q + x)

/-- May a user group of VD v take slot x of quarter q? -/
def slotFree (s : State) (l : List Group) (v core : Nat) (p : Part) (q x : Nat) : Bool :=
  slotIn s v p x && !slotTaken l q x && !reservedSlot s v q x && !workerSlot s v core q x
/-- Free slots of a quarter, and of a core, over every part of the VD's grant (R114). -/
def freeSlots (s : State) (l : List Group) (v core q : Nat) : Nat :=
  ((List.range 16).filter (fun x => (partsOf s v).any (fun p => slotFree s l v core p q x))).length
def coreFree (s : State) (v core : Nat) : Nat :=
  if halted s core then 0 else ((List.range 4).map (fun q => freeSlots s (residents s core) v core q)).sum

/-- First-fit rows: the lowest row from which n contiguous rows pass a test. -/
def firstFit (ok : Nat → Bool) (n limit : Nat) : Option Nat :=
  (List.range limit).find? (fun r => decide (r + n ≤ limit) && (rangeFrom r n).all ok)
def freeRows (s : State) (l : List Group) (v : Nat) (p : Part) (q n : Nat) : Option Nat :=
  firstFit (fun r => rowIn s v p r && !rowTaken l q r && !reservedRow s v q r) n 512

/-- Blocks that hold scratchpad rows of a core now: a block saved from a region holds none of it. -/
def Block.here (s : State) (b : Block) : Bool :=
  match b.inRegion with
  | some n => (pairAt s n).holder == b.vd
  | none => true
def spadTaken (s : State) (core r : Nat) : Bool :=
  s.cores.blocks.any (fun b => b.core == core && inRange r b.rowStart b.rowCount
    && (b.here s || !b.inRegion.any (fun n => inRange (r / 32) (pairAt s n).segBase (pairAt s n).segCnt)))
def freeSpad (s : State) (v core : Nat) (p : Part) (n : Nat) : Option Nat :=
  if n = 0 then some 0 else firstFit (fun r => segIn s v p (r / 32) && !spadTaken s core r) n 2048

/-! Placing the groups of a block (R114). -/

/-- Where a group goes: quarter, slot, lane column and first row. -/
structure Spot where
  quarter : Nat
  slot : Nat
  col : Nat
  row : Nat
  deriving DecidableEq, Repr

/-- The lane column with the fewest resident groups of the VD. -/
def pickCol (l : List Group) (v q w : Nat) : Nat :=
  (leastBy (fun c => (l.filter (fun g => g.vd == v && g.quarter == q && decide (g.col * g.width < (c + 1) * w ∧ c * w < (g.col + 1) * g.width))).length)
    (List.range (64 / w))).getD 0

/-- Does a restore wait for room in a quarter (R156)? Its VD's placements there wait. -/
def restoreWaits (s : State) (v core q : Nat) : Bool :=
  s.cores.groups.any (fun g => g.resid == .frame true && g.core == core && g.quarter == q && g.vd == v
    && (match findBlock s g.blk with | some b => b.here s | none => true))

/-- The spot of one group of width w with `regs` registers. -/
def pickSpot (s : State) (l : List Group) (v core : Nat) (p : Part) (w regs : Nat) : Option Spot :=
  let n := (regs * w + 63) / 64
  let fits := ((List.range 4).filter (fun q => !restoreWaits s v core q)).filterMap (fun q =>
    match (List.range 16).find? (slotFree s l v core p q), freeRows s l v p q n with
    | some x, some r => some ((q, x, r) : Nat × Nat × Nat)
    | _, _ => none)
  (leastBy (fun (e : Nat × Nat × Nat) => 64 - freeSlots s l v core e.1) fits).map (fun e =>
    { quarter := e.1, slot := e.2.1, col := pickCol l v e.1 w, row := e.2.2 })

/-- A group that does not exist, with a spot. -/
def Group.blank : Group :=
  { gid := 0, mandrel := false, vd := 0, priv := .u, core := 0, quarter := 0, slot := 0, col := 0, width := 16, regs := 8, rowBase := 0,
    asid := 0, blk := 0, gix := 0, owner := .monitor, kregs := Vector.replicate 32 0, threads := [], resid := .core, active := false, since := 0,
    lastSel := 0, yielded := false, heldSince := none, ibuf := [] }
def Group.atSpot (g : Group) (x : Spot) : Group := { g with quarter := x.quarter, slot := x.slot, col := x.col, rowBase := x.row }

/-- Spots of n groups, one after another. -/
def pickSpots (s : State) (v core : Nat) (p : Part) (w regs : Nat) : Nat → List Group → Option (List Spot)
  | 0, _ => some []
  | n + 1, l =>
    match pickSpot s l v core p w regs with
    | none => none
    | some x =>
      (pickSpots s v core p w regs n (l ++ [{ Group.blank with vd := v, core := core, width := w, regs := regs }.atSpot x])).map
        (fun t => x :: t)

/-- What a block needs of a core. -/
structure Need where
  width : Nat
  regs : Nat
  groups : Nat
  rows : Nat
  deriving DecidableEq, Repr

/-- Where a block fits a core (R113): the part, its groups' spots and its first scratchpad row. -/
structure Fit where
  part : Part
  spots : List Spot
  row : Nat
  deriving DecidableEq, Repr
def fitPart (s : State) (v core : Nat) (n : Need) (p : Part) : Option Fit :=
  if halted s core then none
  else
    match pickSpots s v core p n.width n.regs n.groups (residents s core), freeSpad s v core p n.rows with
    | some l, some r => some { part := p, spots := l, row := r }
    | _, _ => none
def fitBlock (s : State) (v core : Nat) (n : Need) : Option Fit := (partsOf s v).findSome? (fitPart s v core n)

/-! Starting groups. -/

/-- A thread at its start (R91, R100, R134, R340). -/
def Thread.start (pc preds : DWord) : Thread := { Thread.none with pc := pc, preds := preds, st := .ready, entry := true }

/-- R140: the privilege of a user group of a VD. -/
def userPriv (v : Nat) : Priv := if v = 0 then .h else .u

/-- The group put into the machine, pending until its quarter selects it. -/
def addGroup (s : State) (g : Group) : State :=
  s.onCores fun c => { c with groups := c.groups ++ [{ g with gid := c.nextGid }], nextGid := c.nextGid + 1 }

/-- Register rows of a group cleared (R100). -/
def clearRows (s : State) (g : Group) : State :=
  s.onLoc fun l => { l with rows := l.rows.filter (fun e => !(List.range g.rows).any (fun r =>
    inRange e.1 (rowKey g.core g.quarter (g.rowBase + r) 0) 64)) }

/-- Scratchpad rows of a core cleared, poison too. -/
def clearSpad (s : State) (core row n : Nat) : State :=
  s.onLoc fun l =>
    { l with
      sram := l.sram.filter (fun e => !inRange e.1 (sramKey core (64 * row)) (64 * n))
      sramPoison := l.sramPoison.filter (fun u => !inRange u (16384 * core + 8 * row) (8 * n)) }

/-- A new block of a VD on a core, and its groups at their spots, all with one start. -/
structure Start where
  vd : Nat
  core : Nat
  priv : Priv
  asid : Nat
  owner : Owner
  entry : DWord
  kregs : Vector Word 32
  /-- predicates start at zero (R100), or the spec gives them no value -/
  clear : Bool
  lin : Nat
  idx : List Nat
  ext : List Nat
  rank : Nat
  nbrs : List Nat
  team : Option Nat
  /-- what carries the releases that its threads acquire at their start -/
  chans : List Chan := []

/-- W threads at an entry; predicates that the spec leaves open take free values. -/
def startThreads (s : State) (pc : DWord) (clear : Bool) : Nat → State × List Thread
  | 0 => (s, [])
  | n + 1 =>
    let r := if clear then (s, 0) else freeValue s
    let q := startThreads r.1 pc clear n
    (q.1, Thread.start pc r.2 :: q.2)

/-- The lowest block index of a core that no block there has; while a region keeps so many put away that there is none, one that no block of
the VD has (R128). -/
def blockNum (s : State) (core v : Nat) : Nat :=
  let free := fun (p : Block → Bool) => (List.range 64).find? (fun i => !s.cores.blocks.any (fun b => b.core == core && p b && b.num == i))
  ((free (fun _ => true)).or (free (fun b => b.vd == v))).getD 0

/-- The block and its groups start; every thread acquires at PKG (R88, R100). It answers the block's number. -/
def startBlock (s : State) (x : Start) (f : Fit) (n : Need) : State × Nat :=
  let bid := s.cores.nextNum
  let first := s.cores.nextGid
  let s := acquire s x.core x.vd 5
  let b : Block :=
    { bid := bid, num := blockNum s x.core x.vd, vd := x.vd, core := x.core, owner := x.owner, lin := x.lin, idx := x.idx, ext := x.ext, rank := x.rank, nbrs := x.nbrs,
      rowStart := f.row, rowCount := n.rows, groups := rangeFrom first f.spots.length, bars := [], team := x.team, inRegion := f.part }
  let s := s.onCores fun c => { c with nextNum := bid + 1, blocks := c.blocks ++ [b] }
  let rs := x.chans.flatMap (chanOf s)
  (f.spots.zipIdx.foldl (fun s sp =>
    let t := startThreads s x.entry x.clear n.width
    let g := ({ Group.blank with
      vd := x.vd, priv := x.priv, core := x.core, width := n.width, regs := n.regs, asid := x.asid, blk := bid, gix := sp.2, owner := x.owner,
      kregs := x.kregs, threads := t.2, since := s.sch.cycle } : Group).atSpot sp.1
    let gid := t.1.cores.nextGid
    (List.range n.width).foldl (fun s i => meet s (threadAgent gid i) x.core 5 rs)
      (addGroup (if x.clear then clearRows t.1 g else t.1) g)) s, bid)

/-! Active and pending sets (R136 to R138, R294). -/

/-- The other groups of a VD in a quarter of a core. -/
def quarterGroups (s : State) (core q v : Nat) : List Group :=
  (residents s core).filter (fun g => g.quarter == q && g.vd == v && g.resid == .core)
/-- The oldest ready pending group: by the cycle it last became ready, then by slot. -/
def oldestPending (s : State) (core q v : Nat) : Option Group :=
  leastBy (fun g => g.since * 16 + g.slot) ((quarterGroups s core q v).filter (fun g => !g.active && !g.ready.isEmpty))
/-- A group leaves the active set, and one enters it. -/
def leaveSet (s : State) (gid : Nat) : State := onGroup s gid (fun g => { g with active := false, since := s.sch.cycle })
def enterSet (s : State) (gid : Nat) : State := onGroup s gid (fun g => { g with active := true, since := s.sch.cycle })

/-- R294: at the end of a cycle the place of a group that yielded goes to the oldest ready pending group of its VD. -/
def yieldSet (s : State) (g : Group) : State :=
  match oldestPending s g.core g.quarter g.vd with
  | none => s
  | some h => enterSet (leaveSet s g.gid) h.gid
/-- The YIELDs of a cycle act. -/
def settleYields (s : State) : State :=
  let l := s.cores.groups.filter (·.yielded)
  if l.isEmpty then s
  else
    let s := s.onCores fun c => { c with groups := c.groups.map (fun g => { g with yielded := false }) }
    l.foldl (fun s g => if g.active then yieldSet s g else s) s

end Sys2Proof.Machine
end

