-- ==== Sys2Proof/Machine/Work.lean ====
section
/-! DEFINITION. The ends of work: groups and blocks (R295, R176), phases (R106, R107, R377), tasks (R105), launches (R95, R96) and
kills (R241). -/
namespace Sys2Proof.Machine

/-! Fields of a launch record (R89, R90). -/

abbrev Launch.f (l : Launch) (o n : Nat) : Nat := field l.record o n
def Launch.flags (l : Launch) : Nat := l.f 2 2
def Launch.snapOn (l : Launch) : Bool := bit l.flags 0
def Launch.waitPrev (l : Launch) : Bool := bit l.flags 1
def Launch.capen (l : Launch) : Bool := bit l.flags 2
def Launch.width (l : Launch) : Nat := l.f 4 1
def Launch.nlev (l : Launch) : Nat := l.f 5 1
def Launch.regs (l : Launch) : Nat := l.f 6 1
def Launch.cap (l : Launch) : Nat := l.f 7 1
def Launch.scratch (l : Launch) : Nat := l.f 16 4
def Launch.cnt (l : Launch) : Nat := l.f 20 4
def Launch.kind (l : Launch) (j : Nat) : Nat := l.f (64 + 8 * j) 1
def Launch.ext (l : Launch) (j : Nat) : Nat := l.f (68 + 8 * j) 4
/-- Blocks inside one unit of level j, and of the launch. -/
def Launch.below (l : Launch) (j : Nat) : Nat := ((List.range j).map (fun i => if 2 ≤ i then l.ext i else 1)).prod
def Launch.blocks (l : Launch) : Nat := l.below l.nlev
/-- The level of a kind, when it is in use. -/
def Launch.level (l : Launch) (k : Nat) : Option Nat := (List.range l.nlev).find? (fun j => l.kind j == k)
/-- R91: the index of block L at level j. -/
def Launch.idxAt (l : Launch) (L j : Nat) : Nat := L / l.below j % max 1 (l.ext j)
/-- The needs of one block (R113). -/
def Launch.need (l : Launch) : Need := { width := l.width, regs := l.regs, groups := l.ext 1, rows := l.scratch / 256 }

/-- R92: the lowest block at or after L whose package-level index lies in this package's share. A launch with a process group and no
package level has no such index: that it has no share either, and all its blocks run here, is the model's choice. -/
def Launch.inShare (l : Launch) (L : Nat) : Nat :=
  match l.level 5 with
  | none => L
  | some j =>
    let m := l.below j
    let e := l.ext j
    let u := L / m
    if u % e < l.shareBase then (u / e * e + l.shareBase) * m
    else if u % e < l.shareBase + l.shareCnt then L
    else ((u / e + 1) * e + l.shareBase) * m

/-- The cursor: the lowest undispatched block of the package's share (R115). -/
def Launch.next (l : Launch) : Option Nat := if l.inShare l.cursor < l.blocks then some (l.inShare l.cursor) else none

/-! Fields of a task packet (R98). -/
def pkPri (p : Bytes) : Nat := bits (field p 1 1) 2 0
def pkWidth (p : Bytes) : Nat := widOf (bits (field p 1 1) 4 3)
def pkPhased (p : Bytes) : Bool := bit (field p 1 1) 5
def pkDieSel (p : Bytes) : Bool := bit (field p 1 1) 6
def pkRegs (p : Bytes) : Nat := field p 4 1
def pkDie (p : Bytes) : Nat := bits (field p 5 1) 1 0
def pkCscr (p : Bytes) : Nat := field p 7 1
def pkRows (p : Bytes) : Nat := 4 * field p 6 1 + pkCscr p
def pkEntry (p : Bytes) : Nat := field p 8 8
def pkBillet (p : Bytes) : Nat := field p 16 8
def pkCarryBase (p : Bytes) : Nat := field p 24 1
def pkCarryCnt (p : Bytes) : Nat := field p 25 1
def pkSucc (p : Bytes) : List Nat := (List.range (field p 2 1)).map (fun i => field p (32 + 4 * i) 4)
def pkNeed (p : Bytes) : Need := { width := pkWidth p, regs := pkRegs p, groups := 1, rows := pkRows p }
/-- k registers of a task (R100). -/
def pkKregs (p : Bytes) : Vector Word 32 :=
  Vector.ofFn fun i => if 4 * i.val < field p 3 1 then BitVec.ofNat 32 (field p (32 + 4 * field p 2 1 + 4 * i.val) 4) else 0

/-! Ready queues (R104): at key 4 vd + die. -/
def readyOf (s : State) (v d : Nat) : List Ready := s.lq.ready.at [] (4 * v + d)
def setReady (s : State) (v d : Nat) (l : List Ready) : State := s.onLq fun q => { q with ready := q.ready.write [] (4 * v + d) l }
/-- A task joins a queue at its tail. Counters that join in one cycle do so in ascending die and index, the order of their handles
(R104). -/
def enqueue (s : State) (v d : Nat) (r : Ready) : State :=
  let l := readyOf s v d
  let before := fun (x : Ready) => r.resume.isNone && x.resume.isNone && x.joined == s.sch.cycle
    && decide ((r.handle.getD 0).toNat < (x.handle.getD 0).toNat)
  setReady s v d (l.takeWhile (fun x => !before x) ++ { r with joined := s.sch.cycle } :: l.dropWhile (fun x => !before x))
/-- The head: the first of the highest level. -/
def readyHead (l : List Ready) : Option Ready := leastBy (fun r => 7 - r.pri) l
def dropReady (l : List Ready) (r : Ready) : List Ready := l.erase r

/-! Ends of groups and blocks. -/

/-- Has a group engine work in progress: a fill or drain it started, or an Anvil operation (R295)? -/
def swageOf (s : State) (gid : Nat) : Bool :=
  s.loc.swage.any (fun e => e.2.job.caller.any (fun c => c.1 == gid))
    || s.loc.swageQueue.any (fun e => e.2.any (fun j => j.caller.any (fun c => c.1 == gid)))
def anvilOf (s : State) (gid : Nat) : Bool := s.loc.entries.any (fun e => e.2.gid == gid)
def groupDone (s : State) (g : Group) : Bool :=
  !g.mandrel && g.threads.all (fun x => x.st == .exited) && !swageOf s g.gid && !anvilOf s g.gid
    && (match g.resid with | .saved _ => false | _ => true)

/-- What the model keeps of chains for threads of some groups that are gone. -/
def forget (s : State) (gids : List Nat) : State :=
  let gone := fun (a : Nat) => a % 2 == 0 && gids.contains (a / 2048)
  s.onOrd fun o => { o with know := o.know.keep (fun a => !gone a), fences := o.fences.keep (fun a => !gone a),
                            seen := o.seen.keep (fun a => !gone a) }
/-- What the completion of a group's work releases at PKG grows by the accesses of the group's threads (R96, R102). -/
def groupRel (s : State) (g : Group) : State :=
  addChan s (.work g.owner) [pkgRel 5 (chanOf s (.work g.owner) ++ relsBy s g (List.range g.threads.length) 5 0xFF)]
/-- Groups that are done end; their slots and rows are free. -/
def endGroups (s : State) : State :=
  let gs := s.cores.groups.filter (groupDone s)
  let l := gs.map (·.gid)
  if l.isEmpty then s
  else (forget (gs.foldl groupRel s) l).onCores fun c =>
    { c with
      groups := c.groups.filter (fun g => !l.contains g.gid)
      blocks := c.blocks.map (fun b => { b with groups := b.groups.filter (fun i => !l.contains i) }) }

/-- Is a window of a block FILLING or DRAINING? -/
def blockBusy (s : State) (b : Block) : Bool := (blockWindows s b).any (fun e => e.2.st == .filling || e.2.st == .draining)

/-- Every entry of a block becomes EMPTY. -/
def emptyWindows (s : State) (b : Block) : State :=
  (blockWindows s b).foldl (fun s e => onWin s b.core e.1 (fun w => { w with st := .empty })) s

/-- A block is gone from its core. -/
def dropBlock (s : State) (b : Block) : State :=
  let s := emptyWindows s b
  s.onCores fun c =>
    { c with
      blocks := c.blocks.filter (fun x => x.bid != b.bid)
      teams := match b.team with
        | some t => if c.blocks.any (fun x => x.bid != b.bid && x.team == some t) then c.teams else c.teams.del t
        | none => c.teams }

/-- Blocks with no group left end once their windows are quiet (R176). -/
def endBlocks (s : State) : State :=
  (s.cores.blocks.filter (fun b => b.groups.isEmpty && !blockBusy s b)).foldl (fun s b =>
    let s := dropBlock s b
    match b.owner with
    | .launch lid => onLaunch s lid (fun l => { l with resident := l.resident - 1, ended := l.ended + 1 })
    | _ => s) s

/-- A turn put at the end of the turns to take, once. -/
def queueOnce (s : State) (t : Turn) : State := if s.sch.todo.contains t then s else s.queue t

/-- Collective operations of a piece of work. -/
def collsOf (s : State) (o : Owner) : Bool := s.loc.colls.any (fun c => c.owner == o)

/-- R96: is a launch complete? -/
def launchDone (s : State) (l : Launch) : Bool :=
  l.killing.isNone && l.next.isNone && l.resident == 0 && !collsOf s (.launch l.lid)
    && !s.cores.blocks.any (fun b => b.owner == .launch l.lid)
/-- R105: is a task complete? A phased task in a ready queue is not. -/
def taskDone (s : State) (t : Task) : Bool :=
  t.killing.isNone && !collsOf s (.task t.tid) && !s.cores.blocks.any (fun b => b.owner == .task t.tid)
    && !s.lq.ready.any (fun q => q.2.any (fun r => r.resume.any (fun x => x.1 == t.tid)))

/-! PHASE (R106, R107, R377). -/

/-- Every thread of a group in its core that has not exited waits at a PHASE. -/
def phaseFull (g : Group) : Bool :=
  g.resid == .core && g.threads.any (fun x => x.st == .wait .phase) && g.threads.all (fun x => x.st == .wait .phase || x.st == .exited)

/-- The cluster of a core within its die. -/
def clusterInDie (core : Nat) : Nat := clusterOfCore core % 52

/-- The handle field of a billet; a task without a counter has no handle. -/
def handleField (h : Option (BitVec 32)) : Nat := (h.map BitVec.toNat).getD noHandle

/-- R107: the billet of a task's group, on a core whose block starts at a scratchpad row. -/
def billetBytes (s : State) (t : Task) (g : Group) (row : Nat) : Bytes :=
  let p := t.packet
  let head := leBytes 4 0x4B57424C ++ leBytes 2 ((t.phaseNo.toNat + 1) % 65536) ++ leBytes 1 g.width ++ leBytes 1 (pkCarryBase p)
    ++ leBytes 1 (pkCarryCnt p) ++ leBytes 1 (pkCscr p) ++ leBytes 2 (clusterInDie g.core) ++ leBytes 1 (dieOfCore g.core) ++ leBytes 3 0
    ++ leBytes 4 (handleField t.handle)
  padTo 64 head
    ++ g.threads.flatMap (fun x => leBytes 8 (if x.st = .exited then 0 else (nextPc x.pc).toNat))
    ++ (List.range (pkCarryCnt p)).flatMap (fun j => (List.range g.width).flatMap (fun i =>
        leBytes 4 (readReg s g i (pkCarryBase p + j)).toNat))
    ++ (List.range (64 * pkCscr p)).flatMap (fun k => leBytes 4 (sramWord s g.core (64 * row + k)).toNat)

/-- Where the carried scratchpad begins in a billet, and whether its byte i is poisoned there (R239). -/
def billetBad (s : State) (t : Task) (g : Group) (row i : Nat) : Bool :=
  let o := 64 + 8 * g.width + 4 * g.width * pkCarryCnt t.packet
  decide (o ≤ i) && sramBad s g.core (64 * row + (i - o) / 4)

/-- A full PHASE of a group: its stores go where any core of the cluster reads, since the task may go on in another one, where its
threads keep their program order (R199), the billet is written and the task leaves its core for its ready queue; a write that fails
kills it. -/
def phaseLeave (s : State) (g : Group) : State :=
  match g.owner, blockOf s g with
  | .task tid, some b =>
    match findTask s tid with
    | none => s
    | some t =>
      if t.killing.isSome || anvilOf s g.gid || collsOf s g.owner || blockBusy s b then s
      else
        let s := releaseBy (emptyWindows s b) g (List.range g.threads.length) 3 0xFF
        let rs := relsBy s g (List.range g.threads.length) 3 0xFF
        match engWriteBits s (swEng s (clusterOfCore g.core) t.vd t.asid) (pkBillet t.packet) (billetBytes s t g b.rowStart)
          (billetBad s t g b.rowStart) with
        | (s, .error .wait) => s
        | (s, .error _) => startKill s t.vd g.owner 0
        | (s, .ok _) =>
          let s := setChan s (.work g.owner) (rs ++ [swageRel s (clusterOfCore g.core) 3 1 []])
          let s := (forget s [g.gid]).onCores fun c => { c with groups := c.groups.filter (fun x => x.gid != g.gid) }
          let s := dropBlock s b
          let s := onTask s tid (fun t => { t with phaseNo := t.phaseNo + 1 })
          enqueue s t.vd (dieOfCore g.core)
            { pri := pkPri t.packet, handle := t.handle, packet := t.packet, vd := t.vd, asid := t.asid,
              resume := some (tid, clusterOfCore g.core), joined := 0 }
  | _, _ => s

/-- What has come to its end: full phases, groups, blocks, then launches and tasks, whose turns are queued. -/
def reap (s : State) : State :=
  let s := (s.cores.groups.filter phaseFull).foldl phaseLeave s
  let s := endBlocks (endGroups s)
  let s := (s.lq.launches.filter (launchDone s)).foldl (fun s l =>
    queueOnce s (.ev .launchComplete { Sel.none with vd := vdFin l.vd, n := l.lid })) s
  (s.lq.tasks.filter (taskDone s)).foldl (fun s t =>
    queueOnce s (.ev .taskComplete { Sel.none with vd := vdFin t.vd, n := t.tid })) s

/-! Completion. -/

/-- A release at PKG of all colours of a VD's LS accesses everywhere (R96, R102). -/
def releaseAll (s : State) (v : Nat) : State :=
  let s := (l1Keys s (fun _ l => l.vd == v)).foldl (fun s k => l1Clean s k 0xFF) s
  (List.range 4).foldl (fun s d => l2Release s d v 0xFF) s

/-- R95: the DONE write of a launch unit at a ring entry of a VD, as a release at PKG. -/
def writeDone (s : State) (v slot x : Nat) (rs : List Rel) : State :=
  let s := (gpaWriteN s (ioEng v 0) (slot + 56) (leBytes 8 x)).1
  tellGpa s (ioEng v 0) (slot + 56) (leBytes 8 x) rs
/-- Does it wait for a page being migrated (R209)? -/
def doneWaits (s : State) (v slot : Nat) : Bool := gpaWaits s (ioEng v 0) (slot + 56)

/-- R95, R96: the DONE write and the CNT decrement of a launch, whose snapshot regions hold no longer (R231); both carry what its threads
have done. -/
def finishLaunch (s : State) (l : Launch) (status : Nat) : State :=
  let s := releaseAll (onLaunch s l.lid (fun x => { x with snap := [] })) l.vd
  let rs := [pkgRel 5 (chanOf s (.work (.launch l.lid)))]
  let s := writeDone (setChan s (.work (.launch l.lid)) []) l.vd l.slotVa status rs
  let s := sendDecs s l.vd (l.asid) lqKey none (cntField l.cnt) (some l.lid) (rels := rs)
  s.onLq fun q => { q with launches := q.launches.filter (fun x => x.lid != l.lid) }

/-- LAUNCH_COMPLETE (R96, R232). -/
def execLaunchComplete (s : State) : Answer :=
  match findLaunch s s.sch.sel.n with
  | some l =>
    if launchDone s l && !doneWaits s l.vd l.slotVa then .next (reap (finishLaunch (promoteShadows s l.lid) l (1 + l.replays))) else .next s
  | none => .next s

/-- The successor decrements of a task, and its counter freed (R105). -/
def finishTask (s : State) (t : Task) : State :=
  let s := releaseAll s t.vd
  let rs := [pkgRel 5 (chanOf s (.work (.task t.tid)))]
  let s := sendDecs (setChan s (.work (.task t.tid)) []) t.vd t.asid (taskKey t.core) (some t.core) (pkSucc t.packet) (rels := rs)
  let s := match t.handle with
    | some h => onCounter s h.toNat (fun c => { Counter.free with poison := c.poison })
    | none => s
  s.onLq fun q => { q with tasks := q.tasks.filter (fun x => x.tid != t.tid) }

/-- TASK_COMPLETE (R105). -/
def execTaskComplete (s : State) : Answer :=
  match findTask s s.sch.sel.n with
  | some t => if taskDone s t then .next (finishTask s t) else .next s
  | none => .next s

/-! Kills (R241). -/

/-- Is the operation of an Anvil handle in progress, in its cluster or saved with a region? -/
def mxLive (s : State) (cl v h : Nat) : Bool :=
  s.loc.entries.any (fun e => e.1 % 65536 == 32 * cl + bits h 20 16 && e.2.vd == v && e.2.gen == h % 65536)
/-- A thread's MXWAIT is over (R369). -/
def mxOver (s : State) (g : Group) (x : Thread) : Bool :=
  match x.st with
  | .wait (.mxWait (some h)) => !mxLive s (clusterOfCore g.core) g.vd h.toNat
  | .wait (.mxWait none) => !anvilOf s g.gid
  | _ => false
/-- Threads whose MXWAIT is over go on. -/
def mxRelease (s : State) : State := wakeThreads s (fun g _ x => mxOver s g x) Thread.goOn

/-- Steps 1 and 2 of a kill: every group and block of the work, and its engine work, are gone; remote loads are given up, and other threads'
waits for its Anvil operations are over. -/
def discardWork (s : State) (o : Owner) : State :=
  let gs := (s.cores.groups.filter (fun g => g.owner == o)).map (·.gid)
  let bs := s.cores.blocks.filter (fun b => b.owner == o)
  let mine : SwageJob → Bool := fun j => bs.any (fun b => b.core == j.core && (winOf s j.core j.entry).blk == b.bid)
  let es := (s.loc.entries.filter (fun e => gs.contains e.2.gid || bs.any (fun b => b.bid == e.2.blk))).map (·.1)
  let s := s.onLoc fun l =>
    { l with
      swage := l.swage.filter (fun e => !mine e.2.job)
      swageQueue := l.swageQueue.map (fun e => (e.1, e.2.filter (fun j => !mine j)))
      entries := l.entries.filter (fun e => !es.contains e.1)
      places := l.places.filter (fun e => !es.contains (32 * (e.1 / 4) + e.2.1 % 32))
      mxQueue := l.mxQueue.map (fun e => (e.1, e.2.filter (fun x => !gs.contains x.1)))
      colls := l.colls.filter (fun c => c.owner != o) }
  let s := s.onCores fun c =>
    { c with
      groups := c.groups.filter (fun g => g.owner != o)
      posts := c.posts.filter (fun p => !(p.idx.isNone && p.gid.any (fun g => gs.contains g))) }
  let s := s.onNet fun n => { n with remoteOps := n.remoteOps.filter (fun r => r.store || r.atomic || r.owner != o) }
  let s := forget s gs
  mxRelease (bs.foldl dropBlock s)

/-- Step 3 of a kill waits for the remote stores and atomics that the work has issued (R59). -/
def killWaits (s : State) (o : Owner) : Bool := s.net.remoteOps.any (fun r => r.owner == o)

/-- Is a killed launch replayed (R232)? -/
def Launch.again (l : Launch) : Bool := l.snapOn && decide (l.replays < 2)

/-- LAUNCH_KILL (R241, R97): the five steps; the causing record's SEQ was kept when the kill was asked for. While step 3 or the DONE write
waits, the turn is taken again in later cycles. -/
def execLaunchKill (_vd : Vd) (w : Work) (s : State) : Answer :=
  match w with
  | .launch lid =>
    match findLaunch s lid with
    | none => .next s
    | some l =>
      let s := discardWork s (.launch lid)
      if killWaits s (.launch lid) || !l.again && doneWaits s l.vd l.slotVa then .next s
      else
      let s := releaseAll s l.vd
      let s := discardShadows s lid
      let again := l.again
      let s := offerRec s l.vd
        { type := 0x06, sev := 2, vd := l.vd, unit := 0x420, tag := some (l.f 48 8), data0 := if again then 0 else 1, data1 := l.killing.getD 0 }
      let s := if again then
          onLaunch s lid (fun l =>
            { l with cursor := 0, dispatched := 0, resident := 0, ended := 0, teamDie := [], replays := l.replays + 1, killing := none })
        else finishLaunch s l 4
      .next (flushRecs s)
  | .task tid =>
    match findTask s tid with
    | none => .next s
    | some t =>
      let s := discardWork s (.task tid)
      if killWaits s (.task tid) then .next s
      else
      let s := releaseAll s t.vd
      let s := s.onLq fun q =>
        { q with ready := q.ready.map (fun e => (e.1, e.2.filter (fun r => !(r.resume.any (fun x => x.1 == tid))))) }
      let s := offerRec s t.vd { type := 0x06, sev := 2, vd := t.vd, unit := 0x420 + t.die, data0 := 2, data1 := t.killing.getD 0 }
      .next (flushRecs (finishTask s t))

end Sys2Proof.Machine
end

