-- ==== Sys2Proof/Machine/Control.lean ====
section
/-! DEFINITION. Row 0x0: NOP, branches, calls, jump tables, YIELD and EXIT (R264, R265, R291 to R295). -/
namespace Sys2Proof.Machine

/-- NOP (R264). -/
def execNop (h : Hdr) (s : State) : Answer := runOp (.nop h) .u (fun s _ _ _ => (s, [])) s

/-- R292: a thread's transfer to a target, once it passes R248; the link is written with it. -/
def transfer (s : State) (g : Group) (t : Nat) (pc : DWord) (link : Option Opnd) (target : Option DWord) : State × Done :=
  match target with
  | none => (s, .trap (badTarget (2 ^ 64 - 1)))
  | some p =>
    match checkTarget s g p with
    | (s, some e) => (s, trapDone e)
    | (s, none) =>
      (match link with
        | some d => writeOp s g t d (nextPc pc).toNat 2
        | none => s, .jump p)

/-- R292: the entry of a RET whose target fails holds the target PC. -/
def atTarget (p : Nat) : Done → Done
  | .trap t => .trap { t with addr := p, page := some (p / 4096) }
  | d => d

/-- A body in which each thread transfers to its own target. -/
def transferBody (link : Option Opnd) (target : State → Group → Nat → DWord → Option DWord) : Body := fun s g c act =>
  memBody (fun s0 s g t => transfer s g t c.pc link (target s0 g t c.pc)) s g c act

def execBra (h : Hdr) (imm : BitVec 32) (s : State) : Answer :=
  runOp (.bra h imm) .u (transferBody none (fun _ _ _ pc => branchTarget pc imm)) s
def execCall (h : Hdr) (d : Opnd) (imm : BitVec 32) (s : State) : Answer :=
  runOp (.call h d imm) .u (transferBody (some d) (fun _ _ _ pc => branchTarget pc imm)) s
def execRet (h : Hdr) (a : Opnd) (s : State) : Answer :=
  runOp (.ret h a) .u (fun s g c act => memBody (fun s0 s g t =>
    let p := BitVec.ofNat 64 (readOp s0 g t a 2)
    let r := transfer s g t c.pc none (some p)
    (r.1, atTarget p.toNat r.2)) s g c act) s

/-- R265: a thread's read of a jump table: its join PC and the target of an index. -/
def readTable (s : State) (g : Group) (t tbl idx : Nat) : Got (Nat × Nat) :=
  match loadBytes s g t g.own tbl 8 0 with
  | (s, .error e) => (s, .error e)
  | (s, .ok j) =>
    match loadBytes s g t g.own ((tbl + 8) % 2 ^ 64) 8 0 with
    | (s, .error e) => (s, .error e)
    | (s, .ok n) =>
      if idx ≥ leNat n ∨ leNat n = 0 ∨ 65536 < leNat n then
        (s, .error (.trap { badTarget tbl with arg := leBytes 4 idx ++ leBytes 8 (leNat n) }))
      else if leNat j ≠ 0 ∧ !pcOk (leNat j) then (s, .error (.trap (badTarget (leNat j))))
      else
        match loadBytes s g t g.own ((tbl + 16 + 8 * idx) % 2 ^ 64) 8 0 with
        | (s, .error e) => (s, .error e)
        | (s, .ok p) => (s, .ok (leNat j, leNat p))

/-- R293: a thread's transfer through a jump table, with the join it sets. -/
def tableBody (link : Option Opnd) (a b : Opnd) : Body := fun s g c act =>
  memBody (fun s0 s g t =>
    match readTable s g t (readOp s0 g t a 2) (readOp s0 g t b 1) with
    | (s, .error e) => (s, e)
    | (s, .ok (j, p)) =>
      match transfer s g t c.pc link (some (BitVec.ofNat 64 p)) with
      | (s, .jump p) => (onThread s g.gid t (fun x => { x with jpc := BitVec.ofNat 64 j, jarr := false }), .jump p)
      | r => r) s g c act
def execBrx (h : Hdr) (a b : Opnd) (s : State) : Answer := runOp (.brx h a b) .u (tableBody none a b) s
def execCallx (h : Hdr) (d a b : Opnd) (s : State) : Answer := runOp (.callx h d a b) .u (tableBody (some d) a b) s

/-- YIELD (R294): it acts at the end of the cycle. -/
def execYield (h : Hdr) (s : State) : Answer :=
  runOp (.yield h) .u (fun s g _ act => (if act.isEmpty ∨ g.mandrel then s else onGroup s g.gid (fun x => { x with yielded := true }), [])) s

/-- What else an exit ends (R295, R347): a token still owed is replayed, and the team's barrier is tested. -/
def exitOwed (s : State) (gid t : Nat) : State :=
  match findGroup s gid with
  | none => s
  | some g =>
    match (g.thread t).token with
    | some k =>
      if k.caller then svretToken (onThread s gid t (fun x => { x with token := none })) g t k { form := .replay, a := 0, b := none } else s
    | none => s
def exitTeam (s : State) (gid : Nat) : State :=
  match (findGroup s gid).bind (teamOf s) with
  | some team => cbarSettle s team
  | none => s

/-- After an instruction, what has come to an end ends. -/
def thenReap (f : State → State) (r : Answer) : Answer :=
  match r with
  | .next s => .next (flushRecs (reap (f s)))
  | x => x

/-- EXIT (R295). -/
def execExit (h : Hdr) (s : State) : Answer :=
  match s.sch.ctx with
  | none => .fault .noConvoy
  | some c =>
    thenReap (fun s => exitTeam s c.gid)
      (runOp (.exit h) .u (fun s g _ act => (act.foldl (fun s t => exitOwed s g.gid t) s, act.map (fun t => (t, .exit)))) s)

end Sys2Proof.Machine
end

