-- ==== Sys2Proof/Machine/Anvil.lean ====
section
/-! DEFINITION. The Anvil (R180 to R185, R302 to R305, R359 to R370): reservation entries, passes, drains, their completion, and
MXOP, MXDRAIN, MXWAIT, MXBURST. -/
namespace Sys2Proof.Machine

/-! What a VD owns in a cluster (R79, R127): its range less its enabled regions, and the regions it holds. -/

def SlicePair.rsvBase (p : SlicePair) : Nat := bits p.clu.toNat 4 0
def SlicePair.rsvCnt (p : SlicePair) : Nat := bits p.clu.toNat 10 5
def SlicePair.accBase (p : SlicePair) : Nat := bits p.clu.toNat 15 12
def SlicePair.accCnt (p : SlicePair) : Nat := bits p.clu.toNat 20 16
def SlicePair.swgBase (p : SlicePair) : Nat := bits p.clu.toNat 26 24
def SlicePair.swgCnt (p : SlicePair) : Nat := bits p.clu.toNat 30 27

/-- Is a resource in the VD's range outside every region, or in a region it holds? -/
def cluHas (s : State) (v : Nat) (own : Bool) (inP : SlicePair → Bool) : Bool :=
  (own && !inOwnRegion s v inP)
    || (List.range 4).any (fun n => (pairAt s n).en && !(pairAt s n).switching && (pairAt s n).holder == v && inP (pairAt s n))
def entryIn (s : State) (v x : Nat) : Bool := cluHas s v (inRange x (rsvBase s v) (rsvCnt s v)) (fun p => inRange x p.rsvBase p.rsvCnt)
def tileIn (s : State) (v x : Nat) : Bool := cluHas s v (inRange x (accBase s v) (accCnt s v)) (fun p => inRange x p.accBase p.accCnt)
/-- R363: a tile the VD may name: one of its range, held or not, or of a region it holds. -/
def tileNamed (s : State) (v x : Nat) : Bool := inRange x (accBase s v) (accCnt s v) || tileIn s v x
def ctxIn (s : State) (v x : Nat) : Bool := cluHas s v (inRange x (swgBase s v) (swgCnt s v)) (fun p => inRange x p.swgBase p.swgCnt)
/-- R181: the operand-latch places of a VD. -/
def placesOf (s : State) (v : Nat) : List Nat := (List.range 4).filter (fun j => tileIn s v (4 * j))

/-! The parameter block (R362). -/

abbrev AnvilEntry.f (e : AnvilEntry) (o n : Nat) : Nat := field e.param o n
def AnvilEntry.flags (e : AnvilEntry) : Nat := e.f 0 1
def AnvilEntry.cls (e : AnvilEntry) : Nat := e.f 1 1
def AnvilEntry.atype (e : AnvilEntry) : Nat := e.f 2 1
def AnvilEntry.btype (e : AnvilEntry) : Nat := e.f 3 1
def AnvilEntry.nsp (e : AnvilEntry) : Nat := e.f 6 1
def AnvilEntry.ksteps (e : AnvilEntry) : Nat := e.f 8 2
def AnvilEntry.awin (e : AnvilEntry) (j : Nat) : Nat := e.f (12 + j) 1
def AnvilEntry.bcore (e : AnvilEntry) : Nat := e.f 24 1
def AnvilEntry.woff (e : AnvilEntry) : Nat := e.f 40 4
/-- The accumulator tile an entry works on, of an operation or a drain. -/
def AnvilEntry.tile (e : AnvilEntry) : Nat := match e.mdr with
  | some _ => field e.ops 8 4
  | none => e.f 4 1
/-- Bytes of an A row, of a B element block, and of a B tile (R302, R304). -/
def mxRow (cls : Nat) : Nat := if cls = 0 then 96 else if cls = 1 then 48 else 24
def mxBlock (cls nsp : Nat) : Nat := (if nsp = 0 then 48 else nsp) * (if cls = 0 then 128 else if cls = 1 then 64 else 32)
def mxSide (cls nsp : Nat) : Nat := (mxBlock cls nsp + 255) / 256 * 256
def mxTile (cls nsp : Nat) : Nat := mxSide cls nsp + 256 + (if nsp = 0 then 0 else 512)
/-- Does a class admit a type? -/
def mxType (cls t : Nat) : Bool :=
  if cls = 0 then decide (t ≤ 1) else if cls = 1 then decide (2 ≤ t ∧ t ≤ 4) else t == 5

/-- Entry m of the index vector: its core and row, or none when the row is dead (R184, R362). -/
def AnvilEntry.index (e : AnvilEntry) (m : Nat) : Option (Nat × Nat) :=
  if e.f 32 4 = 0xFFFFFFFF then (if e.awin (m % 4) = 0xFF then none else some (m % 4, m / 4))
  else
    let x := e.f (64 + 2 * m) 2
    if x = 0xFFFF then none else some (x / 16384, x % 16384)

/-- R363: what makes a block BADBLOCK. -/
def AnvilEntry.badBlock (s : State) (e : AnvilEntry) (scratch : Nat) : Bool :=
  let z := fun o n => e.f o n == 0
  !(decide (e.flags < 8) && z 7 1 && z 10 2 && z 18 2 && z 26 2 && z 48 8
    && decide (e.cls ≤ 2) && mxType e.cls e.atype && mxType e.cls e.btype && decide (e.f 5 1 ≤ 7)
    && [0, 12, 16, 24, 32].contains e.nsp && e.ksteps != 0 && decide (e.bcore ≤ 3)
    && e.f 16 2 % 4 == 0 && decide (mxRow e.cls ≤ e.f 16 2) && e.f 20 4 % 4 == 0
    && e.f 28 4 % 256 == 0 && decide (mxTile e.cls e.nsp ≤ e.f 28 4)
    && (e.f 32 4 == 0xFFFFFFFF || (e.f 32 4 % 4 == 0 && decide (e.f 32 4 + 128 ≤ scratch)))
    && e.woff % 4 == 0 && decide (e.woff + 4 ≤ scratch) && (!bit e.flags 1 || handleOk s e.vd (e.f 36 4)))

/-- R363: the status of the block read. -/
def AnvilEntry.validate (s : State) (e : AnvilEntry) : Nat :=
  let scratch := match findBlock s e.blk with
    | some b => 256 * b.rowCount
    | none => 0
  let named := ((List.range 4).map e.awin).filter (· != 0xFF)
  if e.badBlock s scratch then 1
  else if named.isEmpty || (e.f 25 1 :: named).any (fun i => decide (rtCnt s e.vd ≤ i)) then 2
  else if !tileNamed s e.vd (e.f 4 1) then 9
  else 0

/-! Entries. -/

def AnvilEngine.reset : AnvilEngine :=
  { last := none, nextOrder := 0, burst := false, down := false, busy := 0, filler := 0, withheldPasses := 0, withheldCycles := 0 }
def engineKey (cl v : Nat) : Nat := 16 * cl + v
def engineOf (s : State) (cl v : Nat) : AnvilEngine := s.loc.engines.at AnvilEngine.reset (engineKey cl v)
def onEngine (s : State) (cl v : Nat) (f : AnvilEngine → AnvilEngine) : State :=
  s.onLoc fun l => { l with engines := l.engines.write AnvilEngine.reset (engineKey cl v) (f (l.engines.at AnvilEngine.reset (engineKey cl v))) }
def entryKey (cl e : Nat) : Nat := 32 * cl + e
def onEntry (s : State) (key : Nat) (f : AnvilEntry → AnvilEntry) : State :=
  s.onLoc fun l => { l with entries := match l.entries.find key with | some e => l.entries.put key (f e) | none => l.entries }
def entriesOf (s : State) (cl v : Nat) : List (Nat × AnvilEntry) := s.loc.entries.filter (fun e => e.1 / 32 == cl && e.2.vd == v)
def freeEntry (s : State) (cl v : Nat) : Option Nat :=
  (List.range 32).find? (fun e => entryIn s v e && (s.loc.entries.find (entryKey cl e)).isNone)

/-- Bytes of a block's scratchpad in physical order. -/
def spadRead (s : State) (b : Block) (o n : Nat) : Bytes := sramRead s b.core (rangeWords b.rowStart 0 o n) o n

/-- The oldest of a VD's waiting threads whose group is in its core (R129, R180): its group, thread and place in line. -/
def mxWaiter (s : State) (cl v : Nat) : Option ((Nat × Nat) × Nat) :=
  (s.loc.mxQueue.at [] (engineKey cl v)).zipIdx.find? (fun x => (findGroup s x.1.1).all (fun g => g.resid == .core))

/-- R361: entries taken in one cycle are accepted in ascending core, then thread index: the number of an acceptance. -/
def mxOrder (s : State) (core v t : Nat) : Nat :=
  ((s.sch.cycle * 4 + core % 4) * 64 + t) * 2 ^ 16 + (engineOf s (clusterOfCore core) v).nextOrder % 2 ^ 16

/-- Is a unit that holds bytes of a block's scratchpad poisoned? -/
def spadBad (s : State) (b : Block) (o n : Nat) : Bool := (rangeWords b.rowStart 0 o n).any (sramBad s b.core)

/-- R361: an operation issued in a cycle takes an entry: its generation, and the copies of its block and index vector, with their
poison. It answers the handle. -/
def takeEntry (s : State) (g : Group) (t e : Nat) (mdr : Option MxdrainMod) (ops : Bytes) (issued : Nat) : State × Nat :=
  let cl := clusterOfCore g.core
  let key := entryKey cl e
  let gen := (s.loc.gens.at 0 key + 1) % 65536
  let param : Bytes × Bool := match mdr, blockOf s g with
    | none, some b =>
      let p := spadRead s b (leNat ops) 64
      let x := field p 32 4
      let bad := spadBad s b (leNat ops) 64
      if x = 0xFFFFFFFF ∨ 256 * b.rowCount < x + 128 then (p, bad)
      else (p ++ spadRead s b (x / 4 * 4) 128, bad || spadBad s b (x / 4 * 4) 128)
    | _, _ => ([], false)
  let a : AnvilEntry :=
    { vd := g.vd, gen := gen, order := mxOrder s g.core g.vd t, core := g.core, gid := g.gid, tid := t, blk := g.blk,
      asid := g.asid, ops := ops, param := param.1, mdr := mdr, pc := (g.thread t).pc, zeroed := false, done := 0, passed := 0, status := 0,
      know := knowOf s (threadAgent g.gid t), issued := issued, tainted := param.2 }
  let s := s.onLoc fun l => { l with entries := l.entries.put key a, gens := l.gens.put key gen }
  (onEngine s cl g.vd (fun x => { x with nextOrder := x.nextOrder + 1 }), 65536 * e + gen)

/-- A thread's acceptance, or its place among the VD's waiters (R180). -/
def mxAccept (s : State) (g : Group) (t : Nat) (d : Opnd) (mdr : Option MxdrainMod) (ops : Bytes) : State × Done :=
  let k := engineKey (clusterOfCore g.core) g.vd
  let s := issueWork s g [t]
  match (if (mxWaiter s (clusterOfCore g.core) g.vd).isNone then freeEntry s (clusterOfCore g.core) g.vd else none) with
  | some e => let r := takeEntry s g t e mdr ops s.sch.cycle; (writeOp r.1 g t d r.2 1, .next)
  | none =>
    (s.onLoc fun l => { l with mxQueue := l.mxQueue.put k (l.mxQueue.at [] k ++ [(g.gid, t)]) }, .wait (.mxEntry d mdr ops s.sch.cycle))

/-- The code of a refused operation. -/
def mxError (status : Nat) : Nat := 0x80000000 + status

/-- MXOP (R361). -/
def mxopBody (d : Opnd) (off : State → Group → Nat → Nat) : Body := memBody fun s0 s g t =>
  let o := off s0 g t
  let scratch := match blockOf s g with
    | some b => 256 * b.rowCount
    | none => 0
  if o % 64 ≠ 0 ∨ scratch < o + 64 then (writeOp s g t d (mxError 1) 1, .next)
  else if (placesOf s g.vd).isEmpty then (writeOp s g t d (mxError 8) 1, .next)
  else mxAccept s g t d none (leBytes 4 o)
def execMxop (h : Hdr) (d a : Opnd) (s : State) : Answer :=
  runOp (.mxop h d a) .u (mxopBody d (fun s g t => readOp s g t a 1)) s
def execMxopImm (h : Hdr) (d : Opnd) (imm : BitVec 32) (s : State) : Answer :=
  runOp (.mxopImm h d imm) .u (mxopBody d (fun _ _ _ => imm.toNat)) s

/-- Element type of a drain. -/
def drainEty : DrainTy → ETy
  | .f32 => .f32
  | .bf16 => .bf16
  | .f16 => .f16
  | .f8 => .f8
  | .f8w => .f8w

/-- MXDRAIN (R367): the checks at issue; the window's place is kept with the operation. -/
def execMxdrain (h : Hdr) (m : MxdrainMod) (d a b c : Opnd) (s : State) : Answer :=
  runOp (.mxdrain h m d a b c) .u (memBody fun s0 s g t =>
    let tile := readOp s0 g t b 1
    let o := readOp s0 g t c 1
    match winIndex s g (readOp s0 g t a 1) with
    | none => (writeOp s g t d (mxError 2) 1, .next)
    | some e =>
      let w := winOf s g.core e
      if w.st ≠ .present ∧ w.st ≠ .bound then (writeOp s g t d (mxError 2) 1, .next)
      else if !tileNamed s g.vd tile then (writeOp s g t d (mxError 9) 1, .next)
      else if o % 256 ≠ 0 ∨ w.slen < o + 4096 * (drainEty m.dt).size then (writeOp s g t d (mxError 3) 1, .next)
      else mxAccept s g t d (some m) (leBytes 4 w.soff ++ leBytes 4 w.swz ++ leBytes 4 tile ++ leBytes 4 o)) s

/-- ANVIL_ENTRY_ACCEPT (R361): the oldest waiter of the agent's VD in its cluster takes the lowest free entry; one put away with its
region goes on waiting. -/
def execAnvilEntryAccept (s : State) : Answer :=
  let cl := s.sch.sel.cl.val
  let v := s.sch.sel.vd.val
  match mxWaiter s cl v, freeEntry s cl v with
  | some ((gid, t), i), some e =>
    let s := s.onLoc fun l => { l with mxQueue := l.mxQueue.write [] (engineKey cl v) ((l.mxQueue.at [] (engineKey cl v)).eraseIdx i) }
    match findGroup s gid with
    | none => .next s
    | some g =>
      match (g.thread t).st with
      | .wait (.mxEntry d mdr ops c) =>
        let r := takeEntry s g t e mdr ops c
        .next (wakeThreads (writeOp r.1 g t d r.2 1) (fun h i _ => h.gid == gid && i == t) Thread.goOn)
      | _ => .next s
  | _, _ => .next s

/-! MXWAIT (R369). -/

/-- The operation of a handle that is not complete, of a VD in a cluster; one saved with its region counts. -/
def mxPending (s : State) (cl v h : Nat) : Bool :=
  !bit h 31 && decide (inRange (bits h 20 16) (rsvBase s v) (rsvCnt s v) ∨ entryIn s v (bits h 20 16))
    && s.loc.entries.any (fun e => e.1 % 65536 == entryKey cl (bits h 20 16) && e.2.vd == v && e.2.gen == h % 65536)
/-- Does the group have an operation that is not complete? -/
def mxAny (s : State) (gid : Nat) : Bool := anvilOf s gid

def execMxwait (h : Hdr) (m : MxwaitMod) (a : Option Opnd) (s : State) : Answer :=
  runOp (.mxwait h m a) .u (fun s g _ act =>
    act.foldl (fun (r : State × List (Nat × Done)) t =>
      match a with
      | some o =>
        let x := readOp s g t o 1
        if mxPending s (clusterOfCore g.core) g.vd x then (r.1, r.2 ++ [(t, .wait (.mxWait (some (BitVec.ofNat 32 x))))])
        else (recvBy r.1 g [t] 3 (.anvil (clusterOfCore g.core) x), r.2 ++ [(t, .next)])
      | none =>
        if mxAny s g.gid then (r.1, r.2 ++ [(t, .wait (.mxWait none))]) else (acquireBy r.1 g [t] 3 s.mem.clock, r.2 ++ [(t, .next)]))
      (s, [])) s

/-- MXBURST (R370, R185): the count of the highest participating thread; an idle engine starts ramp-up, ramp-down is withheld even when
it has begun, and a count of 0 ends withholding. -/
def mxBurst (s : State) (cl v n : Nat) : State :=
  onEngine s cl v (fun x =>
    let x := { x with withheldPasses := n, withheldCycles := if n = 0 then 0 else 1024 }
    if n = 0 then x
    else if !x.burst then { x with burst := true, filler := 24 }
    else if x.down then { x with down := false, filler := 0 }
    else x)
def mxBurstBody (n : State → Group → Nat → Nat) : Body := fun s g _ act =>
  match act.getLast? with
  | none => (s, [])
  | some t => (mxBurst s (clusterOfCore g.core) g.vd (min 65535 (n s g t)), [])
def execMxburst (h : Hdr) (a : Opnd) (s : State) : Answer :=
  runOp (.mxburst h a) .u (mxBurstBody (fun s g t => readOp s g t a 1)) s
def execMxburstImm (h : Hdr) (imm : BitVec 32) (s : State) : Answer :=
  runOp (.mxburstImm h imm) .u (immBody (decide (imm.toNat < 65536)) (.mxburstImm h imm) (mxBurstBody (fun _ _ _ => imm.toNat))) s

/-! The order of work on a tile, and the choice of a pass (R182, R364). -/

/-- Every earlier operation of the VD on the entry's tile is complete. -/
def mxFirst (s : State) (cl : Nat) (e : AnvilEntry) : Bool :=
  !(entriesOf s cl e.vd).any (fun x => x.2.tile == e.tile && decide (x.2.order < e.order))

/-- A window an operation names: its core, entry and state. -/
def mxWin (s : State) (cl : Nat) (e : AnvilEntry) (j i : Nat) : Nat × Nat × Window :=
  let core := 4 * cl + j
  (core, rtBase s e.vd + i, winOf s core (rtBase s e.vd + i))
/-- The windows of an operation in the order of their checks: A of cores 0 to 3, then B. -/
def mxWins (s : State) (cl : Nat) (e : AnvilEntry) : List (Nat × Nat × Window) :=
  ((List.range 4).filter (fun j => e.awin j != 0xFF)).map (fun j => mxWin s cl e j (e.awin j)) ++ [mxWin s cl e e.bcore (e.f 25 1)]

/-- The words of n bytes of a window at an offset, with its block's rows. -/
def winWords (s : State) (w : Window) (o n : Nat) : List Nat :=
  match findBlock s w.blk with
  | some b => rangeWords (b.rowStart + w.soff / 256) w.swz o n
  | none => []
/-- n bytes of a window, and whether a unit that holds them is poisoned. -/
def winBytes (s : State) (core : Nat) (w : Window) (o n : Nat) : Bytes × Bool :=
  let ws := winWords s w o n
  (sramRead s core ws o n, ws.any (sramBad s core))

/-- The B tile of K-step k, as bytes. -/
def mxB (s : State) (cl : Nat) (e : AnvilEntry) (k : Nat) : Bytes × Bool :=
  let w := mxWin s cl e e.bcore (e.f 25 1)
  winBytes s w.1 w.2.2 (k * e.f 28 4) (mxTile e.cls e.nsp)
/-- The A row of an index at K-step k. -/
def mxA (s : State) (cl : Nat) (e : AnvilEntry) (k : Nat) (x : Nat × Nat) : Bytes × Bool :=
  let w := mxWin s cl e x.1 (e.awin x.1)
  winBytes s w.1 w.2.2 (k * e.f 20 4 + x.2 * e.f 16 2) (mxRow e.cls)

/-- Side row and masks of a B tile (R302 to R304). -/
def bScale (e : AnvilEntry) (b : Bytes) (k : Nat) : Fl := bf16.dec (field b (mxSide e.cls e.nsp + 2 * k) 2)
def bMask (e : AnvilEntry) (b : Bytes) (n : Nat) : Nat := field b (mxSide e.cls e.nsp + 256 + 8 * n) 8
def bOutliers (e : AnvilEntry) (b : Bytes) : List Nat :=
  if e.cls = 2 then ((List.range 16).map (fun i => field b (mxSide e.cls e.nsp + 96 + 4 * i) 4)).filter (· != 0) else []

/-- R363, R364: FetchCheck's ranges, masks and outliers of K-step k. -/
def mxFetch (s : State) (cl : Nat) (e : AnvilEntry) (k : Nat) : Nat :=
  let badA := (List.range 64).any (fun m => match e.index m with
    | none => false
    | some x =>
      e.awin x.1 == 0xFF
        || decide ((mxWin s cl e x.1 (e.awin x.1)).2.2.slen < k * e.f 20 4 + x.2 * e.f 16 2 + mxRow e.cls))
  if badA || decide ((mxWin s cl e e.bcore (e.f 25 1)).2.2.slen < k * e.f 28 4 + mxTile e.cls e.nsp) then 3
  else
    let b := (mxB s cl e k).1
    let masks := e.nsp != 0 && (List.range 64).any (fun n => popcount 64 (bMask e b n) != e.nsp || decide (2 ^ 48 ≤ bMask e b n))
    let dropped := e.nsp != 0 && (bOutliers e b).any (fun x => decide (x % 64 ≤ 47) && !bit (bMask e b (bits x 11 6)) (x % 64))
    if masks || dropped then 4
    else if (bOutliers e b).any (fun x => decide (47 < x % 64) || bits x 31 20 != 0) then 5
    else 0

/-- A tile of +0, without poison. -/
def zeroTile (s : State) (cl tile : Nat) : State :=
  s.onLoc fun l =>
    { l with
      tiles := l.tiles.filter (fun x => !inRange x.1 (tileKey cl tile 0 0) 4096)
      tilePoison := l.tilePoison.filter (fun r => !inRange r (1024 * cl + 64 * tile) 64) }
def zeroResidue (s : State) (cl tile : Nat) : State :=
  s.onLoc fun l => { l with residue := l.residue.filter (fun x => !inRange x.1 (tileKey cl tile 0 0) 4096) }

/-- R364: an operation with ZERO clears its tile once, before it looks at its windows. -/
def mxZero (s : State) (cl key : Nat) (e : AnvilEntry) : State :=
  if bit e.flags 0 && !e.zeroed then onEntry (zeroTile s cl e.tile) key (fun e => { e with zeroed := true }) else s

/-- An entry's next pass: it may run, it waits, or the operation ends with a status. A window not touched yet has its fill
started (R176). -/
inductive MxNext where
  | pass
  | wait
  | stop (status : Nat)
  deriving DecidableEq, Repr
def mxNext (s : State) (cl key : Nat) : State × MxNext :=
  match s.loc.entries.find key with
  | none => (s, .wait)
  | some e =>
    if e.mdr.isSome || !mxFirst s cl e then (s, .wait)
    else if e.validate s ≠ 0 then (s, .stop (e.validate s))
    else if e.ksteps ≤ e.done then (s, .stop 0)
    else if !tileIn s e.vd e.tile then (s, .wait)
    else
      let s := mxZero s cl key e
      let ws := mxWins s cl e
      match ws.find? (fun w => w.2.2.st == .empty || w.2.2.st == .draining || w.2.2.st == .error) with
      | some w => (s, .stop (if w.2.2.st = .error then 6 else 2))
      | none =>
        let cold := ws.filter (fun w => w.2.2.st == .absent)
        let s := cold.foldl (fun s w => if (winOf s w.1 w.2.1).st = .absent then firstTouch s w.1 w.2.1 none e.know else s) s
        if !cold.isEmpty || ws.any (fun w => w.2.2.st == .filling) then (s, .wait)
        else (s, if mxFetch s cl e e.done = 0 then .pass else .stop (mxFetch s cl e e.done))

/-- R182: the entry whose pass runs, among the ready ones; MXOPs of one cycle tie, and what is tied still goes by acceptance. -/
def mxWinner (s : State) (cl v : Nat) (ready : List (Nat × AnvilEntry)) : Option (Nat × AnvilEntry) :=
  leastBy (fun x =>
    ((((if 64 ≤ x.2.passed then 0 else 1) * 8 + (7 - x.2.f 5 1)) * 2 ^ 64 + x.2.issued) * 2
      + (if (engineOf s cl v).last = some x.1 then 0 else 1)) * 2 ^ 96 + x.2.order) ready

/-! A pass (R305). -/

/-- Element i of a row of elements of an Anvil type. -/
def mxElem (t : Nat) (b : Bytes) (i : Nat) : Fl :=
  match t with
  | 0 => f16.dec (field b (2 * i) 2)
  | 1 => bf16.dec (field b (2 * i) 2)
  | 2 => f8.dec (field b i 1)
  | 3 => f8w.dec (field b i 1)
  | 4 => flOfInt (sext 8 (field b i 1))
  | _ => flOfInt (sext 4 (field b (i / 2) 1 / (if i % 2 = 0 then 1 else 16) % 16))

/-- The value of element (k, n) of a B tile, scaled; a dropped element has the value 0 whatever the scale (R302, R304). -/
def bElem (e : AnvilEntry) (b : Bytes) (k n : Nat) : Fl :=
  if e.nsp = 0 then (mxElem e.btype b (64 * k + n)).mul (bScale e b k)
  else
    let m := bMask e b n
    if bit m k then (mxElem e.btype b (64 * popcount k m + n)).mul (bScale e b k) else .num false 0 0
/-- BVal: with the outliers of K4 added (R303). -/
def bVal (e : AnvilEntry) (b : Bytes) (k n : Nat) : Fl :=
  sumFl false (bElem e b k n
    :: ((bOutliers e b).filter (fun x => x % 64 == k && bits x 11 6 == n)).map (fun x => (f8.dec (bits x 19 12)).mul (bScale e b k)))

/-- One pass of an operation: the accumulator of every live row and every column; a poisoned A row poisons the row of the tile that it
updates, and a poisoned B tile, block or index vector every live row (R239, R240). -/
def mxPass (s : State) (cl : Nat) (e : AnvilEntry) : State :=
  let b := mxB s cl e e.done
  let live := (List.range 64).filterMap (fun m => (e.index m).map (fun x => (m, mxA s cl e e.done x)))
  let cols := (List.range 64).map (fun n => (List.range 48).map (fun k => bVal e b.1 k n))
  live.foldl (fun s r =>
    let s := if b.2 || r.2.2 || e.tainted then setTileBad s cl e.tile r.1 true else s
    let row := (List.range 48).map (mxElem e.atype r.2.1)
    (List.range 64).foldl (fun s n =>
      let dot := List.zipWith Fl.mul row (cols.getD n [])
      tilePut s cl e.tile r.1 n (BitVec.ofNat 32 (rnd f32 .rn (sumFl false (f32.dec (tileWord s cl e.tile r.1 n).toNat :: dot))))) s) s

/-- R183: granted cycles of a pass. -/
def mxCycles (e : AnvilEntry) : Nat :=
  let p := (if e.cls = 0 then 12 else if e.cls = 1 then 6 else 3) * (if e.nsp = 0 then 48 else e.nsp)
  let live := (List.range 64).filterMap e.index
  let per := (List.range 4).map (fun j => (live.filter (fun x => x.1 == j)).length * mxRow e.cls)
  max ((p + 47) / 48) (max ((per.foldl max 0 + 255) / 256) ((live.length * mxRow e.cls + 511) / 512))

/-- The entries of a VD looked at for their next passes: the ready ones, first touches made (R176), and a completion turn for every
operation that is to end. -/
def mxSurvey (s : State) (cl v : Nat) : State × List (Nat × AnvilEntry) :=
  (entriesOf s cl v).foldl (fun (a : State × List (Nat × AnvilEntry)) x =>
    match mxNext a.1 cl x.1 with
    | (s, .pass) => (s, a.2 ++ [x])
    | (s, .wait) => (s, a.2)
    | (s, .stop st) =>
      (queueOnce (onEntry s x.1 (fun e => { e with status := st }))
        (.ev .anvilOpComplete { Sel.none with vd := vdFin v, cl := cluFin cl, n := x.1 }), a.2)) (s, [])

/-- A pass of a VD is complete: it counts towards MXBURST's (R185). -/
def passEnds (x : AnvilEngine) : AnvilEngine :=
  { x with withheldPasses := x.withheldPasses - 1, withheldCycles := if x.withheldPasses ≤ 1 then 0 else 1024 }

/-- ANVIL_PASS (R182, R364): arbitration among the entries of the agent's VD in its cluster, and one K-step of the winner. An
operation whose checks fail has its status kept for its completion, whose turn follows. -/
def execAnvilPass (s : State) : Answer :=
  let cl := s.sch.sel.cl.val
  let v := s.sch.sel.vd.val
  let r := mxSurvey s cl v
  match mxWinner r.1 cl v r.2 with
  | none => .next (flushRecs r.1)
  | some (key, e) =>
    let s := r.1
    let s := mxPass s cl e
    let s := r.2.foldl (fun s x => onEntry s x.1 (fun y => if x.1 = key then { y with done := y.done + 1, passed := 0 }
      else { y with passed := y.passed + 1 })) s
    let s := s.onLoc fun l => match placesOf s v with
      | j :: _ => { l with places := l.places.put (4 * cl + j) (key, e.done) }
      | [] => l
    .next (onEngine s cl v (fun x =>
      let x := { x with last := some key, burst := true, down := false, filler := 0, busy := mxCycles e - 1 }
      if mxCycles e ≤ 1 then passEnds x else x))

/-! Completion (R365, R367, R369). -/

/-- The release of an operation's completion at a scope: what had reached its thread (R190, R202). -/
def AnvilEntry.rel (e : AnvilEntry) (cl sc : Nat) : Rel :=
  { agent := 2 ^ 33 + swageAgent cl, core := 4 * cl, scope := sc, mask := 0xFF, know := e.know }

/-- An entry is free: its completion is a release at CLU, its waiters go on with the acquire of it (R202), and the oldest MXOP waiting has its
turn. -/
def freeEntryOf (s : State) (cl key : Nat) (e : AnvilEntry) : State :=
  let ch : Chan := .anvil cl (65536 * (key % 32) + e.gen)
  let s := setChan s ch [e.rel cl 3]
  let s := s.onLoc fun l => { l with entries := l.entries.del key, places := l.places.filter (fun p => p.2.1 != key) }
  let s := barReturn s (fun g x => g.vd == e.vd && clusterOfCore g.core == cl && mxOver s g x) Thread.goOn 3 ch
  if (mxWaiter s cl e.vd).isNone then s
  else queueOnce s (.ev .anvilEntryAccept { Sel.none with vd := vdFin e.vd, cl := cluFin cl })

/-- ANVIL_OP_COMPLETE (R365): STATUS and KDONE, WRITE, DEC, and the entry freed. The agent's number is the entry's. -/
def execAnvilOpComplete (s : State) : Answer :=
  let key := s.sch.sel.n
  match s.loc.entries.find key with
  | none => .next s
  | some e =>
    if e.mdr.isSome || (findBlock s e.blk).any (fun b => !b.here s) then .next s
    else
      let cl := key / 32
      let s := match findBlock s e.blk with
        | none => s
        | some b =>
          let s := spadWordPut s e.blk (leNat e.ops + 56) e.status
          let s := spadWordPut s e.blk (leNat e.ops + 60) e.done
          if bit e.flags 2 && e.woff % 4 == 0 && decide (e.woff + 4 ≤ 256 * b.rowCount) then
            spadWordPut s e.blk e.woff (if e.status = 0 then e.f 44 4 else mxError e.status)
          else s
      let s := if bit e.flags 1 then sendDecs s e.vd e.asid (anvilKey cl) none [e.f 36 4] (rels := [e.rel cl 5]) else s
      .next (flushRecs (reap (freeEntryOf s cl key e)))

/-- One element of a drain: what is written, the new residue, and the value before its bound. -/
def drainElem (m : MxdrainMod) (x res : Nat) : Nat × Nat :=
  match m.dt with
  | .f32 => (x, res)
  | _ =>
    match etyFmt (drainEty m.dt) with
    | none => (x, res)
    | some f =>
      if m.ef then feedback f m.rnd m.sat x res else ((roundTo f m.rnd m.sat (f32.dec x)).bits, res)

/-- The rows of a drain, in order: state, violations and the first offending value. -/
def drainAll (s : State) (cl : Nat) (e : AnvilEntry) (m : MxdrainMod) (b : Block) (bd : Bound) : State × Nat × Option Nat :=
  let soff := field e.ops 0 4
  let swz := field e.ops 4 4
  let o := field e.ops 12 4
  let sz := (drainEty m.dt).size
  let words := rangeWords (b.rowStart + soff / 256) swz
  let s := (words o (4096 * sz)).foldl (fun s w => setSramBad s b.core w false) s
  (List.range 64).foldl (fun (a : State × Nat × Option Nat) i =>
    let bad := tileBad a.1 cl e.tile i
    let a := (List.range 64).foldl (fun (a : State × Nat × Option Nat) n =>
      let k := tileKey cl e.tile i n
      let r := drainElem m (tileWord a.1 cl e.tile i n).toNat (a.1.loc.residue.at 0 k).toNat
      let s := if m.ef then a.1.onLoc (fun l => { l with residue := l.residue.write 0 k (BitVec.ofNat 32 (if bad then 0 else r.2)) }) else a.1
      let viol := m.ben && !bad && bd.violates (drainEty m.dt) r.1
      let w := if m.ben && !bad then bd.write (drainEty m.dt) r.1 else r.1
      let p := o + sz * (64 * i + n)
      (sramWrite s b.core (words p sz) p (leBytes sz w), if viol then a.2.1 + 1 else a.2.1,
        if viol then some (a.2.2.getD r.1) else a.2.2)) a
    (if bad then (words (o + sz * 64 * i) (64 * sz)).foldl (fun s w => setSramBad s b.core w true) a.1 else a.1, a.2)) (s, 0, none)

/-- ANVIL_DRAIN_COMPLETE (R367): the whole drain of the agent's entry, and the entry freed. -/
def execAnvilDrainComplete (s : State) : Answer :=
  let key := s.sch.sel.n
  match s.loc.entries.find key with
  | none => .next s
  | some e =>
    let cl := key / 32
    match e.mdr, findBlock s e.blk with
    | some m, some b =>
      if !mxFirst s cl e || !tileIn s e.vd e.tile || !b.here s then .next s
      else
        let s := if m.rclr then zeroResidue s cl e.tile else s
        let bd := boundOf s e.core e.vd m.bnd.val
        let r := drainAll s cl e m b bd
        let s := if m.clr then zeroTile r.1 cl e.tile else r.1
        let s := if m.ben then boundEnd s e.core e.vd e.asid m.bnd.val bd r.2.1 (r.2.2.getD 0) (some e.pc.toNat) (workTag s (blockOwner s e.blk)) else s
        .next (flushRecs (reap (freeEntryOf s cl key e)))
    | _, _ => .next s

/-- ANVIL_RAMP_DOWN (R185): ramp-down begins, this cycle the first of its 24 filler cycles. -/
def execAnvilRampDown (s : State) : Answer :=
  .next (onEngine s s.sch.sel.cl.val s.sch.sel.vd.val (fun x =>
    if x.burst then { x with down := true, filler := 23, withheldPasses := 0, withheldCycles := 0 } else x))

end Sys2Proof.Machine
end

