-- ==== Sys2Proof/Machine/Tasks.lean ====
section
/-! DEFINITION. Collectives (R371 to R374), dependence counters and the arming of tasks (R98, R101 to R104, R375, R376), PHASE
(R377). -/
namespace Sys2Proof.Machine

/-! Does work fit an empty grant (R89, R376)? -/

/-- Slots and rows of one quarter of a part of a grant that no group holds. -/
def emptySlots (s : State) (v : Nat) (p : Part) (q : Nat) : Nat :=
  ((List.range 16).filter (fun x => slotIn s v p x && !reservedSlot s v q x)).length
/-- Groups of n rows that the free rows of a quarter hold, first-fit. -/
def rowRuns (s : State) (v : Nat) (p : Part) (q n : Nat) : Nat :=
  let free := fun r => rowIn s v p r && !reservedRow s v q r
  ((List.range 512).foldl (fun (a : Nat × Nat) r =>
    if free r then (if a.2 + 1 = n then (a.1 + 1, 0) else (a.1, a.2 + 1)) else (a.1, 0)) (0, 0)).1
/-- The parts of a core's grant a VD may ever hold. -/
def grantParts (s : State) (v : Nat) : List Part :=
  none :: (((List.range 4).filter (fun n =>
    (pairAt s n).en && ((pairAt s n).vda.toNat == v || (pairAt s n).vdb.toNat == v))).map some)
/-- Does a block fit some part of the grant of one empty core? -/
def fitsGrant (s : State) (v : Nat) (n : Need) : Bool :=
  let rows := (n.regs * n.width + 63) / 64
  (grantParts s v).any (fun p =>
    decide (n.groups ≤ ((List.range 4).map (fun q => min (emptySlots s v p q) (rowRuns s v p q rows))).sum)
      && (n.rows == 0 || (firstFit (fun r => segIn s v p (r / 32)) n.rows 2048).isSome))

/-! Task packets (R98). -/

def pkOk (p : Bytes) : Bool :=
  let len := field p 0 1
  let ctl := field p 1 1
  let nsucc := field p 2 1
  let plen := field p 3 1
  let regs := field p 4 1
  decide (2 ≤ len ∧ len ≤ 16) && bits ctl 4 3 != 3 && decide (nsucc ≤ 16) && decide (plen ≤ 128) && plen % 4 == 0
    && decide (8 ≤ regs ∧ regs ≤ 192) && regs % 8 == 0 && decide (field p 5 1 < 4) && decide (field p 7 1 ≤ 16)
    && (bit ctl 5 || field p 7 1 == 0) && field p 16 8 % 64 == 0 && (bit ctl 5 || field p 16 8 == 0)
    && decide (field p 24 1 ≤ 191) && decide (field p 25 1 ≤ 16) && decide (field p 24 1 + field p 25 1 ≤ regs)
    && field p 26 6 == 0 && decide (32 + 4 * nsucc + plen ≤ 16 * len)

/-! Counters (R102 to R104). -/

/-- The die a packet's task is dispatched on, given its counter's or ring's die (R104). -/
def pkTarget (p : Bytes) (d : Nat) : Nat := if pkDieSel p then pkDie p else d

/-- A counter enters READY and joins its ready queue. -/
def counterReady (s : State) (h : Nat) : State :=
  let s := onCounter s h (fun c => { c with st := .ready, value := 0 })
  let c := counterAt s h
  enqueue s c.vd (pkTarget c.packet (bits h 31 30))
    { pri := pkPri c.packet, handle := some (BitVec.ofNat 32 h), packet := c.packet, vd := c.vd, asid := c.asid, resume := none, joined := 0 }

/-- R102: the arm of a FREE counter without poison. -/
def armCounter (s : State) (v asid h count : Nat) (p : Bytes) : State :=
  let s := onCounter s h (fun _ => { st := .armed, value := BitVec.ofNat 16 count, poison := false, packet := p, vd := v, asid := asid })
  if count = 0 then counterReady s h else s

/-- R102, R103: one decrement; in a VD that is not in RUN it is discarded (R84). `core` is the core of the task it comes
from, `asid` the address space of its source, `rs` the releases it carries. -/
def decrement (s : State) (v : Nat) (core : Option Nat) (asid h : Nat) (rs : List Rel) : State :=
  if !vdRuns s v then s
  else
    let c := counterAt s h
    match c.st with
    | .armed =>
      let s := addChan s (.counter (counterKey h)) [pkgRel 5 (chanOf s (.counter (counterKey h)) ++ rs)]
      if c.value.toNat ≤ 1 then counterReady s h else onCounter s h (fun c => { c with value := c.value - 1 })
    | _ =>
      let s' := onCounter s h (fun c => { c with poison := true })
      if c.poison then s' else postDirect s' (core.getD (208 * bits h 31 30)) v 0x0D h [] .core asid

/-! Landing windows (R53), and what of a window's action follows its DEC (R55 rule 4). -/

def Lwd.reset : Lwd := { ctl := 0, tgt := 0, flag := 0, act := 0 }
def lwdKey (ep w : Nat) : Nat := 32 * ep + w
def lwdOf (s : State) (ep w : Nat) : Lwd := s.pcie.lwd.at Lwd.reset (lwdKey ep w)
def onLwd (s : State) (ep w : Nat) (f : Lwd → Lwd) : State :=
  s.onPcie fun p => { p with lwd := p.lwd.put (lwdKey ep w) (f (p.lwd.at Lwd.reset (lwdKey ep w))) }

/-- Fields of a descriptor. -/
abbrev Lwd.en (d : Lwd) : Bool := bit d.ctl.toNat 31
abbrev Lwd.vd (d : Lwd) : Nat := bits d.ctl.toNat 43 40
abbrev Lwd.kind (d : Lwd) : Nat := bits d.ctl.toNat 39 38
abbrev Lwd.base (d : Lwd) : Nat := bits d.ctl.toNat 25 0 * 65536
abbrev Lwd.size (d : Lwd) : Nat := 2 ^ bits d.ctl.toNat 37 32
abbrev Lwd.target (d : Lwd) : Nat := bits d.tgt.toNat 63 16 * 65536
abbrev Lwd.flagOff (d : Lwd) : Nat := d.flag.toNat / 8 * 8

/-- Threads in WAITA on a sector read their word again. -/
def wakeSector (s : State) (spa : Nat) : State :=
  let hit := s.cores.groups.flatMap (fun g => (List.range g.threads.length).filterMap (fun i =>
    match (g.thread i).st with
    | .wait (.waita r) => (match r.place with
      | .mem (.spa a) => if a / 32 = spa / 32 then some (g.gid, i) else none
      | _ => none)
    | _ => none))
  hit.foldl (fun s e => waAgain s e.1 e.2 false) s

/-- R55 rule 4: WAKE, then NOTIFY. -/
def landGo (s : State) (ep w : Nat) : State :=
  let d := lwdOf s ep w
  let act := d.act.toNat
  let s := if bit act 33 ∧ d.kind ≠ 2 then
      match gpaXlate s d.vd (d.target + d.flagOff) false with
      | (s, .ok a) => wakeSector s a
      | (s, .error _) => s
    else s
  if bit act 34 then postDirect s (bits act 63 54) d.vd 0x22 (256 * ep + w) [] (.landing ep w) else s

/-- The waiting list with the oldest cycle and least key that has a handle of a die. -/
def nextDec (s : State) (d : Nat) : Option Dec :=
  leastBy (fun (x : Dec) => x.cycle * 2 ^ 16 + x.key) (s.lq.decs.filter (fun x => x.handles.any (fun h => bits h.toNat 31 30 == d)))

/-- A die applies up to n waiting decrements, in order (R104); the rest of a landing window's action follows its own (R55). -/
def applyDecs (s : State) (d : Nat) : Nat → State
  | 0 => s
  | n + 1 =>
    match nextDec s d with
    | none => s
    | some x =>
      match x.handles.find? (fun h => bits h.toNat 31 30 == d) with
      | none => s
      | some h =>
        let x' := { x with handles := x.handles.erase h }
        let s := s.onLq fun q =>
          { q with decs := if x'.handles.isEmpty then q.decs.erase x else q.decs.replace x x' }
        let s := decrement s x.vd x.core x.asid h.toNat x.rels
        applyDecs (match x'.handles, x.after with | [], some (ep, w) => landGo s ep w | _, _ => s) d n

/-- COUNTER_DECREMENT (R102, R104): one cycle's decrements of the agent's die. -/
def execCounterDecrement (s : State) : Answer := .next (flushRecs (applyDecs s s.sch.sel.die.val 4))

/-! Arming (R375, R376). -/

/-- The arm of a thread, from step 4: the packet's read, its checks, and the arm. -/
def armThread (s : State) (g : Group) (t va h count : Nat) : Got Nat :=
  if va % 16 ≠ 0 then (s, .error (.trap (misaligned va 16 false)))
  else
    match loadBytes s g t g.own va 1 0 with
    | (s, .error e) => (s, .error e)
    | (s, .ok l) =>
      match loadBlock s g t va (leNat l) with
      | (s, .error e) => (s, .error e)
      | (s, .ok p) =>
        if !pkOk p then (s, .ok 3)
        else if !fitsGrant s g.vd (pkNeed p) then (s, .ok 4)
        else if (counterAt s h).st ≠ .free ∨ (counterAt s h).poison then (s, .ok 1)
        else
          let s := setChan (issueWork s g [t]) (.counter (counterKey h)) (relsBy s g [t] 5 0xFF)
          (armCounter s g.vd g.asid h count p, .ok 0)

/-- TASK.POST and TASK.DEP by a thread. -/
def taskArm (s : State) (g : Group) (t : Nat) (clrp : Bool) (va h count : Nat) : Got Nat :=
  if !handleOk s g.vd h then (s, .ok 2)
  else if clrp then
    let c := counterAt s h
    if c.st = .free ∧ c.poison then (onCounter s h (fun c => { c with poison := false }), .ok 0) else (s, .ok 1)
  else if 65535 < count then (s, .ok 5)
  else armThread s g t va h count
def taskBody (d a b : Opnd) (clrp : Bool) (count : State → Group → Nat → Nat) : Body := memBody fun s0 s g t =>
  match taskArm s g t clrp (readOp s0 g t a 2) (readOp s0 g t b 1) (count s0 g t) with
  | (s, .error e) => (s, e)
  | (s, .ok st) => (writeOp s g t d st 1, .next)
def execTaskPost (h : Hdr) (d a b : Opnd) (s : State) : Answer :=
  runOp (.taskPost h d a b) .u (taskBody d a b false (fun _ _ _ => 0)) s
def execTaskDep (h : Hdr) (m : TaskDepMod) (d a b c : Opnd) (s : State) : Answer :=
  runOp (.taskDep h m d a b c) .u (taskBody d a b m.clrp (fun s g t => readOp s g t c 1)) s
def execTaskDepImm (h : Hdr) (m : TaskDepMod) (d a b : Opnd) (imm : BitVec 32) (s : State) : Answer :=
  runOp (.taskDepImm h m d a b imm) .u (immBody (decide (imm.toNat < 65536) && (!m.clrp || imm == 0)) (.taskDepImm h m d a b imm)
    (taskBody d a b m.clrp (fun _ _ _ => imm.toNat))) s

/-! PHASE (R106, R377). -/

/-- Is a group that of a phased task? -/
def phased (s : State) (g : Group) : Bool :=
  match g.owner with
  | .task tid => ((findTask s tid).map (fun t => pkPhased t.packet)).getD false
  | _ => false
def execPhase (h : Hdr) (s : State) : Answer :=
  let i : Instr := .phase h
  thenReap id (runOp i .u (fun s g _ act =>
    (s, act.map (fun t => (t, if phased s g then .wait .phase else .trap (illegal (wordBytes i)))))) s)

/-! Collectives. -/

def cDType (d : Bytes) : Option ETy :=
  match ETy.ofCode (field d 1 1) with
  | some t => if t = .i32 ∨ t = .n32 ∨ t = .i64 ∨ t.isFloat ∧ t ≠ .f8 ∧ t ≠ .f8w then some t else none
  | none => none
def cCount (d : Bytes) : Nat := field d 24 8

/-- R372: is a descriptor good? `nrank` is the table's NRANK, when it can be read. -/
def collOk (s : State) (v : Nat) (d : Bytes) (nrank : Option Nat) : Bool :=
  match cDType d with
  | none => false
  | some t =>
    let op := field d 0 1
    decide (op ≤ 4) && (decide (op ≤ 1 ∧ field d 2 1 ≤ 2) || field d 2 1 == 0) && decide (field d 3 1 < 4)
      && (op == 3 || field d 4 4 == 0) && (op != 3 || nrank.all (fun n => decide (field d 4 4 < n)))
      && field d 8 8 % t.size == 0 && field d 16 8 % t.size == 0
      && (if op = 4 then cCount d == 0 else decide (1 ≤ cCount d ∧ cCount d < 2 ^ 32))
      && field d 40 8 % 8 == 0 && field d 56 8 == 0 && (!bit (field d 3 1) 1 || handleOk s v (field d 52 4))

/-- Bytes of SRC a rank contributes. -/
def collBytes (t : ETy) (d : Bytes) (nrank : Nat) : Nat :=
  match field d 0 1 with
  | 1 => t.size * cCount d * nrank
  | 4 => 0
  | _ => t.size * cCount d

/-- Beats of 256 bytes that a collective's data take in a group of n ranks (R120): what it reads and what it writes. -/
def collNeed (d : Bytes) (n : Nat) : Nat :=
  match cDType d, field d 0 1 with
  | none, _ | _, 4 => 0
  | some t, op => (collBytes t d n + t.size * cCount d * (if op = 2 then n else 1) + 255) / 256

/-- R371: posts take the free ones of the eight contexts in the order they were made; a VD holds at most four. -/
def collGive (t : List CollCtx) (c : CollCtx) : List CollCtx :=
  let now := t.filter (·.ctx.isSome)
  match (List.range 8).find? (fun i => !now.any (fun x => x.ctx == some i)) with
  | some i =>
    if c.ctx.isNone ∧ (now.filter (fun x => x.vd == c.vd)).length < 4 then t.map (fun x => if x.cid = c.cid then { x with ctx := some i } else x)
    else t
  | none => t
def collFill (s : State) : State := s.onLoc fun l => { l with colls := l.colls.foldl collGive l.colls }

/-- COLL.POST by a thread (R371). -/
def collPost (s : State) (g : Group) (t va : Nat) : Got Nat :=
  match loadDesc s g t va with
  | (s, .error e) => (s, .error e)
  | (s, .ok d) =>
    let r := engReadN s (ioEng g.vd g.asid) (field d 32 8 + 4) 2
    let nrank := match r.2 with
      | .ok (b, bad) => if bad then none else some (leNat b)
      | .error _ => none
    if (match r.2 with | .error .wait => true | _ => false) then (r.1, .error (.wait .mig))
    else if !collOk r.1 g.vd d nrank then (r.1, .ok 1)
    else if decide (16 ≤ (r.1.loc.colls.filter (fun c => c.vd == g.vd && c.ctx.isNone)).length) then (r.1, .ok 7)
    else
      let id := r.1.cores.nextNum
      let s := (issueWork r.1 g [t]).onCores fun c => { c with nextNum := id + 1 }
      let s := s.onLoc fun l =>
        { l with colls := l.colls ++ [{ cid := id, vd := g.vd, asid := g.asid, owner := g.owner, core := g.core, desc := d, ctx := none,
                                        need := collNeed d (nrank.getD 0), beats := 0, peers := none,
                                        know := knowOf s (threadAgent g.gid t) }] }
      (collFill s, .ok 0)
def execCollPost (h : Hdr) (d a : Opnd) (s : State) : Answer :=
  runOp (.collPost h d a) .u (memBody fun s0 s g t =>
    match collPost s g t (readOp s0 g t a 2) with
    | (s, .error e) => (s, e)
    | (s, .ok st) => (writeOp s g t d st 1, .next)) s

/-- R92: the rank of this package in a table of n entries, none when the table does not name it; and whether what was read of the table
holds poison. -/
def localRank (s : State) (e : Eng) (pgt n : Nat) : Nat → State × Except EngErr (Option Nat × Bool)
  | 0 => (s, .ok (none, false))
  | k + 1 =>
    match engReadN s e (pgt + 16 + 32 * (n - (k + 1))) 4 with
    | (s, .error x) => (s, .error x)
    | (s, .ok (b, bad)) =>
      if bad then (s, .ok (none, true))
      else if field b 0 2 = Config.pkgId.toNat then (s, .ok (some (field b 2 2), false))
      else localRank s e pgt n k

/-- R373: the reduction of one element over all ranks. -/
def collReduce (t : ETy) (rop : Nat) (xs : List Nat) : Nat :=
  match rop with
  | 0 =>
    match etyFmt t with
    | some f => rnd f .rn (sumFl false (xs.map f.dec))
    | none => wrap (etyBits t) (xs.foldl (fun (a : Int) x => a + x) 0)
  | r =>
    match xs with
    | [] => 0
    | x :: rest =>
      rest.foldl (fun a b =>
        match etyFmt t with
        | some f => minMaxF f (r == 2) a b
        | none =>
          let le := decide (toInt (!etyUnsigned t) (etyBits t) a ≤ toInt (!etyUnsigned t) (etyBits t) b)
          if le = (r == 1) then a else b) x

/-- The bytes a rank writes to DST, from every rank's data in rank order (R373). -/
def collResult (t : ETy) (d : Bytes) (rank : Nat) (data : List Bytes) : Bytes :=
  let c := cCount d
  let red := fun (o : Nat) => (List.range c).flatMap (fun i =>
    leBytes t.size (collReduce t (field d 2 1) (data.map (fun b => field b (t.size * (o + i)) t.size))))
  match field d 0 1 with
  | 0 => red 0
  | 1 => red (rank * c)
  | 2 => data.flatMap (padTo (t.size * c))
  | 3 => padTo (t.size * c) (data.getD (field d 4 4) [])
  | _ => []

/-- R374: does byte o of DST come from a poisoned byte? `bad` says which bytes of each rank's SRC are. -/
def collBad (t : ETy) (d : Bytes) (rank n : Nat) (bad : Nat → Nat → Bool) (o : Nat) : Bool :=
  let any := fun (o : Nat) => (List.range n).any (fun r => bad r o)
  let c := t.size * cCount d
  match field d 0 1 with
  | 0 => any o
  | 1 => any (rank * c + o)
  | 2 => bad (o / c) (o % c)
  | 3 => bad (field d 4 4) o
  | _ => false

/-- A collective's run on this rank: its status, its bytes for DST, and which of them are poisoned (R373, R374); none while it waits for
a page that is being migrated or a block of a flash window. A process-group table that holds poison ends it with POISON (R240). -/
abbrev CollRun := State × Option (Nat × Bytes × List Bool)
/-- The end of a run whose access failed. -/
def collFail (s : State) (x : EngErr) : CollRun := (s, if x = .wait then none else some (2, [], []))
def collRun (s : State) (c : CollCtx) (peers : CollPeers) : CollRun :=
  let e := ioEng c.vd c.asid
  let d := c.desc
  let pgt := field d 32 8
  match cDType d, engReadN s e pgt 16 with
  | some t, (s, .ok (hd, hbad)) =>
    let n := field hd 4 2
    if hbad then (s, some (5, [], []))
    else if field hd 0 4 ≠ 0x4B575047 ∨ n = 0 ∨ 4096 < n then (s, some (2, [], []))
    else
      match localRank s e pgt n n with
      | (s, .error x) => collFail s x
      | (s, .ok (_, true)) => (s, some (5, [], []))
      | (s, .ok (none, _)) => (s, some (2, [], []))
      | (s, .ok (some rank, _)) =>
        match engReadBits s e (field d 8 8) (if field d 0 1 = 3 ∧ field d 4 4 ≠ rank then 0 else collBytes t d n) with
        | (s, .error x) => collFail s x
        | (s, .ok (src, mine)) =>
          let peer := fun r => peers.find? (fun p => p.rank == r && p.reachable)
          let others := (List.range n).filter (· != rank)
          let clash := fun (p : PeerPost) =>
            p.op != field d 0 1 || p.dtype != field d 1 1 || p.rop != field d 2 1 || p.count != cCount d || p.root != field d 4 4
          if others.any (fun r => (peer r).any clash) then (s, some (3, [], []))
          else if others.any (fun r => (peer r).isNone) then (s, some (4, [], []))
          else
            let data := (List.range n).map (fun r => if r = rank then src else ((peer r).map (·.data)).getD [])
            let bad := fun (r o : Nat) => if r = rank then mine.getD o false else (peer r).any (fun p => p.bad.contains (o / 32))
            let out := collResult t d rank data
            let poison := mine.any id || others.any (fun r => (peer r).any (fun p => !p.bad.isEmpty))
            (s, some (if poison then 5 else 0, out, (List.range out.length).map (collBad t d rank n bad)))
  | _, (s, .error x) => collFail s x
  | none, (s, _) => (s, some (2, [], []))

/-- Bytes still to be written to DST: the address, the bytes, and which of them are poisoned. -/
abbrev CollOut := Nat × Bytes × List Bool
/-- The bytes of DST written line by line, a line poisoned where any of its bytes is (R239, R374): what is left when a line waits (R209),
or none when a line fails. -/
def collWrite (s : State) (e : Eng) : Nat → CollOut → State × Option CollOut
  | 0, x => (s, some x)
  | fuel + 1, (va, b, bad) =>
    if b.isEmpty then (s, some (va, b, bad))
    else
      let n := 128 - va % 128
      match engWriteN s e va (b.take n) ((bad.take n).any id) with
      | (s, .error .wait) => (s, some (va, b, bad))
      | (s, .error _) => (s, none)
      | (s, .ok _) => collWrite s e fuel ((va + n) % 2 ^ 64, b.drop n, bad.drop n)

/-- The release of a collective's completion (R202): what had reached the thread that posted it (R190), from CO to LS, SW and MX. -/
def CollCtx.rel (c : CollCtx) : Rel := { pkgRel 6 [] with know := c.know.map (·.carry 4 7) }

/-- What follows the last write to DST (R374): the completion word, unless it waits, then the decrement; both are the release of the
completion. -/
def collSignal (s : State) (c : CollCtx) (status : Nat) : State :=
  let d := c.desc
  let e := ioEng c.vd c.asid
  let x := leBytes 4 (if status = 0 then field d 48 4 else mxError status)
  let w := if bit (field d 3 1) 0 then engWriteN s e (field d 40 8) x else (s, .ok ())
  match w with
  | (s, .error .wait) =>
    s.onLoc fun l => { l with colls := l.colls.map (fun y => if y.cid = c.cid then { y with out := some (status, 0, [], []) } else y) }
  | (s, r) =>
    let s := if okOf r && bit (field d 3 1) 0 then tellVa s e (field d 40 8) x [c.rel] else s
    let s := if bit (field d 3 1) 1 then sendDecs s c.vd c.asid coKey none [field d 52 4] (rels := [c.rel]) else s
    collFill (s.onLoc fun l => { l with colls := l.colls.filter (fun x => x.cid != c.cid) })

/-- What a collective has still to write and its status: what it has kept, or that of its run; none while the run waits. -/
def collLeft (s : State) (c : CollCtx) (peers : CollPeers) : State × Option (Nat × CollOut) :=
  match c.out with
  | some x => (s, some x)
  | none =>
    match collRun s c peers with
    | (s, none) => (s, none)
    | (s, some (st, b, bad)) => (s, some (st, field c.desc 16 8, b, bad))
/-- A collective whose data have moved ends on this rank (R374). One that waits keeps what it has still to write. -/
def collEnd (s : State) (c : CollCtx) (peers : CollPeers) : State :=
  match collLeft s c peers with
  | (s, none) => s
  | (s, some (st, va, b, bad)) =>
    match collWrite s (ioEng c.vd c.asid) (b.length / 128 + 2) (va, b, bad) with
    | (s, none) => collSignal s c 2
    | (s, some (_, [], _)) => collSignal s c st
    | (s, some left) =>
      s.onLoc fun l => { l with colls := l.colls.map (fun y => if y.cid = c.cid then { y with out := some (st, left) } else y) }

/-- COLL_COMPLETE (R374): the posts of the other ranks that match the selected one of the VD's contexts; the operation completes once its beats
have been granted (R120). -/
def execCollComplete (vd : Vd) (peers : CollPeers) (s : State) : Answer :=
  match (s.loc.colls.filter (fun c => c.vd == vd.val && c.ctx.isSome))[s.sch.sel.n]? with
  | none => .next s
  | some c =>
    let ps := c.peers.getD peers
    if c.beats < c.need then
      .next (s.onLoc fun l => { l with colls := l.colls.map (fun x => if x.cid = c.cid then { x with peers := some ps } else x) })
    else
      .next (flushRecs (reap (collEnd (s.onLoc fun l =>
        { l with colls := l.colls.map (fun x => if x.cid = c.cid then { x with peers := some ps } else x) }) c ps)))

end Sys2Proof.Machine
end

