-- ==== Sys2Proof/Machine/Ways.lean ====
section
/-! DEFINITION. L1 ways (R160, R161, R164) and scheduled replacement of the MSC (R172, R173, R391). -/
namespace Sys2Proof.Machine

/-! L1 ways. -/

def onWays (s : State) (v : Nat) (f : WayRegs → WayRegs) : State :=
  s.onLoc fun l => { l with ways := l.ways.write WayRegs.reset v (f (l.ways.at WayRegs.reset v)) }

/-- Does a block hold scratchpad rows in a segment? -/
def segHeld (s : State) (g : Nat) : Bool :=
  s.cores.blocks.any (fun b => b.here s && decide (b.rowStart < 32 * g + 32 ∧ 32 * g < b.rowStart + b.rowCount))

/-- R160: why a write of WAYS is refused; 0 when it is accepted. -/
def waysReason (s : State) (v x : Nat) : Nat :=
  let w := waysOf s v
  let new := bitList 64 (nClr x w.ways.toNat)
  let others := ((List.range 16).filter (· ≠ v)).map (fun u => popcount 64 (nOr (waysOf s u).ways.toNat (waysOf s u).next.toNat))
  if (bitList 64 x).any (fun g => !inRange g (segBase s v) (segCnt s v)) then 1
  else if 16 < popcount 64 x + others.sum then 2
  else if new.any (segHeld s) then 3
  else if new.any (fun g => (List.range 4).any (fun n => (pairAt s n).en && inRange g (pairAt s n).segBase (pairAt s n).segCnt)) then 4
  else if w.busy then 5
  else 0

/-- A write of L1_WAYSEG (R160, R125). -/
def waysWrite (s : State) (v x : Nat) : State :=
  match waysReason s v x with
  | 0 =>
    let s := onWays s v (fun w => { w with busy := true, next := BitVec.ofNat 64 x, leaving := BitVec.ofNat 64 (nClr w.ways.toNat x) })
    s.push (.ev .waySurrenderComplete { Sel.none with vd := vdFin v })
  | r => onWays s v (fun w => { w with refused := true, reason := BitVec.ofNat 8 r })

/-- Segments of every core read as zeros (R161). -/
def clearSegs (s : State) (m : Nat) : State :=
  s.onLoc fun l =>
    { l with
      sram := l.sram.filter (fun e => !bit m (e.1 % 131072 / 2048))
      sramPoison := l.sramPoison.filter (fun u => !bit m (u % 16384 / 256)) }

/-- R164: every core's lines in the removed segments are written back and invalid, and the added ones are usable. -/
def waysSettle (s : State) (v : Nat) : State :=
  let w := waysOf s v
  if !w.busy then s
  else
    let keys := (s.mem.l1.filter (fun e => e.2.vd == v && bit w.leaving.toNat (e.1 % 4096 / 64))).map (·.1)
    let s := keys.foldl l1Evict s
    let s := clearSegs s (nOr w.leaving.toNat (nClr w.next.toNat w.ways.toNat))
    onWays s v (fun w => { w with busy := false, ways := w.next, next := 0, leaving := 0 })

/-- L1_WAYSEG_WRITE (R160). -/
def execL1WaysegWrite (vd : Vd) (v : BitVec 64) (s : State) : Answer := .next (waysWrite s vd.val v.toNat)
/-- WAY_SURRENDER_COMPLETE (R164). -/
def execWaySurrenderComplete (s : State) : Answer := .next (waysSettle s s.sch.sel.vd.val)

/-- L1_STAT. -/
def waysStat (s : State) (v : Nat) : Nat :=
  let w := waysOf s v
  w.reason.toNat * 256 + w.refused.toNat * 4 + w.busy.toNat

/-! Scheduled replacement. -/

def onSched (s : State) (v : Nat) (f : MscSched → MscSched) : State :=
  s.onMem fun m => { m with sched := m.sched.write MscSched.reset v (f (m.sched.at MscSched.reset v)) }

/-- Lines of a guest-physical range, page by page, as the MSC translates them at the copy. -/
def schedRanges (s : State) (v hi : Nat) : Nat → Nat → State × List (Nat × Nat)
  | 0, _ => (s, [])
  | n + 1, a =>
    if hi ≤ a then (s, [])
    else
      let stop := min hi (a / 4096 * 4096 + 4096)
      match gpaXlate s v a false with
      | (s, .ok x) => let r := schedRanges s v hi n stop; (r.1, (x / 128, (stop - a) / 128) :: r.2)
      | (s, .error _) => schedRanges s v hi n stop

/-- R173: entry i of a schedule's bytes, when it is in use. -/
def schedOne (s : State) (v : Nat) (b : Bytes) : State × Option (Nat × Nat × Nat × List (Nat × Nat)) :=
  let cls := field b 0 8 % 4
  let lines := field b 8 4
  if (cls = 1 ∨ cls = 2) ∧ lines ≠ 0 ∧ bits (field b 0 8) 6 2 = 0 then
    let a := field b 0 8 / 128 * 128
    let r := schedRanges s v (a + 128 * lines) (lines / 32 + 2) a
    (r.1, some (cls, field b 12 2, field b 14 2, r.2))
  else (s, none)

/-- The copy of a schedule's 256 entries. -/
def schedCopy (s : State) (v : Nat) (b : Bytes) : State × List (Nat × Nat × Nat × List (Nat × Nat)) :=
  (List.range 256).foldl (fun (a : State × List (Nat × Nat × Nat × List (Nat × Nat))) i =>
    match schedOne a.1 v ((b.drop (16 * i)).take 16) with
    | (s, some e) => (s, a.2 ++ [e])
    | (s, none) => (s, a.2)) (s, [])

/-- A write of EN = 1 (R172): false while a page of the table is being migrated (R209). A table read with poison is refused: the model's
choice, as the spec gives no case for it. -/
def schedEnable (s : State) (v : Nat) : State × Bool :=
  let refuse := fun (s : State) => (onSched s v (fun q => { q with en := false, loaded := false, refused := true }), true)
  if !mscSchedOk s v then refuse s
  else
    match gpaReadN s (ioEng v 0) (schedOf s v).tbl.toNat 4096 with
    | (s, .error .wait) => (s, false)
    | (s, .error _) | (s, .ok (_, true)) => refuse s
    | (s, .ok (b, false)) =>
      let r := schedCopy s v b
      (onSched r.1 v (fun q => { q with en := true, loaded := true, step := 0, entries := r.2 }), true)

/-- A write of EN = 0: LRU again, with no recency history. -/
def schedDisable (s : State) (v : Nat) : State :=
  let s := onSched s v (fun q => { q with en := false, loaded := false, entries := [] })
  s.onMem fun m => { m with msc := m.msc.map (fun e => if e.2.vd = v then (e.1, { e.2 with stamp := 0 }) else e) }

/-- MSCS_CTL as it reads, and a write of it. -/
def schedCtl (s : State) (v : Nat) : Nat :=
  let q := schedOf s v
  q.step.toNat * 65536 + q.refused.toNat * 4 + q.loaded.toNat * 2 + q.en.toNat
def schedCtlWrite (s : State) (v x : Nat) : State × Bool :=
  let s := onSched s v (fun q => { q with refused := q.refused && !bit x 2 })
  if bit x 0 then schedEnable s v else (schedDisable s v, true)

/-- MSC_SCHEDULE_ENABLE and MSC_SCHEDULE_DISABLE (R172), of the agent's VD. -/
def execMscScheduleEnable (s : State) : Answer := .next (flushRecs (schedEnable s s.sch.sel.vd.val).1)
def execMscScheduleDisable (s : State) : Answer := .next (schedDisable s s.sch.sel.vd.val)

/-- SCHED.STEP (R391), with the operand of the highest participating thread. -/
def execSchedStep (h : Hdr) (m : SchedMod) (a : Option Opnd) (s : State) : Answer :=
  runOp (.schedStep h m a) .u (fun s g _ act =>
    match act.getLast? with
    | none => (s, [])
    | some t =>
      if !(schedOf s g.vd).loaded then (s, [])
      else
        (onSched s g.vd (fun q => { q with step := match a with
          | some o => BitVec.ofNat 16 (readOp s g t o 1)
          | none => q.step + 1 }), [])) s

end Sys2Proof.Machine
end

