-- ==== Sys2Proof/Machine/Boot.lean ====
section
/-! DEFINITION. Power, cold reset, the attested boot, the attestation unit's completions, the NOR operations and the boundary
registers (R11 to R31). -/
namespace Sys2Proof.Machine

/-! Cold reset and rails (R14). -/

/-- Cold reset: every state held only in the package is lost; the flash devices, the count of cold resets, the memory of other
packages, and what is not the package's own stay. DESIGN CHOICE: the count of cold resets since manufacture (R26) starts at 0 and grows
by one at each entry to cold reset; the spec gives neither. -/
def coldReset (s : State) : State :=
  { State.reset with
    pkg := { State.reset.pkg with busGood := s.pkg.busGood, rails := s.pkg.rails, pwrGood := s.pkg.pwrGood,
                                  thermAlertN := s.pkg.thermAlertN, coldResets := s.pkg.coldResets + 1 }
    att := { State.reset.att with nor := s.att.nor }
    mem := { State.reset.mem with nand := s.mem.nand, trimmed := s.mem.trimmed }
    net := { State.reset.net with remote := s.net.remote, remotePoison := s.net.remotePoison }
    sch := { State.reset.sch with inputs := s.sch.inputs, damage := s.sch.damage, free := s.sch.free, outbox := s.sch.outbox } }

/-- Power lost: the rails are lowered in reverse order and PWR_GOOD drops. -/
def powerDown (s : State) : State := coldReset (s.onPkg fun p => { p with busGood := false, rails := 0, pwrGood := false })

/-- COLD_RESET (R14). -/
def execColdReset (s : State) : Answer := .next (coldReset s)
/-- BUS_IN_RANGE (R14). -/
def execBusInRange (s : State) : Answer := .next (s.onPkg fun p => { p with busGood := true })

/-- The place of a rail in the order of R14. -/
def railOrder : Rail → Nat
  | .v1p8 => 0 | .vhbm => 1 | .vio => 2 | .vsram => 3 | .vcore0 => 4 | .vcore1 => 5 | .vcore2 => 6 | .vcore3 => 7

/-- RAIL_IN_TOLERANCE (R14): the rail that is being raised; after the last one PWR_GOOD rises. -/
def execRailInTolerance (rail : Rail) (s : State) : Answer :=
  .next (if s.pkg.busGood && s.pkg.rails == railOrder rail then
      s.onPkg fun p => { p with rails := p.rails + 1, pwrGood := p.rails == 7 }
    else s)
/-- RAIL_OUT_OF_TOLERANCE (R14). -/
def execRailOutOfTolerance (rail : Rail) (s : State) : Answer :=
  .next (if railOrder rail < s.pkg.rails then powerDown s else s)

/-! Measurement (R24). -/

/-- A 512-bit value as its 64 bytes, lowest first, and back. -/
def bytes512 (v : BitVec 512) : Bytes := leBytes 64 v.toNat
def bits512 (b : Bytes) : BitVec 512 := BitVec.ofNat 512 (leNat (b.take 64))
/-- An extend of a measurement register. -/
def extend (s : State) (i : Nat) (d : Bytes) : State :=
  s.onAtt fun a => { a with meas := a.meas.setIfInBounds i (bits512 (shake256 (bytes512 (a.meas[i]?.getD 0) ++ d) 64)) }

/-! Images (R20, R21). -/

def norByte (s : State) (a : Nat) : Byte := Tab.at s.att.nor 0xFF a
def norBytes (s : State) (a n : Nat) : Bytes := (List.range n).map (fun i => norByte s (a + i))
def norPut (s : State) (a : Nat) (b : Bytes) : State :=
  s.onAtt fun x => { x with nor := (List.range b.length).foldl (fun m i => Tab.write m 0xFF (a + i) (b.getD i 0)) x.nor }

/-- Are the bytes from o to e of a string zero? -/
def zeros (b : Bytes) (o e : Nat) : Bool := ((b.drop o).take (e - o)).all (· == 0)

/-- Is the signer one of the fused root keys that is not revoked? R20 does not state how long the fused hashes are; the model's
choice, as of every other SHAKE256 digest of R20, is 512 bits. -/
def rootSigns (key : Bytes) : Bool :=
  [0, 1, 2, 3].any (fun i => let k : Fin 4 := ⟨i % 4, Nat.mod_lt _ (by decide)⟩
                             Config.rootHash k == shake256 key 64 && !Config.rootRevoked k)

/-- R20: the tests of an image: its header, and a function that reads n bytes of its body. -/
def imageOk (h : Bytes) (body : Nat → Bytes) (kind limit : Nat) : Bool :=
  field h 0 4 == 0x4B57494D && field h 4 1 == kind && decide (kind ≤ 2) && zeros h 6 8 && zeros h 1873 1920 && zeros h 3200 4096
    && rootSigns ((h.drop 80).take 1793)
    && Config.falconVerify ((h.drop 80).take 1793) (shake256 (h.take 1920) 64) ((h.drop 1920).take 1280)
    && decide (field h 5 1 ≤ 64) && decide (Config.rollbackLevel ⟨kind % 8, Nat.mod_lt _ (by decide)⟩ ≤ field h 5 1)
    && decide (4096 + field h 8 8 ≤ limit)
    && (h.drop 16).take 64 == shake256 (body (field h 8 8)) 64

/-- An accepted copy of a boot-stage image: its header and body, and whether it is copy B. -/
def bootImage (s : State) (a b kind limit : Nat) : Option (Bytes × Bytes × Bool) :=
  let copy := fun (x : Nat) => (norBytes s x 4096, fun n => norBytes s (x + 4096) n)
  let ok := fun (x : Nat) => imageOk (copy x).1 (copy x).2 kind limit
  if ok a then some ((copy a).1, (copy a).2 (field (copy a).1 8 8), false)
  else if ok b then some ((copy b).1, (copy b).2 (field (copy b).1 8 8), true)
  else none

/-- The digest of an image's header that a boot step extends with (R22). -/
def headerDigest (h : Bytes) : Bytes := shake256 h 64

/-! The boot (R22, R23, R25, R30). -/

/-- How far DBGMODE opens the debug port; 11 acts as 00. -/
def dbgRank (m : BitVec 2) : Nat := if m = 1 then 1 else if m = 2 then 2 else 0
/-- The policy's value of DBGMODE under the fused cap; 10 only on a development part (R30). -/
def dbgCapped (m : BitVec 2) : BitVec 2 :=
  let m := if m = 2 ∧ Config.development = false then 0 else m
  if dbgRank Config.capDbgMode < dbgRank m then Config.capDbgMode else m
def minBits {n : Nat} (a b : BitVec n) : BitVec n := if b.toNat < a.toNat then b else a

/-- R22 step 4: a policy's values, each under its cap and under the limit of its register (R28). -/
def Policy.capped (p : Config.Policy) : Config.Policy :=
  { modPwr := minBits (minBits p.modPwr Config.capModPwr) 3200
    diePwr := (List.finRange 4).map (fun d => minBits (minBits (p.diePwr.getD d.val 0) (Config.capDiePwr d)) 550)
    tThrot := minBits (minBits p.tThrot Config.capThrot) 100
    peerChk := (List.finRange 4).map (fun n => p.peerChk.getD n.val false || Config.capPeerChk n)
    egrCap := (List.finRange 4).map (fun n => minBits (minBits (p.egrCap.getD n.val 0) (Config.capEgress n)) 1600)
    rpcOk := (List.finRange 2).map (fun f => p.rpcOk.getD f.val false && Config.capRpcOk f)
    maxLog2 := (List.finRange 2).map (fun f => minBits (minBits (p.maxLog2.getD f.val 0) (Config.capMaxLog2 f)) 40)
    maxWin := (List.finRange 2).map (fun f => minBits (minBits (p.maxWin.getD f.val 0) (Config.capMaxWin f)) 32)
    polLock := p.polLock || Config.capPolLock
    hmLock := p.hmLock || Config.capHmLock
    dbgMode := dbgCapped p.dbgMode
    egress := p.egress.take 64 }

/-- The boundary registers and the egress table at the values of a policy; LOCKED. -/
def applyPolicy (s : State) (p : Config.Policy) : State :=
  s.onBdy fun b =>
    { b with
      locked := true, modPwr := p.modPwr, tThrot := p.tThrot, polLock := p.polLock, hmLock := p.hmLock, dbgMode := p.dbgMode
      diePwr := Vector.ofFn fun d => p.diePwr.getD d.val 0
      peerChk := Vector.ofFn fun n => p.peerChk.getD n.val false
      egrCap := Vector.ofFn fun n => p.egrCap.getD n.val 0
      rpcOk := Vector.ofFn fun f => p.rpcOk.getD f.val false
      maxLog2 := Vector.ofFn fun f => p.maxLog2.getD f.val 0
      maxWin := Vector.ofFn fun f => p.maxWin.getD f.val 0
      egress := p.egress }

def bootStat (s : State) (n : Nat) : State := s.onPkg fun p => { p with bootStat := BitVec.ofNat 4 n }
/-- R23: the ROM shows 0xE and the failing step, and stops. -/
def bootFail (s : State) (n : Nat) : State :=
  s.onPkg fun p => { p with bootStat := 0xE, bootFailed := some n, bootFailAt := s.sch.cycle }
/-- R23: once stopped, BOOT_STAT alternates 0xE and the failing step's code at 1 Hz: one pair a second, half a second each. -/
def blinkBoot (s : State) : State :=
  match s.pkg.bootFailed with
  | none => s
  | some n => bootStat s (if (s.sch.cycle - s.pkg.bootFailAt) / 650000000 % 2 = 0 then 0xE else n)

/-- A new data key under a key identifier (R220). -/
def newKey (s : State) (kid : Nat) : State := s.onTrn fun t => { t with keyGen := t.keyGen.put kid (t.keyGen.at 0 kid + 1) }

/-- The bits of each quota register that are fields. -/
def vdqMask (k : Nat) : DWord :=
  if k = 1 then 0x0007FF1FFF1FF1FF else if k = 2 then 0x7F1FF7FF else if k = 3 then 0x1FFFFFFFF else if k = 4 then 0x1FFFF
  else if k = 5 then 0x00FF7FFFFFFFFFFF else if k = 7 then 0x1FFFF else if k = 8 then 0x83FFFFFFFFFFFFFF else 0x3FF

/-- What the ROM gives VD 0 (R79): RUN, its quotas, each register in its fields alone, and its frames. DEDUCED: its translation registers
stay at the reset value 0 of R206, since no rule has the ROM write them. -/
def bootVd0 (s : State) : State :=
  let q := fun (k : Nat) => Config.bootVdq ⟨k % 10, Nat.mod_lt _ (by decide)⟩ &&& vdqMask k
  let s := setVd s 0 (fun r =>
    { r with st := .run, priv := bit (Config.bootVdq 0).toNat 5, core := q 1, clu := q 2, cache := q 3, cnt := q 4, queue := q 5, keyValid := true,
             kid := 0, lend := q 7, vtimer := q 8, rpc := q 9 })
  Config.bootFrames.foldl (fun s f => setFrame s f { Frame.free with st := .owned, owner := 0, kid := 0 }) s

/-- The mandrel lane of a core at the monitor entry point (R22 step 7, R141). -/
def mandrelGroup (c : Nat) : Group :=
  { gid := c, mandrel := true, vd := 0, priv := .h, core := c, quarter := 0, slot := 0xFF, col := 0, width := 1, regs := 64, rowBase := 0,
    asid := 0, blk := 0, gix := 0, owner := .monitor, kregs := Vector.replicate 32 0, threads := [Thread.start Config.monitorEntry 0], resid := .core,
    active := true, since := 0, lastSel := 0, yielded := false, heldSince := none, ibuf := [] }
def releaseMandrels (s : State) : State := s.onCores fun x => { x with groups := (List.range 832).map mandrelGroup ++ x.groups }

/-- Steps 1 and 2: fuses and MEAS0; memory, encryption under key identifier 0. -/
def bootStart (s : State) : State :=
  let s := (bootStat s 1).onAtt fun a => { a with meas := Vector.replicate 16 0 }
  let s := extend (extend s 0 Config.romDigest) 0 Config.fusedConfig
  let s := if Config.development then extend s 0 Config.developmentMarker else s
  newKey (bootStat s 2) 0
/-- Steps 3 and 4: the policy image, the boundary registers. -/
def bootPolicy (s : State) (h body : Bytes) : State :=
  let s := extend (bootStat s 3) 1 (headerDigest h)
  let p := Policy.capped (Config.policyOf body)
  extend (applyPolicy (bootStat s 4) p) 2 (shake256 (Config.policyBytes p) 64)
/-- Steps 5 to 7: the monitor image, the identity key, the mandrel lanes. -/
def bootMonitor (s : State) (h body : Bytes) (copyB : Bool) : State :=
  let s := extend (bootStat s 5) 3 (headerDigest h)
  let s := s.onBdy fun b => { b with copyB := copyB, rollback := BitVec.ofNat 8 (field h 5 1) }
  let s := writeMem (bootVd0 s) Config.monitorBase (h ++ body)
  let s := (bootStat s 6).onPkg fun p => { p with identityReady := true, secretReadable := false }
  releaseMandrels (bootStat s 7)

/-- R22: the boot, up to the step that fails. -/
def boot (s : State) (hbmOk : Bool) : State :=
  let s := bootStart s
  if !hbmOk then bootFail s 2
  else
    match bootImage s 0 0x100000 0 0x100000 with
    | none => bootFail s 3
    | some (h, body, _) =>
      let s := bootPolicy s h body
      match bootImage s 0x1000000 0x5000000 1 0x4000000 with
      | none => bootFail s 5
      | some (h, body, b) => bootMonitor s h body b

/-- RESET_RELEASE (R14, R22): a rising edge of MOD_RESET_N, `us` µs after PWR_GOOD rose; an earlier edge than 1 ms does not count. -/
def execResetRelease (us : Nat) (hbmOk : Bool) (s : State) : Answer :=
  .next (if s.pkg.modResetN || !s.pkg.pwrGood then s
    else
      let s := s.onPkg fun p => { p with modResetN := true }
      if us < 1000 then s else boot (s.onPkg fun p => { p with running := true }) hbmOk)

/-- BOARD_NOR_WRITE (R23): only while MOD_RESET_N is low. -/
def execBoardNorWrite (addr : Nat) (data : Bytes) (s : State) : Answer :=
  .next (if s.pkg.modResetN then s else norPut s addr (data.take (0x20000000 - addr)))

/-! Power control (R17 to R19). -/

/-- Step of a controller after a sample: while a limit is exceeded the smallest step that brings it back, which the controller has
found to be `pick`, never lower than it is; otherwise it may be lowered once held 100 µs. -/
def gateStep (exceeded : Bool) (step since cycle pick : Nat) : Nat :=
  if exceeded then min 12 (max step pick)
  else if since + 130000 ≤ cycle then min step pick else step

/-- R17: the combined step of a die, chosen and soon to take effect. -/
def retarget (s : State) (d : Nat) : State :=
  s.onPkg fun p => { p with dies := Vector.ofFn fun i =>
    if i.val = d then { p.dies[i] with next := some (min 12 (max p.dies[i].step p.modStep)) } else p.dies[i] }

/-- R16: a die's temperature is its hottest sensor: 16 sensors on a compute die, 4 on an I/O die or an HBM4 base die. -/
def hottest (die : Nat) (sensors : List Nat) : Nat := (sensors.take (if die < 4 then 16 else 4)).foldl max 0
def anyHot (s : State) : Bool := s.pkg.temps.toList.any (fun t => decide (s.bdy.tThrot.toNat < t))
/-- R238: the unit of a die's power and thermal records. -/
def dieUnit (die : Nat) : Nat := if die < 4 then 0x420 + die else if die < 6 then 0x400 + (die - 4) else 0x410 + (die - 6)
/-- R19: the trip temperature of a die: 105 °C for an HBM4 base die, TTRIP's 110 °C for any other. -/
def tripAt (s : State) (die : Nat) : Nat := if die < 6 then s.bdy.tTrip.toNat else 105

/-- R19: a die has reached its trip temperature: a record while the monitor runs, then cold reset. -/
def thermTrip (s : State) (die : Fin 22) : State :=
  let s := if s.pkg.running && s.pkg.bootFailed.isNone then
      flushRecs (offerRec s 0
        { type := 0x0A, sev := 3, vd := 0, unit := dieUnit die, addr := some (if die.val < 4 then die.val else dieUnit die),
          data0 := s.pkg.temps[die], data1 := if h : die.val < 4 then s.pkg.dies[die.val].inEffect else 0 })
    else s
  powerDown s

/-- The temperature of a die measured (R16), and THERM_ALERT_N (R17). -/
def sampleTemp (s : State) (die : Fin 22) (sensors : List Nat) : State :=
  let s := s.onPkg fun k => { k with temps := k.temps.set die (hottest die sensors) }
  s.onPkg fun k => { k with thermAlertN := !anyHot s }

/-- R17: a compute die's controller chooses its step. -/
def gateDie (s : State) (die : Die) (watts temp pick : Nat) : State :=
  let p := s.pkg.dies[die]
  let hot := decide (s.bdy.diePwr[die].toNat < watts) || decide (s.bdy.tThrot.toNat < temp)
  let step := gateStep hot p.step p.since s.sch.cycle pick
  let q : DiePower := { p with watts := watts, step := step, since := if step = p.step then p.since else s.sch.cycle }
  let s := s.onPkg fun k => { k with dies := k.dies.set die q }
  if step = p.step then s
  else
    let s := offerRec (retarget s die.val) 0
      { type := 0x0A, sev := 0, vd := 0, unit := dieUnit die.val, addr := some die.val, data0 := temp, data1 := step }
    flushRecs ((rangeFrom (208 * die.val) 208).foldl (fun s c => setMip s c 5) s)

/-- DIE_POWER_SAMPLE (R16, R17, R19): the die's sensors are read; at its trip temperature the module trips, and otherwise a compute
die's controller compares power and temperature with its clamps. -/
def execDiePowerSample (die : Fin 22) (watts : Nat) (sensors : List Nat) (pick : Nat) (s : State) : Answer :=
  if !s.pkg.running then .next s
  else
    let s := sampleTemp s die sensors
    if tripAt s die ≤ s.pkg.temps[die] then .next (thermTrip s die)
    else if h : die.val < 4 then .next (gateDie s ⟨die.val, h⟩ watts s.pkg.temps[die] pick)
    else .next s

/-- MODULE_POWER_SAMPLE (R18). -/
def execModulePowerSample (watts pick : Nat) (s : State) : Answer :=
  if !s.pkg.running then .next s
  else
    let step := gateStep (decide (s.bdy.modPwr.toNat < watts)) s.pkg.modStep s.pkg.modSince s.sch.cycle pick
    let old := s.pkg.modStep
    let s := s.onPkg fun k =>
      { k with modWatts := watts, modStep := step, modSince := if step = old then k.modSince else s.sch.cycle }
    if step = old then .next s
    else
      let s := (List.range 4).foldl retarget s
      let s := offerRec s 0 { type := 0x0A, sev := 0, vd := 0, unit := 0x400, addr := some 4, data0 := watts, data1 := step }
      .next (flushRecs (setMipAll s 5))

/-- GATE_STEP_CHANGE (R17): the step chosen for a die takes effect. -/
def execGateStepChange (s : State) : Answer :=
  .next (s.onPkg fun p => { p with dies := Vector.ofFn fun i =>
    if i = s.sch.sel.die then { p.dies[i] with inEffect := p.dies[i].next.getD p.dies[i].inEffect, next := none } else p.dies[i] })

/-- THERMAL_TRIP (R19): a die's sensors are read, in cold reset too; nothing happens below its trip temperature. -/
def execThermalTrip (die : Fin 22) (sensors : List Nat) (s : State) : Answer :=
  let s := sampleTemp s die sensors
  .next (if tripAt s die ≤ s.pkg.temps[die] then thermTrip s die else s)

/-! Physical buffers of the monitor, on paths NE and SG. -/

/-- Do n bytes lie in frames OWNED by VD 0? -/
def spaOwned (s : State) (a n : Nat) : Bool :=
  (List.range ((a + max 1 n - 1) / 65536 + 1 - a / 65536)).all (fun i =>
    decide (a / 65536 + i < frameCount) && (frameAt s (a / 65536 + i)).st == .owned && (frameAt s (a / 65536 + i)).owner == 0)
def spaEng : Eng := ioEng 0 0
def spaWriteF (s : State) : Nat → Nat → Bytes → State
  | 0, _, _ => s
  | fuel + 1, a, b =>
    if b.isEmpty then s
    else spaWriteF (engPhysWrite s spaEng a (b.take (sectorPart a b.length)) false).1 fuel (a + sectorPart a b.length)
      (b.drop (sectorPart a b.length))
def spaWrite (s : State) (a : Nat) (b : Bytes) : State := spaWriteF s (b.length / 32 + 2) a b
def spaReadF (s : State) : Nat → Nat → Nat → State × Bytes
  | 0, _, _ => (s, [])
  | fuel + 1, a, n =>
    if n = 0 then (s, [])
    else
      let m := sectorPart a n
      match engPhysRead s spaEng a m with
      | (s, .ok (b, _)) => let r := spaReadF s fuel (a + m) (n - m); (r.1, b ++ r.2)
      | (s, .error _) => let r := spaReadF s fuel (a + m) (n - m); (r.1, List.replicate m 0 ++ r.2)
def spaRead (s : State) (a n : Nat) : State × Bytes := spaReadF s (n / 32 + 2) a n

/-! The attestation unit (R25 to R27). -/

/-- R25: the seed of the device identity key. -/
def identitySeed (s : State) : Bytes := shake256 (Config.deviceSecret ++ bytes512 (s.att.meas[0])) 48
/-- A signature of the identity key over a message. -/
def identitySign (s : State) (m : Bytes) : Bytes := padTo 1280 (Config.falconSign (identitySeed s) (shake256 m 64))

/-- R26: the report for a nonce. -/
def reportBytes (s : State) (nonce : Bytes) : Bytes :=
  let b := leBytes 4 0x4B574152 ++ leBytes 2 1 ++ leBytes 2 (Config.development.toNat + 2 * s.bdy.copyB.toNat)
    ++ leBytes 8 Config.serial.toNat ++ padTo 64 nonce ++ s.att.meas.toList.flatMap bytes512
    ++ (List.finRange 8).flatMap (fun k => leBytes 1 (Config.rollbackLevel k)) ++ leBytes 8 s.pkg.coldResets ++ List.replicate 32 0
  b ++ identitySign s b

def dropReq (s : State) : State := s.onAtt fun a => { a with queue := a.queue.drop 1 }

/-- The oldest request is served. -/
def serveExtend (s : State) : State :=
  let i := s.att.xIndex.toNat
  let s := if i < 4 then s.onAtt (fun a => { a with xStat := 3 })
    else (extend s i (bytes512 s.att.xDig)).onAtt (fun a => { a with xStat := 0 })
  dropReq (s.onAtt fun a => { a with xDone := true })
def serveReport (s : State) : State :=
  let d := s.att.rDest.toNat
  let ok := d % 64 == 0 && spaOwned s d 2432
  let s := if ok then spaWrite s d (reportBytes s (bytes512 s.att.rNonce)) else s
  dropReq (s.onAtt fun a => { a with rStat := if ok then 0 else 2, rDone := true })

/-- EXTEND_COMPLETE (R27). -/
def execExtendComplete (s : State) : Answer := .next (if s.att.queue.head? = some .extend then serveExtend s else s)
/-- REPORT_COMPLETE (R26). -/
def execReportComplete (s : State) : Answer := .next (if s.att.queue.head? = some .report then serveReport s else s)
/-- Every request of the slots that came first is served, before a HANDSHAKE's report (R27). -/
def serveAtt (s : State) : State :=
  s.att.queue.foldl (fun s r => match r with | .extend => serveExtend s | .report => serveReport s) s

/-! The NOR interface (R31). -/

/-- Does a range touch one that is locked or reserved (R21)? -/
def norLocked (s : State) (a n : Nat) : Bool :=
  let hits := fun (lo hi : Nat) => decide (a < hi ∧ lo < a + n)
  (s.bdy.polLock && hits 0 0x200000) || hits 0x200000 0x1000000 || (s.bdy.hmLock && hits 0x1000000 0x9000000)

/-- The flash work is over, with a status the completion reports. -/
def norEnd (s : State) (st : Nat) : State := s.onAtt fun a => { a with norRun := some (16 + st, 0, 0) }

/-- The status of an operation before it touches the flash: 3, 2, 5 or 0. -/
def norCheck (s : State) (op a n : Nat) : Nat :=
  let buf := s.att.nBuf.toNat
  let shape := match op with
    | 1 => decide (1 ≤ n ∧ n ≤ 65536) && buf % 64 == 0
    | 2 => a % 65536 == 0 && n == 0
    | _ => a % 256 == 0 && n % 256 == 0 && decide (256 ≤ n ∧ n ≤ 65536 ∧ a / 65536 = (a + n - 1) / 65536) && buf % 64 == 0
  let len := if op = 2 then 65536 else n
  if !shape || decide (0x20000000 < a + len) then 3
  else if op ≠ 1 ∧ norLocked s a len then 2
  else if op ≠ 2 ∧ spaOwned s buf n = false then 5
  else 0

/-- An operation in progress is checked and its flash work done. -/
def norWork (s : State) (op : Nat) (work : State → Nat → Nat → State) : State :=
  match s.att.norRun with
  | some (o, a, n) => if o = op then norEnd (if norCheck s op a n = 0 then work s a n else s) (norCheck s op a n) else s
  | none => s

/-- NOR_READ (R31). -/
def execNorRead (s : State) : Answer := .next (norWork s 1 fun s a n => spaWrite s s.att.nBuf.toNat (norBytes s a n))
/-- NOR_ERASE (R31). -/
def execNorErase (s : State) : Answer := .next (norWork s 2 fun s a _ => norPut s a (List.replicate 65536 0xFF))
/-- NOR_PROGRAM (R31): programming only clears bits. -/
def execNorProgram (s : State) : Answer :=
  .next (norWork s 3 fun s a n =>
    let r := spaRead s s.att.nBuf.toNat n
    norPut r.1 a ((List.range n).map (fun i => norByte r.1 (a + i) &&& r.2.getD i 0)))

/-- NOR_OP_COMPLETE (R31): a failure the device reports gives STATUS 4. -/
def execNorOpComplete (devOk : Bool) (s : State) : Answer :=
  .next (match s.att.norRun with
    | some (o, _, _) =>
      if o = 0 ∨ 16 ≤ o then
        s.onAtt fun a => { a with norRun := none, norDone := true, norStatus := if 16 < o then BitVec.ofNat 8 (o - 16)
                                                                                 else if devOk then 0 else 4 }
      else s
    | none => s)

/-! Boundary registers (R28). -/

/-- A field that only falls. -/
def lower {n : Nat} (old : BitVec n) (v : Nat) : BitVec n := if v < old.toNat then BitVec.ofNat n v else old
def maxDie (s : State) : Nat := s.bdy.diePwr.toList.foldl (fun m x => max m x.toNat) 0

/-- A write of BDY_PWR. -/
def bdyPwrWrite (s : State) (v : Nat) : State :=
  let d := bits v 21 12
  s.onBdy fun b =>
    { b with modPwr := lower b.modPwr (bits v 11 0)
             diePwr := if d < maxDie s then b.diePwr.map (fun x => lower x d) else b.diePwr }
def bdyDiepwrWrite (s : State) (d v : Nat) : State :=
  s.onBdy fun b => { b with diePwr := Vector.ofFn fun i => if i.val = d then lower b.diePwr[i] (bits v 9 0) else b.diePwr[i] }
def bdyThermWrite (s : State) (v : Nat) : State :=
  s.onBdy fun b => { b with tThrot := if bits v 7 0 < 60 then b.tThrot else lower b.tThrot (bits v 7 0) }

/-- BDY_PWR_WRITE, BDY_DIEPWR_WRITE, BDY_THERM_WRITE (R28). -/
def execBdyPwrWrite (v : BitVec 64) (s : State) : Answer := .next (bdyPwrWrite s v.toNat)
def execBdyDiepwrWrite (die : Die) (v : BitVec 64) (s : State) : Answer := .next (bdyDiepwrWrite s die.val v.toNat)
def execBdyThermWrite (v : BitVec 64) (s : State) : Answer := .next (bdyThermWrite s v.toNat)

/-- A boundary register by its CSR index less 0x0F00; none where there is no register. -/
def bdyRead (s : State) (k : Nat) : Option Nat :=
  let b := s.bdy
  let net := fun (n : Nat) => (b.egrCap[n]?.getD 0).toNat + 65536 * (b.peerChk[n]?.getD false).toNat
  let pci := fun (f : Nat) =>
    (b.maxWin[f]?.getD 0).toNat + 256 * (b.maxLog2[f]?.getD 0).toNat + 65536 * (b.rpcOk[f]?.getD false).toNat
  if k = 0 then some (b.locked.toNat + 2 * b.copyB.toNat + 256 * b.rollback.toNat)
  else if k = 1 then some (b.modPwr.toNat + 4096 * maxDie s)
  else if k = 2 then some (b.tThrot.toNat + 256 * b.tTrip.toNat)
  else if 4 ≤ k ∧ k < 8 then some (net (k - 4))
  else if 8 ≤ k ∧ k < 10 then some (pci (k - 8))
  else if k = 10 then some (b.hmLock.toNat + 2 * b.polLock.toNat)
  else if k = 11 then some b.dbgMode.toNat
  else if 12 ≤ k ∧ k < 16 then some (b.diePwr[k - 12]?.getD 0).toNat
  else none
/-- A write of one: fields marked RO keep their value. -/
def bdyWrite (s : State) (k v : Nat) : State :=
  if k = 1 then bdyPwrWrite s v else if k = 2 then bdyThermWrite s v
  else if 12 ≤ k ∧ k < 16 then bdyDiepwrWrite s (k - 12) v else s

end Sys2Proof.Machine
end

