-- ==== Sys2Proof/Machine/Slices.lean ====
section
/-! DEFINITION. Slice pairs: registers, checks, and the switch with its save areas (R124 to R130). -/
namespace Sys2Proof.Machine

/-! The region's resources by key. -/

def rowInPair (p : SlicePair) (k : Nat) : Bool := inRange (k / 64 % 512) p.rowBase p.rowCnt
def sramInPair (p : SlicePair) (k : Nat) : Bool := inRange (k / 2048 % 64) p.segBase p.segCnt
def tileInPair (p : SlicePair) (k : Nat) : Bool := inRange (k / 4096 % 16) p.accBase p.accCnt

/-- Blocks of a VD in a pair's region. -/
def pairBlocks (s : State) (n v : Nat) : List Block := s.cores.blocks.filter (fun b => b.inRegion == some n && b.vd == v)
/-- Its groups that are in their cores. -/
def pairGroups (s : State) (n v : Nat) : List Group :=
  s.cores.groups.filter (fun g => g.resid == .core && (pairBlocks s n v).any (fun b => b.bid == g.blk))

/-- Does a cluster hold engine state of the VD in the region: an entry, a context, or a tile that is not clear? -/
def cluState (s : State) (p : SlicePair) (v cl : Nat) : Bool :=
  s.loc.entries.any (fun e => e.1 / 32 == cl && e.2.vd == v && inRange (e.1 % 32) p.rsvBase p.rsvCnt)
    || s.loc.swage.any (fun e => e.1 / 8 == cl && e.2.job.vd == v && inRange (e.1 % 8) p.swgBase p.swgCnt)
    || s.loc.tiles.any (fun e => e.1 / 65536 == cl && tileInPair p e.1)
    || s.loc.tilePoison.any (fun k => k / 1024 == cl && inRange (k / 64 % 16) p.accBase p.accCnt)

/-- Does a core have state to save? Tiles are saved in the core of the cluster that R128 names. -/
def coreState (s : State) (n v core : Nat) : Bool :=
  (pairBlocks s n v).any (fun b => b.core == core) || cluState s (pairAt s n) v (clusterOfCore core)

/-! The save area (R128): writes as offset, bytes and poison. -/

abbrev Part3 := Nat × Bytes × Bool

def wordBytes4 (t : Tab Word) (key n : Nat) : Bytes := (List.range n).flatMap (fun i => leBytes 4 (t.at 0 (key + i)).toNat)

/-- A block's record: its rows, and the words of its named barriers. -/
def blockRecord (b : Block) : Bytes :=
  padTo 256 (leBytes 8 b.rowStart ++ leBytes 8 b.rowCount ++ List.replicate 48 0
    ++ (List.range 16).flatMap (fun j =>
      let r := b.bar j
      leBytes 8 (r.expect.toNat + 2 ^ 16 * r.arr.toNat + 2 ^ 32 * r.phase.toNat + 2 ^ 33 * r.out.toNat)))

def headerParts (s : State) (n v core : Nat) : List Part3 :=
  [(0, padTo 64 (leBytes 4 0x4B575341 ++ leBytes 4 v ++ leBytes 4 core ++ leBytes 4 (pairAt s n).switches.toNat
      ++ leBytes 4 ((pairGroups s n v).filter (fun g => g.core == core)).length), false)]
def groupParts (s : State) (n v core : Nat) : List Part3 :=
  ((pairGroups s n v).filter (fun g => g.core == core)).flatMap (fun g =>
    [(0x400 + 1280 * g.coreSlot, groupRecord s g, false), (0x130000 + 1024 * g.coreSlot, threadExt g, false)])
def blockParts (s : State) (n v core : Nat) : List Part3 :=
  ((pairBlocks s n v).filter (fun b => b.core == core)).map (fun b => (0x14400 + 256 * b.num, blockRecord b, false))
def engineParts (s : State) (n v core : Nat) : List Part3 :=
  let p := pairAt s n
  if core % 4 ≠ 0 then []
  else
    (s.loc.entries.filter (fun e => e.1 / 32 == clusterOfCore core && e.2.vd == v && inRange (e.1 % 32) p.rsvBase p.rsvCnt)).map
        (fun e => (0x18400 + 64 * (e.1 % 32), padTo 64 (leBytes 8 (field e.2.ops 0 4) ++ leBytes 4 e.2.done), false))
      ++ (s.loc.swage.filter (fun e => e.1 / 8 == clusterOfCore core && e.2.job.vd == v && inRange (e.1 % 8) p.swgBase p.swgCnt)).map
        (fun e => (0x18C00 + 128 * (e.1 % 8), padTo 128 (padTo 64 (winOf s e.2.job.core e.2.job.entry).desc ++ leBytes 8 e.2.pos), false))
def rowParts (s : State) (n core : Nat) : List Part3 :=
  let p := pairAt s n
  (List.range 4).flatMap (fun q => (rangeFrom p.rowBase p.rowCnt).map (fun i =>
    (0x20000 + 0x20000 * q + 256 * i, wordBytes4 s.loc.rows (rowKey core q i 0) 64, false)))
def segParts (s : State) (n core : Nat) : List Part3 :=
  let p := pairAt s n
  (rangeFrom (256 * p.segBase) (256 * p.segCnt)).map (fun u =>
    (0xA0000 + 32 * u, wordBytes4 s.loc.sram (sramKey core (8 * u)) 8, sramBad s core (8 * u)))
/-- The tiles a core of the cluster keeps. -/
def coreTiles (p : SlicePair) (core : Nat) : List Nat := (rangeFrom p.accBase p.accCnt).filter (fun t => t / 4 == core % 4)
def tileParts (s : State) (n core : Nat) : List Part3 :=
  (coreTiles (pairAt s n) core).flatMap (fun t => (List.range 64).map (fun r =>
    (0x120000 + 0x4000 * (t % 4) + 256 * r, wordBytes4 s.loc.tiles (tileKey (clusterOfCore core) t r 0) 64,
      tileBad s (clusterOfCore core) t r)))
def saveParts (s : State) (n v core : Nat) : List Part3 :=
  headerParts s n v core ++ groupParts s n v core ++ blockParts s n v core ++ engineParts s n v core ++ rowParts s n core
    ++ segParts s n core ++ tileParts s n core

/-- A core's parts written, on path SW, and released at PKG scope; false when a write faults. -/
def saveCore (s : State) (n v core : Nat) : State × Bool :=
  let e : Eng := { vd := v, asid := 0, cl := clusterOfCore core, die := some (dieOfCore core), ws := [Writer.swage s (clusterOfCore core)] }
  let r := (saveParts s n v core).foldl (fun (a : State × Bool) x =>
    let r := gpaWriteN a.1 e (saveBase s n v core + x.1) x.2.1 x.2.2
    (r.1, a.2 && okOf r.2)) (s, true)
  (engineRelease r.1 (dieOfCore core) v 5 0, r.2)

/-- The tables' key of an entry or context put away for a pair and side. -/
def stashKey (n : Nat) (sideB : Bool) : Nat := 65536 * (1 + 2 * n + sideB.toNat)

/-- R127 steps 1 to 4: the outgoing VD's state is written and its groups and engine work are put away. -/
def sliceOut (s : State) (n v : Nat) (sideB : Bool) : State :=
  let p := pairAt s n
  let cores := (List.range 832).filter (coreState s n v)
  let r := cores.foldl (fun (a : State × Bool) c => let x := saveCore a.1 n v c; (x.1, a.2 && x.2)) (s, true)
  let gs := pairGroups s n v
  let mineE : Nat × AnvilEntry → Bool := fun e => decide (e.1 < 65536) && e.2.vd == v && inRange (e.1 % 32) p.rsvBase p.rsvCnt
  let mineS : Nat × SwageCtx → Bool := fun e => decide (e.1 < 65536) && e.2.job.vd == v && inRange (e.1 % 8) p.swgBase p.swgCnt
  let k := stashKey n sideB
  let s := r.1.onLoc fun l =>
    { l with
      entries := (l.entries.filter mineE).foldl (fun t e => (t.del e.1).put (e.1 + k) e.2) l.entries
      places := l.places.filter (fun x => !l.entries.any (fun e => mineE e && e.1 == x.2.1))
      swage := (l.swage.filter mineS).foldl (fun t e => (t.del e.1).put (e.1 + k) { e.2 with held := none }) l.swage }
  let s := s.onCores fun c =>
    { c with groups := c.groups.map (fun g => if gs.any (fun x => x.gid == g.gid) then { g with resid := .saved n, active := false } else g) }
  let s := onSlice s n (fun p => if cores.isEmpty then p else if sideB then { p with savedB := true } else { p with savedA := true })
  if r.2 then s else ((gs.map (·.owner)).eraseDups).foldl (fun s o => startKill s v o 0) s

/-- R127 step 5, R368: region rows, segments, tiles and their residues read as zero everywhere. -/
def sliceClear (s : State) (n : Nat) : State :=
  let p := pairAt s n
  s.onLoc fun l =>
    { l with
      rows := l.rows.keep (fun k => !rowInPair p k)
      sram := l.sram.keep (fun k => !sramInPair p k)
      sramPoison := l.sramPoison.filter (fun u => !inRange (u / 256 % 64) p.segBase p.segCnt)
      tiles := l.tiles.keep (fun k => !tileInPair p k)
      residue := l.residue.keep (fun k => !tileInPair p k)
      tilePoison := l.tilePoison.filter (fun k => !inRange (k / 64 % 16) p.accBase p.accCnt) }

/-- Words put back into a table from bytes. -/
def putWords4 (t : Tab Word) (key : Nat) (b : Bytes) : Tab Word :=
  (List.range (b.length / 4)).foldl (fun t i => t.write 0 (key + i) (BitVec.ofNat 32 (field b (4 * i) 4))) t

/-- One part read back, and whether it is poisoned; what cannot be read reads as zeros, and the answer says so. -/
def loadPart (s : State) (n v core off len : Nat) : State × Bytes × Bool × Bool :=
  match gpaReadN s { vd := v, asid := 0, cl := clusterOfCore core, die := some (dieOfCore core) } (saveBase s n v core + off) len with
  | (s, .ok (b, p)) => (s, b, p, true)
  | (s, .error _) => (s, List.replicate len 0, false, false)

/-- A part as its bytes alone, and whether they can be used: read, and not poisoned (R240). -/
def loadWhole (s : State) (n v core off len : Nat) : State × Bytes × Bool :=
  let r := loadPart s n v core off len
  (r.1, r.2.1, r.2.2.2 && !r.2.2.1)

/-- Rows, segments and tiles read back; false when one cannot be read, or a row, which has no poison of its own, is poisoned (R240). -/
def loadRows (s : State) (n v core : Nat) : State × Bool :=
  (rowParts s n core).foldl (fun (a : State × Bool) x =>
    let r := loadWhole a.1 n v core x.1 256
    let q := (x.1 - 0x20000) / 0x20000
    (r.1.onLoc fun l => { l with rows := putWords4 l.rows (rowKey core q ((x.1 - 0x20000) % 0x20000 / 256) 0) r.2.1 }, a.2 && r.2.2)) (s, true)
def loadSegs (s : State) (n v core : Nat) : State × Bool :=
  (segParts s n core).foldl (fun (a : State × Bool) x =>
    let r := loadPart a.1 n v core x.1 32
    let w := (x.1 - 0xA0000) / 4
    (setSramBad (r.1.onLoc fun l => { l with sram := putWords4 l.sram (sramKey core w) r.2.1 }) core w r.2.2.1, a.2 && r.2.2.2)) (s, true)
def loadTiles (s : State) (n v core : Nat) : State × Bool :=
  (coreTiles (pairAt s n) core).foldl (fun a t => (List.range 64).foldl (fun (a : State × Bool) i =>
    let r := loadPart a.1 n v core (0x120000 + 0x4000 * (t % 4) + 256 * i) 256
    (setTileBad (r.1.onLoc fun l => { l with tiles := putWords4 l.tiles (tileKey (clusterOfCore core) t i 0) r.2.1 })
      (clusterOfCore core) t i r.2.2.1, a.2 && r.2.2.2)) a) (s, true)
/-- A core's registers, scratchpad and tiles of the region; what cannot be had ends the work that its blocks belong to. -/
def loadCore (s : State) (n v core : Nat) : State :=
  let r := loadRows s n v core
  let g := loadSegs r.1 n v core
  let t := loadTiles g.1 n v core
  if r.2 && g.2 && t.2 then t.1
  else ((((pairBlocks s n v).filter (fun b => b.core == core)).map (·.owner)).eraseDups).foldl (fun s o => startKill s v o 0) t.1
/-- A saved group returns to its place, in the pending set; waiters read their word again, and those whose barrier has turned or whose
move may be done go on (R129, R358). -/
def loadGroup (s : State) (n v : Nat) (g : Group) : State :=
  let a := loadWhole s n v g.core (0x400 + 1280 * g.coreSlot) 1280
  let b := loadWhole a.1 n v g.core (0x130000 + 1024 * g.coreSlot) 1024
  let h := { (g.ofImage a.2.1 b.2.1).joins with resid := .core, active := false, since := s.sch.cycle }
  let s := barResume (setGroup b.1 h) h
  let s := wakeThreads s (fun x _ y => x.gid == g.gid && y.st == .wait .move) Thread.again
  let s := ((List.range h.threads.length).filter (fun i => match (h.thread i).st with | .wait (.waita _) => true | _ => false)).foldl
    (fun s i => s.queue (.ev .waitaWake { Sel.none with n := g.gid, k := i })) s
  if a.2.2 && b.2.2 then s else startKill s v g.owner 0
/-- A block's barriers as its record has them. -/
def loadBlock4 (s : State) (n v : Nat) (b : Block) : State :=
  let r := loadWhole s n v b.core (0x14400 + 256 * b.num) 256
  let s := if r.2.2 then r.1 else startKill r.1 v b.owner 0
  onBlock s b.bid (fun b =>
    { b with bars := (List.range 16).foldl (fun t j =>
        let w := field r.2.1 (64 + 8 * j) 8
        t.write Barrier.reset j { expect := BitVec.ofNat 16 w, arr := BitVec.ofNat 16 (w / 2 ^ 16), phase := bit w 32,
                                  out := BitVec.ofNat 15 (w / 2 ^ 33) }) [] })

/-- An Anvil entry and a Swage context return from where they were put away, with what their records hold: the offset of the parameter
block and the K-steps done; the descriptor and the bytes moved. What cannot be read ends their work. -/
def loadEntry (s : State) (n v key : Nat) (e : AnvilEntry) : State :=
  let r := loadWhole s n v (4 * (key / 32)) (0x18400 + 64 * (key % 32)) 64
  let b := r.2.1
  let s := r.1.onLoc fun l =>
    { l with entries := l.entries.put key { e with ops := splice e.ops 0 (leBytes 4 (field b 0 8)), done := field b 8 4 } }
  if r.2.2 then s else startKill s v (blockOwner s e.blk) 0
def loadContext (s : State) (n v key : Nat) (c : SwageCtx) : State :=
  let r := loadWhole s n v (4 * (key / 8)) (0x18C00 + 128 * (key % 8)) 128
  let b := r.2.1
  let s := r.1.onLoc fun l => { l with swage := l.swage.put key { c with pos := field b 64 8 } }
  let s := onWin s c.job.core c.job.entry (fun w => { w with desc := b.take 64 })
  if r.2.2 then s else startKill s v (blockOwner s (winOf s c.job.core c.job.entry).blk) 0

/-- R127 step 6: a VD's saved state is restored. The cores that hold it are those whose header is that of the last switch. -/
def sliceIn (s : State) (n v : Nat) (sideB : Bool) : State :=
  let cores := (List.range 832).filter (fun c =>
    let h := (loadPart s n v c 0 64).2.1
    field h 0 4 == 0x4B575341 && field h 12 4 == ((pairAt s n).switches - 1).toNat)
  let s := cores.foldl (fun s c => loadCore s n v c) s
  let s := (pairBlocks s n v).foldl (fun s b => loadBlock4 s n v b) s
  let s := (s.cores.groups.filter (fun g => g.resid == .saved n && g.vd == v)).foldl (fun s g => loadGroup s n v g) s
  let k := stashKey n sideB
  let es := s.loc.entries.filter (fun e => e.1 / 65536 * 65536 == k)
  let cs := s.loc.swage.filter (fun e => e.1 / 65536 * 65536 == k)
  let s := es.foldl (fun s e => loadEntry (s.onLoc fun l => { l with entries := l.entries.del e.1 }) n v (e.1 - k) e.2) s
  let s := cs.foldl (fun s e => loadContext (s.onLoc fun l => { l with swage := l.swage.del e.1 }) n v (e.1 - k) e.2) s
  onSlice s n (fun p => if sideB then { p with savedB := false } else { p with savedA := false })

/-- The region passes to the other VD: what it had saved is restored. -/
def sliceGive (s : State) (n : Nat) (toB : Bool) : State :=
  let p := pairAt s n
  let s := onSlice s n (fun p => { p with holderB := toB })
  if (if toB then p.savedB else p.savedA) then sliceIn s n (if toB then p.vdb.toNat else p.vda.toNat) toB else s

/-- SLICE_SWITCH (R126, R127): at a switch instant of a pair that switches. -/
def sliceSwitch (s : State) (n : Nat) : State :=
  let p := pairAt s n
  if !p.en || p.stopped || decide (nsNow s < p.nextNs) then s
  else
    let s := onSlice s n (fun p => { p with switching := true })
    let s := sliceClear (sliceOut s n p.holder p.holderB) n
    let s := sliceGive s n (!p.holderB)
    onSlice s n (fun p => { p with switching := false, switches := p.switches + 1, nextNs := max (p.nextNs + 1000 * p.slice.toNat) (nsNow s) })
def execSliceSwitch (s : State) : Answer := .next (flushRecs (sliceSwitch s s.sch.sel.n))

/-- What a VD had put away for a pair is discarded. -/
def dropStash (s : State) (n : Nat) (sideB : Bool) : State :=
  let k := stashKey n sideB
  s.onLoc fun l =>
    { l with entries := l.entries.filter (fun e => e.1 / 65536 * 65536 != k), swage := l.swage.filter (fun e => e.1 / 65536 * 65536 != k) }

/-- R130: the reset of a VD stops switching in its pairs; the other VD keeps or receives the region. Its own work is already gone. -/
def resetPairs (s : State) (v : Nat) : State :=
  (List.range 4).foldl (fun s n =>
    let p := pairAt s n
    if p.en && (p.vda.toNat == v || p.vdb.toNat == v) then
      let mineB := p.vdb.toNat == v
      let s := onSlice (dropStash s n mineB) n (fun p =>
        { p with stopped := true, savedA := p.savedA && mineB, savedB := p.savedB && !mineB })
      if p.holderB = mineB then
        -- the saved header names the last completed switch
        sliceGive (sliceClear s n) n (!mineB)
      else s
    else s) s

/-! Registers (R124, R125). -/

/-- The region lies inside a VD's ranges. -/
def pairInside (s : State) (p : SlicePair) : Bool :=
  let v := p.vda.toNat
  let fits := fun (b n vb vn : Nat) => n == 0 || decide (vb ≤ b ∧ b + n ≤ vb + vn)
  fits p.slotBase p.slotCnt (slotBase s v) (slotCnt s v) && fits p.rowBase p.rowCnt (rowBase s v) (rowCnt s v)
    && fits p.segBase p.segCnt (segBase s v) (segCnt s v) && fits p.swgBase p.swgCnt (swgBase s v) (swgCnt s v)
    && fits p.accBase p.accCnt (accBase s v) (accCnt s v) && fits p.rsvBase p.rsvCnt (rsvBase s v) (rsvCnt s v)
/-- Do two ranges, given by first and count, have a member in common? -/
def overlap (b n c m : Nat) : Bool := decide (b < c + m ∧ c < b + n ∧ 0 < n ∧ 0 < m)
def pairsCross (p q : SlicePair) : Bool :=
  overlap p.slotBase p.slotCnt q.slotBase q.slotCnt || overlap p.rowBase p.rowCnt q.rowBase q.rowCnt
    || overlap p.segBase p.segCnt q.segBase q.segCnt || overlap p.swgBase p.swgCnt q.swgBase q.swgCnt
    || overlap p.accBase p.accCnt q.accBase q.accCnt || overlap p.rsvBase p.rsvCnt q.rsvBase q.rsvCnt

/-- Does a range translate writable on frames its VD owns, leaf by leaf and frame by frame? None while a page of it is being migrated
(R209). -/
def mappedOwn (s : State) (v hi : Nat) : Nat → Nat → Option Bool
  | 0, _ => some true
  | n + 1, a =>
    if hi ≤ a then some true
    else
      match (stage2 s 0 v a (fun _ w _ => w)).2 with
      | .error .mig => none
      | .error _ => some false
      | .ok l =>
        match l.target.plus (a % l.size) with
        | .spa x => if l.w && ownsFrame s v x then mappedOwn s v hi n (min (a / 65536 * 65536 + 65536) (a / l.size * l.size + l.size)) else some false
        | _ => some false
/-- A whole save area: 832 parts of 1,280 KiB (R128). -/
def saveOk (s : State) (v base : Nat) : Option Bool := mappedOwn s v (base + 832 * 0x140000) 266240 base
/-- Two checks together, of which either may not be known yet. -/
def bothOk : Option Bool → Option Bool → Option Bool
  | some x, some y => some (x && y)
  | _, _ => none
/-- Both save areas of a pair. -/
def savesOk (s : State) (p : SlicePair) : Option Bool :=
  bothOk (saveOk s p.vda.toNat (bits p.saveA.toNat 63 20 * 2 ^ 20)) (saveOk s p.vdb.toNat (bits p.saveB.toNat 63 20 * 2 ^ 20))

/-- The cases of R125, the save areas apart. -/
def pairRefused (s : State) (n : Nat) (p : SlicePair) : Bool :=
  let a := p.vda.toNat
  let b := p.vdb.toNat
  let up := fun (v : Nat) => vdState s v == .built || vdState s v == .run
  a == b || a == 0 || b == 0 || !up a || !up b || !pairInside s p
    || (p.slotCnt != 0 && inRange (slotBase s a) p.slotBase p.slotCnt) || overlap p.rowBase p.rowCnt (rowBase s a) 32
    || (rangeFrom p.segBase p.segCnt).any (fun g => bit (waysOf s a).ways.toNat g)
    || decide (p.slice.toNat < 10)
    || (List.range 4).any (fun m => m != n && (pairAt s m).en && pairsCross p (pairAt s m))

/-- Does a block of VDA, placed before EN, hold a group slot, rows or scratchpad of the region? -/
def touchesPair (s : State) (p : SlicePair) (b : Block) : Bool :=
  b.vd == p.vda.toNat &&
    (s.cores.groups.any (fun g => g.blk == b.bid && g.resid == .core && (inRange g.slot p.slotBase p.slotCnt || overlap g.rowBase g.rows p.rowBase p.rowCnt))
      || overlap b.rowStart b.rowCount (32 * p.segBase) (32 * p.segCnt))
/-- Such blocks, and the teams they are of, are inside the region from EN on. -/
def claimBlocks (s : State) (n : Nat) : State :=
  let hit := s.cores.blocks.filter (touchesPair s (pairAt s n))
  let mine : Block → Bool := fun b => hit.any (fun x => x.bid == b.bid || (x.team.isSome && x.team == b.team))
  s.onCores fun c => { c with blocks := c.blocks.map (fun b => if mine b then { b with inRegion := some n } else b) }

/-- The pair as a write of SLC_CTL makes it. -/
def SlicePair.wrote (p : SlicePair) (x : Nat) : SlicePair :=
  { p with vda := BitVec.ofNat 4 (bits x 43 40), vdb := BitVec.ofNat 4 (bits x 47 44), slice := BitVec.ofNat 16 (bits x 63 48) }
/-- Does a write of SLC_CTL that sets EN wait for a page of a save area (R209)? -/
def slcWaits (s : State) (n x : Nat) : Bool :=
  let q := (pairAt s n).wrote x
  !(pairAt s n).en && bit x 0 && !pairRefused s n q && (savesOk s q).isNone
/-- A write that sets EN of a pair that is not enabled; one that waits changes nothing yet. -/
def sliceEnable (s : State) (n x : Nat) : State :=
  let q := (pairAt s n).wrote x
  if slcWaits s n x then s
  else if pairRefused s n q || savesOk s q == some false then onSlice s n (fun p => { p with refused := true })
  else claimBlocks (onSlice s n (fun p =>
    { q with en := true, refused := p.refused && !bit x 1, holderB := false, savedA := false, savedB := false, stopped := false,
             nextNs := (nsNow s / 1000 + 1) * 1000 + 1000 * q.slice.toNat })) n
/-- A write that clears EN of an enabled pair; no block lies in its region any more. -/
def sliceDisable (s : State) (n : Nat) : State :=
  let p := pairAt s n
  if (if p.holderB then p.savedA else p.savedB) then onSlice s n (fun p => { p with refused := true })
  else
    (onSlice s n (fun p => { p with en := false, stopped := false })).onCores fun c =>
      { c with blocks := c.blocks.map (fun b => if b.inRegion = some n then { b with inRegion := none } else b) }

/-- A write of SLC_CTL. -/
def slcCtlWrite (s : State) (n x : Nat) : State :=
  if (pairAt s n).en then (if bit x 0 then s else sliceDisable s n)
  else if bit x 0 then sliceEnable s n x
  else onSlice s n (fun p => { p.wrote x with refused := p.refused && !bit x 1 })
def slcWrite (s : State) (n k x : Nat) : State :=
  let w : DWord := BitVec.ofNat 64 x
  if k = 0 then slcCtlWrite s n x
  else if (pairAt s n).en then s
  else if k = 1 then onSlice s n (fun p => { p with core := w &&& 0x1FFF1FF1FF })
  else if k = 2 then onSlice s n (fun p => { p with clu := w &&& 0x7F1FF7FF })
  else if k = 3 then onSlice s n (fun p => { p with saveA := BitVec.ofNat 64 (x / 2 ^ 20 * 2 ^ 20) })
  else onSlice s n (fun p => { p with saveB := BitVec.ofNat 64 (x / 2 ^ 20 * 2 ^ 20) })
def slcRead (s : State) (n k : Nat) : Nat :=
  let p := pairAt s n
  if k = 0 then
    p.en.toNat + 2 * p.refused.toNat + 4 * p.switching.toNat + 8 * p.holderB.toNat + 2 ^ 16 * p.switches.toNat + 2 ^ 32 * p.savedA.toNat
      + 2 ^ 33 * p.savedB.toNat + 2 ^ 40 * p.vda.toNat + 2 ^ 44 * p.vdb.toNat + 2 ^ 48 * p.slice.toNat
  else if k = 1 then p.core.toNat else if k = 2 then p.clu.toNat else if k = 3 then p.saveA.toNat else p.saveB.toNat

/-- SLICE_PAIR_ENABLE and SLICE_PAIR_DISABLE (R125). -/
def execSlicePairEnable (n : Fin 4) (v : BitVec 64) (s : State) : Answer := .next (slcCtlWrite s n.val (setBits v.toNat 0 0 1))
def execSlicePairDisable (s : State) : Answer := .next (if (pairAt s s.sch.sel.n).en then sliceDisable s s.sch.sel.n else s)

end Sys2Proof.Machine
end

