-- ==== Sys2Proof/Machine/Rpc.lean ====
section
/-! DEFINITION. The RPC unit: messages and their acceptance (R65 to R71), replies and events, handshakes and secure domains (R34, R72,
R73), MSI-X (R51). -/
namespace Sys2Proof.Machine

/-! Packets that leave a port (R29). -/

/-- A type 0x09 record (R432). -/
def netRec (s : State) (v reason addr data1 : Nat) : State :=
  offerRec s v { type := 0x09, sev := 0, vd := v, unit := 0x400, addr := some addr, data0 := reason, data1 := data1 }

/-- R29: does the egress peer table name an address? -/
def egressOk (s : State) (addr : Bytes) : Bool :=
  let a := leNat addr.reverse
  s.bdy.egress.any (fun e => a / 2 ^ (128 - min 128 e.2) == e.1.toNat / 2 ^ (128 - min 128 e.2))

/-- Is a packet from a port to an address discarded? -/
def egressBad (s : State) (port : Nat) (addr : Bytes) : Bool := (s.bdy.peerChk[port]?.getD false) && !egressOk s addr
/-- A discarded packet of VD v is counted in the monitor ring. -/
def egressDrop (s : State) (v port : Nat) : State :=
  let s := netRec s 0 1 port v
  s.onNet fun n => { n with blocked := n.blocked.put port (n.blocked.at 0 port + 1) }
/-- A packet of VD v to an address and LPID leaves a port, unless the egress check discards it. -/
def ueSend (s : State) (v port : Nat) (addr : Bytes) (rpid : Nat) (bad : Bool) (body : Bytes) : State :=
  if egressBad s port addr then egressDrop s v port else s.emit (.ue port (addr ++ leBytes 2 rpid) bad body)

/-! MSI-X (R51). -/

/-- The vector's message is sent, or is pending while the vector is masked. -/
def msixFire (s : State) (ep : Nat) : State :=
  let e := (s.pcie.msixTable[ep]?.getD 0).toNat
  if bit e 96 then s.onPcie fun p => { p with msixPending := p.msixPending.setIfInBounds ep true }
  else s.emit (.msix ep (bits e 63 0) (bits e 95 64))

/-! One VD's RPC state. -/

def RpcVd.reset : RpcVd :=
  { key := none, high := 0, map := 0, rx := 0, slots := [], result := 0, subMask := 0, subAddr := none, evSeq := 0 }
def rpcOf (s : State) (v : Nat) : RpcVd := s.rpc.vds.at RpcVd.reset v
def onRpcVd (s : State) (v : Nat) (f : RpcVd → RpcVd) : State :=
  s.onRpc fun r => { r with vds := r.vds.put v (f (r.vds.at RpcVd.reset v)) }

/-! Messages (R65, R66). -/

def rpcMagic : Nat := 0x4B574450
def maxBody : Nat := 1048544
abbrev mVd (m : Bytes) : Nat := field m 5 1 % 16
abbrev mCall (m : Bytes) : Nat := field m 6 2
abbrev mSeq (m : Bytes) : Nat := field m 8 8
abbrev mLen (m : Bytes) : Nat := field m 16 4
abbrev mBody (m : Bytes) : Bytes := (m.drop 32).take (mLen m)

/-- R66: the MAC of a message under a key; without a key it is zero. -/
def rpcMac (key : Option Bytes) (m : Bytes) : Bytes :=
  match key with
  | some k => kmac256 k (splice m 24 (List.replicate 8 0)) 8 (ascii "KWRPC")
  | none => List.replicate 8 0
/-- A message with its MAC. -/
def withMac (key : Option Bytes) (m : Bytes) : Bytes := splice m 24 (rpcMac key m)
/-- A reply of the device's own. -/
def replyMsg (v call seq status : Nat) (body : Bytes) : Bytes :=
  leBytes 4 rpcMagic ++ leBytes 1 1 ++ leBytes 1 v ++ leBytes 2 (call % 32768 + 32768) ++ leBytes 8 seq ++ leBytes 4 body.length
    ++ leBytes 2 status ++ leBytes 10 0 ++ body

/-- R69: a message of VD v leaves by a transport; `bad` marks one whose bytes came out of memory poisoned (R64). -/
def rpcSend (s : State) (v : Nat) (via : Transport) (bad : Bool) (m : Bytes) : State :=
  match via with
  | .ue port src rpid => ueSend s v port.val src rpid bad m
  | .pcie ep w => msixFire (s.emit (.pcie ep.val (bits (lwdOf s ep.val w.val).tgt.toNat 63 16 * 65536) bad m)) ep.val
def rpcReplyTo (s : State) (v : Nat) (via : Transport) (call seq status : Nat) (body : Bytes) : State :=
  rpcSend s v via false (withMac (rpcOf s v).key (replyMsg v call seq status body))

/-! Acceptance (R67). -/

/-- Is a SEQ new to the window, and the window once it is accepted? -/
def seqNew (r : RpcVd) (q : Nat) : Bool := decide (r.high < q + 64) && (decide (r.high < q) || !bit r.map.toNat (r.high - q))
def seqTake (r : RpcVd) (q : Nat) : RpcVd :=
  if r.high < q then { r with high := q, map := BitVec.ofNat 64 (r.map.toNat * 2 ^ min 64 (q - r.high) + 1) }
  else { r with map := BitVec.ofNat 64 (setBits r.map.toNat (r.high - q) (r.high - q) 1) }

/-- The checks of a message: HANDSHAKE and ATTEST carry MAC zero and are exempt from the window. -/
def rpcOk (s : State) (m : Bytes) : Bool :=
  let open_ := mCall m == 1 || mCall m == 2
  decide (32 + mLen m ≤ m.length) && decide (mLen m ≤ maxBody) && field m 0 4 == rpcMagic && field m 4 1 == 1 && field m 22 2 == 0
    && decide (field m 5 1 < 16) && (mVd m == 0 || vdRuns s (mVd m))
    && (if open_ then field m 24 8 == 0
        else (rpcOf s (mVd m)).key.isSome && (m.drop 24).take 8 == rpcMac (rpcOf s (mVd m)).key (m.take (32 + mLen m))
          && seqNew (rpcOf s (mVd m)) (mSeq m))

def transportCode : Transport → Nat
  | .ue p _ _ => p.val
  | .pcie e _ => 0x100 + e.val

/-- The lowest free slot of a receive area (R71). -/
def freeSlot (s : State) (v : Nat) : Option Nat :=
  (List.range (min 16 (bits (rpcOf s v).rx.toNat 4 0))).find? (fun i => ((rpcOf s v).slots.find i).isNone)
def slotGpa (s : State) (v i : Nat) : Nat := bits (rpcOf s v).rx.toNat 63 20 * 1048576 + 1048576 * i

/-- R70: the core whose queue receives a VD's requests. -/
def rpcTarget (s : State) (v : Nat) : Nat := if v = 0 then 0 else rpcCore s v

/-- The body of a SUBSCRIBE is good: a mask of the codes 0 to 4 (R78). -/
def maskOk (b : Bytes) : Bool := b.length == 8 && decide (field b 0 8 < 32)

/-- The VD whose receive area takes a request: VD 0 for ATTEST. -/
def slotVd (m : Bytes) : Nat := if mCall m = 2 then 0 else mVd m

/-- R70, R71: an accepted request is copied to a free slot and posted, waits while the slot's page is being migrated (R209), or answered BUSY when its queue takes no entry (R147, R150); a slot that cannot be written is answered
FAULT. An ATTEST request takes a slot of VD 0. Accepting a SUBSCRIBE with a good mask records it and where it came from (R78). -/
def rpcPlace (s : State) (via : Transport) (m : Bytes) : State :=
  let v := slotVd m
  let busy := fun (s : State) (st : Nat) => rpcReplyTo s (mVd m) via (mCall m) (mSeq m) st []
  match freeSlot s v with
  | none => busy s 3
  | some i =>
    let q := svqOf s (rpcTarget s v) v
    if q.count = 256 ∨ bit q.base.toNat 0 = false ∨ halted s (rpcTarget s v) = true then busy s 3
    else
      match gpaWriteN s (regEng v) (slotGpa s v i) (m.take (32 + mLen m)) with
      | (_, .error .wait) => s.onRpc fun r => { r with late := r.late ++ [(via, m)] }
      | (s, .error _) => busy s 5
      | (s, .ok _) =>
        let q : RpcReq := { vd := mVd m, seq := BitVec.ofNat 64 (mSeq m), call := BitVec.ofNat 16 (mCall m), via := via, was := (rpcOf s v).subMask }
        let s := onRpcVd s v (fun r => { r with slots := r.slots.put i q })
        let s := if mCall m = 0x105 ∧ maskOk (mBody m) = true then
            onRpcVd s v (fun r => { r with subMask := BitVec.ofNat 64 (field (mBody m) 0 8),
                                           subAddr := if field (mBody m) 0 8 = 0 then none else some via })
          else s
        let s := postDirect s (rpcTarget s v) v 0x23 (slotGpa s v i) (leBytes 8 (mSeq m) ++ leBytes 2 (mCall m) ++ leBytes 1 i) .rpc
        setMip s (rpcTarget s v) 2

/-- Requests whose slot's page was being migrated are placed again. -/
def tickRpc (s : State) : State := s.rpc.late.foldl (fun s x => rpcPlace s x.1 x.2) (s.onRpc fun r => { r with late := [] })

/-! Handshakes (R72, R73). -/

abbrev hMode (m : Bytes) : Nat := field (mBody m) 0 1
abbrev hNonce (m : Bytes) : Bytes := ((mBody m).drop 64).take 64
abbrev hField (m : Bytes) : Bytes := ((mBody m).drop 128).take 1568

/-- Fields that must be zero are, and the body has its length. -/
def hShape (m : Bytes) : Bool :=
  mLen m == 1696 &&
    (if hMode m = 0 then zeros (mBody m) 1 64 else if hMode m = 1 then zeros (mBody m) 2 64
     else zeros (mBody m) 5 64 && (hMode m != 2 || zeros (mBody m) 128 1696))
/-- The VD a request names is in RUN; VD 0 always is. -/
def vdUp (s : State) (v : Nat) : Bool := decide (v < 16) && vdRuns s v

/-- 32 bytes of the attestation unit's random source. -/
def randomSeed (s : State) : State × Bytes :=
  (s.onSch fun c => { c with free := c.free + 1 }, (List.range 32).map (Config.randomByte s.sch.free))

/-- The report of a handshake with its nonce. -/
def hReport (s : State) (parts : Bytes) : Bytes := reportBytes s (shake256 parts 64)

/-- R67: a completed HANDSHAKE clears the window of the VD of its header. -/
def hDone (s : State) (v : Nat) : State := onRpcVd s v (fun r => { r with high := 0, map := 0 })
def hReply (s : State) (via : Transport) (m : Bytes) (status : Nat) (body : Bytes) : State :=
  rpcReplyTo s (mVd m) via (mCall m) (mSeq m) status body
def hBad (s : State) (via : Transport) (m : Bytes) : State := hReply s via m 2 []

/-- HANDSHAKE_RPC_KEY (R72): mode 0. That a VD that has left RUN gets no key, and BAD_ARG, is the model's choice; a reset has answered
its requests before (R84). -/
def execHandshakeRpcKey (via : Transport) (msg : Bytes) (s : State) : Answer :=
  let s := serveAtt s
  if hMode msg ≠ 0 ∨ hShape msg = false ∨ vdUp s (mVd msg) = false then .next (flushRecs (hBad s via msg))
  else
    let r := randomSeed s
    let e := Config.kemEncaps (hField msg) r.2
    let key := shake256 (e.2 ++ ascii "KW-RPC" ++ leBytes 1 (mVd msg)) 32
    let body := padTo 1568 e.1 ++ hReport r.1 (hNonce msg ++ hField msg ++ padTo 1568 e.1)
    .next (flushRecs (hDone (onRpcVd (rpcSend r.1 (mVd msg) via false (withMac (some key) (replyMsg (mVd msg) 1 (mSeq msg) 0 body))) (mVd msg)
      (fun x => { x with key := some key })) (mVd msg)))

/-- The lowest free index of a secure domain (R34). -/
def freeDomain (s : State) : Option Nat := (List.range 4096).find? (fun i => (s.net.domains.find i).isNone)
/-- The domains of the same pair are gone. -/
def dropPair (s : State) (d : Domain) : State :=
  s.onNet fun n => { n with domains := n.domains.filter (fun e =>
    !(e.2.vd == d.vd && e.2.peerPkg == d.peerPkg && e.2.peerVd == d.peerVd)) }
/-- A domain installed: its index, lowest free. -/
def putDomain (s : State) (d : Domain) : State × Option Nat :=
  let s := dropPair s d
  match freeDomain s with
  | some i => (s.onNet fun n => { n with domains := n.domains.put i d, flows := n.flows.filter (·.dom != i) }, some i)
  | none => (s, none)

/-- The end of a handshake that installs a domain: the reply ends with its index; with no index left the request is BUSY. -/
def hInstall (s : State) (via : Transport) (m : Bytes) (d : Domain) (body : State → Bytes) : State :=
  match putDomain s d with
  | (s, some i) => hDone (hReply s via m 0 (body s ++ leBytes 4 i)) (mVd m)
  | (s, none) => hReply s via m 3 []

/-- HANDSHAKE_LOCAL_DOMAIN (R72): mode 1, between VD 0 of the header and the VD of byte 1. That VD 0 there is BAD_ARG is the model's
choice: the spec does not say what a domain of VD 0 with itself is. -/
def execHandshakeLocalDomain (via : Transport) (msg : Bytes) (s : State) : Answer :=
  let s := serveAtt s
  let b := field (mBody msg) 1 1
  if hMode msg ≠ 1 ∨ hShape msg = false ∨ mVd msg ≠ 0 ∨ b = 0 ∨ vdUp s b = false then .next (flushRecs (hBad s via msg))
  else
    let r := randomSeed s
    let e := Config.kemEncaps (hField msg) r.2
    let key := shake256 (e.2 ++ ascii "KW-SD" ++ leBytes 1 0 ++ leBytes 1 b) 32
    .next (flushRecs (hInstall r.1 via msg { vd := 0, peerPkg := none, peerVd := b, key := key } (fun s =>
      padTo 1568 e.1 ++ hReport s (hNonce msg ++ hField msg ++ padTo 1568 e.1))))

abbrev hLocal (m : Bytes) : Nat := field (mBody m) 1 1
abbrev hPkg (m : Bytes) : Nat := field (mBody m) 2 2
abbrev hPeer (m : Bytes) : Nat := field (mBody m) 4 1
/-- The tests of modes 2 to 4 (R72, R73). -/
def hCross (s : State) (m : Bytes) (mode : Nat) : Bool :=
  hMode m == mode && hShape m && mVd m == 0 && vdUp s (hLocal m)
/-- R73: the key of a domain between packages. -/
def crossKey (secret : Bytes) (m : Bytes) : Bytes :=
  let a := leBytes 2 Config.pkgId.toNat ++ leBytes 1 (hLocal m)
  let b := leBytes 2 (hPkg m) ++ leBytes 1 (hPeer m)
  let first := decide (Config.pkgId.toNat < hPkg m) || (Config.pkgId.toNat == hPkg m && decide (hLocal m ≤ hPeer m))
  shake256 (secret ++ ascii "KW-SD" ++ if first then a ++ b else b ++ a) 32
def isPending (m : Bytes) (p : PendingKem) : Bool := p.vd == hLocal m && p.pkg == hPkg m && p.peerVd == hPeer m

/-- HANDSHAKE_OPEN (R73): mode 2. -/
def execHandshakeOpen (via : Transport) (msg : Bytes) (s : State) : Answer :=
  let s := serveAtt s
  if !hCross s msg 2 then .next (flushRecs (hBad s via msg))
  else
    let r := randomSeed s
    let k := Config.kemKeygen r.2
    let s := r.1.onRpc fun x => { x with pending := x.pending.filter (fun p => !isPending msg p)
                                                  ++ [{ vd := hLocal msg, pkg := hPkg msg, peerVd := hPeer msg, dk := k.2 }] }
    .next (flushRecs (hDone (hReply s via msg 0 (padTo 1568 k.1 ++ hReport s (hNonce msg ++ padTo 1568 k.1))) (mVd msg)))

/-- HANDSHAKE_ACCEPT (R73): mode 3. -/
def execHandshakeAccept (via : Transport) (msg : Bytes) (s : State) : Answer :=
  let s := serveAtt s
  if !hCross s msg 3 then .next (flushRecs (hBad s via msg))
  else
    let r := randomSeed s
    let e := Config.kemEncaps (hField msg) r.2
    .next (flushRecs (hInstall r.1 via msg { vd := hLocal msg, peerPkg := some (hPkg msg), peerVd := hPeer msg, key := crossKey e.2 msg } (fun s =>
      padTo 1568 e.1 ++ hReport s (hNonce msg ++ hField msg ++ padTo 1568 e.1))))

/-- HANDSHAKE_COMPLETE (R73): mode 4. -/
def execHandshakeComplete (via : Transport) (msg : Bytes) (s : State) : Answer :=
  let s := serveAtt s
  match s.rpc.pending.find? (isPending msg) with
  | some p =>
    if !hCross s msg 4 then .next (flushRecs (hBad s via msg))
    else
      let s := s.onRpc fun x => { x with pending := x.pending.filter (fun q => !isPending msg q) }
      .next (flushRecs (hInstall s via msg { vd := hLocal msg, peerPkg := some (hPkg msg), peerVd := hPeer msg,
                                             key := crossKey (Config.kemDecaps p.dk (hField msg)) msg } (fun s =>
        hReport s (hNonce msg ++ hField msg))))
  | none => .next (flushRecs (hBad s via msg))

/-- A message arrives (R67, R68): discarded with a record, served as a handshake, or placed. -/
def rpcArrive (s : State) (via : Transport) (m : Bytes) : State :=
  if !rpcOk s m then
    offerRec s 0 { type := 0x09, sev := 0, vd := 0, unit := 0x400, addr := some (transportCode via), data0 := 9, data1 := mSeq m }
  else if mCall m = 1 then
    match hMode m with
    | 0 => s.push (.ev (.handshakeRpcKey via m) Sel.none)
    | 1 => s.push (.ev (.handshakeLocalDomain via m) Sel.none)
    | 2 => s.push (.ev (.handshakeOpen via m) Sel.none)
    | 3 => s.push (.ev (.handshakeAccept via m) Sel.none)
    | 4 => s.push (.ev (.handshakeComplete via m) Sel.none)
    | _ => hBad s via m
  else if s.rpc.late.any (fun x => slotVd x.2 == slotVd m) then
    (if mCall m = 2 then s else onRpcVd s (mVd m) (fun r => seqTake r (mSeq m))).onRpc fun r => { r with late := r.late ++ [(via, m)] }
  else rpcPlace (if mCall m = 2 then s else onRpcVd s (mVd m) (fun r => seqTake r (mSeq m))) via m

/-! Replies and events (R71, R78). -/

def setResult (s : State) (v n : Nat) : State := onRpcVd s v (fun r => { r with result := BitVec.ofNat 8 n })

/-- The message at an address: its header, then its body; the RESULT where it cannot be read, or none while a page of it is being migrated
(R209). -/
def readMsg (s : State) (v a : Nat) (headOk : Bytes → Bool) : State × Except (Option Nat) (Bytes × Bool) :=
  match gpaReadN s (regEng v) a 32 with
  | (s, .error .wait) => (s, .error none)
  | (s, .error _) => (s, .error (some 3))
  | (s, .ok (h, p)) =>
    if field h 0 4 ≠ rpcMagic ∨ field h 4 1 ≠ 1 ∨ field h 22 2 ≠ 0 ∨ maxBody < mLen h ∨ bit (mCall h) 15 = false ∨ headOk h = false then
      (s, .error (some 2))
    else
      match gpaReadN s (regEng v) (a + 32) (mLen h) with
      | (s, .error .wait) => (s, .error none)
      | (s, .error _) => (s, .error (some 3))
      | (s, .ok (b, q)) => (s, .ok (h ++ b, p || q))

/-- The answer to a slot's request leaves and the slot is free. -/
def slotSend (s : State) (v i : Nat) (q : RpcReq) (bad : Bool) (m : Bytes) : State :=
  onRpcVd (rpcSend s q.vd q.via bad (withMac (rpcOf s q.vd).key m)) v (fun r => { r with slots := r.slots.del i })

/-- A write of RPC_REPLY that answers a slot; false while a page of the message is being migrated. -/
def rpcReplyWrite (s : State) (v x : Nat) : State × Bool :=
  let i := x % 64
  match (rpcOf s v).slots.find i with
  | none => (setResult s v 1, true)
  | some q =>
    if bits (rpcOf s v).rx.toNat 4 0 ≤ i then (setResult s v 1, true)
    else
      match readMsg s v (x / 64 * 64) (fun h => field h 5 1 == q.vd && mSeq h == q.seq.toNat && mCall h == q.call.toNat % 32768 + 32768) with
      | (s, .error none) => (s, false)
      | (s, .error (some e)) => (setResult s v e, true)
      | (s, .ok (m, p)) => (setResult (slotSend s v i q p m) v 0, true)

/-- A write of RPC_REPLY with SLOT 63: an EVENT to the subscribed address. -/
def rpcEventWrite (s : State) (v x : Nat) : State × Bool :=
  match readMsg s v (x / 64 * 64) (fun h => field h 5 1 == v && mCall h == 0x8180) with
  | (s, .error none) => (s, false)
  | (s, .error (some e)) => (setResult s v e, true)
  | (s, .ok (m, p)) =>
    let r := rpcOf s v
    match r.subAddr with
    | none => (setResult s v 4, true)
    | some via =>
      let code := field (mBody m) 0 2
      if 64 ≤ code ∨ bit r.subMask.toNat code = false then (setResult s v 4, true)
      else
        let s := rpcSend s v via p (withMac r.key (splice m 8 (leBytes 8 r.evSeq.toNat)))
        (setResult (onRpcVd s v (fun r => { r with evSeq := r.evSeq + 1 })) v 0, true)

/-- RPC_REPLY and RPC_EVENT (R71, R78). -/
def execRpcReply (vd : Vd) (v : BitVec 64) (s : State) : Answer := .next (flushRecs (rpcReplyWrite s vd.val v.toNat).1)
def execRpcEvent (vd : Vd) (v : BitVec 64) (s : State) : Answer := .next (flushRecs (rpcEventWrite s vd.val v.toNat).1)

/-- Registers RPC_RX and RPC_STAT (R71). -/
def rpcRead (s : State) (v k : Nat) : Nat :=
  let r := rpcOf s v
  if k = 0 then r.rx.toNat
  else if k = 2 then r.result.toNat + 65536 * maskOf ((List.range 16).filter (fun i => (r.slots.find i).isSome))
  else 0
/-- NSLOT is stored as it is written; a value above 16, to which the spec gives no meaning, gives 16 slots: the model's choice. -/
def rpcWrite (s : State) (v k x : Nat) : State × Bool :=
  if k = 0 then
    ((if (rpcOf s v).slots.isEmpty then onRpcVd s v (fun r => { r with rx := BitVec.ofNat 64 (bits x 63 20 * 1048576 + bits x 4 0) })
    else s), true)
  else if k = 1 then (if x % 64 = 63 then rpcEventWrite s v x else rpcReplyWrite s v x)
  else (s, true)

end Sys2Proof.Machine
end

