-- ==== Sys2Proof/Machine/Landing.lean ====
section
/-! DEFINITION. PCI Express landing windows: descriptors, writes, flag actions (R51 to R57). -/
namespace Sys2Proof.Machine

/-- A type 0x09 record about a window (R432). -/
def lwdRec (s : State) (v reason addr data1 : Nat) : State :=
  offerRec s v { type := 0x09, sev := 0, vd := v, unit := 0x400, addr := some addr, data0 := reason, data1 := data1 }

/-- The enabled window a write lies wholly inside (R52). -/
def windowOf (s : State) (ep off n : Nat) : Option Nat :=
  (List.range 32).find? (fun w => (lwdOf s ep w).en && decide ((lwdOf s ep w).base ≤ off ∧ off + n ≤ (lwdOf s ep w).base + (lwdOf s ep w).size))

/-- R57: the window stops. -/
def lwdFail (s : State) (ep w off : Nat) : State :=
  let d := lwdOf s ep w
  lwdRec (onLwd s ep w (fun d => { d with ctl := BitVec.ofNat 64 (setBits d.ctl.toNat 30 30 1) })) d.vd 7 (256 * ep + w) off

/-- R54: what becomes of n bytes for a guest-physical address: 0 they land, 7 the window fails, 8 they are discarded because a
handoff has begun, 9 they wait, because a page of theirs is being migrated (R209). -/
def landCheck (s : State) (v : Nat) (solder : Bool) (gpa n : Nat) : Nat → State × Nat
  | 0 => (s, 0)
  | fuel + 1 =>
    if n = 0 then (s, 0)
    else
      match gpaXlate s v gpa true with
      | (s, .error .mig) => (s, 9)
      | (s, .error _) => (s, 7)
      | (s, .ok a) =>
        let f := frameAt s (a / 65536)
        if solder ∧ f.st ≠ .solder then (s, 7)
        else if solder ∧ f.owner ≠ v then (s, 8)
        else if (mscCheck s v (kidFor s v a) a).isSome then (s, 7)
        else landCheck s v solder (gpa + sectorPart gpa n) (n - sectorPart gpa n) fuel

def rpcWinKey (ep w off : Nat) : Nat := 2 ^ 40 * (32 * ep + w) + off

/-- An accepted write is performed, on path NE; the answer is false where it cannot be (R57). -/
def landDo (s : State) (ep w : Nat) (p : PeerWrite) : State × Bool :=
  let d := lwdOf s ep w
  let off := p.off - d.base
  if d.kind = 2 then (s.onPcie fun x => { x with rpcWin := cellsPut x.rpcWin (rpcWinKey ep w off) p.data }, true)
  else
    match gpaWriteN s (ioEng d.vd 0) (d.target + off) p.data with
    | (s, .ok _) => (s, true)
    | (s, .error _) => (lwdFail s ep w off, false)

/-- Does a write cover a byte of the flag word (R55 rule 3)? -/
def coversFlag (d : Lwd) (p : PeerWrite) : Bool :=
  let off := p.off - d.base
  decide (off < d.flagOff + 8 ∧ d.flagOff < off + p.data.length)

/-- The message of an RPC window, read out when its flag fires (R68). -/
def rpcWindow (s : State) (ep w : Nat) : Bytes :=
  let rd := fun (o n : Nat) => (List.range n).map (fun i => cellAt s.pcie.rpcWin (rpcWinKey ep w (o + i)))
  rd 0 32 ++ rd 32 (min maxBody (mLen (rd 0 32)))

/-- R55 rule 4: the action of a window whose flag write has been performed: DEC, then WAKE and NOTIFY, which wait for the decrement
where there is one. The message of an RPC window is whole then (R68). -/
def landFire (s : State) (ep w : Nat) : State :=
  let d := lwdOf s ep w
  let h := d.act.toNat % 2 ^ 32
  let s := if bit d.act.toNat 32 then sendDecs s d.vd 0 landKey none [h] none (some (ep, w)) else s
  let s := if bit d.act.toNat 32 && handleOk s d.vd h then s else landGo s ep w
  if d.kind = 2 ∧ ep < 2 ∧ w < 32 then
    rpcArrive s (.pcie ⟨ep % 2, Nat.mod_lt _ (by decide)⟩ ⟨w % 32, Nat.mod_lt _ (by decide)⟩) (rpcWindow s ep w)
  else s

/-- MSI-X structures (R51): the table entry at offset 0, the pending bits at 0x800. -/
def inMsix (off n : Nat) : Bool := decide (off + n ≤ 16) || decide (0x800 ≤ off ∧ off + n ≤ 0x808)
def msixRead (s : State) (ep off n : Nat) : Bytes :=
  let img := if off < 16 then leBytes 16 (s.pcie.msixTable[ep]?.getD 0).toNat else leBytes 8 (s.pcie.msixPending[ep]?.getD false).toNat
  (img.drop (off % 0x800)).take n
/-- A host write: only the table takes it; a pending message leaves when the mask is cleared. -/
def msixWrite (s : State) (ep off : Nat) (b : Bytes) : State :=
  if off + b.length ≤ 16 then
    let v := leNat (splice (leBytes 16 (s.pcie.msixTable[ep]?.getD 0).toNat) off b) % 2 ^ 97 / 4 * 4
    let s := s.onPcie fun p => { p with msixTable := p.msixTable.setIfInBounds ep (BitVec.ofNat 128 v) }
    if bit v 96 = false ∧ s.pcie.msixPending[ep]?.getD false then
      msixFire (s.onPcie fun p => { p with msixPending := p.msixPending.setIfInBounds ep false }) ep
    else s
  else s

/-- What became of a write a window holds. -/
inductive Landed where
  | done | failed | waits
  deriving DecidableEq, Repr

/-- A write a window holds is checked and performed; a flag write fires the window (R54, R55, R57). -/
def landTry (s : State) (ep w : Nat) (p : PeerWrite) : State × Landed :=
  let d := lwdOf s ep w
  let off := p.off - d.base
  match (if d.kind = 2 then (s, 0) else landCheck s d.vd (d.kind == 1) (d.target + off) p.data.length (p.data.length / 32 + 2)) with
  | (s, 0) =>
    match landDo s ep w p with
    | (s, true) => (if coversFlag d p then landFire s ep w else s, .done)
    | (s, false) => (s, .failed)
  | (s, 8) => (lwdRec s d.vd 8 (256 * ep + w) off, .done)
  | (s, 9) => (s, .waits)
  | (s, _) => (lwdFail s ep w off, .failed)

/-- Must a write be performed after an earlier one that its window still holds (R55 rules 1 and 3)? -/
def landAfter (d : Lwd) (p q : PeerWrite) : Bool := q.rid == p.rid && (coversFlag d p || (!p.relaxed && !q.relaxed))
/-- Of the writes a window holds, oldest first, those that a test picks are performed, and the others stay, as does one whose page is being
migrated (R209); once one has failed, the later ones are discarded (R57). -/
def landRun (ep w : Nat) (pick : PeerWrite → Bool) : List PeerWrite → List PeerWrite → State → State × List PeerWrite
  | kept, [], s => (s, kept)
  | kept, p :: l, s =>
    if !pick p || kept.any (landAfter (lwdOf s ep w) p) then landRun ep w pick (kept ++ [p]) l s
    else
      match landTry s ep w p with
      | (s, .done) => landRun ep w pick kept l s
      | (s, .failed) => (s, kept)
      | (s, .waits) => landRun ep w pick (kept ++ [p]) l s
def heldOf (s : State) (ep w : Nat) : List PeerWrite := s.pcie.held.at [] (lwdKey ep w)
def putHeld (s : State) (ep w : Nat) (l : List PeerWrite) : State :=
  s.onPcie fun x => { x with held := x.held.write [] (lwdKey ep w) l }
def landHeld (s : State) (ep w : Nat) (pick : PeerWrite → Bool) : State :=
  let r := landRun ep w pick [] (heldOf s ep w) s
  putHeld r.1 ep w r.2

/-- A write that has passed the checks of a window, or waits for its page, is held behind the earlier ones. Performed at once are: with a flag
write, the earlier ones of its requester and then it; a relaxed one, if a free value says so; any other. -/
def landAccept (s : State) (ep w : Nat) (p : PeerWrite) : State :=
  let s := putHeld s ep w (heldOf s ep w ++ [p])
  if coversFlag (lwdOf s ep w) p then landHeld s ep w (fun q => q.rid == p.rid)
  else if p.relaxed then
    let r := freeValue s
    if bit r.2.toNat 0 then r.1 else landHeld r.1 ep w (· == p)
  else landHeld s ep w (fun q => q.rid == p.rid && !q.relaxed)
/-- Those of the held writes that must go on without a free value: ordered ones, and what a flag write is behind. -/
def landWanted (s : State) (ep w : Nat) (q : PeerWrite) : Bool :=
  !q.relaxed || (heldOf s ep w).any (fun f => coversFlag (lwdOf s ep w) f && f.rid == q.rid)

/-- R52 to R57, R64: a PCI Express write to the BAR. -/
def landWrite (s : State) (ep : Nat) (p : PeerWrite) : State :=
  if inMsix p.off p.data.length then (if p.crcOk then msixWrite s ep p.off p.data else s)
  else
    match windowOf s ep p.off p.data.length with
    | none => lwdRec s 0 5 (256 * ep) p.off
    | some w =>
      let d := lwdOf s ep w
      let off := p.off - d.base
      if bit d.ctl.toNat 30 then s
      else if bit d.ctl.toNat 47 ∧ p.rid.toNat ≠ bits d.ctl.toNat 63 48 then lwdRec s d.vd 6 (256 * ep + w) p.rid.toNat
      else if !p.crcOk then lwdFail s ep w off
      else
        let r := if d.kind = 2 then (s, 0) else landCheck s d.vd (d.kind == 1) (d.target + off) p.data.length (p.data.length / 32 + 2)
        if r.2 = 8 then lwdRec r.1 d.vd 8 (256 * ep + w) off
        else if r.2 = 7 then lwdFail r.1 ep w off
        else landAccept r.1 ep w p

/-- LANDING_WRITE and LANDING_FLAG_WRITE (R54, R55): which of the two a write is follows from the bytes it covers. -/
def execLandingWrite (ep : Fin 2) (w : PeerWrite) (s : State) : Answer := .next (flushRecs (landWrite s ep.val w))
def execLandingFlagWrite (ep : Fin 2) (w : PeerWrite) (s : State) : Answer := .next (flushRecs (landWrite s ep.val w))

/-- BAR_READ (R52). -/
def execBarRead (ep : Fin 2) (off len : Nat) (s : State) : Answer :=
  .next (if inMsix off len then s.emit (.pcieRead ep.val false (msixRead s ep.val off len)) else s.emit (.pcieRead ep.val true []))
/-- MSIX_ACCESS (R51): a read of 8 bytes at an offset, or a write. -/
def execMsixAccess (ep : Fin 2) (off : Nat) (wr : Option Bytes) (s : State) : Answer :=
  .next (match wr with
    | some b => if inMsix off b.length then msixWrite s ep.val off b else s
    | none => if inMsix off 4 then s.emit (.pcieRead ep.val false (msixRead s ep.val off 8)) else s.emit (.pcieRead ep.val true []))

/-! Descriptor writes (R53). -/

/-- Is a write of LWD_CTL that sets EN refused? -/
def lwdRefused (s : State) (ep w : Nat) (d : Lwd) : Bool :=
  let lg := bits d.ctl.toNat 37 32
  let others := (List.range 32).filter (fun x => x != w && (lwdOf s ep x).en)
  decide ((s.bdy.maxWin[ep]?.getD 0).toNat < others.length + 1)
    || decide (lg < 16) || decide ((s.bdy.maxLog2[ep]?.getD 0).toNat < lg)
    || (d.kind == 2 && !(s.bdy.rpcOk[ep]?.getD false)) || d.kind == 3
    || d.base == 0 || d.base % d.size != 0
    || (bit d.act.toNat 34 && decide (831 < bits d.act.toNat 63 54))
    || others.any (fun x => let o := lwdOf s ep x; decide (o.base < d.base + d.size ∧ d.base < o.base + o.size))

/-- A write of LWD_CTL. One that clears EN while a write waits for a page being migrated leaves EN at 1: its CSRW waits (R53, R209). -/
def lwdCtlWrite (s : State) (ep w x : Nat) : State :=
  let d := lwdOf s ep w
  let err := bit d.ctl.toNat 30 && !bit x 30
  if d.en then
    let s := if bit x 31 then s else landHeld s ep w (fun _ => true)
    if !bit x 31 && !(heldOf s ep w).isEmpty then s
    else onLwd s ep w (fun d => { d with ctl := BitVec.ofNat 64 (setBits (setBits d.ctl.toNat 30 30 (bit d.ctl.toNat 30 && !bit x 30).toNat) 31 31 (bit x 31).toNat) })
  else
    let n : Lwd := { d with ctl := BitVec.ofNat 64 (setBits (setBits (setBits x 46 44 0) 29 26 0) 30 30 err.toNat) }
    if bit x 31 && lwdRefused s ep w n then s else onLwd s ep w (fun _ => n)
/-- A write of one of a window's four registers. -/
def lwdWrite (s : State) (ep w k x : Nat) : State :=
  if k = 0 then lwdCtlWrite s ep w x
  else if (lwdOf s ep w).en then s
  else if k = 1 then onLwd s ep w (fun d => { d with tgt := BitVec.ofNat 64 (x / 65536 * 65536) })
  else if k = 2 then onLwd s ep w (fun d => { d with flag := BitVec.ofNat 64 (x / 8 * 8) })
  else
    let s := onLwd s ep w (fun d => { d with act := BitVec.ofNat 64 (setBits x 53 35 0) })
    movePosts s (lwdOf s ep w).vd (.landing ep w) (bits x 63 54)
/-- Does the CSRW of such a write wait? -/
def lwdWaits (after : State) (ep w k x : Nat) : Bool := k == 0 && !bit x 31 && (lwdOf after ep w).en
def lwdRead (s : State) (ep w k : Nat) : Nat :=
  let d := lwdOf s ep w
  if k = 0 then d.ctl.toNat else if k = 1 then d.tgt.toNat else if k = 2 then d.flag.toNat else d.act.toNat

/-- LWD_CTL_WRITE (R53). -/
def execLwdCtlWrite (ep : Fin 2) (w : Fin 32) (v : BitVec 64) (s : State) : Answer := .next (flushRecs (lwdCtlWrite s ep.val w.val v.toNat))

end Sys2Proof.Machine
end

