-- ==== Sys2Proof/Machine/Net.lean ====
section
/-! DEFINITION. The network engine: its registers, queue pairs, work entries, completions and inbound traffic (R33 to R50). -/
namespace Sys2Proof.Machine

/-! Enabling and disabling (R35, R36). -/

def onNetRegs (s : State) (v : Nat) (f : NetRegs → NetRegs) : State :=
  s.onNet fun n => { n with regs := n.regs.put v (f (n.regs.at NetRegs.reset v)) }
def netResult (s : State) (v r : Nat) : State := onNetRegs s v (fun x => { x with stat := BitVec.ofNat 8 r })

/-- The fields of a queue-pair table entry. -/
def qpCfgOf (b : Bytes) : QpCfg :=
  { block := field b 0 1 == 1, port := field b 1 1, sqLog2 := field b 2 1, cqLog2 := field b 3 1, rqLog2 := field b 4 1,
    slotLog2 := field b 5 1, notify := bit (field b 6 1) 0, asid := field b 7 1, ncore := field b 8 2, lpid := field b 10 2,
    sqva := field b 16 8, cqva := field b 24 8, rqva := field b 32 8 }

/-- The queues of a VD, by index. -/
def qpsOf (s : State) (v : Nat) : List (Nat × Qp) :=
  (s.net.qps.filter (fun e => e.1 / 4096 == v)).map (fun e => (e.1 % 4096, e.2))

/-- R36: does an entry pass the checks of ENABLE? -/
def qpEntryOk (s : State) (v : Nat) (b : Bytes) : Bool :=
  let c := qpCfgOf b
  let lg := fun (n : Nat) => decide (6 ≤ n ∧ n ≤ 15)
  let shape := if c.block then
      c.port == 0 && c.rqLog2 == 0 && c.slotLog2 == 0 && c.lpid == 0 && c.rqva == 0 && (vdRec s v).priv && c.cqva % (16 * 2 ^ c.cqLog2) == 0
    else
      decide (c.port ≤ 3) && lg c.rqLog2 && decide (8 ≤ c.slotLog2 ∧ c.slotLog2 ≤ 16) && c.rqva % 2 ^ (c.rqLog2 + c.slotLog2) == 0
        && c.cqva % (32 * 2 ^ c.cqLog2) == 0
        && !(qpsOf s v).any (fun e => !e.2.cfg.block && e.2.cfg.lpid == c.lpid && e.2.cfg.port == c.port)
  decide (field b 0 1 ≤ 1) && shape && lg c.sqLog2 && lg c.cqLog2 && decide (field b 6 1 ≤ 1) && decide (c.ncore ≤ 831)
    && zeros b 12 16 && zeros b 40 128 && c.sqva % (64 * 2 ^ c.sqLog2) == 0

def Qp.fresh (c : QpCfg) (cycle : Nat) : Qp :=
  { cfg := c, tail := 0, head := 0, cqHead := 0, rqHead := 0, cqTail := 0, rqIdx := 0, evicted := false, cqFull := false,
    stopped := false, error := false, stopping := false, ops := [], heldPkts := [], heldTails := [], used := cycle, beats := 0 }

/-- R50: while more queues' state is cached than the engine holds, the least recently used is evicted. -/
def evictQp (s : State) (keep : Nat) : State :=
  let l := s.net.qps.filter (fun e => !e.2.evicted)
  if l.length ≤ max 1 Config.qpCapacity then s
  else
    match leastBy (fun (e : Nat × Qp) => e.2.used) (l.filter (fun e => e.1 != keep)) with
    | some e => s.onNet fun n => { n with qps := n.qps.put e.1 { e.2 with evicted := true } }
    | none => s

/-- The status of an operation of a queue, found by its ring index, is decided. -/
def opStatus (s : State) (v q idx st n : Nat) : State :=
  onQp s v q (fun p => { p with ops := p.ops.map (fun o => if o.idx = idx then { o with status := some st, bytes := n } else o) })
/-- A held packet leaves the receive buffer of a VD (R50). -/
def rxFree (s : State) (v : Nat) (h : HeldPkt) : State :=
  s.onNet fun n => { n with rxUsed := n.rxUsed.write 0 v (n.rxUsed.at 0 v - h.pkt.data.length) }
/-- The packets held for a queue that is disabled are dropped as for an unknown LPID (R35, R45): their senders repeat them until the
retry limit. -/
def dropHeld (s : State) (v q : Nat) : State :=
  match findQp s v q with
  | none => s
  | some p =>
    p.heldPkts.foldl (fun s h =>
      let s := netRec (rxFree s v h) v 4 h.pkt.lpid h.pkt.port.val
      match h.back with
      | some (w, r, idx) => opStatus s w r idx 6 0
      | none => s) (onQp s v q (fun p => { p with heldPkts := [] }))

/-- ENABLE of index q: false while the page of its entry is being migrated (R209). An entry read with poison cannot be read, as the model takes it: the spec gives no case for it. -/
def netEnable (s : State) (v q : Nat) : State × Bool :=
  if qpMax s v ≤ q then (netResult s v 1, true)
  else if (findQp s v q).isSome then (netResult s v 3, true)
  else
    match gpaReadN s (regEng v) ((netOf s v).qpt.toNat + 128 * q) 128 with
    | (s, .error .wait) => (s, false)
    | (s, .error _) | (s, .ok (_, true)) => (netResult s v 4, true)
    | (s, .ok (b, false)) =>
      if qpEntryOk s v b then
        let s := evictQp (s.onNet fun n => { n with qps := n.qps.put (qpKey v q) (Qp.fresh (qpCfgOf b) s.sch.cycle) }) (qpKey v q)
        (movePosts (netResult s v 0) v (.queue q) (qpCfgOf b).ncore, true)
      else (netResult s v 2, true)

/-- DISABLE of index q: false while operations are in progress. -/
def netDisable (s : State) (v q : Nat) : State × Bool :=
  if qpMax s v ≤ q then (netResult s v 1, true)
  else
    match findQp s v q with
    | none => (netResult s v 3, true)
    | some p =>
      if p.ops.isEmpty then
        let s := dropHeld s v q
        (netResult (s.onNet fun n => { n with qps := n.qps.del (qpKey v q) }) v 0, true)
      else (onQp s v q (fun p => { p with stopping := true }), false)

/-- NET_ENABLE and NET_DISABLE (R35). -/
def execNetEnable (s : State) : Answer := .next (flushRecs (netEnable s s.sch.sel.vd.val s.sch.sel.n).1)
def execNetDisable (s : State) : Answer := .next (flushRecs (netDisable s s.sch.sel.vd.val s.sch.sel.n).1)

/-- The six registers (R35); a write answers false while an ENABLE waits for a page or a DISABLE is in progress. -/
def netRead (s : State) (v k : Nat) : Nat :=
  let r := netOf s v
  if k = 0 then r.qpt.toNat else if k = 1 then r.peer.toNat else if k = 2 then r.rkey.toNat else if k = 3 then r.pages.toNat
  else if k = 5 then r.stat.toNat else 0
def netWrite (s : State) (v k x : Nat) (byH : Bool) : State × Bool :=
  let idle := (qpsOf s v).isEmpty
  let page : DWord := BitVec.ofNat 64 (x / 4096 * 4096)
  if k = 0 then (if idle then onNetRegs s v (fun r => { r with qpt := page }) else s, true)
  else if k = 1 then (onNetRegs s v (fun r => { r with peer := BitVec.ofNat 64 x }), true)
  else if k = 2 then (onNetRegs s v (fun r => { r with rkey := BitVec.ofNat 64 x }), true)
  else if k = 3 then (if idle && byH then onNetRegs s v (fun r => { r with pages := page }) else s, true)
  else if k = 4 then
    (if bits x 17 16 = 1 then netEnable s v (x % 65536) else if bits x 17 16 = 2 then netDisable s v (x % 65536) else (s, true))
  else (s, true)

/-! Rings (R37). -/

/-- The owner bit that makes the entry with an index valid, in a ring of 2^n entries. -/
def ownerBit (i : BitVec 16) (n : Nat) : Bool := !bit i.toNat n

/-- How the write of a completion entry ends: written; faulted; or it waits for a page that is being migrated (R209). -/
inductive CqAns where
  | written | fault | wait
  deriving DecidableEq, Repr

/-- R36, R39, R44: a completion entry written, as a release at PKG scope, and the Queue-notify entry of an emptied ring. `body` is the
entry less its CTRL word. An entry whose write faults is lost, and the next one takes its place in the ring: the model's choice. -/
def writeCq (s : State) (v q : Nat) (body : Bytes) : State × CqAns :=
  match findQp s v q with
  | none => (s, .fault)
  | some p =>
    let i := p.cqTail
    let n := p.cfg.cqLog2
    let e := body ++ leBytes 4 (2 ^ 31 * (ownerBit i n).toNat)
    let eng := ioEng v p.cfg.asid
    let va := p.cfg.cqva + e.length * (i.toNat % 2 ^ n)
    match engWriteN s eng va e with
    | (_, .error .wait) => (s, .wait)
    | (s, .error _) => (s, .fault)
    | (s, .ok _) =>
      let s := tellVa s eng va e [engineRel 5 (if p.cfg.block then 5 else 3) 7 (chanOf s (.queue v q))]
      let s := onQp s v q (fun p => let p := { p with cqTail := p.cqTail + 1 }; { p with cqFull := Qp.full p })
      (if p.cfg.notify ∧ i = p.cqHead then postDirect s p.cfg.ncore v 0x21 q (leBytes 2 i.toNat) (.queue q) p.cfg.asid else s, .written)

/-- A 32-byte completion (R39) less its CTRL word. -/
def cqEntry (cookie st op n value idx : Nat) : Bytes :=
  leBytes 8 cookie ++ leBytes 2 st ++ leBytes 1 op ++ leBytes 1 0 ++ leBytes 4 n ++ leBytes 8 value ++ leBytes 4 idx

/-! Remote regions (R47) and inbound operations on a VD of this module. -/

/-- Does a domain join a VD here, and the VD at its other end when that is here too? -/
def joins (d : Domain) (v : Nat) : Bool := d.vd == v || (d.peerPkg.isNone && d.peerVd == v)
def otherEnd (d : Domain) (v : Nat) : Option Nat := if d.peerPkg.isSome then none else some (if d.vd = v then d.peerVd else d.vd)

/-- What an inbound operation answers: OK, REMOTE_ACCESS, or not now (a NACK). -/
inductive NetAns where
  | ok | remote | nack
  deriving DecidableEq, Repr

/-- The address space of a region that an operation of n bytes may reach with a permission bit, or what the operation answers. For an
entry read with poison that is REMOTE_ACCESS: the model's choice, as the spec gives no case for it. -/
def region (s : State) (v dom rkey perm rva n : Nat) : State × Except NetAns Nat :=
  if bits (netOf s v).rkey.toNat 11 0 ≤ rkey % 65536 then (s, .error .remote)
  else
    match gpaReadN s (regEng v) (bits (netOf s v).rkey.toNat 63 12 * 4096 + 32 * (rkey % 65536)) 32 with
    | (s, .error .wait) => (s, .error .nack)
    | (s, .error _) | (s, .ok (_, true)) => (s, .error .remote)
    | (s, .ok (b, false)) =>
      let ok := bit (field b 22 1) 0 && field b 20 2 == rkey / 65536 && field b 18 2 == dom && bit (field b 16 1) perm
        && decide (field b 0 8 ≤ rva ∧ rva + n ≤ field b 0 8 + field b 8 8)
      (s, if ok then .ok (field b 17 1) else .error .remote)

/-- Nothing is written where the operation fails. -/
def inWrite (s : State) (v dom rkey rva : Nat) (b : Bytes) (p : Bool) : State × NetAns :=
  match region s v dom rkey 1 rva b.length with
  | (s, .error a) => (s, a)
  | (s, .ok asid) =>
    match engWriteN s (ioEng v asid) rva b p with
    | (t, .ok _) => (t, .ok)
    | (_, .error .wait) => (s, .nack)
    | (_, .error _) => (s, .remote)
def inRead (s : State) (v dom rkey rva n : Nat) : State × NetAns × Bytes × Bool :=
  match region s v dom rkey 0 rva n with
  | (s, .error a) => (s, a, [], false)
  | (s, .ok asid) =>
    match engReadN s (ioEng v asid) rva n with
    | (t, .ok (b, p)) => (t, .ok, b, p)
    | (t, .error .wait) => (t, .nack, [], false)
    | (_, .error _) => (s, .remote, [], false)
/-- R48: one 64-bit atomic at the memory-side cache. A poisoned word is answered as it is, poisoned, and stays (R239, R240); that
nothing is added to it is the model's choice. -/
def inFadd (s : State) (v dom rkey rva add : Nat) : State × NetAns × Nat × Bool :=
  match region s v dom rkey 2 rva 8 with
  | (s, .error a) => (s, a, 0, false)
  | (s, .ok asid) =>
    if rva % 8 ≠ 0 then (s, .remote, 0, false)
    else
      match engReadN s (ioEng v asid) rva 8 with
      | (t, .ok (b, true)) => (t, .ok, leNat b, true)
      | (t, .ok (b, false)) =>
        match engWriteN t (ioEng v asid) rva (leBytes 8 ((leNat b + add) % 2 ^ 64)) with
        | (t, .ok _) => (t, .ok, leNat b, false)
        | (_, .error .wait) => (s, .nack, 0, false)
        | (_, .error _) => (s, .remote, 0, false)
      | (t, .error .wait) => (t, .nack, 0, false)
      | (_, .error _) => (s, .remote, 0, false)

/-! Inbound Sends (R44, R45, R50). -/

/-- How a Send ends: delivered, held until the queue's state is back, too long for the slot, no such queue, or not now. -/
inductive SendAns where
  | ok | held | long | unknown | nack
  deriving DecidableEq, Repr

/-- The enabled queue pair an LPID names on a port. -/
def qpByLpid (s : State) (v port lpid : Nat) : Option (Nat × Qp) :=
  (qpsOf s v).find? (fun e => !e.2.cfg.block && !e.2.stopping && e.2.cfg.lpid == lpid && e.2.cfg.port == port)

/-- Has a queue a slot for a Send (R50)? -/
def Qp.slotFree (x : Qp) : Bool := !Qp.full x && (x.rqIdx - x.rqHead).toNat != 2 ^ x.cfg.rqLog2

/-- A Send into a receive slot of a queue pair whose state is on chip, and its receive completion. One that fails its check poisons the slot
it would have, is refused, and takes no slot (R64). The model's choices: where the slot's write faults, the completion says
LOCAL_FAULT with the Send's length and the sender is answered OK; SQIDX of a receive completion is 0. -/
def recvSlot (s : State) (v q : Nat) (data : Bytes) (p : Bool) : State × SendAns :=
  match findQp s v q with
  | none => (s, .unknown)
  | some x =>
    let long := decide (2 ^ x.cfg.slotLog2 < data.length)
    if !x.slotFree || p && long then (s, .nack)
    else if long then (s, .long)
    else
      let va := x.cfg.rqva + 2 ^ x.cfg.slotLog2 * (x.rqIdx.toNat % 2 ^ x.cfg.rqLog2)
      match engWriteN s (ioEng v x.cfg.asid) va data p with
      | (_, .error .wait) => (s, .nack)
      | (t, r) =>
        if p then (t, .nack)
        else
          let t := onQp t v q (fun x => { x with rqIdx := x.rqIdx + 1, used := t.sch.cycle })
          match writeCq t v q (cqEntry 0 (if okOf r then 0 else 3) 0x81 data.length x.rqIdx.toNat 0) with
          | (_, .wait) => (s, .nack)
          | (t, _) => (t, .ok)

/-- R50: a packet for an evicted queue pair, or behind one that waits, is held in the VD's receive buffer and answered once it has its
slot; one that fails its check is not (R64). `back` names the operation of a Send of this module. -/
def sendTo (s : State) (v : Nat) (pkt : InPkt) (p : Bool) (back : Option (Nat × Nat × Nat)) : State × SendAns :=
  match qpByLpid s v pkt.port.val pkt.lpid with
  | none => (s, .unknown)
  | some (q, x) =>
    if x.evicted || !x.heldPkts.isEmpty then
      if p then (s, .nack)
      else if 2 ^ x.cfg.slotLog2 < pkt.data.length then (s, .long)
      else if rxBuf s v * 65536 < s.net.rxUsed.at 0 v + pkt.data.length then (s, .nack)
      else
        let s := s.onNet fun n => { n with rxUsed := n.rxUsed.write 0 v (n.rxUsed.at 0 v + pkt.data.length) }
        (onQp s v q (fun x => { x with heldPkts := x.heldPkts ++ [{ pkt := pkt, back := back }] }), .held)
    else recvSlot s v q pkt.data p

/-- R64: a packet whose GCM tag or ICRC fails is recorded; the spec does not name the record's type. -/
def tagRec (s : State) (port : Nat) : State :=
  let r := freeValue s
  offerRec r.1 0 { type := 0x08, sev := 0, vd := 0, unit := 0x400, addr := some port, data0 := r.2.toNat }

/-- An answer of VD v to a peer: its status and data; a NACK; and the answer an outcome gives. All are packets (R29). -/
def netReply (s : State) (v : Nat) (pkt : InPkt) (op st : Nat) (data : Bytes) (bad : Bool) : State :=
  ueSend s v pkt.port.val pkt.src pkt.rpid bad (leBytes 1 (128 + op) ++ leBytes 1 st ++ data)
def netNack (s : State) (v : Nat) (pkt : InPkt) : State :=
  if egressBad s pkt.port.val pkt.src then egressDrop s v pkt.port.val else s.emit (.nack pkt.port.val)
def netAck (s : State) (v : Nat) (pkt : InPkt) (op : Nat) : NetAns → State
  | .ok => netReply s v pkt op 0 [] false
  | .remote => netReply s v pkt op 4 [] false
  | .nack => netNack s v pkt

/-- Does a packet ask for supported options alone (R33)? -/
def pktServed (p : InPkt) : Bool := p.supported && decide (p.prof ≤ 2)

/-- The VD and domain an inbound packet is for (R33, R34, R45); a packet that has none, or asks for what is not supported, is
dropped with a record. -/
def inboundFor (s : State) (pkt : InPkt) : State × Option (Nat × Nat) :=
  match pkt.domain.bind (fun i => (s.net.domains.find i).map (fun d => (i, d))) with
  | some (i, d) =>
    if d.peerPkg.isNone then (netRec s 0 3 pkt.port.val 0, none)
    else if !pktServed pkt then (netRec s d.vd 2 pkt.port.val 0, none)
    else (s, some (d.vd, i))
  | none => (netRec s 0 3 pkt.port.val 0, none)

/-- INBOUND_SEND (R45, R68): the management endpoint takes RUD Sends without a domain (R33). -/
def inboundSend (s : State) (pkt : InPkt) : State :=
  if pkt.domain.isNone ∧ pkt.lpid = Config.mgmtLpid ∧ pktServed pkt = true ∧ pkt.prof = 0 then
    if !pkt.gcmOk then netNack (tagRec s pkt.port.val) 0 pkt
    else if 1048576 < pkt.data.length then netReply s 0 pkt 1 4 [] false
    else netReply (rpcArrive s (.ue pkt.port pkt.src pkt.rpid) pkt.data) 0 pkt 1 0 [] false
  else
    match inboundFor s pkt with
    | (s, none) => s
    | (s, some (v, _)) =>
      match sendTo s v pkt (!pkt.gcmOk) none with
      | (s, .ok) => netReply s v pkt 1 0 [] false
      | (s, .held) => s
      | (s, .long) => netReply s v pkt 1 4 [] false
      | (s, .unknown) => netRec s v 4 pkt.lpid pkt.port.val
      | (s, .nack) => netNack (if pkt.gcmOk then s else tagRec s pkt.port.val) v pkt
def execInboundSend (pkt : InPkt) (s : State) : Answer := .next (flushRecs (inboundSend s pkt))

/-- The flow of a domain that a Write belongs to: its delivery context's, or its initiator queue pair's. -/
def flowOf (s : State) (dom : Nat) (pkt : InPkt) (ctx : Bool) : Flow :=
  let id := if ctx then pkt.pdc else pkt.rpid
  (s.net.flows.find? (fun f => f.dom == dom && f.src == pkt.src && f.ctx == ctx && f.id == id)).getD
    { dom := dom, src := pkt.src, ctx := ctx, id := id, next := 0, more := [] }
/-- A number performed; numbers that now follow without a gap are put below `next`. -/
def Flow.settle (f : Flow) : Nat → Flow
  | 0 => f
  | n + 1 => if f.more.contains f.next then { f with next := f.next + 1, more := f.more.erase f.next }.settle n else f
def Flow.mark (f : Flow) (n : Nat) : Flow :=
  if n < f.next ∨ f.more.contains n = true then f else { f with more := f.more ++ [n] }.settle (f.more.length + 1)
def putFlow (s : State) (f : Flow) : State :=
  s.onNet fun n => { n with flows := n.flows.filter (fun x => !(x.dom == f.dom && x.src == f.src && x.ctx == f.ctx && x.id == f.id)) ++ [f] }
/-- R49: has a Write to wait for an earlier one not yet performed, be it refused or still on its way: on ROD one of its delivery context,
with FLAGGED one of its initiator queue pair to the same VD? -/
def writeWaits (s : State) (dom : Nat) (pkt : InPkt) : Bool :=
  (pkt.prof == 1 && decide ((flowOf s dom pkt true).next < pkt.cseq)) || (pkt.flagged && decide ((flowOf s dom pkt false).next < pkt.seq))
/-- A Write is over: performed, or failed for good. -/
def writeOver (s : State) (dom : Nat) (pkt : InPkt) : State :=
  putFlow (putFlow s ((flowOf s dom pkt true).mark pkt.cseq)) ((flowOf s dom pkt false).mark pkt.seq)

/-- INBOUND_WRITE (R45, R49, R64): a packet whose check fails poisons what it writes and is refused. -/
def inboundWrite (s : State) (pkt : InPkt) : State :=
  match inboundFor s pkt with
  | (s, none) => s
  | (s, some (v, i)) =>
    if !pkt.gcmOk then netNack (tagRec (inWrite s v i pkt.rkey.toNat pkt.rva.toNat pkt.data true).1 pkt.port.val) v pkt
    else if writeWaits s i pkt then netNack s v pkt
    else
      let r := inWrite s v i pkt.rkey.toNat pkt.rva.toNat pkt.data false
      netAck (if r.2 = .nack then r.1 else writeOver r.1 i pkt) v pkt 2 r.2
def execInboundWrite (pkt : InPkt) (s : State) : Answer := .next (flushRecs (inboundWrite s pkt))

/-- A request without data whose check fails is refused. -/
def tagged (s : State) (pkt : InPkt) (f : State → Nat → Nat → State) : State :=
  match inboundFor s pkt with
  | (s, none) => s
  | (s, some (v, i)) => if pkt.gcmOk then f s v i else netNack (tagRec s pkt.port.val) v pkt

/-- INBOUND_READ (R45, R64). -/
def execInboundRead (pkt : InPkt) (s : State) : Answer :=
  .next (flushRecs (tagged s pkt fun s v i =>
    match inRead s v i pkt.rkey.toNat pkt.rva.toNat pkt.len with
    | (s, .ok, b, p) => netReply s v pkt 3 0 b p
    | (s, a, _, _) => netAck s v pkt 3 a))
/-- INBOUND_FETCH_ADD (R48). -/
def execInboundFetchAdd (pkt : InPkt) (s : State) : Answer :=
  .next (flushRecs (tagged s pkt fun s v i =>
    match inFadd s v i pkt.rkey.toNat pkt.rva.toNat pkt.addend.toNat with
    | (s, .ok, old, p) => netReply s v pkt 4 0 (leBytes 8 old) p
    | (s, a, _, _) => netAck s v pkt 4 a))

/-- A packet that was held is delivered or refused. A Send of this module that finds no slot stays held; it has nothing to be NACKed
on. -/
def heldOne (s : State) (v q : Nat) (h : HeldPkt) : State :=
  let keep := fun (s : State) => onQp s v q (fun x => { x with heldPkts := x.heldPkts ++ [h] })
  match recvSlot s v q h.pkt.data false, h.back with
  | (s, .nack), none => netNack (rxFree s v h) v h.pkt
  | (s, .nack), some _ => keep s
  | (s, a), none => netReply (rxFree s v h) v h.pkt 1 (if a = .ok then 0 else 4) [] false
  | (s, a), some (w, r, idx) => opStatus (rxFree s v h) w r idx (if a = .ok then 0 else 4) (if a = .ok then h.pkt.data.length else 0)

/-- QP_STATE_RELOAD (R50): the state is back; held tail stores, then held packets, in order. -/
def qpReload (s : State) (v q : Nat) : State :=
  match findQp s v q with
  | none => s
  | some p =>
    if !p.evicted && p.heldPkts.isEmpty then s
    else
      let s := onQp s v q (fun p =>
        { p with evicted := false, heldTails := [], heldPkts := [], tail := p.heldTails.foldl tailFilter p.tail, used := s.sch.cycle,
                 stopped := p.stopped && p.heldTails.isEmpty })
      p.heldPkts.foldl (fun s h => heldOne s v q h) (evictQp s (qpKey v q))
def execQpStateReload (s : State) : Answer := .next (flushRecs (qpReload s s.sch.sel.vd.val s.sch.sel.n))

/-! Work entries (R38, R42, R46). -/

abbrev wOp (e : Bytes) : Nat := field e 0 1
abbrev wFlags (e : Bytes) : Nat := field e 1 1
abbrev wLva (e : Bytes) : Nat := field e 8 8
abbrev wRva (e : Bytes) : Nat := field e 16 8
abbrev wLen (e : Bytes) : Nat := field e 24 4
abbrev wRkey (e : Bytes) : Nat := field e 28 4
abbrev wAddend (e : Bytes) : Nat := field e 32 8
abbrev wCtrl (e : Bytes) : Nat := field e 60 4

/-- The status an entry's own fields decide. -/
def workCheck (e : Bytes) : Option Nat :=
  if wOp e = 0 ∨ 4 < wOp e then some 1
  else if field e 2 1 = 3 then some 2
  else if 3 < field e 2 1 then some 1
  else if 8 ≤ wFlags e ∨ field e 3 1 ≠ 0 ∨ field e 52 8 ≠ 0 ∨ wCtrl e % 2 ^ 31 ≠ 0 ∨ (wOp e = 1 ∧ wRva e ≠ 0) ∨ (wOp e ≠ 4 ∧ wAddend e ≠ 0) then
    some 8
  else if wOp e = 4 then (if wLva e % 8 ≠ 0 ∨ wRva e % 8 ≠ 0 ∨ wLen e ≠ 8 then some 1 else none)
  else if wLen e = 0 ∨ 2 ^ 30 < wLen e then some 1
  else none

/-- A peer of a work entry: its address, domain and LPID. -/
structure Peer where
  addr : Bytes
  dom : Nat
  d : Domain
  rpid : Nat
  deriving DecidableEq, Repr

/-- R46: the peer table entry of a work entry, the status it decides, or none while it cannot be read yet; for one read with poison POISON,
the model's choice among the statuses, as the spec gives no case for it. -/
def peerOf (s : State) (v port : Nat) (e : Bytes) : State × Except (Option Nat) Peer :=
  if bits (netOf s v).peer.toNat 11 0 ≤ field e 4 4 then (s, .error (some 1))
  else
    match gpaReadN s (regEng v) (bits (netOf s v).peer.toNat 63 12 * 4096 + 32 * field e 4 4) 32 with
    | (s, .error .wait) => (s, .error none)
    | (s, .error _) => (s, .error (some 1))
    | (s, .ok (_, true)) => (s, .error (some 7))
    | (s, .ok (b, false)) =>
      match s.net.domains.find (field b 16 2) with
      | none => (s, .error (some 1))
      | some d =>
        if field b 21 1 ≠ 1 ∨ zeros b 22 32 = false ∨ joins d v = false ∨ field b 20 1 ≠ port then (s, .error (some 1))
        else if d.peerPkg.isSome && egressBad s port (b.take 16) then (egressDrop s v port, .error (some 5))
        else (s, .ok { addr := b.take 16, dom := field b 16 2, d := d, rpid := field b 18 2 })

/-- The packet of an operation, in the model's own layout. -/
def wirePkt (e : Bytes) (p : Peer) (data : Bytes) : Bytes :=
  e.take 3 ++ leBytes 1 0 ++ leBytes 2 p.dom ++ leBytes 2 p.rpid ++ leBytes 4 (wRkey e) ++ leBytes 8 (wRva e) ++ leBytes 4 (wLen e)
    ++ leBytes 8 (wAddend e) ++ data

/-- How an operation that has been taken stands: decided, with bytes and old value; sent; it cannot start yet; or it has read more of its
payload and cannot read on yet. -/
inductive Taken where
  | done (st n value : Nat)
  | sent
  | later
  | more (b : Bytes) (bad : Bool)
  deriving DecidableEq, Repr

/-- An operation between two VDs of this module (R46), delivered internally; a Send that is held is answered later. -/
def runLocal (s : State) (v q idx asid t port : Nat) (e : Bytes) (p : Peer) (data : Bytes) : State × Taken :=
  match wOp e with
  | 1 =>
    let pkt : InPkt := { port := ⟨port % 4, Nat.mod_lt _ (by decide)⟩, domain := some p.dom, lpid := p.rpid, rkey := 0, rva := 0, len := data.length,
                         addend := 0, data := data, prof := field e 2 1, pdc := 0, seq := 0, cseq := 0, flagged := false, supported := true, gcmOk := true,
                         src := p.addr, rpid := 0 }
    match sendTo s t pkt false (some (v, q, idx)) with
    | (s, .ok) => (s, .done 0 data.length 0)
    | (s, .held) => (s, .sent)
    | (s, .long) => (s, .done 4 0 0)
    | (s, .unknown) => (netRec s t 4 p.rpid port, .done 6 0 0)
    | (s, .nack) => (s, .later)
  | 2 =>
    match inWrite s t p.dom (wRkey e) (wRva e) data false with
    | (s, .ok) => (s, .done 0 data.length 0)
    | (s, .remote) => (s, .done 4 0 0)
    | (s, .nack) => (s, .later)
  | 3 =>
    match inRead s t p.dom (wRkey e) (wRva e) (wLen e) with
    | (s, .ok, b, bad) =>
      if bad then (s, .done 7 0 0)
      else
        match engWriteN s (ioEng v asid) (wLva e) b with
        | (s, .ok _) => (s, .done 0 b.length 0)
        | (s, .error .wait) => (s, .later)
        | (s, .error _) => (s, .done 3 0 0)
    | (s, .remote, _, _) => (s, .done 4 0 0)
    | (s, .nack, _, _) => (s, .later)
  | _ =>
    -- the old value must find its place before the word is changed
    match (engWriteN s (ioEng v asid) (wLva e) (leBytes 8 0)).2 with
    | .error .wait => (s, .later)
    | .error _ => (s, .done 3 0 0)
    | .ok _ =>
      match inFadd s t p.dom (wRkey e) (wRva e) (wAddend e) with
      | (s, .ok, old, bad) =>
        if bad then (s, .done 7 0 0)
        else
          match engWriteN s (ioEng v asid) (wLva e) (leBytes 8 old) with
          | (s, .ok _) => (s, .done 0 8 old)
          | (s, .error _) => (s, .done 3 0 0)
      | (s, .remote, _, _) => (s, .done 4 0 0)
      | (s, .nack, _, _) => (s, .later)

/-- The rest of a payload of n bytes, after what a queue has read of it: how far the reading has come, and how it stops. -/
def readRest (s : State) (e : Eng) (x : Qp) (va n : Nat) : State × Bytes × Bool × Option EngErr :=
  let m := x.part.length
  let r := engReadFar s e (n / 32 + 2) ((va + m) % 2 ^ 64) (n - m)
  (r.1, x.part ++ r.2.1, x.partBad || r.2.2.1, r.2.2.2)

/-- R38, R46, R64: an operation runs as far as this module can take it. -/
def runWork (s : State) (v q idx : Nat) (x : Qp) (e : Bytes) : State × Taken :=
  let c := x.cfg
  match workCheck e with
  | some st => (s, .done st 0 0)
  | none =>
    match peerOf s v c.port e with
    | (s, .error none) => (s, .later)
    | (s, .error (some st)) => (s, .done st 0 0)
    | (s, .ok p) =>
      match readRest s (ioEng v c.asid) x (wLva e) (if wOp e ≤ 2 then wLen e else 0) with
      | (s, b, bad, some .wait) => (s, .more b bad)
      | (s, _, _, some _) => (s, .done 3 0 0)
      | (s, data, bad, none) =>
        match otherEnd p.d v with
        | some t => if bad then (s, .done 7 0 0) else runLocal s v q idx c.asid t c.port e p data
        | none => (ueSend s v c.port p.addr p.rpid bad (wirePkt e p data), if bad then .done 7 0 0 else .sent)

/-- May the engine take an entry of a queue now? -/
def Qp.takes (p : Qp) : Bool := !p.evicted && !p.stopping && !p.stopped && !Qp.full p && p.head != p.tail

/-- The entry at HEAD, with what reading it gives: a wait, a status, or its bytes and poison. -/
def readHead (s : State) (v : Nat) (p : Qp) : State × Except (Option Nat) (Bytes × Bool) :=
  match engReadN s (ioEng v p.cfg.asid) (p.cfg.sqva + 64 * (p.head.toNat % 2 ^ p.cfg.sqLog2)) 64 with
  | (s, .error .wait) => (s, .error none)
  | (s, .error _) => (s, .error (some 3))
  | (s, .ok x) => (s, .ok x)

/-- An operation recorded as taken, HEAD past it. -/
def tookOp (s : State) (v q : Nat) (p : Qp) (e : Bytes) (st : Option Nat) (n value : Nat) : State :=
  onQp s v q (fun x =>
    { x with head := p.head + 1, used := s.sch.cycle, beats := 0, part := [], partBad := false,
             ops := x.ops ++ [{ idx := p.head.toNat, entry := e, status := st, bytes := n, value := BitVec.ofNat 64 value, res := none }] })
/-- The entry at HEAD is not valid: the engine stops at it (R42). -/
def stopQp (s : State) (v q : Nat) : State := onQp s v q (fun x => { x with stopped := true, beats := 0, part := [], partBad := false })
/-- What a queue has read of a payload is kept, so that a payload larger than a flash window's buffer is read in the end. -/
def keepPart (s : State) (v q : Nat) (b : Bytes) (bad : Bool) : State := onQp s v q (fun x => { x with part := b, partBad := bad })
/-- Of a step that could not be made yet, only the fills it has asked of the storage controller remain (R60). -/
def askOnly (s t : State) : State := s.onMem fun m => { m with fills := t.mem.fills }

/-- R42: the entry at HEAD is read; an invalid one stops the engine; the step's own operation is taken. A malformed OP is taken by
NET_SEND's step. -/
def netTake (s : State) (v q op : Nat) : State :=
  match findQp s v q with
  | none => s
  | some p =>
    if p.cfg.block || !p.takes then s
    else
      match readHead s v p with
      | (s, .error none) => s
      | (s, .error (some st)) => if op = 1 then tookOp s v q p (List.replicate 64 0) (some st) 0 0 else s
      | (s, .ok (e, bad)) =>
        if bit (wCtrl e) 31 ≠ ownerBit p.head p.cfg.sqLog2 then stopQp s v q
        else if (if wOp e = 0 ∨ 4 < wOp e then 1 else wOp e) ≠ op then s
        else if bit (wFlags e) 1 ∧ p.ops.any (fun o => 3 ≤ wOp o.entry) then s
        else if bad then tookOp s v q p e (some 7) 0 0
        else
          match runWork s v q p.head.toNat p e with
          | (t, .later) => askOnly s t
          | (t, .more b bad) => keepPart (askOnly s t) v q b bad
          | (s, .sent) => tookOp s v q p e none 0 0
          | (s, .done st n x) => tookOp s v q p e (some st) n x

/-- NET_SEND, NET_WRITE, NET_READ and NET_FETCH_ADD (R38). -/
def execNetSend (s : State) : Answer := .next (flushRecs (netTake s s.sch.sel.vd.val s.sch.sel.n 1))
def execNetWrite (s : State) : Answer := .next (flushRecs (netTake s s.sch.sel.vd.val s.sch.sel.n 2))
def execNetRead (s : State) : Answer := .next (flushRecs (netTake s s.sch.sel.vd.val s.sch.sel.n 3))
def execNetFetchAdd (s : State) : Answer := .next (flushRecs (netTake s s.sch.sel.vd.val s.sch.sel.n 4))

/-- QP_WATCH_WAKE (R42): the watched entry has become valid. -/
def qpWatch (s : State) (v q : Nat) : State :=
  match findQp s v q with
  | none => s
  | some p =>
    if !p.stopped then s
    else
      match readHead s v p with
      | (s, .ok (e, _)) => if bit (wCtrl e) 31 = ownerBit p.head p.cfg.sqLog2 then onQp s v q (fun x => { x with stopped := false }) else s
      | (s, .error _) => s
def execQpWatchWake (s : State) : Answer := .next (flushRecs (qpWatch s s.sch.sel.vd.val s.sch.sel.n))

/-- What an operation's answer from the network makes of it: its status, bytes and old value, with a read's data or the old value stored;
none while a page it needs is being migrated. -/
def netOutcome (s : State) (v asid : Nat) (o : NetOp) (res : NetResult) : State × Option (Nat × Nat × Nat) :=
  if res.status ≠ 0 then (s, some (res.status, 0, 0))
  else if wOp o.entry ≤ 2 then (s, some (0, wLen o.entry, 0))
  else
    let b := if wOp o.entry = 3 then padTo (wLen o.entry) res.data else leBytes 8 res.old.toNat
    match engWriteN s (ioEng v asid) (wLva o.entry) b with
    | (s, .ok _) => (s, some (0, b.length, if wOp o.entry = 4 then res.old.toNat else 0))
    | (s, .error .wait) => (s, none)
    | (s, .error _) => (s, some (3, 0, 0))

/-- Does an operation wait as a held packet of this module? -/
def opHeld (s : State) (v q idx : Nat) : Bool := s.net.qps.any (fun e => e.2.heldPkts.any (fun h => h.back == some (v, q, idx)))

/-- The network's answer goes to the oldest operation that waits for one. -/
def netAnswer (s : State) (v q : Nat) (res : NetResult) : State :=
  if 8 < res.status then s
  else
    match (findQp s v q).bind (fun p => p.ops.find? (fun o => o.status.isNone && o.res.isNone && !opHeld s v q o.idx)) with
    | none => s
    | some o => onQp s v q (fun p => { p with ops := p.ops.map (fun x => if x = o then { x with res := some res } else x) })

/-- What a completion entry's write makes of an operation's status: one that faults completes it with LOCAL_FAULT (R36). -/
def cqStatus (a : CqAns) (st : Nat) : Nat := if a = .fault ∧ st = 0 then 3 else st
/-- An operation that is decided and waits for its completion entry. -/
def opDecided (s : State) (v q : Nat) (o : NetOp) (st n x : Nat) : State :=
  onQp s v q (fun p => { p with ops := p.ops.map (fun y =>
    if y = o then { y with status := some st, bytes := n, value := BitVec.ofNat 64 x, res := none } else y) })

/-- The oldest operation of a queue pair ends, once it is decided (R44): its completion entry, ERROR, and the CNT decrement. -/
def netEnd (s : State) (v q : Nat) : State :=
  match findQp s v q with
  | none => s
  | some p =>
    match p.ops with
    | [] => s
    | o :: rest =>
      if p.cfg.block || (bit (wFlags o.entry) 0 && Qp.full p) then s
      else
        let r := match o.status, o.res with
          | some st, _ => (s, some (st, o.bytes, o.value.toNat))
          | none, some res => netOutcome s v p.cfg.asid o res
          | none, none => (s, none)
        match r with
        | (s, none) => s
        | (s, some (st, n, x)) =>
          let w := if bit (wFlags o.entry) 0 then writeCq s v q (cqEntry (field o.entry 40 8) st (wOp o.entry) n x o.idx) else (s, .written)
          match w with
          | (s, .wait) => opDecided s v q o st n x
          | (s, a) =>
            let s := onQp s v q (fun x => { x with ops := rest, error := x.error || cqStatus a st != 0 })
            sendDecs s v p.cfg.asid neKey none (if o.entry.all (· == 0) then [] else cntField (field o.entry 48 4))
              (rels := [engineRel 5 3 7 (chanOf s (.queue v q))])

/-- NET_COMPLETION (R44). -/
def netComplete (s : State) (v q : Nat) (res : NetResult) : State := netEnd (netAnswer s v q res) v q
def execNetCompletion (vd : Vd) (q : Nat) (res : NetResult) (s : State) : Answer := .next (flushRecs (netComplete s vd.val q res))

end Sys2Proof.Machine
end

