-- ==== Sys2Proof/Machine/Storage.lean ====
section
/-! DEFINITION. Braze links and remote accesses (R58, R59), flash windows and block rings (R60 to R63), the debug port (R28). -/
namespace Sys2Proof.Machine

/-! NAND namespaces. -/

/-- The blocks of a namespace among those of a list that share so many blocks. -/
def nsBlocks (nsid : Nat) : Nat → List (Nat × Nat) → Nat
  | _, [] => 0
  | left, e :: l => if e.1 = nsid then min e.2 left else nsBlocks nsid (left - e.2) l
/-- The module's flash has 32 TiB (R1): the namespaces hold no more together. -/
def namespaceBlocks (nsid : Nat) : Nat := nsBlocks nsid (2 ^ 33) Config.namespaces

def nandKey (nsid lba : Nat) : Nat := 2 ^ 52 * nsid + 4096 * lba
def trimKey (nsid lba : Nat) : Nat := 2 ^ 40 * nsid + lba
/-- The 4,096 bytes of a block; a trimmed block's are free. -/
def nandBlock (s : State) (nsid lba : Nat) : Bytes :=
  match s.mem.trimmed.find (trimKey nsid lba) with
  | some k => (List.range 4096).map (Config.trimByte k)
  | none => (List.range 4096).map (fun i => cellAt s.mem.nand (nandKey nsid lba + i))
def nandPut (s : State) (nsid lba : Nat) (b : Bytes) : State :=
  s.onMem fun m => { m with nand := cellsPut m.nand (nandKey nsid lba) b, trimmed := m.trimmed.del (trimKey nsid lba) }
/-- A trimmed block: its bytes are free values from now on. -/
def nandTrim (s : State) (nsid lba : Nat) : State :=
  let k := s.sch.free
  let s := s.onSch fun c => { c with free := c.free + 1 }
  s.onMem fun m =>
    { m with nand := m.nand.filter (fun e => decide (e.1 < nandKey nsid lba ∨ nandKey nsid lba + 4096 ≤ e.1)),
             trimmed := m.trimmed.put (trimKey nsid lba) k }

/-- The threads in WAITA on the n blocks of a namespace from lba on. -/
def flashWaiters (s : State) (nsid lba n : Nat) : List (Nat × Nat) :=
  s.cores.groups.flatMap (fun g => (List.range g.threads.length).filterMap (fun i =>
    match (g.thread i).st with
    | .wait (.waita r) => (match r.place with
      | .mem (.flash _ k b _) => if k = nsid ∧ lba ≤ b ∧ b < lba + n then some (g.gid, i) else none
      | _ => none)
    | _ => none))
/-- Blocks of a namespace from lba on leave every flash-window buffer, and a WAITA on one of them reads its word again (R63). -/
def flashDrop (s : State) (nsid lba n : Nat) : State :=
  let s := s.onMem fun m => { m with flash := m.flash.filter (fun b => !(b.nsid == nsid && decide (lba ≤ b.lba ∧ b.lba < lba + n))) }
  (flashWaiters s nsid lba n).foldl (fun s e => s.queue (.ev .waitaWake { Sel.none with n := e.1, k := e.2 })) s

/-- R60, R61: the oldest fill asked for a block of a VD ends: the block enters its window's buffer, the least recently used one leaving
when that is full, and the loads that wait for it run again. -/
def flashFill (s : State) (v nsid lba : Nat) (readOk : Bool) : State :=
  match s.mem.fills.find? (fun f => f.1 == v && f.2.2 == (nsid, lba)) with
  | none => s
  | some f =>
    let win := f.2.1
    let s := tick (s.onMem fun m => { m with fills := m.fills.erase f })
    let mine := s.mem.flash.filter (fun b => b.vd == v && b.win == win)
    let s := if mine.length < max 1 (256 * flBuf s v) then s
      else match leastBy (fun (b : FlashBlock) => b.stamp) mine with
        | some b => s.onMem fun m => { m with flash := m.flash.erase b }
        | none => s
    let blk : FlashBlock :=
      { vd := v, win := win, nsid := nsid, lba := lba, data := nandBlock s nsid lba, poisoned := !readOk, stamp := s.mem.clock }
    let s := s.onMem fun m => { m with flash := m.flash ++ [blk] }
    let s := if readOk then s
      else offerRec s v { type := 0x0C, sev := 1, vd := v, unit := 0x401, addr := some nsid, data0 := lba }
    rerun s (.flash win nsid lba)
/-- FLASH_BLOCK_FILL (R60). -/
def execFlashBlockFill (vd : Vd) (nsid lba : Nat) (readOk : Bool) (s : State) : Answer :=
  .next (flushRecs (flashFill s vd.val nsid lba readOk))

/-! Block rings (R62, R63). -/

abbrev bNs (e : Bytes) : Nat := field e 4 4
abbrev bLba (e : Bytes) : Nat := field e 8 8
abbrev bCount (e : Bytes) : Nat := field e 16 4
abbrev bBuf (e : Bytes) : Nat := field e 24 8

/-- The status a request's own fields decide. That a Flush with a nonzero COUNT and a BUF that is not aligned are BAD_OP is the model's
choice: the spec gives the limits and no status. -/
def blockCheck (e : Bytes) : Option Nat :=
  if wOp e = 0 ∨ 4 < wOp e then some 1
  else if zeros e 1 4 = false ∨ zeros e 40 60 = false ∨ wCtrl e % 2 ^ 31 ≠ 0 then some 8
  else if wOp e = 4 then (if bCount e ≠ 0 then some 1 else none)
  else if bCount e = 0 ∨ 65536 < bCount e ∨ (wOp e ≤ 2 ∧ bBuf e % 4096 ≠ 0) then some 1
  else if namespaceBlocks (bNs e) < bLba e + bCount e then some 9
  else none

/-- How a request that has been taken stands: made, with the status it decides, if it does; it cannot be made yet; or it has read more of
its data and cannot read on yet. -/
inductive Moved where
  | done (st : Option Nat)
  | later
  | more (b : Bytes) (bad : Bool)
  deriving DecidableEq, Repr

/-- Blocks programmed from some bytes. -/
def nandPuts (s : State) (nsid lba n : Nat) (b : Bytes) : State :=
  (List.range n).foldl (fun s i => nandPut s nsid (lba + i) ((b.drop (4096 * i)).take 4096)) s
/-- A request's transfer. -/
def runBlock (s : State) (v : Nat) (x : Qp) (e : Bytes) : State × Moved :=
  let eng := ioEng v x.cfg.asid
  match blockCheck e with
  | some st => (s, .done (some st))
  | none =>
    match wOp e with
    | 1 =>
      match engWriteN s eng (bBuf e) ((List.range (bCount e)).flatMap (fun i => nandBlock s (bNs e) (bLba e + i))) with
      | (s, .ok _) => (s, .done none)
      | (s, .error .wait) => (s, .later)
      | (s, .error _) => (s, .done (some 3))
    | 2 =>
      match readRest s eng x (bBuf e) (4096 * bCount e) with
      | (s, b, bad, some .wait) => (s, .more b bad)
      | (s, _, _, some _) => (s, .done (some 3))
      | (s, b, bad, none) =>
        if bad then (s, .done (some 7))
        else (flashDrop (nandPuts s (bNs e) (bLba e) (bCount e) b) (bNs e) (bLba e) (bCount e), .done none)
    | 3 => ((List.range (bCount e)).foldl (fun s i => nandTrim s (bNs e) (bLba e + i)) s, .done none)
    | _ => (s, .done none)

/-- The request at HEAD of a block ring, as R42 takes work entries, on path SG. -/
def blockTake (s : State) (v q op : Nat) : State :=
  match findQp s v q with
  | none => s
  | some p =>
    if !p.cfg.block || !p.takes then s
    else
      match readHead s v p with
      | (s, .error none) => s
      | (s, .error (some st)) => if op = 1 then tookOp s v q p (List.replicate 64 0) (some st) 0 0 else s
      | (s, .ok (e, bad)) =>
        if bit (wCtrl e) 31 ≠ ownerBit p.head p.cfg.sqLog2 then stopQp s v q
        else if (if wOp e = 0 ∨ 4 < wOp e then 1 else wOp e) ≠ op then s
        else if bad then tookOp s v q p e (some 7) 0 0
        else
          match runBlock s v p e with
          | (t, .later) => askOnly s t
          | (t, .more b bad) => keepPart (askOnly s t) v q b bad
          | (s, .done st) => tookOp s v q p e st 0 0

/-- BLOCK_READ, BLOCK_WRITE, BLOCK_TRIM and BLOCK_FLUSH (R62, R63). -/
def execBlockRead (s : State) : Answer := .next (flushRecs (blockTake s s.sch.sel.vd.val s.sch.sel.n 1))
def execBlockWrite (s : State) : Answer := .next (flushRecs (blockTake s s.sch.sel.vd.val s.sch.sel.n 2))
def execBlockTrim (s : State) : Answer := .next (flushRecs (blockTake s s.sch.sel.vd.val s.sch.sel.n 3))
def execBlockFlush (s : State) : Answer := .next (flushRecs (blockTake s s.sch.sel.vd.val s.sch.sel.n 4))

/-- BLOCK_COMPLETION (R62, R63): the request with a ring index ends, in any order. -/
def blockComplete (s : State) (v q idx : Nat) (mediaOk : Bool) : State :=
  match findQp s v q with
  | none => s
  | some p =>
    match p.ops.find? (fun o => o.idx == idx) with
    | none => s
    | some o =>
      if !p.cfg.block || Qp.full p then s
      else
        let st := o.status.getD (if mediaOk then 0 else if wOp o.entry = 1 then 7 else 10)
        match writeCq s v q (leBytes 8 (field o.entry 32 8) ++ leBytes 2 st ++ leBytes 2 0) with
        | (s, .wait) => opDecided s v q o st 0 0
        | (s, a) =>
          let s := onQp s v q (fun x => { x with ops := x.ops.erase o, error := x.error || cqStatus a st != 0 })
          sendDecs s v p.cfg.asid sgKey none (if o.entry.all (· == 0) then [] else cntField (field o.entry 20 4))
            (rels := [engineRel 5 5 7 (chanOf s (.queue v q))])
def execBlockCompletion (vd : Vd) (q idx : Nat) (mediaOk : Bool) (s : State) : Answer :=
  .next (flushRecs (blockComplete s vd.val q idx mediaOk))

/-! Braze (R58, R59). -/

def linkRec (s : State) (port what : Nat) : State :=
  offerRec s 0 { type := 0x08, sev := 1, vd := 0, unit := 0x401, addr := some port, data0 := what }

/-- BRAZE_FLIT_RECEIVE (R58): a group that fails its checks is replayed; after eight replays the link is taken down. -/
def flitReceive (s : State) (port flits : Nat) (ok : Bool) : State :=
  let p := brazeOf s port
  if !p.up || !p.keyed then s
  else if ok then onBraze s port (fun p => { p with flits := p.flits + flits, replays := 0 })
  else if p.replays + 1 < 8 then onBraze s port (fun p => { p with replays := p.replays + 1 })
  else linkRec (onBraze s port (fun p => { p with up := false, keyed := false, replays := 0 })) port 0
def execBrazeFlitReceive (port : Fin 16) (flits : Nat) (ok : Bool) (s : State) : Answer :=
  .next (flushRecs (flitReceive s port.val flits ok))
/-- BRAZE_REKEY (R58): due once 2^32 flits have passed under a key. -/
def execBrazeRekey (s : State) : Answer :=
  .next (if (brazeOf s s.sch.sel.n).keyed && decide (2 ^ 32 ≤ (brazeOf s s.sch.sel.n).flits) then
      onBraze s s.sch.sel.n (fun p => { p with keyEpoch := p.keyEpoch + 1, flits := 0 })
    else s)

/-- The write or the atomic of a remote access that is outstanding is performed. -/
def remoteDo (s : State) (o : RemoteOp) : State :=
  if o.store then remoteWrite s o.pkg o.frame o.off o.data
  else if o.atomic then (remoteRmw s o.pkg o.frame o.off (field o.data 0 1) (rmwOfBytes o.data)).1
  else s

/-- Some remote accesses are outstanding no more: their threads that wait for them run again, unless another read of theirs is. -/
def remoteOver (s : State) (ops : List RemoteOp) : State :=
  wakeThreads s (fun g i x => x.st == .wait .remote && ops.any (fun o => o.gid == g.gid && o.tid == i) && !readOut s g i) Thread.again

/-- BRAZE_LINK_BRING_UP (R58): the link carries flits under new keys; stores that were outstanding go through, and loads and
atomics run again. -/
def execBrazeLinkBringUp (s : State) : Answer :=
  let n := s.sch.sel.n % 16
  let s := onBraze s n (fun p => { up := true, keyed := true, keyEpoch := p.keyEpoch + 1, flits := 0, replays := 0 })
  let mine := s.net.remoteOps.filter (fun o => o.port == n)
  let s := s.onNet fun x => { x with remoteOps := x.remoteOps.filter (fun o => o.port != n) }
  .next (remoteOver ((mine.filter (·.store)).foldl remoteDo s) mine)

/-- Does a thread wait for a remote read? -/
def Thread.awaitsLink (x : Thread) : Bool :=
  match x.st with
  | .wait .remote | .wait (.waita _) => true
  | _ => false
/-- REMOTE_ACCESS_TIMEOUT (R59): the access ends: a load or an atomic with poison, which its thread consumes; the write of a store or
an atomic is performed or not. -/
def remoteTimeout (s : State) (port idx : Nat) (performed : Bool) : State :=
  match (s.net.remoteOps.filter (fun o => o.port == port))[idx]? with
  | none => s
  | some o =>
    let s := s.onNet fun x => { x with remoteOps := x.remoteOps.erase o }
    let s := linkRec (if performed then remoteDo s o else s) port 1
    if o.store then remoteOver s [o]
    else
      match findGroup s o.gid with
      | none => s
      | some g => if (g.thread o.tid).awaitsLink then takeTraps s g (g.thread o.tid).pc.toNat [(o.tid, machineCheck none none)] else s
def execRemoteAccessTimeout (port : Fin 16) (idx : Nat) (performed : Bool) (s : State) : Answer :=
  .next (flushRecs (remoteTimeout s port.val idx performed))

/-! The debug port (R28). -/

/-- DEBUG_PORT_ACCESS: mode 01 reads the monitor RAS ring only, mode 10 any memory; else nothing. -/
def execDebugPortAccess (spa len : Nat) (s : State) : Answer :=
  let q := ringOf s 0
  let base := bits q.base.toNat 63 12 * 4096
  let ring := decide (base ≤ spa ∧ spa + len ≤ base + 64 * 2 ^ bits q.base.toNat 6 2)
  .next (if s.bdy.dbgMode = 2 ∨ (s.bdy.dbgMode = 1 ∧ ring) then s.emit (.debug (readMem s spa len)) else s)

end Sys2Proof.Machine
end

