-- ==== Sys2Proof/Machine/VdLife.lean ====
section
/-! DEFINITION. Virtual devices: their control registers (R79), life cycle (R81), reset (R84, R85, R130), and the calendar's owners
(R82, R123). -/
namespace Sys2Proof.Machine

/-! Key identifiers. -/

/-- Is a key identifier held by a VD or by an enabled solder window? -/
def kidUsed (s : State) (k : Nat) : Bool :=
  (List.range 16).any (fun v => (vdRec s v).keyValid && (vdRec s v).kid.toNat == k) || s.trn.solder.any (fun e => e.2.en && e.2.kid.toNat == k)
/-- The lowest free identifier among 1 to 63. -/
def freeKid (s : State) : Option Nat := (rangeFrom 1 63).find? (fun k => !kidUsed s k)

def vdRefuse (s : State) (v r : Nat) : State := setVd s v (fun x => { x with refused := true, reason := BitVec.ofNat 8 r })

/-! Life cycle (R81). -/

/-- CMD BUILD. -/
def vdBuild (s : State) (v : Nat) : State :=
  match vdState s v with
  | .empty =>
    match freeKid s with
    | none => vdRefuse s v 5
    | some k => newKey (setVd s v (fun x => { x with st := .built, keyValid := true, kid := BitVec.ofNat 6 k })) k
  | .resetting => s
  | _ => vdRefuse s v 4

/-- Reason 1: a field outside its limits, or a range that passes the end of its resource. -/
def quotaBad (s : State) (v : Nat) : Bool :=
  let out := fun (b n lo hi : Nat) => decide (n < lo ∨ hi < b + n)
  out (rtBase s v) (rtCnt s v) 8 256 || out (segBase s v) (segCnt s v) 1 64 || out (rowBase s v) (rowCnt s v) 32 512
    || out (slotBase s v) (slotCnt s v) 1 16 || out (swgBase s v) (swgCnt s v) 0 8 || out (accBase s v) (accCnt s v) 0 16
    || out (rsvBase s v) (rsvCnt s v) 0 32 || (rsvCnt s v == 0 && accCnt s v != 0) || out (cntBase s v) (cntCnt s v) 256 65536
    || mscWays s v == 0 || l2Ways s v == 0
    || bits (vdRec s v).queue.toNat 55 48 == 0 || bits (vdRec s v).queue.toNat 46 40 == 0 || decide (64 < bits (vdRec s v).queue.toNat 46 40)
    || decide (lqLog2 s v < 4 ∨ 12 < lqLog2 s v) || rxBuf s v == 0 || decide (831 < rpcCore s v)
    || decide (831 < bits (vdRec s v).vtimer.toNat 57 48)

/-- Reason 2: an overlap of two VDs. -/
def quotaCross (s : State) (v u : Nat) : Bool :=
  overlap (rtBase s v) (rtCnt s v) (rtBase s u) (rtCnt s u) || overlap (segBase s v) (segCnt s v) (segBase s u) (segCnt s u)
    || overlap (rowBase s v) (rowCnt s v) (rowBase s u) (rowCnt s u) || overlap (slotBase s v) (slotCnt s v) (slotBase s u) (slotCnt s u)
    || overlap (swgBase s v) (swgCnt s v) (swgBase s u) (swgCnt s u) || overlap (accBase s v) (accCnt s v) (accBase s u) (accCnt s u)
    || overlap (rsvBase s v) (rsvCnt s v) (rsvBase s u) (rsvCnt s u) || overlap (cntBase s v) (cntCnt s v) (cntBase s u) (cntCnt s u)
    || nAnd (mscWays s v) (mscWays s u) != 0 || nAnd (l2Ways s v) (l2Ways s u) != 0

/-- Does a VD own a slot in a table? -/
def ownsSlot (t : Vector DWord 4) (v : Nat) : Bool := (List.range 64).any (fun n => slotOwner t n == v)

/-- Why RUN is refused; 0 when it is not. -/
def runReason (s : State) (v : Nat) : Nat :=
  if quotaBad s v then 1
  else if (List.range 16).any (fun u => u != v && (vdState s u == .run || vdState s u == .resetting) && quotaCross s v u) then 2
  else if !ownsSlot s.vds.calLast v then 3
  else 0

/-- Does another VD in RUN hold a number of a resource, as it may where a BUILT VD's range, which only RUN checks, lies over its own? -/
def othersHold (s : State) (v x : Nat) (base cnt : State → Nat → Nat) : Bool :=
  (List.range 16).any (fun u => u != v && vdState s u == .run && inRange x (base s u) (cnt s u))
/-- The residue tiles that a VD holds of its range, and no other VD in RUN, are +0 in every cluster (R85, R368). -/
def clearResidue (s : State) (v : Nat) : State :=
  s.onLoc fun l => { l with residue := l.residue.keep (fun k =>
    !(inRange (k / 4096 % 16) (accBase s v) (accCnt s v) && tileIn s v (k / 4096 % 16) && !othersHold s v (k / 4096 % 16) accBase accCnt)) }

/-- The lent slots of a VD are served from the lowest borrower again (R82). -/
def dropLent (s : State) (v : Nat) : State := s.onVds fun x => { x with lent := x.lent.keep (fun k => k % 16 != v) }

/-- A VD enters RUN: the calendar's and dispatchers' places for it start anew. -/
def enterRun (s : State) (v : Nat) : State :=
  let s := dropLent (setVd s v (fun x => { x with st := .run })) v
  clearResidue (s.onLq fun q => { q with toggles := q.toggles.keep (fun k => k / 4 != v) }) v

/-- CMD RUN. -/
def vdRun (s : State) (v : Nat) : State :=
  match vdState s v with
  | .built => if runReason s v = 0 then enterRun s v else vdRefuse s v (runReason s v)
  | .resetting => s
  | _ => vdRefuse s v 4

/-- CMD DESTROY. -/
def vdDestroy (s : State) (v : Nat) : State :=
  match vdState s v with
  | .built =>
    if s.trn.fot.any (fun e => e.2.st == .owned && e.2.owner == v) then vdRefuse s v 6
    else setVd s v (fun x => { x with st := .empty, keyValid := false, kid := 0 })
  | .resetting => s
  | _ => vdRefuse s v 4

/-! Reset (R84). -/

/-- Step 1: the VD's groups, their blocks, and all work not yet placed are gone; shadows of its launches are discarded (R232). Stores
and atomics that have issued stay; loads still outstanding do not. -/
def resetGroups (s : State) (v : Nat) : State :=
  let s := (s.lq.launches.filter (fun l => l.vd == v)).foldl (fun s l => discardShadows s l.lid) s
  let gs := (s.cores.groups.filter (fun g => g.vd == v)).map (·.gid)
  let teams := (s.cores.blocks.filter (fun b => b.vd == v)).filterMap (·.team)
  let s := s.onCores fun c =>
    { c with
      groups := c.groups.filter (fun g => g.vd != v)
      blocks := c.blocks.filter (fun b => b.vd != v)
      teams := c.teams.keep (fun t => !teams.contains t)
      posts := c.posts.filter (fun p => !(p.idx.isNone && p.gid.any (fun g => gs.contains g))) }
  let s := s.onLq fun q =>
    { q with launches := q.launches.filter (fun l => l.vd != v), tasks := q.tasks.filter (fun t => t.vd != v),
             ready := q.ready.keep (fun k => k / 4 != v), decs := q.decs.filter (fun d => d.vd != v) }
  let s := s.onNet fun n => { n with remoteOps := n.remoteOps.filter (fun r => r.store || r.atomic || !gs.contains r.gid) }
  resetPairs s v

/-- Step 2: engine contexts, queue pairs and block rings, collectives and secure domains end; landing windows drain, once the moves of its pages have ended, and close. -/
def resetEngines (s : State) (v : Nat) : State :=
  let s := s.onLoc fun l =>
    { l with
      swage := l.swage.filter (fun e => e.2.job.vd != v)
      swageQueue := l.swageQueue.map (fun e => (e.1, e.2.filter (fun j => j.vd != v)))
      swageLast := l.swageLast.keep (fun k => k % 16 != v)
      windows := l.windows.filter (fun e => e.2.vd != v)
      places := l.places.filter (fun x => !l.entries.any (fun e => e.2.vd == v && e.1 == x.2.1))
      entries := l.entries.filter (fun e => e.2.vd != v)
      engines := l.engines.keep (fun k => k % 16 != v)
      mxQueue := l.mxQueue.keep (fun k => k % 16 != v)
      colls := l.colls.filter (fun c => c.vd != v) }
  let s := (qpsOf s v).foldl (fun s e => dropHeld s v e.1) s
  let s := s.onNet fun n =>
    { n with
      qps := (qpsOf s v).foldl (fun t e => t.del (qpKey v e.1)) n.qps
      rxUsed := n.rxUsed.del v
      lastQ := n.lastQ.keep (fun k => k / 2 != v)
      domains := n.domains.filter (fun e => !joins e.2 v) }
  let s := s.onRpc fun r => { r with pending := r.pending.filter (fun p => p.vd != v) }
  let s := s.onMem fun m => { m with fills := m.fills.filter (fun f => f.1 != v), flash := m.flash.filter (fun f => f.vd != v) }
  let s := finishMoves s (fun m => m.vd == v)
  let ws := [0, 1].flatMap (fun ep => ((List.range 32).filter (fun w => let d := lwdOf s ep w; Lwd.en d && Lwd.vd d == v)).map (fun w => (ep, w)))
  ws.foldl (fun s x =>
    onLwd (putHeld (landHeld s x.1 x.2 (fun _ => true)) x.1 x.2 []) x.1 x.2 (fun d => { d with ctl := BitVec.ofNat 64 (setBits d.ctl.toNat 31 31 0) })) s

/-- The frames of a solder window. -/
def Solder.first (w : Solder) : Nat := bits w.range.toNat 23 0
def Solder.count (w : Solder) : Nat := bits w.range.toNat 62 48
def Solder.frames (w : Solder) : List Nat := rangeFrom w.first w.count
def Solder.holder (w : Solder) : Nat := if w.holderB then w.vdb.toNat else w.vda.toNat
def Solder.other (w : Solder) : Nat := if w.holderB then w.vda.toNat else w.vdb.toNat
/-- The entry of a window's frames when a VD holds it. -/
def Solder.frame (w : Solder) (n : Nat) : Frame :=
  { Frame.free with st := .solder, owner := w.holder, kid := w.kid.toNat, peer := w.other, swin := n }

/-- Step 4: the moves of its pages end, the VD's frames go to the monitor, its solder windows to the other VD, all scrubbed; then its L1 ways are cleared (R160)
and no translation of it is left. -/
def resetFrames (s : State) (v : Nat) : State :=
  let s := finishMoves s (fun m => m.vd == v)
  let own := (s.trn.fot.filter (fun e => (e.2.st == .owned || e.2.st == .shadow || e.2.st == .migrating) && e.2.owner == v)).map (·.1)
  let s := own.foldl (fun s f => setFrame (scrubFrame s f) f { Frame.free with st := .owned }) s
  let ws := s.trn.solder.filter (fun e => e.2.en && (e.2.vda.toNat == v || e.2.vdb.toNat == v))
  let s := ws.foldl (fun s e =>
    let w := { e.2 with holderB := e.2.vda.toNat == v }
    let s := s.onTrn fun t => { t with solder := t.solder.put e.1 w }
    w.frames.foldl (fun s f => setFrame (scrubFrame s f) f (w.frame e.1)) s) s
  let old := waysOf s v
  let s := (l1Keys s (fun k l => l.vd == v && bit (nOr old.ways.toNat old.next.toNat) (k % 4096 / 64))).foldl l1Evict s
  let s := onWays (clearSegs s (nOr old.ways.toNat old.next.toNat)) v (fun w => { w with ways := 0, busy := false, leaving := 0, next := 0 })
  s.onTrn fun t =>
    { t with tlb := t.tlb.filter (fun e => e.vd != v), ntlb := t.ntlb.filter (fun e => e.vd != v),
             windows := t.windows.filter (fun e => e.1 != v), sealedPages := t.sealedPages.filter (fun e => e.1 != v) }

/-- A HANDSHAKE for the VD's key that has been accepted and not served yet. -/
def queuedKey (v : Nat) : Turn → Option (Transport × Bytes)
  | .ev (.handshakeRpcKey via m) _ => if mVd m = v then some (via, m) else none
  | _ => none

/-- Requests pending for the VD, its ATTEST requests in the slots of VD 0 and its HANDSHAKEs with them, are answered RESET under the old key;
the registers, slots, key and window are then cleared. -/
def resetRpc (s : State) (v : Nat) : State :=
  let reset := fun (u : Nat) (s : State) (e : Nat × RpcReq) =>
    slotSend s u e.1 e.2 false (replyMsg e.2.vd e.2.call.toNat e.2.seq.toNat 6 [])
  let s := (rpcOf s v).slots.foldl (reset v) s
  let s := ((rpcOf s 0).slots.filter (fun e => e.2.vd == v)).foldl (reset 0) s
  let s := (s.sch.todo.filterMap (queuedKey v)).foldl (fun s x => hReply s x.1 x.2 6 []) s
  let s := s.onSch fun c => { c with todo := c.todo.filter (fun t => (queuedKey v t).isNone) }
  let s := (s.rpc.late.filter (fun x => mVd x.2 == v)).foldl (fun s x => hReply s x.1 x.2 6 []) s
  let s := s.onRpc fun r => { r with late := r.late.filter (fun x => mVd x.2 != v) }
  onRpcVd s v (fun r => { r with key := none, high := 0, map := 0, rx := 0, slots := [], result := 0 })

/-- Step 5: what the VD had in counters, queues, rings, bounds, registers and keys is cleared; its data key is a new one. -/
def resetState (s : State) (v : Nat) : State :=
  let s := clearResidue s v
  let s := s.onLq fun q =>
    { q with counters := q.counters.keep (fun k =>
               !(inRange (k % 65536) (cntBase s v) (cntCnt s v) && !othersHold s v (k % 65536) cntBase cntCnt)), queues := q.queues.del v }
  let s := s.onCores fun c =>
    { c with svq := c.svq.keep (fun k => k % 16 != v), posts := c.posts.filter (fun p => p.vd != v), srvPc := c.srvPc.del v,
             srvCfg := c.srvCfg.del v, issue := c.issue.keep (fun k => k % 16 != v) }
  let s := s.onLoc fun l => { l with bounds := l.bounds.keep (fun k => k / 32 % 16 != v) }
  let s := s.onRas fun r => { r with rings := r.rings.del v, pending := r.pending.filter (fun p => p.1 != v) }
  let s := s.onNet fun n => { n with regs := n.regs.del v }
  let s := s.onOrd fun o => { o with chan := o.chan.filter (fun e => match e.1 with
    | .launches u | .queue u _ | .ring u _ => u != v
    | _ => true) }
  newKey (resetRpc s v) (vdRec s v).kid.toNat

/-- Steps 4 and 5. -/
def resetTail (s : State) (v : Nat) : State := setVd (resetState (resetFrames s v) v) v (fun x => { x with st := .built })
/-- All five steps; step 3 holds while the VD is not in RUN (R82). -/
def resetAll (s : State) (v : Nat) : State :=
  resetTail (resetEngines (resetGroups (setVd s v (fun x => { x with st := .resetting })) v) v) v

/-- CMD RESET. -/
def vdReset (s : State) (v : Nat) : State :=
  if v = 0 then s
  else
    match vdState s v with
    | .run => resetAll s v
    | .built => resetTail (resetPairs (setVd s v (fun x => { x with st := .resetting })) v) v
    | .resetting => s
    | .empty => vdRefuse s v 4

/-- A command is ignored for VD 0. -/
def vdCmd (s : State) (v c : Nat) : State :=
  if v = 0 then s else if c = 1 then vdBuild s v else if c = 2 then vdRun s v else if c = 3 then vdReset s v
  else if c = 4 then vdDestroy s v else s

/-- VD_BUILD, VD_RUN, VD_RESET and VD_DESTROY (R81, R84). -/
def execVdBuild (s : State) : Answer := .next (vdCmd s s.sch.sel.vd.val 1)
def execVdRun (s : State) : Answer := .next (vdCmd s s.sch.sel.vd.val 2)
def execVdReset (s : State) : Answer := .next (flushRecs (vdCmd s s.sch.sel.vd.val 3))
def execVdDestroy (s : State) : Answer := .next (vdCmd s s.sch.sel.vd.val 4)

/-! The ten registers (R79). -/

def VdSt.code : VdSt → Nat
  | .empty => 0 | .built => 1 | .run => 2 | .resetting => 3

def vdqRead (s : State) (v k : Nat) : Nat :=
  let r := vdRec s v
  if k = 0 then 256 * r.reason.toNat + 64 * r.refused.toNat + 32 * r.priv.toNat + 8 * r.st.code
  else if k = 1 then r.core.toNat else if k = 2 then r.clu.toNat else if k = 3 then r.cache.toNat else if k = 4 then r.cnt.toNat
  else if k = 5 then r.queue.toNat else if k = 6 then 64 * r.keyValid.toNat + r.kid.toNat else if k = 7 then r.lend.toNat
  else if k = 8 then r.vtimer.toNat else r.rpc.toNat

/-- VDQ_CTL: PRIV and REFUSED are written, then the command runs. -/
def vdCtlWrite (s : State) (v x : Nat) : State :=
  vdCmd (setVd s v (fun r => { r with priv := bit x 5, refused := r.refused && !bit x 6 })) v (x % 8)

def vdqWrite (s : State) (v k : Nat) (x : DWord) : State :=
  let x' := x &&& vdqMask k
  if k = 0 then vdCtlWrite s v x.toNat
  else if k = 6 then s
  else if k = 7 then dropLent (setVd s v (fun r => { r with lend := x' })) v
  else if k = 8 then movePosts (setVd s v (fun r => { r with vtimer := x' })) v .vtimer (bits x'.toNat 57 48)
  else if k = 9 then let s := setVd s v (fun r => { r with rpc := x' }); movePosts s v .rpc (rpcCore s v)
  else if vdState s v = .run ∨ vdState s v = .resetting then vdRefuse s v 4
  else setVd s v (fun r =>
    if k = 1 then { r with core := x' } else if k = 2 then { r with clu := x' } else if k = 3 then { r with cache := x' }
    else if k = 4 then { r with cnt := x' } else { r with queue := x' })

/-- VDQ_QUOTA_WRITE (R79, R81). -/
def execVdqQuotaWrite (v : Vd) (k : Fin 10) (x : BitVec 64) (s : State) : Answer := .next (flushRecs (vdqWrite s v.val k.val x))

/-! The calendar's owners (R82, R123). -/

def calTable (s : State) (j : Nat) (x : DWord) : Vector DWord 4 := s.vds.calLast.setIfInBounds j x
/-- R123: a table that leaves VD 0 or a VD in RUN or RESETTING without a slot is ignored. -/
def calOk (s : State) (t : Vector DWord 4) : Bool :=
  (List.range 16).all (fun v => ownsSlot t v || !(v == 0 || vdState s v == .run || vdState s v == .resetting))
def calWrite (s : State) (j : Nat) (x : DWord) : State :=
  if calOk s (calTable s j x) then s.onVds fun c => { c with calLast := calTable s j x } else s
def calRead (s : State) (j : Nat) : Nat := (s.vds.calLast[j]?.getD 0).toNat
def execCalOwnWrite (j : Fin 4) (x : BitVec 64) (s : State) : Answer := .next (calWrite s j.val x)

/-- CALENDAR_ROUND_START (R82, R119): the table last written takes effect. -/
def execCalendarRoundStart (s : State) : Answer := .next (s.onVds fun c => { c with calForce := c.calLast })

end Sys2Proof.Machine
end

