-- ==== Sys2Proof/Machine/Solder.lean ====
section
/-! DEFINITION. Solder windows, their handoff and re-key (R228 to R230, R388), and the registers of the frame ownership table (R224),
the shadow pools (R231) and the RAS rings (R236). -/
namespace Sys2Proof.Machine

/-! Frame ownership table (R224). -/

def FrSt.code : FrSt → Nat
  | .free => 0 | .scrub => 1 | .owned => 2 | .solder => 3 | .shadow => 4 | .migrating => 5

/-- FOT_DATA: the low 8 bytes of the entry FOT_IDX names; all ones when it names no frame. -/
def fotData (s : State) : Nat :=
  let i := s.trn.fotIdx.toNat
  if frameCount ≤ i then 2 ^ 64 - 1
  else
    let f := frameAt s i
    f.st.code + 2 ^ 8 * f.owner + 2 ^ 16 * f.kid + 2 ^ 24 * f.peer + 2 ^ 32 * f.link + 2 ^ 56 * f.swin

/-! Solder windows. -/

def Solder.reset : Solder :=
  { en := false, refused := false, busy := false, holderB := false, vda := 0, vdb := 0, hseq := 0, kid := 0, range := 0, hwa := 0, hwb := 0 }
def solderOf (s : State) (n : Nat) : Solder := s.trn.solder.at Solder.reset n
def onSolder (s : State) (n : Nat) (f : Solder → Solder) : State :=
  s.onTrn fun t => { t with solder := t.solder.put n (f (t.solder.at Solder.reset n)) }

/-- The SPA of a handoff word that translates writable at stage 2 on a frame its VD owns. -/
def handoffWord (s : State) (v gpa : Nat) : State × Option Nat :=
  match gpaXlate s v gpa true with
  | (s, .error _) => (s, none)
  | (s, .ok a) => (s, if ownsFrame s v a then some a else none)
/-- The same as a check, which changes nothing: is there such an address? None while its page is being migrated (R209). -/
def wordGood (s : State) (v gpa : Nat) : Option Bool :=
  match gpaPeek s v gpa true with
  | .error .mig => none
  | .error _ => some false
  | .ok a => some (ownsFrame s v a)

/-- Both handoff words of a window. -/
def wordsGood (s : State) (w : Solder) : Option Bool :=
  bothOk (wordGood s w.vda.toNat w.hwa.toNat) (wordGood s w.vdb.toNat w.hwb.toNat)
/-- R229: is EN refused, its handoff words apart? -/
def solderRefused (s : State) (w : Solder) : Bool :=
  let a := w.vda.toNat
  let b := w.vdb.toNat
  a == b || a == 0 || b == 0 || !vdRuns s a || !vdRuns s b || w.count == 0 || decide (16384 < w.count) || decide (frameCount < w.first + w.count)
    || w.frames.any (fun f => (frameAt s f).st != .free)
    || s.trn.solder.any (fun e => e.2.en && overlap w.first w.count e.2.first e.2.count)
    || (freeKid s).isNone

/-- A window as a write of SLD_CTL makes it. -/
def Solder.wrote (w : Solder) (x : Nat) : Solder := { w with vda := BitVec.ofNat 4 (bits x 43 40), vdb := BitVec.ofNat 4 (bits x 47 44) }
/-- Does a write of SLD_CTL that sets EN wait for the page of a handoff word (R209)? -/
def sldWaits (s : State) (n x : Nat) : Bool :=
  let w := (solderOf s n).wrote x
  !(solderOf s n).en && bit x 0 && !solderRefused s w && (wordsGood s w).isNone
/-- EN set: the frames are scrubbed under the window's new key. A write that waits changes nothing yet. -/
def solderEnable (s : State) (n x : Nat) : State :=
  let w := (solderOf s n).wrote x
  if sldWaits s n x then s
  else if solderRefused s w || wordsGood s w == some false then onSolder s n (fun w => { w with refused := true })
  else
    let k := (freeKid s).getD 0
    let w := { w with en := true, refused := w.refused && !bit x 1, holderB := false, kid := BitVec.ofNat 6 k }
    let s := newKey (onSolder s n (fun _ => w)) k
    w.frames.foldl (fun s f => setFrame (scrubFrame s f) f (w.frame n)) s

/-- EN cleared: the frames are scrubbed to FREE and the key identifier is freed. -/
def solderDisable (s : State) (n : Nat) : State :=
  let w := solderOf s n
  if !w.en then s
  else w.frames.foldl (fun s f => setFrame (scrubFrame s f) f Frame.free) (onSolder s n (fun w => { w with en := false, kid := 0 }))

def sldCtlWrite (s : State) (n x : Nat) : State :=
  if (solderOf s n).en then (if bit x 0 then s else solderDisable s n)
  else if bit x 0 then solderEnable s n x
  else onSolder s n (fun w => { w.wrote x with refused := w.refused && !bit x 1 })

/-- The four registers of a window (R228). -/
def sldRead (s : State) (n k : Nat) : Nat :=
  let w := solderOf s n
  if k = 0 then
    w.en.toNat + 2 * w.refused.toNat + 4 * w.busy.toNat + 8 * w.holderB.toNat + 2 ^ 32 * w.kid.toNat + 2 ^ 40 * w.vda.toNat + 2 ^ 44 * w.vdb.toNat
      + 2 ^ 48 * w.hseq.toNat
  else if k = 1 then w.range.toNat else if k = 2 then w.hwa.toNat else w.hwb.toNat
def sldWrite (s : State) (n k x : Nat) : State :=
  if k = 0 then sldCtlWrite s n x
  else if (solderOf s n).en then s
  else if k = 1 then onSolder s n (fun w => { w with range := BitVec.ofNat 64 x &&& 0x7FFF000000FFFFFF })
  else if k = 2 then onSolder s n (fun w => { w with hwa := BitVec.ofNat 64 (x / 8 * 8) })
  else onSolder s n (fun w => { w with hwb := BitVec.ofNat 64 (x / 8 * 8) })

/-- SOLDER_WINDOW_ENABLE and SOLDER_WINDOW_DISABLE (R229). -/
def execSolderWindowEnable (n : Fin 64) (v : BitVec 64) (s : State) : Answer := .next (sldCtlWrite s n.val (setBits v.toNat 0 0 1))
def execSolderWindowDisable (s : State) : Answer := .next (solderDisable s s.sch.sel.n)

/-- Every copy of some frames' lines is written back and gone, in the MSC's data and instruction caches too; no translation names them. -/
def takeBack (s : State) (fs : List Nat) : State :=
  let s := flushLines s (fun l => fs.contains (frameOfLine l))
  let s := s.onMem fun m => { m with l1i := m.l1i.filter (fun e => !fs.contains (e.spa / 65536)) }
  fs.foldl dropFrame s

/-- The release of a handoff by a thread (R200, R230): what has reached it, and every write to the window that has a code-write mark,
with the crossings among LS, MX, SW, NE, CO and SG. -/
def handoffRel (s : State) (a core : Nat) (w : Solder) : Rel :=
  let mine := fun (sec : Nat) => inRange (sec / 2048) w.first w.count
  let agents := (((s.mem.marks.filter (fun e => mine e.1)).flatMap (·.2)).map (·.agent)).eraseDups
  let item := fun (x : Nat) =>
    ({ agent := x, upTo := s.mem.clock, cols := 0xFF, paths := 0x3F, lo := 2048 * w.first, hi := 2048 * (w.first + w.count) } : Know)
  let r := relOf s a core 6 0xFF
  { r with know := (agents.map item).foldl addKnow r.know }

/-- R54, R230 step 1: the writes that landing windows of KIND SOLDER of a VD hold are performed. -/
def landOf (s : State) (giver : Nat) : State :=
  [0, 1].foldl (fun s ep => (List.range 32).foldl (fun s i =>
    let d := lwdOf s ep i
    if Lwd.en d && Lwd.kind d == 1 && Lwd.vd d == giver then landHeld s ep i (fun _ => true) else s) s) s
def landLeft (s : State) (giver : Nat) : Bool :=
  [0, 1].any (fun ep => (List.range 32).any (fun i =>
    let d := lwdOf s ep i
    Lwd.en d && Lwd.kind d == 1 && Lwd.vd d == giver && !(heldOf s ep i).isEmpty))

/-- Steps 1 to 4 of a handoff with status 0 by a thread (R230). -/
def handoffDo (s : State) (g : Group) (t n : Nat) : State :=
  let w := solderOf s n
  let s := takeBack (releaseBy s g [t] 6 0xFF) w.frames
  let r := handoffRel s (threadAgent g.gid t) g.core w
  let w := { w with holderB := !w.holderB, hseq := w.hseq + 1 }
  let s := w.frames.foldl (fun s f => setFrame s f (w.frame n)) (onSolder s n (fun _ => w))
  match handoffWord s w.holder (if w.holderB then w.hwb.toNat else w.hwa.toNat) with
  | (s, some a) => tell (mscWrite s w.holder (kidFor s w.holder a) a (leBytes 8 w.hseq.toNat)).1 (memLoc a) (leBytes 8 w.hseq.toNat) [r]
  | (s, none) =>
    offerRec s w.holder { type := 0x09, sev := 0, vd := w.holder, unit := g.core, addr := some n, data0 := 10, data1 := w.hseq.toNat }

/-- SOLDER.HANDOFF by a thread: its status, or none while the page of the receiver's word, or of a write that a landing window of the
giver has taken, is being migrated. -/
def handoff (s : State) (g : Group) (t n : Nat) : State × Option Nat :=
  let w := solderOf s n
  if 64 ≤ n ∨ !w.en then (s, some 3)
  else if g.priv ≠ .h ∧ g.vd ≠ w.holder then (s, some 1)
  else if !vdRuns s w.other then (s, some 2)
  else
    match wordGood s w.other (if w.holderB then w.hwa.toNat else w.hwb.toNat) with
    | none => (s, none)
    | some false => (s, some 4)
    | some true =>
      let s := landOf s w.holder
      if landLeft s w.holder then (s, none) else (handoffDo s g t n, some 0)

/-- The written lines of some frames. -/
def writtenLines (s : State) (fs : List Nat) : List Nat :=
  (fs.flatMap (fun f => (List.range 512).map (fun i => 65536 * f + 128 * i))).filter (fun a => lineMinor s a != 0)
/-- SOLDER.REKEY: its status. Lines that have been written are read, with the checks of a read (R223), and written again under the new key
at a fresh counter. -/
def rekey (s : State) (n : Nat) : State × Nat :=
  let w := solderOf s n
  if 64 ≤ n ∨ !w.en then (s, 3)
  else
    match freeKid s with
    | none => (s, 4)
    | some k =>
      let s := flushLines s (fun l => w.frames.contains (frameOfLine l))
      let dirty := (s.mem.msc.filter (fun e => e.2.dirty && w.frames.contains (frameOfLine e.2.spa))).map (fun e => 128 * e.2.spa)
      let s := dirty.foldl writeBackLine s
      let s := s.onMem fun m =>
        { m with msc := m.msc.filter (fun e => !w.frames.contains (frameOfLine e.2.spa))
                 l1i := m.l1i.filter (fun e => !w.frames.contains (e.spa / 65536)) }
      let s := (writtenLines s w.frames).foldl dramRead s
      let w := { w with kid := BitVec.ofNat 6 k }
      let s := newKey (onSolder s n (fun _ => w)) k
      let s := (writtenLines s w.frames).foldl writeBackLine s
      (w.frames.foldl (fun s f => setFrame s f (w.frame n)) s, 0)

/-- SOLDER.HANDOFF and SOLDER.REKEY (R388). -/
def execSolderHandoff (h : Hdr) (d a : Opnd) (s : State) : Answer :=
  runOp (.solderHandoff h d a) .s (threadBody fun s g t =>
    match handoff s g t (readOp s g t a 1) with
    | (s, some st) => (writeOp s g t d st 1, .next)
    | (s, none) => (s, .wait .mig)) s
def execSolderRekey (h : Hdr) (d a : Opnd) (s : State) : Answer :=
  runOp (.solderRekey h d a) .h (threadBody fun s g t =>
    let r := rekey s (readOp s g t a 1)
    (writeOp r.1 g t d r.2 1, .next)) s

/-! Shadow pools (R231). -/

def shdRead (s : State) (v k : Nat) : Nat := let p := poolOf s v; if k = 0 then p.pool.toNat else 2 ^ 16 * p.used.toNat + p.count.toNat
def shdWrite (s : State) (v k x : Nat) : State :=
  if k = 0 then onPool s v (fun p => { p with pool := BitVec.ofNat 64 (x / 4096 * 4096) })
  else onPool s v (fun p => if x % 65536 < p.used.toNat then p else { p with count := BitVec.ofNat 16 x })

/-! RAS ring registers (R236). -/

def onRing (s : State) (v : Nat) (f : RasRing → RasRing) : State := s.onRas fun r => { r with rings := r.rings.put v (f (ringOf s v)) }
def logOk (l : Nat) : Bool := decide (6 ≤ l ∧ l ≤ 16)

def rasBaseWrite (s : State) (v x : Nat) : State :=
  onRing s v (fun q =>
    let b := q.base.toNat
    let b := if bit b 0 then b
      else x / 4096 * 4096 + 4 * (if logOk (bits x 6 2) then bits x 6 2 else bits b 6 2)
    { q with base := BitVec.ofNat 64 (setBits b 0 0 (bit x 0 && logOk (bits b 6 2)).toNat) })
def rasHeadWrite (s : State) (v x : Nat) : State :=
  onRing s v (fun q => if (q.tail - BitVec.ofNat 32 x).toNat ≤ 2 ^ bits q.base.toNat 6 2 then { q with head := BitVec.ofNat 32 x } else q)
def rasRead (s : State) (v k : Nat) : Nat :=
  let q := ringOf s v
  if k = 0 then q.base.toNat else if k = 1 then 2 ^ 32 * q.tail.toNat + q.head.toNat
  else 2 ^ 32 * q.drops.toNat + 2 * q.ovf.toNat + q.notify.toNat
def rasWrite (s : State) (v k x : Nat) : State :=
  if k = 0 then rasBaseWrite s v x else if k = 1 then rasHeadWrite s v x
  else onRing s v (fun q => { q with ovf := q.ovf && !bit x 1, notify := bit x 0 })

/-- RAS_BASE_WRITE and RAS_HEAD_WRITE (R236). -/
def execRasBaseWrite (v : Vd) (x : BitVec 64) (s : State) : Answer := .next (rasBaseWrite s v.val x.toNat)
def execRasHeadWrite (v : Vd) (x : BitVec 64) (s : State) : Answer := .next (rasHeadWrite s v.val x.toNat)

end Sys2Proof.Machine
end

