-- ==== Sys2Proof/Machine/Calls.lean ====
section
/-! DEFINITION. The host's calls as serving software answers them (R74 to R78): each step serves the request a slot holds. -/
namespace Sys2Proof.Machine

/-! Where the spec lays a call's body out byte by byte (ATTEST, LAUNCH, QUERY, SUBSCRIBE) the body is read from the slot. Of the other
calls it names the fields alone (R75): their steps carry the fields as the serving software reads them, in a layout of its own. -/

/-- Is a call one of R75's for a request with VD v? The monitor calls are 0x0010 to 0x0015, the guest calls 0x0100 to 0x0104; SUBSCRIBE is
for both, since R78 sends events for VD 0 too. -/
def callKnown (call v : Nat) : Bool :=
  call == 2 || call == 0x105 || (if v = 0 then decide (0x10 ≤ call ∧ call ≤ 0x15) else decide (0x100 ≤ call ∧ call ≤ 0x104))

/-- The body of the request in a slot; none where it cannot be read or is poisoned, which is answered FAULT: the model's choice, as the
spec gives no case for it. -/
def slotBody (s : State) (v i : Nat) : State × Option Bytes :=
  match gpaReadN s (regEng v) (slotGpa s v i) 32 with
  | (s, .error _) | (s, .ok (_, true)) => (s, none)
  | (s, .ok (h, false)) =>
    match gpaReadN s (regEng v) (slotGpa s v i + 32) (mLen h) with
    | (s, .error _) | (s, .ok (_, true)) => (s, none)
    | (s, .ok (b, false)) => (s, some b)

/-- The reply to a slot's request. -/
def answerSlot (s : State) (v i : Nat) (q : RpcReq) (st : Nat) (body : Bytes) : Answer :=
  .next (flushRecs (slotSend s v i q false (replyMsg q.vd q.call.toNat q.seq.toNat st body)))

/-- A status of no reply: a page that the call needs is being migrated, and its request stays in its slot to be served again (R209). -/
def notYet : Nat := 0x10000
/-- Is a page of a slot being migrated? -/
def slotWaits (s : State) (v i : Nat) : Bool := (List.range 256).any (fun k => gpaWaits s (regEng v) (slotGpa s v i + 4096 * k))
/-- A slot's request of a call is served: its effect, then the reply with a status and a body (R69, R71, R76). A call that R75 does not
give its VD is answered BAD_CALL; any other slot is left alone. -/
def serve (v : Nat) (slot : Fin 16) (call : Nat) (f : State → RpcReq → State × Nat × Bytes) (s : State) : Answer :=
  match (rpcOf s v).slots.find slot.val with
  | none => .next s
  | some q =>
    if !callKnown q.call.toNat q.vd then answerSlot s v slot.val q 1 []
    else if q.call.toNat ≠ call then .next s
    else let r := f s q; if r.2.1 = notYet then .next r.1 else answerSlot r.1 v slot.val q r.2.1 r.2.2
/-- The same for a call whose body is read from the slot. The step names what the request holds: `other` holds of the body of another
request, which is left alone. -/
def serveBody (v : Nat) (slot : Fin 16) (call : Nat) (other : Bytes → Bool) (f : State → RpcReq → Bytes → State × Nat × Bytes) (s : State) :
    Answer :=
  if ((rpcOf s v).slots.find slot.val).any (fun q => q.call.toNat == call && callKnown q.call.toNat q.vd)
      && (slotBody s v slot.val).2.any other then .next s
  else
    serve v slot call (fun s q => match slotBody s v slot.val with
      | (s, none) => (s, if slotWaits s v slot.val then notYet else 5, [])
      | (s, some b) => f s q b) s

/-- A monitor call: for VD 0 only (R75). That one which names VD 0 itself is BAD_ARG where it acts on a VD's life is the model's choice:
VD 0 is always in RUN (R79). -/
def monitorCall (slot : Fin 16) (call : Nat) (f : State → State × Nat × Bytes) (s : State) : Answer := serve 0 slot call (fun s _ => f s) s
/-- A guest call (R75). -/
def guestCall (v : Vd) (slot : Fin 16) (call : Nat) (f : State → State × Nat × Bytes) (s : State) : Answer :=
  serve v.val slot call (fun s _ => f s) s

def badArg (s : State) : State × Nat × Bytes := (s, 2, [])
/-- R76: REFUSED with the REASON of VDQ_CTL. -/
def refusedBy (s : State) (v : Nat) : State × Nat × Bytes := (s, 4, leBytes 1 (vdRec s v).reason.toNat)

/-- ATTEST (R74): the report for the nonce of the request, after every attestation request that came first. -/
def execAttest (slot : Fin 16) (s : State) : Answer :=
  serveBody 0 slot 2 (fun _ => false) (fun s _ n =>
    let s := serveAtt s
    if n.length ≠ 64 then badArg s
    else (s.onAtt fun a => { a with rNonce := bits512 n, rStat := 0, rDone := true }, 0, reportBytes s n)) s

/-! Monitor calls. -/

/-- PART_CREATE: BUILD, the images of registers 1 to 9, RUN. The reply's state is the STATE field in one byte. -/
def execPartCreate (slot : Fin 16) (v : Vd) (imgs : List (BitVec 64)) (s : State) : Answer :=
  monitorCall slot 0x10 (fun s =>
    if v.val = 0 ∨ imgs.length ≠ 9 then badArg s
    else if vdState s v.val ≠ .empty then refusedBy (vdBuild s v.val) v.val
    else
      let s := vdBuild s v.val
      if vdState s v.val ≠ .built then refusedBy s v.val
      else
        let s := (List.range 9).foldl (fun s i => vdqWrite s v.val (i + 1) (imgs.getD i 0)) s
        let s := vdRun s v.val
        if vdRuns s v.val then (s, 0, leBytes 1 (vdState s v.val).code) else refusedBy s v.val) s

/-- PART_DESTROY. -/
def execPartDestroy (slot : Fin 16) (v : Vd) (s : State) : Answer :=
  monitorCall slot 0x11 (fun s =>
    if v.val = 0 then badArg s
    else
      let ok := vdState s v.val == .built
      let s := vdDestroy s v.val
      if ok && vdState s v.val == .empty then (s, 0, []) else refusedBy s v.val) s

/-- PART_RESET (R84); the duration is a free value. -/
def execPartReset (slot : Fin 16) (v : Vd) (s : State) : Answer :=
  monitorCall slot 0x12 (fun s =>
    if v.val = 0 then badArg s
    else if vdState s v.val = .empty then refusedBy (vdReset s v.val) v.val
    else
      let r := freeValue (vdReset s v.val)
      (r.1, 0, leBytes 8 r.2.toNat)) s

/-- QUOTA_SET: REFUSED on a running VD (R81). -/
def execQuotaSet (slot : Fin 16) (v : Vd) (k : Fin 10) (x : BitVec 64) (s : State) : Answer :=
  monitorCall slot 0x13 (fun s =>
    if k.val = 0 ∨ k.val = 6 then badArg s
    else if vdState s v.val = .run ∨ vdState s v.val = .resetting then refusedBy (if k.val ≤ 5 then vdqWrite s v.val k.val x else s) v.val
    else
      let s := vdqWrite s v.val k.val x
      (s, 0, leBytes 8 (vdqRead s v.val k.val))) s

/-- CAL_SET: the four registers written in order; REFUSED when one of them does not hold its image (R123). -/
def execCalSet (slot : Fin 16) (imgs : List (BitVec 64)) (s : State) : Answer :=
  monitorCall slot 0x14 (fun s =>
    if imgs.length ≠ 4 then badArg s
    else
      let s := (List.range 4).foldl (fun s j => calWrite s j (imgs.getD j 0)) s
      if (List.range 4).all (fun j => calRead s j == (imgs.getD j 0).toNat) then (s, 0, []) else (s, 4, [0])) s

/-- IMAGE_LOAD: chunks gathered; the final one has the image verified and its header's digest extended into MEAS4 (R20, R24, R75). -/
def execImageLoad (slot : Fin 16) (v : Vd) (off : Nat) (final : Bool) (chunk : Bytes) (s : State) : Answer :=
  monitorCall slot 0x15 (fun s =>
    let old := (s.rpc.images.find v.val).getD []
    if v.val = 0 ∨ old.length < off then badArg s
    else
      let b := splice old off chunk
      let keep := s.onRpc fun r => { r with images := r.images.put v.val b }
      if !final then (keep, 0, [])
      else
        let s := s.onRpc fun r => { r with images := r.images.del v.val }
        if b.length = 4096 + field b 8 8 ∧ imageOk (b.take 4096) (fun n => (b.drop 4096).take n) 2 (2 ^ 32) = true then
          (extend (serveAtt s) 4 (headerDigest (b.take 4096)), 0, headerDigest (b.take 4096))
        else (s, 7, [])) s

/-! Guest calls. -/

/-- LAUNCH (R75, R87): the record, its OWNER bit made valid and its DONE word zero, is written into the ring and LQ_TAIL stored; the
reply gives the ring index. A full ring is BUSY. -/
def execLaunch (vd : Vd) (slot : Fin 16) (record : Bytes) (s : State) : Answer :=
  serveBody vd.val slot 0x100 (· != record) (fun s _ record =>
    let q := lqOf s vd.val
    let n := lqLog2 s vd.val
    let i := q.tail.toNat
    if record.length ≠ 256 then badArg s
    else if 2 ^ n ≤ (q.tail - q.head).toNat ∨ s.lq.launches.any (fun l => l.vd == vd.val && l.idx.toNat % 2 ^ n == i % 2 ^ n) then (s, 3, [])
    else
      let b := splice (splice record 2 (leBytes 2 (setBits (field record 2 2) 15 15 (ownerBit q.tail n).toNat))) 56 (leBytes 8 0)
      match gpaWriteN s (ioEng vd.val 0) (lqBase s vd.val + 256 * (i % 2 ^ n)) b with
      | (_, .error .wait) => (s, notYet, [])
      | (s, .error _) => (s, 5, [])
      | (s, .ok _) => (lqTailStore s vd.val (q.tail + 1), 0, leBytes 4 i)) s

/-- The entry of a table for one level of a virtual address: made from the pool of table pages when it is not valid. -/
def mapTable (s : State) (v gpa : Nat) (pool : List Nat) : State × Option (Nat × List Nat) :=
  match gpaRead s 0 v gpa with
  | (s, .error _) => (s, none)
  | (s, .ok (e, _)) =>
    if bit e 0 then (s, if bit e 7 then none else some (bits e 47 12 * 4096, pool))
    else
      match pool with
      | [] => (s, none)
      | p :: rest =>
        match frameWrite s 0 v p (List.replicate 4096 0) with
        | (s, false) => (s, none)
        | (s, true) =>
          match frameWrite s 0 v gpa (leBytes 8 (p + 1)) with
          | (s, false) => (s, none)
          | (s, true) => (s, some (p, rest))

/-- The level-0 entry's address for a virtual address, with the missing levels made. -/
def mapDown (s : State) (v va table : Nat) (pool : List Nat) : Nat → State × Option (Nat × List Nat)
  | 0 => (s, some (table + 8 * bits va 20 12, pool))
  | n + 1 =>
    match mapTable s v (table + 8 * bits va (21 + 9 * n + 8) (21 + 9 * n)) pool with
    | (s, none) => (s, none)
    | (s, some (t, pool)) => mapDown s v va t pool n

/-- One page mapped; none when the page is mapped already, a table cannot be written or the pool is empty. -/
def mapPage (s : State) (v asid va gpa perm : Nat) (pool : List Nat) : State × Option (List Nat) :=
  match mapTable s v (bits (trnOf s v).astb.toNat 63 12 * 4096 + 8 * asid) pool with
  | (s, none) => (s, none)
  | (s, some (t, pool)) =>
    match mapDown s v va t pool 3 with
    | (s, none) => (s, none)
    | (s, some (a, pool)) =>
      match gpaRead s 0 v a with
      | (s, .error _) => (s, none)
      | (s, .ok (e, _)) =>
        if bit e 0 then (s, none)
        else
          match frameWrite s 0 v a (leBytes 8 (gpa + 0x80 + 2 * perm + 1)) with
          | (s, false) => (s, none)
          | (s, true) => (s, some pool)

def mapPages (v asid perm : Nat) : Nat → Nat → Nat → List Nat → State → State × Bool
  | 0, _, _, _, s => (s, true)
  | n + 1, va, gpa, pool, s =>
    match mapPage s v asid va gpa perm pool with
    | (s, none) => (s, false)
    | (s, some pool) => mapPages v asid perm n (va + 4096) (gpa + 4096) pool s

/-- A range of whole canonical pages. -/
def pageRange (va len : Nat) : Bool :=
  va % 4096 == 0 && len % 4096 == 0 && decide (0 < len) && decide (va + len ≤ 2 ^ 64) && canonical va && canonical (va + len - 4096)
    && bits va 63 47 == bits (va + len - 4096) 63 47

/-- MAP (R60, R75): frames of the guest through its stage-1 tables, published by PTSYNC.PKG; a flash or remote window. -/
def execMap (vd : Vd) (slot : Fin 16) (req : MapReq) (s : State) : Answer :=
  guestCall vd slot 0x101 (fun s =>
    let clash := s.trn.windows.any (fun w => w.1 == vd.val && w.2.1 == req.asid.val && overlap w.2.2.1 w.2.2.2.1 (req.va / 4096) (req.len / 4096))
    if !pageRange req.va req.len || clash then badArg s
    else
      match req.source with
      | .frames gpa =>
        if gpa % 4096 ≠ 0 ∨ 2 ^ 48 < gpa + req.len ∨ req.pool.any (fun p => p % 4096 != 0 || decide (2 ^ 48 ≤ p)) then badArg s
        else
          let r := mapPages vd.val req.asid.val req.perm.val (req.len / 4096) req.va gpa req.pool s
          if r.2 then (release r.1 0 vd.val 5 0xFF, 0, []) else (s, 5, [])
      | src => (s.onTrn fun t => { t with windows := t.windows ++ [(vd.val, req.asid.val, req.va / 4096, req.len / 4096, src)] }, 0, [])) s

/-- V of every leaf in a range cleared; none when a leaf reaches beyond it. -/
def unmapPages (v asid lo hi : Nat) : Nat → Nat → State → State × Bool
  | 0, _, s => (s, true)
  | n + 1, va, s =>
    if hi ≤ va then (s, true)
    else
      match s1Leaf s 0 v asid va with
      | (s, .error _) => unmapPages v asid lo hi n (va + 4096) s
      | (s, .ok (e, lvl, a)) =>
        let base := va / levelSize lvl * levelSize lvl
        if base < lo ∨ hi < base + levelSize lvl then (s, false)
        else unmapPages v asid lo hi n (base + levelSize lvl) (ptCas s v a e (nClr e 1)).1

/-- UNMAP (R75, R214): the reply follows the completed unmap. -/
def execUnmap (vd : Vd) (slot : Fin 16) (asid : Fin 256) (va len : Nat) (s : State) : Answer :=
  guestCall vd slot 0x102 (fun s =>
    let mine := s.trn.windows.filter (fun w => w.1 == vd.val && w.2.1 == asid.val && overlap w.2.2.1 w.2.2.2.1 (va / 4096) (len / 4096))
    if !pageRange va len || mine.any (fun w => decide (w.2.2.1 < va / 4096 ∨ (va + len) / 4096 < w.2.2.1 + w.2.2.2.1)) then badArg s
    else
      let r := unmapPages vd.val asid.val va (va + len) (len / 4096) va s
      if !r.2 then badArg s
      else
        let s := r.1.onTrn fun t => { t with windows := t.windows.filter (fun w => !mine.contains w) }
        (unmapRange (release s 0 vd.val 5 0xFF) 0 vd.val asid.val va len, 0, [])) s

/-- COPY (R75), in the address space the call names. -/
def execCopy (vd : Vd) (slot : Fin 16) (asid : Fin 256) (src dst len : Nat) (s : State) : Answer :=
  guestCall vd slot 0x103 (fun s =>
    match engReadBits s (ioEng vd.val asid.val) src len with
    | (s, .error .wait) => (s, notYet, [])
    | (s, .error _) => (s, 5, [])
    | (s, .ok (b, p)) =>
      match engWriteBits s (ioEng vd.val asid.val) dst b (fun i => p.getD i false) with
      | (s, .error .wait) => (s, notYet, [])
      | (s, .error _) => (s, 5, [])
      | (s, .ok _) => (s, 0, [])) s

/-- QUERY (R77), of the item whose code and argument the body holds: another question is left alone, an unknown code, a nonzero byte
among those that are zero, or an argument outside its range is BAD_ARG. -/
def query (v : Vd) (slot : Fin 16) (item : Nat) (arg : BitVec 64) (ok : Nat → Bool) (f : State → Nat → State × Nat × Bytes) (s : State) :
    Answer :=
  serveBody v.val slot 0x104
    (fun b => b.length == 16 && zeros b 2 8 && decide (field b 0 2 ≤ 4) && (field b 0 2 != item || field b 8 8 != arg.toNat))
    (fun s _ b => if b.length = 16 ∧ zeros b 2 8 = true ∧ field b 0 2 = item ∧ ok (field b 8 8) = true then f s (field b 8 8) else badArg s) s
def execQueryInterfaceVersion (vd : Vd) (slot : Fin 16) (arg : BitVec 64) (s : State) : Answer :=
  query vd slot 0 arg (· == 0) (fun s _ => (s, 0, leBytes 8 1)) s
def execQueryPackageTime (vd : Vd) (slot : Fin 16) (arg : BitVec 64) (s : State) : Answer :=
  query vd slot 1 arg (· == 0) (fun s _ => (s, 0, leBytes 8 (nsNow s))) s
/-- The DONE word of the ring entry with an index; 0 while its launch is incomplete. -/
def execQueryLaunchStatus (vd : Vd) (slot : Fin 16) (arg : BitVec 64) (s : State) : Answer :=
  query vd slot 2 arg (fun n => decide (n < 65536)) (fun s n =>
    let i := n % 2 ^ lqLog2 s vd.val
    if s.lq.launches.any (fun l => l.vd == vd.val && l.idx.toNat % 2 ^ lqLog2 s vd.val == i) then (s, 0, leBytes 8 0)
    else
      match gpaReadN s (ioEng vd.val 0) (lqBase s vd.val + 256 * i + 56) 8 with
      | (s, .ok (b, false)) => (s, 0, b)
      | (s, .error .wait) => (s, notYet, [])
      | (s, _) => (s, 5, [])) s
def execQueryRasRing (vd : Vd) (slot : Fin 16) (arg : BitVec 64) (s : State) : Answer :=
  query vd slot 3 arg (· == 0) (fun s _ => (s, 0, leBytes 8 (rasRead s vd.val 1) ++ leBytes 8 (rasRead s vd.val 2))) s
def execQueryLaunchQueue (vd : Vd) (slot : Fin 16) (arg : BitVec 64) (s : State) : Answer :=
  query vd slot 4 arg (· == 0) (fun s _ => (s, 0, leBytes 8 (lqRead s vd.val 8) ++ leBytes 8 (lqRead s vd.val 0x20))) s

/-- SUBSCRIBE (R78): the RPC unit has recorded a good mask at its acceptance; the reply gives the mask before. -/
def execSubscribe (vd : Vd) (slot : Fin 16) (mask : BitVec 64) (s : State) : Answer :=
  serveBody vd.val slot 0x105 (fun b => b.length == 8 && field b 0 8 != mask.toNat) (fun s q b => if maskOk b then (s, 0, leBytes 8 q.was.toNat) else badArg s) s

end Sys2Proof.Machine
end

