-- ==== Sys2Proof/Machine/Integer.lean ====
section
/-! DEFINITION. Row 0x1: integer arithmetic (R275 to R278). -/
namespace Sys2Proof.Machine

/-- What a meaning answers. -/
abbrev Ans := Host.Outcome State Fault Refusal

/-- The last source of an instruction: a register operand, or the immediate of the Y form. -/
abbrev Src := State → Group → Nat → Nat
def regSrc (o : Opnd) (w64 : Bool) : Src := fun s g t => readV s g t o w64
def immSrc (imm : BitVec 32) (w64 u : Bool) : Src := fun _ _ _ => extImm imm (nBits w64) u

/-- An instruction of two integer sources: d := f A B on the exact values. -/
def intOp (i : Instr) (m : ArithMod) (d a : Opnd) (b : Src) (f : Int → Int → Nat) (s : State) : Ans :=
  runOp i .u (regBody d (W m.w64) (fun s g t =>
    f (val m.u (nBits m.w64) (readV s g t a m.w64)) (val m.u (nBits m.w64) (b s g t)))) s

/-- R276: sums, differences and extremes. -/
def addOf (m : ArithMod) (a b : Int) : Nat := fit (a + b) (nBits m.w64) m.u m.sat
def subOf (m : ArithMod) (a b : Int) : Nat := fit (a - b) (nBits m.w64) m.u m.sat
def minOf (m : ArithMod) (a b : Int) : Nat := wrap (nBits m.w64) (min a b)
def maxOf (m : ArithMod) (a b : Int) : Nat := wrap (nBits m.w64) (max a b)

/-- R277: the product's part a form keeps, with an addend; the addend of WIDE is a 64-bit value. -/
def mulOf (m : ArithMod) (a b c : Int) : Nat :=
  let n := nBits m.w64
  match m.mul with
  | .lo => fit (a * b + c) n m.u m.sat
  | .hi => wrap n (a * b / 2 ^ n + c)
  | .wide => wrap 64 (a * b + c)

/-- R278: the quotient truncated toward zero and its remainder, with the corner cases. -/
def divOf (m : ArithMod) (a b : Int) : Nat :=
  let n := nBits m.w64
  if b = 0 then 2 ^ n - 1 else fit (a.tdiv b) n m.u m.sat
def remOf (m : ArithMod) (a b : Int) : Nat :=
  let n := nBits m.w64
  if b = 0 then wrap n a else wrap n (a - b * a.tdiv b)

def execIadd (h : Hdr) (m : ArithMod) (d a b : Opnd) (s : State) : Ans :=
  intOp (.iadd h m d a b) m d a (regSrc b m.w64) (addOf m) s
def execIaddImm (h : Hdr) (m : ArithMod) (d a : Opnd) (imm : BitVec 32) (s : State) : Ans :=
  intOp (.iaddImm h m d a imm) m d a (immSrc imm m.w64 m.u) (addOf m) s
def execIsub (h : Hdr) (m : ArithMod) (d a b : Opnd) (s : State) : Ans :=
  intOp (.isub h m d a b) m d a (regSrc b m.w64) (subOf m) s
def execIsubImm (h : Hdr) (m : ArithMod) (d a : Opnd) (imm : BitVec 32) (s : State) : Ans :=
  intOp (.isubImm h m d a imm) m d a (immSrc imm m.w64 m.u) (subOf m) s

/-- A multiply with an addend (R277): the sources are n-bit, and the destination and addend are 64-bit under WIDE. -/
def mulOp (i : Instr) (m : ArithMod) (d a : Opnd) (b : Src) (c : Src) (s : State) : Ans :=
  runOp i .u (regBody d m.dWidth (fun s g t =>
    mulOf m (val m.u (nBits m.w64) (readV s g t a m.w64)) (val m.u (nBits m.w64) (b s g t))
      (val m.u (if m.mul = .wide then 64 else nBits m.w64) (c s g t)))) s

/-- No addend. -/
def zeroSrc : Src := fun _ _ _ => 0

def execImul (h : Hdr) (m : ArithMod) (d a b : Opnd) (s : State) : Ans :=
  mulOp (.imul h m d a b) m d a (regSrc b m.w64) zeroSrc s
def execImulImm (h : Hdr) (m : ArithMod) (d a : Opnd) (imm : BitVec 32) (s : State) : Ans :=
  mulOp (.imulImm h m d a imm) m d a (immSrc imm m.w64 m.u) zeroSrc s
def execImad (h : Hdr) (m : ArithMod) (d a b c : Opnd) (s : State) : Ans :=
  mulOp (.imad h m d a b c) m d a (regSrc b m.w64) (fun s g t => readOp s g t c m.dWidth) s
def execImadImm (h : Hdr) (m : ArithMod) (d a b : Opnd) (imm : BitVec 32) (s : State) : Ans :=
  mulOp (.imadImm h m d a b imm) m d a (regSrc b m.w64)
    (fun _ _ _ => extImm imm (if m.mul = .wide then 64 else nBits m.w64) m.u) s

def execIdiv (h : Hdr) (m : ArithMod) (d a b : Opnd) (s : State) : Ans :=
  intOp (.idiv h m d a b) m d a (regSrc b m.w64) (divOf m) s
def execIrem (h : Hdr) (m : ArithMod) (d a b : Opnd) (s : State) : Ans :=
  intOp (.irem h m d a b) m d a (regSrc b m.w64) (remOf m) s
def execImin (h : Hdr) (m : ArithMod) (d a b : Opnd) (s : State) : Ans :=
  intOp (.imin h m d a b) m d a (regSrc b m.w64) (minOf m) s
def execIminImm (h : Hdr) (m : ArithMod) (d a : Opnd) (imm : BitVec 32) (s : State) : Ans :=
  intOp (.iminImm h m d a imm) m d a (immSrc imm m.w64 m.u) (minOf m) s
def execImax (h : Hdr) (m : ArithMod) (d a b : Opnd) (s : State) : Ans :=
  intOp (.imax h m d a b) m d a (regSrc b m.w64) (maxOf m) s
def execImaxImm (h : Hdr) (m : ArithMod) (d a : Opnd) (imm : BitVec 32) (s : State) : Ans :=
  intOp (.imaxImm h m d a imm) m d a (immSrc imm m.w64 m.u) (maxOf m) s

/-- IABS (R276): |A| fitted as a signed value. -/
def execIabs (h : Hdr) (m : ArithMod) (d a : Opnd) (s : State) : Ans :=
  runOp (.iabs h m d a) .u (regBody d (W m.w64) (fun s g t =>
    fit |val m.u (nBits m.w64) (readV s g t a m.w64)| (nBits m.w64) false m.sat)) s
/-- ISAD (R276): |A − B| + C. -/
def execIsad (h : Hdr) (m : ArithMod) (d a b c : Opnd) (s : State) : Ans :=
  runOp (.isad h m d a b c) .u (regBody d (W m.w64) (fun s g t =>
    let x := fun o => val m.u (nBits m.w64) (readV s g t o m.w64)
    fit (|x a - x b| + x c) (nBits m.w64) m.u m.sat)) s

end Sys2Proof.Machine
end

