-- ==== Sys2Proof/Machine/Packed.lean ====
section
/-! DEFINITION. The packed-integer instructions of row 0x5 (R286 to R290). -/
namespace Sys2Proof.Machine

/-- Bits and count of the sub-elements (R286). -/
def VecMod.width (m : VecMod) : Nat := if m.e8 then 8 else 16
def VecMod.count (m : VecMod) : Nat := if m.e8 then 4 else 2

/-- Sub-element j of a 32-bit operand. -/
def sub (w v j : Nat) : Nat := bits v (w * (j + 1) - 1) (w * j)

/-- R253: the guard bit of sub-element j of a packed operation. -/
def subGuard (s : State) (g : Group) (h : Hdr) (t w j : Nat) : Bool := guardBit s g h t (if w = 8 then j else 2 * j)

/-- A packed operation guarded by sub-element (R253, R287): a sub-element whose guard is 0 keeps its part of d. The threads whose
guard[0] is 0 take part in their other sub-elements. -/
def packedBody (h : Hdr) (w n : Nat) (d : Opnd) (f : State → Group → Nat → Nat → Nat) : Body := fun s g c _ =>
  (c.tids.foldl (fun acc t =>
    let js := (List.range n).filter (fun j => subGuard s g h t w j)
    if js.isEmpty then acc
    else
      let old := readOp s g t d 1
      writeOp acc g t d (js.foldl (fun v j => setBits v (w * (j + 1) - 1) (w * j) (f s g t j)) old) 1) s, [])

/-- A packed instruction of two sources. -/
def vecOp (i : Instr) (h : Hdr) (m : VecMod) (d a : Opnd) (b : Src) (f : Int → Int → Int) (keepWidth : Bool) (s : State) : Ans :=
  runOp i .u (packedBody h (VecMod.width m) (VecMod.count m) d (fun s g t j =>
    let w := VecMod.width m
    let x := val m.u w (sub w (readOp s g t a 1) j)
    let y := val m.u w (sub w (b s g t) j)
    if keepWidth then wrap w (f x y) else fit (f x y) w m.u m.sat)) s

def execVadd (h : Hdr) (m : VecMod) (d a b : Opnd) (s : State) : Ans :=
  vecOp (.vadd h m d a b) h m d a (regSrc b false) (· + ·) false s
def execVaddImm (h : Hdr) (m : VecMod) (d a : Opnd) (imm : BitVec 32) (s : State) : Ans :=
  vecOp (.vaddImm h m d a imm) h m d a (fun _ _ _ => imm.toNat) (· + ·) false s
def execVsub (h : Hdr) (m : VecMod) (d a b : Opnd) (s : State) : Ans :=
  vecOp (.vsub h m d a b) h m d a (regSrc b false) (· - ·) false s
def execVmin (h : Hdr) (m : VecMod) (d a b : Opnd) (s : State) : Ans :=
  vecOp (.vmin h m d a b) h m d a (regSrc b false) min true s
def execVmax (h : Hdr) (m : VecMod) (d a b : Opnd) (s : State) : Ans :=
  vecOp (.vmax h m d a b) h m d a (regSrc b false) max true s
def execVmul (h : Hdr) (m : VecMod) (d a b : Opnd) (s : State) : Ans :=
  vecOp (.vmul h m d a b) h m d a (regSrc b false) (· * ·) false s
def execVabsd (h : Hdr) (m : VecMod) (d a b : Opnd) (s : State) : Ans :=
  vecOp (.vabsd h m d a b) h m d a (regSrc b false) (fun x y => |x - y|) true s

/-- VDOT (R288): all sub-elements take part, into a 32-bit accumulator. -/
def execVdot (h : Hdr) (m : VecMod) (d a b c : Opnd) (s : State) : Ans :=
  runOp (.vdot h m d a b c) .u (regBody d 1 (fun s g t =>
    let w := VecMod.width m
    let x := fun o j => val m.u w (sub w (readOp s g t o 1) j)
    fit ((List.range (VecMod.count m)).foldl (fun v j => v + x a j * x b j) (val m.u 32 (readOp s g t c 1))) 32 m.u m.sat)) s

/-- R289: one half of ACS2: the value kept and whether y was selected. -/
def acsHalf (m : VecMod) (a b c e : Nat) : Nat × Bool :=
  let v := val m.u 16
  let x := fit (v a + v c) 16 m.u m.sat
  let y := fit (v b + v e) 16 m.u m.sat
  let sel := if m.max then decide (v y > v x) else decide (v y < v x)
  (if sel then y else x, sel)

/-- ACS2 (R289): two add-compare-selects; with DPEN a half's decision goes to its two bits of the predicate. In the
mandrel lane only half 0 is guarded by the guard bit and writes its decision. -/
def execAcs2 (h : Hdr) (m : VecMod) (d a b c e : Opnd) (s : State) : Ans :=
  runOp (.acs2 h m d a b c e) .u (fun s g cv _ =>
    (cv.tids.foldl (fun acc t =>
      (([0, 1] : List Nat).filter (fun j => (g.mandrel && j == 1) || subGuard s g h t 16 j)).foldl (fun acc j =>
        let x := fun o => sub 16 (readOp s g t o 1) j
        let r := acsHalf m (x a) (x b) (x c) (x e)
        let acc := writeOp acc g t d (setBits (readOp acc g t d 1) (16 * j + 15) (16 * j) r.1) 1
        match m.dp with
        | none => acc
        | some p =>
          if g.mandrel && j == 1 then acc
          else writeP acc g t (.p p) (setBits (readPred acc g t p.val) (2 * j + 1) (2 * j) (if r.2 then 3 else 0))) acc) s, [])) s

/-- R290: four bytes chosen from eight, each as it is or as its sign. -/
def prmtOf (a b sel : Nat) : Nat :=
  (List.range 4).foldl (fun v j =>
    let q := bits sel (4 * j + 3) (4 * j)
    let x := bits (a + b * 2 ^ 32) (8 * (q % 8) + 7) (8 * (q % 8))
    v + 2 ^ (8 * j) * (if q < 8 then x else if bit x 7 then 0xFF else 0)) 0

def execPrmt (h : Hdr) (m : VecMod) (d a b c : Opnd) (s : State) : Ans :=
  runOp (.prmt h m d a b c) .u (regBody d 1 (fun s g t => prmtOf (readOp s g t a 1) (readOp s g t b 1) (readOp s g t c 1))) s
/-- PRMT with an immediate selector (R290): a nonzero high half raises Illegal Instruction. -/
def execPrmtImm (h : Hdr) (m : VecMod) (d a b : Opnd) (imm : BitVec 32) (s : State) : Ans :=
  runOp (.prmtImm h m d a b imm) .u (immBody (decide (imm.toNat < 65536)) (.prmtImm h m d a b imm)
    (regBody d 1 (fun s g t => prmtOf (readOp s g t a 1) (readOp s g t b 1) imm.toNat))) s

end Sys2Proof.Machine
end

