-- ==== Sys2Proof/Machine/Float.lean ====
section
/-! DEFINITION. Floating-point arithmetic, comparison, classification, rounding and conversion (R307 to R315, R317). -/
namespace Sys2Proof.Machine

/-- A value source as a Fl of a format. -/
def flSrc (f : Fmt) (o : Opnd) : State → Group → Nat → Fl := fun s g t => f.dec (readOp s g t o (f.width / 32))
def flImm (imm : BitVec 32) : State → Group → Nat → Fl := fun _ _ _ => f32.dec imm.toNat

/-- Negation under NA and NC (R308). -/
def negIf (c : Bool) (v : Fl) : Fl := if c then v.neg else v

/-- An instruction of row 0x4: one rounded result a thread. -/
def floatOp (i : Instr) (f : Fmt) (m : FpMod) (d : Opnd) (r : State → Group → Nat → Fl) (s : State) : Ans :=
  runOp i .u (regBody d (f.width / 32) (fun s g t => rnd f m.rnd (r s g t))) s

def addOp (i : Instr) (f : Fmt) (m : FpMod) (d a : Opnd) (b : State → Group → Nat → Fl) (sub : Bool) (s : State) : Ans :=
  floatOp i f m d (fun s g t => addFl m.rnd (negIf m.na (flSrc f a s g t)) (negIf (m.nc != sub) (b s g t))) s
def fmulOp (i : Instr) (f : Fmt) (m : FpMod) (d a : Opnd) (b : State → Group → Nat → Fl) (s : State) : Ans :=
  floatOp i f m d (fun s g t => (negIf m.na (flSrc f a s g t)).mul (b s g t)) s
def fmaOp (i : Instr) (f : Fmt) (m : FpMod) (d a b : Opnd) (c : State → Group → Nat → Fl) (s : State) : Ans :=
  floatOp i f m d (fun s g t => fmaFl m.rnd (negIf m.na (flSrc f a s g t)) (flSrc f b s g t) (negIf m.nc (c s g t))) s

def execFadd (h : Hdr) (m : FpMod) (d a b : Opnd) (s : State) : Ans := addOp (.fadd h m d a b) f32 m d a (flSrc f32 b) false s
def execFaddImm (h : Hdr) (m : FpMod) (d a : Opnd) (imm : BitVec 32) (s : State) : Ans :=
  addOp (.faddImm h m d a imm) f32 m d a (flImm imm) false s
def execFsub (h : Hdr) (m : FpMod) (d a b : Opnd) (s : State) : Ans := addOp (.fsub h m d a b) f32 m d a (flSrc f32 b) true s
def execFmul (h : Hdr) (m : FpMod) (d a b : Opnd) (s : State) : Ans := fmulOp (.fmul h m d a b) f32 m d a (flSrc f32 b) s
def execFmulImm (h : Hdr) (m : FpMod) (d a : Opnd) (imm : BitVec 32) (s : State) : Ans :=
  fmulOp (.fmulImm h m d a imm) f32 m d a (flImm imm) s
def execFfma (h : Hdr) (m : FpMod) (d a b c : Opnd) (s : State) : Ans := fmaOp (.ffma h m d a b c) f32 m d a b (flSrc f32 c) s
def execFfmaImm (h : Hdr) (m : FpMod) (d a b : Opnd) (imm : BitVec 32) (s : State) : Ans :=
  fmaOp (.ffmaImm h m d a b imm) f32 m d a b (flImm imm) s
def execDadd (h : Hdr) (m : FpMod) (d a b : Opnd) (s : State) : Ans := addOp (.dadd h m d a b) f64 m d a (flSrc f64 b) false s
def execDmul (h : Hdr) (m : FpMod) (d a b : Opnd) (s : State) : Ans := fmulOp (.dmul h m d a b) f64 m d a (flSrc f64 b) s
def execDfma (h : Hdr) (m : FpMod) (d a b c : Opnd) (s : State) : Ans := fmaOp (.dfma h m d a b c) f64 m d a b (flSrc f64 c) s

/-- The sign bit of an F32 encoding flipped under NA. -/
def flip32 (c : Bool) (v : Nat) : Nat := if c then nXor v (2 ^ 31) else v

/-- FMIN and FMAX (R309): one operand, written unchanged, a after its negation. -/
def minOp (i : Instr) (m : FpMod) (d a b : Opnd) (max : Bool) (s : State) : Ans :=
  runOp i .u (regBody d 1 (fun s g t => minMaxF f32 max (flip32 m.na (readOp s g t a 1)) (readOp s g t b 1))) s
def execFmin (h : Hdr) (m : FpMod) (d a b : Opnd) (s : State) : Ans := minOp (.fmin h m d a b) m d a b false s
def execFmax (h : Hdr) (m : FpMod) (d a b : Opnd) (s : State) : Ans := minOp (.fmax h m d a b) m d a b true s

def execFdiv (h : Hdr) (m : FpMod) (d a b : Opnd) (s : State) : Ans :=
  floatOp (.fdiv h m d a b) f32 m d (fun s g t => (negIf m.na (flSrc f32 a s g t)).div (flSrc f32 b s g t)) s
def execFsqrt (h : Hdr) (m : FpMod) (d a : Opnd) (s : State) : Ans :=
  floatOp (.fsqrt h m d a) f32 m d (fun s g t => (negIf m.na (flSrc f32 a s g t)).sqrt) s
def execFrcp (h : Hdr) (m : FpMod) (d a : Opnd) (s : State) : Ans :=
  floatOp (.frcp h m d a) f32 m d (fun s g t => (Fl.num false 1 0).div (negIf m.na (flSrc f32 a s g t))) s
def execFrsq (h : Hdr) (m : FpMod) (d a : Opnd) (s : State) : Ans :=
  floatOp (.frsq h m d a) f32 m d (fun s g t => (negIf m.na (flSrc f32 a s g t)).rsqrt) s

/-! Packed halves (R310). -/

def HalfMod.fmt (m : HalfMod) : Fmt := if m.bf then bf16 else f16

/-- An operation on each half, guarded by guard[2j]. -/
def halfOp (i : Instr) (h : Hdr) (d : Opnd) (f : State → Group → Nat → Nat → Nat) (s : State) : Ans :=
  runOp i .u (packedBody h 16 2 d f) s

def halfAt (s : State) (g : Group) (t j : Nat) (o : Opnd) : Nat := sub 16 (readOp s g t o 1) j

def execHadd (h : Hdr) (m : HalfMod) (d a b : Opnd) (s : State) : Ans :=
  halfOp (.hadd h m d a b) h d (fun s g t j =>
    let f := HalfMod.fmt m
    rnd f m.rnd (addFl m.rnd (f.dec (halfAt s g t j a)) (f.dec (halfAt s g t j b)))) s
def execHmul (h : Hdr) (m : HalfMod) (d a b : Opnd) (s : State) : Ans :=
  halfOp (.hmul h m d a b) h d (fun s g t j =>
    let f := HalfMod.fmt m
    rnd f m.rnd ((f.dec (halfAt s g t j a)).mul (f.dec (halfAt s g t j b)))) s
def execHfma (h : Hdr) (m : HalfMod) (d a b c : Opnd) (s : State) : Ans :=
  halfOp (.hfma h m d a b c) h d (fun s g t j =>
    let f := HalfMod.fmt m
    rnd f m.rnd (fmaFl m.rnd (f.dec (halfAt s g t j a)) (f.dec (halfAt s g t j b)) (f.dec (halfAt s g t j c)))) s
def execHmin (h : Hdr) (m : HalfMod) (d a b : Opnd) (s : State) : Ans :=
  halfOp (.hmin h m d a b) h d (fun s g t j => minMaxF (HalfMod.fmt m) false (halfAt s g t j a) (halfAt s g t j b)) s
def execHmax (h : Hdr) (m : HalfMod) (d a b : Opnd) (s : State) : Ans :=
  halfOp (.hmax h m d a b) h d (fun s g t j => minMaxF (HalfMod.fmt m) true (halfAt s g t j a) (halfAt s g t j b)) s

/-! Comparison and classification (R311, R312). -/

def fcmpOp (i : Instr) (m : FcmpMod) (d a : Opnd) (b : State → Group → Nat → Fl) (c : Option Opnd) (s : State) : Ans :=
  runOp i .u (eachThread (fun s g t acc =>
    let f := if m.w64 then f64 else f32
    writeP acc g t d (combine m.bop (fcmp m.cmp (flSrc f a s g t) (b s g t)) (readP s g t (c.getD .zero))))) s

def execFcmp (h : Hdr) (m : FcmpMod) (d a b : Opnd) (c : Option Opnd) (s : State) : Ans :=
  fcmpOp (.fcmp h m d a b c) m d a (flSrc (if m.w64 then f64 else f32) b) c s
def execFcmpImm (h : Hdr) (m : FcmpMod) (d a : Opnd) (imm : BitVec 32) (s : State) : Ans :=
  fcmpOp (.fcmpImm h m d a imm) m d a (flImm imm) none s

/-- HCMP (R311): a comparison of each half into two bits of the predicate; the mandrel lane takes half 0. -/
def execHcmp (h : Hdr) (m : HcmpMod) (d a b : Opnd) (c : Option Opnd) (s : State) : Ans :=
  runOp (.hcmp h m d a b c) .u (fun s g cv _ =>
    (cv.tids.foldl (fun acc t =>
      match d with
      | .p n =>
        let js := ([0, 1] : List Nat).filter (fun j => subGuard s g h t 16 j && !(g.mandrel && j == 1))
        let f := if m.bf then bf16 else f16
        writeP acc g t d (js.foldl (fun v j =>
          let r := fcmp m.cmp (f.dec (halfAt s g t j a)) (f.dec (halfAt s g t j b))
          setBits v (2 * j + 1) (2 * j) (bits (combine m.bop r (readP s g t (c.getD .zero))) (2 * j + 1) (2 * j)))
          (readPred s g t n.val))
      | _ => acc) s, [])) s

def ClassFmt.fmt : ClassFmt → Fmt
  | .f32 => f32
  | .f64 => f64
  | .f16 => f16
  | .bf16 => bf16
  | .f8 => f8
  | .f8w => f8w

/-- R312: the class bit of an encoding. -/
def classOf (f : Fmt) (b : Nat) : Nat :=
  match f.dec b with
  | .nan => 8
  | .inf s => if s then 0 else 7
  | .num s n _ => if n = 0 then (if s then 3 else 4) else if n < 2 ^ f.m then (if s then 2 else 5) else if s then 1 else 6

def execFclass (h : Hdr) (m : FclassMod) (d a : Opnd) (s : State) : Ans :=
  runOp (.fclass h m d a) .u (eachThread (fun s g t acc =>
    let f := ClassFmt.fmt m.ft
    let v := readOp s g t a (if m.ft = .f64 then 2 else 1) % 2 ^ f.width
    writePB acc g t d (bit m.cls.val (classOf f v)))) s

/-! Integral rounding and scaling (R313). -/

def frndOf (mode : Rnd) : Fl → Fl
  | .num s n x => .num s (roundInt mode (.num s n x)).natAbs 0
  | v => v
def scaleFl (k : Int) : Fl → Fl
  | .num s n x => .num s n (x + k)
  | v => v

def frndOp (i : Instr) (m : FrndMod) (d a : Opnd) (r : State → Group → Nat → Fl → Fl) (s : State) : Ans :=
  let f := if m.w64 then f64 else f32
  runOp i .u (regBody d (W m.w64) (fun s g t => rnd f m.rnd (r s g t (flSrc f a s g t)))) s
def execFrnd (h : Hdr) (m : FrndMod) (d a : Opnd) (s : State) : Ans :=
  frndOp (.frnd h m d a) m d a (fun _ _ _ v => frndOf m.rnd v) s
def execFscale (h : Hdr) (m : FrndMod) (d a b : Opnd) (s : State) : Ans :=
  frndOp (.fscale h m d a b) m d a (fun s g t v => scaleFl (sext 32 (readOp s g t b 1)) v) s
def execFscaleImm (h : Hdr) (m : FrndMod) (d a : Opnd) (imm : BitVec 32) (s : State) : Ans :=
  frndOp (.fscaleImm h m d a imm) m d a (fun _ _ _ v => scaleFl (sext 32 imm.toNat) v) s

/-! Conversions (R314, R315). -/

/-- CVT: one element, its companion updated under EF. -/
def execCvt (h : Hdr) (m : CvtMod) (d a : Opnd) (b : Option Opnd) (s : State) : Ans :=
  runOp (.cvt h m d a b) .u (eachThread (fun s g t acc =>
    let v := readOp s g t a m.st.words % 2 ^ etyBits m.st
    match b with
    | some c =>
      let r := feedback ((etyFmt m.dt).getD f32) m.rnd m.sat v (readOp s g t c 1)
      writeOp (writeOp acc g t c r.2 1) g t d r.1 1
    | none => writeOp acc g t d (etyReg m.dt (convert m.dt m.st m.rnd m.sat v).bits) m.dt.words)) s

/-- Register j of a run of registers. -/
def regAt : Opnd → Nat → Opnd
  | .g n, j => if h : n.val + j < 192 then .g ⟨n.val + j, h⟩ else .zero
  | .k n, j => if h : n.val + j < 32 then .k ⟨n.val + j, h⟩ else .zero
  | o, _ => o

/-- CVTP: two or four F32 elements into one register, or a register's elements into F32 registers. -/
def execCvtp (h : Hdr) (m : CvtpMod) (d a : Opnd) (b c : Option Opnd) (s : State) : Ans :=
  runOp (.cvtp h m d a b c) .u (eachThread (fun s g t acc =>
    let n := m.op.count
    let w := etyBits m.pt
    if m.op.isPack then
      let src := readOp s g t a (n / 2) + 2 ^ (16 * n) * readOp s g t (b.getD .zero) (n / 2)
      let conv := fun j =>
        let x := bits src (32 * j + 31) (32 * j)
        match c with
        | some e => feedback ((etyFmt m.pt).getD f32) m.rnd m.sat x (readOp s g t (regAt e j) 1)
        | none => ((convert m.pt .f32 m.rnd m.sat x).bits, 0)
      let acc := match c with
        | some e => (List.range n).foldl (fun acc j => writeOp acc g t (regAt e j) (conv j).2 1) acc
        | none => acc
      writeOp acc g t d ((List.range n).foldl (fun v j => v + 2 ^ (w * j) * (conv j).1) 0) 1
    else
      let v := readOp s g t a 1
      writeOp acc g t d ((List.range n).foldl (fun r j =>
        r + 2 ^ (32 * j) * (convert .f32 m.pt .rn false (bits v (w * j + w - 1) (w * j))).bits) 0) n)) s

/-! RNDH (R317). -/

def rndhOf (u01 : Bool) (addr seed : Nat) : Nat :=
  let m32 := fun v => v % 2 ^ 32
  let x := nXor (m32 addr) (m32 (addr / 2 ^ 32 * 0x85EBCA77))
  let x := nXor x seed
  let x := m32 (nXor x (x / 2 ^ 16) * 0x7FEB352D)
  let x := m32 (nXor x (x / 2 ^ 15) * 0x846CA68B)
  let x := nXor x (x / 2 ^ 16)
  if u01 then rnd f32 .rn (.num false (x / 256) (-24)) else x

def execRndh (h : Hdr) (m : RndhMod) (d a b : Opnd) (s : State) : Ans :=
  runOp (.rndh h m d a b) .u (regBody d 1 (fun s g t => rndhOf m.u01 (readOp s g t a 2) (readOp s g t b 1))) s
def execRndhImm (h : Hdr) (m : RndhMod) (d a : Opnd) (imm : BitVec 32) (s : State) : Ans :=
  runOp (.rndhImm h m d a imm) .u (regBody d 1 (fun s g t => rndhOf m.u01 (readOp s g t a 2) imm.toNat)) s

end Sys2Proof.Machine
end

