-- ==== Sys2Proof/Machine/Cross.lean ====
section
/-! DEFINITION. Row 0x7: exchange, collection and reduction across the participants of a convoy (R318 to R323). -/
namespace Sys2Proof.Machine

/-- R319: the lane a thread's value comes from, within its segment. -/
def lxSource (mode : LxMode) (seg j b : Nat) : Int :=
  match mode with
  | .pick => (b : Int)
  | .rot => (((j + b) % seg : Nat) : Int)
  | .slide => (j : Int) + sext 32 b
  | .flip => ((nXor j b : Nat) : Int)

/-- LXCH (R319): every participant takes the value of a lane of its segment, or keeps its own. -/
def lxOp (i : Instr) (m : LxchMod) (d a : Opnd) (b : Src) (c : Option Opnd) (s : State) : Ans :=
  runOp i .u (fun s g cv act =>
    let seg := if m.seg.val = 0 then g.width else 2 ^ m.seg.val
    if g.width < seg then (s, act.map (fun t => (t, .trap (illegal (wordBytes i)))))
    else
      eachThread (fun s g t acc =>
        let src := lxSource m.mode seg (t % seg) (b s g t)
        let from_ := t - t % seg + src.toNat
        let ok := decide (0 ≤ src ∧ src < seg) && act.contains from_
        let acc := writeOp acc g t d (readV s g (if ok then from_ else t) a m.w64) (W m.w64)
        match c with
        | some p => writePB acc g t p ok
        | none => acc) s g cv act) s

def execLxch (h : Hdr) (m : LxchMod) (d a b : Opnd) (c : Option Opnd) (s : State) : Ans :=
  lxOp (.lxch h m d a b c) m d a (regSrc b false) c s
def execLxchImm (h : Hdr) (m : LxchMod) (d a : Opnd) (imm : BitVec 32) (s : State) : Ans :=
  lxOp (.lxchImm h m d a imm) m d a (fun _ _ _ => imm.toNat) none s

/-- PCOL (R320): one predicate bit of every participant, collected. -/
def execPcol (h : Hdr) (m : PcolMod) (d a : Opnd) (s : State) : Ans :=
  runOp (.pcol h m d a) .u (fun s g cv act =>
    let v := fun t => bit (readP s g t a) m.pb.val
    let setP := fun r => eachThread (fun _ g t acc => writePB acc g t d r) s g cv act
    let setR := fun x n => eachThread (fun _ g t acc => writeOp acc g t d x n) s g cv act
    match m.mode with
    | .every => setP (act.all v)
    | .any_ => setP (act.any v)
    | .same => setP (act.all v || !act.any v)
    | .mask =>
      if m.pair then
        setR (maskOf (act.flatMap (fun t =>
          (if bit (readP s g t a) 0 then [2 * t] else []) ++ (if bit (readP s g t a) 2 then [2 * t + 1] else []))))
          (maskRegs (2 * g.width))
      else setR (maskOf (act.filter v)) (maskRegs g.width)
    | .count => setR (act.filter v).length 1) s

/-- R321: the combination of some n-bit values; an empty list gives the identity. -/
def combineX (m : XredMod) (l : List Nat) : Nat :=
  let n := nBits m.w64
  let vs := l.map (fun x => val m.u n x)
  match m.op with
  | .add => wrap n vs.sum
  | .satadd => fit vs.sum n m.u true
  | .and => l.foldl nAnd (2 ^ n - 1)
  | .or => l.foldl nOr 0
  | .xor => l.foldl nXor 0
  | .min => wrap n (vs.foldl min (if m.u then 2 ^ n - 1 else 2 ^ (n - 1) - 1))
  | .max => wrap n (vs.foldl max (if m.u then 0 else -(2 ^ (n - 1))))

/-- XRED (R321): every participant writes the combination of all. -/
def execXred (h : Hdr) (m : XredMod) (d a : Opnd) (s : State) : Ans :=
  runOp (.xred h m d a) .u (fun s g cv act =>
    let r := combineX m (act.map (fun t => readV s g t a m.w64))
    regBody d (W m.w64) (fun _ _ _ => r) s g cv act) s

/-- XSCAN (R321): each participant writes the combination of the lanes up to its own, or before it. -/
def execXscan (h : Hdr) (m : XredMod) (d a : Opnd) (s : State) : Ans :=
  runOp (.xscan h m d a) .u (fun s g cv act =>
    regBody d (W m.w64) (fun s g t =>
      combineX m ((act.filter (fun u => if m.excl then decide (u < t) else decide (u ≤ t))).map (fun u => readV s g u a m.w64)))
      s g cv act) s

/-- XFIND (R322): the participants that hold the same value, and one leader for each value. -/
def execXfind (h : Hdr) (m : XfindMod) (d a : Opnd) (c : Option Opnd) (s : State) : Ans :=
  runOp (.xfind h m d a c) .u (fun s g cv act =>
    eachThread (fun s g t acc =>
      let same := act.filter (fun u => readV s g u a m.w64 == readV s g t a m.w64)
      let acc := writeOp acc g t d (maskOf same) (maskRegs g.width)
      match c with
      | some p => writePB acc g t p (same.head? == some t)
      | none => acc) s g cv act) s

/-- XFRED (R323): the sum of all participants, rounded once, or their least or greatest value (R309). -/
def execXfred (h : Hdr) (m : XfredMod) (d a : Opnd) (s : State) : Ans :=
  runOp (.xfred h m d a) .u (fun s g cv act =>
    let f := if m.w64 then f64 else f32
    let vs := act.map (fun t => readV s g t a m.w64)
    let r := match m.op with
      | .add => rnd f m.rnd (sumFl (m.rnd == .rd) (vs.map f.dec))
      | .min => vs.foldl (minMaxF f false) (vs.headD 0)
      | .max => vs.foldl (minMaxF f true) (vs.headD 0)
    regBody d (W m.w64) (fun _ _ _ => r) s g cv act) s

end Sys2Proof.Machine
end

