-- ==== Sys2Proof/Machine/Csr.lean ====
section
/-! DEFINITION. Control registers: the index space (R258), who may reach each register, and their reads and writes (R384). -/
namespace Sys2Proof.Machine

/-- A register named by an index: its family, the VD, window, endpoint or pair it belongs to, and its number there. -/
inductive Csr where
  | bdy (k : Nat)
  | lwd (ep w k : Nat)
  | vdq (v k : Nat)
  | cal (j : Nat)
  | slc (n k : Nat)
  | rpc (v k : Nat)
  | net (v k : Nat)
  | svq (v k : Nat)
  | srv (v k : Nat)
  | lane (k : Nat)
  | ways (v k : Nat)
  | mscs (v k : Nat)
  | trn (v k : Nat)
  | fot (k : Nat)
  | sld (n k : Nat)
  | shd (v k : Nat)
  | bnd (v b k : Nat)
  | ras (v k : Nat)
  deriving DecidableEq, Repr

/-- Who may reach a register: its own VD at S or H, only H, only the mandrel lane, or nobody (R206). -/
inductive CsrWho where
  | own | h | lane | none
  deriving DecidableEq, Repr

/-- R258: the register of an index, for a group of VD v; none when no register has it. -/
def csrFind (v i : Nat) : Option (Csr × CsrWho) :=
  let range := fun (lo n : Nat) => decide (lo ≤ i ∧ i < lo + n)
  let byVd := fun (lo step regs : Nat) (f : Nat → Nat → Csr) =>
    if (i - lo) % step < regs then some (f ((i - lo) / step) ((i - lo) % step), CsrWho.h) else none
  if range 0xF00 16 then (if i = 0xF03 then none else some (.bdy (i - 0xF00), .h))
  else if range 0x1000 256 then some (.lwd ((i - 0x1000) / 128) ((i - 0x1000) % 128 / 4) (i % 4), .h)
  else if range 0x2000 256 then byVd 0x2000 16 10 .vdq
  else if range 0x2100 4 then some (.cal (i - 0x2100), .h)
  else if range 0x2140 32 then byVd 0x2140 8 5 .slc
  else if range 0x2190 3 then some (.rpc v (i - 0x2190), .own)
  else if range 0x21A0 64 then byVd 0x21A0 4 3 .rpc
  else if range 0x21E0 6 then some (.net v (i - 0x21E0), .own)
  else if range 0x2200 128 then byVd 0x2200 8 6 .net
  else if range 0x2400 4 then some (.svq v (i - 0x2400), .own)
  else if range 0x2404 2 then some (.srv v (i - 0x2404), .own)
  else if range 0x2480 4 then some (.lane (i - 0x2480), .lane)
  else if range 0x2500 64 then byVd 0x2500 4 4 .svq
  else if range 0x2540 32 then byVd 0x2540 2 2 .srv
  else if range 0x2600 2 then some (.ways v (i - 0x2600), .own)
  else if range 0x2602 2 then some (.mscs v (i - 0x2602), .own)
  else if range 0x2610 32 then byVd 0x2610 2 2 .ways
  else if range 0x2630 32 then byVd 0x2630 2 2 .mscs
  else if range 0x2800 2 then some (.trn v (i - 0x2800), .own)
  else if i = 0x2802 then some (.trn v 2, .none)
  else if range 0x2810 64 then byVd 0x2810 4 3 .trn
  else if range 0x2900 2 then some (.fot (i - 0x2900), .h)
  else if range 0x2A00 256 then byVd 0x2A00 4 4 .sld
  else if range 0x2B00 32 then byVd 0x2B00 2 2 .shd
  else if range 0x2C00 128 then (if i % 4 = 3 then none else some (.bnd v ((i - 0x2C00) / 4) (i % 4), .own))
  else if range 0x2C80 3 then some (.ras v (i - 0x2C80), .own)
  else if range 0x2D00 64 then byVd 0x2D00 4 3 .ras
  else if range 0x3000 2048 then (if i % 4 = 3 then none else some (.bnd ((i - 0x3000) / 128) ((i - 0x3000) % 128 / 4) (i % 4), .h))
  else none

/-- R258: an index that names no register is illegal; one the group may not reach is above its privilege. -/
def csrOf (g : Group) (w : Bytes) (i : Nat) : Except Trap Csr :=
  match csrFind g.vd i with
  | none => .error (illegal w)
  | some (r, who) =>
    let ok : Bool := match who with
      | .own => g.priv != .u
      | .h => g.priv == .h
      | .lane => g.mandrel
      | .none => false
    if ok then .ok r else .error (privilege w)

/-! Supervisor-queue registers (R143, R144). -/

/-- Threads of a VD's server group on a core. -/
def serverGroups (s : State) (core v : Nat) : List Group :=
  s.cores.groups.filter (fun g => g.core == core && g.vd == v && g.owner == .server && !g.mandrel)
def serverWaits (g : Group) : Bool := !g.live.isEmpty && g.live.all (fun t => (g.thread t).st == .wait .svqWait)

/-- Threads and sources that wait for room in a queue (R143): a post of held threads counts each of them. -/
def svqWaiters (s : State) (core v : Nat) : Nat :=
  ((s.cores.posts.filter (fun p => p.core == core && p.vd == v && p.idx.isNone)).map (fun p =>
    if p.gid.isSome then popcount 64 (field p.entry 24 8) else 1)).sum

def svqRead (s : State) (core v k : Nat) : Nat :=
  let q := svqOf s core v
  if k = 0 then q.base.toNat
  else if k = 1 then 2 ^ 16 * q.tail.toNat + q.head.toNat
  else if k = 2 then
    2 ^ 32 * q.wdog.toNat + 256 * min 255 (svqWaiters s core v) + 16 * q.wdFired.toNat + 8 * q.timer.isSome.toNat
      + 4 * ((serverGroups s core v).any (fun g => g.resid == .core)).toNat + 2 * ((serverGroups s core v).any serverWaits).toNat + (batch s core v).toNat
  else q.ctx.toNat

/-- The sources that wait for room in a queue try again, oldest first. -/
def retryPosts (s : State) (core v : Nat) : State :=
  ((s.cores.posts.filter (fun p => p.core == core && p.vd == v && p.idx.isNone)).map (·.num)).foldl tryPost s

def svqWrite (s : State) (core v k x : Nat) : State :=
  let q := svqOf s core v
  if k = 0 then
    let base := if bit q.base.toNat 0 || q.count != 0 then bits q.base.toNat 63 14 else bits x 63 14
    retryPosts (onSvq s core v (fun q => { q with base := BitVec.ofNat 64 (16384 * base + (bit x 0).toNat) })) core v
  else if k = 2 then onSvq s core v (fun q => { q with wdog := BitVec.ofNat 32 (x / 2 ^ 32), wdFired := q.wdFired && !bit x 4 })
  else if k = 3 then
    (if s.cores.groups.any (fun g => g.core == core && g.vd == v && (match g.resid with | .frame _ => true | _ => false)) then s
     else onSvq s core v (fun q => { q with ctx := BitVec.ofNat 64 (bits x 63 22 * 2 ^ 22 + (bit x 0).toNat) }))
  else s

/-- Is a server's configuration one that can start (R144)? -/
def serverCfgOk (x : Nat) : Bool :=
  let w := 16 * 2 ^ bits x 1 0
  decide (bits x 1 0 ≤ 2) && decide (8 ≤ bits x 15 8 ∧ bits x 15 8 ≤ 192) && bits x 15 8 % 8 == 0 && decide (bits x 15 8 * w ≤ 2048)
def srvRead (s : State) (v k : Nat) : Nat := ((if k = 0 then s.cores.srvPc else s.cores.srvCfg).at 0 v).toNat
def srvWrite (s : State) (v k x : Nat) : State :=
  if k = 0 then s.onCores fun c => { c with srvPc := c.srvPc.write 0 v (BitVec.ofNat 64 x) }
  else
    let y := 65536 * (bit x 16 && serverCfgOk x).toNat + 256 * bits x 15 8 + bits x 1 0
    s.onCores fun c => { c with srvCfg := c.srvCfg.write 0 v (BitVec.ofNat 64 y) }

/-! Mandrel-lane registers (R142). -/

def laneRead (s : State) (core k : Nat) : Nat :=
  if k = 0 then mipImage s core else if k = 1 then (mandrelOf s core).mie.toNat else if k = 2 then nsNow s else (mandrelOf s core).mtcmp.toNat
def laneWrite (s : State) (core k x : Nat) : State :=
  if k = 0 then onMandrel s core (fun m => { m with mip := BitVec.ofNat 64 (nClr m.mip.toNat (nAnd x 0x0000FFFF0000003D)) })
  else if k = 1 then onMandrel s core (fun m => { m with mie := BitVec.ofNat 64 x })
  else if k = 3 then onMandrel s core (fun m => { m with mtcmp := BitVec.ofNat 64 x })
  else s

/-! L1 ways, schedules, translation, bounds. -/

/-- A write of WAYS completes when the change has settled in every core (R160). -/
def waysCsrWrite (s : State) (v k x : Nat) : State :=
  if k = 0 then waysSettle (waysWrite s v x) v else onWays s v (fun w => { w with refused := w.refused && !bit x 2 })
def mscsWrite (s : State) (v k x : Nat) : State × Bool :=
  if k = 0 then (onSched s v (fun q => { q with tbl := BitVec.ofNat 64 (x / 4096 * 4096) }), true) else schedCtlWrite s v x

def onTrnRegs (s : State) (v : Nat) (f : TrnRegs → TrnRegs) : State :=
  s.onTrn fun t => { t with regs := t.regs.put v (f (t.regs.at TrnRegs.reset v)) }
def trnRead (s : State) (v k : Nat) : Nat :=
  if k = 0 then (trnOf s v).astb.toNat else if k = 1 then (trnOf s v).uasid.toNat else (trnOf s v).s2.toNat
def trnWrite (s : State) (v k x : Nat) : State :=
  if k = 0 then onTrnRegs s v (fun r => { r with astb := BitVec.ofNat 64 (x / 4096 * 4096) })
  else if k = 1 then onTrnRegs s v (fun r => { r with uasid := BitVec.ofNat 8 x })
  else onTrnRegs s v (fun r => { r with s2 := BitVec.ofNat 64 (x / 4096 * 4096 + (bit x 0).toNat) })

def bndRead (s : State) (core v b k : Nat) : Nat :=
  let r := boundOf s core v b
  if k = 0 then 2 ^ 32 * r.count.toNat + 8 * r.i32.toNat + 4 * r.nanp.toNat + r.action.toNat else if k = 1 then r.lo.toNat else r.hi.toNat
def bndWrite (s : State) (core v b k x : Nat) : State :=
  if k = 0 then onBound s core v b (fun r =>
    { r with count := BitVec.ofNat 32 (x / 2 ^ 32), i32 := bit x 3, nanp := bit x 2, action := if x % 4 = 3 then r.action else BitVec.ofNat 2 x })
  else if k = 1 then onBound s core v b (fun r => { r with lo := BitVec.ofNat 32 x })
  else onBound s core v b (fun r => { r with hi := BitVec.ofNat 32 x })

/-! Every register. -/

/-- The value of a register (R6, R384), read from a core. -/
def csrRead (s : State) (core : Nat) : Csr → Nat
  | .bdy k => (bdyRead s k).getD 0
  | .lwd ep w k => lwdRead s ep w k
  | .vdq v k => vdqRead s v k
  | .cal j => calRead s j
  | .slc n k => slcRead s n k
  | .rpc v k => rpcRead s v k
  | .net v k => netRead s v k
  | .svq v k => svqRead s core v k
  | .srv v k => srvRead s v k
  | .lane k => laneRead s core k
  | .ways v k => if k = 0 then (waysOf s v).ways.toNat else waysStat s v
  | .mscs v k => if k = 0 then (schedOf s v).tbl.toNat else schedCtl s v
  | .trn v k => trnRead s v k
  | .fot k => if k = 0 then s.trn.fotIdx.toNat else fotData s
  | .sld n k => sldRead s n k
  | .shd v k => shdRead s v k
  | .bnd v b k => bndRead s core v b k
  | .ras v k => rasRead s v k

/-- A write to a register from a core, at privilege H or not; false while its effect has not been taken. -/
def csrWrite (s : State) (core : Nat) (byH : Bool) (x : Nat) : Csr → State × Bool
  | .bdy k => (bdyWrite s k x, true)
  | .lwd ep w k =>
    let s := lwdWrite s ep w k x
    (s, !lwdWaits s ep w k x)
  | .vdq v k => (vdqWrite s v k (BitVec.ofNat 64 x), true)
  | .cal j => (calWrite s j (BitVec.ofNat 64 x), true)
  | .slc n k => (slcWrite s n k x, !(k == 0 && slcWaits s n x))
  | .rpc v k => rpcWrite s v k x
  | .net v k => netWrite s v k x byH
  | .svq v k => (svqWrite s core v k x, true)
  | .srv v k => (srvWrite s v k x, true)
  | .lane k => (laneWrite s core k x, true)
  | .ways v k => (waysCsrWrite s v k x, true)
  | .mscs v k => mscsWrite s v k x
  | .trn v k => (trnWrite s v k x, true)
  | .fot k => (if k = 0 then s.onTrn fun t => { t with fotIdx := BitVec.ofNat 24 x } else s, true)
  | .sld n k => (sldWrite s n k x, !(k == 0 && sldWaits s n x))
  | .shd v k => (shdWrite s v k x, true)
  | .bnd v b k => (bndWrite s core v b k x, true)
  | .ras v k => (rasWrite s v k x, true)

/-- A read by each thread of the register its index names. -/
def csrrBody (w : Bytes) (d : Opnd) (idx : State → Group → Nat → Nat) : Body :=
  threadBody (fun s g t =>
    match csrOf g w (idx s g t) with
    | .error e => (s, .trap e)
    | .ok r => (writeOp s g t d (csrRead s g.core r) 2, .next))
/-- A write by each thread, in thread order. -/
def csrwBody (w : Bytes) (b : Opnd) (idx : State → Group → Nat → Nat) : Body :=
  threadBody (fun s g t =>
    match csrOf g w (idx s g t) with
    | .error e => (s, .trap e)
    | .ok r =>
      match csrWrite s g.core (g.priv == .h) (readOp s g t b 2) r with
      | (s, true) => (s, .next)
      | (s, false) => (s, .wait .csr))

/-- CSRR and CSRW (R384). -/
def execCsrrImm (h : Hdr) (d : Opnd) (imm : BitVec 32) (s : State) : Answer :=
  runOp (.csrrImm h d imm) .s (immBody (decide (imm.toNat < 65536)) (.csrrImm h d imm)
    (csrrBody (wordBytes (.csrrImm h d imm)) d (fun _ _ _ => imm.toNat))) s
def execCsrr (h : Hdr) (d a : Opnd) (s : State) : Answer :=
  runOp (.csrr h d a) .s (csrrBody (wordBytes (.csrr h d a)) d (fun s g t => readOp s g t a 1 % 65536)) s
def execCsrwImm (h : Hdr) (a : Opnd) (imm : BitVec 32) (s : State) : Answer :=
  runOp (.csrwImm h a imm) .s (immBody (decide (imm.toNat < 65536)) (.csrwImm h a imm)
    (csrwBody (wordBytes (.csrwImm h a imm)) a (fun _ _ _ => imm.toNat))) s
def execCsrw (h : Hdr) (a b : Opnd) (s : State) : Answer :=
  runOp (.csrw h a b) .s (csrwBody (wordBytes (.csrw h a b)) b (fun s g t => readOp s g t a 1 % 65536)) s

/-- REGISTER_WRITE (R6): a write of a control register by the mandrel lane of a core, or of a register page of a VD. -/
def execRegisterWrite (t : RegTarget) (v : BitVec 64) (s : State) : Answer :=
  match t with
  | .csr core i =>
    match csrFind 0 i with
    | some (r, who) => .next (flushRecs (if who = .none then s else (csrWrite s core.val true v.toNat r).1))
    | none => .next s
  | .page vd gpa => .next (flushRecs (pageWrite s vd.val gpa v.toNat))

end Sys2Proof.Machine
end

