-- ==== Sys2Proof/Machine/Launches.lean ====
section
/-! DEFINITION. The launch unit (R87 to R95), the dispatchers' placements (R96, R100, R108, R112 to R117), and stage workers and the
governor (R110, R111). -/
namespace Sys2Proof.Machine

/-! Record checks (R94). -/

/-- The scope code a level of a kind has (R90). -/
def Launch.scopeOk (l : Launch) (j : Nat) : Bool :=
  let c := fun (i : Nat) => l.f (65 + 8 * i) 1
  if l.kind j = 7 then j != 0 && c j == c (j - 1) else c j == l.kind j

/-- R90. -/
def Launch.levelsOk (l : Launch) : Bool :=
  let js := List.range l.nlev
  decide (3 ≤ l.nlev ∧ l.nlev ≤ 8) && l.kind 0 == 0 && l.kind 1 == 1 && l.kind 2 == 2
    && js.all (fun j => decide (l.kind j ≤ 7) && l.scopeOk j && decide (1 ≤ l.ext j) && (j == 0 || decide (l.kind (j - 1) < l.kind j)))
    && l.ext 0 == l.width && decide (l.ext 1 ≤ 63) && ((l.level 3).isNone || l.ext 2 == 4)
    && (match l.level 6 with | some j => l.ext j == 1 | none => true) && decide (l.blocks < 2 ^ 32)

/-- What a process-group table gives a launch: rank, neighbours, share. -/
structure Pgt where
  rank : Nat
  nbrs : List Nat
  base : Nat
  cnt : Nat
  deriving DecidableEq, Repr

/-- R94: what cannot be read of a launch's tables: true where it can be read later, a page of it being migrated. The launch unit never
fills a flash window's buffer. -/
def laterRead (x : EngErr) : Bool := x = .wait
def tblEng (l : Launch) : Eng := { ioEng l.vd l.asid with flash := false }

/-- R92: the entries of a table from the n-th last on: each obeys its rule, and exactly one is this package's. -/
def pgtEntries (s : State) (e : Eng) (pgt n : Nat) (found : Option Pgt) : Nat → State × Except Bool (Option Pgt)
  | 0 => (s, .ok found)
  | k + 1 =>
    match engReadN s e (pgt + 16 + 32 * (n - (k + 1))) 32 with
    | (s, .error x) => (s, .error (laterRead x))
    | (s, .ok (b, p)) =>
      if p ∨ field b 24 4 = 0 ∨ field b 28 4 ≠ 0 then (s, .error false)
      else if field b 0 2 = Config.pkgId.toNat then
        (if found.isSome then (s, .error false)
         else
          pgtEntries s e pgt n
            (some { rank := field b 2 2, nbrs := (List.range 8).map (fun i => field b (4 + 2 * i) 2), base := field b 20 4, cnt := field b 24 4 }) k)
      else pgtEntries s e pgt n found k

/-- Check 6: the table of a launch, when it has one. -/
def pgtCheck (s : State) (l : Launch) : State × Except Bool (Option Pgt) :=
  let pgt := l.f 32 8
  if (l.level 6).isNone then (s, if pgt = 0 then .ok none else .error false)
  else if pgt = 0 ∨ pgt % 64 ≠ 0 then (s, .error false)
  else
    match engReadN s (tblEng l) pgt 16 with
    | (s, .error x) => (s, .error (laterRead x))
    | (s, .ok (b, p)) =>
      let n := field b 4 2
      if p ∨ field b 0 4 ≠ 0x4B575047 ∨ n = 0 ∨ 4096 < n ∨ field b 6 10 ≠ 0 then (s, .error false)
      else
        match pgtEntries s (tblEng l) pgt n none n with
        | (s, .ok (some g)) =>
          (s, match l.level 5 with
            | some j => if g.base + g.cnt ≤ l.ext j then .ok (some g) else .error false
            | none => .ok (some g))
        | (s, .ok none) => (s, .error false)
        | (s, .error w) => (s, .error w)

/-- Check 7: the regions of a launch, as address and length. -/
def snapRegions (s : State) (l : Launch) : State × Except Bool (List (Nat × Nat)) :=
  let n := l.f 31 1
  if n = 0 then (s, .ok [])
  else if !l.snapOn || decide (16 < n) then (s, .error false)
  else
    match engReadN s (tblEng l) (l.f 40 8) (16 * n) with
    | (s, .error x) => (s, .error (laterRead x))
    | (s, .ok (b, p)) =>
      let rs := (List.range n).map (fun i => (field b (16 * i) 8, field b (16 * i + 8) 8))
      let ok := rs.all (fun r => r.1 % 65536 == 0 && r.2 % 65536 == 0 && r.2 != 0 && decide (r.1 + r.2 ≤ 2 ^ 64))
        && (List.range n).all (fun i => (List.range i).all (fun j =>
          let a := rs.getD i (0, 0)
          let c := rs.getD j (0, 0)
          decide (a.1 + a.2 ≤ c.1 ∨ c.1 + c.2 ≤ a.1)))
      (s, if ok && !p then .ok rs else .error false)

/-- The checks of R94 in order: the reason of the first that fails, none while a page is being migrated, or the launch with what its
tables give. -/
def launchCheck (s : State) (l : Launch) : State × Except (Option Nat) Launch :=
  let nl := min 8 l.nlev
  let fl := l.flags
  if l.f 0 2 ≠ 1 ∨ bits fl 14 3 ≠ 0 ∨ l.f 24 7 ≠ 0 ∨ l.f 56 8 ≠ 0 ∨ (List.range nl).any (fun j => l.f (66 + 8 * j) 2 != 0) then (s, .error (some 1))
  else if l.width ≠ 16 ∧ l.width ≠ 32 ∧ l.width ≠ 64 then (s, .error (some 2))
  else if l.regs < 8 ∨ 192 < l.regs ∨ l.regs % 8 ≠ 0 then (s, .error (some 3))
  else if l.scratch % 256 ≠ 0 ∨ fitsGrant s l.vd l.need = false then (s, .error (some 4))
  else if !l.levelsOk then (s, .error (some 5))
  else
    match pgtCheck s l with
    | (s, .error w) => (s, .error (if w then none else some 6))
    | (s, .ok g) =>
      match snapRegions s l with
      | (s, .error w) => (s, .error (if w then none else some 7))
      | (s, .ok rs) =>
        if l.cnt ≠ noHandle ∧ handleOk s l.vd l.cnt = false then (s, .error (some 8))
        else
          (s, .ok
            { l with
              snap := rs, rank := (g.map (·.rank)).getD 0, nbrs := (g.map (·.nbrs)).getD [], shareBase := (g.map (·.base)).getD 0,
              shareCnt := (g.map (·.cnt)).getD (2 ^ 32) })

/-! Taking records (R87, R94). -/

/-- A refused record: DONE, ERROR, CNT. -/
def launchRefuse (s : State) (l : Launch) (reason : Nat) : State :=
  let s := writeDone s l.vd l.slotVa (5 + 256 * reason) []
  let s := onLqRegs s l.vd (fun q => { q with error := true })
  if l.cnt ≠ noHandle ∧ handleOk s l.vd l.cnt = true then sendDecs s l.vd l.asid lqKey none [l.cnt] else s

/-- The record at HEAD: not readable now, unreadable, not valid, or its bytes. -/
inductive RecAt where
  | later
  | bad
  | invalid
  | good (b : Bytes)
  deriving DecidableEq, Repr
def recordAt (s : State) (v : Nat) : State × RecAt :=
  let q := lqOf s v
  match gpaReadN s (ioEng v 0) (lqBase s v + 256 * (q.head.toNat % 2 ^ lqLog2 s v)) 256 with
  | (s, .error .wait) => (s, .later)
  | (s, .error _) => (s, .bad)
  | (s, .ok (b, p)) => (s, if p then .bad else if bit (field b 2 2) 15 = ownerBit q.head (lqLog2 s v) then .good b else .invalid)

/-- May the launch unit look at a queue? -/
def lqReady (s : State) (v : Nat) : Bool := vdRuns s v && (lqOf s v).head != (lqOf s v).tail && !lqFull s v

/-- The launch unit takes the record at HEAD, or stops there. A record whose check or refusal waits for a page that is being migrated is
taken later (R209). -/
def launchTake (s : State) (v : Nat) : State :=
  if !lqReady s v then s
  else
    let q := lqOf s v
    match recordAt s v with
    | (s, .later) => s
    | (s, .invalid) => onLqRegs s v (fun q => { q with stopped := true })
    | (s, .bad) =>
      if q.stopped then s
      else
        offerRec (onLqRegs s v (fun q => { q with stopped := true, error := true })) v
          { type := 0x0D, sev := 1, vd := v, unit := 0x420, addr := some q.head.toNat, data0 := 0 }
    | (s, .good b) =>
      let l : Launch :=
        { lid := s.lq.nextId, prev := q.last, vd := v, idx := q.head, slotVa := lqBase s v + 256 * (q.head.toNat % 2 ^ lqLog2 s v), asid := (trnOf s v).uasid.toNat,
          record := b, rank := 0, nbrs := [], shareBase := 0, shareCnt := 0, cursor := 0, dispatched := 0, resident := 0, ended := 0,
          teamDie := [], replays := 0, killing := none, snap := [] }
      let took := fun (s : State) => onLqRegs s v (fun q => { q with stopped := false, head := q.head + 1 })
      match launchCheck s l with
      | (s, .error none) => s
      | (s, .error (some r)) => if doneWaits s v l.slotVa then s else launchRefuse (took s) l r
      | (s, .ok l) =>
        let s := onLqRegs (took s) v (fun q => { q with last := some l.lid })
        s.onLq fun q => { q with launches := q.launches ++ [l], nextId := q.nextId + 1 }

/-- LAUNCH_TAKE_RECORD (R87 to R94). -/
def execLaunchTakeRecord (s : State) : Answer := .next (flushRecs (reap (launchTake s s.sch.sel.vd.val)))

/-! Placement (R96, R112 to R117). -/

/-- The launch before one in its queue, while it is not complete. -/
def launchBefore (s : State) (l : Launch) : Option Launch := l.prev.bind (findLaunch s)
/-- Is the counter decrement of a launch still to be performed? -/
def decOwed (s : State) (l : Nat) : Bool := s.lq.decs.any (fun d => d.launch == some l)

/-- R96: may a launch dispatch a block now? -/
def launchMay (s : State) (l : Launch) : Bool :=
  l.killing.isNone && l.next.isSome &&
    (decide (0 < l.dispatched) ||
      match launchBefore s l with
      | none => !(l.waitPrev && !l.capen && l.prev.any (decOwed s))
      | some p => if !l.waitPrev then p.next.isNone else if !l.capen then false else decide (0 < p.dispatched))

/-- R96: the producer whose blocks are still to come, for a launch that started early. -/
def producerOf (s : State) (l : Launch) : Option Launch :=
  if l.waitPrev && l.capen then (launchBefore s l).filter (fun p => p.next.isSome) else none

/-- The state with a block's slots, rows and scratchpad taken. -/
def withFit (s : State) (v core : Nat) (n : Need) (f : Fit) : State :=
  let gs := f.spots.map (fun x => ({ Group.blank with vd := v, core := core, width := n.width, regs := n.regs } : Group).atSpot x)
  let b : Block :=
    { bid := s.cores.nextNum, num := 0, vd := v, core := core, owner := .monitor, lin := 0, idx := [], ext := [], rank := 0, nbrs := [], rowStart := f.row,
      rowCount := n.rows, groups := [], bars := [], team := none, inRegion := f.part }
  s.onCores fun c => { c with groups := c.groups ++ gs, blocks := c.blocks ++ [b] }

/-- Do the limits of early start allow a fit on a core (R96)? -/
def capAllows (s : State) (l : Launch) (core : Nat) (f : Fit) : Bool :=
  match producerOf s l with
  | none => true
  | some p =>
    decide (((residents s core).filter (fun g => g.owner == .launch l.lid)).length + l.need.groups ≤ l.cap)
      && (fitBlock (withFit s l.vd core l.need f) l.vd core p.need).isSome
/-- Where a block of a launch fits a core, in the first of some parts of the grant that the limits of early start allow (R96, R113). -/
def fitLaunch (s : State) (l : Launch) (core : Nat) (parts : List Part) : Option Fit :=
  parts.findSome? (fun p => (fitPart s l.vd core l.need p).filter (capAllows s l core))

/-- R114: of some cores on which work fits, the one with the most free slots. -/
def bestCore {α : Type} (s : State) (v : Nat) (fits : List (Nat × α)) : Option (Nat × α) := leastBy (fun e => 4096 - coreFree s v e.1) fits

/-- R116: is block L eligible on a die? -/
def dieOk (l : Launch) (L d : Nat) : Bool :=
  match l.level 4 with
  | none => true
  | some j => (l.teamDie.find (L / l.below j)).all (fun x => x == d)

/-- Where the cursor block, or the team of four blocks there, goes on a die: a core and its fit for each. A team is wholly inside a
region or wholly outside (R127). -/
def launchSpot (s : State) (l : Launch) (d : Nat) : Option (List (Nat × Fit)) :=
  match l.next with
  | none => none
  | some L =>
    if !dieOk l L d then none
    else if (l.level 3).isNone then
      (bestCore s l.vd ((rangeFrom (208 * d) 208).filterMap (fun c => (fitLaunch s l c (partsOf s l.vd)).map (fun f => (c, f))))).map (fun e => [e])
    else
      let ok := (rangeFrom (52 * d) 52).filterMap (fun q =>
        (partsOf s l.vd).findSome? (fun p =>
          let fs := (rangeFrom (4 * q) 4).filterMap (fun c => (fitLaunch s l c [p]).map (fun f => (c, f)))
          if fs.length = 4 then some fs else none))
      leastBy (fun fs => 65536 - (fs.map (fun e => coreFree s l.vd e.1)).sum) ok

/-- The launch stream of a VD on a die (R117): the oldest launch with blocks left, then the early-start consumers after it. -/
def launchOffer (s : State) (v d : Nat) : Option (Launch × List (Nat × Fit)) :=
  ((s.lq.launches.filter (fun l => l.vd == v)).filter (launchMay s)).findSome? (fun l => (launchSpot s l d).map (fun x => (l, x)))

/-- One block of a launch starts on a core (R91, R92). -/
def placeOne (s : State) (l : Launch) (L : Nat) (team : Option Nat) (e : Nat × Fit) : State :=
  let ls := List.range l.nlev
  (startBlock s
    { vd := l.vd, core := e.1, priv := userPriv l.vd, asid := l.asid, owner := .launch l.lid, entry := BitVec.ofNat 64 (l.f 8 8),
      kregs := Vector.ofFn fun i => BitVec.ofNat 32 (l.f (128 + 4 * i.val) 4), clear := false, lin := L, idx := ls.map (l.idxAt L),
      ext := ls.map l.ext, rank := l.rank, nbrs := l.nbrs, team := team, chans := [.launches l.vd] } e.2 l.need).1

/-- A placement from the launch stream: the block, or the four blocks of a team, at the cursor. -/
def placeLaunch (s : State) (l : Launch) (d : Nat) (spots : List (Nat × Fit)) : State :=
  let L := l.next.getD 0
  let team := (l.level 3).map (fun _ => s.cores.nextNum)
  let s := match team with
    | some t => s.onCores fun c => { c with nextNum := c.nextNum + 1, teams := c.teams.put t false }
    | none => s
  let s := spots.zipIdx.foldl (fun s e => placeOne s l (L + e.2) team e.1) s
  let s := onLaunch s l.lid (fun x =>
    { x with
      cursor := L + spots.length, dispatched := x.dispatched + spots.length, resident := x.resident + spots.length
      teamDie := match l.level 4 with | some j => x.teamDie.put (L / l.below j) d | none => x.teamDie })
  s.onLq fun q => { q with toggles := q.toggles.put (4 * l.vd + d) true }

/-- The head of a ready queue and where it fits: a phased task resumes only on its cluster (R104, R108, R114). -/
def taskOffer (s : State) (v d : Nat) : Option (Ready × Nat × Fit) :=
  match readyHead (readyOf s v d) with
  | none => none
  | some r =>
    let cores := match r.resume with
      | some (_, cl) => rangeFrom (4 * cl) 4
      | none => rangeFrom (208 * d) 208
    (bestCore s v (cores.filterMap (fun c => (fitBlock s v c (pkNeed r.packet)).map (fun f => (c, f))))).map (fun e => (r, e.1, e.2))

/-- A task's block starts on a core, acquiring what some channels carry (R100): a one-group block of width W, whose thread level has that extent (R91). -/
def startTask (s : State) (tid v asid core : Nat) (p : Bytes) (cs : List Chan) (f : Fit) : State × Nat :=
  startBlock s
    { vd := v, core := core, priv := userPriv v, asid := asid, owner := .task tid, entry := BitVec.ofNat 64 (pkEntry p), kregs := pkKregs p,
      clear := true, lin := 0, idx := [0, 0, 0], ext := [(pkNeed p).width, 1, 1], rank := 0, nbrs := [], team := none, chans := cs }
    f (pkNeed p)

/-- A task that has left its queue or ring (R100, R102). -/
def newTask (s : State) (v asid core d : Nat) (p : Bytes) (handle : Option (BitVec 32)) (worker : Option Nat) (f : Fit) : State :=
  let tid := s.lq.nextId
  let s := match handle with
    | some h => onCounter s h.toNat (fun c => { c with st := .running })
    | none => s
  let s := s.onLq fun q =>
    { q with
      nextId := tid + 1
      tasks := q.tasks ++ [{ tid := tid, vd := v, die := d, core := core, asid := asid, packet := p, handle := handle, phaseNo := 0, worker := worker, killing := none }] }
  (startTask s tid v asid core p [match handle with | some h => .counter (counterKey h.toNat) | none => .ring v d] f).1

/-- The ready queue's head leaves it, and the toggle records the stream. -/
def takeReady (s : State) (v d : Nat) (r : Ready) : State :=
  (setReady s v d (dropReady (readyOf s v d) r)).onLq fun q => { q with toggles := q.toggles.del (4 * v + d) }

/-- R117: what a die's dispatcher places for a VD: the step, or none. -/
def placement (s : State) (v d : Nat) : Option Instr :=
  let a := (launchOffer s v d).map (fun x => if (x.1.level 3).isNone then Instr.placeBlock else Instr.placeTeam)
  let b := (taskOffer s v d).map (fun x => if x.1.resume.isSome then Instr.phaseResume else Instr.placeTask)
  if s.lq.toggles.at false (4 * v + d) then b.or a else a.or b

/-- A placement of a die's dispatcher for the selected VD (R112), of the stream that R117 gives it now. -/
def placeAs (mine : Instr → Bool) (f : State → Answer) (s : State) : Answer :=
  match placement s s.sch.sel.vd.val s.sch.sel.die.val with
  | none => .next s
  | some i => if mine i then f s else .next (s.push (.ev i s.sch.sel))

/-- PLACE_BLOCK and PLACE_TEAM (R112, R115, R116): a placement from the launch stream. -/
def fromLaunch (s : State) : Answer :=
  match launchOffer s s.sch.sel.vd.val s.sch.sel.die.val with
  | some (l, x) => .next (placeLaunch s l s.sch.sel.die.val x)
  | none => .next s
def execPlaceBlock (s : State) : Answer := placeAs (fun i => match i with | .placeBlock => true | _ => false) fromLaunch s
def execPlaceTeam (s : State) : Answer := placeAs (fun i => match i with | .placeTeam => true | _ => false) fromLaunch s

/-- PLACE_TASK (R100, R104, R112). -/
def fromReady (s : State) : Answer :=
  let v := s.sch.sel.vd.val
  let d := s.sch.sel.die.val
  match taskOffer s v d with
  | some (r, core, f) => .next (newTask (takeReady s v d r) v r.asid core d r.packet r.handle none f)
  | none => .next s
def execPlaceTask (s : State) : Answer := placeAs (fun i => match i with | .placeTask => true | _ => false) fromReady s

/-- The billet's data put into a resumed task: carry registers, carry scratchpad and PCs (R107, R108), which no branch target marker is asked
for (R248). -/
def resumeFrom (s : State) (tid core row : Nat) (p b : Bytes) : State :=
  match s.cores.groups.find? (fun g => g.owner == .task tid) with
  | none => s
  | some g =>
    let w := g.width
    let regs := 64 + 8 * w
    let spad := regs + 4 * w * pkCarryCnt p
    let s := (List.range (pkCarryCnt p)).foldl (fun s j => (List.range w).foldl (fun s i =>
      writeReg s g i (pkCarryBase p + j) (BitVec.ofNat 32 (field b (regs + 4 * (j * w + i)) 4))) s) s
    let s := clearSpad s core row (pkRows p)
    let s := (List.range (64 * pkCscr p)).foldl (fun s k => sramPut s core (64 * row + k) (BitVec.ofNat 32 (field b (spad + 4 * k) 4))) s
    onGroup s g.gid (fun g =>
      { g with threads := g.threads.mapIdx (fun i x =>
          let pc := field b (64 + 8 * i) 8
          if pc = 0 then { x with st := .exited } else { x with pc := BitVec.ofNat 64 pc, entry := false }) })

/-- The threads of a resumed task go on where those of the phase before left off: thread i knows what thread i knew then (R199), and
each of them the billet (R108, R202). -/
def resumeKnow (s : State) (tid : Nat) : State :=
  let c : Chan := .work (.task tid)
  let rs := chanOf s c
  match s.cores.groups.find? (fun g => g.owner == .task tid) with
  | none => s
  | some g =>
    (List.range g.threads.length).foldl (fun s i =>
      learn s (threadAgent g.gid i) ((rs.filter (fun r => r.agent % 2 == 1 || r.agent % 2048 == 2 * i)).flatMap (·.know))) (setChan s c [])
/-- PHASE_RESUME (R108): the head of the ready queue is a phased task; a billet that cannot be read ends it as killed. -/
def phaseResume (s : State) (v d : Nat) (r : Ready) (tid core : Nat) (f : Fit) : State :=
  let n := 64 + 8 * pkWidth r.packet + 4 * pkWidth r.packet * pkCarryCnt r.packet + 256 * pkCscr r.packet
  match engReadN s (swEng s (clusterOfCore core) v r.asid) (pkBillet r.packet) n with
  | (s, .error .wait) => s
  | (s, .error _) => startKill (takeReady s v d r) v (.task tid) 0
  | (s, .ok (b, p)) =>
    if p then startKill (takeReady s v d r) v (.task tid) 0
    else
      let s := onTask (takeReady s v d r) tid (fun t => { t with core := core })
      resumeKnow (resumeFrom (startTask s tid v r.asid core r.packet [] f).1 tid core f.row r.packet b) tid
def fromBillet (s : State) : Answer :=
  let v := s.sch.sel.vd.val
  let d := s.sch.sel.die.val
  match taskOffer s v d with
  | some (r, core, f) =>
    (match r.resume with
      | some (tid, _) => .next (reap (phaseResume s v d r tid core f))
      | none => .next s)
  | none => .next s

def execPhaseResume (s : State) : Answer := placeAs (fun i => match i with | .phaseResume => true | _ => false) fromBillet s

/-! Stage workers (R110). -/

/-- Fields of a worker register and a stage. -/
abbrev wkOn (w : Nat) : Bool := bit w 31
abbrev wkStage (w : Nat) : Nat := bits w 26 24
abbrev wkSlot (w : Nat) : Nat := bits w 21 16
abbrev wkCore (w : Nat) : Nat := bits w 9 0
abbrev Stage.en (t : Stage) : Bool := bit t.ring.toNat 0
abbrev Stage.log (t : Stage) : Nat := bits t.ring.toNat 11 8
abbrev Stage.base (t : Stage) : Nat := bits t.ring.toNat 63 12 * 4096

/-- The place of a worker's task: its own slot, in the part of the grant that holds it, when that slot is free. -/
def workerFit (s : State) (v core slot : Nat) (n : Need) : Option Fit :=
  let q := slot / 16
  let x := slot % 16
  let l := residents s core
  if halted s core || slotTaken l q x || reservedSlot s v q x || restoreWaits s v core q then none
  else
    (partsOf s v).findSome? (fun p =>
      if !slotIn s v p x then none
      else
        match freeRows s l v p q ((n.regs * n.width + 63) / 64), freeSpad s v core p n.rows with
        | some r, some sp => some { part := p, spots := [{ quarter := q, slot := x, col := pickCol l v q n.width, row := r }], row := sp }
        | _, _ => none)

/-- Is a worker looking for work: enabled, on its die, its slot free, its stage in use and not empty? A ring whose LOG2 is outside 4 to 12, to
which the spec gives no meaning, is not in use: the model's choice. -/
def workerIdle (s : State) (v d n : Nat) : Bool :=
  let g := govOf s v d
  let w := g.worker n
  let t := g.stage (wkStage w)
  wkOn w && decide (wkCore w < 832) && dieOfCore (wkCore w) == d && !slotTaken (residents s (wkCore w)) (wkSlot w / 16) (wkSlot w % 16)
    && !halted s (wkCore w) && t.en && decide (4 ≤ t.log ∧ t.log ≤ 12) && t.head != t.tail && vdRuns s v

/-- A slot that cannot be read: the stage's first since its last TAIL store is recorded. -/
def stageFail (s : State) (v d i : Nat) (t : Stage) : State :=
  if t.failed then s
  else
    offerRec (onGov s v d (fun g => g.onStage i (fun t => { t with failed := true }))) v
      { type := 0x0D, sev := 1, vd := v, unit := 0x420 + d, addr := some t.head.toNat, data0 := 0x100 + i }

/-- A worker takes the packet at HEAD of its stage's ring. It starts in the worker's slot (R110) whatever DIESEL says (R100): that DIESEL is
ignored there is the model's choice between the two rules. -/
def workerTake (s : State) (v d n : Nat) : State :=
  if !workerIdle s v d n then s
  else
    let w := (govOf s v d).worker n
    let i := wkStage w
    let t := (govOf s v d).stage i
    let drop := fun (s : State) => onGov s v d (fun g => g.onStage i (fun t => { t with head := t.head + 1 }))
    match gpaReadN s (ioEng v 0) (t.base + 256 * (t.head.toNat % 2 ^ t.log)) 256 with
    | (s, .error .wait) => s
    | (s, .error _) => stageFail s v d i t
    | (s, .ok (b, p)) =>
      if p then stageFail s v d i t
      else if bit (field b 1 1) 7 ≠ ownerBit t.head t.log then s
      else
        let pk := b.take (16 * field b 0 1)
        if !pkOk b || pkPhased b || !fitsGrant s v (pkNeed b) then
          drop (offerRec s v { type := 0x0B, sev := 1, vd := v, unit := 0x420 + d, data0 := noHandle })
        else
          match workerFit s v (wkCore w) (wkSlot w) (pkNeed pk) with
          | none => s
          | some f => newTask (drop s) v (bits (govOf s v d).ctl.toNat 15 8) (wkCore w) d pk none (some n) f

/-- STAGE_WORKER_TAKE (R110). -/
def execStageWorkerTake (s : State) : Answer := .next (flushRecs (workerTake s s.sch.sel.vd.val s.sch.sel.die.val s.sch.sel.n))

/-! The governor (R111). -/

/-- The moves of one instant: the worker and its new stage. -/
def govMoves (g : Gov) : List (Nat × Nat) :=
  let thr := fun (i : Nat) => (g.stage i).thr.toNat
  let low := fun i => bits (thr i) 31 16
  let high := fun i => bits (thr i) 47 32
  let occ := fun (i : Nat) => ((g.stage i).tail - (g.stage i).head).toNat
  let mine := fun i => (g.workers.filter (fun e => wkOn e.2.toNat && wkStage e.2.toNat == i)).map (·.1)
  let part := (List.range 8).filter (fun i => (g.stage i).en && decide (low i ≤ high i))
  let ord := fun (f : Nat → Nat) (l : List Nat) => l.mergeSort (fun a b => decide (f b < f a ∨ (f a = f b ∧ a ≤ b)))
  let recv := ord (fun i => occ i - high i) (part.filter (fun i => decide (high i < occ i ∧ (mine i).length < bits (thr i) 15 8)))
  let don := ord (fun i => low i - occ i) (part.filter (fun i => decide (occ i < low i ∧ bits (thr i) 7 0 < (mine i).length)))
  (recv.zip don).map (fun x => ((mine x.2).foldl max 0, x.1))

/-- GOVERNOR_EVALUATE (R111). -/
def govEvaluate (s : State) (v d : Nat) : State :=
  let g := govOf s v d
  if !bit g.ctl.toNat 0 then s
  else
    onGov s v d (fun g =>
      (govMoves g).foldl (fun (g : Gov) m =>
        { g with workers := g.workers.put m.1 (BitVec.ofNat 64 (setBits (g.worker m.1) 26 24 m.2)) }) g)
def execGovernorEvaluate (s : State) : Answer := .next (govEvaluate s s.sch.sel.vd.val s.sch.sel.die.val)

end Sys2Proof.Machine
end

