-- ==== Sys2Proof/Machine/Logic.lean ====
section
/-! DEFINITION. Row 0x2: logic, shifts and bit fields (R279, R280). -/
namespace Sys2Proof.Machine

/-- A row 0x2 instruction of n-bit source a and a second source: d := f a b. -/
def logicOp (i : Instr) (m : LogicMod) (d a : Opnd) (b : Src) (f : Nat → Nat → Nat) (s : State) : Ans :=
  runOp i .u (regBody d (W m.w64) (fun s g t => f (readV s g t a m.w64) (b s g t))) s

/-- R280: shifts by an unsigned count, never reduced modulo n. -/
def shlOf (n a c : Nat) : Nat := if c ≥ n then 0 else a * 2 ^ c % 2 ^ n
def shrOf (n : Nat) (sgn : Bool) (a c : Nat) : Nat :=
  let c := if c ≥ n then (if sgn then n - 1 else n) else c
  if sgn then wrap n (sext n a / 2 ^ c) else a / 2 ^ c
/-- R280: rotation by the count modulo n. -/
def rotOf (n : Nat) (right : Bool) (a c : Nat) : Nat :=
  let k := c % n
  let k := if right then (n - k) % n else k
  (a * 2 ^ k + a / 2 ^ (n - k)) % 2 ^ n
/-- R280: zeros above the highest one of n bits. -/
def clzOf : Nat → Nat → Nat
  | 0, _ => 0
  | n + 1, a => if bit a n then 0 else 1 + clzOf n a
/-- R280: the bit field of a at a position and length. -/
def bfxOf (n : Nat) (sgn : Bool) (a b c : Nat) : Nat :=
  let pos := b % 256
  let len := c % 256
  if pos ≥ n ∨ len = 0 then 0
  else
    let len := min len (n - pos)
    let f := bits a (pos + len - 1) pos
    if sgn then wrap n (sext len f) else f

def execAnd (h : Hdr) (m : LogicMod) (d a b : Opnd) (s : State) : Ans :=
  logicOp (.and h m d a b) m d a (regSrc b m.w64) nAnd s
def execAndImm (h : Hdr) (m : LogicMod) (d a : Opnd) (imm : BitVec 32) (s : State) : Ans :=
  logicOp (.andImm h m d a imm) m d a (immSrc imm m.w64 false) nAnd s
def execOr (h : Hdr) (m : LogicMod) (d a b : Opnd) (s : State) : Ans :=
  logicOp (.or h m d a b) m d a (regSrc b m.w64) nOr s
def execOrImm (h : Hdr) (m : LogicMod) (d a : Opnd) (imm : BitVec 32) (s : State) : Ans :=
  logicOp (.orImm h m d a imm) m d a (immSrc imm m.w64 false) nOr s
def execXor (h : Hdr) (m : LogicMod) (d a b : Opnd) (s : State) : Ans :=
  logicOp (.xor h m d a b) m d a (regSrc b m.w64) nXor s
def execXorImm (h : Hdr) (m : LogicMod) (d a : Opnd) (imm : BitVec 32) (s : State) : Ans :=
  logicOp (.xorImm h m d a imm) m d a (immSrc imm m.w64 false) nXor s
/-- NOT: every bit of a complemented. -/
def execNot (h : Hdr) (m : LogicMod) (d a : Opnd) (s : State) : Ans :=
  logicOp (.not h m d a) m d a zeroSrc (fun x _ => 2 ^ nBits m.w64 - 1 - x) s
/-- LOGT: an arbitrary function of three operands, bit by bit. -/
def execLogt (h : Hdr) (m : LogicMod) (d a b c : Opnd) (s : State) : Ans :=
  runOp (.logt h m d a b c) .u (regBody d (W m.w64) (fun s g t =>
    tblWord m.tbl.val (nBits m.w64) (readV s g t a m.w64) (readV s g t b m.w64) (readV s g t c m.w64))) s
def execShl (h : Hdr) (m : LogicMod) (d a b : Opnd) (s : State) : Ans :=
  logicOp (.shl h m d a b) m d a (regSrc b false) (shlOf (nBits m.w64)) s
def execShlImm (h : Hdr) (m : LogicMod) (d a : Opnd) (imm : BitVec 32) (s : State) : Ans :=
  logicOp (.shlImm h m d a imm) m d a (fun _ _ _ => imm.toNat) (shlOf (nBits m.w64)) s
def execShr (h : Hdr) (m : LogicMod) (d a b : Opnd) (s : State) : Ans :=
  logicOp (.shr h m d a b) m d a (regSrc b false) (shrOf (nBits m.w64) m.s) s
def execShrImm (h : Hdr) (m : LogicMod) (d a : Opnd) (imm : BitVec 32) (s : State) : Ans :=
  logicOp (.shrImm h m d a imm) m d a (fun _ _ _ => imm.toNat) (shrOf (nBits m.w64) m.s) s
def execRot (h : Hdr) (m : LogicMod) (d a b : Opnd) (s : State) : Ans :=
  logicOp (.rot h m d a b) m d a (regSrc b false) (rotOf (nBits m.w64) m.right) s
def execPopc (h : Hdr) (m : LogicMod) (d a : Opnd) (s : State) : Ans :=
  runOp (.popc h m d a) .u (regBody d 1 (fun s g t => popcount (nBits m.w64) (readV s g t a m.w64))) s
def execClz (h : Hdr) (m : LogicMod) (d a : Opnd) (s : State) : Ans :=
  runOp (.clz h m d a) .u (regBody d 1 (fun s g t => clzOf (nBits m.w64) (readV s g t a m.w64))) s
def execBfx (h : Hdr) (m : LogicMod) (d a b c : Opnd) (s : State) : Ans :=
  runOp (.bfx h m d a b c) .u (regBody d (W m.w64) (fun s g t =>
    bfxOf (nBits m.w64) m.s (readV s g t a m.w64) (readOp s g t b 1) (readOp s g t c 1))) s

end Sys2Proof.Machine
end

