-- ==== Sys2Proof/Machine/Pred.lean ====
section
/-! DEFINITION. Row 0x3 less its float compares: integer compare, select, predicates and moves (R281 to R285); MOVS stands with
the special registers. -/
namespace Sys2Proof.Machine

/-- An integer compare into a predicate (R281). -/
def icmpOp (i : Instr) (m : IcmpMod) (d a : Opnd) (b : Src) (c : Option Opnd) (s : State) : Ans :=
  runOp i .u (eachThread (fun s g t acc =>
    let n := nBits m.w64
    let r := icmp m.cmp (val m.u n (readV s g t a m.w64)) (val m.u n (b s g t))
    writeP acc g t d (combine m.bop r (readP s g t (c.getD .zero))))) s

def execIcmp (h : Hdr) (m : IcmpMod) (d a b : Opnd) (c : Option Opnd) (s : State) : Ans :=
  icmpOp (.icmp h m d a b c) m d a (regSrc b m.w64) c s
def execIcmpImm (h : Hdr) (m : IcmpMod) (d a : Opnd) (imm : BitVec 32) (s : State) : Ans :=
  icmpOp (.icmpImm h m d a imm) m d a (immSrc imm m.w64 m.u) none s

/-- R282: byte j of the result from a where bit j of the predicate is 1, else from b. -/
def selBytes (p a b : Nat) : Nat :=
  (List.range 4).foldl (fun v j =>
    v + 2 ^ (8 * j) * (if bit p j then bits a (8 * j + 7) (8 * j) else bits b (8 * j + 7) (8 * j))) 0

/-- SEL of two values by a predicate (R282). -/
def selOp (i : Instr) (m : SelMod) (d p a : Opnd) (b : Src) (s : State) : Ans :=
  runOp i .u (regBody d (W m.w64) (fun s g t =>
    let x := readP s g t p
    let y := readV s g t a m.w64
    if m.byte then selBytes x y (b s g t) else if bit x 0 then y else b s g t)) s

def execSel (h : Hdr) (m : SelMod) (d p a b : Opnd) (s : State) : Ans := selOp (.sel h m d p a b) m d p a (regSrc b m.w64) s
def execSelImm (h : Hdr) (m : SelMod) (d p a : Opnd) (imm : BitVec 32) (s : State) : Ans :=
  selOp (.selImm h m d p a imm) m d p a (immSrc imm m.w64 false) s

/-- PCOMB (R283): a function of three predicates, bit by bit. -/
def execPcomb (h : Hdr) (m : PcombMod) (d a b c : Opnd) (s : State) : Ans :=
  runOp (.pcomb h m d a b c) .u (eachThread (fun s g t acc =>
    writeP acc g t d (tblWord m.tbl.val 4 (readP s g t a) (readP s g t b) (readP s g t c)))) s

/-- P2G (R284): eight predicates into a register. -/
def execP2g (h : Hdr) (m : P2gMod) (d : Opnd) (s : State) : Ans :=
  runOp (.p2g h m d) .u (regBody d 1 (fun s g t =>
    (List.range 8).foldl (fun v i => v + 16 ^ i * readPred s g t (8 * m.hi.toNat + i)) 0)) s

/-- G2P (R284): a register into the predicates that KEEP does not name. -/
def execG2p (h : Hdr) (m : G2pMod) (a : Opnd) (s : State) : Ans :=
  runOp (.g2p h m a) .u (eachThread (fun s g t acc =>
    let v := readOp s g t a 1
    (List.range 8).foldl (fun acc i =>
      if bit m.keep.val i then acc
      else
        let x := bits v (4 * i + 3) (4 * i)
        writePred acc g t (8 * m.hi.toNat + i) (if g.mandrel then x % 2 else x)) acc)) s

def execMov (h : Hdr) (m : MovMod) (d a : Opnd) (s : State) : Ans :=
  runOp (.mov h m d a) .u (regBody d (W m.w64) (fun s g t => readV s g t a m.w64)) s
def execMovImm (h : Hdr) (m : MovMod) (d : Opnd) (imm : BitVec 32) (s : State) : Ans :=
  runOp (.movImm h m d imm) .u (regBody d (W m.w64) (fun _ _ _ => extImm imm (nBits m.w64) m.u)) s

/-- The high register of a pair. -/
def highOf : Opnd → Opnd
  | .g n => if h : n.val + 1 < 192 then .g ⟨n.val + 1, h⟩ else .zero
  | .k n => if h : n.val + 1 < 32 then .k ⟨n.val + 1, h⟩ else .zero
  | o => o

/-- MOVH (R285): the register after d receives IMM32. -/
def execMovh (h : Hdr) (d : Opnd) (imm : BitVec 32) (s : State) : Ans :=
  runOp (.movh h d imm) .u (regBody (highOf d) 1 (fun _ _ _ => imm.toNat)) s

/-- R285: address a plus an extended and shifted offset. -/
def leaOf (m : LeaMod) (a b : Nat) : Nat := wrap 64 ((a : Int) + toInt (!m.u) 32 b * 2 ^ m.sh.val)

def execLea (h : Hdr) (m : LeaMod) (d a b : Opnd) (s : State) : Ans :=
  runOp (.lea h m d a b) .u (regBody d 2 (fun s g t => leaOf m (readOp s g t a 2) (readOp s g t b 1))) s
def execLeaImm (h : Hdr) (m : LeaMod) (d a : Opnd) (imm : BitVec 32) (s : State) : Ans :=
  runOp (.leaImm h m d a imm) .u (regBody d 2 (fun s g t => leaOf m (readOp s g t a 2) imm.toNat)) s

end Sys2Proof.Machine
end

