-- ==== Sys2Proof/Machine/System.lean ====
section
/-! DEFINITION. Row 0xE's system opcodes and row 0xF: special registers (R257), system calls and supervisor queues (R378 to R383),
translations (R385 to R387), frames (R389), bounds (R390) and HALT (R392). -/
namespace Sys2Proof.Machine

/-! Special registers (R131, R257). -/

/-- The phase number of a group's task (R108). -/
def phaseNo (s : State) (g : Group) : Nat :=
  match g.owner with
  | .task tid => ((findTask s tid).map (fun t => t.phaseNo.toNat)).getD 0
  | _ => 0

/-- R91: a thread's index at a level: its own, its group's in the block, then those of its block. -/
def levelIndex (b : Option Block) (g : Group) (t j : Nat) : Nat :=
  match b with
  | none => 0
  | some b => if b.ext.length ≤ j then 0 else if j = 0 then t else if j = 1 then g.gix else b.idx[j]?.getD 0

/-- The value of special register i for a thread; none when no register has the index. -/
def specialReg (s : State) (g : Group) (t i : Nat) : Option Nat :=
  let b := blockOf s g
  if i = 0 then some t
  else if i = 1 then some (g.col * g.width + t)
  else if i = 2 then some g.quarter
  else if i = 3 then some (if g.mandrel then 0xFF else 16 * g.quarter + g.slot)
  else if i = 4 then some g.core
  else if i = 5 then some g.priv.code
  else if i = 6 then some g.width
  else if i = 7 then some g.vd
  else if i = 8 then some (dieOfCore g.core)
  else if i = 9 then some (clusterOfCore g.core % 52)
  else if i = 0xA then some Config.pkgId.toNat
  else if 0x10 ≤ i ∧ i < 0x18 then some (levelIndex b g t (i - 0x10))
  else if 0x18 ≤ i ∧ i < 0x20 then some ((b.bind (fun b => b.ext[i - 0x18]?)).getD 1)
  else if i = 0x20 then some ((b.map (·.lin)).getD 0)
  else if i = 0x21 then some ((b.map (·.rank)).getD 0)
  else if 0x28 ≤ i ∧ i < 0x30 then some ((b.bind (fun b => b.nbrs[i - 0x28]?)).getD 0xFFFF)
  else if i = 0x30 then some (phaseNo s g)
  else if i = 0x31 then some g.asid
  else if i = 0x40 then some (lqPageOf g.vd)
  else if i = 0x41 then some (govPageOf g.vd (dieOfCore g.core))
  else if i = 0x42 then some (nsNow s)
  else none

/-- MOVS (R257). -/
def execMovs (h : Hdr) (d : Opnd) (imm : BitVec 32) (s : State) : Answer :=
  runOp (.movs h d imm) .u (fun s g c act =>
    if (specialReg s g 0 imm.toNat).isNone then (s, act.map (fun t => (t, .trap (illegal (wordBytes (.movs h d imm))))))
    else regBody d (srWidth imm) (fun s g t => (specialReg s g t imm.toNat).getD 0) s g c act) s

/-! System calls and supervisor queues. -/

/-- SYSCALL (R378): each thread posts its own entry with its g1 to g7. -/
def execSyscall (h : Hdr) (imm : BitVec 32) (s : State) : Answer :=
  runOp (.syscall h imm) .u (fun s g _ act =>
    (s, act.map (fun t => (t, .trap (if g.priv = .h then illegal (wordBytes (.syscall h imm))
      else { cause := 0x01, addr := imm.toNat, arg := (rangeFrom 1 7).flatMap (fun j => leBytes 4 (readReg s g t j).toNat), each := true }))))) s

/-- The bytes of an entry, zeros when its slot cannot be read (R143). -/
def svqEntryAt (s : State) (core v i : Nat) : State × Bytes :=
  match svqSlot s core v i with
  | (s, none) => (s, List.replicate 64 0)
  | (s, some a) =>
    match mscRead s v (kidFor s v a) a 32 with
    | (s, .error _) => (s, List.replicate 64 0)
    | (s, .ok (b0, _)) =>
      match mscRead s v (kidFor s v a) (a + 32) 32 with
      | (s, .error _) => (s, List.replicate 64 0)
      | (s, .ok (b1, _)) => (s, b0 ++ b1)

/-- R151: one lane takes an entry, whose release it acquires at BLK, or none; a token of an entry that could not be read, 64 zero bytes, names nothing (R143). -/
def svqTakeOne (s : State) (g : Group) (d : Opnd) (pd : Nat) (t : Nat) : State :=
  let q := svqOf s g.core g.vd
  let owes := (((findGroup s g.gid).getD g).thread t).token.any (fun k => k.caller)
  if owes then writePred s g t pd 0
  else if bit q.base.toNat 0 = false ∨ q.count = 0 then onThread (writePred s g t pd 0) g.gid t (fun x => { x with token := none })
  else
    let i := q.head
    let r := svqEntryAt s g.core g.vd i.toNat
    let s := onSvq r.1 g.core g.vd (fun q => { q with head := q.head + 1, batchSince := none })
    let e := r.2
    let post := s.cores.posts.find? (fun p => p.core == g.core && p.vd == g.vd && p.idx == some i)
    let tok : Token :=
      { trap := if r.2.all (· == 0) then 0 else (post.map (·.num)).getD 0, caller := bit (field e 1 1) 0, usrVd := if g.vd = 0 then field e 2 1 % 16 else g.vd,
        usrAsid := field e 60 4 % 256 }
    let s := s.onCores fun c => { c with posts := c.posts.filter (fun p => !(p.core == g.core && p.vd == g.vd && p.idx == some i)) }
    let s := match post with
      | some p => setChan (recvBy s g [t] 2 (.post p.num)) (.post p.num) []
      | none => s
    onThread (writePred (writeOp s g t d (leNat e) 16) g t pd 15) g.gid t (fun x => { x with token := some tok })

/-- What SVQTAKE leaves of the batch timer (R148). -/
def svqTimerAfter (s : State) (core v : Nat) : State :=
  noteBatch (onSvq s core v (fun q =>
    if q.count = 0 then { q with timer := none, expired := false }
    else if q.count < svqThr s v then { q with timer := some s.sch.cycle, expired := false } else q)) core v

/-- SVQTAKE (R151, R379): places freed are given to the sources that wait (R147) in the turns that follow. -/
def execSvqtake (h : Hdr) (m : SvqtakeMod) (d : Opnd) (s : State) : Answer :=
  runOp (.svqtake h m d) .s (fun s g _ act =>
    if act.isEmpty then (s, [])
    else
      let s := svqTimerAfter (act.foldl (fun s t => svqTakeOne s g d m.pd.val t) s) g.core g.vd
      (if svqWaiters s g.core g.vd ≠ 0 then s.push (.ev .svqWaiterPost { Sel.none with vd := vdFin g.vd, core := coreFin g.core }) else s, [])) s

/-- A thread that a release makes exit: what it still owes is done as at EXIT (R295, R347). -/
def afterExits (s : State) (l : List (Nat × Nat)) : State :=
  (s.cores.teams.map (·.1)).foldl cbarSettle (l.foldl (fun s e => exitOwed s e.1 e.2) s)

/-- SVRET (R153, R380). -/
def execSvret (h : Hdr) (m : SvretMod) (a b : Option Opnd) (s : State) : Answer :=
  thenReap id (runOp (.svret h m a b) .s (fun s g _ act =>
    (act.foldl (fun s t =>
      match (((findGroup s g.gid).getD g).thread t).token with
      | none => s
      | some k =>
        let hit := heldFor s k.trap
        let r : Resume := { form := m.form, a := (a.map (fun o => readOp s g t o 1)).getD 0, b := b.map (fun o => readOp s g t o 1) }
        let s := onThread (svretToken s g t k r) g.gid t (fun x => { x with token := none })
        if k.caller && m.form == .exit then afterExits s hit else s) s, [])) s)

/-- SVQWAIT (R381). -/
def execSvqwait (h : Hdr) (s : State) : Answer :=
  runOp (.svqwait h) .s (fun s g _ act =>
    (s, act.map (fun t => (t, if batch s g.core g.vd then .next else .wait .svqWait)))) s

/-- A server group of a VD starts in its reserved slot (R80, R118, R382). -/
def startServer (s : State) (core v : Nat) (pc : DWord) (cfg : Nat) : State :=
  let w := 16 * 2 ^ bits cfg 1 0
  let bid := s.cores.nextNum
  let gid := s.cores.nextGid
  let b : Block :=
    { bid := bid, num := blockNum s core v, vd := v, core := core, owner := .server, lin := 0, idx := [], ext := [], rank := 0, nbrs := [], rowStart := 0, rowCount := 0,
      groups := [gid], bars := [], team := none, inRegion := none }
  let s := s.onCores fun c => { c with nextNum := bid + 1, blocks := c.blocks ++ [b] }
  let t := startThreads s pc true w
  let g : Group :=
    { Group.blank with
      vd := v, priv := if v = 0 then .h else .s, core := core, width := w, regs := bits cfg 15 8, asid := 0, blk := bid, owner := .server,
      threads := t.2, since := s.sch.cycle, quarter := 0, slot := slotBase s v, col := pickCol (residents s core) v 0 w, rowBase := rowBase s v }
  addGroup (clearRows t.1 g) g

/-- SVWAKE for one thread: its status (R382). -/
def svWake (s : State) (core v : Nat) (pc : DWord) (cfg : Nat) : State × Nat :=
  if 16 ≤ v ∨ (v ≠ 0 ∧ vdRuns s v = false) ∨ serverCfgOk cfg = false ∨ nClr cfg 0xFF03 ≠ 0 then (s, 3)
  else
    match serverGroups s core v with
    | [] => (startServer s core v pc cfg, 1)
    | g :: _ =>
      if g.resid == .core && serverWaits g then
        (wakeThreads s (fun x _ t => x.gid == g.gid && t.st == .wait .svqWait) Thread.goOn, 0)
      else (s, 2)

/-- SVWAKE (R382). -/
def execSvwake (h : Hdr) (d a b c : Opnd) (s : State) : Answer :=
  runOp (.svwake h d a b c) .h (threadBody fun s g t =>
    let r := svWake s g.core (readOp s g t a 1) (BitVec.ofNat 64 (readOp s g t b 2)) (readOp s g t c 1)
    (writeOp r.1 g t d r.2 1, .next)) s

/-- A thread that still waits to post is taken out of its post: the entry without it, or no entry at all (R383). -/
def unpost (s : State) (num t : Nat) : State :=
  s.onCores fun c =>
    { c with posts := c.posts.filterMap (fun p =>
        if p.num = num ∧ p.idx.isNone then
          let m := nClr (field p.entry 24 8) (2 ^ t)
          if m = 0 then none
          else some { p with entry := splice (splice p.entry 24 (leBytes 8 m)) 5 (leBytes 1 ((bitList 64 m).headD 0)) }
        else some p) }

/-- TRET for thread u: the number of threads released, each with the Swage context its fault stopped (R177). -/
def tretOne (s : State) (g : Group) (u ctl lmask c : Nat) : State × Nat :=
  let form : Option RetForm := match bits ctl 13 12 with | 0 => some .next | 1 => some .replay | 2 => some .exit | _ => none
  let here : Group → Bool := fun x => !x.mandrel && x.core == g.core && x.coreSlot == bits ctl 9 4 && x.vd == ctl % 16
  let hit := match s.cores.groups.find? (fun x => here x && x.resid == .core) with
    | some x => some x
    | none => s.cores.groups.find? here
  match form, hit with
  | some f, some x =>
    if nClr ctl 0x33FF ≠ 0 then (s, 0)
    else
      let ts := (List.range x.threads.length).filter (fun t => bit lmask t && (match (x.thread t).st with | .held _ _ => true | _ => false))
      let s := ts.foldl (fun s t =>
        let st := (((findGroup s x.gid).getD x).thread t).st
        let s := match st with
          | .held num false => unpost s num t
          | _ => s
        let s := releaseCaller s g u (x.gid, t) { form := f, a := c, b := none }
        match st with
        | .held num _ => releaseSwage s num f
        | _ => s) s
      (if f = .exit then afterExits s (ts.map (fun t => (x.gid, t))) else s, ts.length)
  | _, _ => (s, 0)

/-- TRET (R383). -/
def execTret (h : Hdr) (d a b c : Opnd) (s : State) : Answer :=
  thenReap id (runOp (.tret h d a b c) .h (fun s g cv act =>
    threadBody (fun s g t =>
      let r := tretOne s g t (readOp s g t a 1) (readOp s g t b 2) (readOp s g t c 1)
      (writeOp r.1 g t d r.2 1, .next)) (if act.isEmpty then s else releaseBy s g act 2 0xFF) g cv act) s)

/-! Translations. -/

/-- PTSYNC (R213, R385): a release fence at the scope, and a crossing LS to WK. -/
def execPtsync (h : Hdr) (m : PtsyncMod) (s : State) : Answer :=
  runOp (.ptsync h m) .s (fun s g _ all =>
    let out := fun t => storesOut s g [t] (scopeRank m.scope)
    let act := all.filter (fun t => !out t)
    let s := if act.isEmpty then s
      else crossBy (fenceBy s g act (scopeRank m.scope) ((m.mask.map (·.val)).getD 0xFF)) g act Path.ls.code 0x40
    (s, (all.filter out).map (fun t => (t, .wait .remote)))) s

/-- TLBINV for one thread (R214, R386). -/
def tlbinvOne (s : State) (g : Group) (m : TlbinvMod) (a b c : Nat) : State :=
  let inC := inScope (scopeRank m.scope) g.core
  let rng := (a / 4096 * 4096, 4096 * b)
  let none_ := b == 0 && (m.form == .va || m.form == .s2)
  let v := if m.form = .s2 then c % 16 else g.vd
  let hits := if none_ then []
    else match m.form with
      | .va => tlbHits s inC v (some (c % 256)) (some rng)
      | .as_ => tlbHits s inC v (some (c % 256)) none
      | .vd | .s2 => tlbHits s inC v none none
  let s := match m.form with
    | .va => if b = 0 then s else tlbInv s inC v (some (c % 256)) (some rng)
    | .as_ => tlbInv s inC v (some (c % 256)) none
    | .vd => tlbInv s inC v none none
    | .s2 => if b = 0 then s else tlbInvS2 s inC v rng
  if m.sync then syncAll s g.core v (scopeRank m.scope) hits else s
def execTlbinv (h : Hdr) (m : TlbinvMod) (a b c : Option Opnd) (s : State) : Answer :=
  let i : Instr := .tlbinv h m a b c
  runOp i .s (fun s g _ act =>
    if m.form == .s2 && g.priv != .h then (s, act.map (fun t => (t, .trap (privilege (wordBytes i)))))
    else
      let rd := fun (s : State) (t : Nat) (o : Option Opnd) (n : Nat) => (o.map (fun o => readOp s g t o n)).getD 0
      (act.foldl (fun s t => tlbinvOne s g m (rd s t a 2) (rd s t b 1) (rd s t c 1)) s, [])) s

/-- PGMOVE for one thread: it takes the status of its own move that ended while it was away, waits for another move of its group, or
begins a move, whose end it waits for. -/
def pgmoveOne (s : State) (g : Group) (t : Nat) (s2 : Bool) (d : Opnd) (va dst x : Nat) : State × Done :=
  match s.trn.moves.find? (fun m => m.gid == g.gid && m.tid == t) with
  | some m =>
    match m.status with
    | some st => (writeOp (s.onTrn fun y => { y with moves := y.moves.erase m }) g t d st 1, .next)
    | none => (s, .wait .move)
  | none =>
    if s.trn.moves.any (fun m => m.gid == g.gid) then (s, .wait .move)
    else
      match (if s2 then pgmoveS2 s g t d (x % 16) va dst else pgmoveS1 s g t d (x % 256) va dst) with
      | (s, .error none) => (s, .wait .mig)
      | (s, .error (some st)) => (writeOp s g t d st 1, .next)
      | (s, .ok ()) => (s, .wait .move)

/-- PGMOVE (R218, R387). -/
def execPgmove (h : Hdr) (m : PgmoveMod) (d a b c : Opnd) (s : State) : Answer :=
  let i : Instr := .pgmove h m d a b c
  runOp i .s (fun s g cv act =>
    if m.s2 && g.priv != .h then (s, act.map (fun t => (t, .trap (privilege (wordBytes i)))))
    else threadBody (fun s g t => pgmoveOne s g t m.s2 d (readOp s g t a 2) (readOp s g t b 2) (readOp s g t c 1)) s g cv act) s

/-! Frames, bounds, halting. -/

/-- FRASSIGN (R227, R389). -/
def execFrassign (h : Hdr) (d a b c : Opnd) (s : State) : Answer :=
  runOp (.frassign h d a b c) .h (threadBody fun s g t =>
    let r := frassign s (readOp s g t a 1) (readOp s g t b 1) (readOp s g t c 1)
    (writeOp r.1 g t d r.2 1, .next)) s

def BAct.code : BAct → Nat
  | .flag => 0 | .clamp => 1 | .trap => 2

/-- BND.SET (R233, R390). -/
def execBndSet (h : Hdr) (m : BndMod) (a b c : Opnd) (s : State) : Answer :=
  runOp (.bndSet h m a b c) .s (threadBody fun s g t =>
    (onBound s g.core g.vd (readOp s g t a 1 % 32) (fun r =>
      { count := if m.kcnt then r.count else 0, i32 := m.i32, nanp := m.nanp, action := BitVec.ofNat 2 m.action.code,
        lo := BitVec.ofNat 32 (readOp s g t b 1), hi := BitVec.ofNat 32 (readOp s g t c 1) }), .next)) s

/-- HALT (R392): once per convoy, with the code of its highest thread that acts (R360). -/
def execHalt (h : Hdr) (a : Opnd) (s : State) : Answer :=
  runOp (.halt h a) .h (fun s g c act =>
    match act.getLast? with
    | none => (s, [])
    | some t => (haltCore s g.core c.pc.toNat (0x10000 + readOp s g t a 1 % 65536), [])) s

end Sys2Proof.Machine
end

