-- ==== Sys2Proof/Machine/Sched.lean ====
section
/-! DEFINITION. Events of the cores: rotation of the active set (R138), timers and retries of supervisor queues (R79, R142 to R148),
groups swapped out and restored (R155, R156), table walks (R209), counter wraps (R221) and line fetches (R245). -/
namespace Sys2Proof.Machine

/-! Active sets. -/

/-- The active group of a VD that entered its quarter's active set earliest. -/
def oldestActive (s : State) (core q v : Nat) : Option Group :=
  leastBy (fun g => g.since * 16 + g.slot) ((quarterGroups s core q v).filter (fun g => g.active))

/-- The key of a VD's issue cycles in a quarter. -/
def issueKey (core q v : Nat) : Nat := 64 * core + 16 * q + v

/-- R138: the exchange every 1,024 issue cycles. -/
def rotate (s : State) (core q v : Nat) : State :=
  let s := s.onCores fun c => { c with issue := c.issue.del (issueKey core q v) }
  match oldestActive s core q v, oldestPending s core q v with
  | some g, some h => enterSet (leaveSet s g.gid) h.gid
  | _, _ => s

/-- ACTIVE_SET_ROTATE (R138): quarter n of the selected core. -/
def execActiveSetRotate (s : State) : Answer := .next (rotate s s.sch.sel.core.val (s.sch.sel.n % 4) s.sch.sel.vd.val)

/-! Timers. -/

/-- Has MTIME reached MTCMP on a core (R142)? -/
def mandrelDue (s : State) (core : Nat) : Bool := decide ((mandrelOf s core).mtcmp.toNat ≤ nsNow s)

/-- MANDREL_TIMER (R142). -/
def execMandrelTimer (s : State) : Answer :=
  let c := s.sch.sel.core.val
  .next (if mandrelDue s c then setMip s c 0 else s)

/-- VTEN, VTCORE and VTCMP of a VD (R79), and whether its timer is due. -/
def vtCore (s : State) (v : Nat) : Nat := bits (vdRec s v).vtimer.toNat 57 48
def vtCmp (s : State) (v : Nat) : Nat := bits (vdRec s v).vtimer.toNat 47 0
def vtDue (s : State) (v : Nat) : Bool := bit (vdRec s v).vtimer.toNat 63 && decide (vtCmp s v ≤ nsNow s)

/-- VIRTUAL_TIMER_FIRE (R79): VTEN clears and a Virtual timer entry is posted on VTCORE. -/
def execVirtualTimerFire (s : State) : Answer :=
  let v := s.sch.sel.vd.val
  .next (if vtDue s v then
      let t := setVd s v (fun r => { r with vtimer := BitVec.ofNat 64 (setBits r.vtimer.toNat 63 63 0) })
      if vtCore s v < 832 then postDirect t (vtCore s v) v 0x20 (vtCmp s v) [] .vtimer else t
    else s)

/-- Has the batch timer of a queue run its time (R148)? -/
def batchDue (s : State) (core v : Nat) : Bool :=
  match (svqOf s core v).timer with
  | some t => decide (1 ≤ (svqOf s core v).count) && decide (t + cyclesOfNs (1000 * svqTmr s v) ≤ s.sch.cycle)
  | none => false

/-- SVQ_BATCH_TIMER (R148). -/
def execSvqBatchTimer (s : State) : Answer :=
  let c := s.sch.sel.core.val
  let v := s.sch.sel.vd.val
  .next (if batchDue s c v then noteBatch (onSvq s c v (fun q => { q with timer := none, expired := true })) c v else s)

/-- Is the watchdog of a queue due (R146)? -/
def watchdogDue (s : State) (core v : Nat) : Bool :=
  let q := svqOf s core v
  match q.batchSince with
  | some t => q.wdog != 0 && decide (t + cyclesOfNs (1000 * q.wdog.toNat) ≤ s.sch.cycle)
  | none => false

/-- SVQ_WATCHDOG (R146). -/
def execSvqWatchdog (s : State) : Answer :=
  let c := s.sch.sel.core.val
  let v := s.sch.sel.vd.val
  .next (if watchdogDue s c v then setMip (onSvq s c v (fun q => { q with wdFired := true, batchSince := some s.sch.cycle })) c (32 + v) else s)

/-- SVQ_POST_RETRY (R143) and SVQ_WAITER_POST (R147): the sources that wait for a queue try again, oldest first. -/
def execSvqPostRetry (s : State) : Answer := .next (retryPosts s s.sch.sel.core.val s.sch.sel.vd.val)
def execSvqWaiterPost (s : State) : Answer := .next (retryPosts s s.sch.sel.core.val s.sch.sel.vd.val)

/-! Context frames. -/

/-- What R155 asks of a group, its time apart: CTXEN, every live thread held, and nothing outstanding. -/
def swappable (s : State) (g : Group) : Bool :=
  !g.mandrel && g.resid == .core && !g.live.isEmpty && g.live.all (fun t => (g.thread t).isHeld)
    && bit (svqOf s g.core g.vd).ctx.toNat 0 && !swageOf s g.gid && !anvilOf s g.gid

/-- The registers of a group in frame order. -/
def groupRegs (s : State) (g : Group) : Bytes :=
  (List.range g.regs).flatMap (fun j => (List.range g.width).flatMap (fun i => leBytes 4 (readReg s g i j).toNat))

/-- R155: a group's frame is written, its slot and rows are freed; a write that faults kills its launch or task (R156). -/
def swapOut (s : State) (g : Group) : State :=
  let a := ctxFrame s g
  let w1 := frameWrite s g.core g.vd a (groupRecord s g)
  let w2 := frameWrite w1.1 g.core g.vd (a + 0x800) (groupRegs s g)
  let w3 := frameWrite w2.1 g.core g.vd (a + 0xE000) (threadExt g)
  let s := onGroup w3.1 g.gid (fun g => { g with resid := .frame false, active := false, heldSince := none, ibuf := [] })
  if w1.2 && w2.2 && w3.2 then s else startKill s g.vd g.owner 0

/-- GROUP_SWAP_OUT (R155): the group of number n, held for 4 µs. -/
def execGroupSwapOut (s : State) : Answer :=
  match findGroup s s.sch.sel.n with
  | some g =>
    .next (match g.heldSince with
      | some t => if swappable s g && decide (t + cyclesOfNs 4000 ≤ s.sch.cycle) then swapOut s g else s
      | none => s)
  | none => .next s

/-- R156: where a swapped-out group goes: its quarter and column, the lowest free slot there with room for its rows, in the part of
the grant it was placed in; a server group to its reserved place. -/
def restoreSpot (s : State) (g : Group) : Option Spot :=
  let l := residents s g.core
  let part : Part := (findBlock s g.blk).bind (·.inRegion)
  if halted s g.core then none
  else if g.owner = .server then
    (if slotTaken l 0 (slotBase s g.vd) then none else some { quarter := 0, slot := slotBase s g.vd, col := g.col, row := rowBase s g.vd })
  else if !(partsOf s g.vd).contains part then none
  else
    match (List.range 16).find? (slotFree s l g.vd g.core part g.quarter), freeRows s l g.vd part g.quarter g.rows with
    | some x, some r => some { quarter := g.quarter, slot := x, col := g.col, row := r }
    | _, _ => none

/-- The image of a group's frame comes back into a place; what cannot be read kills its launch or task. -/
def restoreGroup (s : State) (g : Group) (x : Spot) : State :=
  let a := ctxFrame s g
  let r1 := frameRead s g.core g.vd a 1280
  let r2 := frameRead r1.1 g.core g.vd (a + 0xE000) 1024
  let r3 := frameRead r2.1 g.core g.vd (a + 0x800) (4 * g.regs * g.width)
  let h := { ((g.ofImage r1.2.1 r2.2.1).joins).atSpot x with resid := .core, active := false, since := s.sch.cycle }
  let s := setGroup r3.1 h
  let s := (List.range g.regs).foldl (fun s j => (List.range g.width).foldl (fun s i =>
    writeReg s h i j (BitVec.ofNat 32 (field r3.2.1 (4 * (j * g.width + i)) 4))) s) s
  if r1.2.2 && r2.2.2 && r3.2.2 then s else startKill s g.vd g.owner 0

/-- GROUP_RESTORE (R156): the group of number n, once a release has asked for it and room is found. -/
def execGroupRestore (s : State) : Answer :=
  match findGroup s s.sch.sel.n with
  | some g =>
    .next (if g.resid = .frame true then
        match restoreSpot s g with
        | some x => restoreGroup s g x
        | none => s
      else s)
  | none => .next s

/-! Memory. -/

/-- TABLE_WALK (R209): a translation walks the tables and installs its entry, or faults; the access that asked for it takes the
fault. -/
def execTableWalk (cl : Cluster) (vd : Vd) (asid : Fin 256) (va : BitVec 64) (acc : WalkAcc) (s : State) : Answer :=
  .next (flushRecs (lookup s cl.val vd.val asid.val va.toNat
    { write := acc.write, fetch := acc.fetch, user := acc.user, sup := false }).1)

/-- MINOR_COUNTER_WRAP (R221): the write-back of line n, whose minor counter is 127. -/
def execMinorCounterWrap (s : State) : Answer :=
  let a := 128 * s.sch.sel.n
  .next (if lineMinor s a = 127 then writeBackLine s a else s)

/-- FETCH_LINE (R245): the convoy that group n would issue fetches its line; a check that fails traps its threads. -/
def execFetchLine (s : State) : Answer :=
  match findGroup s s.sch.sel.n with
  | some g =>
    .next (if !canIssue s g then s
      else
        let pc := g.choosePc
        let tids := g.convoyAt pc
        match convoyLine s g pc tids with
        | (s, .error t) => flushRecs (finish s g.gid pc (tids.map (fun i => (i, trapDone t))))
        | (s, .ok _) => flushRecs s)
  | none => .next s

end Sys2Proof.Machine
end

