-- ==== Sys2Proof/Machine/Swage.lean ====
section
/-! DEFINITION. The Swage (R175 to R179, R215, R301 to R303, R431): contexts, beats, expansion and decompression, faults, and the
completion of fills and drains. -/
namespace Sys2Proof.Machine

/-! The payload of a window (R175, R302). -/

/-- Bytes of one source row. -/
def Window.rowLen (w : Window) : Nat :=
  match w.fmt with
  | 0 => w.cols * winEtySize w.ety
  | 1 => 130
  | 2 => 66
  | _ => 36
/-- Bytes a fill or drain moves: a HALO copies the window's length. -/
def Window.payload (w : Window) : Nat := if w.kind = 2 then w.slen else w.nrows * w.rowLen
/-- Bytes of one tile, of its element block, and of one row of elements. -/
def Window.tileLen (w : Window) : Nat := if w.fmt = 1 then 6400 else if w.fmt = 2 then 3328 else 1792
def Window.sideAt (w : Window) : Nat := if w.fmt = 1 then 6144 else if w.fmt = 2 then 3072 else 1536
def Window.elemRow (w : Window) : Nat := if w.fmt = 1 then 128 else if w.fmt = 2 then 64 else 32
/-- Bytes of the window a fill writes. -/
def Window.written (w : Window) : Nat := if w.kind = 0 && w.fmt != 0 then w.nrows / 48 * w.tileLen else w.payload
/-- Bytes of the raw stream (R179). -/
def Window.rawLen (w : Window) : Nat := if w.nrows = 0 ∨ w.rowLen = 0 then 0 else (w.nrows - 1) * w.pitch + w.rowLen

/-- Failures found before any byte is read: the layout (R302), and a HALO's source (R177). -/
def Window.early (s : State) (w : Window) : Nat :=
  let etyOk := if w.fmt = 1 then decide (w.ety ≤ 1) else if w.fmt = 2 then decide (2 ≤ w.ety ∧ w.ety ≤ 4) else true
  if w.kind = 0 && w.fmt != 0 && (w.cols != 64 || w.nrows % 48 != 0 || !etyOk || decide (w.slen < w.nrows / 48 * w.tileLen)) then 7
  else if w.kind = 2 && decide (8192 * segCnt s w.vd < w.noff + w.slen) then 8
  else 0

/-- The words of n bytes at an offset of a window, the bytes at both ends included. -/
def winSpan (b : Block) (w : Window) (o n : Nat) : List Nat :=
  rangeWords (b.rowStart + w.soff / 256) w.swz (o / 4 * 4) (o % 4 + n)
/-- The same in physical row and bank order, as a drain takes a window's image (R165). -/
def winImage (b : Block) (w : Window) (o n : Nat) : List Nat :=
  rangeWords (b.rowStart + w.soff / 256) 0 (o / 4 * 4) (o % 4 + n)
/-- Bytes put into a window through its swizzle; `p` says which are poisoned, and so the units they lie in (R239). -/
def winPut (s : State) (b : Block) (w : Window) (o : Nat) (x : Bytes) (p : Nat → Bool) : State :=
  let s := sramWrite s b.core (winSpan b w o x.length) o x
  ((List.range x.length).filter p).foldl (fun s i => (winSpan b w (o + i) 1).foldl (fun s k => setSramBad s b.core k true) s) s

/-- Units that a fill writes whole lose their poison. -/
def winCleanse (s : State) (b : Block) (w : Window) : State :=
  let ws := winSpan b w 0 (w.written / 4 * 4)
  let full := ((ws.map (· / 8)).eraseDups).filter (fun u => (rangeFrom (8 * u) 8).all ws.contains)
  full.foldl (fun s u => setSramBad s b.core (8 * u) false) s

/-! Expansion (R301 to R303). -/

/-- The markers of a Q4X block, in order: element and F8 code; none when it does not decode. -/
def q4xMarks (x : Bytes) : Option (List (Nat × Nat)) :=
  let nib := fun (i : Nat) => field x (4 + i / 2) 1 / (if i % 2 = 0 then 1 else 16) % 16
  let mate := fun (i : Nat) => if i % 2 = 0 then i + 1 else i - 1
  let ms := (List.range 64).filter (fun i => nib i == 8)
  if 4 < ms.length ∨ ms.any (fun i => nib (mate i) == 8) then none
  else some (ms.zipIdx.map (fun e => (e.1, 16 * nib (mate e.1) + bits (field x 2 2) (4 * e.2 + 3) (4 * e.2))))
/-- Its element bytes, markers and their mates zero. -/
def q4xElems (x : Bytes) : Bytes :=
  (List.range 32).map (fun i =>
    let b := field x (4 + i) 1
    if b % 16 = 8 ∨ b / 16 = 8 then 0 else BitVec.ofNat 8 b)

/-- A source row of a formatted fill put into its tile: the state and the count of outliers in the tile, or the failing status. -/
def tileRow (s : State) (b : Block) (w : Window) (r cnt : Nat) (x : Bytes) (p : Nat → Bool) : State × Except Nat Nat :=
  let k := r % 48
  let base := r / 48 * w.tileLen
  let side := base + w.sideAt
  let cnt := if k = 0 then 0 else cnt
  let s := if k = 0 then winPut s b w side (List.replicate 256 0) (fun _ => false) else s
  if w.fmt = 3 then
    match q4xMarks x with
    | none => (s, .error 5)
    | some ms =>
      if 16 < cnt + ms.length then (s, .error 6)
      else
        let any := fun (_ : Nat) => (List.range x.length).any p
        let s := winPut s b w (base + 32 * k) (q4xElems x) any
        let s := winPut s b w (side + 2 * k) (x.take 2) any
        (ms.zipIdx.foldl (fun s e =>
          winPut s b w (side + 96 + 4 * (cnt + e.2)) (leBytes 4 (e.1.2 * 4096 + e.1.1 * 64 + k)) any) s, .ok (cnt + ms.length))
  else
    let s := winPut s b w (base + w.elemRow * k) (x.take w.elemRow) p
    (winPut s b w (side + 2 * k) ((x.drop w.elemRow).take 2) (fun i => p (w.elemRow + i)), .ok cnt)

/-! Contexts. -/

def swageCtxKey (cl i : Nat) : Nat := 8 * cl + i
def onSwage (s : State) (key : Nat) (f : SwageCtx → SwageCtx) : State :=
  s.onLoc fun l => { l with swage := match l.swage.find key with | some c => l.swage.put key (f c) | none => l.swage }
def freeSwage (s : State) (key : Nat) : State := s.onLoc fun l => { l with swage := l.swage.del key }

/-- The payload of a drain as it is written: the window's bytes with the bounds of its register, the violations and the first
offending value (R234, R235). -/
def drainPayload (s : State) (b : Block) (w : Window) : Bytes × Nat × Option Nat :=
  let x := sramRead s b.core (winImage b w 0 w.payload) 0 w.payload
  if w.bnd = 0xFF then (x, 0, none)
  else
    let t : ETy := match w.ety with | 0 => .bf16 | 1 => .f16 | 2 => .f8 | 3 => .f8w | 4 => .i8 | 5 => .f32 | _ => .i32
    let n := winEtySize w.ety
    let bd := boundOf s b.core w.vd w.bnd
    (List.range (w.payload / n)).foldl (fun (a : Bytes × Nat × Option Nat) i =>
      let v := field x (n * i) n
      if bd.violates t v then (a.1 ++ leBytes n (bd.write t v), a.2.1 + 1, some (a.2.2.getD v)) else (a.1 ++ leBytes n v, a.2)) ([], 0, none)

/-- The turn of a context whose payload is moved. -/
def swageDone (s : State) (cl i : Nat) (drain : Bool) : State :=
  queueOnce s (.ev (if drain then .windowDrainComplete else .windowFillComplete) { Sel.none with cl := cluFin cl, n := i })

/-- Is a window's scratchpad there (R129)? -/
def winHere (s : State) (w : Window) : Bool := (findBlock s w.blk).all (fun b => b.here s)

/-- The oldest work of a VD that waits in a cluster, its scratchpad not put away with a region, and the context it takes (R129, R176). -/
def swageNext (s : State) (cl v : Nat) : Option (SwageJob × Nat) :=
  match (s.loc.swageQueue.at [] cl).find? (fun j => j.vd == v && winHere s (winOf s j.core j.entry)),
      (List.range 8).find? (fun i => ctxIn s v i && (s.loc.swage.find (swageCtxKey cl i)).isNone) with
  | some j, some i => some (j, i)
  | _, _ => none

/-- A queued fill or drain starts on a context. -/
def swageStart (s : State) (cl v : Nat) : State :=
  match swageNext s cl v with
  | none => s
  | some (j, i) =>
    let s := s.onLoc fun l => { l with swageQueue := l.swageQueue.put cl ((l.swageQueue.at [] cl).erase j) }
    let w := winOf s j.core j.entry
    match findBlock s w.blk with
    | none => s
    | some b =>
      if w.early s ≠ 0 then windowFail s j.core j.entry (w.early s)
      else
        let p := if j.drain then drainPayload s b w else ([], 0, none)
        let s := if j.drain then s else winCleanse s b w
        let c : SwageCtx :=
          { job := j, pos := 0, cpos := 0, part := [], buf := p.1, bad := [], stopped := none, held := none, viol := p.2.1,
            first := p.2.2.map (BitVec.ofNat 64), action := if w.bnd = 0xFF then 0 else (boundOf s j.core v w.bnd).action.toNat }
        let s := s.onLoc fun l => { l with swage := l.swage.put (swageCtxKey cl i) c }
        if w.payload = 0 then swageDone s cl i j.drain else s

/-- SWAGE_CONTEXT_START (R176): the selected VD's oldest waiting work in the selected cluster. -/
def execSwageContextStart (s : State) : Answer := .next (flushRecs (reap (swageStart s s.sch.sel.cl.val s.sch.sel.vd.val)))

/-! Memory accesses of a beat (R177, R215, R226). -/

/-- A target and whether its page is sealed, by the page whose translation the context holds or by a translation. -/
def swageXlate (s : State) (e : Eng) (held : Option (Nat × Nat × Bool)) (va : Nat) (write : Bool) : State × Except XErr (Target × Bool) :=
  match held.filter (fun h => h.1 == va / 4096 * 4096 && !(write && h.2.2)) with
  | some h => (s, .ok (.spa (h.2.1 + va % 4096), h.2.2))
  | none =>
    match translate s e.cl e.vd e.asid va { write := write, fetch := false, user := false, sup := false } with
    | (s, .error x) => (s, .error x)
    | (s, .ok x) => (s, .ok (x.target, x.sl))

/-- A physical read inside a line, sector by sector, with the poison of each byte. -/
def physReadN (s : State) (e : Eng) (sl : Bool) : Nat → Nat → Nat → State × Except EngErr (Bytes × List Bool)
  | 0, _, _ => (s, .ok ([], []))
  | fuel + 1, a, n =>
    if n = 0 then (s, .ok ([], []))
    else
      match engPhysRead s e a (sectorPart a n) sl with
      | (s, .error x) => (s, .error x)
      | (s, .ok (b, p)) =>
        match physReadN s e sl fuel (a + sectorPart a n) (n - sectorPart a n) with
        | (s, .error x) => (s, .error x)
        | (s, .ok (c, q)) => (s, .ok (b ++ c, List.replicate b.length p ++ q))
/-- The read of a beat, and the translation it leaves held. -/
def swageRead (s : State) (e : Eng) (held : Option (Nat × Nat × Bool)) (va n : Nat) :
    State × Except EngErr (Bytes × List Bool) × Option (Nat × Nat × Bool) :=
  match swageXlate s e held va false with
  | (s, .error .mig) => (s, .error .wait, none)
  | (s, .error x) => (s, .error (.xl x), none)
  | (s, .ok (.spa a, sl)) => let r := physReadN s e sl 5 a n; (r.1, r.2, some (va / 4096 * 4096, a - va % 4096, sl))
  | (s, .ok _) => let r := engReadBits s e va n; (r.1, r.2, none)

/-- A physical write inside a line, each sector with its own poison; false when its address must be translated again. -/
def physWriteN (s : State) (e : Eng) (p : Nat → Bool) : Nat → Nat → Nat → Bytes → State × Except EngErr Bool
  | 0, _, _, _ => (s, .ok true)
  | fuel + 1, a, o, b =>
    if b.isEmpty then (s, .ok true)
    else
      let n := sectorPart a b.length
      match engPhysWrite s e a (b.take n) ((List.range n).any (fun i => p (o + i))) with
      | (s, .ok true) => physWriteN s e p fuel (a + n) (o + n) (b.drop n)
      | r => r
/-- The write of a beat; `p` says which of its bytes are poisoned. -/
def swageWrite (s : State) (e : Eng) (held : Option (Nat × Nat × Bool)) (va : Nat) (b : Bytes) (p : Nat → Bool) :
    State × Except EngErr Unit × Option (Nat × Nat × Bool) :=
  match swageXlate s e held va true with
  | (s, .error .mig) => (s, .error .wait, none)
  | (s, .error x) => (s, .error (.xl x), none)
  | (s, .ok (.spa a, sl)) =>
    match physWriteN s e p 5 a 0 b with
    | (s, .error x) => (s, .error x, none)
    | (s, .ok true) => (s, .ok (), some (va / 4096 * 4096, a - va % 4096, sl))
    | (s, .ok false) => let r := engWriteBits s e va b p; (r.1, r.2, none)
  | (s, .ok _) => let r := engWriteBits s e va b p; (r.1, r.2, none)

/-- R177: a fault stops the context, and one entry is posted: the thread that started the work is held for it, or it has no
caller. -/
def swageStop (s : State) (key va n : Nat) (write : Bool) (x : EngErr) : State :=
  match s.loc.swage.find key with
  | none => s
  | some c =>
    let t := match x with
      | .xl e => xerrTrap e va n write false
      | .deny d _ => denyTrap d va (gpaOf s c.job.core c.job.vd c.job.asid va) n write
      | .wait => { cause := 0 }
    let num := s.cores.nextNum
    let mine : Group → Nat → Bool := fun g i =>
      (g.thread i).st == .wait (.window c.job.entry) || (g.thread i).st == .wait (.retire c.job.entry)
    let who := c.job.caller.bind (fun q => (findGroup s q.1).bind (fun g => if mine g q.2 then some (g, q.2) else none))
    let s := onSwage s key (fun c => { c with stopped := some num, held := none })
    match who with
    | some (g, i) => takeTraps s g (g.thread i).pc.toNat [(i, t)]
    | none =>
      (post s c.job.core (if t.s2 then 0 else c.job.vd)
        (svqEntry t.cause (4 * t.s2.toNat + 8 * t.write.toNat) c.job.vd 0 0xFF 0 0 t.addr 0 t.arg c.job.asid) none (some key)).1

/-! Decompression (R179, R431). -/

/-- What a block's bytes so far ask for: the length to read up to, or the status of its failure. `exp` is what it must expand to. -/
def blockWants (x : Bytes) (exp : Nat) : Except Nat Nat :=
  let clen := field x 4 4
  if x.length < 8 then .ok 8
  else if 2 < field x 0 2 then .error 1
  else if field x 2 2 ≠ 0 then .error 4
  else
    match field x 0 2 with
    | 0 => if clen = exp then .ok (8 + clen) else .error 3
    | 1 => if clen = 0 then .ok 8 else .error 2
    | _ =>
      if clen < 128 then .error 2
      else if x.length < 136 then .ok 136
      else if clen ≠ 128 + 4 * popcount 1024 (leNat ((x.drop 8).take 128)) then .error 2
      else if exp ≠ 4096 then .error 3
      else .ok (8 + clen)

/-- The words of a SPARSE32 block. -/
def sparseWords (m : Nat) (x : Bytes) : Nat → Nat → Bytes
  | 0, _ => []
  | n + 1, i => if bit m i then padTo 4 x ++ sparseWords m (x.drop 4) n (i + 1) else List.replicate 4 0 ++ sparseWords m x n (i + 1)
/-- What a whole block expands to. -/
def blockBytes (x : Bytes) (exp : Nat) : Bytes :=
  match field x 0 2 with
  | 0 => x.drop 8
  | 1 => List.replicate exp 0
  | _ => sparseWords (leNat ((x.drop 8).take 128)) (x.drop 136) 1024 0

/-! Beats. -/

/-- A row of the source goes into the window; a formatted row that does not decode gives its status. -/
def putRow (s : State) (key : Nat) (b : Block) (w : Window) (r : Nat) (x : Bytes) (p : Nat → Bool) : State × Option Nat :=
  if w.fmt = 0 then (winPut s b w (r * w.rowLen) x p, none)
  else
    match tileRow s b w r ((s.loc.swage.find key).map (·.viol) |>.getD 0) x p with
    | (s, .error st) => (s, some st)
    | (s, .ok n) => (onSwage s key (fun c => { c with viol := n }), none)

/-- The rows that the raw stream of a compressed source holds by now are delivered. -/
def putRows (s : State) (key : Nat) (b : Block) (w : Window) : Nat → State × Option Nat
  | 0 => (s, none)
  | fuel + 1 =>
    match s.loc.swage.find key with
    | none => (s, none)
    | some c =>
      let r := c.pos / w.rowLen
      let o := r * w.pitch
      if w.nrows ≤ r ∨ c.buf.length < o + w.rowLen then (s, none)
      else
        match putRow s key b w r ((c.buf.drop o).take w.rowLen) (fun i => c.bad.contains ((o + i) / 4096)) with
        | (s, some st) => (s, some st)
        | (s, none) => putRows (onSwage s key (fun c => { c with pos := c.pos + w.rowLen })) key b w fuel

/-- How a beat ends: it has moved something, it failed to decode, it faulted at an address with a size, or it could not move. -/
inductive Beat where
  | moved
  | failed (status : Nat)
  | fault (va n : Nat) (x : EngErr)
  deriving DecidableEq, Repr

/-- A beat's length at an address: within one 128-byte line. -/
def beatLen (va n : Nat) : Nat := min n (128 - va % 128)

/-- A beat of an uncompressed fill. -/
def beatFill (s : State) (e : Eng) (key : Nat) (b : Block) (w : Window) (c : SwageCtx) : State × Beat :=
  let r := c.pos / w.rowLen
  let o := c.pos % w.rowLen
  let va := (w.src + r * w.pitch + o) % 2 ^ 64
  let n := beatLen va (w.rowLen - o)
  match swageRead s e c.held va n with
  | (s, .error x, _) => (s, .fault va n x)
  | (s, .ok (x, p), h) =>
    let s := onSwage s key (fun c => { c with held := h, pos := c.pos + n })
    if w.fmt = 0 then (winPut s b w c.pos x (fun i => p.getD i false), .moved)
    else
      let row := c.buf ++ x
      let bad := c.bad ++ ((List.range x.length).filter (fun i => p.getD i false)).map (c.buf.length + ·)
      if row.length < w.rowLen then (onSwage s key (fun c => { c with buf := row, bad := bad }), .moved)
      else
        match putRow (onSwage s key (fun c => { c with buf := [], bad := [] })) key b w r row bad.contains with
        | (s, some st) => (s, .failed st)
        | (s, none) => (s, .moved)

/-- A beat of a compressed fill. -/
def beatComp (s : State) (e : Eng) (key : Nat) (b : Block) (w : Window) (c : SwageCtx) : State × Beat :=
  let exp := min 4096 (w.rawLen - c.buf.length)
  match blockWants c.part exp with
  | .error st => (s, .failed st)
  | .ok want =>
    let va := (w.src + c.cpos + c.part.length) % 2 ^ 64
    let n := beatLen va (want - c.part.length)
    match swageRead s e c.held va n with
    | (s, .error x, _) => (s, .fault va n x)
    | (s, .ok (x, p), h) =>
      let part := c.part ++ x
      let bad := if p.any id then c.buf.length / 4096 :: c.bad else c.bad
      match blockWants part exp with
      | .error st => (s, .failed st)
      | .ok want =>
        if part.length < want then (onSwage s key (fun c => { c with held := h, part := part, bad := bad }), .moved)
        else
          let s := onSwage s key (fun c =>
            { c with held := h, part := [], bad := bad, cpos := c.cpos + (part.length + 7) / 8 * 8, buf := c.buf ++ blockBytes part exp })
          match putRows s key b w (w.nrows + 1) with
          | (s, some st) => (s, .failed st)
          | (s, none) => (s, .moved)

/-- A beat of a HALO: the source core's scratchpad through the on-chip map (R177). -/
def beatHalo (s : State) (key : Nat) (b : Block) (w : Window) (c : SwageCtx) : State × Beat :=
  let o := 0x80000 + 8192 * segBase s w.vd + w.noff + c.pos
  let n := min 128 (w.slen - c.pos)
  let a := 2 ^ 24 * w.ncore + o
  let x := (mapRead s a (n + 4)).take n
  let p := fun i => mapBad s ((a + i) / 4 * 4)
  (onSwage (winPut s b w c.pos x p) key (fun c => { c with pos := c.pos + n }), .moved)

/-- A beat of a drain. -/
def beatDrain (s : State) (e : Eng) (key : Nat) (b : Block) (w : Window) (c : SwageCtx) : State × Beat :=
  let o := c.pos % w.rowLen
  let va := (w.src + c.pos / w.rowLen * w.pitch + o) % 2 ^ 64
  let n := beatLen va (w.rowLen - o)
  let p := fun i => (winImage b w (c.pos + i) 1).any (sramBad s b.core)
  match swageWrite s e c.held va ((c.buf.drop c.pos).take n) p with
  | (s, .error x, _) => (s, .fault va n x)
  | (s, .ok _, h) => (onSwage s key (fun c => { c with held := h, pos := c.pos + n }), .moved)

/-- What the next beat of a context does (R177 to R179). -/
def swageMove (s : State) (cl key : Nat) (b : Block) (c : SwageCtx) : State × Beat :=
  let w := winOf s c.job.core c.job.entry
  let e := swEng s cl c.job.vd c.job.asid
  if c.job.drain then beatDrain s e key b w c
  else if w.kind = 2 then beatHalo s key b w c
  else if w.comp = 1 then beatComp s e key b w c
  else beatFill s e key b w c

/-- One beat of a context. One whose window lies in a region that its VD does not hold now stalls (R129). -/
def swageBeat (s : State) (cl i : Nat) : State :=
  let key := swageCtxKey cl i
  match s.loc.swage.find key with
  | none => s
  | some c =>
    let w := winOf s c.job.core c.job.entry
    match findBlock s w.blk with
    | none => freeSwage s key
    | some b =>
      if c.stopped.isSome || !b.here s || decide (w.payload ≤ c.pos) then s
      else
        match swageMove s cl key b c with
        | (s, .failed st) => windowFail (freeSwage s key) c.job.core c.job.entry st
        | (s, .fault _ _ .wait) => s
        | (s, .fault va n x) => swageStop s key va n c.job.drain x
        | (s, .moved) =>
          match s.loc.swage.find key with
          | some c' => if w.payload ≤ c'.pos then swageDone s cl i c.job.drain else s
          | none => s

/-- SWAGE_BEAT (R177): context n of the selected cluster. -/
def execSwageBeat (s : State) : Answer :=
  let cl := s.sch.sel.cl.val
  let i := s.sch.sel.n % 8
  let s := match s.loc.swage.find (swageCtxKey cl i) with
    | some c => s.onLoc fun l => { l with swageLast := l.swageLast.put (16 * cl + c.job.vd) i }
    | none => s
  .next (flushRecs (reap (swageBeat s cl i)))

/-! Completion (R178). -/

/-- The completion action of a window whose work some accesses had reached: the release, then WRITE, DEC, which is a release at PKG
(R202), and BARRIER. -/
def winAction (s : State) (cl : Nat) (w : Window) (ks : List Know) : State :=
  let s := engineRelease s (dieOfCluster cl) w.vd w.cscope w.cpath
  let r := swageRel s cl w.cscope w.cpath ks
  let s := if bit w.act 0 then spadWordPut s w.blk w.woff w.wval [r] else s
  let s := if bit w.act 1 then
      sendDecs (engineRelease s (dieOfCluster cl) w.vd 5 w.cpath) w.vd w.asid (swageKey cl) none [w.cnt] (rels := [swageRel s cl 5 w.cpath ks])
    else s
  if bit w.act 2 then barSwage s w.blk w.barid [r] else s

/-- The threads that wait for a fill go on; their accesses acquire its completion, which covers SW → LS (R201). -/
def touchersGo (s : State) (core e : Nat) (ks : List Know) : State :=
  let p : Group → Thread → Bool := fun g x => g.core == core && x.st == .wait (.window e)
  (threadsOf s p).foldl (fun s x => x.2.foldl (fun s t => learn s (threadAgent x.1.gid t) ks) s)
    (wakeThreads s (fun g _ x => p g x) Thread.again)

/-- WINDOW_FILL_COMPLETE (R176, R178): context n of the selected cluster has moved a fill's last byte. -/
def fillDone (s : State) (cl i : Nat) : State :=
  match s.loc.swage.find (swageCtxKey cl i) with
  | none => s
  | some c =>
    let w := winOf s c.job.core c.job.entry
    if c.job.drain || !winHere s w || decide (c.pos < w.payload) then s
    else
      let s := winAction (freeSwage s (swageCtxKey cl i)) cl w c.job.know
      let s := onWin s c.job.core c.job.entry (fun w => { w with st := .present })
      touchersGo s c.job.core c.job.entry (swageRel s cl 1 1 c.job.know).know
def execWindowFillComplete (s : State) : Answer := .next (flushRecs (reap (fillDone s s.sch.sel.cl.val (s.sch.sel.n % 8))))

/-- The PC of the WIN.RETIRE that a drain's caller waits at (R238). -/
def jobPc (s : State) (j : SwageJob) : Option Nat :=
  j.caller.bind (fun q => (findGroup s q.1).bind (fun g =>
    if (g.thread q.2).st == .wait (.retire j.entry) then some (g.thread q.2).pc.toNat else none))

/-- WINDOW_DRAIN_COMPLETE (R176, R178, R235): a drain's last byte is written, and its bounds are checked. -/
def drainDone (s : State) (cl i : Nat) : State :=
  match s.loc.swage.find (swageCtxKey cl i) with
  | none => s
  | some c =>
    let w := winOf s c.job.core c.job.entry
    if !c.job.drain || !winHere s w || decide (c.pos < w.payload) then s
    else
      let s := freeSwage s (swageCtxKey cl i)
      let bd := { boundOf s c.job.core c.job.vd w.bnd with action := BitVec.ofNat 2 c.action }
      let s := if w.bnd = 0xFF then s
        else boundEnd s c.job.core c.job.vd c.job.asid w.bnd bd c.viol ((c.first.map BitVec.toNat).getD 0) (jobPc s c.job)
          (workTag s (blockOwner s w.blk))
      winEmpty (winAction s cl w c.job.know) c.job.core c.job.entry
def execWindowDrainComplete (s : State) : Answer := .next (flushRecs (reap (drainDone s s.sch.sel.cl.val (s.sch.sel.n % 8))))

end Sys2Proof.Machine
end

