-- ==== Sys2Proof/Machine/Transcend.lean ====
section
/-! DEFINITION. EXP2, LOG2, SIN.PI and COS.PI (R316): fixed-point series to 384 fraction bits, whose last bits only say that
the exact value is no dyadic number; a correctly rounded result of 24 bits needs far fewer. -/
namespace Sys2Proof.Machine

/-- Fraction bits of the fixed-point numbers. -/
def fixBits : Nat := 384
def fixOne : Nat := 2 ^ fixBits
def fixMul (a b : Nat) : Nat := a * b / fixOne

/-- z + z³/3 + z⁵/5 + … with alternating signs or not. -/
def oddSeries (alt : Bool) (z2 : Nat) : Nat → Nat → Nat → Int
  | 0, _, _ => 0
  | n + 1, k, p =>
    let r := oddSeries alt z2 n (k + 2) (fixMul p z2)
    ((p / k : Nat) : Int) + (if alt then -r else r)

/-- arctan and artanh of 1/q. -/
def atanInv (q : Nat) : Int := oddSeries true (fixOne / (q * q)) 200 1 (fixOne / q)
def ln2 : Nat := (2 * oddSeries false (fixOne / 9) 140 1 (fixOne / 3)).toNat
def piFix : Nat := (16 * atanInv 5 - 4 * atanInv 239).toNat

/-- u + u^(k+1)/(k+1) …: the rest of an exponential series from a term, each term divided by its place. -/
def expSeries (u : Nat) : Nat → Nat → Nat → Nat
  | 0, _, _ => 0
  | n + 1, k, p => p + expSeries u n (k + 1) (fixMul p u / k)

/-- 2^f of a fixed-point fraction. -/
def exp2Fix (f : Nat) : Nat := expSeries (fixMul f ln2) 100 1 fixOne

/-- Terms u^k/k! of every second k, alternating. -/
def altSeries (u2 : Nat) : Nat → Nat → Nat → Int
  | 0, _, _ => 0
  | n + 1, k, p => (p : Int) - altSeries u2 n (k + 2) (fixMul p u2 / (k * (k + 1)))

/-- sin and cos of π r, for a fixed-point r in [0, 1/2]. -/
def sinFix (r : Nat) : Nat := let u := fixMul r piFix; (altSeries (fixMul u u) 100 2 u).toNat
def cosFix (r : Nat) : Nat := let u := fixMul r piFix; (altSeries (fixMul u u) 100 1 fixOne).toNat

/-- A value known to the last fixed-point bits, never dyadic. -/
def inexact (neg : Bool) (v : Nat) (x : Int) : Fl := sticky neg v (x - fixBits) true

/-- R316: 2^x. -/
def exp2Fl : Fl → Fl
  | .nan => .nan
  | .inf s => if s then .num false 0 0 else .inf false
  | .num s n x =>
    if n = 0 then .num false 1 0
    else
      let big := Nat.log2 n + x
      if big > 12 then (if s then sticky false 0 (-4000) true else .num false 1 4000)
      else
        let v : Int := if x + fixBits ≥ 0 then ((n * 2 ^ (x + fixBits).toNat : Nat) : Int) else ((n / 2 ^ (-(x + fixBits)).toNat : Nat) : Int)
        let v := if s then -v else v
        let k := v / fixOne
        let f := (v % fixOne).toNat
        if x ≥ 0 ∨ (f = 0 ∧ n % 2 ^ (-x).toNat = 0) then .num false 1 k
        else inexact false (exp2Fix f) k

/-- R316: log₂ x. -/
def log2Fl : Fl → Fl
  | .nan => .nan
  | .inf s => if s then .nan else .inf false
  | .num s n x =>
    if n = 0 then .inf true
    else if s then .nan
    else
      let l := Nat.log2 n
      let e : Int := l + x
      if n = 2 ^ l then flOfInt e
      else
        let y := n * 2 ^ (fixBits - l)
        let z := (y - fixOne) * fixOne / (y + fixOne)
        let v : Int := e * fixOne + 2 * oddSeries false (fixMul z z) 140 1 z * fixOne / ln2
        inexact (decide (v < 0)) v.natAbs 0

/-- A finite value modulo 2 as a fixed-point number, when it has at most `fixBits` fraction bits. -/
def modTwo (n : Nat) (x : Int) : Nat :=
  if x + fixBits ≥ 0 then n * 2 ^ (x + fixBits).toNat % (2 * fixOne) else n / 2 ^ (-(x + fixBits)).toNat % (2 * fixOne)

/-- R316: sin(πx). -/
def sinPiFl : Fl → Fl
  | .nan => .nan
  | .inf _ => .nan
  | .num s n x =>
    if n = 0 then .num s 0 0
    else
      let r := modTwo n x
      if r % fixOne = 0 then .num s 0 0
      else
        let neg := s != decide (r > fixOne)
        let r := r % fixOne
        if 2 * r = fixOne then .num neg 1 0
        else inexact neg (sinFix (if 2 * r > fixOne then fixOne - r else r)) 0

/-- R316: cos(πx). -/
def cosPiFl : Fl → Fl
  | .nan => .nan
  | .inf _ => .nan
  | .num _ n x =>
    if n = 0 then .num false 1 0
    else
      let r := modTwo n x
      let r := if r > fixOne then 2 * fixOne - r else r
      if r = 0 then .num false 1 0
      else if r = fixOne then .num true 1 0
      else if 2 * r = fixOne then .num false 0 0
      else if 2 * r > fixOne then inexact true (sinFix (r - fixOne / 2)) 0
      else if 4 * r > fixOne then inexact false (sinFix (fixOne / 2 - r)) 0
      else inexact false (cosFix r) 0

def SfuFmt.fmt : SfuFmt → Fmt
  | .f32 => f32
  | .f16 => f16
  | .bf16 => bf16

/-- A special function of a value, or of both halves (R316). -/
def sfuOp (i : Instr) (h : Hdr) (m : SfuMod) (d a : Opnd) (f : Fl → Fl) (s : State) : Ans :=
  let fm := SfuFmt.fmt m.ft
  match m.ft with
  | .f32 => runOp i .u (regBody d 1 (fun s g t => rnd fm m.rnd (f (fm.dec (readOp s g t a 1))))) s
  | _ => halfOp i h d (fun s g t j => rnd fm m.rnd (f (fm.dec (halfAt s g t j a)))) s

def execExp2 (h : Hdr) (m : SfuMod) (d a : Opnd) (s : State) : Ans := sfuOp (.exp2 h m d a) h m d a exp2Fl s
def execLog2 (h : Hdr) (m : SfuMod) (d a : Opnd) (s : State) : Ans := sfuOp (.log2 h m d a) h m d a log2Fl s
def execSinPi (h : Hdr) (m : SfuMod) (d a : Opnd) (s : State) : Ans := sfuOp (.sinPi h m d a) h m d a sinPiFl s
def execCosPi (h : Hdr) (m : SfuMod) (d a : Opnd) (s : State) : Ans := sfuOp (.cosPi h m d a) h m d a cosPiFl s

end Sys2Proof.Machine
end

