-- ==== Sys2Proof/Machine/Dispatch.lean ====
section
/-! DEFINITION. The one dispatch: an arm per constructor of `Instr`, each one call of its meaning. -/
namespace Sys2Proof.Machine

def exec (i : Instr) (s : State) : Host.Outcome State Fault Refusal :=
  match i with
  | .nop h => Sys2Proof.Machine.execNop h s
  | .bra h imm => Sys2Proof.Machine.execBra h imm s
  | .call h d imm => Sys2Proof.Machine.execCall h d imm s
  | .ret h a => Sys2Proof.Machine.execRet h a s
  | .brx h a b => Sys2Proof.Machine.execBrx h a b s
  | .callx h d a b => Sys2Proof.Machine.execCallx h d a b s
  | .yield h => Sys2Proof.Machine.execYield h s
  | .exit h => Sys2Proof.Machine.execExit h s
  | .iadd h m d a b => Sys2Proof.Machine.execIadd h m d a b s
  | .iaddImm h m d a imm => Sys2Proof.Machine.execIaddImm h m d a imm s
  | .isub h m d a b => Sys2Proof.Machine.execIsub h m d a b s
  | .isubImm h m d a imm => Sys2Proof.Machine.execIsubImm h m d a imm s
  | .imul h m d a b => Sys2Proof.Machine.execImul h m d a b s
  | .imulImm h m d a imm => Sys2Proof.Machine.execImulImm h m d a imm s
  | .imad h m d a b c => Sys2Proof.Machine.execImad h m d a b c s
  | .imadImm h m d a b imm => Sys2Proof.Machine.execImadImm h m d a b imm s
  | .idiv h m d a b => Sys2Proof.Machine.execIdiv h m d a b s
  | .irem h m d a b => Sys2Proof.Machine.execIrem h m d a b s
  | .imin h m d a b => Sys2Proof.Machine.execImin h m d a b s
  | .iminImm h m d a imm => Sys2Proof.Machine.execIminImm h m d a imm s
  | .imax h m d a b => Sys2Proof.Machine.execImax h m d a b s
  | .imaxImm h m d a imm => Sys2Proof.Machine.execImaxImm h m d a imm s
  | .iabs h m d a => Sys2Proof.Machine.execIabs h m d a s
  | .isad h m d a b c => Sys2Proof.Machine.execIsad h m d a b c s
  | .and h m d a b => Sys2Proof.Machine.execAnd h m d a b s
  | .andImm h m d a imm => Sys2Proof.Machine.execAndImm h m d a imm s
  | .or h m d a b => Sys2Proof.Machine.execOr h m d a b s
  | .orImm h m d a imm => Sys2Proof.Machine.execOrImm h m d a imm s
  | .xor h m d a b => Sys2Proof.Machine.execXor h m d a b s
  | .xorImm h m d a imm => Sys2Proof.Machine.execXorImm h m d a imm s
  | .not h m d a => Sys2Proof.Machine.execNot h m d a s
  | .logt h m d a b c => Sys2Proof.Machine.execLogt h m d a b c s
  | .shl h m d a b => Sys2Proof.Machine.execShl h m d a b s
  | .shlImm h m d a imm => Sys2Proof.Machine.execShlImm h m d a imm s
  | .shr h m d a b => Sys2Proof.Machine.execShr h m d a b s
  | .shrImm h m d a imm => Sys2Proof.Machine.execShrImm h m d a imm s
  | .rot h m d a b => Sys2Proof.Machine.execRot h m d a b s
  | .popc h m d a => Sys2Proof.Machine.execPopc h m d a s
  | .clz h m d a => Sys2Proof.Machine.execClz h m d a s
  | .bfx h m d a b c => Sys2Proof.Machine.execBfx h m d a b c s
  | .icmp h m d a b c => Sys2Proof.Machine.execIcmp h m d a b c s
  | .icmpImm h m d a imm => Sys2Proof.Machine.execIcmpImm h m d a imm s
  | .fcmp h m d a b c => Sys2Proof.Machine.execFcmp h m d a b c s
  | .fcmpImm h m d a imm => Sys2Proof.Machine.execFcmpImm h m d a imm s
  | .fclass h m d a => Sys2Proof.Machine.execFclass h m d a s
  | .hcmp h m d a b c => Sys2Proof.Machine.execHcmp h m d a b c s
  | .sel h m d p a b => Sys2Proof.Machine.execSel h m d p a b s
  | .selImm h m d p a imm => Sys2Proof.Machine.execSelImm h m d p a imm s
  | .pcomb h m d a b c => Sys2Proof.Machine.execPcomb h m d a b c s
  | .p2g h m d => Sys2Proof.Machine.execP2g h m d s
  | .g2p h m a => Sys2Proof.Machine.execG2p h m a s
  | .mov h m d a => Sys2Proof.Machine.execMov h m d a s
  | .movImm h m d imm => Sys2Proof.Machine.execMovImm h m d imm s
  | .movh h d imm => Sys2Proof.Machine.execMovh h d imm s
  | .lea h m d a b => Sys2Proof.Machine.execLea h m d a b s
  | .leaImm h m d a imm => Sys2Proof.Machine.execLeaImm h m d a imm s
  | .fadd h m d a b => Sys2Proof.Machine.execFadd h m d a b s
  | .faddImm h m d a imm => Sys2Proof.Machine.execFaddImm h m d a imm s
  | .fsub h m d a b => Sys2Proof.Machine.execFsub h m d a b s
  | .fmul h m d a b => Sys2Proof.Machine.execFmul h m d a b s
  | .fmulImm h m d a imm => Sys2Proof.Machine.execFmulImm h m d a imm s
  | .ffma h m d a b c => Sys2Proof.Machine.execFfma h m d a b c s
  | .ffmaImm h m d a b imm => Sys2Proof.Machine.execFfmaImm h m d a b imm s
  | .fmin h m d a b => Sys2Proof.Machine.execFmin h m d a b s
  | .fmax h m d a b => Sys2Proof.Machine.execFmax h m d a b s
  | .fdiv h m d a b => Sys2Proof.Machine.execFdiv h m d a b s
  | .fsqrt h m d a => Sys2Proof.Machine.execFsqrt h m d a s
  | .frcp h m d a => Sys2Proof.Machine.execFrcp h m d a s
  | .frsq h m d a => Sys2Proof.Machine.execFrsq h m d a s
  | .dadd h m d a b => Sys2Proof.Machine.execDadd h m d a b s
  | .dmul h m d a b => Sys2Proof.Machine.execDmul h m d a b s
  | .dfma h m d a b c => Sys2Proof.Machine.execDfma h m d a b c s
  | .hadd h m d a b => Sys2Proof.Machine.execHadd h m d a b s
  | .hmul h m d a b => Sys2Proof.Machine.execHmul h m d a b s
  | .hfma h m d a b c => Sys2Proof.Machine.execHfma h m d a b c s
  | .hmin h m d a b => Sys2Proof.Machine.execHmin h m d a b s
  | .hmax h m d a b => Sys2Proof.Machine.execHmax h m d a b s
  | .vadd h m d a b => Sys2Proof.Machine.execVadd h m d a b s
  | .vaddImm h m d a imm => Sys2Proof.Machine.execVaddImm h m d a imm s
  | .vsub h m d a b => Sys2Proof.Machine.execVsub h m d a b s
  | .vmin h m d a b => Sys2Proof.Machine.execVmin h m d a b s
  | .vmax h m d a b => Sys2Proof.Machine.execVmax h m d a b s
  | .vmul h m d a b => Sys2Proof.Machine.execVmul h m d a b s
  | .vdot h m d a b c => Sys2Proof.Machine.execVdot h m d a b c s
  | .acs2 h m d a b c e => Sys2Proof.Machine.execAcs2 h m d a b c e s
  | .vabsd h m d a b => Sys2Proof.Machine.execVabsd h m d a b s
  | .prmt h m d a b c => Sys2Proof.Machine.execPrmt h m d a b c s
  | .prmtImm h m d a b imm => Sys2Proof.Machine.execPrmtImm h m d a b imm s
  | .cvt h m d a b => Sys2Proof.Machine.execCvt h m d a b s
  | .cvtp h m d a b c => Sys2Proof.Machine.execCvtp h m d a b c s
  | .exp2 h m d a => Sys2Proof.Machine.execExp2 h m d a s
  | .log2 h m d a => Sys2Proof.Machine.execLog2 h m d a s
  | .sinPi h m d a => Sys2Proof.Machine.execSinPi h m d a s
  | .cosPi h m d a => Sys2Proof.Machine.execCosPi h m d a s
  | .rndh h m d a b => Sys2Proof.Machine.execRndh h m d a b s
  | .rndhImm h m d a imm => Sys2Proof.Machine.execRndhImm h m d a imm s
  | .frnd h m d a => Sys2Proof.Machine.execFrnd h m d a s
  | .fscale h m d a b => Sys2Proof.Machine.execFscale h m d a b s
  | .fscaleImm h m d a imm => Sys2Proof.Machine.execFscaleImm h m d a imm s
  | .lxch h m d a b c => Sys2Proof.Machine.execLxch h m d a b c s
  | .lxchImm h m d a imm => Sys2Proof.Machine.execLxchImm h m d a imm s
  | .pcol h m d a => Sys2Proof.Machine.execPcol h m d a s
  | .xred h m d a => Sys2Proof.Machine.execXred h m d a s
  | .xscan h m d a => Sys2Proof.Machine.execXscan h m d a s
  | .xfind h m d a c => Sys2Proof.Machine.execXfind h m d a c s
  | .xfred h m d a => Sys2Proof.Machine.execXfred h m d a s
  | .ld h m d a b imm => Sys2Proof.Machine.execLd h m d a b imm s
  | .st h m d a b imm => Sys2Proof.Machine.execSt h m d a b imm s
  | .ldProbe h m d a b imm => Sys2Proof.Machine.execLdProbe h m d a b imm s
  | .lds h m d a b imm => Sys2Proof.Machine.execLds h m d a b imm s
  | .sts h m d a b imm => Sys2Proof.Machine.execSts h m d a b imm s
  | .ldm h m d a b imm => Sys2Proof.Machine.execLdm h m d a b imm s
  | .stm h m d a b imm => Sys2Proof.Machine.execStm h m d a b imm s
  | .prf h m a b imm => Sys2Proof.Machine.execPrf h m a b imm s
  | .atomImm h m d a b imm => Sys2Proof.Machine.execAtomImm h m d a b imm s
  | .atom h m d a b c => Sys2Proof.Machine.execAtom h m d a b c s
  | .redImm h m a b imm => Sys2Proof.Machine.execRedImm h m a b imm s
  | .red h m a b c => Sys2Proof.Machine.execRed h m a b c s
  | .cas h m d a b c e => Sys2Proof.Machine.execCas h m d a b c e s
  | .atoms h m d a b imm => Sys2Proof.Machine.execAtoms h m d a b imm s
  | .reds h m a b imm => Sys2Proof.Machine.execReds h m a b imm s
  | .cass h m d a b c e => Sys2Proof.Machine.execCass h m d a b c e s
  | .fence h m => Sys2Proof.Machine.execFence h m s
  | .pfence h m => Sys2Proof.Machine.execPfence h m s
  | .barInit h m a => Sys2Proof.Machine.execBarInit h m a s
  | .barInitImm h m imm => Sys2Proof.Machine.execBarInitImm h m imm s
  | .barArrive h m a => Sys2Proof.Machine.execBarArrive h m a s
  | .barArriveImm h m imm => Sys2Proof.Machine.execBarArriveImm h m imm s
  | .barWait h m => Sys2Proof.Machine.execBarWait h m s
  | .barSync h m a => Sys2Proof.Machine.execBarSync h m a s
  | .barSyncImm h m imm => Sys2Proof.Machine.execBarSyncImm h m imm s
  | .barInv h m => Sys2Proof.Machine.execBarInv h m s
  | .waitaImm h m d a b imm => Sys2Proof.Machine.execWaitaImm h m d a b imm s
  | .waita h m d a b c => Sys2Proof.Machine.execWaita h m d a b c s
  | .cbar h m => Sys2Proof.Machine.execCbar h m s
  | .winBind h d a b => Sys2Proof.Machine.execWinBind h d a b s
  | .winTouch h a => Sys2Proof.Machine.execWinTouch h a s
  | .winRetire h a => Sys2Proof.Machine.execWinRetire h a s
  | .winState h d a => Sys2Proof.Machine.execWinState h d a s
  | .seal h d a b c => Sys2Proof.Machine.execSeal h d a b c s
  | .unseal h m d a b c => Sys2Proof.Machine.execUnseal h m d a b c s
  | .cctlImm h m a imm => Sys2Proof.Machine.execCctlImm h m a imm s
  | .cctl h m a b => Sys2Proof.Machine.execCctl h m a b s
  | .iinv h a b => Sys2Proof.Machine.execIinv h a b s
  | .isync h => Sys2Proof.Machine.execIsync h s
  | .mxop h d a => Sys2Proof.Machine.execMxop h d a s
  | .mxopImm h d imm => Sys2Proof.Machine.execMxopImm h d imm s
  | .mxdrain h m d a b c => Sys2Proof.Machine.execMxdrain h m d a b c s
  | .mxwait h m a => Sys2Proof.Machine.execMxwait h m a s
  | .mxburst h a => Sys2Proof.Machine.execMxburst h a s
  | .mxburstImm h imm => Sys2Proof.Machine.execMxburstImm h imm s
  | .collPost h d a => Sys2Proof.Machine.execCollPost h d a s
  | .taskPost h d a b => Sys2Proof.Machine.execTaskPost h d a b s
  | .taskDep h m d a b c => Sys2Proof.Machine.execTaskDep h m d a b c s
  | .taskDepImm h m d a b imm => Sys2Proof.Machine.execTaskDepImm h m d a b imm s
  | .phase h => Sys2Proof.Machine.execPhase h s
  | .syscall h imm => Sys2Proof.Machine.execSyscall h imm s
  | .svqtake h m d => Sys2Proof.Machine.execSvqtake h m d s
  | .svret h m a b => Sys2Proof.Machine.execSvret h m a b s
  | .svqwait h => Sys2Proof.Machine.execSvqwait h s
  | .movs h d imm => Sys2Proof.Machine.execMovs h d imm s
  | .csrrImm h d imm => Sys2Proof.Machine.execCsrrImm h d imm s
  | .csrr h d a => Sys2Proof.Machine.execCsrr h d a s
  | .csrwImm h a imm => Sys2Proof.Machine.execCsrwImm h a imm s
  | .csrw h a b => Sys2Proof.Machine.execCsrw h a b s
  | .ptsync h m => Sys2Proof.Machine.execPtsync h m s
  | .tlbinv h m a b c => Sys2Proof.Machine.execTlbinv h m a b c s
  | .pgmove h m d a b c => Sys2Proof.Machine.execPgmove h m d a b c s
  | .solderHandoff h d a => Sys2Proof.Machine.execSolderHandoff h d a s
  | .bndSet h m a b c => Sys2Proof.Machine.execBndSet h m a b c s
  | .schedStep h m a => Sys2Proof.Machine.execSchedStep h m a s
  | .svwake h d a b c => Sys2Proof.Machine.execSvwake h d a b c s
  | .tret h d a b c => Sys2Proof.Machine.execTret h d a b c s
  | .frassign h d a b c => Sys2Proof.Machine.execFrassign h d a b c s
  | .solderRekey h d a => Sys2Proof.Machine.execSolderRekey h d a s
  | .halt h a => Sys2Proof.Machine.execHalt h a s
  | .railInTolerance rail => Sys2Proof.Machine.execRailInTolerance rail s
  | .railOutOfTolerance rail => Sys2Proof.Machine.execRailOutOfTolerance rail s
  | .resetRelease us hbmOk => Sys2Proof.Machine.execResetRelease us hbmOk s
  | .boardNorWrite addr data => Sys2Proof.Machine.execBoardNorWrite addr data s
  | .diePowerSample die watts sensors pick => Sys2Proof.Machine.execDiePowerSample die watts sensors pick s
  | .modulePowerSample watts pick => Sys2Proof.Machine.execModulePowerSample watts pick s
  | .thermalTrip die sensors => Sys2Proof.Machine.execThermalTrip die sensors s
  | .attestExtend v => Sys2Proof.Machine.execAttestExtend v s
  | .attestReportRequest v => Sys2Proof.Machine.execAttestReportRequest v s
  | .norOpComplete devOk => Sys2Proof.Machine.execNorOpComplete devOk s
  | .bdyPwrWrite v => Sys2Proof.Machine.execBdyPwrWrite v s
  | .bdyDiepwrWrite die v => Sys2Proof.Machine.execBdyDiepwrWrite die v s
  | .bdyThermWrite v => Sys2Proof.Machine.execBdyThermWrite v s
  | .qpTailWrite vd q v => Sys2Proof.Machine.execQpTailWrite vd q v s
  | .qpCqheadWrite vd q v => Sys2Proof.Machine.execQpCqheadWrite vd q v s
  | .qpRqheadWrite vd q v => Sys2Proof.Machine.execQpRqheadWrite vd q v s
  | .netCompletion vd q res => Sys2Proof.Machine.execNetCompletion vd q res s
  | .inboundSend pkt => Sys2Proof.Machine.execInboundSend pkt s
  | .inboundWrite pkt => Sys2Proof.Machine.execInboundWrite pkt s
  | .inboundRead pkt => Sys2Proof.Machine.execInboundRead pkt s
  | .inboundFetchAdd pkt => Sys2Proof.Machine.execInboundFetchAdd pkt s
  | .landingWrite ep w => Sys2Proof.Machine.execLandingWrite ep w s
  | .landingFlagWrite ep w => Sys2Proof.Machine.execLandingFlagWrite ep w s
  | .barRead ep off len => Sys2Proof.Machine.execBarRead ep off len s
  | .msixAccess ep off wr => Sys2Proof.Machine.execMsixAccess ep off wr s
  | .lwdCtlWrite ep w v => Sys2Proof.Machine.execLwdCtlWrite ep w v s
  | .brazeFlitReceive port flits ok => Sys2Proof.Machine.execBrazeFlitReceive port flits ok s
  | .remoteAccessTimeout port idx performed => Sys2Proof.Machine.execRemoteAccessTimeout port idx performed s
  | .flashBlockFill vd nsid lba readOk => Sys2Proof.Machine.execFlashBlockFill vd nsid lba readOk s
  | .blockCompletion vd q idx mediaOk => Sys2Proof.Machine.execBlockCompletion vd q idx mediaOk s
  | .handshakeRpcKey via msg => Sys2Proof.Machine.execHandshakeRpcKey via msg s
  | .handshakeLocalDomain via msg => Sys2Proof.Machine.execHandshakeLocalDomain via msg s
  | .handshakeOpen via msg => Sys2Proof.Machine.execHandshakeOpen via msg s
  | .handshakeAccept via msg => Sys2Proof.Machine.execHandshakeAccept via msg s
  | .handshakeComplete via msg => Sys2Proof.Machine.execHandshakeComplete via msg s
  | .attest slot => Sys2Proof.Machine.execAttest slot s
  | .partCreate slot v imgs => Sys2Proof.Machine.execPartCreate slot v imgs s
  | .partDestroy slot v => Sys2Proof.Machine.execPartDestroy slot v s
  | .partReset slot v => Sys2Proof.Machine.execPartReset slot v s
  | .quotaSet slot v k x => Sys2Proof.Machine.execQuotaSet slot v k x s
  | .calSet slot imgs => Sys2Proof.Machine.execCalSet slot imgs s
  | .imageLoad slot v off final chunk => Sys2Proof.Machine.execImageLoad slot v off final chunk s
  | .launch vd slot record => Sys2Proof.Machine.execLaunch vd slot record s
  | .map vd slot req => Sys2Proof.Machine.execMap vd slot req s
  | .unmap vd slot asid va len => Sys2Proof.Machine.execUnmap vd slot asid va len s
  | .copy vd slot asid src dst len => Sys2Proof.Machine.execCopy vd slot asid src dst len s
  | .queryInterfaceVersion vd slot arg => Sys2Proof.Machine.execQueryInterfaceVersion vd slot arg s
  | .queryPackageTime vd slot arg => Sys2Proof.Machine.execQueryPackageTime vd slot arg s
  | .queryLaunchStatus vd slot arg => Sys2Proof.Machine.execQueryLaunchStatus vd slot arg s
  | .queryRasRing vd slot arg => Sys2Proof.Machine.execQueryRasRing vd slot arg s
  | .queryLaunchQueue vd slot arg => Sys2Proof.Machine.execQueryLaunchQueue vd slot arg s
  | .subscribe vd slot mask => Sys2Proof.Machine.execSubscribe vd slot mask s
  | .rpcReply vd v => Sys2Proof.Machine.execRpcReply vd v s
  | .rpcEvent vd v => Sys2Proof.Machine.execRpcEvent vd v s
  | .vdqQuotaWrite v k x => Sys2Proof.Machine.execVdqQuotaWrite v k x s
  | .calOwnWrite j x => Sys2Proof.Machine.execCalOwnWrite j x s
  | .lqTailWrite vd v => Sys2Proof.Machine.execLqTailWrite vd v s
  | .launchKill vd w => Sys2Proof.Machine.execLaunchKill vd w s
  | .stgTailWrite vd die s_ v => Sys2Proof.Machine.execStgTailWrite vd die s_ v s
  | .slicePairEnable n v => Sys2Proof.Machine.execSlicePairEnable n v s
  | .l1WaysegWrite vd v => Sys2Proof.Machine.execL1WaysegWrite vd v s
  | .collComplete vd peers => Sys2Proof.Machine.execCollComplete vd peers s
  | .tableWalk cl vd asid va acc => Sys2Proof.Machine.execTableWalk cl vd asid va acc s
  | .solderWindowEnable n v => Sys2Proof.Machine.execSolderWindowEnable n v s
  | .rasBaseWrite v x => Sys2Proof.Machine.execRasBaseWrite v x s
  | .rasHeadWrite v x => Sys2Proof.Machine.execRasHeadWrite v x s
  | .registerWrite t v => Sys2Proof.Machine.execRegisterWrite t v s
  | .debugPortAccess spa len => Sys2Proof.Machine.execDebugPortAccess spa len s
  | .coldReset => Sys2Proof.Machine.execColdReset s
  | .busInRange => Sys2Proof.Machine.execBusInRange s
  | .gateStepChange => Sys2Proof.Machine.execGateStepChange s
  | .extendComplete => Sys2Proof.Machine.execExtendComplete s
  | .reportComplete => Sys2Proof.Machine.execReportComplete s
  | .norRead => Sys2Proof.Machine.execNorRead s
  | .norErase => Sys2Proof.Machine.execNorErase s
  | .norProgram => Sys2Proof.Machine.execNorProgram s
  | .netEnable => Sys2Proof.Machine.execNetEnable s
  | .netDisable => Sys2Proof.Machine.execNetDisable s
  | .qpWatchWake => Sys2Proof.Machine.execQpWatchWake s
  | .netSend => Sys2Proof.Machine.execNetSend s
  | .netWrite => Sys2Proof.Machine.execNetWrite s
  | .netRead => Sys2Proof.Machine.execNetRead s
  | .netFetchAdd => Sys2Proof.Machine.execNetFetchAdd s
  | .qpStateReload => Sys2Proof.Machine.execQpStateReload s
  | .brazeRekey => Sys2Proof.Machine.execBrazeRekey s
  | .blockRead => Sys2Proof.Machine.execBlockRead s
  | .blockWrite => Sys2Proof.Machine.execBlockWrite s
  | .blockTrim => Sys2Proof.Machine.execBlockTrim s
  | .blockFlush => Sys2Proof.Machine.execBlockFlush s
  | .vdBuild => Sys2Proof.Machine.execVdBuild s
  | .vdRun => Sys2Proof.Machine.execVdRun s
  | .vdReset => Sys2Proof.Machine.execVdReset s
  | .vdDestroy => Sys2Proof.Machine.execVdDestroy s
  | .virtualTimerFire => Sys2Proof.Machine.execVirtualTimerFire s
  | .calendarRoundStart => Sys2Proof.Machine.execCalendarRoundStart s
  | .launchTakeRecord => Sys2Proof.Machine.execLaunchTakeRecord s
  | .placeBlock => Sys2Proof.Machine.execPlaceBlock s
  | .placeTeam => Sys2Proof.Machine.execPlaceTeam s
  | .placeTask => Sys2Proof.Machine.execPlaceTask s
  | .phaseResume => Sys2Proof.Machine.execPhaseResume s
  | .launchComplete => Sys2Proof.Machine.execLaunchComplete s
  | .counterDecrement => Sys2Proof.Machine.execCounterDecrement s
  | .taskComplete => Sys2Proof.Machine.execTaskComplete s
  | .stageWorkerTake => Sys2Proof.Machine.execStageWorkerTake s
  | .governorEvaluate => Sys2Proof.Machine.execGovernorEvaluate s
  | .slicePairDisable => Sys2Proof.Machine.execSlicePairDisable s
  | .sliceSwitch => Sys2Proof.Machine.execSliceSwitch s
  | .activeSetRotate => Sys2Proof.Machine.execActiveSetRotate s
  | .mandrelTimer => Sys2Proof.Machine.execMandrelTimer s
  | .svqBatchTimer => Sys2Proof.Machine.execSvqBatchTimer s
  | .svqWatchdog => Sys2Proof.Machine.execSvqWatchdog s
  | .svqPostRetry => Sys2Proof.Machine.execSvqPostRetry s
  | .svqWaiterPost => Sys2Proof.Machine.execSvqWaiterPost s
  | .groupSwapOut => Sys2Proof.Machine.execGroupSwapOut s
  | .groupRestore => Sys2Proof.Machine.execGroupRestore s
  | .waySurrenderComplete => Sys2Proof.Machine.execWaySurrenderComplete s
  | .mscScheduleEnable => Sys2Proof.Machine.execMscScheduleEnable s
  | .mscScheduleDisable => Sys2Proof.Machine.execMscScheduleDisable s
  | .swageContextStart => Sys2Proof.Machine.execSwageContextStart s
  | .swageBeat => Sys2Proof.Machine.execSwageBeat s
  | .windowFillComplete => Sys2Proof.Machine.execWindowFillComplete s
  | .windowDrainComplete => Sys2Proof.Machine.execWindowDrainComplete s
  | .anvilEntryAccept => Sys2Proof.Machine.execAnvilEntryAccept s
  | .anvilPass => Sys2Proof.Machine.execAnvilPass s
  | .anvilOpComplete => Sys2Proof.Machine.execAnvilOpComplete s
  | .anvilDrainComplete => Sys2Proof.Machine.execAnvilDrainComplete s
  | .anvilRampDown => Sys2Proof.Machine.execAnvilRampDown s
  | .snapshotShadow => Sys2Proof.Machine.execSnapshotShadow s
  | .solderWindowDisable => Sys2Proof.Machine.execSolderWindowDisable s
  | .minorCounterWrap => Sys2Proof.Machine.execMinorCounterWrap s
  | .waitaWake => Sys2Proof.Machine.execWaitaWake s
  | .waitaTimeout => Sys2Proof.Machine.execWaitaTimeout s
  | .fetchLine => Sys2Proof.Machine.execFetchLine s
  | .brazeLinkBringUp => Sys2Proof.Machine.execBrazeLinkBringUp s

end Sys2Proof.Machine
end

