-- ==== Sys2Proof/Machine/Calendar.lean ====
section
/-! DEFINITION. Grants of shared units under the calendar (R82, R119, R120, R122), the power gate (R17), the active sets (R136,
R137) and the selection of convoys (R135, R138), and what an Anvil and a Swage do with a granted cycle (R122, R181, R185). -/
namespace Sys2Proof.Machine

/-! Grants. -/

/-- The number of a shared unit, for its lending order. -/
inductive Unit_ where
  | quarter (core q : Nat)
  | swage (cl : Nat)
  | anvil (cl : Nat)
  | dispatcher (d : Nat)
  | network
  | storage
  | collective
  deriving DecidableEq, Repr
def Unit_.number : Unit_ → Nat
  | .quarter c q => 4 * c + q
  | .swage cl => 3328 + cl
  | .anvil cl => 3536 + cl
  | .dispatcher d => 3744 + d
  | .network => 3748
  | .storage => 3749
  | .collective => 3750

/-- R82: the VD an opportunity of a unit is served to now, and the lending order it leaves. `wants` says which VDs have a
request. -/
def grant (s : State) (u : Unit_) (wants : Nat → Bool) : State × Option Nat :=
  let v := slotOwner s.vds.calForce (slotNow s)
  if wants v then (s, some v)
  else if !isLend s v || !vdRuns s v then (s, none)
  else
    let key := 16 * u.number + v
    let first := match s.vds.lent.find key with
      | some x => x + 1
      | none => 0
    let order := ((List.range 16).map (fun i => (first + i) % 16)).filter (fun w => bit (lendMask s v) w && w != v)
    match order.find? wants with
    | some w => (s.onVds fun x => { x with lent := x.lent.put key w }, some w)
    | none => (s, none)

/-- R17: is the cycle a gated one of a die? -/
def gated (s : State) (d : Nat) : Bool :=
  decide ((s.sch.cycle % 16 + 16 - roundNow s % 16) % 16 < ((s.pkg.dies[d]?).map (·.inEffect)).getD 0)

/-! Active sets (R136, R137). -/

/-- Has a group to leave the active set: a live thread, none ready? -/
def mustLeave (g : Group) : Bool := g.active && !g.live.isEmpty && g.ready.isEmpty

/-- Room in the active set is given to ready pending groups, oldest first. -/
def fillSet (s : State) (core q v : Nat) : Nat → State
  | 0 => s
  | n + 1 =>
    if ((quarterGroups s core q v).filter (·.active)).length < 8 then
      match oldestPending s core q v with
      | some g => fillSet (enterSet s g.gid) core q v n
      | none => s
    else s

/-- The quarters that hold groups: core, quarter and VD. -/
def busyQuarters (s : State) : List (Nat × Nat × Nat) :=
  ((s.cores.groups.filter (fun g => !g.mandrel && g.resid == .core)).map (fun g => (g.core, g.quarter, g.vd))).eraseDups

/-- The sets of every quarter at the start of a cycle. -/
def settleSets (s : State) : State :=
  let s := (s.cores.groups.filter (fun g => !g.mandrel && mustLeave g)).foldl (fun s g => leaveSet s g.gid) s
  (busyQuarters s).foldl (fun s x => fillSet s x.1 x.2.1 x.2.2 8) s

/-! Selection (R135, R138). -/

/-- The pipe class of the instruction a group would issue. -/
def groupPipe (s : State) (g : Group) : Option Pipe :=
  let pc := g.choosePc
  match (convoyLine s g pc (g.convoyAt pc)).2 with
  | .ok b => pipeOf (slotOpc b (pc.toNat % 8))
  | .error _ => none

/-- The convoys of one cycle among ordered candidates: one pipe class, no lane twice. -/
def pickConvoys (s : State) (cls : Option (Option Pipe)) (used : List Nat) : List Group → List Group
  | [] => []
  | g :: l =>
    let c := groupPipe s g
    let lanes := rangeFrom (g.col * g.width) g.width
    if (match cls with | none => true | some k => k == c) && !lanes.any used.contains then g :: pickConvoys s (some c) (used ++ lanes) l
    else pickConvoys s (some (cls.getD c)) used l

/-- The candidates of a VD in a quarter: ready active groups, the least recently selected first, then by slot. -/
def candidates (s : State) (core q v : Nat) : List Group :=
  ((quarterGroups s core q v).filter (fun g => g.active && canIssue s g)).mergeSort
    (fun a b => decide (a.lastSel * 16 + a.slot ≤ b.lastSel * 16 + b.slot))

/-- A quarter's cycle: the grant, the count of issue cycles with its rotation, and the issues. -/
def quarterTurns (s : State) (core q : Nat) : State × List Turn :=
  match grant s (.quarter core q) (fun v => !(candidates s core q v).isEmpty) with
  | (s, none) => (s, [])
  | (s, some v) =>
    let n := s.cores.issue.at 0 (issueKey core q v) + 1
    let gs := pickConvoys s none [] (candidates s core q v)
    (s.onCores fun c => { c with issue := c.issue.put (issueKey core q v) n },
      gs.map (fun g => .issue g.gid)
        ++ (if 1024 ≤ n then [.ev .activeSetRotate { Sel.none with core := coreFin core, vd := vdFin v, n := q }] else []))

/-! Engines. -/

/-- Can the next beat of a context move, or find out what it waits for: a fault, or a flash-window block not asked for yet? One that
waits for data or for a translation is not ready (R122), nor is one whose region its VD does not hold (R129). -/
def beatReady (s : State) (cl key : Nat) (c : SwageCtx) : Bool :=
  let w := winOf s c.job.core c.job.entry
  c.stopped.isNone && decide (c.pos < w.payload) &&
    match findBlock s w.blk with
    | none => true
    | some b => b.here s && (match swageMove s cl key b c with
      | (t, .fault _ _ .wait) => decide (s.mem.fills.length < t.mem.fills.length)
      | _ => true)
/-- The ready contexts of a VD. -/
def swageReady (s : State) (cl v : Nat) : List Nat :=
  (List.range 8).filter (fun i => match s.loc.swage.find (swageCtxKey cl i) with
    | some c => c.job.vd == v && beatReady s cl (swageCtxKey cl i) c
    | none => false)
/-- Contexts that have moved their last byte and could not end, because their region was away (R129). -/
def swageEnds (s : State) (cl : Nat) : List Turn :=
  (List.range 8).filterMap (fun i => match s.loc.swage.find (swageCtxKey cl i) with
    | some c =>
      let w := winOf s c.job.core c.job.entry
      if c.stopped.isNone && winHere s w && decide (w.payload ≤ c.pos) then
        some (.ev (if c.job.drain then .windowDrainComplete else .windowFillComplete) { Sel.none with cl := cluFin cl, n := i })
      else none
    | none => none)
/-- R122: the context served next: the next above the last one, wrapping. -/
def swagePick (s : State) (cl v : Nat) : Option Nat :=
  let l := swageReady s cl v
  let last := s.loc.swageLast.find (16 * cl + v)
  ((l.filter (fun i => last.all (fun x => decide (x < i)))) ++ l).head?

/-- A Swage's cycle: queued work takes free contexts, and one beat is granted. -/
def swageTurns (s : State) (cl : Nat) : State × List Turn :=
  let starts := ((List.range 16).filter (fun v => (swageNext s cl v).isSome)).map (fun v =>
    Turn.ev .swageContextStart { Sel.none with cl := cluFin cl, vd := vdFin v }) ++ swageEnds s cl
  if gated s (dieOfCluster cl) then (s, starts)
  else
    match grant s (.swage cl) (fun v => !(swageReady s cl v).isEmpty) with
    | (s, none) => (s, starts)
    | (s, some v) =>
      (s, starts ++ (match swagePick s cl v with
        | some i => [.ev .swageBeat { Sel.none with cl := cluFin cl, n := i }]
        | none => []))

/-- A drain of a VD that may run: the first on its tile. -/
def drainReady (s : State) (cl v : Nat) : Option Nat :=
  ((entriesOf s cl v).find? (fun e => e.2.mdr.isSome && mxFirst s cl e.2 && tileIn s v e.2.tile
    && (findBlock s e.2.blk).any (fun b => b.here s))).map (·.1)

/-- R181, R185: what an engine does with a cycle granted to a VD: a drain, filler, a cycle of a pass, a pass, or ramp-down. The cycle in
which ramp-up or ramp-down begins is the first of its 24; every one without a pass counts towards MXBURST's 1,024. -/
def anvilCycle (s : State) (cl v : Nat) : State × List Turn :=
  let sel : Sel := { Sel.none with cl := cluFin cl, vd := vdFin v }
  match drainReady s cl v with
  | some key => (s, [.ev .anvilDrainComplete { sel with n := key }])
  | none =>
    let x := engineOf s cl v
    if 0 < x.busy then (onEngine s cl v (fun x => let y := { x with busy := x.busy - 1 }; if x.busy = 1 then passEnds y else y), [])
    else
      let idle := fun (s : State) => onEngine s cl v (fun x => { x with filler := x.filler - 1, withheldCycles := x.withheldCycles - 1 })
      match mxSurvey s cl v with
      | (s, []) =>
        if !x.burst then (s, [])
        else if x.down then (onEngine s cl v (fun x => if x.filler ≤ 1 then { x with filler := 0, burst := false, down := false }
            else { x with filler := x.filler - 1 }), [])
        else if 0 < x.filler ∨ 0 < x.withheldPasses ∧ 0 < x.withheldCycles then (idle s, [])
        else (s, [.ev .anvilRampDown sel])
      | (s, _ :: _) =>
        if !x.burst then (onEngine s cl v (fun x => { x with burst := true, down := false, filler := 23 }), [])
        else if !x.down && decide (0 < x.filler) then (idle s, [])
        else (s, [.ev .anvilPass sel])

/-- Has a VD work for a cluster's Anvil? -/
def anvilWants (s : State) (cl v : Nat) : Bool := !(entriesOf s cl v).isEmpty || (engineOf s cl v).burst

/-- An Anvil's cycle: threads that wait for an entry take freed ones, and one cycle is granted. -/
def anvilTurns (s : State) (cl : Nat) : State × List Turn :=
  let takes := ((List.range 16).filter (fun v => (mxWaiter s cl v).isSome && (freeEntry s cl v).isSome)).map
    (fun v => Turn.ev .anvilEntryAccept { Sel.none with cl := cluFin cl, vd := vdFin v })
  if gated s (dieOfCluster cl) then (s, takes)
  else
    match grant s (.anvil cl) (anvilWants s cl) with
    | (s, none) => (s, takes)
    | (s, some v) => let r := anvilCycle s cl v; (r.1, takes ++ r.2)

/-! Collectives (R120, R122, R371, R374). -/

/-- The contexts of a VD that still have beats to move, by their number in the engine. -/
def collReady (s : State) (v : Nat) : List Nat :=
  (List.range 8).filter (fun i => s.loc.colls.any (fun c => c.ctx == some i && c.vd == v && decide (c.beats < c.need)))
/-- The engine's cycle: one beat of 256 bytes of the next context of the VD it is granted to. -/
def collTurns (s : State) : State × List Turn :=
  match grant s .collective (fun v => !(collReady s v).isEmpty) with
  | (s, none) => (s, [])
  | (s, some v) =>
    let l := collReady s v
    match ((l.filter (fun i => (s.loc.collLast.find v).all (fun x => decide (x < i)))) ++ l).head? with
    | none => (s, [])
    | some i =>
      (s.onLoc fun l => { l with collLast := l.collLast.put v i,
                                 colls := l.colls.map (fun c => if c.ctx = some i then { c with beats := c.beats + 1 } else c) }, [])
/-- Operations whose data have moved and whose other ranks have posted end. -/
def collEnds (s : State) : List Turn :=
  (List.range 16).flatMap (fun v =>
    (s.loc.colls.filter (fun c => c.vd == v && c.ctx.isSome)).zipIdx.filterMap (fun x =>
      match x.1.peers with
      | some p => if x.1.need ≤ x.1.beats then some (.ev (.collComplete (vdFin v) p) { Sel.none with n := x.2 }) else none
      | none => none))

end Sys2Proof.Machine
end

