-- ==== Sys2Proof/Machine/Agenda.lean ====
section
/-! DEFINITION. The turns of a cycle: what is due by time, by state or by the calendar (R17, R42, R79, R82, R87, R104, R110, R111,
R117, R119 to R122, R126, R138, R142, R143, R146, R148, R155, R156, R349). -/
namespace Sys2Proof.Machine

/-! What changes with the clock alone. -/

/-- Does a cycle begin a period of n ns? -/
def onMark (s : State) (n : Nat) : Bool := decide (nsNow s / n ≠ (s.sch.cycle - 1) * 10 / 13 / n)

/-- Landing writes that are held: relaxed ones are performed once a free value says so, the others once they can be (R55, R209). -/
def tickLanding (s : State) : State :=
  (s.pcie.held.map (·.1)).foldl (fun s k =>
    let r := freeValue s
    landHeld r.1 (k / 32) (k % 32) (fun q => bit r.2.toNat 0 || landWanted r.1 (k / 32) (k % 32) q)) s

/-- Waits that end by running the instruction again: a page that was migrating is walked again (R209), a CSRW whose write had not
completed is written again (R35), and SVQWAIT goes on once BATCH is 1 (R381). -/
def tickWaits (s : State) : State :=
  let s := rerun (rerun s .mig) .csr
  wakeThreads s (fun g _ x => x.st == .wait .svqWait && g.resid == .core && batch s g.core g.vd) Thread.goOn

/-- The cycle from which a group could have been swapped out (R155). -/
def tickHeld (s : State) : State :=
  s.onCores fun c => { c with groups := c.groups.map (fun g =>
    { g with heldSince := if swappable s g then some (g.heldSince.getD s.sch.cycle) else none }) }

/-! Turns due by time. -/

def dueTimers (s : State) : List Turn :=
  ((List.finRange 4).filter (fun d => (s.pkg.dies[d]).next.isSome)).map (fun d => .ev .gateStepChange { Sel.none with die := d })
    ++ ((s.cores.mandrel.map (·.1)).filter (fun c => mandrelDue s c && !bit (mandrelOf s c).mip.toNat 0)).map
        (fun c => .ev .mandrelTimer { Sel.none with core := coreFin c })
    ++ ((List.range 16).filter (vtDue s)).map (fun v => .ev .virtualTimerFire { Sel.none with vd := vdFin v })
    ++ ((s.cores.svq.map (·.1)).filter (fun k => batchDue s (k / 16) (k % 16))).map
        (fun k => .ev .svqBatchTimer { Sel.none with core := coreFin (k / 16), vd := vdFin k })
    ++ ((s.cores.svq.map (·.1)).filter (fun k => watchdogDue s (k / 16) (k % 16))).map
        (fun k => .ev .svqWatchdog { Sel.none with core := coreFin (k / 16), vd := vdFin k })
    ++ (if onMark s 1000 then
        ((s.cores.posts.filter (fun p => p.idx.isNone)).map (fun p => svqKey p.core p.vd)).eraseDups.map
          (fun k => .ev .svqPostRetry { Sel.none with core := coreFin (k / 16), vd := vdFin k })
      else [])
    ++ ((List.range 4).filter (fun n => (pairAt s n).en && !(pairAt s n).stopped && decide ((pairAt s n).nextNs ≤ nsNow s))).map
        (fun n => .ev .sliceSwitch { Sel.none with n := n })
    ++ (if onMark s 4000 then
        (s.lq.gov.filter (fun e => bit e.2.ctl.toNat 0)).map
          (fun e => .ev .governorEvaluate { Sel.none with vd := vdFin (e.1 / 4), die := ⟨e.1 % 4, Nat.mod_lt _ (by decide)⟩ })
      else [])

/-- WAITA threads whose word now satisfies their condition, or whose time is over (R349), but for a read outstanding on a failed link (R59); one on a register page wakes at its expiry alone
(R430). -/
def dueWaita (s : State) : List Turn :=
  s.cores.groups.flatMap (fun g =>
    if g.resid != .core then []
    else
      (List.range g.threads.length).filterMap (fun t =>
        match (g.thread t).st with
        | .wait (.waita r) =>
          if r.deadline.any (fun d => decide (d ≤ s.sch.cycle)) then
            (match readOut s g t, (waStep s g t r true).2 with
              | true, .wait _ => none
              | _, _ => some (.ev .waitaTimeout { Sel.none with n := g.gid, k := t }))
          else
            (match r.place, (waStep s g t r false).2 with
              | .mem (.page _), _ | _, .wait _ => none
              | _, _ => some (.ev .waitaWake { Sel.none with n := g.gid, k := t }))
        | _ => none))

/-- Groups to write to their frames or to bring back (R155, R156). -/
def dueFrames (s : State) : List Turn :=
  s.cores.groups.filterMap (fun g =>
    if g.resid == .frame true && (restoreSpot s g).isSome then some (.ev .groupRestore { Sel.none with n := g.gid })
    else if g.heldSince.any (fun c => decide (c + cyclesOfNs 4000 ≤ s.sch.cycle)) then some (.ev .groupSwapOut { Sel.none with n := g.gid })
    else none)

/-- Kills that waited for accesses over a failed link and need not any more (R241). -/
def dueKills (s : State) : List Turn :=
  (((s.lq.launches.filter (fun l => l.killing.isSome && !killWaits s (.launch l.lid))).map (fun l =>
      Turn.ev (.launchKill (vdFin l.vd) (.launch l.lid)) Sel.none))
    ++ (s.lq.tasks.filter (fun t => t.killing.isSome && !killWaits s (.task t.tid))).map (fun t =>
      Turn.ev (.launchKill (vdFin t.vd) (.task t.tid)) Sel.none)).filter (fun t => !s.sch.todo.contains t)

/-! Turns of dispatch. -/

/-- Launch units with a record to take; one that stopped takes it once it is valid (R87). -/
def dueLaunches (s : State) : List Turn :=
  ((List.range 16).filter (fun v => lqReady s v && (!(lqOf s v).stopped || match (recordAt s v).2 with | .good _ => true | _ => false))).map
    (fun v => .ev .launchTakeRecord { Sel.none with vd := vdFin v })

/-- Stage workers that look for a packet (R110). -/
def dueWorkers (s : State) : List Turn :=
  s.lq.gov.flatMap (fun e => (e.2.workers.filter (fun w => workerIdle s (e.1 / 4) (e.1 % 4) w.1)).map (fun w =>
    .ev .stageWorkerTake { Sel.none with vd := vdFin (e.1 / 4), die := ⟨e.1 % 4, Nat.mod_lt _ (by decide)⟩, n := w.1 }))

/-- The placement slots of the dies (R112, R117, R120), in ascending order: listed when some die has something to place. -/
def placeTurns (s : State) : State × List Turn :=
  (s, if s.sch.cycle % 4 = 0 ∧ (List.range 4).any (fun d => (List.range 16).any (fun v => (placement s v d).isSome)) then
      (List.range 4).map .place else [])
/-- The slot of a die: what its dispatcher places for the VD its grant goes to, after the lower dies' placements (R115, R120). -/
def placeNow (s : State) (d : Fin 4) : Issued :=
  match grant s (.dispatcher d.val) (fun v => (placement s v d.val).isSome) with
  | (s, none) => (s, none)
  | (s, some v) => (s.onSch fun c => { c with sel := { Sel.none with vd := vdFin v, die := d } }, placement s v d.val)

/-- Dies with decrements waiting (R104). -/
def dueDecs (s : State) : List Turn :=
  ((List.finRange 4).filter (fun d => (nextDec s d.val).isSome)).map (fun d => .ev .counterDecrement { Sel.none with die := d })

/-! Turns of the network engine and the storage controller. -/

/-- The number of a queue in its VD. -/
def selQp (k : Nat) : Sel := { Sel.none with vd := vdFin (k / 4096), n := k % 4096 }

/-- The OP under which the entry at a queue's HEAD is taken; none while it cannot be read. -/
def takeOp (s : State) (v : Nat) (p : Qp) : Option Nat :=
  match (readHead s v p).2 with
  | .ok (e, _) => some (if wOp e = 0 ∨ 4 < wOp e then 1 else wOp e)
  | .error none => none
  | .error (some _) => some 1
/-- The step of an OP (R38, R62). -/
def opStep (block : Bool) (op : Nat) : Instr :=
  match block, op with
  | false, 2 => .netWrite
  | false, 3 => .netRead
  | false, 4 => .netFetchAdd
  | false, _ => .netSend
  | true, 2 => .blockWrite
  | true, 3 => .blockTrim
  | true, 4 => .blockFlush
  | true, _ => .blockRead

/-- The grants the entry at HEAD takes (R120): its ring read, and a beat for each 256 bytes of payload of a good one. R120 gives no grants
of the storage controller: it takes a request in one. -/
def qpNeed (s : State) (v : Nat) (p : Qp) : Nat :=
  match p.cfg.block, (readHead s v p).2 with
  | false, .ok (e, false) =>
    if bit (wCtrl e) 31 = ownerBit p.head p.cfg.sqLog2 ∧ (workCheck e).isNone then 1 + (wLen e + 255) / 256 else 1
  | _, _ => 1

/-- Has a queue something to do with a grant: a beat to move, or a step that takes its entry, stops at it, or asks for data? -/
def qpReady (s : State) (v q : Nat) (p : Qp) : Bool :=
  p.takes && match takeOp s v p with
    | none => decide (s.mem.fills.length < (readHead s v p).1.mem.fills.length)
    | some op =>
      if p.beats + 1 < qpNeed s v p then true
      else
        let t := if p.cfg.block then blockTake s v q op else netTake s v q op
        findQp t v q != some p || decide (s.mem.fills.length < t.mem.fills.length)
/-- The queues of a VD and kind that are ready. -/
def readyQueues (s : State) (block : Bool) (v : Nat) : List (Nat × Qp) :=
  (qpsOf s v).filter (fun e => e.2.cfg.block == block && qpReady s v e.1 e.2)

/-- One grant of the network engine or the storage controller: the next ready queue of the VD, ascending after the one it last served
(R122). -/
def queueTurns (s : State) (u : Unit_) (block : Bool) : State × List Turn :=
  match grant s u (fun v => !(readyQueues s block v).isEmpty) with
  | (s, none) => (s, [])
  | (s, some v) =>
    let l := readyQueues s block v
    let key := 2 * v + block.toNat
    match ((l.filter (fun e => (s.net.lastQ.find key).all (fun x => decide (x < e.1)))) ++ l).head? with
    | none => (s, [])
    | some (q, p) =>
      let s := s.onNet fun n => { n with lastQ := n.lastQ.put key q }
      if p.beats + 1 < qpNeed s v p then (onQp s v q (fun p => { p with beats := p.beats + 1 }), [])
      else (s, [.ev (opStep block ((takeOp s v p).getD 1)) (selQp (qpKey v q))])

/-- Queues whose watched entry is valid (R42), whose state is wanted again (R50), whose oldest operation is decided (R44, R62), and
those that have stopped with nothing left to do (R35). -/
def dueQueues (s : State) : List Turn :=
  s.net.qps.flatMap (fun e =>
    let v := e.1 / 4096
    let p := e.2
    (if p.stopped && (match (readHead s v p).2 with | .ok (b, _) => bit (wCtrl b) 31 == ownerBit p.head p.cfg.sqLog2 | .error _ => false) then
        [.ev .qpWatchWake (selQp e.1)] else [])
      ++ (if (p.evicted && (!p.heldTails.isEmpty || !p.heldPkts.isEmpty || p.head != p.tail)) || (!p.evicted && !p.heldPkts.isEmpty && p.slotFree) then [.ev .qpStateReload (selQp e.1)] else [])
      ++ (if p.cfg.block then
          (p.ops.filter (·.status.isSome)).map (fun o => .ev (.blockCompletion (vdFin v) (e.1 % 4096) o.idx true) Sel.none)
        else if p.ops.head?.any (fun o => o.status.isSome || o.res.isSome) then
          [.ev (.netCompletion (vdFin v) (e.1 % 4096) { status := 9, data := [], old := 0 }) Sel.none]
        else [])
      ++ (if p.stopping && p.ops.isEmpty && !s.cores.groups.any (fun g => g.threads.any (fun x => x.st == .wait .csr)) then
          [.ev .netDisable (selQp e.1)] else []))

/-- The attestation unit's oldest request (R26, R27), and Braze ports whose key has carried its flits (R58). -/
def dueUnits (s : State) : List Turn :=
  (match s.att.queue with
    | .extend :: _ => [.ev .extendComplete Sel.none]
    | .report :: _ => [.ev .reportComplete Sel.none]
    | [] => [])
    ++ ((s.net.braze.filter (fun e => e.2.keyed && decide (2 ^ 32 ≤ e.2.flits))).map (fun e => .ev .brazeRekey { Sel.none with n := e.1 }))

/-! A cycle. -/

/-- Clusters that have engine work. -/
def busyClusters (s : State) : List Nat :=
  (List.range 208).filter (fun cl =>
    s.loc.swage.any (fun e => e.1 / 8 == cl) || !(s.loc.swageQueue.at [] cl).isEmpty || s.loc.entries.any (fun e => e.1 / 32 == cl)
      || s.loc.engines.any (fun e => e.1 / 16 == cl) || s.loc.mxQueue.any (fun e => e.1 / 16 == cl))

/-- Steps that each change the state and list turns, in order; the turns are put at the end of those to take. -/
def runAll (fs : List (State → State × List Turn)) (s : State) : State :=
  fs.foldl (fun s f => let r := f s; r.2.foldl State.queue r.1) s

/-- Everything a new cycle brings. The mandrel lanes issue each cycle they are ready; the quarters as they are granted, and not in
a gated cycle; cores in ascending order (R361). -/
def planCycle (s : State) : State :=
  let s := settleSets (tickHeld (tickWaits (endMoves (tickRpc (tickLanding s)))))
  let now := fun (f : State → List Turn) (s : State) => (s, f s)
  let s := runAll
    [now dueTimers, now dueWaita, now dueFrames, now dueKills, now dueUnits, now dueQueues, fun s => queueTurns s .network false,
      fun s => queueTurns s .storage true, collTurns, now collEnds, now dueLaunches, now dueWorkers, placeTurns] (collFill s)
  let s := runAll ((busyClusters s).flatMap (fun cl => [fun s => swageTurns s cl, fun s => anvilTurns s cl])) s
  let s := runAll [fun s => (s, (s.cores.groups.filter (fun g => g.mandrel && canIssue s g)).map (fun g => .issue g.gid))] s
  let qs := ((busyQuarters s).map (fun x => (x.1, x.2.1))).eraseDups.mergeSort (fun a b => decide (4 * a.1 + a.2 ≤ 4 * b.1 + b.2))
  reap (runAll ((qs.filter (fun x => !gated s (dieOfCore x.1))).map (fun x => fun s => quarterTurns s x.1 x.2)) s)

end Sys2Proof.Machine
end

