-- ==== Sys2Proof/Machine/Plan.lean ====
section
/-! DEFINITION. Which turn comes next: inputs from outside, the turns still to take, and the turns of a new cycle (R119, R120,
R133 to R139). -/
namespace Sys2Proof.Machine

/-- The turns of a cycle are listed. -/
def listTurns (s : State) : State := (planCycle s).onSch fun c => { c with phase := .listed }

/-- A new cycle: one cycle of the package clock passes, damage due comes to the DRAM, and a package that has stopped shows it (R23). Out of
cold reset, at the start of a round the new table takes effect first (R82); then what the cycle brings is listed. -/
def newCycle (s : State) : State :=
  let s := s.onSch fun c => { c with cycle := c.cycle + 1 }
  let due := s.sch.damage.filter (fun x => decide (x.1 ≤ s.sch.cycle))
  let s := s.onMem fun m => { m with harm := m.harm ++ due.map (·.2) }
  let s := blinkBoot (s.onSch fun c => { c with damage := c.damage.filter (fun x => decide (s.sch.cycle < x.1)) })
  if !s.pkg.running then s
  else if s.sch.cycle % 256 = 0 then
    (s.queue (.ev .calendarRoundStart Sel.none)).onSch fun c => { c with phase := .opened }
  else listTurns s

/-- The end of a cycle: its YIELDs act (R294), and the decrements that wait are applied (R104); with none the next cycle begins. -/
def endCycle (s : State) : State :=
  let s := (settleYields s).onSch fun c => { c with phase := .over }
  match dueDecs s with
  | [] => newCycle s
  | l => l.foldl State.queue s

/-- What follows when no turn is left; records that a turn has left are written first (R237). -/
def moveOn (s : State) : State :=
  let s := flushRecs s
  match s.sch.phase with
  | .over => newCycle s
  | .opened => listTurns s
  | .listed => endCycle s

/-- The next turn: what the step runs, or none when it only moves time or finds nothing to run. -/
def nextTurn (s : State) : Issued :=
  let s := s.onSch fun c => { c with ctx := none }
  match s.sch.inputs with
  | (i, sel) :: rest => (s.onSch fun c => { c with inputs := rest, sel := sel }, some i)
  | [] =>
    match s.sch.todo with
    | [] => (moveOn s, none)
    | t :: rest =>
      let s := s.onSch fun c => { c with todo := rest }
      match t with
      | .ev i sel => (s.onSch fun c => { c with sel := sel }, some i)
      | .place d => placeNow s ⟨d % 4, Nat.mod_lt _ (by decide)⟩
      | .issue gid => issueGroup s gid
      | .pair gid pc tids => issuePair s gid pc tids

/-! A program placed from outside (State.withFetchWord). -/

/-- The word of NOP (R264). -/
def nopWord : Nat := 0x00FFFFFFFFFF0000

/-- R244: a line of five words with its line word, every slot a target. -/
def lineOfWords (ws : List Nat) : Bytes :=
  let spar := (List.range 5).foldl (fun v i => v + 2 ^ (9 + i) * (popcount 96 (ws.getD i nopWord) % 2)) 0x1F
  let lw := spar + 2 ^ 14 * (popcount 32 spar % 2)
  (List.range 5).foldl (fun b i => b ++ leBytes 12 (ws.getD i nopWord)) [] ++ leBytes 4 lw

/-- A group of privilege H in core 0 with one running thread at PC 0, in a block without scratchpad. -/
def bareThread : Thread := { Thread.none with st := .ready }
def bareGroup : Group :=
  { gid := 832, mandrel := false, vd := 0, priv := .h, core := 0, quarter := 0, slot := 0, col := 0, width := 16, regs := 192,
    rowBase := 0, asid := 0, blk := 1, gix := 0, owner := .monitor, kregs := Vector.replicate 32 0,
    threads := bareThread :: List.replicate 15 Thread.none, resid := .core, active := true, since := 0, lastSel := 0, yielded := false,
    heldSince := none, ibuf := [] }
def bareBlock : Block :=
  { bid := 1, num := 0, vd := 0, core := 0, owner := .monitor, lin := 0, idx := [], ext := [], rank := 0, nbrs := [], rowStart := 0,
    rowCount := 0, groups := [832], bars := [], team := none, inRegion := none }
/-- A translation of virtual page 0 to frame 0 for VD 0. -/
def bareTlb : TlbEntry :=
  { cluster := 0, set := 0, way := 0, vd := 0, asid := 0, va := 0, size := 65536, target := .spa 0, gpa := 0, r := true, w := true,
    x := true, u := false, r1 := true, w1 := true, x1 := true, sealedP := false, d1 := true, d2 := true, leaf1 := 0, leaf2 := 0, raw1 := 0, raw2 := 0,
    stamp := 0 }

/-- The line of a word in memory at address 0, and what fetching it as the next turn takes. -/
def placeWord (s : State) (w : Nat) : State :=
  let s := writeMem s 0 (lineOfWords [w])
  let s := setFrame s 0 { Frame.free with st := .owned }
  let s := s.onTrn fun t => { t with tlb := bareTlb :: t.tlb }
  let s := s.onCores fun c =>
    { c with groups := bareGroup :: c.groups.filter (fun g => g.gid != 832), blocks := bareBlock :: c.blocks.filter (fun b => b.bid != 1),
             nextGid := max c.nextGid 833, nextNum := max c.nextNum 2, halted := Tab.del c.halted 0 }
  s.onSch fun c => { c with inputs := [], todo := [.issue 832] }

end Sys2Proof.Machine
end

