-- ==== Sys2Proof/Safety.lean ====
section
/-! DEFINITION. Safe steps, and the terms in which claims are stated: the convoy an opcode runs for, how its threads go on, and what
it leaves. -/
namespace Sys2Proof.Machine

/-- The step of a state answers a next state. -/
def State.Steps (s : State) : Prop := ∃ t, step s = .next t

/-- A run of n steps meets no fault and no refusal. -/
def State.SafeFor (s : State) (n : Nat) : Prop := ∃ t, (Host.Core.mk State Fault Refusal step State.reset).run n s = .next t

/-- Keys of a table rise strictly. -/
def Rising {α : Type} (t : Tab α) : Prop := (t.map (·.1)).Pairwise (· < ·)

/-- Groups have distinct numbers below the next one, and a mandrel lane's only once the machine has left reset; no supervisor queue
holds more than its 256 places (R143); tables are in rising key order. -/
structure Orderly (s : State) : Prop where
  ids : (s.cores.groups.map (·.gid)).Nodup
  fresh : ∀ g ∈ s.cores.groups, g.gid < s.cores.nextGid
  lanes : 832 ≤ s.cores.nextGid
  inReset : s.pkg.modResetN = false → ∀ g ∈ s.cores.groups, 832 ≤ g.gid
  queues : ∀ e ∈ s.cores.svq, e.2.count ≤ 256
  svqs : Rising s.cores.svq
  servers : Rising s.cores.srvPc ∧ Rising s.cores.srvCfg
  mandrels : Rising s.cores.mandrel
  rows : Rising s.loc.rows
  trans : Rising s.trn.regs
  frames : Rising s.trn.fot

/-- Convoy c of group g is selected: its threads, in ascending order, are ready at its PC (R134), and no record is still to be
written. -/
structure Selected (s : State) (c : Convoy) (g : Group) : Prop where
  ctx : s.sch.ctx = some c
  grp : findGroup s c.gid = some g
  order : c.tids.Pairwise (· < ·)
  inside : ∀ u ∈ c.tids, u < g.width ∧ u < g.threads.length
  ready : ∀ u ∈ c.tids, (g.thread u).st = .ready ∧ (g.thread u).pc = c.pc
  lane : g.mandrel = true → ∀ u ∈ c.tids, u = 0
  quiet : s.ras.pending = []

/-- Instruction i of header h is selected and passes checks 2 and 3 of R255. -/
structure Runs (s : State) (i : Instr) (need : Priv) (c : Convoy) (g : Group) (h : Hdr) : Prop extends Selected s c g where
  hdr : i.hdr? = some h
  ok : legal i g = true
  priv : privOk need g = true

/-- The threads of a convoy whose guard[0] is 1 (R253). -/
def acting (s : State) (c : Convoy) (g : Group) (h : Hdr) : List Nat := c.tids.filter (fun u => guardBit s g h u 0)

/-- The group after an instruction whose whole convoy goes on to a PC: the other threads where they were; no barrier token, token
or register of the group changed by going on. -/
structure GoesOn (t : State) (c : Convoy) (g g' : Group) (pc : DWord) : Prop where
  grp : findGroup t c.gid = some g'
  rest : { g' with threads := g.threads, kregs := g.kregs } = g
  size : g'.threads.length = g.threads.length
  moved : ∀ u ∈ c.tids, (g'.thread u).st = .ready ∧ (g'.thread u).pc = pc ∧ (g'.thread u).age = 0
  still : ∀ u, u ∉ c.tids → (g'.thread u).st = (g.thread u).st ∧ (g'.thread u).pc = (g.thread u).pc ∧ (g'.thread u).age = (g.thread u).age
  kept : ∀ u, (g'.thread u).tok = (g.thread u).tok ∧ (g'.thread u).pend = (g.thread u).pend ∧ (g'.thread u).ctok = (g.thread u).ctok
    ∧ (g'.thread u).cpend = (g.thread u).cpend ∧ (g'.thread u).carr = (g.thread u).carr ∧ (g'.thread u).token = (g.thread u).token
    ∧ (g'.thread u).entry = (g.thread u).entry

/-- Nothing but the group's registers, predicates and threads has changed: every other part of the machine, all of memory among it,
and every other group, are as they were. -/
structure OnlyGroup (s t : State) (c : Convoy) : Prop where
  rest : t = { s with cores := { s.cores with groups := t.cores.groups, mandrel := t.cores.mandrel }, loc := { s.loc with rows := t.loc.rows } }
  others : ∀ k, k ≠ c.gid → findGroup t k = findGroup s k

/-- No general register of any thread has changed. -/
def SameRegs (s t : State) : Prop := t.loc.rows = s.loc.rows ∧ t.cores.mandrel = s.cores.mandrel
def SameK (g g' : Group) : Prop := g'.kregs = g.kregs
def SamePreds (g g' : Group) : Prop := ∀ u, (g'.thread u).preds = (g.thread u).preds

/-- General registers other than registers j to j + n − 1 of the threads `us` of g are as they were. -/
def RegsBut (s t : State) (g : Group) (us : List Nat) (j n : Nat) : Prop :=
  if g.mandrel then
    t.loc.rows = s.loc.rows ∧ (∀ k, k ≠ g.core → mandrelOf t k = mandrelOf s k)
      ∧ { mandrelOf t g.core with regs := (mandrelOf s g.core).regs } = mandrelOf s g.core
      ∧ ∀ k, ¬(us ≠ [] ∧ j ≤ k ∧ k < j + n) → (mandrelOf t g.core).regs[k]? = (mandrelOf s g.core).regs[k]?
  else
    t.cores.mandrel = s.cores.mandrel
      ∧ ∀ k, (∀ u ∈ us, ∀ m < n, k ≠ g.regKey u (j + m)) → t.loc.rows.at 0 k = s.loc.rows.at 0 k

/-- Does a run of n general registers that an operand names hold register k? -/
def inRun (d : Opnd) (n k : Nat) : Bool :=
  match d with
  | .g j => decide (j.val ≤ k ∧ k < j.val + n)
  | _ => false

/-- General registers of the threads `us` of g other than those a test names are as they were. -/
def RegsOutside (s t : State) (g : Group) (us : List Nat) (f : Nat → Bool) : Prop :=
  if g.mandrel then
    t.loc.rows = s.loc.rows ∧ (∀ k, k ≠ g.core → mandrelOf t k = mandrelOf s k)
      ∧ { mandrelOf t g.core with regs := (mandrelOf s g.core).regs } = mandrelOf s g.core
      ∧ ∀ k, ¬(us ≠ [] ∧ f k = true) → (mandrelOf t g.core).regs[k]? = (mandrelOf s g.core).regs[k]?
  else
    t.cores.mandrel = s.cores.mandrel ∧ ∀ k, (∀ u ∈ us, ∀ j, f j = true → k ≠ g.regKey u j) → t.loc.rows.at 0 k = s.loc.rows.at 0 k

/-- Operand d of n registers of the threads `us` holds their values: each thread's own g registers; in a k register the value of the
highest thread (R252); zero and predicates take nothing. Every other register is as it was. -/
def Wrote (s t : State) (g g' : Group) (us : List Nat) (d : Opnd) (n : Nat) (v : Nat → Nat) : Prop :=
  match d with
  | .g j => SameK g g' ∧ RegsBut s t g us j.val n
      ∧ ∀ u ∈ us, ∀ m < n, readReg t g u (j.val + m) = BitVec.ofNat 32 (v u / 2 ^ (32 * m))
  | .k j => SameRegs s t ∧ (us = [] → SameK g g') ∧ (∀ m, ¬(j.val ≤ m ∧ m < j.val + n) → g'.kregs[m]? = g.kregs[m]?)
      ∧ ∀ u, us.getLast? = some u → ∀ m < n, g'.kregs[j.val + m]? = some (BitVec.ofNat 32 (v u / 2 ^ (32 * m)))
  | .p _ | .zero => SameK g g' ∧ SameRegs s t

/-- An instruction that writes one register operand: it completes, every thread of the convoy goes on to the next slot, the acting
threads' values are in d, and nothing else has changed. -/
def Writes (s : State) (i : Instr) (c : Convoy) (g : Group) (us : List Nat) (d : Opnd) (n : Nat) (v : Nat → Nat) : Prop :=
  ∃ t g', exec i s = .next t ∧ OnlyGroup s t c ∧ GoesOn t c g g' (nextPc c.pc) ∧ SamePreds g g' ∧ Wrote s t g g' us d n v

/-- Is predicate n the one an operand names? -/
def isPred (d : Opnd) (n : Nat) : Bool :=
  match d with
  | .p k => k.val == n
  | _ => false

/-- Predicate operand d of the threads `us` holds their four bits; a write to p0 or zero is discarded, and in the mandrel lane one
bit is kept (R253, R141). Every other predicate is as it was. -/
def WrotePred (g g' : Group) (us : List Nat) (d : Opnd) (v : Nat → Nat) : Prop :=
  ∀ u n, n < 16 → (g'.thread u).pred n =
    if u ∈ us ∧ n ≠ 0 ∧ isPred d n then (if g.mandrel then v u % 2 else v u % 16) else (g.thread u).pred n

/-- An instruction that writes one predicate operand. -/
def WritesPred (s : State) (i : Instr) (c : Convoy) (g : Group) (us : List Nat) (d : Opnd) (v : Nat → Nat) : Prop :=
  ∃ t g', exec i s = .next t ∧ OnlyGroup s t c ∧ GoesOn t c g g' (nextPc c.pc) ∧ SameRegs s t ∧ SameK g g' ∧ WrotePred g g' us d v

/-- The threads of a convoy with a guard bit that is 1 for one of the n sub-elements of w bits. -/
def subActing (s : State) (c : Convoy) (g : Group) (h : Hdr) (w n : Nat) : List Nat :=
  c.tids.filter (fun u => (List.range n).any (fun j => subGuard s g h u w j))

/-- An instruction on n sub-elements of w bits: each sub-element whose guard is 1 takes its value, the others of d stay (R253). -/
def WritesSubs (s : State) (i : Instr) (c : Convoy) (g : Group) (h : Hdr) (w n : Nat) (d : Opnd) (v : Nat → Nat → Nat) : Prop :=
  ∃ t g', exec i s = .next t ∧ OnlyGroup s t c ∧ GoesOn t c g g' (nextPc c.pc) ∧ SamePreds g g' ∧ SameK g g'
    ∧ match d with
      | .g k => RegsBut s t g (subActing s c g h w n) k.val 1
          ∧ ∀ u ∈ c.tids, ∀ j < n, sub w (readReg t g u k.val).toNat j =
              if subGuard s g h u w j then v u j % 2 ^ w else sub w (readReg s g u k.val).toNat j
      | _ => SameRegs s t

/-! Whole claims about an instruction of privilege U: wherever it runs, it completes with these values. -/

/-- One register operand, of n registers. -/
def DoesReg (s : State) (i : Instr) (d : Opnd) (n : Nat) (v : State → Group → Nat → Nat) : Prop :=
  ∀ c g h, Runs s i .u c g h → Writes s i c g (acting s c g h) d n (v s g)

/-- One predicate operand. -/
def DoesPred (s : State) (i : Instr) (d : Opnd) (v : State → Group → Nat → Nat) : Prop :=
  ∀ c g h, Runs s i .u c g h → WritesPred s i c g (acting s c g h) d (v s g)

/-- The sub-elements of one register operand. -/
def DoesSubs (s : State) (i : Instr) (w n : Nat) (d : Opnd) (v : State → Group → Nat → Nat → Nat) : Prop :=
  ∀ c g h, Runs s i .u c g h → WritesSubs s i c g h w n d (v s g)

/-- One register operand whose value depends on all acting threads. -/
def DoesAll (s : State) (i : Instr) (d : Opnd) (n : Group → Nat) (v : State → Group → List Nat → Nat → Nat) : Prop :=
  ∀ c g h, Runs s i .u c g h → Writes s i c g (acting s c g h) d (n g) (v s g (acting s c g h))

/-- Val of an operand (R274). -/
def ival (m : ArithMod) (o : Opnd) (s : State) (g : Group) (u : Nat) : Int := val m.u (nBits m.w64) (readV s g u o m.w64)
/-- An immediate as R274 reads it. -/
def immVal (u : Bool) (imm : BitVec 32) : Int := if u then (imm.toNat : Int) else imm.toInt

/-! Instructions whose threads act one after another on the machine (R8). -/

/-- The state after an instruction of a convoy: the ends of the threads named, the others going on to the next slot. -/
def goEnds (s : State) (c : Convoy) (l : List (Nat × Done)) : State := flushRecs (finish s c.gid c.pc (withNext c.tids l))
def goOn (s : State) (c : Convoy) : State := goEnds s c []

/-- The parts of some threads in turn, each giving a state and an end; none as soon as a part does not complete. -/
def inTurn {σ : Type} (f : σ → Nat → Option (σ × Done)) : List Nat → σ → Option (σ × List (Nat × Done))
  | [], s => some (s, [])
  | u :: us, s => (f s u).bind fun r => (inTurn f us r.1).map fun q => (q.1, (u, r.2) :: q.2)

/-- Wherever an instruction runs and each acting thread's part completes, the instruction completes with all of them done and with
their ends. A part reads its operands in the state before the instruction and acts on the state so far. -/
def DoesEnds (s : State) (i : Instr) (need : Priv) (f : State → Group → State → Nat → Option (State × Done)) : Prop :=
  ∀ c g h m l, Runs s i need c g h → inTurn (f s g) (acting s c g h) s = some (m, l) → exec i s = .next (goEnds m c l)

/-- The same where every thread goes on to the next slot. -/
def DoesEach (s : State) (i : Instr) (need : Priv) (f : State → Group → State → Nat → Option State) : Prop :=
  ∀ c g h m l, Runs s i need c g h → inTurn (fun a u => (f s g a u).map (·, .next)) (acting s c g h) s = some (m, l) →
    exec i s = .next (goOn m c)

/-- The same where every part completes in every state. -/
def DoesAlways (s : State) (i : Instr) (need : Priv) (f : State → Group → State → Nat → State) : Prop :=
  ∀ c g h, Runs s i need c g h → exec i s = .next (goOn ((acting s c g h).foldl (f s g) s) c)

/-- An instruction that acts once for its whole convoy when some thread acts. -/
def DoesOnce (s : State) (i : Instr) (need : Priv) (f : Group → List Nat → State) : Prop :=
  ∀ c g h, Runs s i need c g h → exec i s = .next (goOn (if acting s c g h = [] then s else f g (acting s c g h)) c)

/-- The answer of an access that completes. -/
def okGot {α β : Type} (r : Got α) (f : State → α → β) : Option β :=
  match r with
  | (s, .ok x) => some (f s x)
  | (_, .error _) => none

/-- What is held back or refused for a .USR form of a U group (R332). -/
def usrCtx (s : State) (g : Group) (u : Nat) (usr : Bool) : Option MemCtx :=
  if usr = true ∧ g.priv = .u then none else ctxOf s g u usr

/-- An event is taken, and leaves a state with a property. -/
def Goes (s : State) (i : Instr) (p : State → Prop) : Prop := ∃ t, exec i s = .next t ∧ p t

end Sys2Proof.Machine
end

