-- ==== Sys2Proof/Certificates/Slice0/Obligations.lean ====
section
/-! DEFINITION. The statements for the provers. -/
open Sys2Proof Sys2Proof.Machine

/-- Row 0x1 completes with the values of its rules and its frame; IMUL and IMAD keep the part of the product their form names (R274, R275,
R276, R277, R278). -/
def Obligations.IntegerArithmetic : Prop :=
  (∀ (s : State) (h : Hdr) (m : ArithMod) (d a b c : Opnd) (imm : BitVec 32),
     let n := nBits m.w64
     let A := ival m a
     let B := ival m b
     let C := ival m c
     let I := immVal m.u imm
     DoesReg s (.iadd h m d a b) d (W m.w64) (fun s g u => fit (A s g u + B s g u) n m.u m.sat)
     ∧ DoesReg s (.iaddImm h m d a imm) d (W m.w64) (fun s g u => fit (A s g u + I) n m.u m.sat)
     ∧ DoesReg s (.isub h m d a b) d (W m.w64) (fun s g u => fit (A s g u - B s g u) n m.u m.sat)
     ∧ DoesReg s (.isubImm h m d a imm) d (W m.w64) (fun s g u => fit (A s g u - I) n m.u m.sat)
     ∧ DoesReg s (.imin h m d a b) d (W m.w64) (fun s g u => wrap n (min (A s g u) (B s g u)))
     ∧ DoesReg s (.iminImm h m d a imm) d (W m.w64) (fun s g u => wrap n (min (A s g u) I))
     ∧ DoesReg s (.imax h m d a b) d (W m.w64) (fun s g u => wrap n (max (A s g u) (B s g u)))
     ∧ DoesReg s (.imaxImm h m d a imm) d (W m.w64) (fun s g u => wrap n (max (A s g u) I))
     ∧ DoesReg s (.iabs h m d a) d (W m.w64) (fun s g u => fit |A s g u| n false m.sat)
     ∧ DoesReg s (.isad h m d a b c) d (W m.w64) (fun s g u => fit (|A s g u - B s g u| + C s g u) n m.u m.sat)
     ∧ DoesReg s (.idiv h m d a b) d (W m.w64) (fun s g u =>
         if B s g u = 0 then 2 ^ n - 1
         else if m.u = false ∧ A s g u = -2 ^ (n - 1) ∧ B s g u = -1 then fit (2 ^ (n - 1)) n false m.sat
         else fit ((A s g u).tdiv (B s g u)) n m.u m.sat)
     ∧ DoesReg s (.irem h m d a b) d (W m.w64) (fun s g u =>
         if B s g u = 0 then readV s g u a m.w64
         else if m.u = false ∧ A s g u = -2 ^ (n - 1) ∧ B s g u = -1 then 0
         else wrap n (A s g u - B s g u * (A s g u).tdiv (B s g u))))
  ∧ ∀ (s : State) (h : Hdr) (m : ArithMod) (d a b c : Opnd) (imm : BitVec 32),
      let n := nBits m.w64
      let A := ival m a
      let B := ival m b
      let I := immVal m.u imm
      let keep := fun (p q : Int) => match m.mul with
        | .lo => fit (p + q) n m.u m.sat
        | .hi => wrap n (p / 2 ^ n + q)
        | .wide => wrap 64 (p + q)
      let C := fun s g u => if m.mul = .wide then val m.u 64 (readOp s g u c 2) else ival m c s g u
      let w := if m.mul = .wide ∨ m.w64 = true then 2 else 1
      DoesReg s (.imul h m d a b) d w (fun s g u => keep (A s g u * B s g u) 0)
      ∧ DoesReg s (.imulImm h m d a imm) d w (fun s g u => keep (A s g u * I) 0)
      ∧ DoesReg s (.imad h m d a b c) d w (fun s g u => keep (A s g u * B s g u) (C s g u))
      ∧ DoesReg s (.imadImm h m d a b imm) d w (fun s g u => keep (A s g u * B s g u) I)

/-- Row 0x2, SEL, MOV, MOVH and LEA complete with the values of R280, R282 and R285 and their frame (R252, R274, R279, R280, R282, R285). -/
def Obligations.LogicShiftsAndMoves : Prop :=
  (∀ (s : State) (h : Hdr) (m : LogicMod) (d a b c : Opnd) (imm : BitVec 32),
     let n := nBits m.w64
     let V := fun (o : Opnd) (s : State) (g : Group) (u : Nat) => readV s g u o m.w64
     let K := fun (o : Opnd) (s : State) (g : Group) (u : Nat) => readOp s g u o 1
     let I := if m.w64 then (imm.signExtend 64).toNat else imm.toNat
     let shl := fun a c => if n ≤ c then 0 else a * 2 ^ c % 2 ^ n
     let shr := fun (a c : Nat) =>
       if m.s then (if n ≤ c then (if 2 ^ (n - 1) ≤ a then 2 ^ n - 1 else 0) else wrap n (sext n a / 2 ^ c))
       else (if n ≤ c then 0 else a / 2 ^ c)
     DoesReg s (.and h m d a b) d (W m.w64) (fun s g u => V a s g u &&& V b s g u)
     ∧ DoesReg s (.andImm h m d a imm) d (W m.w64) (fun s g u => V a s g u &&& I)
     ∧ DoesReg s (.or h m d a b) d (W m.w64) (fun s g u => V a s g u ||| V b s g u)
     ∧ DoesReg s (.orImm h m d a imm) d (W m.w64) (fun s g u => V a s g u ||| I)
     ∧ DoesReg s (.xor h m d a b) d (W m.w64) (fun s g u => V a s g u ^^^ V b s g u)
     ∧ DoesReg s (.xorImm h m d a imm) d (W m.w64) (fun s g u => V a s g u ^^^ I)
     ∧ DoesReg s (.not h m d a) d (W m.w64) (fun s g u => 2 ^ n - 1 - V a s g u)
     ∧ DoesReg s (.logt h m d a b c) d (W m.w64) (fun s g u => tblWord m.tbl.val n (V a s g u) (V b s g u) (V c s g u))
     ∧ DoesReg s (.shl h m d a b) d (W m.w64) (fun s g u => shl (V a s g u) (K b s g u))
     ∧ DoesReg s (.shlImm h m d a imm) d (W m.w64) (fun s g u => shl (V a s g u) imm.toNat)
     ∧ DoesReg s (.shr h m d a b) d (W m.w64) (fun s g u => shr (V a s g u) (K b s g u))
     ∧ DoesReg s (.shrImm h m d a imm) d (W m.w64) (fun s g u => shr (V a s g u) imm.toNat)
     ∧ DoesReg s (.rot h m d a b) d (W m.w64) (fun s g u =>
         let k := if m.right then (n - K b s g u % n) % n else K b s g u % n
         (V a s g u * 2 ^ k + V a s g u / 2 ^ (n - k)) % 2 ^ n)
     ∧ DoesReg s (.popc h m d a) d 1 (fun s g u => ((List.range n).filter (fun i => (V a s g u).testBit i)).length)
     ∧ DoesReg s (.clz h m d a) d 1 (fun s g u => if V a s g u = 0 then n else n - 1 - Nat.log2 (V a s g u))
     ∧ DoesReg s (.bfx h m d a b c) d (W m.w64) (fun s g u =>
         let pos := K b s g u % 256
         let len := min (K c s g u % 256) (n - pos)
         if n ≤ pos ∨ K c s g u % 256 = 0 then 0
         else if m.s then wrap n (sext len (V a s g u / 2 ^ pos % 2 ^ len)) else V a s g u / 2 ^ pos % 2 ^ len))
  ∧ ∀ (s : State) (h : Hdr) (m : SelMod) (mm : MovMod) (ml : LeaMod) (d p a b : Opnd) (imm : BitVec 32),
      let I64 := (imm.signExtend 64).toNat
      DoesReg s (.sel h m d p a b) d (W m.w64) (fun s g u =>
        if m.byte then selBytes (readP s g u p) (readV s g u a m.w64) (readV s g u b m.w64)
        else if bit (readP s g u p) 0 then readV s g u a m.w64 else readV s g u b m.w64)
      ∧ DoesReg s (.selImm h m d p a imm) d (W m.w64) (fun s g u =>
        if m.byte then selBytes (readP s g u p) (readV s g u a m.w64) imm.toNat
        else if bit (readP s g u p) 0 then readV s g u a m.w64 else if m.w64 then I64 else imm.toNat)
      ∧ DoesReg s (.mov h mm d a) d (W mm.w64) (fun s g u => readV s g u a mm.w64)
      ∧ DoesReg s (.movImm h mm d imm) d (W mm.w64) (fun _ _ _ => if mm.w64 && !mm.u then I64 else imm.toNat)
      ∧ DoesReg s (.movh h d imm) (highOf d) 1 (fun _ _ _ => imm.toNat)
      ∧ DoesReg s (.lea h ml d a b) d 2 (fun s g u =>
        (readOp s g u a 2 + (if ml.u then readOp s g u b 1 else ((BitVec.ofNat 32 (readOp s g u b 1)).signExtend 64).toNat) * 2 ^ ml.sh.val) % 2 ^ 64)
      ∧ DoesReg s (.leaImm h ml d a imm) d 2 (fun s g u =>
        (readOp s g u a 2 + (if ml.u then imm.toNat else I64) * 2 ^ ml.sh.val) % 2 ^ 64)

/-- Integer compares, PCOMB, P2G and G2P complete with the predicates of their rules (R253, R281, R283, R284). -/
def Obligations.ComparesAndPredicates : Prop :=
  ∀ (s : State) (h : Hdr) (m : IcmpMod) (mp : PcombMod) (m8 : P2gMod) (mg : G2pMod) (d a b c : Opnd) (co : Option Opnd) (imm : BitVec 32),
    let n := nBits m.w64
    let A := fun (o : Opnd) (s : State) (g : Group) (u : Nat) => val m.u n (readV s g u o m.w64)
    let P := fun (o : Opnd) (s : State) (g : Group) (u : Nat) => readP s g u o
    let out := fun (r : Bool) (p : Nat) => match m.bop with
      | .none => if r then 15 else 0
      | .and => if r then p else 0
      | .or => if r then 15 else p
      | .xor => if r then p ^^^ 15 else p
    DoesPred s (.icmp h m d a b co) d (fun s g u => out (icmp m.cmp (A a s g u) (A b s g u)) (P (co.getD .zero) s g u))
    ∧ DoesPred s (.icmpImm h m d a imm) d (fun s g u => if icmp m.cmp (A a s g u) (immVal m.u imm) then 15 else 0)
    ∧ DoesPred s (.pcomb h mp d a b c) d (fun s g u => tblWord mp.tbl.val 4 (P a s g u) (P b s g u) (P c s g u))
    ∧ DoesReg s (.p2g h m8 d) d 1 (fun s g u => ((List.range 8).map (fun i => 16 ^ i * readPred s g u (8 * m8.hi.toNat + i))).sum)
    ∧ ∀ cv g h', Runs s (.g2p h mg a) .u cv g h' → ∃ t g', exec (.g2p h mg a) s = .next t ∧ OnlyGroup s t cv
        ∧ GoesOn t cv g g' (nextPc cv.pc) ∧ SameRegs s t ∧ SameK g g'
        ∧ ∀ u k, k < 16 → (g'.thread u).pred k =
            if u ∈ acting s cv g h' ∧ k ≠ 0 ∧ k / 8 = mg.hi.toNat ∧ bit mg.keep.val (k % 8) = false then
              (if g.mandrel then readOp s g u a 1 / 16 ^ (k % 8) % 2 else readOp s g u a 1 / 16 ^ (k % 8) % 16)
            else (g.thread u).pred k

/-- The packed integer arithmetic writes each guarded sub-element and keeps the others (R287). -/
def Obligations.PackedArithmetic : Prop :=
  ∀ (s : State) (h : Hdr) (m : VecMod) (d a b : Opnd) (imm : BitVec 32),
    let w := VecMod.width m
    let n := VecMod.count m
    let E := fun (o : Opnd) (s : State) (g : Group) (u j : Nat) => val m.u w (sub w (readOp s g u o 1) j)
    DoesSubs s (.vadd h m d a b) w n d (fun s g u j => fit (E a s g u j + E b s g u j) w m.u m.sat)
    ∧ DoesSubs s (.vaddImm h m d a imm) w n d (fun s g u j => fit (E a s g u j + val m.u w (sub w imm.toNat j)) w m.u m.sat)
    ∧ DoesSubs s (.vsub h m d a b) w n d (fun s g u j => fit (E a s g u j - E b s g u j) w m.u m.sat)
    ∧ DoesSubs s (.vmin h m d a b) w n d (fun s g u j => wrap w (min (E a s g u j) (E b s g u j)))
    ∧ DoesSubs s (.vmax h m d a b) w n d (fun s g u j => wrap w (max (E a s g u j) (E b s g u j)))
    ∧ DoesSubs s (.vmul h m d a b) w n d (fun s g u j => fit (E a s g u j * E b s g u j) w m.u m.sat)
    ∧ DoesSubs s (.vabsd h m d a b) w n d (fun s g u j => (E a s g u j - E b s g u j).natAbs)

/-- ACS2 and PRMT complete with the values of their rules, and PRMT with an immediate above 65535 raises Illegal Instruction (R289,
R290, R286). -/
def Obligations.AcsAndPermute : Prop :=
  ∀ (s : State) (h : Hdr) (m : VecMod) (d a b c e : Opnd) (imm : BitVec 32),
    let H := fun (o : Opnd) (s : State) (g : Group) (u j : Nat) => val m.u 16 (sub 16 (readOp s g u o 1) j)
    let pick := fun (x y sel : Nat) =>
      ((List.range 4).map (fun j =>
        let q := sel / 16 ^ j % 16
        let v := (x + y * 2 ^ 32) / 256 ^ (q % 8) % 256
        256 ^ j * (if q < 8 then v else if 128 ≤ v then 255 else 0))).sum
    DoesReg s (.prmt h m d a b c) d 1 (fun s g u => pick (readOp s g u a 1) (readOp s g u b 1) (readOp s g u c 1))
    ∧ (imm.toNat ≤ 65535 → DoesReg s (.prmtImm h m d a b imm) d 1 (fun s g u => pick (readOp s g u a 1) (readOp s g u b 1) imm.toNat))
    ∧ (65535 < imm.toNat → DoesEnds s (.prmtImm h m d a b imm) .u (fun _ _ x _ => some (x, .trap (illegal (wordBytes (.prmtImm h m d a b imm))))))
    ∧ ∀ cv g h', Runs s (.acs2 h m d a b c e) .u cv g h' →
        let x := fun u j => fit (H a s g u j + H c s g u j) 16 m.u m.sat
        let y := fun u j => fit (H b s g u j + H e s g u j) 16 m.u m.sat
        let sel := fun u j => if m.max then decide (val m.u 16 (y u j) > val m.u 16 (x u j)) else decide (val m.u 16 (y u j) < val m.u 16 (x u j))
        let on := fun u j => (g.mandrel && j == 1) || subGuard s g h' u 16 j
        ∃ t g', exec (.acs2 h m d a b c e) s = .next t ∧ OnlyGroup s t cv ∧ GoesOn t cv g g' (nextPc cv.pc) ∧ SameK g g'
          ∧ (match d with
              | .g k => RegsBut s t g (cv.tids.filter (fun u => on u 0 || on u 1)) k.val 1
                  ∧ ∀ u ∈ cv.tids, ∀ j < 2, sub 16 (readReg t g u k.val).toNat j =
                      if on u j then (if sel u j then y u j else x u j) else sub 16 (readReg s g u k.val).toNat j
              | _ => SameRegs s t)
          ∧ ∀ u k i, k < 16 → i < 4 → (g.mandrel = true → i = 0) → bit ((g'.thread u).pred k) i =
              if u ∈ cv.tids ∧ k ≠ 0 ∧ m.dp.map (·.val) = some k ∧ subGuard s g h' u 16 (i / 2) = true then sel u (i / 2) else bit ((g.thread u).pred k) i

/-- The rounding that `rnd` and `roundTo` make is RoundTo, RoundInt and Overflow of R299, and the sums and products that `addFl` and
`fmaFl` make are exact, with the zero signs of R300 and the special cases of R297 and R307. -/
def Obligations.RoundingRule : Prop :=
  [f64, f32, f16, bf16, f8, f8w].map Fmt.nan = [0x7FF8000000000000, 0x7FC00000, 0x7E00, 0x7FC0, 0x80, 0x80]
  ∧ (∀ f ∈ [f64, f32, f16, bf16, f8, f8w], ∀ (mode : Rnd) (sat neg : Bool) (n : Nat) (x : Int),
      let is := fun (b : Nat) (sgn : Bool) (y : ℚ) => b < 2 ^ f.width ∧ ∃ k z, f.dec b = .num sgn k z ∧ (k : ℚ) * 2 ^ z = y
      let top : ℚ := (2 - 2 ^ (-(f.m : Int))) * 2 ^ ((f.bias : Int) + if f.ieee = true then 0 else 1)
      let y : ℚ := (n : ℚ) * 2 ^ x
      let q : ℚ := 2 ^ (max (Int.log 2 y) (1 - f.bias) - f.m)
      let v : ℚ := if neg = true then -y / q else y / q
      let isInt := fun (k : Int) => match mode with
        | .rn => |v - k| < 1 / 2 ∨ |v - k| = 1 / 2 ∧ 2 ∣ k
        | .rz => k = if neg = true then ⌈v⌉ else ⌊v⌋
        | .ru => k = ⌈v⌉
        | .rd => k = ⌊v⌋
        | .rna => |v - k| < 1 / 2 ∨ |v - k| = 1 / 2 ∧ |v| < |(k : ℚ)|
      let keepsMax := sat = true ∨ mode = .rz ∨ (mode = .ru ∧ neg = true) ∨ (mode = .rd ∧ neg = false)
      let r := roundTo f mode sat (.num neg n x)
      let toInf := fun (r : Rounded) => r.sat = false ∧ if f.ieee = true then r.bits < 2 ^ f.width ∧ f.dec r.bits = .inf neg else r.bits = f.nan
      (rnd f mode (.num neg n x) = (roundTo f mode false (.num neg n x)).bits)
      ∧ (roundTo f mode sat .nan = ⟨f.nan, false⟩)
      ∧ (if sat = true then (roundTo f mode sat (.inf neg)).sat = true ∧ is (roundTo f mode sat (.inf neg)).bits neg top
        else toInf (roundTo f mode sat (.inf neg)))
      ∧ (n = 0 → r.sat = false ∧ is r.bits (neg && f.ieee) 0)
      ∧ (n ≠ 0 → ∃ k : Int, isInt k
          ∧ (top < |(k : ℚ)| * q → (keepsMax → r.sat = true ∧ is r.bits neg top) ∧ (¬keepsMax → toInf r))
          ∧ (|(k : ℚ)| * q ≤ top → r.sat = false ∧ is r.bits (if k = 0 then neg && f.ieee else neg) (|(k : ℚ)| * q))))
  ∧ ∀ (mode : Rnd) (a b c : Fl) (down : Bool) (l : List Fl) (neg : Bool),
      let val : Fl → ℚ := fun w => match w with
        | .num sgn n x => if sgn = true then -((n : ℚ) * 2 ^ x) else (n : ℚ) * 2 ^ x
        | _ => 0
      let finite := fun (w : Fl) => w.isNan = false ∧ w.isInf = false
      let sign := fun (w : Fl) => match w with
        | .num sgn _ _ => sgn
        | .inf sgn => sgn
        | .nan => false
      (addFl mode a b = sumFl (decide (mode = .rd)) [a, b] ∧ fmaFl mode a b c = sumFl (decide (mode = .rd)) [a.mul b, c])
      ∧ (l ≠ [] → (∀ w ∈ l, finite w) → finite (sumFl down l) ∧ val (sumFl down l) = (l.map val).sum
          ∧ ((l.map val).sum = 0 →
              ((∀ w ∈ l, val w = 0 ∧ sign w = true) → sign (sumFl down l) = true)
              ∧ ((∀ w ∈ l, val w = 0 ∧ sign w = false) → sign (sumFl down l) = false)
              ∧ (¬(∀ w ∈ l, val w = 0 ∧ sign w = true) → ¬(∀ w ∈ l, val w = 0 ∧ sign w = false) → sign (sumFl down l) = down)))
      ∧ ((∃ w ∈ l, w = .nan) ∨ (.inf neg ∈ l ∧ .inf (!neg) ∈ l) → sumFl down l = .nan)
      ∧ (.nan ∉ l → .inf neg ∈ l → .inf (!neg) ∉ l → sumFl down l = .inf neg)
      ∧ (finite a → finite b → finite (a.mul b) ∧ val (a.mul b) = val a * val b ∧ sign (a.mul b) = (sign a != sign b))
      ∧ (a = .nan ∨ b = .nan ∨ (a.isInf = true ∧ finite b ∧ val b = 0) ∨ (finite a ∧ val a = 0 ∧ b.isInf = true) → a.mul b = .nan)
      ∧ (a ≠ .nan → b ≠ .nan → (a.isInf = true ∧ (b.isInf = true ∨ val b ≠ 0)) ∨ (b.isInf = true ∧ val a ≠ 0) → a.mul b = .inf (sign a != sign b))

/-- Row 0x4 completes with one rounded result a thread (R299, R300, R307, R308, R309); what `rnd`, `addFl` and `fmaFl` are, the
statement RoundingRule says. -/
def Obligations.FloatArithmetic : Prop :=
  ∀ (s : State) (h : Hdr) (m : FpMod) (d a b c : Opnd) (imm : BitVec 32),
    let S := fun (f : Fmt) (o : Opnd) (s : State) (g : Group) (u : Nat) => f.dec (readOp s g u o (f.width / 32))
    let N := fun (f : Fmt) (o : Opnd) (s : State) (g : Group) (u : Nat) => if m.na then (S f o s g u).neg else S f o s g u
    let C := fun (v : Fl) => if m.nc then v.neg else v
    let I := f32.dec imm.toNat
    let bitsA := fun (s : State) (g : Group) (u : Nat) => if m.na then readOp s g u a 1 ^^^ 2 ^ 31 else readOp s g u a 1
    DoesReg s (.fadd h m d a b) d 1 (fun s g u => rnd f32 m.rnd (addFl m.rnd (N f32 a s g u) (C (S f32 b s g u))))
    ∧ DoesReg s (.faddImm h m d a imm) d 1 (fun s g u => rnd f32 m.rnd (addFl m.rnd (N f32 a s g u) (C I)))
    ∧ DoesReg s (.fsub h m d a b) d 1 (fun s g u => rnd f32 m.rnd (addFl m.rnd (N f32 a s g u) (C (S f32 b s g u)).neg))
    ∧ DoesReg s (.fmul h m d a b) d 1 (fun s g u => rnd f32 m.rnd ((N f32 a s g u).mul (S f32 b s g u)))
    ∧ DoesReg s (.fmulImm h m d a imm) d 1 (fun s g u => rnd f32 m.rnd ((N f32 a s g u).mul I))
    ∧ DoesReg s (.ffma h m d a b c) d 1 (fun s g u => rnd f32 m.rnd (fmaFl m.rnd (N f32 a s g u) (S f32 b s g u) (C (S f32 c s g u))))
    ∧ DoesReg s (.ffmaImm h m d a b imm) d 1 (fun s g u => rnd f32 m.rnd (fmaFl m.rnd (N f32 a s g u) (S f32 b s g u) (C I)))
    ∧ DoesReg s (.fmin h m d a b) d 1 (fun s g u => minMaxF f32 false (bitsA s g u) (readOp s g u b 1))
    ∧ DoesReg s (.fmax h m d a b) d 1 (fun s g u => minMaxF f32 true (bitsA s g u) (readOp s g u b 1))
    ∧ DoesReg s (.fdiv h m d a b) d 1 (fun s g u => rnd f32 m.rnd ((N f32 a s g u).div (S f32 b s g u)))
    ∧ DoesReg s (.fsqrt h m d a) d 1 (fun s g u => rnd f32 m.rnd (N f32 a s g u).sqrt)
    ∧ DoesReg s (.frcp h m d a) d 1 (fun s g u => rnd f32 m.rnd ((Fl.num false 1 0).div (N f32 a s g u)))
    ∧ DoesReg s (.frsq h m d a) d 1 (fun s g u => rnd f32 m.rnd (N f32 a s g u).rsqrt)
    ∧ DoesReg s (.dadd h m d a b) d 2 (fun s g u => rnd f64 m.rnd (addFl m.rnd (N f64 a s g u) (C (S f64 b s g u))))
    ∧ DoesReg s (.dmul h m d a b) d 2 (fun s g u => rnd f64 m.rnd ((N f64 a s g u).mul (S f64 b s g u)))
    ∧ DoesReg s (.dfma h m d a b c) d 2 (fun s g u => rnd f64 m.rnd (fmaFl m.rnd (N f64 a s g u) (S f64 b s g u) (C (S f64 c s g u))))

/-- The packed halves and the special functions complete with rounded results (R253, R310, R316), with the rounding of RoundingRule;
how the exact value of a special function is found is the model's choice (log 126). -/
def Obligations.FloatHalvesAndFunctions : Prop :=
  ∀ (s : State) (h : Hdr) (m : HalfMod) (mf : SfuMod) (d a b c : Opnd),
    let f := HalfMod.fmt m
    let X := fun (o : Opnd) (s : State) (g : Group) (u j : Nat) => sub 16 (readOp s g u o 1) j
    DoesSubs s (.hadd h m d a b) 16 2 d (fun s g u j => rnd f m.rnd (addFl m.rnd (f.dec (X a s g u j)) (f.dec (X b s g u j))))
    ∧ DoesSubs s (.hmul h m d a b) 16 2 d (fun s g u j => rnd f m.rnd ((f.dec (X a s g u j)).mul (f.dec (X b s g u j))))
    ∧ DoesSubs s (.hfma h m d a b c) 16 2 d (fun s g u j =>
        rnd f m.rnd (fmaFl m.rnd (f.dec (X a s g u j)) (f.dec (X b s g u j)) (f.dec (X c s g u j))))
    ∧ DoesSubs s (.hmin h m d a b) 16 2 d (fun s g u j => minMaxF f false (X a s g u j) (X b s g u j))
    ∧ DoesSubs s (.hmax h m d a b) 16 2 d (fun s g u j => minMaxF f true (X a s g u j) (X b s g u j))
    ∧ ∀ (i : Instr) (r : Fl → Fl),
        ((i = .exp2 h mf d a ∧ r = exp2Fl) ∨ (i = .log2 h mf d a ∧ r = log2Fl) ∨ (i = .sinPi h mf d a ∧ r = sinPiFl)
          ∨ (i = .cosPi h mf d a ∧ r = cosPiFl)) →
        (mf.ft = .f32 → DoesReg s i d 1 (fun s g u => rnd f32 mf.rnd (r (f32.dec (readOp s g u a 1)))))
        ∧ (mf.ft ≠ .f32 → DoesSubs s i 16 2 d (fun s g u j => rnd (SfuFmt.fmt mf.ft) mf.rnd (r ((SfuFmt.fmt mf.ft).dec (X a s g u j)))))

/-- Float compares, FCLASS, FRND, FSCALE, CVT, CVTP and RNDH complete with the values of their rules (R253, R297, R298, R306, R311,
R312, R313, R314, R315, R317). In the clauses with a companion operand, what error feedback carries (log 127) and which write stands
where the destination lies in the companion (log 155) are the model's choice. -/
def Obligations.FloatComparesAndConversions : Prop :=
  ∀ (s : State) (h : Hdr) (m : FcmpMod) (mh : HcmpMod) (mc : FclassMod) (mr : FrndMod) (mn : RndhMod) (mt : CvtMod) (mp : CvtpMod)
    (d a b e : Opnd) (co : Option Opnd) (imm : BitVec 32),
    let F := fun (w64 : Bool) => if w64 then f64 else f32
    let S := fun (f : Fmt) (o : Opnd) (s : State) (g : Group) (u : Nat) => f.dec (readOp s g u o (f.width / 32))
    let out := fun (k : Bop) (r : Bool) (p : Nat) => match k with
      | .none => if r then 15 else 0
      | .and => if r then p else 0
      | .or => if r then 15 else p
      | .xor => if r then p ^^^ 15 else p
    DoesPred s (.fcmp h m d a b co) d (fun s g u =>
      out m.bop (fcmp m.cmp (S (F m.w64) a s g u) (S (F m.w64) b s g u)) (readP s g u (co.getD .zero)))
    ∧ DoesPred s (.fcmpImm h m d a imm) d (fun s g u => out m.bop (fcmp m.cmp (S (F m.w64) a s g u) (f32.dec imm.toNat)) 0)
    ∧ DoesPred s (.fclass h mc d a) d (fun s g u =>
      let f := ClassFmt.fmt mc.ft
      if bit mc.cls.val (classOf f (readOp s g u a (if mc.ft = .f64 then 2 else 1) % 2 ^ f.width)) then 15 else 0)
    ∧ DoesReg s (.frnd h mr d a) d (W mr.w64) (fun s g u => rnd (F mr.w64) mr.rnd (frndOf mr.rnd (S (F mr.w64) a s g u)))
    ∧ DoesReg s (.fscale h mr d a b) d (W mr.w64) (fun s g u =>
      rnd (F mr.w64) mr.rnd (scaleFl (BitVec.ofNat 32 (readOp s g u b 1)).toInt (S (F mr.w64) a s g u)))
    ∧ DoesReg s (.fscaleImm h mr d a imm) d (W mr.w64) (fun s g u => rnd (F mr.w64) mr.rnd (scaleFl imm.toInt (S (F mr.w64) a s g u)))
    ∧ DoesReg s (.rndh h mn d a b) d 1 (fun s g u => rndhOf mn.u01 (readOp s g u a 2) (readOp s g u b 1))
    ∧ DoesReg s (.rndhImm h mn d a imm) d 1 (fun s g u => rndhOf mn.u01 (readOp s g u a 2) imm.toNat)
    ∧ DoesReg s (.cvt h mt d a none) d mt.dt.words (fun s g u =>
      etyReg mt.dt (convert mt.dt mt.st mt.rnd mt.sat (readOp s g u a mt.st.words % 2 ^ etyBits mt.st)).bits)
    ∧ (mp.op.isPack = false → DoesReg s (.cvtp h mp d a none none) d mp.op.count (fun s g u =>
      ((List.range mp.op.count).map (fun j =>
        2 ^ (32 * j) * (convert .f32 mp.pt .rn false (readOp s g u a 1 / 2 ^ (etyBits mp.pt * j) % 2 ^ etyBits mp.pt)).bits)).sum))
    ∧ (mp.op.isPack = true → DoesReg s (.cvtp h mp d a (some b) none) d 1 (fun s g u =>
      let src := readOp s g u a (mp.op.count / 2) + 2 ^ (16 * mp.op.count) * readOp s g u b (mp.op.count / 2)
      ((List.range mp.op.count).map (fun j =>
        2 ^ (etyBits mp.pt * j) * (convert mp.pt .f32 mp.rnd mp.sat (src / 2 ^ (32 * j) % 2 ^ 32)).bits)).sum))
    ∧ (∀ cv g h', Runs s (.cvt h mt d a (some e)) .u cv g h' → ∃ t g', exec (.cvt h mt d a (some e)) s = .next t
        ∧ OnlyGroup s t cv ∧ GoesOn t cv g g' (nextPc cv.pc) ∧ SamePreds g g' ∧ SameK g g'
        ∧ RegsOutside s t g (acting s cv g h') (fun k => inRun d 1 k || inRun e 1 k)
        ∧ ∀ u ∈ acting s cv g h',
            let r := feedback ((etyFmt mt.dt).getD f32) mt.rnd mt.sat (readOp s g u a mt.st.words % 2 ^ etyBits mt.st) (readOp s g u e 1)
            ∀ k, (inRun d 1 k = true → readReg t g u k = BitVec.ofNat 32 r.1)
              ∧ (inRun e 1 k = true → inRun d 1 k = false → readReg t g u k = BitVec.ofNat 32 r.2))
    ∧ (mp.op.isPack = true → ∀ cv g h', Runs s (.cvtp h mp d a (some b) (some e)) .u cv g h' →
        let n := mp.op.count
        ∃ t g', exec (.cvtp h mp d a (some b) (some e)) s = .next t
        ∧ OnlyGroup s t cv ∧ GoesOn t cv g g' (nextPc cv.pc) ∧ SamePreds g g' ∧ SameK g g'
        ∧ RegsOutside s t g (acting s cv g h') (fun k => inRun d 1 k || inRun e n k)
        ∧ ∀ u ∈ acting s cv g h',
            let src := readOp s g u a (n / 2) + 2 ^ (16 * n) * readOp s g u b (n / 2)
            let r := fun j => feedback ((etyFmt mp.pt).getD f32) mp.rnd mp.sat (src / 2 ^ (32 * j) % 2 ^ 32) (readOp s g u (regAt e j) 1)
            (∀ k, inRun d 1 k = true →
              readReg t g u k = BitVec.ofNat 32 ((List.range n).map (fun j => 2 ^ (etyBits mp.pt * j) * (r j).1)).sum)
            ∧ ∀ j < n, ∀ k, inRun (regAt e j) 1 k = true → inRun d 1 k = false → readReg t g u k = BitVec.ofNat 32 (r j).2)
    ∧ ∀ cv g h', Runs s (.hcmp h mh d a b co) .u cv g h' → ∃ t g', exec (.hcmp h mh d a b co) s = .next t
        ∧ OnlyGroup s t cv ∧ GoesOn t cv g g' (nextPc cv.pc) ∧ SameRegs s t ∧ SameK g g'
        ∧ ∀ u k i, k < 16 → i < 4 → (g.mandrel = true → i = 0) → bit ((g'.thread u).pred k) i =
            if u ∈ cv.tids ∧ k ≠ 0 ∧ isPred d k ∧ subGuard s g h' u 16 (i / 2) = true then
              bit (out mh.bop (fcmp mh.cmp ((if mh.bf then bf16 else f16).dec (sub 16 (readOp s g u a 1) (i / 2)))
                ((if mh.bf then bf16 else f16).dec (sub 16 (readOp s g u b 1) (i / 2)))) (readP s g u (co.getD .zero))) i
            else bit ((g.thread u).pred k) i

/-- The cross-lane instructions complete with the values of the participants alone, and LXCH with a segment wider than the group raises
Illegal Instruction (R318, R319, R320, R321, R322, R323). -/
def Obligations.CrossLane : Prop :=
  ∀ (s : State) (h : Hdr) (ml : LxchMod) (mp : PcolMod) (mx : XredMod) (mf : XfindMod) (mr : XfredMod) (d a b co : Opnd) (imm : BitVec 32),
    let src : LxMode → Nat → Nat → Nat → Int := fun mode seg j b => (match mode with
      | .pick => (b : Int)
      | .rot => (((j + b) % seg : Nat) : Int)
      | .slide => (j : Int) + (BitVec.ofNat 32 b).toInt
      | .flip => ((j ^^^ b : Nat) : Int))
    let seg := fun (g : Group) => if ml.seg.val = 0 then g.width else 2 ^ ml.seg.val
    let lane := fun (x : Nat → Nat) (g : Group) (u : Nat) => src ml.mode (seg g) (u % seg g) (x u)
    let found := fun (x : Nat → Nat) (g : Group) (us : List Nat) (u : Nat) =>
      0 ≤ lane x g u ∧ lane x g u < seg g ∧ u - u % seg g + (lane x g u).toNat ∈ us
    let take := fun (x : Nat → Nat) (s : State) (g : Group) (us : List Nat) (u : Nat) =>
      if found x g us u then readV s g (u - u % seg g + (lane x g u).toNat) a ml.w64 else readV s g u a ml.w64
    let both := fun (i : Instr) (c : Convoy) (g : Group) (us : List Nat) (n : Nat) (v p : Nat → Nat) =>
      ∃ t g', exec i s = .next t ∧ OnlyGroup s t c ∧ GoesOn t c g g' (nextPc c.pc) ∧ Wrote s t g g' us d n v ∧ WrotePred g g' us co p
    let wide := fun (i : Instr) => ∀ c g h', Runs s i .u c g h' → ml.seg.val ≠ 0 → g.width < 2 ^ ml.seg.val →
      exec i s = .next (goEnds s c ((acting s c g h').map fun u => (u, .trap (illegal (wordBytes i)))))
    (∀ c g h', Runs s (.lxch h ml d a b none) .u c g h' → 2 ^ ml.seg.val ≤ g.width →
        Writes s (.lxch h ml d a b none) c g (acting s c g h') d (W ml.w64) (take (fun u => readOp s g u b 1) s g (acting s c g h')))
    ∧ (∀ c g h', Runs s (.lxchImm h ml d a imm) .u c g h' → 2 ^ ml.seg.val ≤ g.width →
        Writes s (.lxchImm h ml d a imm) c g (acting s c g h') d (W ml.w64) (take (fun _ => imm.toNat) s g (acting s c g h')))
    ∧ (∀ c g h', Runs s (.lxch h ml d a b (some co)) .u c g h' → 2 ^ ml.seg.val ≤ g.width →
        let us := acting s c g h'
        both (.lxch h ml d a b (some co)) c g us (W ml.w64) (take (fun u => readOp s g u b 1) s g us)
          (fun u => if found (fun u => readOp s g u b 1) g us u then 15 else 0))
    ∧ wide (.lxch h ml d a b none) ∧ wide (.lxch h ml d a b (some co)) ∧ wide (.lxchImm h ml d a imm)
    ∧ (mp.mode = .every → ∀ c g h', Runs s (.pcol h mp d a) .u c g h' → WritesPred s (.pcol h mp d a) c g (acting s c g h') d
        (fun _ => if ∀ u ∈ acting s c g h', bit (readP s g u a) mp.pb.val = true then 15 else 0))
    ∧ (mp.mode = .any_ → ∀ c g h', Runs s (.pcol h mp d a) .u c g h' → WritesPred s (.pcol h mp d a) c g (acting s c g h') d
        (fun _ => if ∃ u ∈ acting s c g h', bit (readP s g u a) mp.pb.val = true then 15 else 0))
    ∧ (mp.mode = .same → ∀ c g h', Runs s (.pcol h mp d a) .u c g h' → WritesPred s (.pcol h mp d a) c g (acting s c g h') d
        (fun _ => if ∀ u ∈ acting s c g h', ∀ v ∈ acting s c g h', bit (readP s g u a) mp.pb.val = bit (readP s g v a) mp.pb.val then 15 else 0))
    ∧ (mp.mode = .mask → mp.pair = false → DoesAll s (.pcol h mp d a) d (fun g => maskRegs g.width) (fun s g us _ =>
        ((us.filter (fun u => bit (readP s g u a) mp.pb.val)).map (fun u => 2 ^ u)).sum))
    ∧ (mp.mode = .mask → mp.pair = true → DoesAll s (.pcol h mp d a) d (fun g => maskRegs (2 * g.width)) (fun s g us _ =>
        (us.map (fun u => 4 ^ u * ((bit (readP s g u a) 0).toNat + 2 * (bit (readP s g u a) 2).toNat))).sum))
    ∧ (mp.mode = .count → DoesAll s (.pcol h mp d a) d (fun _ => 1) (fun s g us _ => (us.filter (fun u => bit (readP s g u a) mp.pb.val)).length))
    ∧ DoesAll s (.xred h mx d a) d (fun _ => W mx.w64) (fun s g us _ => combineX mx (us.map (fun u => readV s g u a mx.w64)))
    ∧ DoesAll s (.xscan h mx d a) d (fun _ => W mx.w64) (fun s g us u =>
        combineX mx ((us.filter (fun v => if mx.excl then decide (v < u) else decide (v ≤ u))).map (fun v => readV s g v a mx.w64)))
    ∧ DoesAll s (.xfind h mf d a none) d (fun g => maskRegs g.width) (fun s g us u =>
        ((us.filter (fun v => readV s g v a mf.w64 == readV s g u a mf.w64)).map (fun v => 2 ^ v)).sum)
    ∧ (∀ c g h', Runs s (.xfind h mf d a (some co)) .u c g h' →
        let us := acting s c g h'
        both (.xfind h mf d a (some co)) c g us (maskRegs g.width)
          (fun u => ((us.filter (fun v => readV s g v a mf.w64 == readV s g u a mf.w64)).map (fun v => 2 ^ v)).sum)
          (fun u => if ∀ v ∈ us, readV s g v a mf.w64 = readV s g u a mf.w64 → u ≤ v then 15 else 0))
    ∧ (mr.op = .add → DoesAll s (.xfred h mr d a) d (fun _ => W mr.w64) (fun s g us _ =>
        rnd (if mr.w64 then f64 else f32) mr.rnd
          (sumFl (mr.rnd == .rd) (us.map (fun u => (if mr.w64 then f64 else f32).dec (readV s g u a mr.w64))))))
    ∧ (mr.op ≠ .add → DoesAll s (.xfred h mr d a) d (fun _ => W mr.w64) (fun s g us _ =>
        (us.map (fun u => readV s g u a mr.w64)).foldl (minMaxF (if mr.w64 then f64 else f32) (decide (mr.op = .max)))
          ((us.map (fun u => readV s g u a mr.w64)).headD 0)))

/-- Branches, calls, jump tables, YIELD, NOP and EXIT complete and transfer the acting threads; a thread whose target fails its check
takes the trap of R248 and the others complete; EXIT of a server lane that still owes an SVRET replays it first (R247, R264, R265,
R292, R293, R294, R295). -/
def Obligations.ControlFlow : Prop :=
  ∀ (s : State) (h : Hdr) (d a b : Opnd) (imm : BitVec 32),
    let goTo := fun (link : Option Opnd) (x : State) (g : Group) (u : Nat) (p : Option DWord) =>
      match p with
      | none => (x, Done.trap (badTarget (2 ^ 64 - 1)))
      | some p => match checkTarget x g p with
        | (x, none) => ((match link with
            | some d => writeOp x g u d (nextPc (g.thread u).pc).toNat 2
            | none => x), Done.jump p)
        | (x, some e) => (x, trapDone e)
    let back := fun (p : Nat) (e : Done) => match e with
      | .trap t => Done.trap { t with addr := p, page := some (p / 4096) }
      | k => k
    let owed := fun (g : Group) (x : State) (u : Nat) =>
      match findGroup x g.gid with
      | none => x
      | some y => match (y.thread u).token with
        | none => x
        | some k => if k.caller = true then
            svretToken (onThread x g.gid u (fun z => { z with token := none })) y u k { form := .replay, a := 0, b := none } else x
    let table := fun (link : Option Opnd) (s : State) (g : Group) (x : State) (u : Nat) =>
      let tbl := readOp s g u a 2
      let idx := readOp s g u b 1
      (okGot (loadBytes x g u g.own tbl 8 0) fun x j => (x, leNat j)).bind fun j =>
      (okGot (loadBytes j.1 g u g.own ((tbl + 8) % 2 ^ 64) 8 0) fun x n => (x, leNat n)).bind fun n =>
      if idx < n.2 ∧ n.2 ≤ 65536 ∧ (j.2 = 0 ∨ pcOk j.2 = true) then
        (okGot (loadBytes n.1 g u g.own ((tbl + 16 + 8 * idx) % 2 ^ 64) 8 0) fun x p => (x, leNat p)).bind fun p =>
        let r := goTo link p.1 g u (some (BitVec.ofNat 64 p.2))
        some (match r.2 with
          | .jump _ => (onThread r.1 g.gid u (fun y => { y with jpc := BitVec.ofNat 64 j.2, jarr := false }), r.2)
          | _ => r)
      else none
    DoesAlways s (.nop h) .u (fun _ _ x _ => x)
    ∧ DoesEnds s (.bra h imm) .u (fun _ g x u => some (goTo none x g u (branchTarget (g.thread u).pc imm)))
    ∧ DoesEnds s (.call h d imm) .u (fun _ g x u => some (goTo (some d) x g u (branchTarget (g.thread u).pc imm)))
    ∧ DoesEnds s (.ret h a) .u (fun s g x u =>
      let p := BitVec.ofNat 64 (readOp s g u a 2)
      let r := goTo none x g u (some p)
      some (r.1, back p.toNat r.2))
    ∧ DoesEnds s (.brx h a b) .u (table none)
    ∧ DoesEnds s (.callx h d a b) .u (table (some d))
    ∧ (∀ c g h', Runs s (.yield h) .u c g h' → exec (.yield h) s = .next (goOn
        (if acting s c g h' = [] ∨ g.mandrel = true then s
          else onGroup s g.gid (fun x => { x with yielded := true })) c))
    ∧ (∀ c g h', Runs s (.exit h) .u c g h' → exec (.exit h) s = .next (flushRecs (reap (exitTeam
        (goEnds ((acting s c g h').foldl (owed g) s) c ((acting s c g h').map fun u => (u, .exit))) c.gid))))
    ∧ ∀ c g h', Runs s (.exit h) .u c g h' → ∃ t, exec (.exit h) s = .next t
        ∧ (∀ g', findGroup t c.gid = some g' → ∀ u ∈ acting s c g h', (g'.thread u).st = .exited)
        ∧ ((s.cores.groups.map (·.gid)).Nodup → g.resid = .core → (∀ u, (g.thread u).token = none) →
            (∀ u, u ∉ acting s c g h' → (g.thread u).st = .exited) → swageOf s g.gid = false → anvilOf s g.gid = false →
            findGroup t c.gid = none)

/-- Loads and prefetches complete with the value read, extended, in their register (R325, R328, R329, R331, R332, R333, R334). What an
acquire meets (`hear`, `acquireBy`) is the model's account of chapter 8's chains, which only code-write marks rest on (log 99). -/
def Obligations.Loads : Prop :=
  ∀ (s : State) (h : Hdr) (m : MemMod) (mp : ProbeMod) (ml : LdsMod) (d a b : Opnd) (imm : BitVec 32),
    let off := sext 32 imm.toNat
    let ext := fun (z : Sz) (v : Nat) => match z with
      | .sb => wrap 32 (sext 8 v)
      | .sh => wrap 32 (sext 16 v)
      | _ => v
    let acq := fun (since : Nat) (x : State) (g : Group) (u : Nat) (sc : Scope) =>
      if sc = .thread then x else acquireBy x g [u] (scopeRank sc) since
    DoesEach s (.ld h m d a b imm) .u (fun s g x u => (usrCtx s g u m.usr).bind fun c =>
      okGot (loadBytes x g u c (ea s g u a b m.sh.val off) m.sz.bytes h.hint.val) fun y v =>
        acq x.mem.clock (writeOp y g u d (ext m.sz (leNat v)) m.sz.words) g u m.scope)
    ∧ DoesEach s (.ldProbe h mp d a b imm) .u (fun s g x u => (usrCtx s g u mp.usr).bind fun c =>
      match loadBytes x g u c (ea s g u a b mp.sh.val off) mp.sz.bytes h.hint.val with
      | (y, .ok v) => some (acq x.mem.clock (writeP (writeOp y g u d (leNat v) mp.sz.words) g u (.p mp.pd) 15) g u mp.scope)
      | (y, .error (.trap e)) => if e.cause ≠ 0x0E ∧ e.s2 = false then some (writeP y g u (.p mp.pd) 0) else none
      | (_, .error _) => none)
    ∧ DoesAlways s (.prf h m a b imm) .u (fun s g x u => prefetch x g (ea s g u a b m.sh.val off) h.hint.val)
    ∧ DoesEach s (.lds h ml d a b imm) .u (fun s g x u =>
      (okGot (spadAccess x g u ml.swz ml.win.val (spadOff s g u a b ml.sh.val off) ml.sz.bytes false) Prod.mk).bind fun r =>
        if wordsBad r.1 g.core r.2.1 = true then none
        else
          let v := sramRead r.1 g.core r.2.1 r.2.2 ml.sz.bytes
          some (writeOp (hearSpad r.1 g u r.2.1 r.2.2 v) g u d (ext ml.sz (leNat v)) ml.sz.words))
    ∧ DoesEach s (.ldm h m d a b imm) .h (fun s g x u =>
      let va := ea s g u a b m.sh.val off
      if va % m.sz.bytes = 0 ∧ va < 2 ^ 40 ∧ mapBad x va = false ∧ mapOpen va m.sz.bytes = false then
        let v := mapRead x va m.sz.bytes
        let y := match mapLoc x va with
          | some l => hear (tick x) (threadAgent g.gid u) l (leBytes m.sz.bytes (leNat v))
          | none => x
        some (acq x.mem.clock (writeOp y g u d (ext m.sz (leNat v)) m.sz.words) g u m.scope)
      else none)

/-- Stores complete with their bytes written, and a checked store that its bound stops takes Bounds Violation, while the other threads
store (R163, R234, R235, R325, R328, R330, R332, R333, R334). When the checks of a stopped store come before its bound (log 128), and that
the releases a store carries stay with its word (logs 99, 170), are the model's choices. -/
def Obligations.Stores : Prop :=
  ∀ (s : State) (h : Hdr) (m : MemMod) (mb : BcMod) (ml : LdsMod) (d a b : Opnd) (imm : BitVec 32),
    let off := sext 32 imm.toNat
    let whole := fun (g : Group) (us : List Nat) (q : Nat → Option MemCtx) (n : Nat) (va : Nat → Nat) (x : State) =>
      ((us.filterMap q).eraseDups).foldl (fun x k => cleanWhole x g k n ((us.filter (fun u => q u == some k)).map va)) x
    (∀ c g h' t l, Runs s (.st h (.plain m) d a b imm) .u c g h' →
        let at' := fun u => ea s g u a b m.sh.val off
        let good := (acting s c g h').filter (fun u => at' u % m.sz.bytes == 0 && !storesOut s g [u] (scopeRank m.scope))
        let first := ((good.filterMap (fun u => usrCtx s g u m.usr)).eraseDups).foldl (fun x k =>
          claimWhole x g k m.sz.bytes h.hint.val ((good.filter (fun u => usrCtx s g u m.usr == some k)).map at')) s
        inTurn (fun x u => (usrCtx s g u m.usr).bind fun q =>
          okGot (storeBytes x g u q (ea s g u a b m.sh.val off) (leBytes m.sz.bytes (readOp s g u d m.sz.words)) m.col.val h.hint.val
            (scopeRank m.scope)) fun x _ => (x, .next)) (acting s c g h') first = some (t, l) →
        exec (.st h (.plain m) d a b imm) s = .next (goOn
          (whole g (acting s c g h') (fun u => usrCtx s g u m.usr) m.sz.bytes (fun u => ea s g u a b m.sh.val off) t) c))
    ∧ (∀ c g h' t l, Runs s (.st h (.bc mb) d a b imm) .u c g h' →
        let r := boundOf s g.core g.vd mb.bnd.val
        let w := etyBits mb.ety
        let es := fun u => (List.range (mb.sz.bytes / mb.ety.size)).map (fun j =>
          readOp s g u d mb.sz.words / 2 ^ (w * j) % 2 ^ w)
        let bads := fun u => (es u).filter (r.violates mb.ety)
        let bad := (acting s c g h').flatMap bads
        let stops := fun u => r.action = 2 ∧ bads u ≠ []
        inTurn (fun x u => if stops u then okGot (storeCheck x g g.own (ea s g u a b 0 off) mb.sz.bytes) fun x _ =>
            (x, .trap { cause := 0x0A, addr := mb.bnd.val, arg := leBytes 8 ((bads u).headD 0) })
          else okGot (storeBytes x g u g.own (ea s g u a b 0 off)
            ((es u).flatMap (fun e => leBytes mb.ety.size (if r.action = 1 ∧ r.violates mb.ety e = true then r.clamped mb.ety e else e)))
            mb.col.val h.hint.val 0) fun x _ => (x, .next)) (acting s c g h') s = some (t, l) →
        exec (.st h (.bc mb) d a b imm) s = .next (goEnds
          (let y := cleanWhole t g g.own mb.sz.bytes (((acting s c g h').filter (fun u => ¬stops u)).map (fun u => ea s g u a b 0 off))
            if bad = [] then y
            else
              let z := countViol y g.core g.vd mb.bnd.val bad.length
              if r.action = 0 then
                boundRec z g.core g.vd mb.bnd.val bad.length (bad.headD 0) (some c.pc.toNat) (workTag z g.owner)
              else z) c l))
    ∧ (∀ c g h' t l, Runs s (.sts h ml d a b imm) .u c g h' →
        inTurn (fun (x : State × List Nat) u =>
          okGot (spadAccess x.1 g u ml.swz ml.win.val (spadOff s g u a b ml.sh.val off) ml.sz.bytes true) fun y p =>
            let v := leBytes ml.sz.bytes (readOp s g u d ml.sz.words)
            ((tellSpad (sramWrite y g.core p.1 p.2 v) g u p.1 p.2 v [], x.2 ++ spadBytes p.1 p.2 ml.sz.bytes), .next))
          (acting s c g h') (s, []) = some (t, l) →
        exec (.sts h ml d a b imm) s = .next (goOn (cleanUnits t.1 g.core t.2) c))
    ∧ (∀ c g h', Runs s (.stm h m d a b imm) .h c g h' →
        let va := fun u => ea s g u a b m.sh.val off
        (∀ u ∈ acting s c g h', va u % m.sz.bytes = 0 ∧ va u < 2 ^ 40 ∧ ∀ o ∈ s.net.remoteOps, o.store = true → o.gid ≠ g.gid) →
        exec (.stm h m d a b imm) s = .next (goOn
          ((wholeUnits m.sz.bytes ((acting s c g h').map va)).foldl (fun x k =>
              if mapUnit (32 * k) < 832 then
                match mapCell x (mapUnit (32 * k)) (mapOff (32 * k)) with
                | .sram w => setSramBad x (mapUnit (32 * k)) w false
                | _ => x
              else x)
            ((acting s c g h').foldl (fun x u =>
              let v := leBytes m.sz.bytes (readOp s g u d m.sz.words)
              let y := mapWrite x (va u) v
              let y := match mapLoc y (va u) with
                | some l => tell y l v (storeRels y (threadAgent g.gid u) g.core (scopeRank m.scope))
                | none => y
              if m.scope = .thread then y else releaseBy y g [u] (scopeRank m.scope) 0xFF) s)) c))

/-- Atomics complete with the old value in d, and with the new value in the word: of local SRAM, and of memory at the point of their scope
(R198, R335, R336, R337). That the releases an atomic's store carries are part of the state is the model's account of chapter 8
(log 99). -/
def Obligations.Atomics : Prop :=
  ∀ (s : State) (h : Hdr) (m : AtomMod) (mc : CasMod) (ms : AtomsMod) (mk : CassMod) (d a b c e : Opnd) (imm : BitVec 32),
    let off := sext 32 imm.toNat
    let rmw := fun (va : State → Group → Nat → Nat) (data : Opnd) (f : State → Group → Nat → Nat → State)
        (s : State) (g : Group) (x : State) (u : Nat) =>
      okGot (atomic x g u (va s g u) (nBits m.w64 / 8) h.hint.val (.op m.op m.u (readV s g u data m.w64)) m.col.val (scopeRank m.scope) m.rel m.acq)
        fun x old => f x g u old
    let old := fun (d : Opnd) (x : State) (g : Group) (u v : Nat) => writeOp x g u d v (W m.w64)
    let put := fun (x : State) (g : Group) (u : Nat) (ws : List Nat) (o : Nat) (old new : Bytes) =>
      let on := (spadParts g.core ws o old).flatMap (fun p =>
        (heard x p.1 p.2).filter (fun r => shares r.scope r.agent r.core (threadAgent g.gid u) g.core))
      tellSpad (sramWrite (hearSpad x g u ws o old) g.core ws o new) g u ws o new on
    let spad := fun (data : Opnd) (f : State → Group → Nat → Nat → State) (s : State) (g : Group) (x : State) (u : Nat) =>
      let n := nBits ms.w64 / 8
      (okGot (spadAccess x g u ms.swz ms.win.val (spadOff s g u a .zero 0 off) n true) Prod.mk).bind fun r =>
        if wordsBad r.1 g.core r.2.1 = true then none
        else
          let v := sramRead r.1 g.core r.2.1 r.2.2 n
          let new := leBytes n (atomNew ms.op ms.u (8 * n) (leNat v) (readV s g u data ms.w64))
          some (f (put r.1 g u r.2.1 r.2.2 v new) g u (leNat v))
    DoesEach s (.atom h m d a b c) .u (rmw (fun s g u => ea s g u a b m.sh.val 0) c (old d))
    ∧ DoesEach s (.atomImm h m d a b imm) .u (rmw (fun s g u => ea s g u a .zero 0 off) b (old d))
    ∧ DoesEach s (.red h m a b c) .u (rmw (fun s g u => ea s g u a b m.sh.val 0) c (fun x _ _ _ => x))
    ∧ DoesEach s (.redImm h m a b imm) .u (rmw (fun s g u => ea s g u a .zero 0 off) b (fun x _ _ _ => x))
    ∧ DoesEach s (.cas h mc d a b c e) .u (fun s g x u =>
      let k := mc.csz.words
      okGot (atomic x g u (ea s g u a b mc.sh.val 0) (4 * k) h.hint.val (.cas (readOp s g u c k) (readOp s g u e k)) mc.col.val
        (scopeRank mc.scope) mc.rel mc.acq) fun x v => writeOp x g u d v k)
    ∧ DoesEach s (.atoms h ms d a b imm) .u (spad b (fun x g u v => writeOp x g u d v (W ms.w64)))
    ∧ DoesEach s (.reds h ms a b imm) .u (spad b (fun x _ _ _ => x))
    ∧ DoesEach s (.cass h mk d a b c e) .u (fun s g x u =>
      let k := mk.csz.words
      (okGot (spadAccess x g u mk.swz mk.win.val (spadOff s g u a b mk.sh.val 0) (4 * k) true) Prod.mk).bind fun r =>
        if wordsBad r.1 g.core r.2.1 = true then none
        else
          let v := sramRead r.1 g.core r.2.1 r.2.2 (4 * k)
          some (writeOp (if leNat v = readOp s g u c k then put r.1 g u r.2.1 r.2.2 v (leBytes (4 * k) (readOp s g u e k))
            else hearSpad r.1 g u r.2.1 r.2.2 v) g u d (leNat v) k))
    ∧ (∀ (o : AOp) (w : Bool) (n old v x y : Nat), (Rmw.op o w v).apply n old = some (atomNew o w (8 * n) old v)
        ∧ (Rmw.cas x y).apply n old = if old = x then some y else none)
    ∧ ∀ (g : Group) (u va n col sc : Nat) (r : Rmw) (y z : State) (loc : Xl) (p : Nat) (bs : Bytes),
        locate s g g.own va n true true = (y, .ok loc) → loc.target = .spa p → lineBad y (nameOf y g g.own va p) p = false →
        pointRead y (nameOf y g g.own va p) p n (max 1 sc) loc.w loc.sl = (z, .ok (bs, false)) → bs.length = n →
        (∀ v q, r.apply n (leNat bs) = some v →
          pointWrite z (nameOf y g g.own va p) p (max 1 sc) (leBytes n v) (Writer.thread y g.gid u col) = (q, none) →
          ∃ t, atomic s g u va n 0 r col sc false false = (t, .ok (leNat bs)) ∧ t.mem.cells = q.mem.cells
            ∧ (5 ≤ sc → readMem t p n = leBytes n v))
        ∧ (r.apply n (leNat bs) = none → ∃ t, atomic s g u va n 0 r col sc false false = (t, .ok (leNat bs)) ∧ t.mem.cells = z.mem.cells)

/-- Fences, named barriers, the cluster barrier and WAITA complete with their orders and phases (R338, R339, R340, R342, R343,
R344, R345, R347, R348, R349, R142). That a BAR.SYNC arrives and then waits thread by thread (log 130), that a CBAR arrives for all
its threads before any waits (log 131), and what the channels of a barrier carry from its arrivals to its returns (log 99) are the
model's choice. -/
def Obligations.FencesAndBarriers : Prop :=
  ∀ (s : State) (h : Hdr) (mf : FenceMod) (mp : PfenceMod) (m : BarMod) (ma : BarArrMod) (mc : CbarMod) (mw : WaitaMod) (d a b e : Opnd)
    (imm : BitVec 32),
    let mask := (mf.mask.map (·.val)).getD 0xFF
    let arrive := fun (n : Nat → Nat) (g : Group) (x : State) (u : Nat) =>
      let q := barOf x g.blk ma.id.val
      if n u ≤ 65535 ∧ (n u = 0 → q.expect ≠ 0) ∧ (n u ≠ 0 → q.expect = 0 ∨ q.expect.toNat = n u) then
        let x := if q.expect = 0 then onBar x g.blk ma.id.val (fun q => { q with expect := BitVec.ofNat 16 (n u) }) else x
        let x := onThread x g.gid u (fun y =>
          { y with tok := setBar16 y.tok ma.id.val q.phase, pend := setBar16 y.pend ma.id.val true })
        some (barCount (sendBy (crossBy x g [u] 0 ma.pm.val) g [u] 2 0xFF (.bar g.blk ma.id.val false)) g.blk ma.id.val)
      else none
    let waitOn := fun (j : Nat) (g : Group) (x : State) (u : Nat) =>
      let y := ((findGroup x g.gid).getD g).thread u
      let ph := (barOf x g.blk j).phase
      if bar16 y.pend j = true then
        if bar16 y.tok j = ph then some (x, Done.wait (.bar j))
        else some (recvBy (onThread x g.gid u (fun y => { y with pend := setBar16 y.pend j false })) g [u] 2 (.bar g.blk j true), Done.next)
      else some (onThread x g.gid u (fun y => { y with tok := setBar16 y.tok j ph }), Done.wait (.bar j))
    let arriveAll := fun (i : Instr) (n : Group → Nat → Nat) => ∀ c g h' t l, Runs s i .u c g h' →
      inTurn (fun x u => (arrive (n g) g x u).map (·, Done.next)) (acting s c g h') s = some (t, l) →
      exec i s = .next (goOn t c)
    let syncOne := fun (n : Nat → Nat) (g : Group) (x : State) (u : Nat) =>
      (arrive n g x u).bind fun x => (waitOn ma.id.val g x u).map fun e =>
        match e.2 with
        | .wait w => (onThread e.1 g.gid u (fun y => { y with st := .wait w }), .wait w)
        | k => (e.1, k)
    let syncAll := fun (i : Instr) (n : Group → Nat → Nat) => ∀ c g h' t l, Runs s i .u c g h' →
      inTurn (syncOne (n g) g) (acting s c g h') s = some (t, l) →
      exec i s = .next (goEnds t c (l.map fun e =>
        if e.2 = Done.wait (.bar ma.id.val) ∧ (((findGroup t g.gid).getD g).thread e.1).st ≠ .wait (.bar ma.id.val) then (e.1, Done.next) else e))
    let init := fun (i : Instr) (n : Group → Nat → Nat) => ∀ c g h' u, Runs s i .u c g h' → (acting s c g h').getLast? = some u →
      1 ≤ n g u → n g u ≤ 65535 → (barOf s g.blk m.id.val).out = 0 → barWaiters s g.blk m.id.val = false →
      exec i s = .next (goOn (onBar s g.blk m.id.val (fun q => { q with expect := BitVec.ofNat 16 (n g u), arr := 0 })) c)
    let cbarWait := fun (team : Nat) (g : Group) (x : State) (u : Nat) =>
      let y := ((findGroup x g.gid).getD g).thread u
      let ph := x.cores.teams.at false team
      if y.cpend = true then
        if y.ctok = ph then some (x, Done.wait .cbar) else
          some (recvBy (onThread x g.gid u (fun y => { y with cpend := false })) g [u] 3 (.cbar team true), Done.next)
      else some (onThread x g.gid u (fun y => { y with ctok := ph }), Done.wait .cbar)
    let look := fun (tmo : State → Group → Nat → Nat) (s : State) (g : Group) (x : State) (u : Nat) =>
      if mw.space = .map ∧ g.priv ≠ .h then none
      else
        let va := readOp s g u a (if mw.space = .spad then 1 else 2)
        (okGot (waPlace x g mw.space va (nBits mw.w64 / 8)) Prod.mk).bind fun p =>
          let r : WaitRec :=
            { place := p.2, va := va, w64 := mw.w64, cmp := mw.cmp, scope := mw.scope, arg := readV s g u b mw.w64, d := d,
              deadline := if tmo s g u = 0xFFFFFFFF then none else some (p.1.sch.cycle + (tmo s g u * 13 + 9) / 10) }
          okGot (waWord p.1 g u r (scopeRank mw.scope)) fun x w =>
            if waHolds mw.cmp mw.w64 w r.arg = true then
              (if mw.scope = .thread then writeP x g u d 15
                else acquireBy (writeP x g u d 15) g [u] (scopeRank mw.scope) p.1.mem.clock, Done.next)
            else if tmo s g u = 0 then (writeP x g u d 0, Done.next)
            else (x, Done.wait (.waita r))
    let covered := fun (x : State) (g : Group) (us : List Nat) =>
      us.foldl (fun x u => Machine.cross x (threadAgent g.gid u) mp.frm.code mp.dst.val) x
    let moved := fun (g : Group) (us : List Nat) (dst : Nat) => (threadVds s g us).foldl (fun x v => crossing x g.core v dst) s
    (∀ c g h', Runs s (.fence h mf) .u c g h' →
        let sc := scopeRank mf.scope
        let out := fun u => mf.kind ≠ .acq ∧ storesOut s g [u] sc = true
        let us := (acting s c g h').filter (fun u => ¬out u)
        let x := match mf.kind with
          | .rel => fenceBy s g us sc mask
          | .acq => acquireBy s g us sc 0
          | .ar => acquireBy (fenceBy s g us sc mask) g us sc 0
        exec (.fence h mf) s = .next (goEnds x c (((acting s c g h').filter (fun u => out u)).map fun u => (u, .wait .remote))))
    ∧ (mp.frm = .ls → DoesOnce s (.pfence h mp) .u (fun g us => covered (moved g us mp.dst.val) g us))
    ∧ (mp.frm = .mx ∨ mp.frm = .sw ∨ mp.frm = .wk ∨ mp.frm = .if_ →
        DoesOnce s (.pfence h mp) .u (fun g us => covered (moved g us (nAnd mp.dst.val 0x1F8)) g us))
    ∧ (mp.frm = .ne ∨ mp.frm = .co ∨ mp.frm = .sg ∨ mp.frm = .lq →
        DoesOnce s (.pfence h mp) .u (fun g us => covered (if bit mp.dst.val 7 = true then moved g us 0x80 else s) g us))
    ∧ init (.barInit h m a) (fun g u => readOp s g u a 1)
    ∧ (1 ≤ imm.toNat → imm.toNat ≤ 65535 → init (.barInitImm h m imm) (fun _ _ => imm.toNat))
    ∧ arriveAll (.barArrive h ma a) (fun g u => readOp s g u a 1)
    ∧ (imm.toNat ≤ 65535 → arriveAll (.barArriveImm h ma imm) (fun _ _ => imm.toNat))
    ∧ DoesEnds s (.barWait h m) .u (fun _ g x u => waitOn m.id.val g x u)
    ∧ syncAll (.barSync h ma a) (fun g u => readOp s g u a 1)
    ∧ (imm.toNat ≤ 65535 → syncAll (.barSyncImm h ma imm) (fun _ _ => imm.toNat))
    ∧ (∀ c g h', Runs s (.barInv h m) .u c g h' → (barOf s g.blk m.id.val).out = 0 → barWaiters s g.blk m.id.val = false →
        exec (.barInv h m) s = .next (goOn (if acting s c g h' = [] then s
          else onBar s g.blk m.id.val (fun q => { q with expect := 0, arr := 0 })) c))
    ∧ (∀ c g h' team, Runs s (.cbar h mc) .u c g h' → (blockOf s g).bind (·.team) = some team →
        let us := acting s c g h'
        let x := if us = [] ∨ mc.mode = .wait then s
          else us.foldl (fun x u => cbarArrive x g u team mc.pm.val) s
        (mc.mode = .arrive → exec (.cbar h mc) s = .next (goOn x c))
        ∧ (mc.mode ≠ .arrive → ∀ y l, inTurn (cbarWait team g) us x = some (y, l) →
            exec (.cbar h mc) s = .next (goEnds y c l)))
    ∧ DoesEnds s (.waita h mw d a b e) .u (look (fun s g u => readOp s g u e 1))
    ∧ DoesEnds s (.waitaImm h mw d a b imm) .u (look (fun _ _ _ => imm.toNat))

/-- Windows, seals, cache control, IINV and ISYNC complete with the states of their rules, SEAL, UNSEAL and CCTL waiting for a page being
migrated (R209, R350, R351, R352, R353, R354, R355, R356, R357). That WIN.RETIRE of a PRESENT window of KIND DRAIN, which no event
makes, is left out is a premise. -/
def Obligations.WindowsAndCaches : Prop :=
  ∀ (s : State) (h : Hdr) (mu : UnsealMod) (mc : CctlMod) (d a b c : Opnd) (imm : BitVec 32),
    let named := fun (x : State) (g : Group) (i : Nat) =>
      i < rtCnt x g.vd ∧ ((winOf x g.core (rtBase x g.vd + i)).st = .empty ∨ (winOf x g.core (rtBase x g.vd + i)).blk = g.blk)
    let status := fun (g : Group) (u : Nat) (r : State × Option Nat) => match r.2 with
      | some st => (writeOp r.1 g u d st 1, Done.next)
      | none => (r.1, Done.wait .mig)
    DoesEach s (.winBind h d a b) .u (fun s g x u => okGot (loadDesc x g u (readOp s g u b 2)) fun x desc =>
      match blockOf x g with
      | none => writeOp x g u d 2 1
      | some blk => writeOp (winBind x g blk (readOp s g u a 1) desc).1 g u d (winBind x g blk (readOp s g u a 1) desc).2 1)
    ∧ (∀ (g : Group) (blk : Block) (i : Nat) (desc : Bytes),
        let e := rtBase s g.vd + i
        let w : Window := { st := if field desc 16 1 = 1 then .bound else .absent, desc := desc, blk := g.blk, vd := g.vd,
                            asid := g.asid, status := 0 }
        i < rtCnt s g.vd → ((winOf s g.core e).st = .empty ∨ (winOf s g.core e).st = .error ∧ (winOf s g.core e).blk = g.blk) →
        Window.valid s w blk = true →
        (∀ x ∈ blockWindows s blk, x.1 = e ∨ x.2.soff + x.2.slen ≤ w.soff ∨ w.soff + w.slen ≤ x.2.soff) →
        (bit w.act 2 = true → (blk.bar w.barid).expect ≠ 0 ∧ (blk.bar w.barid).out ≠ 32767) →
        (winBind s g blk i desc).2 = 0 ∧ winOf (winBind s g blk i desc).1 g.core e = w)
    ∧ DoesEnds s (.winTouch h a) .u (fun s g x u =>
        let i := readOp s g u a 1
        let e := rtBase x g.vd + i
        if named x g i then
          match (winOf x g.core e).st with
          | .absent => some (firstTouch x g.core e (some (g.gid, u)), .wait (.window e))
          | .filling => some (x, .wait (.window e))
          | .error => none
          | _ => some (x, .next)
        else none)
    ∧ DoesEnds s (.winRetire h a) .u (fun s g x u =>
        let i := readOp s g u a 1
        let e := rtBase x g.vd + i
        if named x g i then
          match (winOf x g.core e).st with
          | .bound => some (queueSwage (onWin x g.core e (fun w => { w with st := .draining })) g.core e true (some (g.gid, u)), .wait (.retire e))
          | .present => if (winOf x g.core e).kind = 1 then none else some (winEmpty x g.core e, .next)
          | .absent | .error => some (winDrop (winEmpty x g.core e) (winOf x g.core e), .next)
          | .filling => some (x, .wait (.window e))
          | .draining => some (x, .wait (.retire e))
          | .empty => some (x, .next)
        else none)
    ∧ DoesReg s (.winState h d a) d 1 (fun s g u =>
        let i := readOp s g u a 1
        let w := winOf s g.core (rtBase s g.vd + i)
        if named s g i then
          w.kind * 256 + (match w.st with
            | .empty => 0 | .absent => 1 | .filling => 2 | .present => 3 | .bound => 4 | .draining => 5 | .error => 6)
        else 0xFFFFFFFF)
    ∧ DoesEnds s (.seal h d a b c) .s (fun s g x u =>
        some (status g u (sealRange x g u (readOp s g u a 2) (readOp s g u b 1) (readOp s g u c 1))))
    ∧ DoesEnds s (.unseal h mu d a b c) .s (fun s g x u =>
        some (status g u (unsealRange x g.core g.vd (readOp s g u a 2) (readOp s g u b 1) (readOp s g u c 1) mu.sync)))
    ∧ DoesEnds s (.cctl h mc a b) .u (fun s g x u =>
        some (cctlPages x g mc (readOp s g u b 1 / 4096 + 2) (readOp s g u a 2) (readOp s g u b 1)))
    ∧ DoesEnds s (.cctlImm h mc a imm) .u (fun s g x u =>
        some (cctlPages x g mc 2 (wrap 64 ((readOp s g u a 2 : Int) + sext 32 imm.toNat)) 1))
    ∧ DoesAlways s (.iinv h a b) .u (fun s g x u =>
        let va := readOp s g u a 2
        let n := readOp s g u b 1
        x.onMem fun y => { y with l1i := y.l1i.filter (fun e => !(e.core == g.core && e.vd == g.vd
          && (n == 0 || (e.asid == g.asid && decide (e.va < va + n ∧ va < e.va + 64))))) })
    ∧ DoesOnce s (.isync h) .u (fun g _ => onGroup s g.gid (fun x => { x with ibuf := [] }))

/-- MXOP, MXDRAIN, MXWAIT, MXBURST and COLL.POST complete with a handle, a status or a wait (R180, R185, R359, R361, R363, R367,
R369, R370, R371). That the oldest waiting thread takes a free entry first (log 137), that MXDRAIN keeps the SOFF and SWZ of its issue
(log 139), and that the dirty lines of the issuing threads go to memory at issue (log 168) are the model's choice. -/
def Obligations.EngineInstructions : Prop :=
  ∀ (s : State) (h : Hdr) (m : MxdrainMod) (mw : MxwaitMod) (d a b c : Opnd) (ao : Option Opnd) (imm : BitVec 32),
    let accept := fun (g : Group) (x : State) (u : Nat) (mdr : Option MxdrainMod) (ops : Bytes) =>
      let x := issueWork x g [u]
      let q := x.loc.mxQueue.at [] (engineKey (clusterOfCore g.core) g.vd)
      let waiting := ∃ e ∈ q, ∀ k, findGroup x e.1 = some k → k.resid = .core
      let wait := (x.onLoc fun l => { l with mxQueue := l.mxQueue.put (engineKey (clusterOfCore g.core) g.vd) (q ++ [(g.gid, u)]) },
        Done.wait (.mxEntry d mdr ops x.sch.cycle))
      match freeEntry x (clusterOfCore g.core) g.vd with
      | some e =>
        if waiting then wait
        else (writeOp (takeEntry x g u e mdr ops x.sch.cycle).1 g u d (takeEntry x g u e mdr ops x.sch.cycle).2 1, Done.next)
      | none => wait
    let op := fun (off : State → Group → Nat → Nat) (s : State) (g : Group) (x : State) (u : Nat) =>
      let o := off s g u
      if o % 64 ≠ 0 ∨ ((blockOf x g).elim 0 fun b => 256 * b.rowCount) < o + 64 then some (writeOp x g u d 0x80000001 1, Done.next)
      else if ∀ j ∈ List.range 4, tileIn x g.vd (4 * j) = false then some (writeOp x g u d 0x80000008 1, Done.next)
      else some (accept g x u none (leBytes 4 o))
    let burst := fun (i : Instr) (n : Group → Nat → Nat) => ∀ c g h' u, Runs s i .u c g h' → (acting s c g h').getLast? = some u →
      exec i s = .next (goOn (onEngine s (clusterOfCore g.core) g.vd (fun x =>
        let k := min 65535 (n g u)
        let x := { x with withheldPasses := k, withheldCycles := if k = 0 then 0 else 1024 }
        if k = 0 then x
        else if x.burst = false then { x with burst := true, filler := 24 }
        else if x.down = true then { x with down := false, filler := 0 }
        else x)) c)
    DoesEnds s (.mxop h d a) .u (op (fun s g u => readOp s g u a 1))
    ∧ DoesEnds s (.mxopImm h d imm) .u (op (fun _ _ _ => imm.toNat))
    ∧ DoesEnds s (.mxdrain h m d a b c) .u (fun s g x u =>
        let i := readOp s g u a 1
        let w := winOf x g.core (rtBase x g.vd + i)
        let tile := readOp s g u b 1
        let o := readOp s g u c 1
        if ¬(i < rtCnt x g.vd ∧ (w.st = .empty ∨ w.blk = g.blk) ∧ (w.st = .present ∨ w.st = .bound)) then some (writeOp x g u d 0x80000002 1, .next)
        else if tileNamed x g.vd tile = false then some (writeOp x g u d 0x80000009 1, .next)
        else if o % 256 ≠ 0 ∨ w.slen < o + 4096 * (drainEty m.dt).size then some (writeOp x g u d 0x80000003 1, .next)
        else some (accept g x u (some m) (leBytes 4 w.soff ++ leBytes 4 w.swz ++ leBytes 4 tile ++ leBytes 4 o)))
    ∧ (∀ (g : Group) (u e at' : Nat) (mdr : Option MxdrainMod) (ops : Bytes),
        let r := takeEntry s g u e mdr ops at'
        let gen := (s.loc.gens.at 0 (entryKey (clusterOfCore g.core) e) + 1) % 65536
        r.2 = 65536 * e + gen ∧ ∃ x, r.1.loc.entries.find (entryKey (clusterOfCore g.core) e) = some x ∧ x.gen = gen ∧ x.gid = g.gid
          ∧ x.tid = u ∧ x.vd = g.vd ∧ x.order = mxOrder s g.core g.vd u ∧ x.issued = at' ∧ x.done = 0 ∧ x.mdr = mdr)
    ∧ (∀ c g h', Runs s (.mxwait h mw ao) .u c g h' →
        let waits := fun u => ao.elim (anvilOf s g.gid) fun r => mxPending s (clusterOfCore g.core) g.vd (readOp s g u r 1)
        let l := (acting s c g h').map (fun u =>
          (u, if waits u = true then Done.wait (.mxWait (ao.map fun r => BitVec.ofNat 32 (readOp s g u r 1))) else Done.next))
        let x := ((acting s c g h').filter (fun u => !waits u)).foldl (fun x u => match ao with
          | some r => recvBy x g [u] 3 (.anvil (clusterOfCore g.core) (readOp s g u r 1))
          | none => acquireBy x g [u] 3 s.mem.clock) s
        exec (.mxwait h mw ao) s = .next (goEnds x c l))
    ∧ burst (.mxburst h a) (fun g u => readOp s g u a 1)
    ∧ (imm.toNat ≤ 65535 → burst (.mxburstImm h imm) (fun _ _ => imm.toNat))
    ∧ DoesEach s (.collPost h d a) .u (fun s g x u => okGot (collPost x g u (readOp s g u a 2)) fun x st => writeOp x g u d st 1)

/-- TASK.POST, TASK.DEP and PHASE complete with their statuses, arms and waits (R101, R102, R106, R375, R376, R377). That counters that become
READY in one cycle stand in their queue by index (log 80), and LEN's statuses (log 84), are the model's choices. -/
def Obligations.TaskInstructions : Prop :=
  ∀ (s : State) (h : Hdr) (m : TaskDepMod) (d a b c : Opnd) (imm : BitVec 32),
    let arm := fun (clrp : Bool) (count : State → Group → Nat → Nat) (s : State) (g : Group) (x : State) (u : Nat) =>
      let k := readOp s g u b 1
      if handleOk x g.vd k = false then some (writeOp x g u d 2 1)
      else if clrp = true then
        if (counterAt x k).st = .free ∧ (counterAt x k).poison = true then
          some (writeOp (onCounter x k (fun c => { c with poison := false })) g u d 0 1)
        else some (writeOp x g u d 1 1)
      else if 65535 < count s g u then some (writeOp x g u d 5 1)
      else okGot (armThread x g u (readOp s g u a 2) k (count s g u)) fun x st => writeOp x g u d st 1
    let later := fun (x : Ready) (k : Nat) =>
      x.resume = none ∧ x.joined = s.sch.cycle ∧ k < (x.handle.getD 0).toNat
    DoesEach s (.taskPost h d a b) .u (arm false (fun _ _ _ => 0))
    ∧ DoesEach s (.taskDep h m d a b c) .u (arm m.clrp (fun s g u => readOp s g u c 1))
    ∧ (imm.toNat ≤ 65535 → (m.clrp = true → imm = 0) → DoesEach s (.taskDepImm h m d a b imm) .u (arm m.clrp (fun _ _ _ => imm.toNat)))
    ∧ (∀ (v asid k count : Nat) (p : Bytes), count < 65536 → k < 2 ^ 32 →
        let t := armCounter s v asid k count p
        (count ≠ 0 → counterAt t k = { st := .armed, value := BitVec.ofNat 16 count, poison := false, packet := p, vd := v, asid := asid }
          ∧ t.lq.ready = s.lq.ready)
        ∧ (count = 0 → counterAt t k = { st := .ready, value := 0, poison := false, packet := p, vd := v, asid := asid }
          ∧ ∃ front back, readyOf s v (pkTarget p (bits k 31 30)) = front ++ back
              ∧ readyOf t v (pkTarget p (bits k 31 30)) = front ++
                  { pri := pkPri p, handle := some (BitVec.ofNat 32 k), packet := p, vd := v, asid := asid, resume := none,
                    joined := s.sch.cycle } :: back
              ∧ (∀ x ∈ front, ¬later x k) ∧ ∀ x, back.head? = some x → later x k))
    ∧ ∀ c g h', Runs s (.phase h) .u c g h' → phased s g = true →
        exec (.phase h) s = .next (flushRecs (reap (goEnds s c ((acting s c g h').map (fun u => (u, .wait .phase))))))

/-- SYSCALL posts one entry a thread with its g1 to g7, and holds each thread for its own (R145, R146, R378). -/
def Obligations.SyscallEntry : Prop :=
  ∀ (s : State) (h : Hdr) (imm : BitVec 32) (c : Convoy) (g : Group) (h' : Hdr),
    Runs s (.syscall h imm) .u c g h' → g.priv ≠ .h →
    ∃ t g', exec (.syscall h imm) s = .next t ∧ findGroup t c.gid = some g'
      ∧ ∀ k u, (acting s c g h')[k]? = some u →
          (∃ posted, (g'.thread u).st = .held (s.cores.nextNum + k) posted) ∧ (g'.thread u).pc = c.pc
          ∧ ∃ p ∈ t.cores.posts, p.num = s.cores.nextNum + k ∧ p.core = g.core ∧ p.gid = some g.gid
              ∧ p.vd = (if g.priv = .u then g.vd else 0)
              ∧ p.entry = svqEntry 0x01 (if g.priv = .u then 1 else 3) g.vd g.width (16 * g.quarter + g.slot) u c.pc.toNat imm.toNat (2 ^ u)
                  ((rangeFrom 1 7).flatMap (fun j => leBytes 4 (readReg s g u j).toNat)) g.asid

/-- SVQTAKE, SVRET, SVQWAIT, SVWAKE and TRET complete (R147, R148, R151, R153, R379, R380, R381, R382, R383). -/
def Obligations.SupervisorQueues : Prop :=
  ∀ (s : State) (h : Hdr) (mt : SvqtakeMod) (mr : SvretMod) (d a b c : Opnd) (ao bo : Option Opnd),
    (∀ cv g h', Runs s (.svqtake h mt d) .s cv g h' → acting s cv g h' ≠ [] →
        let x := svqTimerAfter ((acting s cv g h').foldl (fun x u => svqTakeOne x g d mt.pd.val u) s) g.core g.vd
        exec (.svqtake h mt d) s = .next (goOn
          (if svqWaiters x g.core g.vd = 0 then x
            else x.push (.ev .svqWaiterPost { Sel.none with vd := vdFin g.vd, core := coreFin g.core })) cv))
    ∧ (∀ (g g0 : Group) (u : Nat), findGroup s g.gid = some g0 → u < g0.threads.length → g.mandrel = false →
        let q := svqOf s g.core g.vd
        let t := svqTakeOne s g d mt.pd.val u
        let e := (svqEntryAt s g.core g.vd q.head.toNat).2
        let owes := ∃ k, (g0.thread u).token = some k ∧ k.caller = true
        (owes ∨ bit q.base.toNat 0 = false ∨ q.count = 0 → svqOf t g.core g.vd = q ∧ (mt.pd.val ≠ 0 → readPred t g u mt.pd.val = 0))
        ∧ (¬owes → bit q.base.toNat 0 = true → q.count ≠ 0 →
            (svqOf t g.core g.vd).head = q.head + 1 ∧ readPred t g u mt.pd.val = 15
            ∧ ∃ g' k, findGroup t g.gid = some g' ∧ (g'.thread u).token = some k ∧ k.caller = bit (field e 1 1) 0
              ∧ k.usrVd = (if g.vd = 0 then field e 2 1 % 16 else g.vd) ∧ k.usrAsid = field e 60 4 % 256))
    ∧ (∀ cv g h', Runs s (.svret h mr ao bo) .s cv g h' →
        let one := fun (x : State) (u : Nat) =>
          (((findGroup x g.gid).getD g).thread u).token.elim x fun k =>
            let r : Resume := ⟨mr.form, (ao.map (fun r => readOp x g u r 1)).getD 0, bo.map (fun r => readOp x g u r 1)⟩
            let y := onThread (svretToken x g u k r) g.gid u (fun z => { z with token := none })
            if k.caller = true ∧ mr.form = .exit then afterExits y (heldFor x k.trap) else y
        exec (.svret h mr ao bo) s = .next (flushRecs (reap (goOn ((acting s cv g h').foldl one s) cv))))
    ∧ DoesEnds s (.svqwait h) .s (fun s g x _ => some (x, if batch s g.core g.vd = true then .next else .wait .svqWait))
    ∧ DoesAlways s (.svwake h d a b c) .h (fun _ g x u =>
        let r := svWake x g.core (readOp x g u a 1) (BitVec.ofNat 64 (readOp x g u b 2)) (readOp x g u c 1)
        writeOp r.1 g u d r.2 1)
    ∧ ∀ cv g h', Runs s (.tret h d a b c) .h cv g h' →
        let one := fun (x : State) (u : Nat) =>
          let r := tretOne x g u (readOp x g u a 1) (readOp x g u b 2) (readOp x g u c 1)
          writeOp r.1 g u d r.2 1
        exec (.tret h d a b c) s = .next (flushRecs (reap (goOn
          ((acting s cv g h').foldl one (if acting s cv g h' = [] then s else releaseBy s g (acting s cv g h') 2 0xFF)) cv)))

/-- A release of a held thread goes on, runs again or exits, with its result registers (R153, R380). -/
def Obligations.ReturnFromTrap : Prop :=
  ∀ (s : State) (g : Group) (u : Nat) (r : Resume),
    findGroup s g.gid = some g → (s.cores.groups.map (·.gid)).Nodup → u < g.threads.length → 0 < g.width → g.resid = .core → g.mandrel = false →
    ∃ g', findGroup (releaseThread s g.gid u r) g.gid = some g'
      ∧ (r.form = .next → (g'.thread u).st = .ready ∧ (g'.thread u).pc = nextPc (g.thread u).pc
          ∧ readReg (releaseThread s g.gid u r) g u 0 = BitVec.ofNat 32 r.a
          ∧ ∀ x, r.b = some x → readReg (releaseThread s g.gid u r) g u 1 = BitVec.ofNat 32 x)
      ∧ (r.form = .replay → (g'.thread u).st = .ready ∧ (g'.thread u).pc = (g.thread u).pc)
      ∧ (r.form = .exit → (g'.thread u).st = .exited ∧ (g'.thread u).pc = (g.thread u).pc)
      ∧ ∀ k, k ≠ u → (g'.thread k).st = (g.thread k).st ∧ (g'.thread k).pc = (g.thread k).pc

/-- MOVS, CSRR and CSRW complete with the register named, and a read finds what a write has left in the translation, server, mandrel,
bound, solder-range and schedule registers and in the frame index (R142, R144, R172, R205, R225, R228, R234, R257, R258, R384). -/
def Obligations.SpecialAndControlRegisters : Prop :=
  ∀ (s : State) (h : Hdr) (d a b : Opnd) (imm : BitVec 32),
    let back := fun (r : Csr) (x v : Nat) => ∀ core byH, x < 2 ^ 64 → (csrWrite s core byH x r).2 = true ∧ csrRead (csrWrite s core byH x r).1 core r = v
    let read := fun (i : Instr) (idx : State → Group → Nat → Nat) (_ : State) (g : Group) (x : State) (u : Nat) =>
      match csrOf g (wordBytes i) (idx x g u) with
      | .ok r => some (writeOp x g u d (csrRead x g.core r) 2)
      | .error _ => none
    let write := fun (i : Instr) (o : Opnd) (idx : State → Group → Nat → Nat) (_ : State) (g : Group) (x : State) (u : Nat) =>
      match csrOf g (wordBytes i) (idx x g u) with
      | .ok r =>
        let w := csrWrite x g.core (decide (g.priv = .h)) (readOp x g u o 2) r
        some (w.1, if w.2 = true then Done.next else .wait .csr)
      | .error _ => none
    (∀ c g h', Runs s (.movs h d imm) .u c g h' → (specialReg s g 0 imm.toNat).isSome = true →
        Writes s (.movs h d imm) c g (acting s c g h') d (srWidth imm) (fun u => (specialReg s g u imm.toNat).getD 0))
    ∧ (∀ (g : Group) (u : Nat), [1, 2, 4, 5, 6, 7, 8, 9, 0x0A, 0x31, 0x42].map (specialReg s g u) =
        [g.col * g.width + u, g.quarter, g.core, (match g.priv with | .u => 0 | .s => 1 | .h => 2), g.width, g.vd, dieOfCore g.core,
          clusterOfCore g.core % 52, Config.pkgId.toNat, g.asid, nsNow s].map some)
    ∧ (∀ v x, back (.trn v 0) x (x / 4096 * 4096) ∧ back (.trn v 1) x (x % 256) ∧ back (.trn v 2) x (x / 4096 * 4096 + x % 2)
        ∧ back (.srv v 0) x x ∧ back (.mscs v 0) x (x / 4096 * 4096)
        ∧ ∀ b, back (.bnd v b 1) x (x % 2 ^ 32) ∧ back (.bnd v b 2) x (x % 2 ^ 32))
    ∧ (∀ x, back (.lane 1) x x ∧ back (.lane 3) x x ∧ back (.fot 0) x (x % 2 ^ 24)
        ∧ ∀ n, (solderOf s n).en = false → back (.sld n 1) x (nAnd x 0x7FFF000000FFFFFF))
    ∧ DoesEach s (.csrr h d a) .s (read (.csrr h d a) (fun x g u => readOp x g u a 1 % 65536))
    ∧ (imm.toNat < 65536 → DoesEach s (.csrrImm h d imm) .s (read (.csrrImm h d imm) (fun _ _ _ => imm.toNat)))
    ∧ DoesEnds s (.csrw h a b) .s (write (.csrw h a b) b (fun x g u => readOp x g u a 1 % 65536))
    ∧ (imm.toNat < 65536 → DoesEnds s (.csrwImm h a imm) .s (write (.csrwImm h a imm) a (fun _ _ _ => imm.toNat)))

/-- PTSYNC, TLBINV, PGMOVE, FRASSIGN, SOLDER, BND.SET, SCHED.STEP and HALT complete, with the calls of the operations whose effects and
statuses FrameOperations states (R149, R172, R213, R214, R218, R227, R229, R230, R233, R387, R391, R392). The order of the checks of
the solder calls (log 69), of PGMOVE (log 115) and of FRASSIGN (log 116) is the model's choice. -/
def Obligations.TranslationAndFrames : Prop :=
  ∀ (s : State) (h : Hdr) (mp : PtsyncMod) (mt : TlbinvMod) (mg : PgmoveMod) (mb : BndMod) (ms : SchedMod) (d a b c : Opnd)
    (ao bo co : Option Opnd),
    let rd := fun (x : State) (g : Group) (u : Nat) (r : Option Opnd) (n : Nat) => (r.map (fun r => readOp x g u r n)).getD 0
    (∀ cv g h', Runs s (.ptsync h mp) .s cv g h' → (∀ u ∈ acting s cv g h', storesOut s g [u] (scopeRank mp.scope) = false) →
        let us := acting s cv g h'
        exec (.ptsync h mp) s = .next (goOn
          (if us = [] then s else crossBy (fenceBy s g us (scopeRank mp.scope) ((mp.mask.map (·.val)).getD 0xFF)) g us 0 0x40) cv))
    ∧ (∀ cv g h', Runs s (.tlbinv h mt ao bo co) .s cv g h' → (mt.form = .s2 → g.priv = .h) →
        exec (.tlbinv h mt ao bo co) s = .next (goOn ((acting s cv g h').foldl (fun x u =>
          let va := rd x g u ao 2
          let n := rd x g u bo 1
          let e := rd x g u co 1
          let inC := inScope (scopeRank mt.scope) g.core
          let hits := match mt.form with
            | .va => if n = 0 then [] else tlbHits x inC g.vd (some (e % 256)) (some (va / 4096 * 4096, 4096 * n))
            | .as_ => tlbHits x inC g.vd (some (e % 256)) none
            | .vd => tlbHits x inC g.vd none none
            | .s2 => if n = 0 then [] else tlbHits x inC (e % 16) none none
          let y := match mt.form with
            | .va => if n = 0 then x else tlbInv x inC g.vd (some (e % 256)) (some (va / 4096 * 4096, 4096 * n))
            | .as_ => tlbInv x inC g.vd (some (e % 256)) none
            | .vd => tlbInv x inC g.vd none none
            | .s2 => if n = 0 then x else tlbInvS2 x inC (e % 16) (va / 4096 * 4096, 4096 * n)
          if mt.sync = true then syncAll y g.core (if mt.form = .s2 then e % 16 else g.vd) (scopeRank mt.scope) hits else y) s) cv))
    ∧ (∀ cv g h', Runs s (.pgmove h mg d a b c) .s cv g h' → (mg.s2 = true → g.priv = .h) →
        let one := fun (x : State) (u : Nat) =>
          let va := readOp x g u a 2
          let dst := readOp x g u b 2
          if ∃ m ∈ x.trn.moves, m.gid = g.gid then none
          else
            match (if mg.s2 = true then pgmoveS2 x g u d (readOp x g u c 1 % 16) va dst
              else pgmoveS1 x g u d (readOp x g u c 1 % 256) va dst) with
            | (x, .error (some st)) => some (writeOp x g u d st 1, Done.next)
            | (x, .error none) => some (x, .wait .mig)
            | (x, .ok _) => some (x, .wait .move)
        ∀ m l, inTurn one (acting s cv g h') s = some (m, l) → exec (.pgmove h mg d a b c) s = .next (goEnds m cv l))
    ∧ DoesAlways s (.frassign h d a b c) .h (fun _ g x u =>
        let r := frassign x (readOp x g u a 1) (readOp x g u b 1) (readOp x g u c 1)
        writeOp r.1 g u d r.2 1)
    ∧ DoesEnds s (.solderHandoff h d a) .s (fun _ g x u =>
        match handoff x g u (readOp x g u a 1) with
        | (x, some st) => some (writeOp x g u d st 1, .next)
        | (x, none) => some (x, .wait .mig))
    ∧ DoesAlways s (.solderRekey h d a) .h (fun _ g x u =>
        let r := rekey x (readOp x g u a 1)
        writeOp r.1 g u d r.2 1)
    ∧ DoesAlways s (.bndSet h mb a b c) .s (fun _ g x u =>
        onBound x g.core g.vd (readOp x g u a 1 % 32) (fun r =>
          { count := if mb.kcnt = true then r.count else 0, i32 := mb.i32, nanp := mb.nanp,
            action := (match mb.action with
              | .flag => 0 | .clamp => 1 | .trap => 2),
            lo := BitVec.ofNat 32 (readOp x g u b 1), hi := BitVec.ofNat 32 (readOp x g u c 1) }))
    ∧ (∀ cv g h' u, Runs s (.schedStep h ms ao) .u cv g h' → (acting s cv g h').getLast? = some u →
        exec (.schedStep h ms ao) s = .next (goOn
          (if (schedOf s g.vd).loaded = true then
            onSched s g.vd (fun q => { q with step := ao.elim (q.step + 1) (fun r => BitVec.ofNat 16 (readOp s g u r 1)) })
          else s) cv))
    ∧ ∀ cv g h' u, Runs s (.halt h a) .h cv g h' → (acting s cv g h').getLast? = some u → halted s g.core = false →
        ∃ t, exec (.halt h a) s = .next t ∧ t.cores.halted.find g.core = some (0x10000 + readOp s g u a 1 % 65536)

/-- What FRASSIGN, SOLDER.HANDOFF, SOLDER.REKEY, PGMOVE and TLBINV do to frames, windows, keys, copies and translations, and their statuses
(R214, R218, R225, R227, R230, R387, R388, R389). The order of the checks is the model's choice: a bad argument before a busy frame in
FRASSIGN (log 116), and in PGMOVE a bad destination before a leaf that is no leaf or is busy, with BUSY for a source frame that the VD does
not own (log 115). -/
def Obligations.FrameOperations : Prop :=
  ∀ (s : State) (g : Group) (u n first count target v asid va dst : Nat) (d : Opnd) (inC : Nat → Bool) (space : Option Nat)
    (rng : Option (Nat × Nat)) (m : Move),
    let within := fun (a k f : Nat) => a ≤ f ∧ f < a + k
    let w := solderOf s n
    let frames := fun (f : Nat) => within w.first w.count f
    let noCopy := fun (t : State) (p : Nat → Prop) => (∀ e ∈ t.mem.l1, ¬p (frameOfLine e.2.spa))
      ∧ ∀ e ∈ t.trn.tlb, ∀ a, e.target = .spa a → ∀ f, p f → ¬(a / 65536 ≤ f ∧ f ≤ (a + e.size - 1) / 65536)
    let bad := count = 0 ∨ 16384 < count ∨ 15466496 < first + count ∨ (∃ k, 4 ≤ k ∧ k ≠ 8 ∧ bit target k = true)
      ∨ (bit target 8 = false ∧ vdState s (target % 16) = .empty)
    let busy := ∃ f, within first count f ∧ (frameAt s f).st ∈ [FrSt.scrub, .solder, .shadow, .migrating]
    let member := fun (e : Nat) => bit e 0 = true ∧ bit e 7 = true
    let began := fun (t x : State) (ls : List (Nat × Nat)) (parts : List (Nat × Nat)) (tables vd step whole : Nat) =>
      ∃ k, t.trn.moves = x.trn.moves ++ [k] ∧ k.status = none ∧ k.gid = g.gid ∧ k.tid = u ∧ k.d = d ∧ k.dst = dst ∧ k.tables = tables
        ∧ k.vd = vd ∧ k.parts = parts ∧ k.size = step ∧ k.leaves = ls.map (fun l => (l.1, l.2, tableWord x l.1))
        ∧ k.frames = whole
    (bad → frassign s first count target = (s, 2))
    ∧ (¬bad → busy → frassign s first count target = (s, 1))
    ∧ (¬bad → ¬busy →
        let t := (frassign s first count target).1
        (frassign s first count target).2 = 0
        ∧ (∀ f, frameAt t f = if within first count f then
            (if bit target 8 = true then Frame.free else { Frame.free with st := .owned, owner := target % 16, kid := dataKid s (target % 16) })
            else frameAt s f)
        ∧ (∀ a, readByte t a = if within first count (a / 65536) then 0 else readByte s a)
        ∧ (∀ a, within first count (a / 65536) → sectorPoison t a = false)
        ∧ noCopy t (within first count) ∧ (∀ e ∈ t.mem.l2, ¬within first count (frameOfLine e.2.spa))
        ∧ (∀ e ∈ t.mem.msc, ¬within first count (frameOfLine e.2.spa)) ∧ ∀ e ∈ t.mem.l1i, ¬within first count (e.spa / 65536))
    ∧ (64 ≤ n ∨ w.en = false → handoff s g u n = (s, some 3) ∧ rekey s n = (s, 3))
    ∧ (n < 64 → w.en = true →
        (g.priv ≠ .h → g.vd ≠ w.holder → handoff s g u n = (s, some 1))
        ∧ (g.priv = .h ∨ g.vd = w.holder →
            (vdRuns s w.other = false → handoff s g u n = (s, some 2))
            ∧ (vdRuns s w.other = true →
                let word := wordGood s w.other (if w.holderB = true then w.hwa.toNat else w.hwb.toNat)
                let x := landOf s w.holder
                (word = none → handoff s g u n = (s, none)) ∧ (word = some false → handoff s g u n = (s, some 4))
                ∧ (word = some true → landLeft x w.holder = true → handoff s g u n = (x, none))
                ∧ (word = some true → landLeft x w.holder = false → solderOf x n = w → ∃ t, handoff s g u n = (t, some 0)
                    ∧ solderOf t n = { w with holderB := !w.holderB, hseq := w.hseq + 1 }
                    ∧ (∀ k, k ≠ n → solderOf t k = solderOf x k)
                    ∧ (∀ f, frameAt t f = if frames f then
                        { Frame.free with st := .solder, owner := w.other, kid := w.kid.toNat, peer := w.holder, swin := n } else frameAt x f)
                    ∧ noCopy t frames)))
        ∧ ((∀ k, 1 ≤ k → k ≤ 63 → kidUsed s k = true) → rekey s n = (s, 4))
        ∧ ∀ k, 1 ≤ k → k ≤ 63 → kidUsed s k = false → (∀ j, 1 ≤ j → j < k → kidUsed s j = true) → ∃ t, rekey s n = (t, 0)
            ∧ solderOf t n = { w with kid := BitVec.ofNat 6 k } ∧ (∀ j, j ≠ n → solderOf t j = solderOf s j)
            ∧ (∀ f, frameAt t f = if frames f then
                { Frame.free with st := .solder, owner := w.holder, kid := k, peer := w.other, swin := n } else frameAt s f)
            ∧ t.trn.keyGen.at 0 k = s.trn.keyGen.at 0 k + 1 ∧ ∀ j, j ≠ k → t.trn.keyGen.at 0 j = s.trn.keyGen.at 0 j)
    ∧ (let r := s1LeafAny s (clusterOfCore g.core) g.vd asid va
        let x := r.1
        (r.2 = .error .mig → pgmoveS1 s g u d asid va dst = (x, .error none))
        ∧ (∀ e, r.2 = .error e → e ≠ .mig → pgmoveS1 s g u d asid va dst = (x, .error (some 1)))
        ∧ ∀ e k a, r.2 = .ok (e, k, a) →
            let size := leafSize e k va
            let into := fun i => gpaPeek x g.vd (dst + 4096 * i) true
            let frm := fun i => gpaPeek x g.vd (leafBase e k va + 4096 * i) false
            let ls := groupLeaves size a
            let owned := dst % size = 0 ∧ ∀ i < size / 4096, ∃ b, into i = .ok b ∧ ownsFrame x g.vd b = true
            ((∀ i < size / 4096, into i ≠ .error .mig) → ¬owned → pgmoveS1 s g u d asid va dst = (x, .error (some 3)))
            ∧ (owned → (∃ l ∈ ls, ¬member (tableWord x l.1)) → pgmoveS1 s g u d asid va dst = (x, .error (some 1)))
            ∧ (owned → (∀ l ∈ ls, member (tableWord x l.1)) → (∃ l ∈ ls, bit (tableWord x l.1) 10 = true) →
                pgmoveS1 s g u d asid va dst = (x, .error (some 2)))
            ∧ (owned → (∀ l ∈ ls, member (tableWord x l.1) ∧ bit (tableWord x l.1) 10 = false) →
                ((∀ i < size / 4096, frm i ≠ .error .mig) → (∃ i < size / 4096, ∃ y, frm i = .error y) →
                  pgmoveS1 s g u d asid va dst = (x, .error (some 1)))
                ∧ ((∀ i < size / 4096, ∃ b, frm i = .ok b) → ∃ t parts y, pgmoveS1 s g u d asid va dst = (t, .ok ())
                    ∧ parts.length = size / 4096 ∧ (∀ i < size / 4096, ∃ p, parts[i]? = some p ∧ frm i = .ok p.1 ∧ into i = .ok p.2)
                    ∧ y.trn.moves = x.trn.moves ∧ began t y ls parts g.vd g.vd 4096 0)))
    ∧ (let r := s2Leaf s (clusterOfCore g.core) v va
        let x := r.1
        (r.2 = none → pgmoveS2 s g u d v va dst = (x, .error (some 1)))
        ∧ ∀ e k a, r.2 = some (e, k, a) →
            let size := leafSize e k va
            let src := leafBase e k va
            let ls := groupLeaves size a
            let mine := fun (f : Nat) => (frameAt x f).st = .owned ∧ (frameAt x f).owner = v
            let good := dst % size = 0 ∧ dst + size ≤ 65536 * 15466496
              ∧ if 65536 ≤ size then ∀ f ∈ framesOf dst size, (frameAt x f).st = .free else mine (dst / 65536)
            (bits e 49 48 = 1 → pgmoveS2 s g u d v va dst = (x, .error (some 1)))
            ∧ (bits e 49 48 ≠ 1 → ¬good → pgmoveS2 s g u d v va dst = (x, .error (some 3)))
            ∧ (bits e 49 48 ≠ 1 → good → (∃ l ∈ ls, ¬member (tableWord x l.1)) → pgmoveS2 s g u d v va dst = (x, .error (some 1)))
            ∧ (bits e 49 48 ≠ 1 → good → (∀ l ∈ ls, member (tableWord x l.1)) →
                (∃ l ∈ ls, bit (tableWord x l.1) 10 = true) ∨ (∃ f ∈ framesOf src size, ¬mine f) →
                pgmoveS2 s g u d v va dst = (x, .error (some 2)))
            ∧ (bits e 49 48 ≠ 1 → good → (∀ l ∈ ls, member (tableWord x l.1) ∧ bit (tableWord x l.1) 10 = false) →
                (∀ f ∈ framesOf src size, mine f) → ∃ t, pgmoveS2 s g u d v va dst = (t, .ok ()) ∧ began t x ls [(src, dst)] 0 v size (if 65536 ≤ size then size / 65536 else 0)
                ∧ ∀ f, frameAt t f =
                    if 65536 ≤ size ∧ within (src / 65536) (size / 65536) f then
                      { frameAt x f with st := .migrating, link := dst / 65536 + (f - src / 65536) }
                    else if 65536 ≤ size ∧ within (dst / 65536) (size / 65536) f then
                      let o := frameAt x (src / 65536 + (f - dst / 65536))
                      { Frame.free with st := .migrating, owner := o.owner, kid := o.kid, link := src / 65536 + (f - dst / 65536) }
                    else frameAt x f))
    ∧ (let a := (m.parts.headD (0, 0)).1 / 65536
        let b := m.dst / 65536
        let r := moveDo s m
        a + m.frames ≤ b ∨ b + m.frames ≤ a → (r.2 = 0 ∨ r.2 = 4) ∧ ∀ f, frameAt r.1 f =
          if within b m.frames f then (if r.2 = 0 then { frameAt s f with st := .owned, link := 0 } else Frame.free)
          else if within a m.frames f then (if r.2 = 0 then Frame.free else { frameAt s f with st := .owned, link := 0 })
          else frameAt s f)
    ∧ (let hit := fun (x a k : Nat) => (∀ y, space = some y → y = x) ∧ ∀ r, rng = some r → a < r.1 + r.2 ∧ r.1 < a + k
        let line := fun (e : Nat × L1Line) => inC (clusterOfCore (e.1 / 4096)) = true ∧ e.2.vd = v
        let t := tlbInv s inC v space rng
        (∀ e, e ∈ t.trn.tlb ↔ e ∈ s.trn.tlb ∧ ¬(inC e.cluster = true ∧ e.vd = v ∧ hit e.asid e.va e.size))
        ∧ (∀ e ∈ t.mem.l1, ¬(line e ∧ hit e.2.asid (e.2.vpage * 8192 + e.1 % 64 * 128) 128))
        ∧ (∀ e ∈ t.mem.l1i, ¬(inC (clusterOfCore e.core) = true ∧ e.vd = v ∧ hit e.asid e.va 64))
        ∧ (∀ e ∈ t.loc.swage, inC (e.1 / 8) = true → e.2.job.vd = v → ∀ h, e.2.held = some h → ¬hit e.2.job.asid h.1 65536)
        ∧ t.trn.ntlb = s.trn.ntlb ∧ t.trn.fot = s.trn.fot
        ∧ ∀ k, rng = some k →
            let t := tlbInvS2 s inC v k
            (∀ e, e ∈ t.trn.ntlb ↔ e ∈ s.trn.ntlb ∧ ¬(inC e.cluster = true ∧ e.vd = v ∧ e.gpa < k.1 + k.2 ∧ k.1 < e.gpa + e.size))
            ∧ (∀ e, e ∈ t.trn.tlb ↔ e ∈ s.trn.tlb ∧ ¬(inC e.cluster = true ∧ e.vd = v)) ∧ (∀ e ∈ t.mem.l1, ¬line e)
            ∧ t.trn.fot = s.trn.fot)

/-- Rails, reset, thermal trip, power samples, gate steps and the boundary limits: what each step of power leaves (R14, R16, R17, R18, R19,
R22, R23, R28). The count of cold resets (log 12), that an edge before 1 ms only sets MOD_RESET_N (log 36), that BOOT_STAT shows 0xE first
when the boot fails (log 32), what the boundary unit holds after a cold reset (log 21), the step that a sample chooses in its range (log
24), when a chosen step takes effect (log 25), that a die's step sets the CLAMP bit of its cores (log 26) and that the highest sensor is
the temperature (log 27) are the model's choices. -/
def Obligations.PowerAndReset : Prop :=
  (∀ (s : State) (rail : Rail) (us addr : Nat) (die : Fin 22) (sensors : List Nat) (hbmOk : Bool) (data : Bytes),
     let hottest := (sensors.take (if die.val < 4 then 16 else 4)).foldl max 0
     let trip := if die.val < 6 then s.bdy.tTrip.toNat else 105
     let down := fun (t : State) => t.pkg.rails = 0 ∧ t.pkg.pwrGood = false ∧ t.pkg.running = false ∧ t.pkg.modResetN = false
       ∧ t.mem.cells = [] ∧ t.cores.groups = []
     Goes s .coldReset (fun t => t.pkg.running = false ∧ t.pkg.modResetN = false ∧ t.pkg.coldResets = s.pkg.coldResets + 1
       ∧ t.mem.cells = [] ∧ t.cores.groups = [] ∧ t.vds = State.reset.vds ∧ t.trn = State.reset.trn ∧ t.bdy = State.reset.bdy
       ∧ t.att.nor = s.att.nor ∧ t.mem.nand = s.mem.nand)
     ∧ Goes s .busInRange (fun t => t = { s with pkg := { s.pkg with busGood := true } })
     ∧ (s.pkg.busGood = true → s.pkg.rails = railOrder rail → Goes s (.railInTolerance rail) (fun t =>
         t = { s with pkg := { s.pkg with rails := s.pkg.rails + 1, pwrGood := decide (rail = .vcore3) } }))
     ∧ (railOrder rail < s.pkg.rails → Goes s (.railOutOfTolerance rail) down)
     ∧ (trip ≤ hottest → Goes s (.thermalTrip die sensors) down)
     ∧ (hottest < trip → Goes s (.thermalTrip die sensors) (fun t => t.pkg.temps[die] = hottest ∧ t.pkg.rails = s.pkg.rails
         ∧ t.pkg.running = s.pkg.running ∧ t.mem = s.mem ∧ t.cores = s.cores ∧ t.sch = s.sch))
     ∧ (s.pkg.modResetN = false → s.pkg.pwrGood = true →
         (us < 1000 → Goes s (.resetRelease us hbmOk) (fun t => t = { s with pkg := { s.pkg with modResetN := true } }))
         ∧ (1000 ≤ us → Goes s (.resetRelease us hbmOk) (fun t => t.pkg.modResetN = true ∧ t.pkg.running = true
             ∧ (hbmOk = false → t.pkg.bootStat = 0xE ∧ t.pkg.bootFailed = some 2)
             ∧ (hbmOk = true → bootImage s 0 0x100000 0 0x100000 = none → t.pkg.bootStat = 0xE ∧ t.pkg.bootFailed = some 3)
             ∧ (hbmOk = true → bootImage s 0 0x100000 0 0x100000 ≠ none →
                 (bootImage s 0x1000000 0x5000000 1 0x4000000 = none → t.pkg.bootStat = 0xE ∧ t.pkg.bootFailed = some 5)
                 ∧ (bootImage s 0x1000000 0x5000000 1 0x4000000 ≠ none → t.pkg.bootStat = 7 ∧ t.pkg.secretReadable = false
                     ∧ t.bdy.locked = true ∧ vdRuns t 0 = true
                     ∧ ∀ c < 832, ∃ g ∈ t.cores.groups, g.core = c ∧ g.mandrel = true ∧ (g.thread 0).pc = Config.monitorEntry)))))
     ∧ Goes s (.boardNorWrite addr data) (fun t => ∀ a, norByte t a =
         if s.pkg.modResetN = false ∧ addr ≤ a ∧ a < addr + data.length ∧ a < 0x20000000 then data.getD (a - addr) 0 else norByte s a))
  ∧ ∀ (s : State) (die : Die) (any : Fin 22) (watts pick : Nat) (sensors : List Nat) (v : BitVec 64),
      let hottest := (sensors.take (if any.val < 4 then 16 else 4)).foldl max 0
      let trip := if any.val < 6 then s.bdy.tTrip.toNat else 105
      let next := fun (exceeded : Bool) (step since : Nat) =>
        if exceeded = true then min 12 (max step pick) else if since + 130000 ≤ s.sch.cycle then min step pick else step
      let low := fun (n : Nat) (old : BitVec n) (x : Nat) => if x < old.toNat then BitVec.ofNat n x else old
      (s.pkg.running = true → trip ≤ hottest → Goes s (.diePowerSample any watts sensors pick) (fun t =>
          t.pkg.rails = 0 ∧ t.pkg.pwrGood = false ∧ t.pkg.running = false))
      ∧ (s.pkg.running = true → hottest < trip → 4 ≤ any.val → Goes s (.diePowerSample any watts sensors pick) (fun t =>
          t.pkg.temps = s.pkg.temps.set any hottest ∧ t.pkg.dies = s.pkg.dies))
      ∧ (s.pkg.running = true → hottest < trip → any.val = die.val → Goes s (.diePowerSample any watts sensors pick) (fun t =>
          let old := s.pkg.dies[die]
          let new := next (decide (s.bdy.diePwr[die].toNat < watts) || decide (s.bdy.tThrot.toNat < hottest)) old.step old.since
          (t.pkg.dies[die]).watts = watts ∧ t.pkg.temps = s.pkg.temps.set any hottest ∧ (t.pkg.dies[die]).step = new
          ∧ (new ≠ old.step → (t.pkg.dies[die]).since = s.sch.cycle ∧ (t.pkg.dies[die]).next = some (min 12 (max new s.pkg.modStep))
              ∧ ∀ c, 208 * die.val ≤ c → c < 208 * die.val + 208 → bit (mandrelOf t c).mip.toNat 5 = true)))
      ∧ (s.pkg.running = true → Goes s (.modulePowerSample watts pick) (fun t =>
          let new := next (decide (s.bdy.modPwr.toNat < watts)) s.pkg.modStep s.pkg.modSince
          t.pkg.modWatts = watts ∧ t.pkg.modStep = new
          ∧ (new ≠ s.pkg.modStep → (∀ d : Die, (t.pkg.dies[d]).next = some (min 12 (max (s.pkg.dies[d]).step new)))
              ∧ ∀ c < 832, bit (mandrelOf t c).mip.toNat 5 = true)))
      ∧ Goes s .gateStepChange (fun t => ∀ d : Die, t.pkg.dies[d] =
          if d = s.sch.sel.die then { s.pkg.dies[d] with inEffect := (s.pkg.dies[d]).next.getD (s.pkg.dies[d]).inEffect, next := none }
          else s.pkg.dies[d])
      ∧ Goes s (.bdyPwrWrite v) (fun t => t.bdy.modPwr = low 12 s.bdy.modPwr (v.toNat % 4096)
          ∧ ∀ d : Die, t.bdy.diePwr[d] =
              if v.toNat / 4096 % 1024 < maxDie s then low 10 s.bdy.diePwr[d] (v.toNat / 4096 % 1024) else s.bdy.diePwr[d])
      ∧ Goes s (.bdyDiepwrWrite die v) (fun t => ∀ d : Die, t.bdy.diePwr[d] =
          if d = die then low 10 s.bdy.diePwr[d] (v.toNat % 1024) else s.bdy.diePwr[d])
      ∧ Goes s (.bdyThermWrite v) (fun t => t.bdy.tThrot =
          if v.toNat % 256 < 60 then s.bdy.tThrot else low 8 s.bdy.tThrot (v.toNat % 256))

/-- The attestation unit and the NOR interface: requests and completions (R26, R27, R31). That the flash changes when an operation starts, that
GO with no operation ends OK, and the order of a NOR operation's checks (log 34), and that PROGRAM drops its buffer's poison (log 156), are the
model's choices. -/
def Obligations.AttestationAndNor : Prop :=
  ∀ (s : State) (v : BitVec 64) (o a n : Nat) (devOk : Bool),
    (AttReq.extend ∉ s.att.queue → bit v.toNat 0 = true → Goes s (.attestExtend v) (fun t =>
        t.att.queue = s.att.queue ++ [.extend] ∧ t.att.xDone = false ∧ t.att.xIndex = BitVec.ofNat 4 (bits v.toNat 11 8)))
    ∧ (AttReq.extend ∈ s.att.queue → bit v.toNat 0 = true → Goes s (.attestExtend v) (fun t =>
        t = { s with att := { s.att with xBusy := true } }))
    ∧ (AttReq.report ∉ s.att.queue → bit v.toNat 0 = true → Goes s (.attestReportRequest v) (fun t =>
        t.att.queue = s.att.queue ++ [.report] ∧ t.att.rDone = false))
    ∧ (AttReq.report ∈ s.att.queue → bit v.toNat 0 = true → Goes s (.attestReportRequest v) (fun t =>
        t = { s with att := { s.att with rBusy := true } }))
    ∧ (s.att.queue.head? = some .extend → Goes s .extendComplete (fun t => t.att.queue = s.att.queue.tail ∧ t.att.xDone = true
        ∧ (s.att.xIndex.toNat < 4 → t.att.xStat = 3 ∧ t.att.meas = s.att.meas)
        ∧ (4 ≤ s.att.xIndex.toNat → t.att.xStat = 0 ∧ ∀ i : Fin 16, t.att.meas[i] =
            if i.val = s.att.xIndex.toNat then bits512 (shake256 (bytes512 s.att.meas[i] ++ bytes512 s.att.xDig) 64) else s.att.meas[i])))
    ∧ (s.att.queue.head? = some .report → Goes s .reportComplete (fun t =>
        let d := s.att.rDest.toNat
        t.att.queue = s.att.queue.tail ∧ t.att.rDone = true
        ∧ (d % 64 = 0 → spaOwned s d 2432 = true → t.att.rStat = 0
            ∧ t.mem = (spaWrite s d (reportBytes s (bytes512 s.att.rNonce))).mem)
        ∧ (¬(d % 64 = 0 ∧ spaOwned s d 2432 = true) → t.att.rStat = 2 ∧ t.mem = s.mem)))
    ∧ (s.att.norRun = some (1, a, n) → Goes s .norRead (fun t => t.att.norRun = some (16 + norCheck s 1 a n, 0, 0)
        ∧ (norCheck s 1 a n = 0 → t.mem = (spaWrite s s.att.nBuf.toNat (norBytes s a n)).mem)))
    ∧ (s.att.norRun = some (2, a, n) → Goes s .norErase (fun t => t.att.norRun = some (16 + norCheck s 2 a n, 0, 0)
        ∧ ∀ x, norByte t x = if norCheck s 2 a n = 0 ∧ a ≤ x ∧ x < a + 65536 then 0xFF else norByte s x))
    ∧ (s.att.norRun = some (3, a, n) → Goes s .norProgram (fun t => t.att.norRun = some (16 + norCheck s 3 a n, 0, 0)
        ∧ ∀ x, norByte t x = if norCheck s 3 a n = 0 ∧ a ≤ x ∧ x < a + n then
            norByte s x &&& (spaRead s s.att.nBuf.toNat n).2.getD (x - a) 0 else norByte s x))
    ∧ (s.att.norRun = some (o, a, n) → o = 0 ∨ 16 ≤ o → Goes s (.norOpComplete devOk) (fun t =>
        t.att.norRun = none ∧ t.att.norDone = true
        ∧ t.att.norStatus = if 16 < o then BitVec.ofNat 8 (o - 16) else if devOk = true then 0 else 4))

/-- Stores to the tails and heads of queues, rings and stages (R40, R41, R44, R50, R87, R110). -/
def Obligations.RegisterPageStores : Prop :=
  ∀ (s : State) (vd : Vd) (die : Die) (q : Nat) (i : Fin 8) (v : BitVec 64),
    let x : BitVec 16 := v.setWidth 16
    let tail := fun (old : BitVec 16) => if 1 ≤ (x - old).toNat ∧ (x - old).toNat ≤ 32768 then x else old
    (∀ p, findQp s vd.val q = some p →
        Goes s (.qpTailWrite vd q v) (fun t => findQp t vd.val q = some
          (if p.evicted = true then { p with heldTails := p.heldTails ++ [x] } else { p with tail := tail p.tail, stopped := false }))
        ∧ Goes s (.qpCqheadWrite vd q v) (fun t => findQp t vd.val q = some
          { p with cqHead := x, cqFull := decide ((p.cqTail - x).toNat = 2 ^ p.cfg.cqLog2) })
        ∧ Goes s (.qpRqheadWrite vd q v) (fun t => findQp t vd.val q = some { p with rqHead := x }))
    ∧ (findQp s vd.val q = none → Goes s (.qpTailWrite vd q v) (fun t => t = s) ∧ Goes s (.qpCqheadWrite vd q v) (fun t => t = s)
        ∧ Goes s (.qpRqheadWrite vd q v) (fun t => t = s))
    ∧ Goes s (.lqTailWrite vd v) (fun t =>
        lqOf t vd.val = { lqOf s vd.val with tail := tail (lqOf s vd.val).tail, stopped := false }
        ∧ ∀ u, u ≠ vd.val → lqOf t u = lqOf s u)
    ∧ Goes s (.stgTailWrite vd die i v) (fun t =>
        let g := (govOf s vd.val die.val).stage i.val
        (govOf t vd.val die.val).stage i.val = { g with tail := tail g.tail, failed := false }
        ∧ (govOf t vd.val die.val).ctl = (govOf s vd.val die.val).ctl)

/-- PCI Express accesses: landing writes, flags, BAR reads, MSI-X and descriptors (R51, R52, R53, R54, R55, R57). The order of a
write's checks is the model's choice (log 54), as are which held writes are performed when and that a free value says whether a relaxed
write is performed at once (log 53); the layout of the MSI-X table is the family's (log 55). -/
def Obligations.LandingWindows : Prop :=
  ∀ (s : State) (ep : Fin 2) (w : Fin 32) (off len : Nat) (b : Bytes) (p : PeerWrite) (v : BitVec 64) (i : Instr),
    let d := lwdOf s ep.val w.val
    let rel := p.off - d.base
    (i = .landingWrite ep p ∨ i = .landingFlagWrite ep p → inMsix p.off p.data.length = false →
        (windowOf s ep.val p.off p.data.length = none → exec i s = .next (flushRecs (lwdRec s 0 5 (256 * ep.val) p.off)))
        ∧ (windowOf s ep.val p.off p.data.length = some w.val →
          (bit d.ctl.toNat 30 = true → exec i s = .next (flushRecs s))
          ∧ (bit d.ctl.toNat 30 = false → bit d.ctl.toNat 47 = true → p.rid.toNat ≠ bits d.ctl.toNat 63 48 →
              exec i s = .next (flushRecs (lwdRec s d.vd 6 (256 * ep.val + w.val) p.rid.toNat)))
          ∧ (bit d.ctl.toNat 30 = false → (bit d.ctl.toNat 47 = true → p.rid.toNat = bits d.ctl.toNat 63 48) →
              (p.crcOk = false → exec i s = .next (flushRecs (lwdFail s ep.val w.val rel)))
              ∧ (p.crcOk = true → ∀ x c, (d.kind = 2 ∧ x = s ∧ c = 0) ∨ (d.kind ≠ 2 ∧
                    landCheck s d.vd (d.kind == 1) (d.target + rel) p.data.length (p.data.length / 32 + 2) = (x, c)) →
                  (c = 7 → exec i s = .next (flushRecs (lwdFail x ep.val w.val rel)))
                  ∧ (c = 8 → exec i s = .next (flushRecs (lwdRec x d.vd 8 (256 * ep.val + w.val) rel)))
                  ∧ (c = 0 ∨ c = 9 →
                      let y := putHeld x ep.val w.val (heldOf x ep.val w.val ++ [p])
                      (coversFlag (lwdOf y ep.val w.val) p = true →
                        exec i s = .next (flushRecs (landHeld y ep.val w.val (fun q => q.rid == p.rid))))
                      ∧ (coversFlag (lwdOf y ep.val w.val) p = false → p.relaxed = false →
                        exec i s = .next (flushRecs (landHeld y ep.val w.val (fun q => q.rid == p.rid && !q.relaxed))))
                      ∧ (coversFlag (lwdOf y ep.val w.val) p = false → p.relaxed = true →
                        exec i s = .next (flushRecs (freeValue y).1)
                        ∨ exec i s = .next (flushRecs (landHeld (freeValue y).1 ep.val w.val (· == p)))))))))
    ∧ (d.kind ≠ 2 → ∀ x c, landCheck s d.vd (d.kind == 1) (d.target + rel) p.data.length (p.data.length / 32 + 2) = (x, c) →
        (c = 0 → lwdOf x ep.val w.val = d → ∀ y z, gpaWriteN x (ioEng d.vd 0) (d.target + rel) p.data = (y, z) →
          (∀ u, z = .ok u → landTry s ep.val w.val p = (if coversFlag d p = true then landFire y ep.val w.val else y, .done))
          ∧ (∀ e, z = .error e → landTry s ep.val w.val p = (lwdFail y ep.val w.val rel, .failed)))
        ∧ (c = 7 → landTry s ep.val w.val p = (lwdFail x ep.val w.val rel, .failed))
        ∧ (c = 8 → landTry s ep.val w.val p = (lwdRec x d.vd 8 (256 * ep.val + w.val) rel, .done))
        ∧ (c = 9 → landTry s ep.val w.val p = (x, .waits)))
    ∧ (∀ pick, heldOf s ep.val w.val = [p] → pick p = true → landHeld s ep.val w.val pick =
        putHeld (landTry s ep.val w.val p).1 ep.val w.val (if (landTry s ep.val w.val p).2 = .waits then [p] else []))
    ∧ (∀ pick q x, heldOf s ep.val w.val = [p, q] → pick p = true → landTry s ep.val w.val p = (x, .waits) →
        q.rid = p.rid → coversFlag (lwdOf x ep.val w.val) q = true ∨ (q.relaxed = false ∧ p.relaxed = false) →
        landHeld s ep.val w.val pick = putHeld x ep.val w.val [p, q])
    ∧ (d.kind = 2 → ∀ k, cellAt (landDo s ep.val w.val p).1.pcie.rpcWin k =
        if rpcWinKey ep.val w.val (p.off - d.base) ≤ k ∧ k < rpcWinKey ep.val w.val (p.off - d.base) + p.data.length then
          p.data.getD (k - rpcWinKey ep.val w.val (p.off - d.base)) 0
        else cellAt s.pcie.rpcWin k)
    ∧ Goes s (.barRead ep off len) (fun t => t = { s with sch := { s.sch with outbox := s.sch.outbox ++
        [if inMsix off len = true then .pcieRead ep.val false (msixRead s ep.val off len) else .pcieRead ep.val true []] } })
    ∧ Goes s (.msixAccess ep off none) (fun t => t.sch.outbox = s.sch.outbox ++
        [if inMsix off 4 = true then .pcieRead ep.val false (msixRead s ep.val off 8) else .pcieRead ep.val true []])
    ∧ (off + b.length ≤ 16 → Goes s (.msixAccess ep off (some b)) (fun t =>
        let x := leNat (splice (leBytes 16 (s.pcie.msixTable[ep]).toNat) off b) % 2 ^ 97 / 4 * 4
        t.pcie.msixTable[ep] = BitVec.ofNat 128 x
        ∧ (bit x 96 = false → t.pcie.msixPending[ep] = false)))
    ∧ (bit d.ctl.toNat 31 = true →
        let y := if bit v.toNat 31 = true then s else landHeld s ep.val w.val (fun _ => true)
        (bit v.toNat 31 = false → heldOf y ep.val w.val ≠ [] → exec (.lwdCtlWrite ep w v) s = .next (flushRecs y))
        ∧ (bit v.toNat 31 = true ∨ heldOf y ep.val w.val = [] → Goes s (.lwdCtlWrite ep w v) (fun t =>
            let n := lwdOf t ep.val w.val
            let o := lwdOf y ep.val w.val
            bit n.ctl.toNat 31 = bit v.toNat 31 ∧ bit n.ctl.toNat 30 = (bit o.ctl.toNat 30 && !bit v.toNat 30)
            ∧ n.tgt = o.tgt ∧ n.flag = o.flag ∧ n.act = o.act)))
    ∧ (bit d.ctl.toNat 31 = false → Goes s (.lwdCtlWrite ep w v) (fun t =>
        let n : Lwd := { d with ctl := BitVec.ofNat 64 (setBits (setBits (setBits v.toNat 46 44 0) 29 26 0) 30 30
          (bit d.ctl.toNat 30 && !bit v.toNat 30).toNat) }
        lwdOf t ep.val w.val = if bit v.toNat 31 = true ∧ lwdRefused s ep.val w.val n = true then d else n))

/-- The network engine: enabling, work entries, completions and reload (R35, R36, R38, R41, R42, R44, R50). The order of a work entry's checks
(log 39), that a table entry read with poison cannot be read (log 40), that a completion entry that cannot be written is lost (log 45), what
ends with a DISABLE and what a reload takes up (log 46), and that a payload is read in the parts that answer (log 52) are the model's choices. -/
def Obligations.NetworkQueues : Prop :=
  ∀ (s : State) (op q : Nat) (i : Instr) (vd : Vd) (res : NetResult),
    let v := s.sch.sel.vd.val
    let n := s.sch.sel.n
    (qpMax s v ≤ n → Goes s .netEnable (fun t => (netOf t v).stat = 1) ∧ Goes s .netDisable (fun t => (netOf t v).stat = 1))
    ∧ (n < qpMax s v → (findQp s v n).isSome = true → Goes s .netEnable (fun t => (netOf t v).stat = 3))
    ∧ (n < qpMax s v → findQp s v n = none → ∀ x e,
        gpaReadN s (regEng v) ((netOf s v).qpt.toNat + 128 * n) 128 = (x, .error e) →
          (e = .wait → exec .netEnable s = .next (flushRecs x))
          ∧ (e ≠ .wait → Goes s .netEnable (fun t => (netOf t v).stat = 4 ∧ findQp t v n = none)))
    ∧ (n < qpMax s v → findQp s v n = none → ∀ x b,
        gpaReadN s (regEng v) ((netOf s v).qpt.toNat + 128 * n) 128 = (x, .ok (b, false)) →
        (qpEntryOk x v b = true → Goes s .netEnable (fun t => (netOf t v).stat = 0 ∧ findQp t v n = some (Qp.fresh (qpCfgOf b) x.sch.cycle)))
        ∧ (qpEntryOk x v b = false → Goes s .netEnable (fun t => (netOf t v).stat = 2 ∧ findQp t v n = none)))
    ∧ (n < qpMax s v → findQp s v n = none → Goes s .netDisable (fun t => (netOf t v).stat = 3))
    ∧ (n < qpMax s v → ∀ p, findQp s v n = some p →
        (p.ops = [] → Goes s .netDisable (fun t => (netOf t v).stat = 0 ∧ findQp t v n = none))
        ∧ (p.ops ≠ [] → Goes s .netDisable (fun t => findQp t v n = some { p with stopping := true })))
    ∧ ((i = .netSend ∧ op = 1) ∨ (i = .netWrite ∧ op = 2) ∨ (i = .netRead ∧ op = 3) ∨ (i = .netFetchAdd ∧ op = 4) →
        ∀ p x e y r, findQp s v n = some p → p.cfg.block = false → Qp.takes p = true → readHead s v p = (x, .ok (e, false)) →
          bit (wCtrl e) 31 = ownerBit p.head p.cfg.sqLog2 → wOp e = op → (bit (wFlags e) 1 = true → ∀ o ∈ p.ops, wOp o.entry < 3) →
          runWork x v n p.head.toNat p e = (y, r) →
          (∀ st m val, r = .sent ∧ st = none ∨ r = .done (st.getD 0) m val ∧ st.isSome = true →
            Goes s i (fun t => ∃ z, findQp t v n = some z ∧ z.head = p.head + 1 ∧ ∃ o ∈ z.ops, o.idx = p.head.toNat ∧ o.entry = e
              ∧ o.status = st))
          ∧ (r = .later → exec i s = .next (flushRecs (askOnly x y)))
          ∧ (∀ b bad, r = .more b bad → exec i s = .next (flushRecs (keepPart (askOnly x y) v n b bad))))
    ∧ (∀ p x e bad, findQp s v n = some p → p.stopped = true → readHead s v p = (x, .ok (e, bad)) →
        bit (wCtrl e) 31 = ownerBit p.head p.cfg.sqLog2 →
        Goes s .qpWatchWake (fun t => ∃ z, findQp t v n = some z ∧ z.stopped = false ∧ z.head = p.head))
    ∧ (let a := netAnswer s vd.val q res
      ∀ p o rest, findQp a vd.val q = some p → p.ops = o :: rest → p.cfg.block = false → (bit (wFlags o.entry) 0 = true → Qp.full p = false) →
        ∀ y st m val, (o.status = some st ∧ y = a ∧ m = o.bytes ∧ val = o.value.toNat)
            ∨ (∃ r, o.status = none ∧ o.res = some r ∧ netOutcome a vd.val p.cfg.asid o r = (y, some (st, m, val))) →
          (bit (wFlags o.entry) 0 = false → Goes s (.netCompletion vd q res) (fun t => ∃ z, findQp t vd.val q = some z ∧ z.ops = rest
            ∧ z.cqTail = p.cqTail ∧ z.error = (p.error || st != 0)))
          ∧ (bit (wFlags o.entry) 0 = true → ∀ w ans,
              writeCq y vd.val q (cqEntry (field o.entry 40 8) st (wOp o.entry) m val o.idx) = (w, ans) →
              (ans = .wait → exec (.netCompletion vd q res) s = .next (flushRecs (opDecided w vd.val q o st m val)))
              ∧ (ans ≠ .wait → Goes s (.netCompletion vd q res) (fun t => ∃ z, findQp t vd.val q = some z ∧ z.ops = rest
                  ∧ z.cqTail = (if ans = .written then p.cqTail + 1 else p.cqTail)
                  ∧ z.error = (p.error || (ans == .fault || st != 0))))))
    ∧ (∀ p, findQp s v n = some p → p.evicted = true → Goes s .qpStateReload (fun t => ∃ z, findQp t v n = some z ∧ z.evicted = false
        ∧ z.tail = p.heldTails.foldl (fun a x => if 1 ≤ (x - a).toNat ∧ (x - a).toNat ≤ 32768 then x else a) p.tail
        ∧ z.heldTails = [] ∧ (p.heldPkts = [] → z.heldPkts = [])))

/-- Inbound packets are performed and answered (R33, R45, R47, R48, R49, R68). The answer's bytes, 128 and the operation and a status, are the
model's own layout of what goes on the wire (log 38), and so are the number of a Write in its flow, by which a Write that must follow
another waits (log 41), and the OK answer to a Send whose slot's write faults (log 158). -/
def Obligations.InboundTraffic : Prop :=
  ∀ (s : State) (pkt : InPkt) (k : Nat) (d : Domain),
    let drop := fun (v : Nat) (x : State) =>
      let y := offerRec x 0 { type := 0x09, sev := 0, vd := 0, unit := 0x400, addr := some pkt.port.val, data0 := 1, data1 := v }
      { y with net := { y.net with blocked := y.net.blocked.put pkt.port.val (y.net.blocked.at 0 pkt.port.val + 1) } }
    let leave := fun (v : Nat) (x : State) (m : OutMsg) => flushRecs (
      if s.bdy.peerChk[pkt.port] = true ∧ egressOk s pkt.src = false then drop v x else x.emit m)
    let reply := fun (v : Nat) (x : State) (op : Nat) (data : Bytes) (bad : Bool) => leave v x
      (.ue pkt.port.val (pkt.src ++ leBytes 2 pkt.rpid) bad (leBytes 1 (128 + op) ++ leBytes 1 0 ++ data))
    (pkt.domain = some k → s.net.domains.find k = some d → d.peerPkg.isSome = true → pkt.supported = true → pkt.prof ≤ 2 → pkt.gcmOk = true →
      (∀ x, sendTo s d.vd pkt false none = (x, .ok) → exec (.inboundSend pkt) s = .next (reply d.vd x 1 [] false))
      ∧ (writeWaits s k pkt = true ↔ (pkt.prof = 1 ∧ (flowOf s k pkt true).next < pkt.cseq) ∨ (pkt.flagged = true ∧ (flowOf s k pkt false).next < pkt.seq))
      ∧ (writeWaits s k pkt = true → exec (.inboundWrite pkt) s = .next (leave d.vd s (.nack pkt.port.val)))
      ∧ (∀ x, writeWaits s k pkt = false → inWrite s d.vd k pkt.rkey.toNat pkt.rva.toNat pkt.data false = (x, .ok) →
          exec (.inboundWrite pkt) s = .next (reply d.vd (writeOver x k pkt) 2 [] false))
      ∧ (∀ x, writeWaits s k pkt = false → inWrite s d.vd k pkt.rkey.toNat pkt.rva.toNat pkt.data false = (x, .nack) →
          exec (.inboundWrite pkt) s = .next (leave d.vd x (.nack pkt.port.val)))
      ∧ (∀ x b bad, inRead s d.vd k pkt.rkey.toNat pkt.rva.toNat pkt.len = (x, .ok, b, bad) →
          exec (.inboundRead pkt) s = .next (reply d.vd x 3 b bad))
      ∧ (∀ x old bad, inFadd s d.vd k pkt.rkey.toNat pkt.rva.toNat pkt.addend.toNat = (x, .ok, old, bad) →
          exec (.inboundFetchAdd pkt) s = .next (reply d.vd x 4 (leBytes 8 old) bad)))
    ∧ (pkt.domain = none → pkt.lpid = Config.mgmtLpid → pkt.supported = true → pkt.prof = 0 → pkt.gcmOk = true →
        pkt.data.length ≤ 1048576 →
        exec (.inboundSend pkt) s = .next (reply 0 (rpcArrive s (.ue pkt.port pkt.src pkt.rpid) pkt.data) 1 [] false))

/-- Braze links, remote accesses, flash fills and the debug port (R28, R58, R59, R60, R61). Which access a timeout ends and whether its write
was performed are the step's own, the model's choice (log 56), as are the debug port's protocol and range (log 57). -/
def Obligations.BrazeFlashAndDebug : Prop :=
  ∀ (s : State) (port : Fin 16) (flits idx nsid lba spa len : Nat) (performed readOk : Bool) (vd : Vd) (o : RemoteOp),
    let p := brazeOf s port.val
    let n := s.sch.sel.n
    let ring := bits (ringOf s 0).base.toNat 63 12 * 4096
    (p.up = true → p.keyed = true →
      Goes s (.brazeFlitReceive port flits true) (fun t => brazeOf t port.val = { p with flits := p.flits + flits, replays := 0 })
      ∧ (p.replays < 7 → Goes s (.brazeFlitReceive port flits false) (fun t => brazeOf t port.val = { p with replays := p.replays + 1 }))
      ∧ (7 ≤ p.replays → Goes s (.brazeFlitReceive port flits false) (fun t =>
          (brazeOf t port.val).up = false ∧ (brazeOf t port.val).keyed = false)))
    ∧ ((brazeOf s n).keyed = true → 2 ^ 32 ≤ (brazeOf s n).flits → Goes s .brazeRekey (fun t =>
        brazeOf t n = { brazeOf s n with keyEpoch := (brazeOf s n).keyEpoch + 1, flits := 0 }))
    ∧ Goes s .brazeLinkBringUp (fun t =>
        brazeOf t (n % 16) = { up := true, keyed := true, keyEpoch := (brazeOf s (n % 16)).keyEpoch + 1, flits := 0, replays := 0 }
        ∧ t.net.remoteOps = s.net.remoteOps.filter (fun r => r.port != n % 16))
    ∧ ((s.net.remoteOps.filter (fun r => r.port == port.val))[idx]? = some o → Goes s (.remoteAccessTimeout port idx performed) (fun t =>
        t.net.remoteOps = s.net.remoteOps.erase o
        ∧ (performed = true → o.store = true → ∀ k, cellAt t.net.remote k =
            if remoteKey o.pkg o.frame o.off ≤ k ∧ k < remoteKey o.pkg o.frame o.off + o.data.length then
              o.data.getD (k - remoteKey o.pkg o.frame o.off) 0
            else cellAt s.net.remote k)
        ∧ (performed = false → t.net.remote = s.net.remote)))
    ∧ (∀ win, s.mem.fills.find? (fun f => f.1 == vd.val && f.2.2 == (nsid, lba)) = some (vd.val, win, nsid, lba) →
        Goes s (.flashBlockFill vd nsid lba readOk) (fun t => t.mem.fills = s.mem.fills.erase (vd.val, win, nsid, lba)
        ∧ ∃ b ∈ t.mem.flash, b.vd = vd.val ∧ b.win = win ∧ b.nsid = nsid ∧ b.lba = lba ∧ b.data = nandBlock s nsid lba ∧ b.poisoned = !readOk))
    ∧ Goes s (.debugPortAccess spa len) (fun t => t = if s.bdy.dbgMode = 2 ∨ (s.bdy.dbgMode = 1 ∧ ring ≤ spa
          ∧ spa + len ≤ ring + 64 * 2 ^ bits (ringOf s 0).base.toNat 6 2) then
        { s with sch := { s.sch with outbox := s.sch.outbox ++ [.debug (readMem s spa len)] } } else s)

/-- Block rings take their requests and complete them (R42, R44, R62, R63): a read writes the blocks' bytes at BUF, a write programs the
bytes of BUF, a trim leaves each block's bytes free. That the transfer is made when the request is taken, the media's outcome changing
the status alone (log 48), that a completion entry that cannot be written is lost (log 45), and that BUF is read in the parts that answer
(log 52) are the model's choices. -/
def Obligations.BlockRings : Prop :=
  ∀ (s : State) (op q idx : Nat) (i : Instr) (vd : Vd) (mediaOk : Bool),
    let v := s.sch.sel.vd.val
    let n := s.sch.sel.n
    ((i = .blockRead ∧ op = 1) ∨ (i = .blockWrite ∧ op = 2) ∨ (i = .blockTrim ∧ op = 3) ∨ (i = .blockFlush ∧ op = 4) →
        ∀ p x e, findQp s v n = some p → p.cfg.block = true → Qp.takes p = true → readHead s v p = (x, .ok (e, false)) →
          bit (wCtrl e) 31 = ownerBit p.head p.cfg.sqLog2 → wOp e = op →
          let eng := ioEng v p.cfg.asid
          let taken := fun (st : Option Nat) (t : State) => ∃ z, findQp t v n = some z ∧ z.head = p.head + 1 ∧ z.tail = p.tail
            ∧ ∃ o ∈ z.ops, o.idx = p.head.toNat ∧ o.entry = e ∧ o.status = st
          let inside := fun (ns lba : Nat) => ns = bNs e ∧ bLba e ≤ lba ∧ lba < bLba e + bCount e
          (∀ st, blockCheck e = some st → Goes s i (fun t => taken (some st) t ∧ t.mem.nand = s.mem.nand ∧ t.mem.trimmed = s.mem.trimmed))
          ∧ (blockCheck e = none → op = 1 → ∀ y z,
              engWriteN x eng (bBuf e) ((List.range (bCount e)).flatMap (fun k => nandBlock x (bNs e) (bLba e + k))) = (y, z) →
              (∀ u, z = .ok u → exec i s = .next (flushRecs (tookOp y v n p e none 0 0)))
              ∧ (z = .error .wait → exec i s = .next (flushRecs (askOnly x y)))
              ∧ (∀ err, z = .error err → err ≠ .wait → exec i s = .next (flushRecs (tookOp y v n p e (some 3) 0 0))))
          ∧ (blockCheck e = none → op = 2 → ∀ y b bad, readRest x eng p (bBuf e) (4096 * bCount e) = (y, b, bad, none) →
              (bad = true → Goes s i (fun t => taken (some 7) t ∧ t.mem.nand = s.mem.nand ∧ t.mem.trimmed = s.mem.trimmed))
              ∧ (bad = false → Goes s i (fun t => taken none t ∧ ∀ ns lba, lba < 2 ^ 40 → nandBlock t ns lba =
                  if inside ns lba then (List.range 4096).map (fun k => b.getD (4096 * (lba - bLba e) + k) 0) else nandBlock s ns lba)))
          ∧ (blockCheck e = none → op = 3 → Goes s i (fun t => taken none t ∧ ∀ ns lba, lba < 2 ^ 40 →
              (inside ns lba → ∃ k, nandBlock t ns lba = (List.range 4096).map (Config.trimByte k))
              ∧ (¬inside ns lba → nandBlock t ns lba = nandBlock s ns lba)))
          ∧ (blockCheck e = none → op = 4 → Goes s i (fun t => taken none t ∧ t.mem.nand = s.mem.nand ∧ t.mem.trimmed = s.mem.trimmed)))
    ∧ (∀ p o, findQp s vd.val q = some p → p.ops.find? (fun r => r.idx == idx) = some o → p.cfg.block = true → Qp.full p = false →
        let st := o.status.getD (if mediaOk = true then 0 else if wOp o.entry = 1 then 7 else 10)
        ∀ w ans, writeCq s vd.val q (leBytes 8 (field o.entry 32 8) ++ leBytes 2 st ++ leBytes 2 0) = (w, ans) →
          (ans = .wait → exec (.blockCompletion vd q idx mediaOk) s = .next (flushRecs (opDecided w vd.val q o st 0 0)))
          ∧ (ans ≠ .wait → Goes s (.blockCompletion vd q idx mediaOk) (fun t => ∃ z, findQp t vd.val q = some z ∧ z.ops = p.ops.erase o
              ∧ z.cqTail = (if ans = .written then p.cqTail + 1 else p.cqTail) ∧ z.error = (p.error || (ans == .fault || st != 0)))))

/-- Handshakes: keys, secure domains and their replies (R34, R66, R67, R72, R73). That a request of a wrong shape is BAD_ARG, that no free index
is BUSY, that the window cleared is that of the header's VD and that the extends that came first are served first are the model's choices
(log 61), and so are that mode 1 with VD 0 in byte 1 is BAD_ARG (log 63) and that one for a VD that does not run is (log 178). -/
def Obligations.Handshakes : Prop :=
  ∀ (s : State) (via : Transport) (msg : Bytes) (i : Instr),
    let a := serveAtt s
    let r := randomSeed a
    let v := mVd msg
    let f := hField msg
    let e := Config.kemEncaps f r.2
    let c := padTo 1568 e.1
    let report := fun (x : State) (parts : Bytes) => reportBytes x (shake256 parts 64)
    let bad := exec i s = .next (flushRecs (hReply a via msg 2 []))
    let told := fun (t x : State) (key : Option Bytes) (call : Nat) (body : Bytes) => ∀ port src rpid, via = .ue port src rpid →
      t.sch.outbox = x.sch.outbox ++ (if s.bdy.peerChk[port] = true ∧ egressOk s src = false then []
        else [.ue port.val (src ++ leBytes 2 rpid) false (withMac key (replyMsg v call (mSeq msg) 0 body))])
    let installs := fun (x : State) (d : Domain) (body : Bytes) =>
      (∀ k, freeDomain (dropPair x d) = some k → Goes s i (fun t => k < 4096 ∧ t.net.domains.find k = some d
        ∧ (∀ j, j ≠ k → t.net.domains.find j = (dropPair x d).net.domains.find j)
        ∧ (∀ j < k, (t.net.domains.find j).isSome = true)
        ∧ (rpcOf t v).high = 0 ∧ (rpcOf t v).map = 0 ∧ told t x (rpcOf x v).key (mCall msg) (body ++ leBytes 4 k)))
      ∧ (freeDomain (dropPair x d) = none → exec i s = .next (flushRecs (hReply (dropPair x d) via msg 3 [])))
    (i = .handshakeRpcKey via msg →
      (hMode msg ≠ 0 ∨ hShape msg = false ∨ vdUp a v = false → bad)
      ∧ (hMode msg = 0 → hShape msg = true → vdUp a v = true → Goes s i (fun t =>
          let key := shake256 (e.2 ++ ascii "KW-RPC" ++ leBytes 1 v) 32
          (rpcOf t v).key = some key ∧ (rpcOf t v).high = 0 ∧ (rpcOf t v).map = 0
          ∧ told t a (some key) 1 (c ++ report r.1 (hNonce msg ++ f ++ c)))))
    ∧ (i = .handshakeLocalDomain via msg →
      let b := field (mBody msg) 1 1
      (hMode msg ≠ 1 ∨ hShape msg = false ∨ v ≠ 0 ∨ b = 0 ∨ vdUp a b = false → bad)
      ∧ (hMode msg = 1 → hShape msg = true → v = 0 → b ≠ 0 → vdUp a b = true → installs r.1
          { vd := 0, peerPkg := none, peerVd := b, key := shake256 (e.2 ++ ascii "KW-SD" ++ leBytes 1 0 ++ leBytes 1 b) 32 }
          (c ++ report r.1 (hNonce msg ++ f ++ c))))
    ∧ (i = .handshakeOpen via msg →
      (hCross a msg 2 = false → bad)
      ∧ (hCross a msg 2 = true → Goes s i (fun t =>
          let k := Config.kemKeygen r.2
          let p : PendingKem := { vd := hLocal msg, pkg := hPkg msg, peerVd := hPeer msg, dk := k.2 }
          t.rpc.pending = a.rpc.pending.filter (fun q => !isPending msg q) ++ [p] ∧ (rpcOf t v).high = 0 ∧ (rpcOf t v).map = 0
          ∧ told t a (rpcOf a v).key (mCall msg) (padTo 1568 k.1 ++ report r.1 (hNonce msg ++ padTo 1568 k.1)))))
    ∧ (i = .handshakeAccept via msg →
      (hCross a msg 3 = false → bad)
      ∧ (hCross a msg 3 = true → installs r.1
          { vd := hLocal msg, peerPkg := some (hPkg msg), peerVd := hPeer msg, key := crossKey e.2 msg }
          (c ++ report r.1 (hNonce msg ++ f ++ c))))
    ∧ (i = .handshakeComplete via msg →
      (a.rpc.pending.find? (isPending msg) = none ∨ hCross a msg 4 = false → bad)
      ∧ (∀ p, a.rpc.pending.find? (isPending msg) = some p → hCross a msg 4 = true →
          let x := a.onRpc (fun y => { y with pending := y.pending.filter (fun q => !isPending msg q) })
          installs x { vd := hLocal msg, peerPkg := some (hPkg msg), peerVd := hPeer msg, key := crossKey (Config.kemDecaps p.dk f) msg }
            (report x (hNonce msg ++ f))))

/-- RPC_REPLY: answers and events (R66, R69, R71, R78). -/
def Obligations.ReplyRegister : Prop :=
  ∀ (s : State) (vd : Vd) (v : BitVec 64),
    let x := v.toNat
    let n := x % 64
    let r := rpcOf s vd.val
    let leaves := fun (t y : State) (via : Transport) (bad : Bool) (m : Bytes) => ∀ port src rpid, via = .ue port src rpid →
      t.sch.outbox = y.sch.outbox ++ (if s.bdy.peerChk[port] = true ∧ egressOk s src = false then []
        else [.ue port.val (src ++ leBytes 2 rpid) bad m])
    (r.slots.find n = none ∨ bits r.rx.toNat 4 0 ≤ n → exec (.rpcReply vd v) s = .next
        (flushRecs (onRpcVd s vd.val (fun q => { q with result := 1 }))))
    ∧ (∀ q, r.slots.find n = some q → n < bits r.rx.toNat 4 0 → ∀ y z,
        readMsg s vd.val (x / 64 * 64) (fun h => field h 5 1 == q.vd && mSeq h == q.seq.toNat && mCall h == q.call.toNat % 32768 + 32768) = (y, z) →
        (z = .error none → exec (.rpcReply vd v) s = .next (flushRecs y))
        ∧ (∀ e, z = .error (some e) → exec (.rpcReply vd v) s = .next (flushRecs (onRpcVd y vd.val (fun q => { q with result := BitVec.ofNat 8 e }))))
        ∧ (∀ m p, z = .ok (m, p) → Goes s (.rpcReply vd v) (fun t =>
            (rpcOf t vd.val).slots = (rpcOf y vd.val).slots.del n ∧ (rpcOf t vd.val).result = 0
            ∧ leaves t y q.via p (withMac (rpcOf y q.vd).key m))))
    ∧ (∀ y z, readMsg s vd.val (x / 64 * 64) (fun h => field h 5 1 == vd.val && mCall h == 0x8180) = (y, z) →
        (z = .error none → exec (.rpcEvent vd v) s = .next (flushRecs y))
        ∧ (∀ e, z = .error (some e) → exec (.rpcEvent vd v) s = .next (flushRecs (onRpcVd y vd.val (fun q => { q with result := BitVec.ofNat 8 e }))))
        ∧ (∀ m p, z = .ok (m, p) →
            let code := field (mBody m) 0 2
            ((rpcOf y vd.val).subAddr = none ∨ 64 ≤ code ∨ bit (rpcOf y vd.val).subMask.toNat code = false →
              exec (.rpcEvent vd v) s = .next (flushRecs (onRpcVd y vd.val (fun q => { q with result := 4 }))))
            ∧ (∀ via, (rpcOf y vd.val).subAddr = some via → code < 64 → bit (rpcOf y vd.val).subMask.toNat code = true →
              Goes s (.rpcEvent vd v) (fun t => (rpcOf t vd.val).result = 0 ∧ (rpcOf t vd.val).evSeq = (rpcOf y vd.val).evSeq + 1
                ∧ leaves t y via p (withMac (rpcOf y vd.val).key (splice m 8 (leBytes 8 (rpcOf y vd.val).evSeq.toNat)))))))

/-- The monitor's calls, as the serving software answers them (R24, R69, R71, R74, R75, R76, R81, R84, R123). How the software answers is the
model's choice: the bodies of PART_CREATE and CAL_SET, BAD_ARG for quota registers 0 and 6 and a free duration (log 62), BAD_ARG for VD 0
(log 63), and the order of ATTEST (log 60). -/
def Obligations.MonitorCalls : Prop :=
  ∀ (s : State) (slot : Fin 16) (q : RpcReq) (v : Vd) (k : Fin 10) (x : BitVec 64) (imgs : List (BitVec 64)) (off : Nat) (chunk : Bytes)
    (i : Instr),
    (rpcOf s 0).slots.find slot.val = some q →
    let ends := fun (y : State) (st : Nat) (body : Bytes) =>
      exec i s = .next (flushRecs (slotSend y 0 slot.val q false (replyMsg q.vd q.call.toNat q.seq.toNat st body)))
    let why := fun (y : State) => leBytes 1 (vdRec y v.val).reason.toNat
    (callKnown q.call.toNat q.vd = false → i = .attest slot ∨ i = .partCreate slot v imgs ∨ i = .partDestroy slot v ∨ i = .partReset slot v
        ∨ i = .quotaSet slot v k x ∨ i = .calSet slot imgs ∨ (∃ final, i = .imageLoad slot v off final chunk) → ends s 1 [])
    ∧ (i = .attest slot → q.call = 2 → ∀ y z, slotBody s 0 slot.val = (y, z) →
      (z = none → if slotWaits y 0 slot.val = true then exec i s = .next y else ends y 5 [])
      ∧ (∀ n, z = some n →
          let a := serveAtt y
          (n.length ≠ 64 → ends a 2 [])
          ∧ (n.length = 64 → ends { a with att := { a.att with rNonce := bits512 n, rStat := 0, rDone := true } } 0 (reportBytes a n))))
    ∧ (i = .partCreate slot v imgs → q.vd = 0 ∧ q.call = 0x10 →
      (v.val = 0 ∨ imgs.length ≠ 9 → ends s 2 [])
      ∧ (v.val ≠ 0 → imgs.length = 9 →
          let b := vdBuild s v.val
          let w := (List.range 9).foldl (fun y j => vdqWrite y v.val (j + 1) (imgs.getD j 0)) b
          (vdState s v.val ≠ .empty → ends b 4 (why b))
          ∧ (vdState s v.val = .empty →
              (vdState b v.val ≠ .built → ends b 4 (why b))
              ∧ (vdState b v.val = .built → vdRuns (vdRun w v.val) v.val = true → ends (vdRun w v.val) 0 [2])
              ∧ (vdState b v.val = .built → vdRuns (vdRun w v.val) v.val = false → ends (vdRun w v.val) 4 (why (vdRun w v.val))))))
    ∧ (i = .partDestroy slot v → q.vd = 0 ∧ q.call = 0x11 →
      (v.val = 0 → ends s 2 [])
      ∧ (v.val ≠ 0 →
          let d := vdDestroy s v.val
          (vdState s v.val = .built → vdState d v.val = .empty → ends d 0 [])
          ∧ (¬(vdState s v.val = .built ∧ vdState d v.val = .empty) → ends d 4 (why d))))
    ∧ (i = .partReset slot v → q.vd = 0 ∧ q.call = 0x12 →
      (v.val = 0 → ends s 2 [])
      ∧ (v.val ≠ 0 → vdState s v.val = .empty → ends (vdReset s v.val) 4 (why (vdReset s v.val)))
      ∧ (v.val ≠ 0 → vdState s v.val ≠ .empty →
          ends (freeValue (vdReset s v.val)).1 0 (leBytes 8 (freeValue (vdReset s v.val)).2.toNat)))
    ∧ (i = .quotaSet slot v k x → q.vd = 0 ∧ q.call = 0x13 →
      (k.val = 0 ∨ k.val = 6 → ends s 2 [])
      ∧ (k.val ≠ 0 → k.val ≠ 6 → vdState s v.val = .run ∨ vdState s v.val = .resetting →
          let y := if k.val ≤ 5 then vdqWrite s v.val k.val x else s
          ends y 4 (why y))
      ∧ (k.val ≠ 0 → k.val ≠ 6 → vdState s v.val = .empty ∨ vdState s v.val = .built →
          ends (vdqWrite s v.val k.val x) 0 (leBytes 8 (vdqRead (vdqWrite s v.val k.val x) v.val k.val))))
    ∧ (i = .calSet slot imgs → q.vd = 0 ∧ q.call = 0x14 →
      (imgs.length ≠ 4 → ends s 2 [])
      ∧ (imgs.length = 4 →
          let y := (List.range 4).foldl (fun y j => calWrite y j (imgs.getD j 0)) s
          ((∀ j < 4, calRead y j = (imgs.getD j 0).toNat) → ends y 0 [])
          ∧ ((∃ j < 4, calRead y j ≠ (imgs.getD j 0).toNat) → ends y 4 [0])))
    ∧ (q.vd = 0 ∧ q.call = 0x15 →
      let old := (s.rpc.images.find v.val).getD []
      let b := splice old off chunk
      let keep := { s with rpc := { s.rpc with images := s.rpc.images.put v.val b } }
      let done := { s with rpc := { s.rpc with images := s.rpc.images.del v.val } }
      let good := b.length = 4096 + field b 8 8 ∧ imageOk (b.take 4096) (fun n => (b.drop 4096).take n) 2 (2 ^ 32) = true
      (v.val = 0 ∨ old.length < off → ∀ final, i = .imageLoad slot v off final chunk → ends s 2 [])
      ∧ (v.val ≠ 0 → off ≤ old.length → i = .imageLoad slot v off false chunk → ends keep 0 [])
      ∧ (v.val ≠ 0 → off ≤ old.length → i = .imageLoad slot v off true chunk →
          (good → ends (extend (serveAtt done) 4 (headerDigest (b.take 4096))) 0 (headerDigest (b.take 4096)))
          ∧ (¬good → ends done 7 [])))

/-- The guest's calls, as the serving software answers them (R60, R74, R75, R76, R77, R78, R87). How the software answers is the model's choice:
LAUNCH's ring index, a step that asks another question left alone, and where FAULT and BAD_ARG are answered (log 62), and MAP and UNMAP
(log 65). -/
def Obligations.GuestCalls : Prop :=
  ∀ (s : State) (vd : Vd) (slot : Fin 16) (q : RpcReq) (req : MapReq) (asid : Fin 256) (va src dst len : Nat) (record : Bytes)
    (arg mask : BitVec 64) (i : Instr),
    (rpcOf s vd.val).slots.find slot.val = some q →
    let ends := fun (y : State) (st : Nat) (body : Bytes) =>
      exec i s = .next (flushRecs (slotSend y vd.val slot.val q false (replyMsg q.vd q.call.toNat q.seq.toNat st body)))
    let guest := fun (call : BitVec 16) => q.call = call ∧ q.vd ≠ 0
    let waits := fun (y : State) => if slotWaits y vd.val slot.val = true then exec i s = .next y else ends y 5 []
    (callKnown q.call.toNat q.vd = false → i = .launch vd slot record ∨ i = .map vd slot req ∨ i = .unmap vd slot asid va len
        ∨ i = .copy vd slot asid src dst len ∨ i = .subscribe vd slot mask → ends s 1 [])
    ∧ (q.vd = 0 → 0x100 ≤ q.call.toNat → q.call.toNat ≤ 0x104 → callKnown q.call.toNat q.vd = false)
    ∧ (i = .launch vd slot record → guest 0x100 → ∀ x b, slotBody s vd.val slot.val = (x, b) →
      let l := lqOf x vd.val
      let n := lqLog2 x vd.val
      let full := 2 ^ n ≤ (l.tail - l.head).toNat ∨ ∃ e ∈ x.lq.launches, e.vd = vd.val ∧ e.idx.toNat % 2 ^ n = l.tail.toNat % 2 ^ n
      (b = none → waits x)
      ∧ (∀ r, b = some r → r ≠ record → exec i s = .next s)
      ∧ (b = some record →
        (record.length ≠ 256 → ends x 2 [])
        ∧ (record.length = 256 → full → ends x 3 [])
        ∧ (record.length = 256 → ¬full → ∀ y z,
            gpaWriteN x (ioEng vd.val 0) (lqBase x vd.val + 256 * (l.tail.toNat % 2 ^ n)) (splice (splice record 2
              (leBytes 2 (setBits (field record 2 2) 15 15 (ownerBit l.tail n).toNat))) 56 (leBytes 8 0)) = (y, z) →
            (z = .error .wait → exec i s = .next x)
            ∧ (∀ e, z = .error e → e ≠ .wait → ends y 5 [])
            ∧ (∀ u, z = .ok u → ends (lqTailStore y vd.val (l.tail + 1)) 0 (leBytes 4 l.tail.toNat)))))
    ∧ (i = .map vd slot req → guest 0x101 →
      let clash := ∃ w ∈ s.trn.windows, w.1 = vd.val ∧ w.2.1 = req.asid.val ∧ overlap w.2.2.1 w.2.2.2.1 (req.va / 4096) (req.len / 4096) = true
      (pageRange req.va req.len = false ∨ clash → ends s 2 [])
      ∧ (pageRange req.va req.len = true → ¬clash →
          (∀ gpa, req.source = .frames gpa → gpa % 4096 = 0 → gpa + req.len ≤ 2 ^ 48 → (∀ p ∈ req.pool, p % 4096 = 0 ∧ p < 2 ^ 48) → ∀ y z,
            mapPages vd.val req.asid.val req.perm.val (req.len / 4096) req.va gpa req.pool s = (y, z) →
            (z = true → ends (release y 0 vd.val 5 0xFF) 0 []) ∧ (z = false → ends y 5 []))
          ∧ (∀ gpa, req.source = .frames gpa → (gpa % 4096 ≠ 0 ∨ 2 ^ 48 < gpa + req.len ∨ ∃ p ∈ req.pool, p % 4096 ≠ 0 ∨ 2 ^ 48 ≤ p) →
            ends s 2 [])
          ∧ ((∀ gpa, req.source ≠ .frames gpa) →
            ends { s with trn := { s.trn with windows := s.trn.windows ++ [(vd.val, req.asid.val, req.va / 4096, req.len / 4096, req.source)] } } 0 [])))
    ∧ (i = .unmap vd slot asid va len → guest 0x102 →
      let mine := s.trn.windows.filter (fun w => w.1 == vd.val && w.2.1 == asid.val && overlap w.2.2.1 w.2.2.2.1 (va / 4096) (len / 4096))
      let cut := ∃ w ∈ mine, w.2.2.1 < va / 4096 ∨ (va + len) / 4096 < w.2.2.1 + w.2.2.2.1
      let r := unmapPages vd.val asid.val va (va + len) (len / 4096) va s
      (pageRange va len = false ∨ cut → ends s 2 [])
      ∧ (pageRange va len = true → ¬cut → r.2 = false → ends s 2 [])
      ∧ (pageRange va len = true → ¬cut → r.2 = true →
          let y := { r.1 with trn := { r.1.trn with windows := r.1.trn.windows.filter (fun w => !mine.contains w) } }
          ends (unmapRange (release y 0 vd.val 5 0xFF) 0 vd.val asid.val va len) 0 []))
    ∧ (i = .copy vd slot asid src dst len → guest 0x103 → ∀ y z, engReadBits s (ioEng vd.val asid.val) src len = (y, z) →
      (∀ e, z = .error e → if e = .wait then exec i s = .next y else ends y 5 [])
      ∧ (∀ b p, z = .ok (b, p) → ∀ y' z', engWriteBits y (ioEng vd.val asid.val) dst b (fun k => p.getD k false) = (y', z') →
          (∀ e, z' = .error e → if e = .wait then exec i s = .next y' else ends y' 5 []) ∧ (∀ u, z' = .ok u → ends y' 0 [])))
    ∧ (guest 0x104 → i = .queryInterfaceVersion vd slot arg ∨ i = .queryPackageTime vd slot arg ∨ i = .queryLaunchStatus vd slot arg
        ∨ i = .queryRasRing vd slot arg ∨ i = .queryLaunchQueue vd slot arg → ∀ y z, slotBody s vd.val slot.val = (y, z) →
      (z = none → waits y)
      ∧ (∀ b, z = some b → b.length ≠ 16 ∨ zeros b 2 8 = false ∨ 4 < field b 0 2 → ends y 2 [])
      ∧ (∀ b, z = some b → b.length = 16 → zeros b 2 8 = true →
          let item := field b 0 2
          let same := field b 8 8 = arg.toNat
          (item = 0 → i = .queryInterfaceVersion vd slot arg → same → arg = 0 → ends y 0 (leBytes 8 1))
          ∧ (item = 1 → i = .queryPackageTime vd slot arg → same → arg = 0 → ends y 0 (leBytes 8 (nsNow y)))
          ∧ (item = 3 → i = .queryRasRing vd slot arg → same → arg = 0 → ends y 0 (leBytes 8 (rasRead y vd.val 1) ++ leBytes 8 (rasRead y vd.val 2)))
          ∧ (item = 4 → i = .queryLaunchQueue vd slot arg → same → arg = 0 → ends y 0 (leBytes 8 (lqRead y vd.val 8) ++ leBytes 8 (lqRead y vd.val 0x20)))
          ∧ ((item = 0 ∧ i = .queryInterfaceVersion vd slot arg) ∨ (item = 1 ∧ i = .queryPackageTime vd slot arg) ∨ (item = 3 ∧ i = .queryRasRing vd slot arg)
              ∨ (item = 4 ∧ i = .queryLaunchQueue vd slot arg) → same → arg ≠ 0 → ends y 2 [])
          ∧ (item = 2 → i = .queryLaunchStatus vd slot arg → same → (65536 ≤ arg.toNat → ends y 2 [])
              ∧ (arg.toNat < 65536 →
                  let k := arg.toNat % 2 ^ lqLog2 y vd.val
                  let open_ := ∃ e ∈ y.lq.launches, e.vd = vd.val ∧ e.idx.toNat % 2 ^ lqLog2 y vd.val = k
                  (open_ → ends y 0 (leBytes 8 0))
                  ∧ (¬open_ → ∀ x w, gpaReadN y (ioEng vd.val 0) (lqBase y vd.val + 256 * k + 56) 8 = (x, w) →
                      (∀ e, w = .error e → if e = .wait then exec i s = .next x else ends x 5 [])
                      ∧ (∀ b p, w = .ok (b, p) → if p = true then ends x 5 [] else ends x 0 b))))
          ∧ (item ≤ 4 → ¬same ∨ (item ≠ 0 ∧ i = .queryInterfaceVersion vd slot arg) ∨ (item ≠ 1 ∧ i = .queryPackageTime vd slot arg)
              ∨ (item ≠ 2 ∧ i = .queryLaunchStatus vd slot arg) ∨ (item ≠ 3 ∧ i = .queryRasRing vd slot arg)
              ∨ (item ≠ 4 ∧ i = .queryLaunchQueue vd slot arg) → exec i s = .next s)))
    ∧ (i = .subscribe vd slot mask → q.call = 0x105 → ∀ y z, slotBody s vd.val slot.val = (y, z) →
      (z = none → waits y)
      ∧ (∀ b, z = some b → (b.length = 8 → field b 0 8 ≠ mask.toNat → exec i s = .next s)
          ∧ (b.length = 8 → field b 0 8 = mask.toNat → mask.toNat < 32 → ends y 0 (leBytes 8 q.was.toNat))
          ∧ (b.length = 8 → field b 0 8 = mask.toNat → 32 ≤ mask.toNat → ends y 2 [])
          ∧ (b.length ≠ 8 → ends y 2 [])))

/-- The life of a virtual device: BUILD, RUN, RESET and DESTROY (R79, R81, R84). RESET as one step, with what it drops, is the model's choice
(log 66), as is that REASON names the first failing check (log 67) and that a new key is one more in its identifier's count (log 68). -/
def Obligations.VirtualDeviceLife : Prop :=
  ∀ (s : State) (i : Instr),
    let v := s.sch.sel.vd.val
    let r := vdRec s v
    let rec_ := fun (t : State) (x : VdRec) => vdRec t v = x ∧ ∀ u, u ≠ v → vdRec t u = vdRec s u
    let refused := fun (t : State) (n : BitVec 8) => rec_ t { r with refused := true, reason := n }
    (i = .vdBuild ∨ i = .vdRun ∨ i = .vdDestroy → v = 0 ∨ r.st = .resetting → exec i s = .next s)
    ∧ (v = 0 ∨ r.st = .resetting → exec .vdReset s = .next (flushRecs s))
    ∧ (v ≠ 0 →
      (r.st = .empty → ∀ k, freeKid s = some k → 1 ≤ k ∧ k ≤ 63 ∧ kidUsed s k = false ∧ (∀ j, 1 ≤ j → j < k → kidUsed s j = true)
        ∧ Goes s .vdBuild (fun t => rec_ t { r with st := .built, keyValid := true, kid := BitVec.ofNat 6 k }
            ∧ t.trn.keyGen.at 0 k = s.trn.keyGen.at 0 k + 1))
      ∧ (r.st = .empty → freeKid s = none → Goes s .vdBuild (fun t => refused t 5))
      ∧ (r.st = .built ∨ r.st = .run → Goes s .vdBuild (fun t => refused t 4))
      ∧ (r.st = .built → runReason s v = 0 → Goes s .vdRun (fun t => rec_ t { r with st := .run }
          ∧ (∀ k, k % 16 = v → t.vds.lent.find k = none)
          ∧ ∀ k, inRange (k / 4096 % 16) (accBase s v) (accCnt s v) = true → tileIn s v (k / 4096 % 16) = true →
              t.loc.residue.at 0 k = 0))
      ∧ (r.st = .built → runReason s v ≠ 0 → Goes s .vdRun (fun t => refused t (BitVec.ofNat 8 (runReason s v))))
      ∧ (r.st = .empty ∨ r.st = .run → Goes s .vdRun (fun t => refused t 4) ∧ Goes s .vdDestroy (fun t => refused t 4))
      ∧ (r.st = .built → (∀ e ∈ s.trn.fot, ¬(e.2.st = .owned ∧ e.2.owner = v)) →
          Goes s .vdDestroy (fun t => rec_ t { r with st := .empty, keyValid := false, kid := 0 }))
      ∧ (r.st = .built → (∃ e ∈ s.trn.fot, e.2.st = .owned ∧ e.2.owner = v) → Goes s .vdDestroy (fun t => refused t 6))
      ∧ (r.st = .run → Goes s .vdReset (fun t => vdState t v = .built ∧ (∀ g ∈ t.cores.groups, g.vd ≠ v)
          ∧ (∀ b ∈ t.cores.blocks, b.vd ≠ v) ∧ (∀ l ∈ t.lq.launches, l.vd ≠ v) ∧ (∀ k ∈ t.lq.tasks, k.vd ≠ v)
          ∧ (∀ d ∈ t.net.domains, joins d.2 v = false) ∧ (∀ c ∈ t.loc.colls, c.vd ≠ v)))
      ∧ (r.st = .run ∨ r.st = .built → Goes s .vdReset (fun t => vdState t v = .built
          ∧ (rpcOf t v).slots = [] ∧ (rpcOf t v).key = none ∧ (rpcOf t v).rx = 0
          ∧ (∀ e ∈ t.trn.tlb, e.vd ≠ v) ∧ t.trn.keyGen.at 0 r.kid.toNat = s.trn.keyGen.at 0 r.kid.toNat + 1))
      ∧ (r.st = .empty → Goes s .vdReset (fun t => refused t 4)))

/-- Quota registers, the calendar's owners, register writes and the RAS ring (R79, R81, R82, R123, R236, R6). -/
def Obligations.QuotasCalendarAndRings : Prop :=
  ∀ (s : State) (v : Vd) (k : Fin 10) (j : Fin 4) (x : BitVec 64) (tgt : RegTarget),
    let b := (ringOf s v.val).base.toNat
    (1 ≤ k.val → k.val ≤ 5 → vdState s v.val = .empty ∨ vdState s v.val = .built → Goes s (.vdqQuotaWrite v k x) (fun t =>
        vdqRead t v.val k.val = (x &&& vdqMask k.val).toNat ∧ ∀ m, m ≠ k.val → m ≤ 9 → vdqRead t v.val m = vdqRead s v.val m))
    ∧ (1 ≤ k.val → k.val ≤ 5 → vdState s v.val = .run ∨ vdState s v.val = .resetting → Goes s (.vdqQuotaWrite v k x) (fun t =>
        vdRec t v.val = { vdRec s v.val with refused := true, reason := 4 }))
    ∧ (k.val = 7 ∨ k.val = 8 ∨ k.val = 9 → Goes s (.vdqQuotaWrite v k x) (fun t =>
        vdqRead t v.val k.val = (x &&& vdqMask k.val).toNat ∧ ∀ m, m ≠ k.val → m ≤ 9 → vdqRead t v.val m = vdqRead s v.val m))
    ∧ (k.val = 6 → Goes s (.vdqQuotaWrite v k x) (fun t => t = flushRecs s))
    ∧ (k.val = 0 → Goes s (.vdqQuotaWrite v k x) (fun t => t = flushRecs (vdCmd
        (setVd s v.val (fun r => { r with priv := bit x.toNat 5, refused := r.refused && !bit x.toNat 6 })) v.val (x.toNat % 8))))
    ∧ (Goes s (.calOwnWrite j x) (fun t =>
        let new : Vector DWord 4 := s.vds.calLast.set j x
        let fits := ∀ u : Vd, (u.val = 0 ∨ vdState s u.val = .run ∨ vdState s u.val = .resetting) → ∃ n < 64, slotOwner new n = u.val
        (fits → t = { s with vds := { s.vds with calLast := new } }) ∧ (¬fits → t = s)))
    ∧ Goes s .calendarRoundStart (fun t => t = { s with vds := { s.vds with calForce := s.vds.calLast } })
    ∧ Goes s (.registerWrite tgt x) (fun t => match tgt with
        | .csr core i => (match csrFind 0 i with
            | some (r, who) => t = flushRecs (if who = .none then s else (csrWrite s core.val true x.toNat r).1)
            | none => t = s)
        | .page u gpa => t = flushRecs (pageWrite s u.val gpa x.toNat))
    ∧ (bit b 0 = true → Goes s (.rasBaseWrite v x) (fun t =>
        (ringOf t v.val).base.toNat = b - 1 + (bit x.toNat 0 && logOk (bits b 6 2)).toNat ∧ (ringOf t v.val).tail = (ringOf s v.val).tail))
    ∧ (bit b 0 = false → Goes s (.rasBaseWrite v x) (fun t =>
        let lg := if 6 ≤ bits x.toNat 6 2 ∧ bits x.toNat 6 2 ≤ 16 then bits x.toNat 6 2 else bits b 6 2
        (ringOf t v.val).base.toNat = x.toNat / 4096 * 4096 + 4 * lg + (bit x.toNat 0 && logOk lg).toNat
        ∧ (ringOf t v.val).tail = (ringOf s v.val).tail))
    ∧ Goes s (.rasHeadWrite v x) (fun t => ringOf t v.val =
        if ((ringOf s v.val).tail - BitVec.ofNat 32 x.toNat).toNat ≤ 2 ^ bits b 6 2 then
          { ringOf s v.val with head := BitVec.ofNat 32 x.toNat }
        else ringOf s v.val)

/-- Solder windows and shadow frames (R228, R229, R231). That a write is ignored while EN is 1 (log 69), that a new key is one more in its
identifier's count (log 68), and which leaves a shadow is put under, and when waiting walks go on (log 113), are the model's choices. -/
def Obligations.SolderAndShadows : Prop :=
  ∀ (s : State) (n : Fin 64) (v : BitVec 64),
    let w := solderOf s n.val
    let x := v.toNat
    let q : Solder := { w with vda := BitVec.ofNat 4 (bits x 43 40), vdb := BitVec.ofNat 4 (bits x 47 44) }
    let m := s.sch.sel.n
    let u := s.sch.sel.vd.val
    let p := poolOf s u
    (w.en = true → exec (.solderWindowEnable n v) s = .next s)
    ∧ (w.en = false → solderRefused s q = true ∨ wordsGood s q = some false → Goes s (.solderWindowEnable n v) (fun t =>
        solderOf t n.val = { w with refused := true } ∧ t.trn.fot = s.trn.fot))
    ∧ (w.en = false → solderRefused s q = false → wordsGood s q = none → exec (.solderWindowEnable n v) s = .next s)
    ∧ (w.en = false → solderRefused s q = false → wordsGood s q = some true → ∀ k, freeKid s = some k → Goes s (.solderWindowEnable n v) (fun t =>
        solderOf t n.val = { q with en := true, refused := w.refused && !bit x 1, holderB := false, kid := BitVec.ofNat 6 k }
        ∧ t.trn.keyGen.at 0 k = s.trn.keyGen.at 0 k + 1
        ∧ (∀ f ∈ w.frames, frameAt t f = { Frame.free with st := .solder, owner := q.vda.toNat, kid := k % 64, peer := q.vdb.toNat, swin := n.val })
        ∧ ∀ f, f ∉ w.frames → frameAt t f = frameAt s f))
    ∧ ((solderOf s m).en = false → exec .solderWindowDisable s = .next s)
    ∧ ((solderOf s m).en = true → Goes s .solderWindowDisable (fun t => solderOf t m = { solderOf s m with en := false, kid := 0 }
        ∧ (∀ f ∈ (solderOf s m).frames, frameAt t f = Frame.free) ∧ ∀ f, f ∉ (solderOf s m).frames → frameAt t f = frameAt s f))
    ∧ (snapOf s u m = none → exec .snapshotShadow s = .next (migDone s))
    ∧ (∀ lid gpa, snapOf s u m = some (lid, gpa) →
        let g := poolEntry s u p.used.toNat
        let can := p.used ≠ p.count ∧ (frameAt s g).st = .owned ∧ (frameAt s g).owner = 0 ∧ ∃ l, frameLeaves s u m = some l ∧ l ≠ []
        (¬can → exec .snapshotShadow s = .next (migDone s))
        ∧ (can → Goes s .snapshotShadow (fun t => (poolOf t u).used = p.used + 1 ∧ (poolOf t u).count = p.count
            ∧ (frameAt t g).st = .shadow ∧ (frameAt t g).owner = u ∧ (frameAt t g).link = m
            ∧ ∃ z ∈ t.trn.shadows, z.lid = lid ∧ z.vd = u ∧ z.frame = g ∧ z.primary = m)))

/-- L1 ways and scheduled replacement (R160, R161, R164, R172, R173). That a surrender settles in one step (log 117), that a refused EN
leaves EN and LOADED 0 and what its RANGE entries match (log 118), which of several reasons REASON shows (log 167), and that a table read
with poison is refused (log 176), are the model's choices. -/
def Obligations.WaysAndSchedules : Prop :=
  ∀ (s : State) (vd : Vd) (v : BitVec 64),
    let w := waysOf s vd.val
    let why := waysReason s vd.val v.toNat
    let u := s.sch.sel.vd.val
    let q := schedOf s u
    (why = 0 → Goes s (.l1WaysegWrite vd v) (fun t =>
        waysOf t vd.val = { w with busy := true, next := v, leaving := w.ways &&& ~~~v } ∧ t.mem = s.mem))
    ∧ (why ≠ 0 → Goes s (.l1WaysegWrite vd v) (fun t => waysOf t vd.val = { w with refused := true, reason := BitVec.ofNat 8 why }
        ∧ t.mem = s.mem ∧ t.sch = s.sch))
    ∧ ((waysOf s u).busy = false → exec .waySurrenderComplete s = .next s)
    ∧ ((waysOf s u).busy = true → Goes s .waySurrenderComplete (fun t =>
        waysOf t u = { waysOf s u with busy := false, ways := (waysOf s u).next, next := 0, leaving := 0 }
        ∧ (∀ e ∈ t.mem.l1, e.2.vd = u → bit (waysOf s u).leaving.toNat (e.1 % 4096 / 64) = false)
        ∧ ∀ k, bit (waysOf s u).leaving.toNat (k % 131072 / 2048) = true → t.loc.sram.at 0 k = 0))
    ∧ (mscSchedOk s u = false → Goes s .mscScheduleEnable (fun t =>
        schedOf t u = { q with en := false, loaded := false, refused := true }))
    ∧ (mscSchedOk s u = true → ∀ y z, gpaReadN s (ioEng u 0) q.tbl.toNat 4096 = (y, z) →
        (z = .error .wait → exec .mscScheduleEnable s = .next (flushRecs y))
        ∧ ((∃ e, z = .error e ∧ e ≠ .wait) ∨ (∃ b, z = .ok (b, true)) → Goes s .mscScheduleEnable (fun t => (schedOf t u).en = false
          ∧ (schedOf t u).loaded = false ∧ (schedOf t u).refused = true))
        ∧ (∀ b, z = .ok (b, false) → Goes s .mscScheduleEnable (fun t => (schedOf t u).en = true ∧ (schedOf t u).loaded = true
          ∧ (schedOf t u).step = 0 ∧ (schedOf t u).entries = (schedCopy y u b).2)))
    ∧ Goes s .mscScheduleDisable (fun t => schedOf t u = { q with en := false, loaded := false, entries := [] }
        ∧ (∀ e ∈ t.mem.msc, e.2.vd = u → e.2.stamp = 0) ∧ t.mem.cells = s.mem.cells)

/-- Slice pairs: enabling, disabling and the switch (R124, R125, R126, R127). That the first switch is at the next microsecond plus SLICE, that
SWITCHES counts every switch, that writes are ignored while EN is 1 and that a switch is one step are the model's choices (log 145). -/
def Obligations.SlicePairs : Prop :=
  ∀ (s : State) (n : Fin 4) (v : BitVec 64),
    let p := pairAt s n.val
    let x := v.toNat
    let q : SlicePair := { p with vda := BitVec.ofNat 4 (bits x 43 40), vdb := BitVec.ofNat 4 (bits x 47 44), slice := BitVec.ofNat 16 (bits x 63 48) }
    let m := s.sch.sel.n
    let r := pairAt s m
    (p.en = true → exec (.slicePairEnable n v) s = .next s)
    ∧ (p.en = false → pairRefused s n.val q = true ∨ savesOk s q = some false →
        Goes s (.slicePairEnable n v) (fun t => pairAt t n.val = { p with refused := true }))
    ∧ (p.en = false → pairRefused s n.val q = false → savesOk s q = none → exec (.slicePairEnable n v) s = .next s)
    ∧ (p.en = false → pairRefused s n.val q = false → savesOk s q = some true → Goes s (.slicePairEnable n v) (fun t =>
        pairAt t n.val =
          { q with en := true, refused := p.refused && !bit x 1, holderB := false, savedA := false, savedB := false, stopped := false,
                   nextNs := (nsNow s / 1000 + 1) * 1000 + 1000 * q.slice.toNat }
        ∧ ∀ b ∈ s.cores.blocks, touchesPair s q b = true → ∃ b' ∈ t.cores.blocks, b'.bid = b.bid ∧ b'.inRegion = some n.val))
    ∧ (m < 4 →
      (r.en = false → exec .slicePairDisable s = .next s)
      ∧ (r.en = true → Goes s .slicePairDisable (fun t => pairAt t m =
          if (if r.holderB = true then r.savedA else r.savedB) = true then { r with refused := true } else { r with en := false, stopped := false })
        ∧ ((if r.holderB = true then r.savedA else r.savedB) = false → Goes s .slicePairDisable (fun t => ∀ b ∈ t.cores.blocks, b.inRegion ≠ some m)))
      ∧ (r.en = false ∨ r.stopped = true ∨ nsNow s < r.nextNs → exec .sliceSwitch s = .next (flushRecs s))
      ∧ (r.en = true → r.stopped = false → r.nextNs ≤ nsNow s → Goes s .sliceSwitch (fun t =>
          (pairAt t m).holderB = !r.holderB ∧ (pairAt t m).switches = r.switches + 1 ∧ (pairAt t m).switching = false ∧ (pairAt t m).en = true
          ∧ (pairAt t m).nextNs = max (r.nextNs + 1000 * r.slice.toNat) (nsNow s)
          ∧ (if r.holderB = true then (pairAt t m).savedA = false else (pairAt t m).savedB = false)
          ∧ ((if r.holderB = true then r.savedA else r.savedB) = false →
              (∀ k, rowInPair r k = true → t.loc.rows.at 0 k = 0) ∧ (∀ k, sramInPair r k = true → t.loc.sram.at 0 k = 0)
              ∧ ∀ k, tileInPair r k = true → t.loc.tiles.at 0 k = 0))))

/-- The launch unit takes, completes and kills launches (R87, R94, R95, R96, R97, R232, R241). That a kill is one step which waits for the stores
and atomics that its work has issued (log 150), what a refused record does to ERROR and CNT and the order of its checks (log 73), and the
address spaces in which a record and its tables lie (log 71) are the model's choices. -/
def Obligations.LaunchUnit : Prop :=
  ∀ (s : State) (vd : Vd) (lid : Nat),
    let v := s.sch.sel.vd.val
    let q := lqOf s v
    let at_ := fun (y : State) => lqBase y v + 256 * (q.head.toNat % 2 ^ lqLog2 y v)
    let taken := fun (y : State) (b : Bytes) => ({ lid := y.lq.nextId, prev := q.last, vd := v, idx := q.head, slotVa := at_ y, asid := (trnOf y v).uasid.toNat, record := b, rank := 0, nbrs := [], shareBase := 0, shareCnt := 0, cursor := 0, dispatched := 0, resident := 0, ended := 0, teamDie := [], replays := 0, killing := none, snap := [] } : Launch)
    let n := s.sch.sel.n
    (lqReady s v = false → exec .launchTakeRecord s = .next (flushRecs (reap s)))
    ∧ (lqReady s v = true → ∀ y,
        (recordAt s v = (y, .later) → exec .launchTakeRecord s = .next (flushRecs (reap y)))
        ∧ (recordAt s v = (y, .invalid) → exec .launchTakeRecord s = .next (flushRecs (reap (onLqRegs y v (fun r => { r with stopped := true })))))
        ∧ (recordAt s v = (y, .bad) → q.stopped = true → exec .launchTakeRecord s = .next (flushRecs (reap y)))
        ∧ (recordAt s v = (y, .bad) → q.stopped = false → Goes s .launchTakeRecord (fun t =>
            (lqOf t v).stopped = true ∧ (lqOf t v).error = true ∧ (lqOf t v).head = (lqOf y v).head))
        ∧ (∀ b z, recordAt s v = (y, .good b) →
            let took := onLqRegs z v (fun r => { r with stopped := false, head := r.head + 1 })
            (launchCheck y (taken y b) = (z, .error none) → exec .launchTakeRecord s = .next (flushRecs (reap z)))
            ∧ (∀ r, launchCheck y (taken y b) = (z, .error (some r)) →
              (doneWaits z v (at_ y) = true → exec .launchTakeRecord s = .next (flushRecs (reap z)))
              ∧ (doneWaits z v (at_ y) = false → exec .launchTakeRecord s = .next (flushRecs (reap (launchRefuse took (taken y b) r)))))
            ∧ (∀ l, launchCheck y (taken y b) = (z, .ok l) → Goes s .launchTakeRecord (fun t =>
              (lqOf t v).head = (lqOf z v).head + 1 ∧ (lqOf t v).stopped = false ∧ (lqOf t v).last = some l.lid
                ∧ ∃ x ∈ t.lq.launches, x.lid = l.lid ∧ x.record = l.record ∧ x.prev = l.prev ∧ x.cursor = l.cursor ∧ x.snap = l.snap))))
    ∧ ((findLaunch s n = none ∨ (∃ l, findLaunch s n = some l ∧ (launchDone s l = false ∨ doneWaits s l.vd l.slotVa = true))) →
        exec .launchComplete s = .next s)
    ∧ (∀ l, findLaunch s n = some l → launchDone s l = true → doneWaits s l.vd l.slotVa = false → Goes s .launchComplete (fun t =>
        (∀ x ∈ t.lq.launches, x.lid ≠ n) ∧ t = reap (finishLaunch (promoteShadows s l.lid) l (1 + l.replays))))
    ∧ (findLaunch s lid = none → exec (.launchKill vd (.launch lid)) s = .next s)
    ∧ (∀ l, findLaunch s lid = some l → (∀ r ∈ s.net.remoteOps, r.owner = .launch lid → (r.store || r.atomic) = false) →
        ((l.snapOn = true ∧ l.replays < 2) ∨ doneWaits (discardWork s (.launch lid)) l.vd l.slotVa = false) →
        Goes s (.launchKill vd (.launch lid)) (fun t =>
        (∀ g ∈ t.cores.groups, g.owner ≠ .launch lid) ∧ (∀ b ∈ t.cores.blocks, b.owner ≠ .launch lid)
        ∧ (l.snapOn = true → l.replays < 2 → ∃ x ∈ t.lq.launches, x.lid = lid ∧ x.cursor = 0 ∧ x.dispatched = 0 ∧ x.resident = 0
            ∧ x.replays = l.replays + 1 ∧ x.killing = none)
        ∧ (¬(l.snapOn = true ∧ l.replays < 2) → ∀ x ∈ t.lq.launches, x.lid ≠ lid)))
    ∧ (findTask s lid = none → exec (.launchKill vd (.task lid)) s = .next s)
    ∧ (∀ l, findLaunch s lid = some l → ((∃ r ∈ s.net.remoteOps, r.owner = .launch lid ∧ (r.store || r.atomic) = true)
          ∨ (¬(l.snapOn = true ∧ l.replays < 2) ∧ doneWaits (discardWork s (.launch lid)) l.vd l.slotVa = true)) →
        exec (.launchKill vd (.launch lid)) s = .next (discardWork s (.launch lid)))
    ∧ ((∃ r ∈ s.net.remoteOps, r.owner = .task lid ∧ (r.store || r.atomic) = true) → findTask s lid ≠ none →
        exec (.launchKill vd (.task lid)) s = .next (discardWork s (.task lid)))
    ∧ (∀ k, findTask s lid = some k → (∀ r ∈ s.net.remoteOps, r.owner = .task lid → (r.store || r.atomic) = false) →
        Goes s (.launchKill vd (.task lid)) (fun t =>
        (∀ g ∈ t.cores.groups, g.owner ≠ .task lid) ∧ (∀ x ∈ t.lq.tasks, x.tid ≠ lid)
        ∧ ∀ e ∈ t.lq.ready, ∀ r ∈ e.2, ∀ cl, r.resume ≠ some (lid, cl)))

/-- The dispatchers place blocks, teams and tasks (R91, R100, R108, R110, R112, R114, R115, R116, R117). That a turn of another kind of placement
is handed on (log 2), how the toggle stands after each placement (log 78), that an unreadable billet kills its task (log 79), and a worker's
slot and what it waits for (logs 81, 82), are the model's choices. -/
def Obligations.Dispatchers : Prop :=
  ∀ s : State,
    let v := s.sch.sel.vd.val
    let d := s.sch.sel.die.val
    let n := s.sch.sel.n
    let placed := fun (i : Instr) (l : Launch) (x : List (Nat × Fit)) => Goes s i (fun t =>
      t.cores.blocks.length = s.cores.blocks.length + x.length
      ∧ (∃ y ∈ t.lq.launches, y.lid = l.lid ∧ y.cursor = l.next.getD 0 + x.length ∧ y.dispatched = l.dispatched + x.length)
      ∧ (∀ b ∈ t.cores.blocks.drop s.cores.blocks.length, b.owner = .launch l.lid ∧ b.vd = l.vd ∧ ∃ e ∈ x, b.core = e.1 ∧ b.rowStart = e.2.row)
      ∧ (∀ g ∈ t.cores.groups.drop s.cores.groups.length, g.owner = .launch l.lid ∧ g.vd = l.vd ∧ g.width = l.width ∧ g.regs = l.regs
          ∧ ∀ k ∈ g.threads, k.st = .ready ∧ k.pc = BitVec.ofNat 64 (l.f 8 8))
      ∧ t.lq.toggles.at false (4 * l.vd + d) = true)
    let four : List Instr := [.placeBlock, .placeTeam, .placeTask, .phaseResume]
    let ready := s.lq.toggles.at false (4 * v + d)
    (launchOffer s v d = none → taskOffer s v d = none → ∀ i ∈ four, exec i s = .next s)
    ∧ (∀ l x, launchOffer s v d = some (l, x) → taskOffer s v d = none ∨ ready = false →
        let i : Instr := if l.level 3 = none then .placeBlock else .placeTeam
        placed i l x ∧ ∀ j ∈ four, j ≠ i → exec j s = .next (s.push (.ev i s.sch.sel)))
    ∧ (∀ r core f, taskOffer s v d = some (r, core, f) → launchOffer s v d = none ∨ ready = true →
        (r.resume = none → (∀ j ∈ four, j ≠ .placeTask → exec j s = .next (s.push (.ev .placeTask s.sch.sel))) ∧ Goes s .placeTask (fun t =>
          readyOf t v d = (readyOf s v d).erase r
          ∧ (∃ k, t.lq.tasks = s.lq.tasks ++ [k] ∧ k.tid = s.lq.nextId ∧ k.vd = v ∧ k.core = core ∧ k.packet = r.packet ∧ k.handle = r.handle)
          ∧ (∀ h, r.handle = some h → (counterAt t h.toNat).st = .running)
          ∧ ∀ g ∈ t.cores.groups.drop s.cores.groups.length, g.owner = .task s.lq.nextId ∧ g.core = core
              ∧ ∀ k ∈ g.threads, k.st = .ready ∧ k.pc = BitVec.ofNat 64 (pkEntry r.packet) ∧ k.preds = 0))
        ∧ (∀ tid cl, r.resume = some (tid, cl) →
            (∀ j ∈ four, j ≠ .phaseResume → exec j s = .next (s.push (.ev .phaseResume s.sch.sel))) ∧ ∀ y z,
            engReadN s (swEng s (clusterOfCore core) v r.asid) (pkBillet r.packet) (64 + 8 * pkWidth r.packet
              + 4 * pkWidth r.packet * pkCarryCnt r.packet + 256 * pkCscr r.packet) = (y, z) →
            (z = .error .wait → exec .phaseResume s = .next (reap y))
            ∧ ((∃ e, z = .error e ∧ e ≠ .wait) ∨ (∃ b, z = .ok (b, true)) →
                exec .phaseResume s = .next (reap (startKill (takeReady y v d r) v (.task tid) 0)))
            ∧ (∀ b, z = .ok (b, false) → exec .phaseResume s = .next (reap (resumeKnow (resumeFrom (startTask (onTask (takeReady y v d r) tid
                (fun k => { k with core := core })) tid v r.asid core r.packet [] f).1 tid core f.row r.packet b) tid)))))
    ∧ (workerIdle s v d n = false → exec .stageWorkerTake s = .next (flushRecs s))
    ∧ (workerIdle s v d n = true → ∀ y z,
        let w := (govOf s v d).worker n
        let g := (govOf s v d).stage (wkStage w)
        gpaReadN s (ioEng v 0) (g.base + 256 * (g.head.toNat % 2 ^ g.log)) 256 = (y, z) →
        (z = .error .wait → exec .stageWorkerTake s = .next (flushRecs y))
        ∧ ((∃ e, z = .error e ∧ e ≠ .wait) ∨ (∃ b, z = .ok (b, true)) → exec .stageWorkerTake s = .next (flushRecs (stageFail y v d (wkStage w) g)))
        ∧ (∀ b, z = .ok (b, false) →
            (bit (field b 1 1) 7 ≠ ownerBit g.head g.log → exec .stageWorkerTake s = .next (flushRecs y))
            ∧ (bit (field b 1 1) 7 = ownerBit g.head g.log → (pkOk b && !pkPhased b && fitsGrant y v (pkNeed b)) = false →
                Goes s .stageWorkerTake (fun t => ((govOf t v d).stage (wkStage w)).head = ((govOf y v d).stage (wkStage w)).head + 1
                  ∧ t.lq.tasks = y.lq.tasks))
            ∧ (bit (field b 1 1) 7 = ownerBit g.head g.log → (pkOk b && !pkPhased b && fitsGrant y v (pkNeed b)) = true →
                workerFit y v (wkCore w) (wkSlot w) (pkNeed (b.take (16 * field b 0 1))) = none → exec .stageWorkerTake s = .next (flushRecs y))
            ∧ (bit (field b 1 1) 7 = ownerBit g.head g.log → (pkOk b && !pkPhased b && fitsGrant y v (pkNeed b)) = true →
                ∀ f, workerFit y v (wkCore w) (wkSlot w) (pkNeed (b.take (16 * field b 0 1))) = some f → Goes s .stageWorkerTake (fun t =>
                  ((govOf t v d).stage (wkStage w)).head = ((govOf y v d).stage (wkStage w)).head + 1
                  ∧ ∃ k ∈ t.lq.tasks, k.worker = some n ∧ k.vd = v ∧ k.core = wkCore w ∧ k.packet = b.take (16 * field b 0 1)))))

/-- Dependence counters, the ends of tasks, the governor and collectives (R102, R103, R104, R105, R111, R371, R374). That decrements are listed
by source, and discarded for a VD that does not run (log 80), a collective's order, data and named context (log 143) and its beats (log 144)
are the model's choices. -/
def Obligations.CountersAndTasks : Prop :=
  ∀ (s : State) (vd : Vd) (peers : CollPeers),
    let d := s.sch.sel.die.val
    let v := s.sch.sel.vd.val
    let n := s.sch.sel.n
    exec .counterDecrement s = .next (flushRecs (applyDecs s d 4))
    ∧ (s.lq.decs = [] → applyDecs s d 4 = s)
    ∧ (∀ (x : Dec) (h : BitVec 32), s.lq.decs = [x] → x.handles = [h] → bits h.toNat 31 30 = d →
        let c := counterAt s h.toNat
        let y := { s with lq := { s.lq with decs := [] } }
        let t := decrement y x.vd x.core x.asid h.toNat x.rels
        applyDecs s d 4 = (match x.after with | some (ep, w) => landGo t ep w | none => t)
        ∧ (vdRuns s x.vd = false → t = y)
        ∧ (vdRuns s x.vd = true → c.st = .armed → 1 < c.value.toNat → counterAt t h.toNat = { c with value := c.value - 1 })
        ∧ (vdRuns s x.vd = true → c.st = .armed → c.value.toNat ≤ 1 → counterAt t h.toNat = { c with st := .ready, value := 0 }
            ∧ ∃ r ∈ readyOf t c.vd (pkTarget c.packet d), r.handle = some h ∧ r.packet = c.packet ∧ r.pri = pkPri c.packet)
        ∧ (vdRuns s x.vd = true → c.st ≠ .armed → counterAt t h.toNat = { c with poison := true }
            ∧ (c.poison = true → t.cores = s.cores)
            ∧ (c.poison = false → (t.cores.posts.getLast?).map (fun p => (p.core, p.vd, p.gid, p.entry)) = some (x.core.getD (208 * d), x.vd, none,
                svqEntry 0x0D 0 x.vd 0 0xFF 0 0 h.toNat 0 [] x.asid))))
    ∧ ((findTask s n = none ∨ (∃ k, findTask s n = some k ∧ taskDone s k = false)) → exec .taskComplete s = .next s)
    ∧ (∀ k, findTask s n = some k → taskDone s k = true →
        let hs := (pkSucc k.packet).filter (handleOk s k.vd)
        Goes s .taskComplete (fun t => (∀ x ∈ t.lq.tasks, x.tid ≠ n)
          ∧ (∀ h, k.handle = some h → (counterAt t h.toNat).st = .free)
          ∧ (hs ≠ [] → ∃ x ∈ t.lq.decs, x.vd = k.vd ∧ x.core = some k.core ∧ x.asid = k.asid ∧ x.handles = hs.map (BitVec.ofNat 32))))
    ∧ (bit (govOf s v d).ctl.toNat 0 = false → exec .governorEvaluate s = .next s)
    ∧ (bit (govOf s v d).ctl.toNat 0 = true → ((govMoves (govOf s v d)).map (·.1)).Nodup → Goes s .governorEvaluate (fun t =>
        (∀ m ∈ govMoves (govOf s v d), (govOf t v d).worker m.1 = setBits ((govOf s v d).worker m.1) 26 24 m.2)
        ∧ (∀ k, k ∉ (govMoves (govOf s v d)).map (·.1) → (govOf t v d).worker k = (govOf s v d).worker k)
        ∧ (govOf t v d).stages = (govOf s v d).stages))
    ∧ ((s.loc.colls.filter (fun c => c.vd == vd.val && c.ctx.isSome))[n]? = none → exec (.collComplete vd peers) s = .next s)
    ∧ (∀ c, (s.loc.colls.filter (fun c => c.vd == vd.val && c.ctx.isSome))[n]? = some c →
        let ps := c.peers.getD peers
        let x := { s with loc := { s.loc with colls := s.loc.colls.map (fun x => if x.cid = c.cid then { x with peers := some ps } else x) } }
        (c.beats < c.need → exec (.collComplete vd peers) s = .next x)
        ∧ (c.need ≤ c.beats →
          let ends := fun (t : State) => exec (.collComplete vd peers) s = .next (flushRecs (reap t))
          let e := ioEng c.vd c.asid
          let keep := fun (t : State) (o : Nat × CollOut) =>
            { t with loc := { t.loc with colls := t.loc.colls.map (fun x => if x.cid = c.cid then { x with out := some o } else x) } }
          let closes := fun (t : State) =>
            let z := if bit (field c.desc 3 1) 1 = true then sendDecs t c.vd c.asid coKey none [field c.desc 52 4] (rels := [c.rel]) else t
            ends (collFill { z with loc := { z.loc with colls := z.loc.colls.filter (fun x => x.cid != c.cid) } })
          let signal := fun (t : State) (st : Nat) =>
            let word := leBytes 4 (if st = 0 then field c.desc 48 4 else mxError st)
            (bit (field c.desc 3 1) 0 = false → closes t)
            ∧ (bit (field c.desc 3 1) 0 = true → ∀ z r, engWriteN t e (field c.desc 40 8) word = (z, r) →
                (r = .error .wait → ends (keep z (st, 0, [], [])))
                ∧ (∀ f, r = .error f → f ≠ .wait → closes z)
                ∧ (∀ u, r = .ok u → closes (tellVa z e (field c.desc 40 8) word [c.rel])))
          (c.out = none → ∀ y, collRun x c ps = (y, none) → ends y)
          ∧ (∀ y st va out bad, c.out = some (st, va, out, bad) ∧ y = x
                ∨ c.out = none ∧ collRun x c ps = (y, some (st, out, bad)) ∧ va = field c.desc 16 8 →
              ∀ w r, collWrite y e (out.length / 128 + 2) (va, out, bad) = (w, r) →
                (r = none → signal w 2)
                ∧ (∀ va' bad', r = some (va', [], bad') → signal w st)
                ∧ (∀ va' left bad', r = some (va', left, bad') → left ≠ [] → ends (keep w (st, va', left, bad'))))))

/-- Active sets, timers and the queues' retries (R79, R138, R142, R143, R146, R147, R148). That the count of issue cycles starts again whether or
not groups were exchanged (log 153), that TIMER is set while the comparison holds (log 88), that a VTCORE above 831 posts nothing (log 89),
that the batch timer reads as stopped once it has expired (log 166) and that the watchdog's time starts again when it fires (log 174) are the
model's choices. -/
def Obligations.CoreTimers : Prop :=
  ∀ (s : State) (i : Instr),
    let c := s.sch.sel.core.val
    let v := s.sch.sel.vd.val
    let q := s.sch.sel.n % 4
    let r := vdRec s v
    let sq := svqOf s c v
    (Goes s .activeSetRotate (fun t => t.cores.issue.find (issueKey c q v) = none
        ∧ (∀ g h, oldestActive s c q v = some g → oldestPending s c q v = some h → t.cores.groups = s.cores.groups.map (fun x =>
            if x.gid = h.gid then { x with active := true, since := s.sch.cycle }
            else if x.gid = g.gid then { x with active := false, since := s.sch.cycle } else x))
        ∧ (oldestActive s c q v = none ∨ oldestPending s c q v = none → t.cores.groups = s.cores.groups)))
    ∧ (nsNow s < (mandrelOf s c).mtcmp.toNat → exec .mandrelTimer s = .next s)
    ∧ ((mandrelOf s c).mtcmp.toNat ≤ nsNow s → Goes s .mandrelTimer (fun t => mandrelOf t c = { mandrelOf s c with mip := (mandrelOf s c).mip ||| 1 }
        ∧ ∀ k, k ≠ c → mandrelOf t k = mandrelOf s k))
    ∧ (vtDue s v = false → exec .virtualTimerFire s = .next s)
    ∧ (vtDue s v = true → Goes s .virtualTimerFire (fun t => vdRec t v = { r with vtimer := r.vtimer &&& 0x7FFFFFFFFFFFFFFF }
        ∧ (vtCore s v < 832 → (t.cores.posts.getLast?).map (fun p => (p.core, p.vd, p.gid)) = some (vtCore s v, v, none))
        ∧ (832 ≤ vtCore s v → t.cores = s.cores)))
    ∧ (batchDue s c v = false → exec .svqBatchTimer s = .next s)
    ∧ (batchDue s c v = true → Goes s .svqBatchTimer (fun t => batch t c v = true ∧ (svqOf t c v).timer = none ∧ (svqOf t c v).expired = true
        ∧ (svqOf t c v).head = sq.head ∧ (svqOf t c v).tail = sq.tail))
    ∧ (watchdogDue s c v = false → exec .svqWatchdog s = .next s)
    ∧ (watchdogDue s c v = true → Goes s .svqWatchdog (fun t => svqOf t c v = { sq with wdFired := true, batchSince := some s.sch.cycle }
        ∧ mandrelOf t c = { mandrelOf s c with mip := (mandrelOf s c).mip ||| BitVec.twoPow 64 (32 + v) }))
    ∧ (i = .svqPostRetry ∨ i = .svqWaiterPost →
        (svqWaiters s c v = 0 → exec i s = .next s)
        ∧ (∀ p, s.cores.posts.filter (fun x => x.core == c && x.vd == v && x.idx.isNone) = [p] →
            s.cores.posts.find? (fun x => x.num == p.num) = some p →
            (bit sq.base.toNat 0 = false ∨ sq.count = 256 ∨ halted s c = true → exec i s = .next s)
            ∧ (∀ y a, bit sq.base.toNat 0 = true → sq.count ≠ 256 → halted s c = false → svqSlot s c v sq.tail.toNat = (y, some a) →
                Goes s i (fun t => (svqOf t c v).tail = sq.tail + 1 ∧ (svqOf t c v).head = sq.head
                  ∧ ∀ x ∈ t.cores.posts, x.num = p.num → x.idx = some sq.tail))))

/-- Swap-out, restore, walks, counter wraps, line fetches and the ends of WAITA (R155, R156, R209, R221, R245, R348, R349). When the 4 us hold
starts and ends, and the place of a restore (log 86), that the wrapped line's minor counter becomes 1 (log 104), and which events have a
WAITA read its word again (log 98), are the model's choices. -/
def Obligations.GroupsAndMemoryEvents : Prop :=
  ∀ (s : State) (cl : Cluster) (vd : Vd) (asid : Fin 256) (va : BitVec 64) (acc : WalkAcc),
    let n := s.sch.sel.n
    let u := s.sch.sel.k
    let a := 128 * n
    (findGroup s n = none → exec .groupSwapOut s = .next s ∧ exec .groupRestore s = .next s ∧ exec .fetchLine s = .next s
        ∧ exec .waitaWake s = .next s ∧ exec .waitaTimeout s = .next s)
    ∧ (∀ g, findGroup s n = some g →
        (g.heldSince = none ∨ swappable s g = false ∨ (∃ c, g.heldSince = some c ∧ s.sch.cycle < c + 5200) → exec .groupSwapOut s = .next s)
        ∧ (∀ c, g.heldSince = some c → swappable s g = true → c + 5200 ≤ s.sch.cycle → Goes s .groupSwapOut (fun t =>
            ∃ g', findGroup t n = some g' ∧ g'.resid = .frame false ∧ g'.active = false ∧ g'.ibuf = [] ∧ g'.heldSince = none))
        ∧ (g.resid ≠ .frame true ∨ restoreSpot s g = none → exec .groupRestore s = .next s)
        ∧ (∀ x, g.resid = .frame true → restoreSpot s g = some x → Goes s .groupRestore (fun t =>
            ∃ g', findGroup t n = some g' ∧ g'.resid = .core ∧ g'.quarter = x.quarter ∧ g'.slot = x.slot ∧ g'.rowBase = x.row
              ∧ g'.since = s.sch.cycle))
        ∧ (canIssue s g = false → exec .fetchLine s = .next s)
        ∧ (canIssue s g = true → ∀ y,
            (∀ b, convoyLine s g g.choosePc (g.convoyAt g.choosePc) = (y, .ok b) → exec .fetchLine s = .next (flushRecs y))
            ∧ (∀ e, convoyLine s g g.choosePc (g.convoyAt g.choosePc) = (y, .error e) → exec .fetchLine s =
                .next (flushRecs (finish y g.gid g.choosePc ((g.convoyAt g.choosePc).map (fun i => (i, trapDone e)))))))
        ∧ ((∀ r, (g.thread u).st ≠ .wait (.waita r)) → exec .waitaWake s = .next s ∧ exec .waitaTimeout s = .next s)
        ∧ (g.resid ≠ .core → exec .waitaWake s = .next s ∧ exec .waitaTimeout s = .next s)
        ∧ (∀ r y, g.resid = .core → (g.thread u).st = .wait (.waita r) →
            let on := wakeThreads y (fun h i _ => h.gid == n && i == u) Thread.goOn
            (waStep s g u r false = (y, .next) → exec .waitaWake s = .next on)
            ∧ (waStep s g u r true = (y, .next) → exec .waitaTimeout s = .next on)
            ∧ (waStep s g u r false = (y, .wait (.waita r)) → exec .waitaWake s = .next y)
            ∧ (waStep s g u r true = (y, .wait (.waita r)) → exec .waitaTimeout s = .next y)
            ∧ (∀ e, waStep s g u r false = (y, .trap e) → exec .waitaWake s = .next (flushRecs (takeTraps y g (g.thread u).pc.toNat [(u, e)])))
            ∧ (∀ e, waStep s g u r true = (y, .trap e) → exec .waitaTimeout s = .next (flushRecs (takeTraps y g (g.thread u).pc.toNat [(u, e)])))))
    ∧ exec (.tableWalk cl vd asid va acc) s = .next (flushRecs (lookup s cl.val vd.val asid.val va.toNat
        { write := acc.write, fetch := acc.fetch, user := acc.user, sup := false }).1)
    ∧ (lineMinor s a ≠ 127 → exec .minorCounterWrap s = .next s)
    ∧ (lineMinor s a = 127 → Goes s .minorCounterWrap (fun t => lineMinor t a = 1
        ∧ t.mem.major.at 0 (majorKey 0 (homeStack a) (localLine a / 64)) = s.mem.major.at 0 (majorKey 0 (homeStack a) (localLine a / 64)) + 1
        ∧ (∀ b, homeStack b = homeStack a → localLine b / 64 = localLine a / 64 → lineMinor s b ≠ 0 → lineMinor t b = 1)
        ∧ t.mem.cells = s.mem.cells))

/-- The Swage: contexts, beats and the completion of fills and drains (R122, R175, R176, R177, R178, R215, R235). That a drain's bytes are taken
at its start and a RAW beat is written at once (log 134), and that work takes any free context (log 136), are the model's choices. -/
def Obligations.SwageWork : Prop :=
  ∀ s : State,
    let cl := s.sch.sel.cl.val
    let v := s.sch.sel.vd.val
    let i := s.sch.sel.n % 8
    let key := swageCtxKey cl i
    let ends := fun (x : Instr) (y : State) => exec x s = .next (flushRecs (reap y))
    (swageNext s cl v = none → ends .swageContextStart s)
    ∧ (∀ j k, swageNext s cl v = some (j, k) →
        let y := { s with loc := { s.loc with swageQueue := s.loc.swageQueue.put cl ((s.loc.swageQueue.at [] cl).erase j) } }
        let w := winOf s j.core j.entry
        (findBlock s w.blk = none → ends .swageContextStart y)
        ∧ (∀ b, findBlock s w.blk = some b →
            (w.early s ≠ 0 → ends .swageContextStart (windowFail y j.core j.entry (w.early s)))
            ∧ (w.early s = 0 → Goes s .swageContextStart (fun t => ∃ c, t.loc.swage.find (swageCtxKey cl k) = some c ∧ c.job = j ∧ c.pos = 0
                ∧ c.stopped = none ∧ c.buf = (if j.drain = true then (drainPayload y b w).1 else [])))))
    ∧ (s.loc.swage.find key = none → ends .swageBeat s ∧ ends .windowFillComplete s ∧ ends .windowDrainComplete s)
    ∧ (∀ c, s.loc.swage.find key = some c →
        let w := winOf s c.job.core c.job.entry
        let x := { s with loc := { s.loc with swageLast := s.loc.swageLast.put (16 * cl + c.job.vd) i } }
        let e := swEng x cl c.job.vd c.job.asid
        (findBlock s w.blk = none → ends .swageBeat (freeSwage x key))
        ∧ (∀ b, findBlock s w.blk = some b →
            (c.stopped.isSome = true ∨ b.here s = false ∨ w.payload ≤ c.pos → ends .swageBeat x)
            ∧ (c.stopped = none → b.here s = true → c.pos < w.payload →
                let r := if c.job.drain = true then beatDrain x e key b w c
                  else if w.kind = 2 then beatHalo x key b w c
                  else if w.comp = 1 then beatComp x e key b w c
                  else beatFill x e key b w c
                (∀ st, r.2 = .failed st → ends .swageBeat (windowFail (freeSwage r.1 key) c.job.core c.job.entry st))
                ∧ (∀ va n, r.2 = .fault va n .wait → ends .swageBeat r.1)
                ∧ (∀ va n f, r.2 = .fault va n f → f ≠ .wait → ends .swageBeat (swageStop r.1 key va n c.job.drain f))
                ∧ (r.2 = .moved → ∀ c', r.1.loc.swage.find key = some c' → ends .swageBeat
                    (if w.payload ≤ c'.pos then swageDone r.1 cl i c.job.drain else r.1)))
            ∧ (w.fmt = 0 → 0 < w.rowLen →
                let o := c.pos % w.rowLen
                let va := (w.src + c.pos / w.rowLen * w.pitch + o) % 2 ^ 64
                let n := min (w.rowLen - o) (128 - va % 128)
                ∀ y d p h, swageRead x e c.held va n = (y, .ok (d, p), h) → y.loc.swage.find key = some c →
                  (beatFill x e key b w c).2 = .moved ∧ (beatFill x e key b w c).1.loc.sram = (winPut y b w c.pos d (fun i => p.getD i false)).loc.sram
                  ∧ (beatFill x e key b w c).1.loc.swage.find key = some { c with held := h, pos := c.pos + n }))
        ∧ (c.job.drain = true ∨ winHere s w = false ∨ c.pos < w.payload → ends .windowFillComplete s)
        ∧ (c.job.drain = false ∨ winHere s w = false ∨ c.pos < w.payload → ends .windowDrainComplete s)
        ∧ (c.job.drain = false → winHere s w = true → w.payload ≤ c.pos → ends .windowFillComplete
            (let y := onWin (winAction (freeSwage s key) cl w c.job.know) c.job.core c.job.entry (fun w => { w with st := .present })
             let waits := fun (g : Group) (z : Thread) => g.core == c.job.core && z.st == .wait (.window c.job.entry)
             (threadsOf y waits).foldl (fun z g => g.2.foldl (fun z u => learn z (threadAgent g.1.gid u) (swageRel y cl 1 1 c.job.know).know) z)
              (wakeThreads y (fun g _ z => waits g z) Thread.again)))
        ∧ (c.job.drain = true → winHere s w = true → w.payload ≤ c.pos →
            let y := freeSwage s key
            let bd := { boundOf s c.job.core c.job.vd w.bnd with action := BitVec.ofNat 2 c.action }
            ends .windowDrainComplete (winEmpty (winAction (if w.bnd = 0xFF then y else boundEnd y c.job.core c.job.vd c.job.asid w.bnd bd c.viol
              ((c.first.map BitVec.toNat).getD 0) (jobPc y c.job) (workTag y (blockOwner y w.blk))) cl w c.job.know) c.job.core c.job.entry)))

/-- The Anvil: entries, passes, drains, completions and ramp-down (R180, R181, R182, R185, R305, R361, R364, R365, R367): a pass adds its products
to the tile, and a drain writes the tile's elements into the window. A drain as one step, the oldest waiter taking a freed entry first and the
ramp-down's count (log 137), and that a tile which is not held waits (log 138), are the model's choices. -/
def Obligations.AnvilWork : Prop :=
  ∀ s : State,
    let cl := s.sch.sel.cl.val
    let v := s.sch.sel.vd.val
    let key := s.sch.sel.n
    let away := fun (x : Nat × Nat) => ∃ g, findGroup s x.1 = some g ∧ g.resid ≠ .core
    ((∀ x ∈ s.loc.mxQueue.at [] (engineKey cl v), away x) ∨ freeEntry s cl v = none → exec .anvilEntryAccept s = .next s)
    ∧ (∀ before gid u after e g d m ops n, s.loc.mxQueue.at [] (engineKey cl v) = before ++ (gid, u) :: after → (∀ x ∈ before, away x) →
        freeEntry s cl v = some e → findGroup s gid = some g → g.resid = .core →
        (g.thread u).st = .wait (.mxEntry d m ops n) → clusterOfCore g.core = cl →
        Goes s .anvilEntryAccept (fun t => t.loc.mxQueue.at [] (engineKey cl v) = before ++ after
          ∧ (∃ a, t.loc.entries.find (entryKey cl e) = some a ∧ a.gid = g.gid ∧ a.tid = u ∧ a.vd = g.vd ∧ a.ops = ops ∧ a.mdr = m
            ∧ a.gen = (s.loc.gens.at 0 (entryKey cl e) + 1) % 65536 ∧ a.done = 0 ∧ a.status = 0 ∧ a.issued = n)
          ∧ ∃ g', findGroup t gid = some g' ∧ (g'.thread u).pc = nextPc (g.thread u).pc))
    ∧ (mxWinner (mxSurvey s cl v).1 cl v (mxSurvey s cl v).2 = none → exec .anvilPass s = .next (flushRecs (mxSurvey s cl v).1))
    ∧ (∀ k e, mxWinner (mxSurvey s cl v).1 cl v (mxSurvey s cl v).2 = some (k, e) → ((mxSurvey s cl v).2.map (·.1)).Nodup →
        let y := (mxSurvey s cl v).1
        Goes s .anvilPass (fun t =>
          (∀ a, y.loc.entries.find k = some a → t.loc.entries.find k = some { a with done := a.done + 1, passed := 0 })
          ∧ (engineOf t cl v).last = some k ∧ (engineOf t cl v).busy = mxCycles e - 1 ∧ (engineOf t cl v).burst = true
          ∧ (∀ m < 64, ∀ n < 64, ∀ x, e.index m = some x → tileWord t cl e.tile m n = BitVec.ofNat 32 (rnd f32 .rn (sumFl false
              (f32.dec (tileWord y cl e.tile m n).toNat :: (List.range 48).map (fun j =>
                (mxElem e.atype (mxA y cl e e.done x).1 j).mul (bVal e (mxB y cl e e.done).1 j n))))))
          ∧ (∀ m < 64, ∀ n < 64, e.index m = none → tileWord t cl e.tile m n = tileWord y cl e.tile m n)
          ∧ ∀ m < 64, tileBad t cl e.tile m = (tileBad y cl e.tile m
              || (e.index m).any (fun x => (mxB y cl e e.done).2 || (mxA y cl e e.done x).2 || e.tainted))))
    ∧ (∀ k e, s.loc.entries.find k = some e → e.mdr = none → mxFirst s cl e = true → e.validate s = 0 → e.done < e.ksteps → tileIn s e.vd e.tile = true →
        bit e.flags 0 = true → e.zeroed = false →
        (∀ m < 64, ∀ n < 64, tileWord (mxNext s cl k).1 cl e.tile m n = 0) ∧ (mxNext (mxNext s cl k).1 cl k).1.loc.tiles = (mxNext s cl k).1.loc.tiles)
    ∧ (s.loc.entries.find key = none → exec .anvilOpComplete s = .next s ∧ exec .anvilDrainComplete s = .next s)
    ∧ (∀ e, s.loc.entries.find key = some e →
        (e.mdr.isSome = true ∨ (∃ b, findBlock s e.blk = some b ∧ b.here s = false) → exec .anvilOpComplete s = .next s)
        ∧ (e.mdr = none → (∀ b, findBlock s e.blk = some b → b.here s = true) →
            let z := match findBlock s e.blk with
              | none => s
              | some b =>
                let w := spadWordPut (spadWordPut s e.blk (leNat e.ops + 56) e.status) e.blk (leNat e.ops + 60) e.done
                if bit e.flags 2 = true ∧ e.woff % 4 = 0 ∧ e.woff + 4 ≤ 256 * b.rowCount then
                  spadWordPut w e.blk e.woff (if e.status = 0 then e.f 44 4 else mxError e.status)
                else w
            let z := if bit e.flags 1 = true then sendDecs z e.vd e.asid (anvilKey (key / 32)) none [e.f 36 4] (rels := [e.rel (key / 32) 5]) else z
            Goes s .anvilOpComplete (fun t => t = flushRecs (reap (freeEntryOf z (key / 32) key e)) ∧ t.loc.entries.find key = none))
        ∧ (∀ m b, e.mdr = some m → findBlock s e.blk = some b →
            (mxFirst s (key / 32) e && tileIn s e.vd e.tile && b.here s) = true →
            let y := if m.rclr = true then zeroResidue s (key / 32) e.tile else s
            let bd := boundOf s e.core e.vd m.bnd.val
            let r := drainAll y (key / 32) e m b bd
            let z := if m.clr = true then zeroTile r.1 (key / 32) e.tile else r.1
            let z := if m.ben = true then boundEnd z e.core e.vd e.asid m.bnd.val bd r.2.1 (r.2.2.getD 0) (some e.pc.toNat) (workTag z (blockOwner z e.blk)) else z
            Goes s .anvilDrainComplete (fun t => t = flushRecs (reap (freeEntryOf z (key / 32) key e)) ∧ t.loc.entries.find key = none))
        ∧ (∀ (m : MxdrainMod) (b : Block) (bd : Bound), m.ben = false → m.ef = false → field e.ops 12 4 % 256 = 0 →
            ∀ i < 64, ∀ j < 64,
              let sz := (drainEty m.dt).size
              let o := field e.ops 12 4 + sz * (64 * i + j)
              sramRead (drainAll s (key / 32) e m b bd).1 b.core (rangeWords (b.rowStart + field e.ops 0 4 / 256) (field e.ops 4 4) o sz) o sz
                = leBytes sz (drainElem m (tileWord s (key / 32) e.tile i j).toNat 0).1)
        ∧ (e.mdr = none ∨ (∀ b, findBlock s e.blk = some b → (mxFirst s (key / 32) e && tileIn s e.vd e.tile && b.here s) = false) →
            exec .anvilDrainComplete s = .next s))
    ∧ Goes s .anvilRampDown (fun t =>
        let x := engineOf s cl v
        engineOf t cl v = if x.burst = true then { x with down := true, filler := 23, withheldPasses := 0, withheldCycles := 0 } else x)

/-- VDOT forms a dot product into a 32-bit accumulator (R288). -/
def Obligations.VdotAccumulates : Prop :=
  ∀ (s : State) (h : Hdr) (m : VecMod) (d a b c : Opnd),
    let w := VecMod.width m
    let E := fun (o : Opnd) (s : State) (g : Group) (u j : Nat) => val m.u w (sub w (readOp s g u o 1) j)
    DoesReg s (.vdot h m d a b c) d 1 (fun s g u =>
      fit (val m.u 32 (readOp s g u c 1) + ((List.range (VecMod.count m)).map (fun j => E a s g u j * E b s g u j)).sum) 32 m.u m.sat)

/-- A store to TAIL moves it forward by at most half the index space, and restarts a stopped engine (R41). -/
def Obligations.TailStores : Prop :=
  ∀ (s : State) (vd : Vd) (q : Nat) (v : BitVec 64) (p : Qp),
    findQp s vd.val q = some p → p.evicted = false →
    let x := v.toNat % 65536
    let d := (x + 65536 - p.tail.toNat) % 65536
    Goes s (.qpTailWrite vd q v) (fun t =>
      (∃ z, findQp t vd.val q = some z ∧ z.tail.toNat = (if 1 ≤ d ∧ d ≤ 32768 then x else p.tail.toNat) ∧ z.stopped = false
        ∧ z = { p with tail := z.tail, stopped := false })
      ∧ ∀ v' : BitVec 64, 1 ≤ d → d ≤ 32768 → (x + 65536 - v'.toNat % 65536) % 65536 < 32768 →
          Goes t (.qpTailWrite vd q v') (fun t' => ∃ z, findQp t' vd.val q = some z ∧ z.tail.toNat = x))

/-- An illegal instruction, and one above the group's privilege, trap the whole convoy and have no other effect (R255, R263,
R145). -/
def Obligations.ChecksBeforeEffect : Prop :=
  ∀ (s : State) (i : Instr) (r : Raw) (c : Convoy) (g : Group),
    s.sch.ctx = some c → findGroup s c.gid = some g → i.raw = some r →
    let need : Nat := if r.opc = 0x85 ∨ r.opc = 0x86 ∨ 0xF0 ≤ r.opc then 2
      else if r.opc ∈ [0xB4, 0xB5, 0xE1, 0xE2, 0xE3, 0xE5, 0xE6, 0xE7, 0xE8, 0xE9, 0xEA, 0xEB, 0xEC, 0xED] then 1 else 0
    let mode : Nat := match g.priv with
      | .u => 0
      | .s => 1
      | .h => 2
    let takes := fun (tr : Trap) =>
      let x := flushRecs (finish s c.gid c.pc (c.tids.map (fun u => (u, Done.trap tr))))
      exec i s = .next (match i with
        | .exit _ => flushRecs (reap (exitTeam x c.gid))
        | .svret _ _ _ _ | .tret _ _ _ _ _ | .phase _ => flushRecs (reap x)
        | _ => x)
    let word := bytesOfNat 12 r.pack
    (legal i g = false → takes { cause := 0x02, arg := word })
    ∧ (legal i g = true → mode < need → takes { cause := 0x05, arg := word })

/-- A trap of a convoy holds its threads for one entry, or halts the core in privilege H (R145, R146, R149, R154). That
a group of VD 0 in a quarter halts its core as a mandrel lane does is the model's reading (log 94). -/
def Obligations.TrapEntries : Prop :=
  ∀ (s : State) (c : Convoy) (g : Group) (tr : Trap),
    Selected s c g → c.tids ≠ [] → tr.each = false → tr.cause ≠ 0x0E →
    (∀ u b, (g.thread u).st ≠ .held s.cores.nextNum b) →
    let t := finish s c.gid c.pc (c.tids.map (fun u => (u, Done.trap tr)))
    let n := s.cores.nextNum
    (g.priv ≠ .h → ∃ g', findGroup t c.gid = some g'
        ∧ (∀ u ∈ c.tids, (∃ posted, (g'.thread u).st = .held n posted) ∧ (g'.thread u).pc = c.pc ∧ (g'.thread u).preds = (g.thread u).preds)
        ∧ (∀ u, u ∉ c.tids → (g'.thread u).st = (g.thread u).st ∧ (g'.thread u).pc = (g.thread u).pc)
        ∧ SameRegs s t ∧ SameK g g' ∧ t.cores.nextNum = n + 1
        ∧ (∀ p ∈ s.cores.posts, p.num ≠ n → ∃ p' ∈ t.cores.posts, p'.num = p.num ∧ p'.entry = p.entry ∧ p'.idx = p.idx)
        ∧ ∃ p ∈ t.cores.posts, p.num = n ∧ p.core = g.core ∧ p.gid = some g.gid ∧ p.vd = (if g.priv = .u ∧ tr.s2 = false then g.vd else 0)
            ∧ p.entry = svqEntry tr.cause (1 + 2 * (if g.priv = .u then 0 else 1) + 4 * tr.s2.toNat + 8 * tr.write.toNat + 16 * tr.fetch.toNat)
                g.vd g.width (16 * g.quarter + g.slot) (c.tids.headD 0) c.pc.toNat tr.addr (maskOf c.tids) tr.arg g.asid)
    ∧ (g.priv = .h → halted s g.core = false →
        halted t g.core = true ∧ (∀ k, k ≠ g.core → halted t k = halted s k) ∧ t.cores.posts = s.cores.posts ∧ SameRegs s t
        ∧ ∃ b, t.ras.pending = [(0, b)] ∧ field b 0 1 = 0x07)

/-- What an instruction's end leaves of its convoy (R133, R134, R253, R295). -/
def Obligations.EndsOfThreads : Prop :=
  ∀ (s : State) (c : Convoy) (g : Group) (l : List (Nat × Done)),
    findGroup s c.gid = some g → s.ras.pending = [] → (l.map (·.1)).Nodup → c.tids.Nodup → (∀ u ∈ c.tids, u < g.threads.length) →
    (∀ e ∈ l, ∀ tr, e.2 ≠ .trap tr) →
    let t := goEnds s c l
    ∃ g', findGroup t c.gid = some g' ∧ SameRegs s t ∧ SameK g g' ∧ SamePreds g g' ∧ t.mem = s.mem ∧ OnlyGroup s t c
      ∧ (∀ u ∈ c.tids, (∀ e ∈ l, e.1 ≠ u) ∨ (u, Done.next) ∈ l → (g'.thread u).st = .ready ∧ (g'.thread u).pc = nextPc c.pc)
      ∧ (∀ u ∈ c.tids, ∀ p, (u, Done.jump p) ∈ l → (g'.thread u).st = .ready ∧ (g'.thread u).pc = p)
      ∧ (∀ u ∈ c.tids, ∀ w, (u, Done.wait w) ∈ l → (g'.thread u).st = .wait w ∧ (g'.thread u).pc = (g.thread u).pc)
      ∧ (∀ u ∈ c.tids, (u, Done.exit) ∈ l → (g'.thread u).st = .exited)
      ∧ ∀ u, u ∉ c.tids → (g'.thread u).st = (g.thread u).st ∧ (g'.thread u).pc = (g.thread u).pc ∧ (g'.thread u).age = (g.thread u).age

/-- A step takes the next turn, and a turn of a group runs the instruction its word decodes to (R134, R135, R243, R245, R255,
R259). The turns of a cycle, inputs first, and its phases are the model's listing (log 1), and so is that a paired slot takes no thread
whose join PC it is (log 140). -/
def Obligations.StepRunsDecoded : Prop :=
  ∀ s : State,
    let bare := { s with sch := { s.sch with ctx := none } }
    (∀ i sel rest, s.sch.inputs = (i, sel) :: rest → step s = exec i { bare with sch := { bare.sch with inputs := rest, sel := sel } })
    ∧ (s.sch.inputs = [] → s.sch.todo = [] →
        let x := flushRecs bare
        let y := { settleYields x with sch := { (settleYields x).sch with phase := .over } }
        (s.sch.phase = .opened → step s = .next (listTurns x))
        ∧ (s.sch.phase = .listed → dueDecs y = [] → step s = .next (newCycle y))
        ∧ (s.sch.phase = .listed → dueDecs y ≠ [] → step s = .next ((dueDecs y).foldl State.queue y))
        ∧ (s.sch.phase = .over → step s = .next (newCycle x)))
    ∧ (∀ i sel rest, s.sch.inputs = [] → s.sch.todo = .ev i sel :: rest →
        step s = exec i { bare with sch := { bare.sch with todo := rest, sel := sel } })
    ∧ (∀ d rest, s.sch.inputs = [] → s.sch.todo = .place d :: rest →
        let x := placeNow { bare with sch := { bare.sch with todo := rest } } ⟨d % 4, Nat.mod_lt _ (by decide)⟩
        (x.2 = none → step s = .next x.1) ∧ ∀ i, x.2 = some i → step s = exec i x.1)
    ∧ (∀ gid rest g, s.sch.inputs = [] → s.sch.todo = .issue gid :: rest → findGroup s gid = some g →
        let x := { bare with sch := { bare.sch with todo := rest } }
        let pc := g.choosePc
        let us := g.convoyAt pc
        let y := onGroup x gid (fun k => k.ageBy us s.sch.cycle)
        (canIssue x g = false → step s = .next x)
        ∧ (canIssue x g = true →
            (∀ z e, convoyLine y g pc us = (z, .error e) → step s = .next (flushRecs (finish z g.gid pc (us.map (fun u => (u, trapDone e))))))
            ∧ (∀ z b, convoyLine y g pc us = (z, .ok b) →
                let k := pc.toNat % 8
                let two := !g.mandrel && decide (k < 4) && bit (lineWord b) (5 + k)
                let z' := if two = true then { z with sch := { z.sch with todo := .pair g.gid (nextPc pc) (us.filter (fun u => (g.thread u).jpc != nextPc pc)) :: z.sch.todo } } else z
                (∀ i, decodeBytes (slotBytes b k) = some i →
                  step s = exec i { z' with sch := { z'.sch with ctx := some { gid := g.gid, pc := pc, tids := us } } })
                ∧ (decodeBytes (slotBytes b k) = none → step s = .next (flushRecs (finish z' g.gid pc
                    (us.map (fun u => (u, Done.trap (illegal (slotBytes b k)))))))))))
    ∧ (∀ gid pc us rest g, s.sch.inputs = [] → s.sch.todo = .pair gid pc us :: rest → findGroup s gid = some g →
        let x := { bare with sch := { bare.sch with todo := rest } }
        let ts := us.filter (fun u => (g.thread u).st == .ready && (g.thread u).pc == pc && (g.thread u).jpc != pc)
        (canIssue x g = false ∨ ts = [] → step s = .next x)
        ∧ (canIssue x g = true → ts ≠ [] → ∀ z b i, convoyLine x g pc ts = (z, .ok b) → decodeBytes (slotBytes b (pc.toNat % 8)) = some i →
            step s = exec i { z with sch := { z.sch with ctx := some { gid := g.gid, pc := pc, tids := ts } } }))

/-- The machine in cold reset (R14, R51, R79, R142, R224). The spec gives no value there for BOOT_STAT (0: log 11), memory (it reads 0: log 15)
and the frames (FREE: log 18), and the MSI-X mask is the family's (log 22): those clauses are the model's choices. -/
def Obligations.ResetState : Prop :=
  let s := State.reset
  s.pkg.rails = 0 ∧ s.pkg.pwrGood = false ∧ s.pkg.modResetN = false ∧ s.pkg.running = false ∧ s.pkg.bootStat = 0
  ∧ s.mem.cells = [] ∧ Memory.wf s.mem.cells = true ∧ (∀ a, readByte s a = 0)
  ∧ (∀ v < 16, vdState s v = .empty) ∧ (∀ f, (frameAt s f).st = .free)
  ∧ (∀ c, (mandrelOf s c).mtcmp = BitVec.allOnes 64 ∧ (mandrelOf s c).mip = 0 ∧ (mandrelOf s c).mie = 0)
  ∧ (∀ e : Fin 2, bit (s.pcie.msixTable[e]).toNat 96 = true ∧ s.pcie.msixPending[e] = false)
  ∧ (∀ v q, findQp s v q = none) ∧ s.lq.launches = [] ∧ (∀ h, (counterAt s h).st = .free ∧ (counterAt s h).poison = false)
  ∧ (∀ core e, (winOf s core e).st = .empty) ∧ s.cores.groups = [] ∧ (∀ c, halted s c = false)
  ∧ (∀ v k, vdqRead s v k = 0) ∧ s.att.norBusy = false ∧ nsNow s = 0 ∧ Orderly s

/-- Words written out from the encoding tables decode to their instructions (R249, R250, R251, R261). -/
def Obligations.WordsDecode : Prop :=
  let h : Hdr := ⟨⟨false, 0⟩, ⟨false, 0⟩, .a, 0⟩
  decodeTableWord 96 0x0000000000FFFFFFFFFF0000 = some (.nop h)
  ∧ decodeTableWord 96 0x3C0000000004FFFF00000010 = some (.movImm h ⟨false, false⟩ (.g 4) 0x10)
  ∧ decodeTableWord 96 0x1000000000050406FFFF0000 = some (.iadd h ⟨.lo, false, false, false⟩ (.g 5) (.g 4) (.g 6))
  ∧ decodeTableWord 96 0x29080000000705FF00000003 = some (.shlImm ⟨⟨false, 1⟩, ⟨false, 0⟩, .a, 0⟩ ⟨0, false, false, false⟩ (.g 7) (.g 5) 3)
  ∧ decodeTableWord 96 0x450000000104050607FF0000 = some (.ffma h ⟨false, false, .rz⟩ (.g 4) (.g 5) (.g 6) (.g 7))
  ∧ decodeTableWord 96 0x0700000000FFFFFFFFFF0000 = some (.exit h)
  ∧ decodeTableWord 96 0x1000000000F50406FFFF0000 = none
  ∧ decodeTableWord 96 0x0000000000FFFFFFFFFF0001 = none
  ∧ decodeTableWord 96 0x0F00000000FFFFFFFFFF0000 = none

/-- Decode and encode agree on every well-formed instruction and every word (R243, R249, R250, R251, R254, R261). -/
def Obligations.DecodeOfEncode : Prop :=
  ∀ i : Instr,
    (i.wf = true → ∃ w, encode i = some w ∧ w < 2 ^ 96 ∧ decodeWord w = some i ∧ decodeTableWord 96 w = some i
      ∧ ∀ rest : Bytes, decodeBytes (bytesOfNat 12 w ++ rest) = some i)
    ∧ (i.wf = false → encode i = none)
    ∧ ∀ w, decodeWord w = some i → i.wf = true ∧ encode i = some w

/-- Every step keeps memory in its canonical form (R221, R224). -/
def Obligations.MemoryStaysCanonical : Prop :=
  ∀ s t : State, Memory.wf s.mem.cells = true → step s = .next t → Memory.wf t.mem.cells = true

/-- Every step keeps the identifiers of groups distinct and below the next one, no supervisor queue above its 256 places, and the tables of
queues, server and mandrel registers, register rows, translation registers and frames in rising key order (R131, R142, R143, R224). That
a group has a number, and which the next is, is the model's choice (log 169). -/
def Obligations.GroupsAndTablesStay : Prop :=
  ∀ s t : State, Orderly s → step s = .next t → Orderly t

/-- The bytes a write leaves, at the point of coherence and in the L1 (R162, R163, R170, R171, R226). -/
def Obligations.BytesOfAStore : Prop :=
  ∀ (s t : State) (v kid a n : Nat) (who : Writer) (b : Bytes) (p w sl : Bool) (nm : L1Name) (k : Nat) (l : L1Line),
    (mscWrite s v kid a b p = (t, none) → ∀ x, readByte t x = if a ≤ x ∧ x < a + b.length then b.getD (x - a) 0 else readByte s x)
    ∧ (mscRead s v kid a n = (t, .ok (b, p)) → b = readMem s a n ∧ p = sectorPoison t a ∧ t.mem.cells = s.mem.cells)
    ∧ (l1Find s nm = some k → s.mem.l1.find k = some l → l.data.length = 128 → a % 32 + b.length ≤ 32 →
        secBit l.valid (a / 32 % 4) = true ∨ wholeSector a b.length = true → l1Write s nm a b who = (t, none) →
        t.mem.cells = s.mem.cells ∧ t.mem.l2 = s.mem.l2 ∧ t.mem.msc = s.mem.msc
        ∧ (∃ l', t.mem.l1.find k = some l' ∧ l'.data = splice l.data (a % 128) b ∧ secBit l'.dirty (a / 32 % 4) = true
            ∧ (who.col < 8 → bit (colourSet l'.colours (a / 32 % 4)) who.col = true))
        ∧ (∀ j, j ≠ k → t.mem.l1.find j = s.mem.l1.find j)
        ∧ ∃ x q, l1Read t nm a b.length w sl = (x, .ok (b, q)))
end

