-- ==== Sys2Proof/Laws/Bits.lean ====
section
/-! SUPPORT. Bit fields: what a field reads as after a field is replaced; predicates after a predicate is written. -/
namespace Sys2Proof.Machine

/-- A number taken apart at a field: above, in and below it. -/
theorem bits_split (v lo n : Nat) : v = (v / 2 ^ (lo + n) * 2 ^ n + v / 2 ^ lo % 2 ^ n) * 2 ^ lo + v % 2 ^ lo := by
  have h1 : v / 2 ^ (lo + n) * 2 ^ n + v / 2 ^ lo % 2 ^ n = v / 2 ^ lo := by
    rw [Nat.pow_add, ← Nat.div_div_eq_div_mul, Nat.mul_comm]; exact Nat.div_add_mod _ _
  rw [h1, Nat.mul_comm]; exact (Nat.div_add_mod _ _).symm

/-- A number with a field replaced, taken apart at the field. -/
theorem setBits_eq (v lo n x : Nat) (hn : 0 < n) :
    setBits v (lo + n - 1) lo x = (v / 2 ^ (lo + n) * 2 ^ n + x % 2 ^ n) * 2 ^ lo + v % 2 ^ lo := by
  have e : lo + n - 1 + 1 - lo = n := by omega
  have h := bits_split v lo n
  unfold setBits bits
  rw [e]
  generalize v / 2 ^ (lo + n) = q at h ⊢
  generalize v / 2 ^ lo % 2 ^ n = m at h ⊢
  generalize v % 2 ^ lo = r at h ⊢
  rw [h]
  simp only [Nat.add_mul]
  omega

/-- The replaced field holds its new value. -/
theorem bits_setBits_self (v lo n x : Nat) (hn : 0 < n) :
    bits (setBits v (lo + n - 1) lo x) (lo + n - 1) lo = x % 2 ^ n := by
  have e : lo + n - 1 + 1 - lo = n := by omega
  rw [setBits_eq v lo n x hn, bits, e, Nat.mul_comm, Nat.mul_add_div (Nat.two_pow_pos lo), Nat.div_eq_of_lt (Nat.mod_lt _ (Nat.two_pow_pos lo)),
    Nat.add_zero, Nat.mul_comm, Nat.mul_add_mod, Nat.mod_mod]

/-- A bit of a number with a field replaced. -/
theorem testBit_setBits (v lo n x i : Nat) (hn : 0 < n) :
    (setBits v (lo + n - 1) lo x).testBit i = if lo ≤ i ∧ i < lo + n then x.testBit (i - lo) else v.testBit i := by
  rw [setBits_eq v lo n x hn, Nat.mul_comm, Nat.testBit_two_pow_mul_add _ (Nat.mod_lt _ (Nat.two_pow_pos lo))]
  by_cases h1 : i < lo
  · rw [if_pos h1, if_neg (by omega), Nat.testBit_mod_two_pow]; simp [h1]
  · rw [if_neg h1, Nat.mul_comm, Nat.testBit_two_pow_mul_add _ (Nat.mod_lt _ (Nat.two_pow_pos n))]
    by_cases h2 : i < lo + n
    · rw [if_pos (by omega), if_pos (by omega), Nat.testBit_mod_two_pow]; simp [show i - lo < n by omega]
    · rw [if_neg (by omega), if_neg (by omega), Nat.testBit_div_two_pow]; congr 1; omega

/-- A field apart from the replaced one is as it was. -/
theorem bits_setBits_ne (v lo n x hi' lo' : Nat) (hn : 0 < n) (h : hi' < lo ∨ lo + n ≤ lo') :
    bits (setBits v (lo + n - 1) lo x) hi' lo' = bits v hi' lo' := by
  refine Nat.eq_of_testBit_eq (fun i => ?_)
  simp only [bits, Nat.testBit_mod_two_pow, Nat.testBit_div_two_pow]
  by_cases hi : i < hi' + 1 - lo'
  · rw [testBit_setBits v lo n x _ hn, if_neg (by omega)]
  · simp [hi]

/-- A field of a number cut to a width that holds the field. -/
theorem bits_mod (v w hi lo : Nat) (h : hi < w) : bits (v % 2 ^ w) hi lo = bits v hi lo := by
  refine Nat.eq_of_testBit_eq (fun i => ?_)
  simp only [bits, Nat.testBit_mod_two_pow, Nat.testBit_div_two_pow]
  by_cases hi' : i < hi + 1 - lo
  · rw [decide_eq_true (show i + lo < w by omega), Bool.true_and]
  · rw [decide_eq_false hi', Bool.false_and, Bool.false_and]

theorem bits_lt (v hi lo : Nat) : bits v hi lo < 2 ^ (hi + 1 - lo) := Nat.mod_lt _ (Nat.two_pow_pos _)

/-- A predicate reads as what was last written to it; p0 always reads as all ones (R253). -/
theorem Thread.pred_setPred (x : Thread) (n m v : Nat) (hn : n < 16) (hm : m < 16) :
    (x.setPred n v).pred m = if m = n ∧ n ≠ 0 then v % 16 else x.pred m := by
  by_cases h0 : n = 0
  · subst h0; simp [Thread.setPred]
  · by_cases hm0 : m = 0
    · subst hm0; rw [if_neg (by omega)]; rfl
    · have e : 4 * n + 3 = 4 * n + 4 - 1 := by omega
      simp only [Thread.setPred, h0, if_false, Thread.pred, hm0, BitVec.toNat_ofNat]
      rw [bits_mod _ _ _ _ (by omega), e]
      by_cases h : m = n
      · subst h; rw [if_pos ⟨rfl, h0⟩, e]; exact bits_setBits_self _ _ 4 _ (by omega)
      · rw [if_neg (by tauto)]; exact bits_setBits_ne _ _ 4 _ _ _ (by omega) (by omega)

end Sys2Proof.Machine
end

