-- ==== Sys2Proof/Laws/State.lean ====
section
/-! SUPPORT. What one update of a part of the state leaves of every part. -/
namespace Sys2Proof.Machine

@[simp] theorem State.onPkg_pkg (s : State) (f : PkgState → PkgState) : (s.onPkg f).pkg = f s.pkg := rfl
@[simp] theorem State.onPkg_att (s : State) (f : PkgState → PkgState) : (s.onPkg f).att = s.att := rfl
@[simp] theorem State.onPkg_bdy (s : State) (f : PkgState → PkgState) : (s.onPkg f).bdy = s.bdy := rfl
@[simp] theorem State.onPkg_net (s : State) (f : PkgState → PkgState) : (s.onPkg f).net = s.net := rfl
@[simp] theorem State.onPkg_pcie (s : State) (f : PkgState → PkgState) : (s.onPkg f).pcie = s.pcie := rfl
@[simp] theorem State.onPkg_rpc (s : State) (f : PkgState → PkgState) : (s.onPkg f).rpc = s.rpc := rfl
@[simp] theorem State.onPkg_vds (s : State) (f : PkgState → PkgState) : (s.onPkg f).vds = s.vds := rfl
@[simp] theorem State.onPkg_lq (s : State) (f : PkgState → PkgState) : (s.onPkg f).lq = s.lq := rfl
@[simp] theorem State.onPkg_cores (s : State) (f : PkgState → PkgState) : (s.onPkg f).cores = s.cores := rfl
@[simp] theorem State.onPkg_loc (s : State) (f : PkgState → PkgState) : (s.onPkg f).loc = s.loc := rfl
@[simp] theorem State.onPkg_mem (s : State) (f : PkgState → PkgState) : (s.onPkg f).mem = s.mem := rfl
@[simp] theorem State.onPkg_ord (s : State) (f : PkgState → PkgState) : (s.onPkg f).ord = s.ord := rfl
@[simp] theorem State.onPkg_trn (s : State) (f : PkgState → PkgState) : (s.onPkg f).trn = s.trn := rfl
@[simp] theorem State.onPkg_ras (s : State) (f : PkgState → PkgState) : (s.onPkg f).ras = s.ras := rfl
@[simp] theorem State.onPkg_sch (s : State) (f : PkgState → PkgState) : (s.onPkg f).sch = s.sch := rfl
@[simp] theorem State.onAtt_pkg (s : State) (f : AttState → AttState) : (s.onAtt f).pkg = s.pkg := rfl
@[simp] theorem State.onAtt_att (s : State) (f : AttState → AttState) : (s.onAtt f).att = f s.att := rfl
@[simp] theorem State.onAtt_bdy (s : State) (f : AttState → AttState) : (s.onAtt f).bdy = s.bdy := rfl
@[simp] theorem State.onAtt_net (s : State) (f : AttState → AttState) : (s.onAtt f).net = s.net := rfl
@[simp] theorem State.onAtt_pcie (s : State) (f : AttState → AttState) : (s.onAtt f).pcie = s.pcie := rfl
@[simp] theorem State.onAtt_rpc (s : State) (f : AttState → AttState) : (s.onAtt f).rpc = s.rpc := rfl
@[simp] theorem State.onAtt_vds (s : State) (f : AttState → AttState) : (s.onAtt f).vds = s.vds := rfl
@[simp] theorem State.onAtt_lq (s : State) (f : AttState → AttState) : (s.onAtt f).lq = s.lq := rfl
@[simp] theorem State.onAtt_cores (s : State) (f : AttState → AttState) : (s.onAtt f).cores = s.cores := rfl
@[simp] theorem State.onAtt_loc (s : State) (f : AttState → AttState) : (s.onAtt f).loc = s.loc := rfl
@[simp] theorem State.onAtt_mem (s : State) (f : AttState → AttState) : (s.onAtt f).mem = s.mem := rfl
@[simp] theorem State.onAtt_ord (s : State) (f : AttState → AttState) : (s.onAtt f).ord = s.ord := rfl
@[simp] theorem State.onAtt_trn (s : State) (f : AttState → AttState) : (s.onAtt f).trn = s.trn := rfl
@[simp] theorem State.onAtt_ras (s : State) (f : AttState → AttState) : (s.onAtt f).ras = s.ras := rfl
@[simp] theorem State.onAtt_sch (s : State) (f : AttState → AttState) : (s.onAtt f).sch = s.sch := rfl
@[simp] theorem State.onBdy_pkg (s : State) (f : BdyState → BdyState) : (s.onBdy f).pkg = s.pkg := rfl
@[simp] theorem State.onBdy_att (s : State) (f : BdyState → BdyState) : (s.onBdy f).att = s.att := rfl
@[simp] theorem State.onBdy_bdy (s : State) (f : BdyState → BdyState) : (s.onBdy f).bdy = f s.bdy := rfl
@[simp] theorem State.onBdy_net (s : State) (f : BdyState → BdyState) : (s.onBdy f).net = s.net := rfl
@[simp] theorem State.onBdy_pcie (s : State) (f : BdyState → BdyState) : (s.onBdy f).pcie = s.pcie := rfl
@[simp] theorem State.onBdy_rpc (s : State) (f : BdyState → BdyState) : (s.onBdy f).rpc = s.rpc := rfl
@[simp] theorem State.onBdy_vds (s : State) (f : BdyState → BdyState) : (s.onBdy f).vds = s.vds := rfl
@[simp] theorem State.onBdy_lq (s : State) (f : BdyState → BdyState) : (s.onBdy f).lq = s.lq := rfl
@[simp] theorem State.onBdy_cores (s : State) (f : BdyState → BdyState) : (s.onBdy f).cores = s.cores := rfl
@[simp] theorem State.onBdy_loc (s : State) (f : BdyState → BdyState) : (s.onBdy f).loc = s.loc := rfl
@[simp] theorem State.onBdy_mem (s : State) (f : BdyState → BdyState) : (s.onBdy f).mem = s.mem := rfl
@[simp] theorem State.onBdy_ord (s : State) (f : BdyState → BdyState) : (s.onBdy f).ord = s.ord := rfl
@[simp] theorem State.onBdy_trn (s : State) (f : BdyState → BdyState) : (s.onBdy f).trn = s.trn := rfl
@[simp] theorem State.onBdy_ras (s : State) (f : BdyState → BdyState) : (s.onBdy f).ras = s.ras := rfl
@[simp] theorem State.onBdy_sch (s : State) (f : BdyState → BdyState) : (s.onBdy f).sch = s.sch := rfl
@[simp] theorem State.onNet_pkg (s : State) (f : NetState → NetState) : (s.onNet f).pkg = s.pkg := rfl
@[simp] theorem State.onNet_att (s : State) (f : NetState → NetState) : (s.onNet f).att = s.att := rfl
@[simp] theorem State.onNet_bdy (s : State) (f : NetState → NetState) : (s.onNet f).bdy = s.bdy := rfl
@[simp] theorem State.onNet_net (s : State) (f : NetState → NetState) : (s.onNet f).net = f s.net := rfl
@[simp] theorem State.onNet_pcie (s : State) (f : NetState → NetState) : (s.onNet f).pcie = s.pcie := rfl
@[simp] theorem State.onNet_rpc (s : State) (f : NetState → NetState) : (s.onNet f).rpc = s.rpc := rfl
@[simp] theorem State.onNet_vds (s : State) (f : NetState → NetState) : (s.onNet f).vds = s.vds := rfl
@[simp] theorem State.onNet_lq (s : State) (f : NetState → NetState) : (s.onNet f).lq = s.lq := rfl
@[simp] theorem State.onNet_cores (s : State) (f : NetState → NetState) : (s.onNet f).cores = s.cores := rfl
@[simp] theorem State.onNet_loc (s : State) (f : NetState → NetState) : (s.onNet f).loc = s.loc := rfl
@[simp] theorem State.onNet_mem (s : State) (f : NetState → NetState) : (s.onNet f).mem = s.mem := rfl
@[simp] theorem State.onNet_ord (s : State) (f : NetState → NetState) : (s.onNet f).ord = s.ord := rfl
@[simp] theorem State.onNet_trn (s : State) (f : NetState → NetState) : (s.onNet f).trn = s.trn := rfl
@[simp] theorem State.onNet_ras (s : State) (f : NetState → NetState) : (s.onNet f).ras = s.ras := rfl
@[simp] theorem State.onNet_sch (s : State) (f : NetState → NetState) : (s.onNet f).sch = s.sch := rfl
@[simp] theorem State.onPcie_pkg (s : State) (f : PcieState → PcieState) : (s.onPcie f).pkg = s.pkg := rfl
@[simp] theorem State.onPcie_att (s : State) (f : PcieState → PcieState) : (s.onPcie f).att = s.att := rfl
@[simp] theorem State.onPcie_bdy (s : State) (f : PcieState → PcieState) : (s.onPcie f).bdy = s.bdy := rfl
@[simp] theorem State.onPcie_net (s : State) (f : PcieState → PcieState) : (s.onPcie f).net = s.net := rfl
@[simp] theorem State.onPcie_pcie (s : State) (f : PcieState → PcieState) : (s.onPcie f).pcie = f s.pcie := rfl
@[simp] theorem State.onPcie_rpc (s : State) (f : PcieState → PcieState) : (s.onPcie f).rpc = s.rpc := rfl
@[simp] theorem State.onPcie_vds (s : State) (f : PcieState → PcieState) : (s.onPcie f).vds = s.vds := rfl
@[simp] theorem State.onPcie_lq (s : State) (f : PcieState → PcieState) : (s.onPcie f).lq = s.lq := rfl
@[simp] theorem State.onPcie_cores (s : State) (f : PcieState → PcieState) : (s.onPcie f).cores = s.cores := rfl
@[simp] theorem State.onPcie_loc (s : State) (f : PcieState → PcieState) : (s.onPcie f).loc = s.loc := rfl
@[simp] theorem State.onPcie_mem (s : State) (f : PcieState → PcieState) : (s.onPcie f).mem = s.mem := rfl
@[simp] theorem State.onPcie_ord (s : State) (f : PcieState → PcieState) : (s.onPcie f).ord = s.ord := rfl
@[simp] theorem State.onPcie_trn (s : State) (f : PcieState → PcieState) : (s.onPcie f).trn = s.trn := rfl
@[simp] theorem State.onPcie_ras (s : State) (f : PcieState → PcieState) : (s.onPcie f).ras = s.ras := rfl
@[simp] theorem State.onPcie_sch (s : State) (f : PcieState → PcieState) : (s.onPcie f).sch = s.sch := rfl
@[simp] theorem State.onRpc_pkg (s : State) (f : RpcState → RpcState) : (s.onRpc f).pkg = s.pkg := rfl
@[simp] theorem State.onRpc_att (s : State) (f : RpcState → RpcState) : (s.onRpc f).att = s.att := rfl
@[simp] theorem State.onRpc_bdy (s : State) (f : RpcState → RpcState) : (s.onRpc f).bdy = s.bdy := rfl
@[simp] theorem State.onRpc_net (s : State) (f : RpcState → RpcState) : (s.onRpc f).net = s.net := rfl
@[simp] theorem State.onRpc_pcie (s : State) (f : RpcState → RpcState) : (s.onRpc f).pcie = s.pcie := rfl
@[simp] theorem State.onRpc_rpc (s : State) (f : RpcState → RpcState) : (s.onRpc f).rpc = f s.rpc := rfl
@[simp] theorem State.onRpc_vds (s : State) (f : RpcState → RpcState) : (s.onRpc f).vds = s.vds := rfl
@[simp] theorem State.onRpc_lq (s : State) (f : RpcState → RpcState) : (s.onRpc f).lq = s.lq := rfl
@[simp] theorem State.onRpc_cores (s : State) (f : RpcState → RpcState) : (s.onRpc f).cores = s.cores := rfl
@[simp] theorem State.onRpc_loc (s : State) (f : RpcState → RpcState) : (s.onRpc f).loc = s.loc := rfl
@[simp] theorem State.onRpc_mem (s : State) (f : RpcState → RpcState) : (s.onRpc f).mem = s.mem := rfl
@[simp] theorem State.onRpc_ord (s : State) (f : RpcState → RpcState) : (s.onRpc f).ord = s.ord := rfl
@[simp] theorem State.onRpc_trn (s : State) (f : RpcState → RpcState) : (s.onRpc f).trn = s.trn := rfl
@[simp] theorem State.onRpc_ras (s : State) (f : RpcState → RpcState) : (s.onRpc f).ras = s.ras := rfl
@[simp] theorem State.onRpc_sch (s : State) (f : RpcState → RpcState) : (s.onRpc f).sch = s.sch := rfl
@[simp] theorem State.onVds_pkg (s : State) (f : VdsState → VdsState) : (s.onVds f).pkg = s.pkg := rfl
@[simp] theorem State.onVds_att (s : State) (f : VdsState → VdsState) : (s.onVds f).att = s.att := rfl
@[simp] theorem State.onVds_bdy (s : State) (f : VdsState → VdsState) : (s.onVds f).bdy = s.bdy := rfl
@[simp] theorem State.onVds_net (s : State) (f : VdsState → VdsState) : (s.onVds f).net = s.net := rfl
@[simp] theorem State.onVds_pcie (s : State) (f : VdsState → VdsState) : (s.onVds f).pcie = s.pcie := rfl
@[simp] theorem State.onVds_rpc (s : State) (f : VdsState → VdsState) : (s.onVds f).rpc = s.rpc := rfl
@[simp] theorem State.onVds_vds (s : State) (f : VdsState → VdsState) : (s.onVds f).vds = f s.vds := rfl
@[simp] theorem State.onVds_lq (s : State) (f : VdsState → VdsState) : (s.onVds f).lq = s.lq := rfl
@[simp] theorem State.onVds_cores (s : State) (f : VdsState → VdsState) : (s.onVds f).cores = s.cores := rfl
@[simp] theorem State.onVds_loc (s : State) (f : VdsState → VdsState) : (s.onVds f).loc = s.loc := rfl
@[simp] theorem State.onVds_mem (s : State) (f : VdsState → VdsState) : (s.onVds f).mem = s.mem := rfl
@[simp] theorem State.onVds_ord (s : State) (f : VdsState → VdsState) : (s.onVds f).ord = s.ord := rfl
@[simp] theorem State.onVds_trn (s : State) (f : VdsState → VdsState) : (s.onVds f).trn = s.trn := rfl
@[simp] theorem State.onVds_ras (s : State) (f : VdsState → VdsState) : (s.onVds f).ras = s.ras := rfl
@[simp] theorem State.onVds_sch (s : State) (f : VdsState → VdsState) : (s.onVds f).sch = s.sch := rfl
@[simp] theorem State.onLq_pkg (s : State) (f : LqState → LqState) : (s.onLq f).pkg = s.pkg := rfl
@[simp] theorem State.onLq_att (s : State) (f : LqState → LqState) : (s.onLq f).att = s.att := rfl
@[simp] theorem State.onLq_bdy (s : State) (f : LqState → LqState) : (s.onLq f).bdy = s.bdy := rfl
@[simp] theorem State.onLq_net (s : State) (f : LqState → LqState) : (s.onLq f).net = s.net := rfl
@[simp] theorem State.onLq_pcie (s : State) (f : LqState → LqState) : (s.onLq f).pcie = s.pcie := rfl
@[simp] theorem State.onLq_rpc (s : State) (f : LqState → LqState) : (s.onLq f).rpc = s.rpc := rfl
@[simp] theorem State.onLq_vds (s : State) (f : LqState → LqState) : (s.onLq f).vds = s.vds := rfl
@[simp] theorem State.onLq_lq (s : State) (f : LqState → LqState) : (s.onLq f).lq = f s.lq := rfl
@[simp] theorem State.onLq_cores (s : State) (f : LqState → LqState) : (s.onLq f).cores = s.cores := rfl
@[simp] theorem State.onLq_loc (s : State) (f : LqState → LqState) : (s.onLq f).loc = s.loc := rfl
@[simp] theorem State.onLq_mem (s : State) (f : LqState → LqState) : (s.onLq f).mem = s.mem := rfl
@[simp] theorem State.onLq_ord (s : State) (f : LqState → LqState) : (s.onLq f).ord = s.ord := rfl
@[simp] theorem State.onLq_trn (s : State) (f : LqState → LqState) : (s.onLq f).trn = s.trn := rfl
@[simp] theorem State.onLq_ras (s : State) (f : LqState → LqState) : (s.onLq f).ras = s.ras := rfl
@[simp] theorem State.onLq_sch (s : State) (f : LqState → LqState) : (s.onLq f).sch = s.sch := rfl
@[simp] theorem State.onCores_pkg (s : State) (f : CoresState → CoresState) : (s.onCores f).pkg = s.pkg := rfl
@[simp] theorem State.onCores_att (s : State) (f : CoresState → CoresState) : (s.onCores f).att = s.att := rfl
@[simp] theorem State.onCores_bdy (s : State) (f : CoresState → CoresState) : (s.onCores f).bdy = s.bdy := rfl
@[simp] theorem State.onCores_net (s : State) (f : CoresState → CoresState) : (s.onCores f).net = s.net := rfl
@[simp] theorem State.onCores_pcie (s : State) (f : CoresState → CoresState) : (s.onCores f).pcie = s.pcie := rfl
@[simp] theorem State.onCores_rpc (s : State) (f : CoresState → CoresState) : (s.onCores f).rpc = s.rpc := rfl
@[simp] theorem State.onCores_vds (s : State) (f : CoresState → CoresState) : (s.onCores f).vds = s.vds := rfl
@[simp] theorem State.onCores_lq (s : State) (f : CoresState → CoresState) : (s.onCores f).lq = s.lq := rfl
@[simp] theorem State.onCores_cores (s : State) (f : CoresState → CoresState) : (s.onCores f).cores = f s.cores := rfl
@[simp] theorem State.onCores_loc (s : State) (f : CoresState → CoresState) : (s.onCores f).loc = s.loc := rfl
@[simp] theorem State.onCores_mem (s : State) (f : CoresState → CoresState) : (s.onCores f).mem = s.mem := rfl
@[simp] theorem State.onCores_ord (s : State) (f : CoresState → CoresState) : (s.onCores f).ord = s.ord := rfl
@[simp] theorem State.onCores_trn (s : State) (f : CoresState → CoresState) : (s.onCores f).trn = s.trn := rfl
@[simp] theorem State.onCores_ras (s : State) (f : CoresState → CoresState) : (s.onCores f).ras = s.ras := rfl
@[simp] theorem State.onCores_sch (s : State) (f : CoresState → CoresState) : (s.onCores f).sch = s.sch := rfl
@[simp] theorem State.onLoc_pkg (s : State) (f : LocState → LocState) : (s.onLoc f).pkg = s.pkg := rfl
@[simp] theorem State.onLoc_att (s : State) (f : LocState → LocState) : (s.onLoc f).att = s.att := rfl
@[simp] theorem State.onLoc_bdy (s : State) (f : LocState → LocState) : (s.onLoc f).bdy = s.bdy := rfl
@[simp] theorem State.onLoc_net (s : State) (f : LocState → LocState) : (s.onLoc f).net = s.net := rfl
@[simp] theorem State.onLoc_pcie (s : State) (f : LocState → LocState) : (s.onLoc f).pcie = s.pcie := rfl
@[simp] theorem State.onLoc_rpc (s : State) (f : LocState → LocState) : (s.onLoc f).rpc = s.rpc := rfl
@[simp] theorem State.onLoc_vds (s : State) (f : LocState → LocState) : (s.onLoc f).vds = s.vds := rfl
@[simp] theorem State.onLoc_lq (s : State) (f : LocState → LocState) : (s.onLoc f).lq = s.lq := rfl
@[simp] theorem State.onLoc_cores (s : State) (f : LocState → LocState) : (s.onLoc f).cores = s.cores := rfl
@[simp] theorem State.onLoc_loc (s : State) (f : LocState → LocState) : (s.onLoc f).loc = f s.loc := rfl
@[simp] theorem State.onLoc_mem (s : State) (f : LocState → LocState) : (s.onLoc f).mem = s.mem := rfl
@[simp] theorem State.onLoc_ord (s : State) (f : LocState → LocState) : (s.onLoc f).ord = s.ord := rfl
@[simp] theorem State.onLoc_trn (s : State) (f : LocState → LocState) : (s.onLoc f).trn = s.trn := rfl
@[simp] theorem State.onLoc_ras (s : State) (f : LocState → LocState) : (s.onLoc f).ras = s.ras := rfl
@[simp] theorem State.onLoc_sch (s : State) (f : LocState → LocState) : (s.onLoc f).sch = s.sch := rfl
@[simp] theorem State.onMem_pkg (s : State) (f : MemState → MemState) : (s.onMem f).pkg = s.pkg := rfl
@[simp] theorem State.onMem_att (s : State) (f : MemState → MemState) : (s.onMem f).att = s.att := rfl
@[simp] theorem State.onMem_bdy (s : State) (f : MemState → MemState) : (s.onMem f).bdy = s.bdy := rfl
@[simp] theorem State.onMem_net (s : State) (f : MemState → MemState) : (s.onMem f).net = s.net := rfl
@[simp] theorem State.onMem_pcie (s : State) (f : MemState → MemState) : (s.onMem f).pcie = s.pcie := rfl
@[simp] theorem State.onMem_rpc (s : State) (f : MemState → MemState) : (s.onMem f).rpc = s.rpc := rfl
@[simp] theorem State.onMem_vds (s : State) (f : MemState → MemState) : (s.onMem f).vds = s.vds := rfl
@[simp] theorem State.onMem_lq (s : State) (f : MemState → MemState) : (s.onMem f).lq = s.lq := rfl
@[simp] theorem State.onMem_cores (s : State) (f : MemState → MemState) : (s.onMem f).cores = s.cores := rfl
@[simp] theorem State.onMem_loc (s : State) (f : MemState → MemState) : (s.onMem f).loc = s.loc := rfl
@[simp] theorem State.onMem_mem (s : State) (f : MemState → MemState) : (s.onMem f).mem = f s.mem := rfl
@[simp] theorem State.onMem_ord (s : State) (f : MemState → MemState) : (s.onMem f).ord = s.ord := rfl
@[simp] theorem State.onMem_trn (s : State) (f : MemState → MemState) : (s.onMem f).trn = s.trn := rfl
@[simp] theorem State.onMem_ras (s : State) (f : MemState → MemState) : (s.onMem f).ras = s.ras := rfl
@[simp] theorem State.onMem_sch (s : State) (f : MemState → MemState) : (s.onMem f).sch = s.sch := rfl
@[simp] theorem State.onOrd_pkg (s : State) (f : OrdState → OrdState) : (s.onOrd f).pkg = s.pkg := rfl
@[simp] theorem State.onOrd_att (s : State) (f : OrdState → OrdState) : (s.onOrd f).att = s.att := rfl
@[simp] theorem State.onOrd_bdy (s : State) (f : OrdState → OrdState) : (s.onOrd f).bdy = s.bdy := rfl
@[simp] theorem State.onOrd_net (s : State) (f : OrdState → OrdState) : (s.onOrd f).net = s.net := rfl
@[simp] theorem State.onOrd_pcie (s : State) (f : OrdState → OrdState) : (s.onOrd f).pcie = s.pcie := rfl
@[simp] theorem State.onOrd_rpc (s : State) (f : OrdState → OrdState) : (s.onOrd f).rpc = s.rpc := rfl
@[simp] theorem State.onOrd_vds (s : State) (f : OrdState → OrdState) : (s.onOrd f).vds = s.vds := rfl
@[simp] theorem State.onOrd_lq (s : State) (f : OrdState → OrdState) : (s.onOrd f).lq = s.lq := rfl
@[simp] theorem State.onOrd_cores (s : State) (f : OrdState → OrdState) : (s.onOrd f).cores = s.cores := rfl
@[simp] theorem State.onOrd_loc (s : State) (f : OrdState → OrdState) : (s.onOrd f).loc = s.loc := rfl
@[simp] theorem State.onOrd_mem (s : State) (f : OrdState → OrdState) : (s.onOrd f).mem = s.mem := rfl
@[simp] theorem State.onOrd_ord (s : State) (f : OrdState → OrdState) : (s.onOrd f).ord = f s.ord := rfl
@[simp] theorem State.onOrd_trn (s : State) (f : OrdState → OrdState) : (s.onOrd f).trn = s.trn := rfl
@[simp] theorem State.onOrd_ras (s : State) (f : OrdState → OrdState) : (s.onOrd f).ras = s.ras := rfl
@[simp] theorem State.onOrd_sch (s : State) (f : OrdState → OrdState) : (s.onOrd f).sch = s.sch := rfl
@[simp] theorem State.onTrn_pkg (s : State) (f : TrnState → TrnState) : (s.onTrn f).pkg = s.pkg := rfl
@[simp] theorem State.onTrn_att (s : State) (f : TrnState → TrnState) : (s.onTrn f).att = s.att := rfl
@[simp] theorem State.onTrn_bdy (s : State) (f : TrnState → TrnState) : (s.onTrn f).bdy = s.bdy := rfl
@[simp] theorem State.onTrn_net (s : State) (f : TrnState → TrnState) : (s.onTrn f).net = s.net := rfl
@[simp] theorem State.onTrn_pcie (s : State) (f : TrnState → TrnState) : (s.onTrn f).pcie = s.pcie := rfl
@[simp] theorem State.onTrn_rpc (s : State) (f : TrnState → TrnState) : (s.onTrn f).rpc = s.rpc := rfl
@[simp] theorem State.onTrn_vds (s : State) (f : TrnState → TrnState) : (s.onTrn f).vds = s.vds := rfl
@[simp] theorem State.onTrn_lq (s : State) (f : TrnState → TrnState) : (s.onTrn f).lq = s.lq := rfl
@[simp] theorem State.onTrn_cores (s : State) (f : TrnState → TrnState) : (s.onTrn f).cores = s.cores := rfl
@[simp] theorem State.onTrn_loc (s : State) (f : TrnState → TrnState) : (s.onTrn f).loc = s.loc := rfl
@[simp] theorem State.onTrn_mem (s : State) (f : TrnState → TrnState) : (s.onTrn f).mem = s.mem := rfl
@[simp] theorem State.onTrn_ord (s : State) (f : TrnState → TrnState) : (s.onTrn f).ord = s.ord := rfl
@[simp] theorem State.onTrn_trn (s : State) (f : TrnState → TrnState) : (s.onTrn f).trn = f s.trn := rfl
@[simp] theorem State.onTrn_ras (s : State) (f : TrnState → TrnState) : (s.onTrn f).ras = s.ras := rfl
@[simp] theorem State.onTrn_sch (s : State) (f : TrnState → TrnState) : (s.onTrn f).sch = s.sch := rfl
@[simp] theorem State.onRas_pkg (s : State) (f : RasState → RasState) : (s.onRas f).pkg = s.pkg := rfl
@[simp] theorem State.onRas_att (s : State) (f : RasState → RasState) : (s.onRas f).att = s.att := rfl
@[simp] theorem State.onRas_bdy (s : State) (f : RasState → RasState) : (s.onRas f).bdy = s.bdy := rfl
@[simp] theorem State.onRas_net (s : State) (f : RasState → RasState) : (s.onRas f).net = s.net := rfl
@[simp] theorem State.onRas_pcie (s : State) (f : RasState → RasState) : (s.onRas f).pcie = s.pcie := rfl
@[simp] theorem State.onRas_rpc (s : State) (f : RasState → RasState) : (s.onRas f).rpc = s.rpc := rfl
@[simp] theorem State.onRas_vds (s : State) (f : RasState → RasState) : (s.onRas f).vds = s.vds := rfl
@[simp] theorem State.onRas_lq (s : State) (f : RasState → RasState) : (s.onRas f).lq = s.lq := rfl
@[simp] theorem State.onRas_cores (s : State) (f : RasState → RasState) : (s.onRas f).cores = s.cores := rfl
@[simp] theorem State.onRas_loc (s : State) (f : RasState → RasState) : (s.onRas f).loc = s.loc := rfl
@[simp] theorem State.onRas_mem (s : State) (f : RasState → RasState) : (s.onRas f).mem = s.mem := rfl
@[simp] theorem State.onRas_ord (s : State) (f : RasState → RasState) : (s.onRas f).ord = s.ord := rfl
@[simp] theorem State.onRas_trn (s : State) (f : RasState → RasState) : (s.onRas f).trn = s.trn := rfl
@[simp] theorem State.onRas_ras (s : State) (f : RasState → RasState) : (s.onRas f).ras = f s.ras := rfl
@[simp] theorem State.onRas_sch (s : State) (f : RasState → RasState) : (s.onRas f).sch = s.sch := rfl
@[simp] theorem State.onSch_pkg (s : State) (f : SchState → SchState) : (s.onSch f).pkg = s.pkg := rfl
@[simp] theorem State.onSch_att (s : State) (f : SchState → SchState) : (s.onSch f).att = s.att := rfl
@[simp] theorem State.onSch_bdy (s : State) (f : SchState → SchState) : (s.onSch f).bdy = s.bdy := rfl
@[simp] theorem State.onSch_net (s : State) (f : SchState → SchState) : (s.onSch f).net = s.net := rfl
@[simp] theorem State.onSch_pcie (s : State) (f : SchState → SchState) : (s.onSch f).pcie = s.pcie := rfl
@[simp] theorem State.onSch_rpc (s : State) (f : SchState → SchState) : (s.onSch f).rpc = s.rpc := rfl
@[simp] theorem State.onSch_vds (s : State) (f : SchState → SchState) : (s.onSch f).vds = s.vds := rfl
@[simp] theorem State.onSch_lq (s : State) (f : SchState → SchState) : (s.onSch f).lq = s.lq := rfl
@[simp] theorem State.onSch_cores (s : State) (f : SchState → SchState) : (s.onSch f).cores = s.cores := rfl
@[simp] theorem State.onSch_loc (s : State) (f : SchState → SchState) : (s.onSch f).loc = s.loc := rfl
@[simp] theorem State.onSch_mem (s : State) (f : SchState → SchState) : (s.onSch f).mem = s.mem := rfl
@[simp] theorem State.onSch_ord (s : State) (f : SchState → SchState) : (s.onSch f).ord = s.ord := rfl
@[simp] theorem State.onSch_trn (s : State) (f : SchState → SchState) : (s.onSch f).trn = s.trn := rfl
@[simp] theorem State.onSch_ras (s : State) (f : SchState → SchState) : (s.onSch f).ras = s.ras := rfl
@[simp] theorem State.onSch_sch (s : State) (f : SchState → SchState) : (s.onSch f).sch = f s.sch := rfl

end Sys2Proof.Machine
end

