-- ==== Sys2Proof/Laws/Tab.lean ====
section
/-! SUPPORT. Sparse tables: what a read finds after a write or a removal, and the canonical form each operation keeps. -/
namespace Sys2Proof.Machine

variable {α : Type}

@[simp] theorem Tab.find_nil (i : Nat) : Tab.find ([] : Tab α) i = none := rfl

/-- A table holds at a key what was put there. -/
@[simp] theorem Tab.find_put_self (t : Tab α) (i : Nat) (x : α) : (Tab.put t i x).find i = some x := by
  induction t with
  | nil => simp [Tab.put, Tab.find]
  | cons e t ih =>
    obtain ⟨k, v⟩ := e
    simp only [Tab.put]
    split_ifs with h h'
    · simp [Tab.find]
    · simp [Tab.find]
    · simpa [Tab.find, Ne.symm h'] using ih

/-- A put leaves every other key as it was. -/
theorem Tab.find_put_ne (t : Tab α) {i j : Nat} (x : α) (h : j ≠ i) : (Tab.put t i x).find j = Tab.find t j := by
  induction t with
  | nil => simp [Tab.put, Tab.find, h.symm]
  | cons e t ih =>
    obtain ⟨k, v⟩ := e
    simp only [Tab.put]
    split_ifs with h1 h2
    · simp [Tab.find, h.symm]
    · subst h2; simp [Tab.find, h.symm]
    · simp only [Tab.find, ih]

/-- A removed key is absent. -/
@[simp] theorem Tab.find_del_self (t : Tab α) (i : Nat) : (Tab.del t i).find i = none := by
  induction t with
  | nil => rfl
  | cons e t ih =>
    obtain ⟨k, v⟩ := e
    by_cases h : k = i
    · subst h; simpa [Tab.del] using ih
    · simpa [Tab.del, h, Tab.find] using ih

/-- A removal leaves every other key as it was. -/
theorem Tab.find_del_ne (t : Tab α) {i j : Nat} (h : j ≠ i) : (Tab.del t i).find j = Tab.find t j := by
  induction t with
  | nil => rfl
  | cons e t ih =>
    obtain ⟨k, v⟩ := e
    by_cases hk : k = i
    · subst hk; simpa [Tab.del, Tab.find, h.symm] using ih
    · simp only [Tab.del] at ih
      simp [Tab.del, hk, Tab.find, ih]

/-- A table reads at a key what was written there. -/
@[simp] theorem Tab.at_write_self [DecidableEq α] (t : Tab α) (d x : α) (i : Nat) : (Tab.write t d i x).at d i = x := by
  unfold Tab.write
  split_ifs with h
  · simp [Tab.at, h]
  · simp [Tab.at]

/-- A write leaves every other key as it was. -/
theorem Tab.at_write_ne [DecidableEq α] (t : Tab α) (d x : α) {i j : Nat} (h : j ≠ i) : (Tab.write t d i x).at d j = t.at d j := by
  unfold Tab.write Tab.at
  split_ifs
  · rw [Tab.find_del_ne t h]
  · rw [Tab.find_put_ne t x h]

/-- The canonical form, said of a list as a whole. -/
theorem Tab.wf_iff [DecidableEq α] (d : α) (t : Tab α) :
    Tab.wf d t = true ↔ t.Pairwise (fun a b => a.1 < b.1) ∧ ∀ e ∈ t, e.2 ≠ d := by
  induction t with
  | nil => simp [Tab.wf]
  | cons e t ih =>
    obtain ⟨k, v⟩ := e
    cases t with
    | nil => simp [Tab.wf]
    | cons e' t =>
      obtain ⟨k', v'⟩ := e'
      simp only [Tab.wf, Bool.and_eq_true, decide_eq_true_eq, ih, List.pairwise_cons, List.mem_cons, forall_eq_or_imp]
      constructor
      · rintro ⟨⟨h1, h2⟩, ⟨h3, h4⟩, h5⟩
        exact ⟨⟨⟨h1, fun a ha => lt_trans h1 (h3 a ha)⟩, h3, h4⟩, h2, h5⟩
      · rintro ⟨⟨⟨h1, -⟩, h3, h4⟩, h2, h5⟩
        exact ⟨⟨h1, h2⟩, ⟨h3, h4⟩, h5⟩

/-- Any part of a canonical table, in its order, is canonical. -/
theorem Tab.wf_filter [DecidableEq α] {d : α} {t : Tab α} (f : Nat × α → Bool) (h : Tab.wf d t = true) :
    Tab.wf d (t.filter f) = true := by
  rw [Tab.wf_iff] at h ⊢
  exact ⟨h.1.filter f, fun e he => h.2 e (List.mem_of_mem_filter he)⟩

theorem Tab.wf_del [DecidableEq α] {d : α} {t : Tab α} (i : Nat) (h : Tab.wf d t = true) : Tab.wf d (Tab.del t i) = true :=
  Tab.wf_filter _ h

theorem Tab.mem_put {t : Tab α} {i : Nat} {x : α} {e : Nat × α} (h : e ∈ Tab.put t i x) : e = (i, x) ∨ e ∈ t := by
  induction t with
  | nil => simpa [Tab.put] using h
  | cons a t ih =>
    obtain ⟨k, v⟩ := a
    simp only [Tab.put] at h
    split_ifs at h with h1 h2
    · simpa using h
    · simp only [List.mem_cons] at h ⊢; tauto
    · simp only [List.mem_cons] at h ⊢
      rcases h with h | h
      · tauto
      · rcases ih h with h | h <;> tauto

/-- A put of a value other than the default keeps the canonical form. -/
theorem Tab.wf_put [DecidableEq α] {d : α} {t : Tab α} {i : Nat} {x : α} (hx : x ≠ d) (h : Tab.wf d t = true) :
    Tab.wf d (Tab.put t i x) = true := by
  rw [Tab.wf_iff] at h ⊢
  refine ⟨?_, fun e he => ?_⟩
  · obtain ⟨h, -⟩ := h
    induction t with
    | nil => simp [Tab.put]
    | cons a t ih =>
      obtain ⟨k, v⟩ := a
      rw [List.pairwise_cons] at h
      simp only [Tab.put]
      split_ifs with h1 h2
      · rw [List.pairwise_cons, List.pairwise_cons]
        refine ⟨fun b hb => ?_, h⟩
        rcases List.mem_cons.mp hb with rfl | hb
        · exact h1
        · exact lt_trans h1 (h.1 b hb)
      · subst h2; exact List.pairwise_cons.mpr h
      · refine List.pairwise_cons.mpr ⟨fun b hb => ?_, ih h.2⟩
        rcases Tab.mem_put hb with rfl | hb
        · simp only; omega
        · exact h.1 b hb
  · rcases Tab.mem_put he with rfl | he
    · exact hx
    · exact h.2 e he

/-- A write keeps the canonical form. -/
theorem Tab.wf_write [DecidableEq α] {d : α} {t : Tab α} (i : Nat) (x : α) (h : Tab.wf d t = true) :
    Tab.wf d (Tab.write t d i x) = true := by
  unfold Tab.write
  split_ifs with hx
  · exact Tab.wf_del i h
  · exact Tab.wf_put hx h

end Sys2Proof.Machine
end

