-- ==== Sys2Proof/Laws/Memory.lean ====
section
/-! SUPPORT. Memory at the point of coherence: every operation keeps its canonical form, and a read gives what was last written. -/
namespace Sys2Proof.Machine

theorem Memory.wf_reset : Memory.wf State.reset.mem.cells = true := rfl

theorem Memory.wf_cellPut {m : List Host.Cell} (a : Nat) (b : Byte) (h : Memory.wf m = true) : Memory.wf (cellPut m a b) = true :=
  Tab.wf_write a b h

theorem Memory.wf_cellsPut {m : List Host.Cell} (h : Memory.wf m = true) : ∀ (b : Bytes) (a : Nat), Memory.wf (cellsPut m a b) = true
  | [], _ => h
  | _ :: bs, a => Memory.wf_cellPut a _ (Memory.wf_cellsPut h bs (a + 1))

/-- A write keeps memory canonical. -/
theorem Memory.wf_writeMem {s : State} (a : Nat) (b : Bytes) (h : Memory.wf s.mem.cells = true) :
    Memory.wf (writeMem s a b).mem.cells = true := Memory.wf_cellsPut h b a

/-- Clearing part of memory keeps it canonical. -/
theorem Memory.wf_filter {m : List Host.Cell} (f : Host.Cell → Bool) (h : Memory.wf m = true) : Memory.wf (m.filter f) = true :=
  Tab.wf_filter f h

theorem cellAt_cellPut (m : List Host.Cell) (a x : Nat) (b : Byte) : cellAt (cellPut m a b) x = if x = a then b else cellAt m x := by
  split_ifs with h
  · subst h; exact Tab.at_write_self m 0 b x
  · exact Tab.at_write_ne m 0 b h

theorem cellAt_cellsPut (m : List Host.Cell) (x : Nat) : ∀ (b : Bytes) (a : Nat),
    cellAt (cellsPut m a b) x = if a ≤ x ∧ x < a + b.length then b.getD (x - a) 0 else cellAt m x
  | [], a => by rw [if_neg (by simp)]; rfl
  | b :: bs, a => by
    rw [cellsPut, cellAt_cellPut, cellAt_cellsPut m x bs (a + 1)]
    by_cases h : x = a
    · subst h; simp
    · by_cases h' : a + 1 ≤ x ∧ x < a + 1 + bs.length
      · obtain ⟨k, rfl⟩ := Nat.exists_eq_add_of_le h'.1
        rw [if_neg h, if_pos h', if_pos (by simp only [List.length_cons]; omega)]
        simp [show a + 1 + k - a = k + 1 by omega]
      · rw [if_neg h, if_neg h', if_neg (by simp only [List.length_cons]; omega)]

/-- Each byte of memory after a write. -/
theorem readByte_writeMem (s : State) (a : Nat) (b : Bytes) (x : Nat) :
    readByte (writeMem s a b) x = if a ≤ x ∧ x < a + b.length then b.getD (x - a) 0 else readByte s x :=
  cellAt_cellsPut s.mem.cells x b a

/-- Bytes written read back. -/
theorem readMem_writeMem (s : State) (a : Nat) (b : Bytes) : readMem (writeMem s a b) a b.length = b := by
  refine List.ext_getElem (by simp [readMem]) (fun i h1 h2 => ?_)
  simp [readMem, readByte_writeMem, h2]

/-- A write changes no other bytes. -/
theorem readMem_writeMem_out (s : State) (a x n : Nat) (b : Bytes) (h : x + n ≤ a ∨ a + b.length ≤ x) :
    readMem (writeMem s a b) x n = readMem s x n := by
  refine List.map_congr_left (fun i hi => ?_)
  have := List.mem_range.mp hi
  rw [readByte_writeMem, if_neg (by omega)]

/-- A write changes nothing but the bytes of memory. -/
theorem writeMem_rest (s : State) (a : Nat) (b : Bytes) : writeMem s a b = { s with mem := { s.mem with cells := cellsPut s.mem.cells a b } } := rfl

/-- A clearing keeps memory canonical. -/
theorem Memory.wf_clearRange {s : State} (a n : Nat) (h : Memory.wf s.mem.cells = true) :
    Memory.wf (clearRange s a n).mem.cells = true := Memory.wf_filter _ h

/-- A move inside a canonical table keeps it canonical. -/
theorem Tab.wf_moveTab {α : Type} [DecidableEq α] {d : α} {t : Tab α} (src dst n : Nat) (h : Tab.wf d t = true) :
    Tab.wf d (moveTab t src dst n) = true := by
  rw [Tab.wf_iff] at h ⊢
  unfold moveTab
  obtain ⟨hp, hd⟩ := h
  refine ⟨?_, fun e he => ?_⟩
  · simp only [List.pairwise_append, List.pairwise_map]
    refine ⟨⟨hp.filter _, ?_, ?_⟩, hp.filter _, ?_⟩
    · refine ((hp.filter _).imp_of_mem (fun {a b} ha hb hab => ?_))
      simp only [List.mem_filter, decide_eq_true_eq] at ha hb
      omega
    · intro a ha b hb
      simp only [List.mem_filter, List.mem_map, decide_eq_true_eq] at ha hb
      obtain ⟨c, hc, rfl⟩ := hb
      simp only; omega
    · intro a ha b hb
      simp only [List.mem_append, List.mem_filter, List.mem_map, decide_eq_true_eq] at ha hb
      rcases ha with ha | ⟨c, hc, rfl⟩
      · omega
      · simp only; omega
  · simp only [List.mem_append, List.mem_filter, List.mem_map] at he
    rcases he with (he | ⟨c, hc, rfl⟩) | he
    · exact hd e he.1
    · exact hd c hc.1
    · exact hd e he.1

/-- A step of the memory system that keeps memory canonical from state to state, folded over a list, keeps it. -/
theorem Memory.wf_foldl {β : Type} {f : State → β → State} (hf : ∀ s b, Memory.wf s.mem.cells = true → Memory.wf (f s b).mem.cells = true) :
    ∀ (l : List β) (s : State), Memory.wf s.mem.cells = true → Memory.wf (l.foldl f s).mem.cells = true
  | [], _, h => h
  | b :: l, s, h => Memory.wf_foldl hf l (f s b) (hf s b h)

theorem Memory.wf_setPoison {s : State} (a : Nat) (p : Bool) (h : Memory.wf s.mem.cells = true) :
    Memory.wf (setPoison s a p).mem.cells = true := h

/-! The MSC and what is above it. -/

/-- What a step over a list leaves of memory's bytes, when each of its steps leaves them. -/
theorem foldl_cells {β : Type} {f : State → β → State} (hf : ∀ s b, (f s b).mem.cells = s.mem.cells) :
    ∀ (l : List β) (s : State), (l.foldl f s).mem.cells = s.mem.cells
  | [], _ => rfl
  | b :: l, s => by rw [List.foldl_cons, foldl_cells hf l, hf]

theorem countChild_cells (m : MemState) (l k c : Nat) : (countChild m l k c).cells = m.cells := by
  simp only [countChild, minorWrap]; split_ifs <;> rfl
theorem countAbove_cells (m : MemState) (k l : Nat) : (countAbove m k l).cells = m.cells := by
  simp [countAbove, countChild_cells]
theorem writeBackLine_cells (s : State) (a : Nat) : (writeBackLine s a).mem.cells = s.mem.cells := by
  simp [writeBackLine, countChild_cells, countAbove_cells]

theorem offerRec_mem (s : State) (v : Nat) (r : Rec) : (offerRec s v r).mem = s.mem := rfl
theorem offerBoth_mem (s : State) (v : Nat) (r : Rec) : (offerBoth s v r).mem = s.mem := by
  simp only [offerBoth]; split_ifs <;> rfl

theorem poisonLine_cells (s : State) (l : Nat) : (poisonLine s l).mem.cells = s.mem.cells :=
  foldl_cells (f := fun s o => setPoison s (l * 128 + o) true) (fun _ _ => rfl) [0, 32, 64, 96] s
theorem checkFails_cells (s : State) (a : Nat) (l : List Nat) (b k : Nat) : (checkFails s a l b k).mem.cells = s.mem.cells := by
  rw [checkFails, offerBoth_mem]; exact foldl_cells poisonLine_cells l s
theorem meetHarm_cells (a : Nat) (s : State) (h : Harm) : (meetHarm a s h).mem.cells = s.mem.cells := by
  cases h <;> simp only [meetHarm] <;> (try split_ifs) <;> first | rfl | exact checkFails_cells _ _ _ _ _

theorem dramRead_cells (s : State) (a : Nat) : (dramRead s a).mem.cells = s.mem.cells := by
  simp only [dramRead]; split_ifs
  · rfl
  · exact foldl_cells (meetHarm_cells a) _ s

/-- An access to a line at its MSC changes no byte of memory. -/
theorem mscTouch_cells (s : State) (v kid a : Nat) (w : Bool) : (mscTouch s v kid a w).mem.cells = s.mem.cells := by
  have ht : (tick s).mem.cells = s.mem.cells := rfl
  simp only [mscTouch]
  split
  · exact ht
  · split
    · split_ifs
      · rw [writeBackLine_cells, dramRead_cells, ht]
      · rw [dramRead_cells, ht]
    · simp only [State.onMem_mem]
      split
      · split_ifs
        · rw [writeBackLine_cells, dramRead_cells, ht]
        · rw [dramRead_cells, ht]
      · rw [dramRead_cells, ht]

/-- A read at the MSC changes no byte, and answers the bytes there. -/
theorem mscRead_cells (s : State) (v kid a n : Nat) : (mscRead s v kid a n).1.mem.cells = s.mem.cells := by
  simp only [mscRead]; split
  · rfl
  · exact mscTouch_cells s v kid a false

/-- A write at the MSC leaves the bytes it was given, and no others changed, when it is accepted; refused, it changes none. -/
theorem mscWrite_cells (s : State) (v kid a : Nat) (b : Bytes) (p : Bool) :
    (mscWrite s v kid a b p).1.mem.cells = if (mscCheck s v kid a).isSome then s.mem.cells else cellsPut s.mem.cells a b := by
  simp only [mscWrite]; split
  · next h => simp [h]
  · next h =>
    have : ∀ x : State, (writeMem x a b).mem.cells = cellsPut x.mem.cells a b := fun _ => rfl
    simp only [h, Option.isSome_none, Bool.false_eq_true, if_false]
    split_ifs <;> simp [setPoison, this, mscTouch_cells]

theorem Memory.wf_mscWrite {s : State} (v kid a : Nat) (b : Bytes) (p : Bool) (h : Memory.wf s.mem.cells = true) :
    Memory.wf (mscWrite s v kid a b p).1.mem.cells = true := by
  rw [mscWrite_cells]; split_ifs
  · exact h
  · exact Memory.wf_cellsPut h b a

/-- A write of the device itself keeps memory canonical. -/
theorem Memory.wf_devWrite {s : State} (v a : Nat) (b : Bytes) (h : Memory.wf s.mem.cells = true) :
    Memory.wf (devWrite s v a b).mem.cells = true := Memory.wf_writeMem a b (by rw [mscTouch_cells]; exact h)

/-- A device's copy keeps memory canonical. -/
theorem Memory.wf_copyPhys {s : State} (v src dst n : Nat) (ws : List Writer) (h : Memory.wf s.mem.cells = true) :
    Memory.wf (copyPhys s v src dst n ws).mem.cells = true := by
  refine Tab.wf_moveTab src dst n ?_
  rw [foldl_cells (fun x i => ?_)]
  · exact h
  · rw [mscTouch_cells, mscTouch_cells]

end Sys2Proof.Machine
end

