-- ==== Sys2Proof/Laws/Cache.lean ====
section
/-! SUPPORT. The caches keep memory canonical: fills, write-backs, evictions, loads and stores, releases and acquires. -/
namespace Sys2Proof.Machine

/-- Memory is in its canonical form. -/
abbrev Canon (s : State) : Prop := Memory.wf s.mem.cells = true

theorem Canon.foldl {β : Type} {f : State → β → State} (hf : ∀ s b, Canon s → Canon (f s b)) {s : State} (l : List β)
    (h : Canon s) : Canon (l.foldl f s) := Memory.wf_foldl hf l s h

/-- An update of the memory system that leaves its bytes. -/
theorem Canon.onMem {s : State} {f : MemState → MemState} (hf : (f s.mem).cells = s.mem.cells) (h : Canon s) : Canon (s.onMem f) := by
  simpa [Canon, hf] using h

variable {s : State}

theorem Canon.mscTouch (v kid a : Nat) (w : Bool) (h : Canon s) : Canon (Machine.mscTouch s v kid a w) := by
  simpa [Canon, mscTouch_cells] using h
theorem Canon.mscRead (v kid a n : Nat) (h : Canon s) : Canon (Machine.mscRead s v kid a n).1 := by
  simpa [Canon, mscRead_cells] using h
theorem Canon.mscWrite (v kid a : Nat) (b : Bytes) (p : Bool) (h : Canon s) : Canon (Machine.mscWrite s v kid a b p).1 :=
  Memory.wf_mscWrite v kid a b p h
theorem Canon.writeMem (a : Nat) (b : Bytes) (h : Canon s) : Canon (Machine.writeMem s a b) := Memory.wf_writeMem a b h
theorem Canon.setMark (a : Nat) (ws : List Writer) (h : Canon s) : Canon (Machine.setMark s a ws) := by
  unfold Machine.setMark; split_ifs <;> exact h
theorem Canon.onOrd (f : OrdState → OrdState) (h : Canon s) : Canon (s.onOrd f) := h
theorem Canon.learn (a : Nat) (ks : List Know) (h : Canon s) : Canon (Machine.learn s a ks) := by
  unfold Machine.learn; split_ifs <;> exact h
theorem Canon.meet (a core sc : Nat) (rs : List Rel) (h : Canon s) : Canon (Machine.meet s a core sc rs) := Canon.learn _ _ h
theorem Canon.meetSeen (a core sc since : Nat) (h : Canon s) : Canon (Machine.meetSeen s a core sc since) := by
  unfold Machine.meetSeen
  split
  · exact h
  · exact Canon.meet _ _ _ _ h
theorem Canon.hear (a loc : Nat) (b : Bytes) (h : Canon s) : Canon (Machine.hear s a loc b) := by
  unfold Machine.hear; split <;> exact h
theorem Canon.tell (loc : Nat) (b : Bytes) (rs : List Rel) (h : Canon s) : Canon (Machine.tell s loc b rs) := by
  unfold Machine.tell; dsimp only; split_ifs <;> exact h
theorem Canon.addChan (c : Chan) (rs : List Rel) (h : Canon s) : Canon (Machine.addChan s c rs) := by
  unfold Machine.addChan; split_ifs <;> exact h
theorem Canon.clearMarks (f : Nat → Writer → Bool) (h : Canon s) : Canon (Machine.clearMarks s f) := h
theorem Canon.cross (a frm dst : Nat) (h : Canon s) : Canon (Machine.cross s a frm dst) := by
  have h1 := Canon.learn a (((knowOf s a).filter (fun k => bit k.paths frm)).map (fun k => { k with paths := nOr k.paths dst })) h
  unfold Machine.cross
  dsimp only
  split_ifs
  · exact Canon.clearMarks _ h1
  · exact h1
theorem Canon.tick (h : Canon s) : Canon (Machine.tick s) := h
theorem Canon.writeBackLine (a : Nat) (h : Canon s) : Canon (Machine.writeBackLine s a) := by
  simpa [Canon, writeBackLine_cells] using h

/-! L2. -/

theorem Canon.onL2 (k : Nat) (f : L2Line → L2Line) (h : Canon s) : Canon (Machine.onL2 s k f) := h

theorem Canon.l2Clean (k m : Nat) (h : Canon s) : Canon (Machine.l2Clean s k m) := by
  unfold Machine.l2Clean
  split
  · exact h
  · next l _ =>
    dsimp only
    split_ifs
    · exact h
    · exact Canon.onMem rfl (Canon.foldl (fun _ _ hx =>
        Canon.setMark _ _ (Canon.foldl (fun _ _ hy => Canon.mscWrite _ _ _ _ _ hy) _ hx)) _ h)

theorem Canon.l2Evict (k : Nat) (h : Canon s) : Canon (Machine.l2Evict s k) := Canon.onMem rfl (Canon.l2Clean k 0xFF h)

theorem Canon.l2Alloc (die v kid a : Nat) (h : Canon s) : Canon (Machine.l2Alloc s die v kid a).1 := by
  unfold Machine.l2Alloc
  dsimp only
  split
  · exact h
  · exact Canon.onMem rfl (Canon.l2Evict _ h)

theorem Canon.l2Get (die v kid a : Nat) (h : Canon s) : Canon (Machine.l2Get s die v kid a).1 := by
  unfold Machine.l2Get
  split
  · exact Canon.onMem (by rfl) h
  · exact Canon.l2Alloc die v kid a h

theorem Canon.l2Fill (v kid a k : Nat) (h : Canon s) : Canon (Machine.l2Fill s v kid a k).1 := by
  unfold Machine.l2Fill
  split
  · exact h
  · split_ifs
    · exact h
    · have := Canon.mscRead v kid (a / 32 * 32) 32 h
      split <;> simp_all [Canon, Machine.onL2]

theorem Canon.l2Read (die v kid a n : Nat) (r : Bool) (h : Canon s) : Canon (Machine.l2Read s die v kid a n r).1 := by
  unfold Machine.l2Read
  dsimp only
  split_ifs
  · split
    · exact Canon.l2Get die v kid a h.tick
    · have := Canon.mscRead v kid a n h.tick
      split
      · next e => rw [e] at this; exact this
      · next e => rw [e] at this; exact Canon.l2Alloc die v kid a this
  · split
    · exact h
    · have h1 := Canon.l2Get die v kid a h.tick
      split
      · next e => rw [e] at h1; exact Canon.mscRead v kid a n h1
      · next x key e =>
        rw [e] at h1
        have h2 := Canon.l2Fill v kid a key (Canon.onL2 key (fun l => { l with replica := l.replica || r }) h1)
        split
        · next e => rw [e] at h2; exact h2
        · next e =>
          rw [e] at h2
          split <;> exact h2

theorem Canon.l2Write (die v kid a : Nat) (b : Bytes) (cols : Nat) (ws : List Writer) (p : Bool) (h : Canon s) :
    Canon (Machine.l2Write s die v kid a b cols ws p).1 := by
  unfold Machine.l2Write
  dsimp only
  split_ifs with hd
  · have := Canon.mscWrite v kid a b p h.tick
    split
    · next e => rw [e] at this; exact this
    · next e => rw [e] at this; exact Canon.setMark _ _ (Canon.l2Get die v kid a this)
  all_goals
    split
    · exact h
    · have h1 := Canon.l2Get die v kid a h.tick
      split
      · next e =>
        rw [e] at h1
        have := Canon.mscWrite v kid a b p h1
        split_ifs
        · exact Canon.setMark _ _ this
        · exact this
      · next x key e =>
        rw [e] at h1
        have h2 := Canon.l2Fill v kid a key h1
        split
        · next e =>
          first | (rw [e] at h2; exact h2) | cases e
        · next e =>
          first | (rw [e] at h2; exact Canon.onL2 _ _ h2) | (cases e; exact Canon.onL2 _ _ h1)

theorem Canon.l2Release (die v m : Nat) (h : Canon s) : Canon (Machine.l2Release s die v m) :=
  Canon.foldl (fun _ k hx => Canon.l2Clean k m hx) _ h

theorem Canon.l2Acquire (die v : Nat) (h : Canon s) : Canon (Machine.l2Acquire s die v) :=
  Canon.onMem rfl (Canon.l2Release die v 0xFF h)

/-! L1. -/

theorem Canon.onL1 (k : Nat) (f : L1Line → L1Line) (h : Canon s) : Canon (Machine.onL1 s k f) := h

theorem Canon.l1Clean (k m : Nat) (h : Canon s) : Canon (Machine.l1Clean s k m) := by
  unfold Machine.l1Clean
  split
  · exact h
  · exact Canon.onL1 _ _ (Canon.foldl (fun _ _ hx => Canon.foldl (fun _ _ hy => Canon.l2Write _ _ _ _ _ _ _ _ hy) _ hx) _ h)

theorem Canon.l1Evict (k : Nat) (h : Canon s) : Canon (Machine.l1Evict s k) := Canon.onMem rfl (Canon.l1Clean k 0xFF h)

theorem Canon.l1Unname (n : L1Name) (line : Nat) (h : Canon s) : Canon (Machine.l1Unname s n line) :=
  Canon.onMem rfl (Canon.foldl (fun _ k hx => Canon.l1Evict k hx) _ h)

theorem Canon.l1Get (n : L1Name) (line : Nat) (w sl : Bool) (h : Canon s) : Canon (Machine.l1Get s n line w sl).1 := by
  unfold Machine.l1Get
  split
  · exact h
  · split
    · exact h
    · exact Canon.onMem rfl (Canon.l1Evict _ (Canon.l1Unname _ _ h))

theorem Canon.l1Fill (n : L1Name) (a k : Nat) (sl : Bool) (h : Canon s) : Canon (Machine.l1Fill s n a k sl).1 := by
  unfold Machine.l1Fill
  split
  · exact h
  · split_ifs
    · exact h
    · have := Canon.l2Read (dieOfCore n.core) n.vd n.kid (a / 32 * 32) 32 sl h
      split <;> (next e => rw [e] at this; exact this)

/-- A load keeps memory canonical. -/
theorem Canon.l1Read (n : L1Name) (a len : Nat) (w sl : Bool) (h : Canon s) : Canon (Machine.l1Read s n a len w sl).1 := by
  unfold Machine.l1Read
  dsimp only
  split
  · exact h
  · have h1 := Canon.l1Get n (lineOf a) w sl h.tick
    split
    · next e => rw [e] at h1; exact Canon.l2Read _ _ _ _ _ _ h1
    · next x key e =>
      rw [e] at h1
      have h2 := Canon.l1Fill n a key sl h1
      split
      · next e => rw [e] at h2; exact h2
      · next e =>
        rw [e] at h2
        split <;> exact h2

/-- A store keeps memory canonical. -/
theorem Canon.l1Write (n : L1Name) (a : Nat) (b : Bytes) (wr : Writer) (h : Canon s) : Canon (Machine.l1Write s n a b wr).1 := by
  unfold Machine.l1Write
  dsimp only
  split
  · exact h
  · have h1 := Canon.l1Get n (lineOf a) true false h.tick
    split
    · next e => rw [e] at h1; exact Canon.l2Write _ _ _ _ _ _ _ _ h1
    · next x key e =>
      rw [e] at h1
      have h2 := Canon.l1Fill n a key false h1
      split
      · next e =>
        split_ifs at e
        · cases e
        · rw [e] at h2; exact h2
      · next e =>
        split_ifs at e
        · cases e; exact Canon.onL1 _ _ h1
        · rw [e] at h2; exact Canon.onL1 _ _ h2

theorem Canon.l1Release (core v m : Nat) (h : Canon s) : Canon (Machine.l1Release s core v m) :=
  Canon.foldl (fun _ k hx => Canon.l1Clean k m hx) _ h
theorem Canon.l1Acquire (core v : Nat) (h : Canon s) : Canon (Machine.l1Acquire s core v) :=
  Canon.foldl (fun _ k hx => Canon.l1Evict k hx) _ h

/-! Releases, acquires and flushes. -/

theorem Canon.release (core v sc m : Nat) (h : Canon s) : Canon (Machine.release s core v sc m) := by
  unfold Machine.release; dsimp only; split_ifs
  · exact Canon.l2Release _ _ _ (Canon.l1Release _ _ _ h)
  · exact Canon.l2Release _ _ _ h
  · exact Canon.l1Release _ _ _ h
  · exact h
theorem Canon.acquire (core v sc : Nat) (h : Canon s) : Canon (Machine.acquire s core v sc) := by
  unfold Machine.acquire; dsimp only; split_ifs
  · exact Canon.l2Acquire _ _ (Canon.l1Acquire _ _ h)
  · exact Canon.l2Acquire _ _ h
  · exact Canon.l1Acquire _ _ h
  · exact h
theorem Canon.crossing (core v m : Nat) (h : Canon s) : Canon (Machine.crossing s core v m) := by
  have h1 : Canon (if nAnd m 0x1FE ≠ 0 then Machine.l1Release s core v 0xFF else s) := by
    split_ifs
    · exact Canon.l1Release _ _ _ h
    · exact h
  unfold Machine.crossing
  dsimp only
  generalize (if nAnd m 0x1FE ≠ 0 then Machine.l1Release s core v 0xFF else s) = x at h1 ⊢
  split_ifs
  · exact Canon.l2Release _ _ _ h1
  · exact h1
theorem Canon.releaseBy (g : Group) (us : List Nat) (sc m : Nat) (h : Canon s) : Canon (Machine.releaseBy s g us sc m) :=
  Canon.foldl (fun _ _ hx => Canon.release _ _ _ _ hx) _ h
theorem Canon.fenceBy (g : Group) (us : List Nat) (sc m : Nat) (h : Canon s) : Canon (Machine.fenceBy s g us sc m) :=
  Canon.foldl (f := addFence) (fun _ _ hx => hx) _ (Canon.releaseBy _ _ _ _ h)
theorem Canon.sendBy (g : Group) (us : List Nat) (sc m : Nat) (c : Chan) (h : Canon s) : Canon (Machine.sendBy s g us sc m c) :=
  Canon.addChan _ _ (Canon.releaseBy _ _ _ _ h)
theorem Canon.acquireBy (g : Group) (us : List Nat) (sc since : Nat) (h : Canon s) : Canon (Machine.acquireBy s g us sc since) :=
  Canon.foldl (fun _ _ hx => Canon.meetSeen _ _ _ _ hx) _ (Canon.foldl (fun _ _ hx => Canon.acquire _ _ _ hx) _ h)
theorem Canon.recvBy (g : Group) (us : List Nat) (sc : Nat) (c : Chan) (h : Canon s) : Canon (Machine.recvBy s g us sc c) :=
  Canon.foldl (fun _ _ hx => Canon.meet _ _ _ _ hx) _ (Canon.foldl (fun _ _ hx => Canon.acquire _ _ _ hx) _ h)
theorem Canon.crossBy (g : Group) (us : List Nat) (frm m : Nat) (h : Canon s) : Canon (Machine.crossBy s g us frm m) :=
  Canon.foldl (fun _ _ hx => Canon.cross _ _ _ hx) _ (Canon.foldl (fun _ _ hx => Canon.crossing _ _ _ hx) _ h)
theorem Canon.issueWork (g : Group) (us : List Nat) (h : Canon s) : Canon (Machine.issueWork s g us) := Canon.releaseBy _ _ _ _ h
theorem Canon.l1Claim (n : L1Name) (a : Nat) (h : Canon s) : Canon (Machine.l1Claim s n a) := by
  unfold Machine.l1Claim
  split
  · exact h
  · have h1 := Canon.l1Get n (lineOf a) true false h.tick
    split
    · next e => rw [e] at h1; exact h1
    · next e => rw [e] at h1; exact Canon.onL1 _ _ h1
theorem Canon.flushLines (f : Nat → Bool) (h : Canon s) : Canon (Machine.flushLines s f) :=
  Canon.foldl (fun _ k hx => Canon.l2Evict k hx) _ (Canon.foldl (fun _ k hx => Canon.l1Evict k hx) _ h)
theorem Canon.flushLine (l : Nat) (h : Canon s) : Canon (Machine.flushLine s l) :=
  Canon.foldl (fun _ k hx => Canon.l2Evict k hx) _ (Canon.foldl (fun _ k hx => Canon.l1Evict k hx) _ h)
theorem freshNode_cells (m : MemState) (k n : Nat) : (freshNode m k n).cells = m.cells := by rw [freshNode, countAbove_cells]
theorem Canon.freshCounters (f : Nat) (h : Canon s) : Canon (Machine.freshCounters s f) := by
  refine Canon.onMem ?_ h
  have hf : ∀ (l : List Nat) (m : MemState), (l.foldl (fun m c =>
      let a := 65536 * f + 8192 * c; Machine.freshNode m (homeStack a) (localLine a / 64)) m).cells = m.cells := by
    intro l
    induction l with
    | nil => intro m; rfl
    | cons c l ih => intro m; rw [List.foldl_cons, ih, freshNode_cells]
  exact hf _ _
theorem Canon.scrubFrame (f : Nat) (h : Canon s) : Canon (Machine.scrubFrame s f) :=
  Memory.wf_clearRange _ _ (Canon.freshCounters f h)

end Sys2Proof.Machine
end

