-- ==== Sys2Proof/Laws/Groups.lean ====
section
/-! SUPPORT. Groups, threads, registers and predicates: what each named update leaves of each read. -/
namespace Sys2Proof.Machine

/-! Finding a group after an update. -/

theorem findGroup_gid {s : State} {k : Nat} {g : Group} (h : findGroup s k = some g) : g.gid = k := by
  simpa using List.find?_some h

/-- An update of the groups of one number that keeps their number. -/
theorem findGroup_onGroup (s : State) (gid k : Nat) (f : Group → Group) (hf : ∀ g, (f g).gid = g.gid) :
    findGroup (onGroup s gid f) k = if k = gid then (findGroup s k).map f else findGroup s k := by
  have hp : (fun g : Group => g.gid == k) ∘ (fun x => if x.gid = gid then f x else x) = fun g => g.gid == k := by
    funext x; by_cases h : x.gid = gid <;> simp [h, hf]
  simp only [findGroup, onGroup, State.onCores_cores, List.find?_map, hp]
  cases h : s.cores.groups.find? (fun g => g.gid == k) with
  | none => simp
  | some g =>
    have hg : g.gid = k := by simpa using List.find?_some h
    by_cases hk : k = gid <;> simp [hg, hk]

@[simp] theorem findGroup_onGroup_self {s : State} {gid : Nat} {g : Group} (f : Group → Group) (hf : ∀ g, (f g).gid = g.gid)
    (h : findGroup s gid = some g) : findGroup (onGroup s gid f) gid = some (f g) := by
  simp [findGroup_onGroup s gid gid f hf, h]

theorem findGroup_onGroup_ne {s : State} {gid k : Nat} (f : Group → Group) (hf : ∀ g, (f g).gid = g.gid) (h : k ≠ gid) :
    findGroup (onGroup s gid f) k = findGroup s k := by
  simp [findGroup_onGroup s gid k f hf, h]

@[simp] theorem onGroup_loc (s : State) (gid : Nat) (f : Group → Group) : (onGroup s gid f).loc = s.loc := rfl
@[simp] theorem onGroup_mem (s : State) (gid : Nat) (f : Group → Group) : (onGroup s gid f).mem = s.mem := rfl
@[simp] theorem onGroup_ras (s : State) (gid : Nat) (f : Group → Group) : (onGroup s gid f).ras = s.ras := rfl
@[simp] theorem onGroup_mandrel (s : State) (gid : Nat) (f : Group → Group) : (onGroup s gid f).cores.mandrel = s.cores.mandrel := rfl
@[simp] theorem onGroup_rest (s : State) (gid : Nat) (f : Group → Group) :
    { onGroup s gid f with cores := { (onGroup s gid f).cores with groups := s.cores.groups } } = s := rfl

/-! Threads of a group. -/

@[simp] theorem Group.onThread_gid (g : Group) (t : Nat) (f : Thread → Thread) : (g.onThread t f).gid = g.gid := rfl
@[simp] theorem Group.onThread_kregs (g : Group) (t : Nat) (f : Thread → Thread) : (g.onThread t f).kregs = g.kregs := rfl
@[simp] theorem Group.onThread_length (g : Group) (t : Nat) (f : Thread → Thread) :
    (g.onThread t f).threads.length = g.threads.length := by simp [Group.onThread]
@[simp] theorem Group.onThread_rest (g : Group) (t : Nat) (f : Thread → Thread) : { g.onThread t f with threads := g.threads } = g := rfl

/-- A thread after the update of one: the updated one when it exists, every other as it was. -/
theorem Group.thread_onThread (g : Group) (t u : Nat) (f : Thread → Thread) :
    (g.onThread t f).thread u = if u = t ∧ u < g.threads.length then f (g.thread u) else g.thread u := by
  by_cases h : u < g.threads.length
  · by_cases hu : u = t <;> simp [Group.thread, Group.onThread, List.getD_eq_getElem?_getD, h, hu]
    · subst hu; simp [h]
  · simp [Group.thread, Group.onThread, List.getD_eq_getElem?_getD, h]

/-! General registers (R158): a write reads back, and reaches no other key. -/

theorem readReg_writeReg_self (s : State) (g : Group) (t j : Nat) (v : Word) (h : g.mandrel = true → j < 64) :
    readReg (writeReg s g t j v) g t j = v := by
  unfold readReg writeReg
  cases hm : g.mandrel with
  | false => simp
  | true => simp [onMandrel, mandrelOf, Tab.at, h hm]

/-- Rows of the register files after a write by a group of the quarters. -/
theorem writeReg_rows_ne (s : State) (g : Group) (t j k : Nat) (v : Word) (h : k ≠ g.regKey t j) :
    (writeReg s g t j v).loc.rows.at 0 k = s.loc.rows.at 0 k := by
  unfold writeReg
  split_ifs
  · rfl
  · exact Tab.at_write_ne _ 0 v h

theorem writeReg_mandrel (s : State) (g : Group) (t j : Nat) (v : Word) (h : g.mandrel = false) :
    (writeReg s g t j v).cores = s.cores := by simp [writeReg, h]

/-- A register write changes no group: nothing but the register rows and the mandrel registers. -/
@[simp] theorem findGroup_writeReg (s : State) (g : Group) (t j k : Nat) (v : Word) :
    findGroup (writeReg s g t j v) k = findGroup s k := by
  unfold writeReg; split_ifs <;> rfl
@[simp] theorem writeReg_mem (s : State) (g : Group) (t j : Nat) (v : Word) : (writeReg s g t j v).mem = s.mem := by
  unfold writeReg; split_ifs <;> rfl
@[simp] theorem writeReg_ras (s : State) (g : Group) (t j : Nat) (v : Word) : (writeReg s g t j v).ras = s.ras := by
  unfold writeReg; split_ifs <;> rfl
theorem writeReg_rest (s : State) (g : Group) (t j : Nat) (v : Word) :
    writeReg s g t j v = { s with cores := { s.cores with mandrel := (writeReg s g t j v).cores.mandrel },
                                  loc := { s.loc with rows := (writeReg s g t j v).loc.rows } } := by
  unfold writeReg; split_ifs <;> rfl

/-- R158: two registers of one group lie at one key only when they are one register of one thread. -/
theorem Group.regKey_inj (g : Group) {t u j k : Nat} (ht : t < g.width) (hu : u < g.width) (h : g.regKey t j = g.regKey u k) :
    t = u ∧ j = k := by
  have key : ∀ x, rowKey g.core g.quarter (g.rowBase + x / 64) (x % 64) = 131072 * g.core + 32768 * g.quarter + 64 * g.rowBase + x := by
    intro x; simp only [rowKey]; omega
  simp only [Group.regKey, key] at h
  have h' : j * g.width + t = k * g.width + u := by omega
  have hj : j = k := by
    have h1 : (j * g.width + t) / g.width = j := by
      rw [Nat.mul_comm, Nat.mul_add_div (by omega)]; simp [Nat.div_eq_of_lt ht]
    have h2 : (k * g.width + u) / g.width = k := by
      rw [Nat.mul_comm, Nat.mul_add_div (by omega)]; simp [Nat.div_eq_of_lt hu]
    rw [h'] at h1; omega
  subst hj
  exact ⟨by omega, rfl⟩

/-! Group-uniform registers (R252). -/

@[simp] theorem writeK_rows (s : State) (g : Group) (j : Nat) (v : Word) : (writeK s g j v).loc = s.loc := rfl
@[simp] theorem writeK_mandrel (s : State) (g : Group) (j : Nat) (v : Word) : (writeK s g j v).cores.mandrel = s.cores.mandrel := rfl

theorem findGroup_writeK (s : State) (g : Group) (j k : Nat) (v : Word) :
    findGroup (writeK s g j v) k =
      if k = g.gid then (findGroup s k).map (fun x => { x with kregs := x.kregs.setIfInBounds j v }) else findGroup s k :=
  findGroup_onGroup s g.gid k _ (fun _ => rfl)

/-- A group-uniform register reads as what was last written to it. -/
theorem readK_writeK_self (s : State) (g g' : Group) (j : Nat) (v : Word) (h : findGroup s g.gid = some g') (hj : j < 32) :
    readK (writeK s g j v) g j = v := by
  simp [readK, findGroup_writeK, h, hj]

/-! Predicates (R253). -/

@[simp] theorem Thread.pred_zero (x : Thread) : x.pred 0 = 15 := rfl
@[simp] theorem Thread.setPred_zero (x : Thread) (v : Nat) : x.setPred 0 v = x := rfl
@[simp] theorem Thread.setPred_st (x : Thread) (n v : Nat) : (x.setPred n v).st = x.st := by unfold Thread.setPred; split_ifs <;> rfl
@[simp] theorem Thread.setPred_pc (x : Thread) (n v : Nat) : (x.setPred n v).pc = x.pc := by unfold Thread.setPred; split_ifs <;> rfl
theorem Thread.setPred_rest (x : Thread) (n v : Nat) : { x.setPred n v with preds := x.preds } = x := by
  unfold Thread.setPred; split_ifs <;> rfl

end Sys2Proof.Machine
end

