-- ==== Sys2Proof/Laws/Convoy.lean ====
section
/-! SUPPORT. How a convoy's instruction begins and ends: the three ways an opcode can come out, and what its ends do to its group. -/
namespace Sys2Proof.Machine

/-- With no record waiting, the end of a step writes none. -/
theorem flushRecs_quiet {s : State} (h : s.ras.pending = []) : flushRecs s = s := by
  simp only [flushRecs, h, List.foldl_nil, State.onRas]
  cases s with
  | mk _ _ _ _ _ _ _ _ _ _ _ _ _ ras _ => cases ras; simp_all

@[simp] theorem takeTraps_nil (s : State) (g : Group) (pc : Nat) : takeTraps s g pc [] = s := by
  unfold takeTraps; cases g.priv <;> rfl

/-! The three ways an opcode comes out (R255). -/

/-- Check 2 fails: every thread takes Illegal Instruction. -/
theorem runOp_illegal {i : Instr} {need : Priv} {b : Body} {s : State} {c : Convoy} {g : Group} {h : Hdr}
    (hc : s.sch.ctx = some c) (hg : findGroup s c.gid = some g) (hh : i.hdr? = some h) (hl : legal i g = false) :
    runOp i need b s = .next (flushRecs (finish s c.gid c.pc (c.tids.map (fun t => (t, .trap (illegal (wordBytes i))))))) := by
  simp [runOp, hc, hg, hh, hl]

/-- Check 3 fails: every thread takes Privilege. -/
theorem runOp_privilege {i : Instr} {need : Priv} {b : Body} {s : State} {c : Convoy} {g : Group} {h : Hdr}
    (hc : s.sch.ctx = some c) (hg : findGroup s c.gid = some g) (hh : i.hdr? = some h) (hl : legal i g = true)
    (hp : privOk need g = false) :
    runOp i need b s = .next (flushRecs (finish s c.gid c.pc (c.tids.map (fun t => (t, .trap (privilege (wordBytes i))))))) := by
  simp [runOp, hc, hg, hh, hl, hp]

/-- Both pass: the body for the threads whose guard is 1, then the ends of all. -/
theorem runOp_body {i : Instr} {need : Priv} {b : Body} {s : State} {c : Convoy} {g : Group} {h : Hdr}
    (hc : s.sch.ctx = some c) (hg : findGroup s c.gid = some g) (hh : i.hdr? = some h) (hl : legal i g = true)
    (hp : privOk need g = true) :
    runOp i need b s =
      .next (flushRecs (finish (b s g c (c.tids.filter (fun t => guardBit s g h t 0))).1 c.gid c.pc
        (withNext c.tids (b s g c (c.tids.filter (fun t => guardBit s g h t 0))).2))) := by
  simp [runOp, hc, hg, hh, hl, hp]

/-! Ends that are no traps. -/

@[simp] theorem withNext_nil (tids : List Nat) : withNext tids [] = tids.map (fun t => (t, Done.next)) := by
  simp [withNext]

/-- The group after the ends of a list of threads, before joins. -/
def Group.ends (g : Group) (pc : DWord) (l : List (Nat × Done)) : Group :=
  l.foldl (fun g e => g.onThread e.1 (fun x => x.after pc e.2)) g

theorem Group.ends_rest (g : Group) (pc : DWord) (l : List (Nat × Done)) : { g.ends pc l with threads := g.threads } = g := by
  induction l generalizing g with
  | nil => rfl
  | cons e l ih =>
    have := ih (g.onThread e.1 (fun x => x.after pc e.2))
    rw [Group.ends, List.foldl_cons]
    rw [Group.ends] at this
    calc _ = { ({ (List.foldl (fun (g : Group) (e : Nat × Done) => g.onThread e.1 (fun x => x.after pc e.2)) (g.onThread e.1 (fun x => x.after pc e.2)) l)
                  with threads := (g.onThread e.1 (fun x => x.after pc e.2)).threads }) with threads := g.threads } := rfl
      _ = _ := by rw [this]; rfl

@[simp] theorem Group.ends_length (g : Group) (pc : DWord) (l : List (Nat × Done)) :
    (g.ends pc l).threads.length = g.threads.length := by
  induction l generalizing g with
  | nil => rfl
  | cons e l ih => rw [Group.ends, List.foldl_cons, ← Group.ends, ih, Group.onThread_length]

/-- A thread not named is as it was. -/
theorem Group.ends_other (g : Group) (pc : DWord) (l : List (Nat × Done)) (u : Nat) (h : ∀ e ∈ l, e.1 ≠ u) :
    (g.ends pc l).thread u = g.thread u := by
  induction l generalizing g with
  | nil => rfl
  | cons e l ih =>
    rw [Group.ends, List.foldl_cons, ← Group.ends, ih _ (fun x hx => h x (List.mem_cons_of_mem e hx)), Group.thread_onThread,
      if_neg (fun hu => h e (by simp) hu.1.symm)]

/-- A thread named once has its end. -/
theorem Group.ends_named (g : Group) (pc : DWord) (l : List (Nat × Done)) (u : Nat) (d : Done) (hn : (l.map (·.1)).Nodup)
    (h : (u, d) ∈ l) (hu : u < g.threads.length) : (g.ends pc l).thread u = (g.thread u).after pc d := by
  induction l generalizing g with
  | nil => simp at h
  | cons e l ih =>
    rw [Group.ends, List.foldl_cons, ← Group.ends]
    rw [List.map_cons, List.nodup_cons] at hn
    rcases List.mem_cons.mp h with rfl | h'
    · rw [Group.ends_other _ _ _ _ (fun x hx hxu => hn.1 (List.mem_map.mpr ⟨x, hx, hxu⟩)), Group.thread_onThread,
        if_pos ⟨rfl, hu⟩]
    · rw [ih _ hn.2 h' (by simpa using hu), Group.thread_onThread, if_neg]
      rintro ⟨rfl, -⟩
      exact hn.1 (List.mem_map_of_mem (f := (·.1)) h')

/-- Joining changes no thread but its join PC and arrival (R134). -/
theorem Group.joins_thread (g : Group) (u : Nat) :
    (g.joins.thread u).pc = (g.thread u).pc ∧ (g.joins.thread u).st = (g.thread u).st ∧ (g.joins.thread u).age = (g.thread u).age
      ∧ (g.joins.thread u).preds = (g.thread u).preds ∧ (g.joins.thread u).tok = (g.thread u).tok
      ∧ (g.joins.thread u).pend = (g.thread u).pend ∧ (g.joins.thread u).ctok = (g.thread u).ctok
      ∧ (g.joins.thread u).cpend = (g.thread u).cpend ∧ (g.joins.thread u).carr = (g.thread u).carr
      ∧ (g.joins.thread u).token = (g.thread u).token ∧ (g.joins.thread u).entry = (g.thread u).entry := by
  by_cases h : u < g.threads.length
  · simp only [Group.thread, Group.joins, List.getD_eq_getElem?_getD, List.getElem?_map, List.getElem?_eq_getElem h, Option.map_some,
      Option.getD_some]
    split_ifs <;> simp
  · simp [Group.thread, Group.joins, List.getD_eq_getElem?_getD, h]

@[simp] theorem Group.joins_rest (g : Group) : { g.joins with threads := g.threads } = g := rfl
@[simp] theorem Group.joins_gid (g : Group) : g.joins.gid = g.gid := rfl
@[simp] theorem Group.joins_kregs (g : Group) : g.joins.kregs = g.kregs := rfl
@[simp] theorem Group.joins_length (g : Group) : g.joins.threads.length = g.threads.length := by simp [Group.joins]

theorem Group.ends_gid (g : Group) (pc : DWord) (l : List (Nat × Done)) : (g.ends pc l).gid = g.gid := by
  have := congrArg Group.gid (g.ends_rest pc l); exact this

/-- Ends without a trap change the group alone. -/
theorem finish_quiet {s : State} {gid : Nat} {pc : DWord} {l : List (Nat × Done)} (h : ∀ e ∈ l, ∀ tr, e.2 ≠ .trap tr) :
    finish s gid pc l = onGroup s gid (fun g => (g.ends pc l).joins) := by
  simp only [finish]
  split
  · rfl
  · rw [List.filterMap_eq_nil_iff.mpr, takeTraps_nil]
    · rfl
    · intro e he
      split
      · next t ht => exact absurd ht (h e he t)
      · rfl

end Sys2Proof.Machine
end

