-- ==== Sys2Proof/Laws/Engine.lean ====
section
/-! SUPPORT. Reads of an engine of the I/O dies that go through: while no line is damaged, a read at the MSC moves only the caches, and
answers the bytes at the point of coherence. -/
namespace Sys2Proof.Machine

/-- What a read leaves of memory: its bytes, its poison, and no damaged line. -/
def SameBytes (m n : MemState) : Prop := n.harm = [] ∧ n.cells = m.cells ∧ n.poison = m.poison

theorem SameBytes.trans {a b c : MemState} (h : SameBytes a b) (k : SameBytes b c) : SameBytes a c :=
  ⟨k.1, k.2.1.trans h.2.1, k.2.2.trans h.2.2⟩

/-- Counting changes nothing of memory but the counters. -/
def SameHarm (m n : MemState) : Prop := n.harm = m.harm ∧ n.cells = m.cells ∧ n.poison = m.poison
theorem countChild_same (m : MemState) (l k c : Nat) : SameHarm m (countChild m l k c) := by
  simp only [countChild, minorWrap]; split_ifs <;> exact ⟨rfl, rfl, rfl⟩
theorem countAbove_same (m : MemState) (k l : Nat) : SameHarm m (countAbove m k l) := by
  have h := fun m a b c => countChild_same m a b c
  unfold SameHarm at h ⊢
  simp [countAbove, (h _ _ _ _).1, (h _ _ _ _).2.1, (h _ _ _ _).2.2]

theorem writeBackLine_quiet (s : State) (a : Nat) (h : s.mem.harm = []) :
    ∃ m, writeBackLine s a = { s with mem := m } ∧ SameBytes s.mem m := by
  have h1 := countChild_same s.mem 0 (homeStack a) (localLine a)
  have h2 := countAbove_same (countChild s.mem 0 (homeStack a) (localLine a)) (homeStack a) (localLine a)
  refine ⟨_, rfl, ?_, ?_, ?_⟩
  · simp [h2.1, h1.1, h]
  · simp [h2.2.1, h1.2.1]
  · simp [h2.2.2, h1.2.2]

theorem dramRead_quiet (s : State) (a : Nat) (h : s.mem.harm = []) : dramRead s a = s := by simp [dramRead, h]

/-- An access to a line at its MSC moves only the MSC's lines, clock and counters. -/
theorem mscTouch_quiet (s : State) (v kid a : Nat) (w : Bool) (h : s.mem.harm = []) :
    ∃ m, mscTouch s v kid a w = { s with mem := m } ∧ SameBytes s.mem m := by
  have ht : (tick s).mem.harm = [] := h
  have h0 : SameBytes s.mem (tick s).mem := ⟨h, rfl, rfl⟩
  simp only [mscTouch, dramRead_quiet _ _ ht]
  split
  · exact ⟨_, rfl, h, rfl, rfl⟩
  · split
    · split_ifs
      · obtain ⟨m, e, k⟩ := writeBackLine_quiet (tick s) a ht
        exact ⟨m, e, h0.trans k⟩
      · exact ⟨_, rfl, h0⟩
    · split
      · split_ifs
        · obtain ⟨m, e, k⟩ := writeBackLine_quiet (tick s) _ ht
          rw [e]
          exact ⟨_, rfl, k.1, k.2.1, k.2.2⟩
        · exact ⟨_, rfl, h, rfl, rfl⟩
      · exact ⟨_, rfl, h, rfl, rfl⟩

theorem readMem_same {s t : State} (h : t.mem.cells = s.mem.cells) (a n : Nat) : readMem t a n = readMem s a n := by
  simp [readMem, readByte, h]
theorem readMem_append (s : State) (a n k : Nat) : readMem s a (n + k) = readMem s a n ++ readMem s (a + n) k := by
  simp [readMem, List.range_add, List.map_append, Nat.add_assoc, Function.comp_def]

theorem sectorPart_or (a n : Nat) : sectorPart a n = n ∨ (sectorPart a n < n ∧ a % 32 + sectorPart a n = 32) := by
  unfold sectorPart; omega

theorem engPhysRead_io {s : State} {e : Eng} {a : Nat} (n : Nat) (sl : Bool) (hd : e.die = none) (h : s.mem.harm = []) (hp : s.mem.poison = [])
    (hc : mscCheck s e.vd (kidFor s e.vd a) a = none) :
    ∃ m, engPhysRead s e a n sl = ({ s with mem := m }, .ok (readMem s a n, false)) ∧ SameBytes s.mem m := by
  obtain ⟨m, hm, k⟩ := mscTouch_quiet s e.vd (kidFor s e.vd a) a false h
  refine ⟨m, ?_, k⟩
  have hr := readMem_same (s := s) (t := { s with mem := m }) k.2.1 a n
  simp [engPhysRead, hd, mscRead, hc, hm, hr, sectorPoison, k.2.2, hp]

theorem setDirtyS2_none (s : State) (v : Nat) (l : Leaf) (h : l.at? = none) : setDirtyS2 s v l = (s, true) := by
  unfold setDirtyS2; rw [h]

theorem gpaXlate_plain {s : State} {v gpa : Nat} (w : Bool) (hr : isRegPage s v gpa = false) (hv : v = 0)
    (he : bit (trnOf s v).s2.toNat 0 = false) : gpaXlate s v gpa w = (s, .ok gpa) := by
  subst hv
  have h2 : gpa / 1073741824 * 1073741824 + gpa % 1073741824 = gpa := Nat.div_add_mod' _ _
  simp [gpaXlate, gpaXlateF, stage2, hr, he, Target.plus, h2, setDirtyS2]

/-- A register's address of VD 0 is system-physical. -/
theorem regXlate_zero {s : State} {a : Nat} (w : Bool) (h : ownsFrame s 0 a = true) : regXlate s 0 a w = (s, .ok a) := by
  simp [regXlate, h]

/-- A read by an address that is translated to itself goes through where VD 0 owns the frames. -/
theorem gpaReadF_plain {e : Eng} (hd : e.die = none) : ∀ (fuel a n : Nat) (s : State), s.mem.harm = [] → s.mem.poison = [] →
    (∀ m x, a ≤ x → x < a + n → engXlate { s with mem := m } e x false = ({ s with mem := m }, .ok x)
      ∧ mscCheck s e.vd (kidFor s e.vd x) x = none) → (n = 0 ∨ a % 32 + n ≤ 32 * fuel) →
    ∃ m, gpaReadF s e fuel a n = ({ s with mem := m }, .ok (readMem s a n, false)) ∧ SameBytes s.mem m
  | 0, a, n, s, h, hp, hx, hf => by
    have : n = 0 := by omega
    subst this
    exact ⟨s.mem, rfl, h, rfl, rfl⟩
  | fuel + 1, a, n, s, h, hp, hx, hf => by
    unfold gpaReadF
    split_ifs with hn
    · subst hn; exact ⟨s.mem, rfl, h, rfl, rfl⟩
    · have hpart := sectorPart_or a n
      generalize sectorPart a n = k at hpart
      obtain ⟨hr, hc⟩ := hx s.mem a (le_refl a) (by omega)
      obtain ⟨m, e1, k1⟩ := engPhysRead_io (e := e) k false hd h hp hc
      simp only [gpaRead1, hr, e1]
      obtain ⟨m2, e2, k2⟩ := gpaReadF_plain hd fuel (a + k) (n - k) { s with mem := m } k1.1 (k1.2.2.trans hp)
        (fun m x h1 h2 => hx m x (by omega) (by omega)) (by omega)
      rw [e2]
      refine ⟨m2, ?_, k1.trans k2⟩
      have hs : n = k + (n - k) := by omega
      conv => rhs; rw [hs, readMem_append]
      simp [readMem_same (s := s) (t := { s with mem := m }) k1.2.1]

theorem gpaReadN_plain {e : Eng} (hd : e.die = none) {s : State} (a n : Nat) (h : s.mem.harm = []) (hp : s.mem.poison = [])
    (hx : ∀ m x, a ≤ x → x < a + n → engXlate { s with mem := m } e x false = ({ s with mem := m }, .ok x)
      ∧ mscCheck s e.vd (kidFor s e.vd x) x = none) :
    ∃ m, gpaReadN s e a n = ({ s with mem := m }, .ok (readMem s a n, false)) ∧ SameBytes s.mem m :=
  gpaReadF_plain hd _ a n s h hp hx (by omega)

/-- States in which an engine reads an interval of virtual addresses: nothing is damaged or poisoned, each address translates to
memory that the VD owns, and neither the translation nor a read at the MSC leads out of them. -/
structure Reads (e : Eng) (f : Nat → Nat) (lo hi : Nat) (P : State → Prop) : Prop where
  harm : ∀ {s}, P s → s.mem.harm = []
  poison : ∀ {s}, P s → s.mem.poison = []
  mem : ∀ {s m}, P s → SameBytes s.mem m → P { s with mem := m }
  check : ∀ {s x}, P s → lo ≤ x → x < hi → mscCheck s e.vd (kidFor s e.vd (f x)) (f x) = none
  xlate : ∀ {s x}, P s → lo ≤ x → x < hi → ∃ t r, translate s e.cl e.vd e.asid x { write := false, fetch := false, user := false, sup := false }
      = (t, .ok r) ∧ r.target = .spa (f x) ∧ P t ∧ t.mem.cells = s.mem.cells

/-- A read by virtual address goes through in such states. -/
theorem engRead_plain {e : Eng} (hd : e.die = none) {f : Nat → Nat} (hf : ∀ x y, f (x + y) = f x + y) {lo hi : Nat} {P : State → Prop}
    (R : Reads e f lo hi P) (hw : hi < 2 ^ 64) : ∀ (fuel a n : Nat) {s : State}, P s → lo ≤ a → a + n ≤ hi → (n = 0 ∨ a % 32 + n ≤ 32 * fuel) →
    ∃ t, engRead s e fuel a n = (t, .ok (readMem s (f a) n, false)) ∧ P t ∧ t.mem.cells = s.mem.cells
  | 0, a, n, s, h, _, _, hl => by
    have : n = 0 := by omega
    subst this
    exact ⟨s, rfl, h, rfl⟩
  | fuel + 1, a, n, s, h, ha, hb, hl => by
    unfold engRead
    split_ifs with hn
    · subst hn; exact ⟨s, rfl, h, rfl⟩
    · have hpart := sectorPart_or a n
      generalize sectorPart a n = k at hpart
      obtain ⟨t, r, ht, hr, h1, hc1⟩ := R.xlate h ha (show a < hi by omega)
      obtain ⟨m, e1, k1⟩ := engPhysRead_io (e := e) k r.sl hd (R.harm h1) (R.poison h1) (R.check h1 ha (show a < hi by omega))
      have hm : (a + k) % 2 ^ 64 = a + k := Nat.mod_eq_of_lt (by omega)
      simp only [engRead1, ht, hr, e1, hm]
      obtain ⟨t2, e2, h2, hc2⟩ := engRead_plain hd hf R hw fuel (a + k) (n - k) (R.mem h1 k1) (by omega) (by omega) (by omega)
      rw [e2]
      refine ⟨t2, ?_, h2, hc2.trans (k1.2.1.trans hc1)⟩
      have hs : n = k + (n - k) := by omega
      conv => rhs; rw [hs, readMem_append, ← hf]
      rw [readMem_same (s := s) (t := t) hc1, readMem_same (s := s) (t := { t with mem := m }) (k1.2.1.trans hc1)]
      rfl

theorem engReadN_plain {e : Eng} (hd : e.die = none) {f : Nat → Nat} (hf : ∀ x y, f (x + y) = f x + y) {a n : Nat} {P : State → Prop}
    (R : Reads e f a (a + n) P) (hw : a + n < 2 ^ 64) {s : State} (h : P s) :
    ∃ t, engReadN s e a n = (t, .ok (readMem s (f a) n, false)) ∧ P t ∧ t.mem.cells = s.mem.cells :=
  engRead_plain hd hf R hw _ a n h (le_refl a) (le_refl _) (by omega)

end Sys2Proof.Machine
end

