-- ==== Sys2Proof/Laws/PerInstr.lean ====
section
/-! SUPPORT. What holds of every constructor of `Instr` as syntax: an opcode carries its header in its fields and its
value is a byte; a step of another agent has no fields, no header and no operand. -/
namespace Sys2Proof.Laws

/-- R249, R261: the fields of an instruction's word hold its header, and its opcode is a byte. -/
def Encodes.Statement (i : Instr) : Prop :=
  match i.raw with
  | some r => i.hdr? = some r.hdr ∧ r.opc < 256
  | none => i.hdr? = none ∧ i.uses = []

theorem Encodes.nop (h : Hdr) : Encodes.Statement (.nop h) := ⟨rfl, Nat.le_of_ble_eq_true rfl⟩
theorem Encodes.bra (h : Hdr) (imm : BitVec 32) : Encodes.Statement (.bra h imm) := ⟨rfl, Nat.le_of_ble_eq_true rfl⟩
theorem Encodes.call (h : Hdr) (d : Opnd) (imm : BitVec 32) : Encodes.Statement (.call h d imm) := ⟨rfl, Nat.le_of_ble_eq_true rfl⟩
theorem Encodes.ret (h : Hdr) (a : Opnd) : Encodes.Statement (.ret h a) := ⟨rfl, Nat.le_of_ble_eq_true rfl⟩
theorem Encodes.brx (h : Hdr) (a : Opnd) (b : Opnd) : Encodes.Statement (.brx h a b) := ⟨rfl, Nat.le_of_ble_eq_true rfl⟩
theorem Encodes.callx (h : Hdr) (d : Opnd) (a : Opnd) (b : Opnd) : Encodes.Statement (.callx h d a b) := ⟨rfl, Nat.le_of_ble_eq_true rfl⟩
theorem Encodes.yield (h : Hdr) : Encodes.Statement (.yield h) := ⟨rfl, Nat.le_of_ble_eq_true rfl⟩
theorem Encodes.exit (h : Hdr) : Encodes.Statement (.exit h) := ⟨rfl, Nat.le_of_ble_eq_true rfl⟩
theorem Encodes.iadd (h : Hdr) (m : ArithMod) (d : Opnd) (a : Opnd) (b : Opnd) : Encodes.Statement (.iadd h m d a b) := ⟨rfl, Nat.le_of_ble_eq_true rfl⟩
theorem Encodes.iaddImm (h : Hdr) (m : ArithMod) (d : Opnd) (a : Opnd) (imm : BitVec 32) : Encodes.Statement (.iaddImm h m d a imm) := ⟨rfl, Nat.le_of_ble_eq_true rfl⟩
theorem Encodes.isub (h : Hdr) (m : ArithMod) (d : Opnd) (a : Opnd) (b : Opnd) : Encodes.Statement (.isub h m d a b) := ⟨rfl, Nat.le_of_ble_eq_true rfl⟩
theorem Encodes.isubImm (h : Hdr) (m : ArithMod) (d : Opnd) (a : Opnd) (imm : BitVec 32) : Encodes.Statement (.isubImm h m d a imm) := ⟨rfl, Nat.le_of_ble_eq_true rfl⟩
theorem Encodes.imul (h : Hdr) (m : ArithMod) (d : Opnd) (a : Opnd) (b : Opnd) : Encodes.Statement (.imul h m d a b) := ⟨rfl, Nat.le_of_ble_eq_true rfl⟩
theorem Encodes.imulImm (h : Hdr) (m : ArithMod) (d : Opnd) (a : Opnd) (imm : BitVec 32) : Encodes.Statement (.imulImm h m d a imm) := ⟨rfl, Nat.le_of_ble_eq_true rfl⟩
theorem Encodes.imad (h : Hdr) (m : ArithMod) (d : Opnd) (a : Opnd) (b : Opnd) (c : Opnd) : Encodes.Statement (.imad h m d a b c) := ⟨rfl, Nat.le_of_ble_eq_true rfl⟩
theorem Encodes.imadImm (h : Hdr) (m : ArithMod) (d : Opnd) (a : Opnd) (b : Opnd) (imm : BitVec 32) : Encodes.Statement (.imadImm h m d a b imm) := ⟨rfl, Nat.le_of_ble_eq_true rfl⟩
theorem Encodes.idiv (h : Hdr) (m : ArithMod) (d : Opnd) (a : Opnd) (b : Opnd) : Encodes.Statement (.idiv h m d a b) := ⟨rfl, Nat.le_of_ble_eq_true rfl⟩
theorem Encodes.irem (h : Hdr) (m : ArithMod) (d : Opnd) (a : Opnd) (b : Opnd) : Encodes.Statement (.irem h m d a b) := ⟨rfl, Nat.le_of_ble_eq_true rfl⟩
theorem Encodes.imin (h : Hdr) (m : ArithMod) (d : Opnd) (a : Opnd) (b : Opnd) : Encodes.Statement (.imin h m d a b) := ⟨rfl, Nat.le_of_ble_eq_true rfl⟩
theorem Encodes.iminImm (h : Hdr) (m : ArithMod) (d : Opnd) (a : Opnd) (imm : BitVec 32) : Encodes.Statement (.iminImm h m d a imm) := ⟨rfl, Nat.le_of_ble_eq_true rfl⟩
theorem Encodes.imax (h : Hdr) (m : ArithMod) (d : Opnd) (a : Opnd) (b : Opnd) : Encodes.Statement (.imax h m d a b) := ⟨rfl, Nat.le_of_ble_eq_true rfl⟩
theorem Encodes.imaxImm (h : Hdr) (m : ArithMod) (d : Opnd) (a : Opnd) (imm : BitVec 32) : Encodes.Statement (.imaxImm h m d a imm) := ⟨rfl, Nat.le_of_ble_eq_true rfl⟩
theorem Encodes.iabs (h : Hdr) (m : ArithMod) (d : Opnd) (a : Opnd) : Encodes.Statement (.iabs h m d a) := ⟨rfl, Nat.le_of_ble_eq_true rfl⟩
theorem Encodes.isad (h : Hdr) (m : ArithMod) (d : Opnd) (a : Opnd) (b : Opnd) (c : Opnd) : Encodes.Statement (.isad h m d a b c) := ⟨rfl, Nat.le_of_ble_eq_true rfl⟩
theorem Encodes.and (h : Hdr) (m : LogicMod) (d : Opnd) (a : Opnd) (b : Opnd) : Encodes.Statement (.and h m d a b) := ⟨rfl, Nat.le_of_ble_eq_true rfl⟩
theorem Encodes.andImm (h : Hdr) (m : LogicMod) (d : Opnd) (a : Opnd) (imm : BitVec 32) : Encodes.Statement (.andImm h m d a imm) := ⟨rfl, Nat.le_of_ble_eq_true rfl⟩
theorem Encodes.or (h : Hdr) (m : LogicMod) (d : Opnd) (a : Opnd) (b : Opnd) : Encodes.Statement (.or h m d a b) := ⟨rfl, Nat.le_of_ble_eq_true rfl⟩
theorem Encodes.orImm (h : Hdr) (m : LogicMod) (d : Opnd) (a : Opnd) (imm : BitVec 32) : Encodes.Statement (.orImm h m d a imm) := ⟨rfl, Nat.le_of_ble_eq_true rfl⟩
theorem Encodes.xor (h : Hdr) (m : LogicMod) (d : Opnd) (a : Opnd) (b : Opnd) : Encodes.Statement (.xor h m d a b) := ⟨rfl, Nat.le_of_ble_eq_true rfl⟩
theorem Encodes.xorImm (h : Hdr) (m : LogicMod) (d : Opnd) (a : Opnd) (imm : BitVec 32) : Encodes.Statement (.xorImm h m d a imm) := ⟨rfl, Nat.le_of_ble_eq_true rfl⟩
theorem Encodes.not (h : Hdr) (m : LogicMod) (d : Opnd) (a : Opnd) : Encodes.Statement (.not h m d a) := ⟨rfl, Nat.le_of_ble_eq_true rfl⟩
theorem Encodes.logt (h : Hdr) (m : LogicMod) (d : Opnd) (a : Opnd) (b : Opnd) (c : Opnd) : Encodes.Statement (.logt h m d a b c) := ⟨rfl, Nat.le_of_ble_eq_true rfl⟩
theorem Encodes.shl (h : Hdr) (m : LogicMod) (d : Opnd) (a : Opnd) (b : Opnd) : Encodes.Statement (.shl h m d a b) := ⟨rfl, Nat.le_of_ble_eq_true rfl⟩
theorem Encodes.shlImm (h : Hdr) (m : LogicMod) (d : Opnd) (a : Opnd) (imm : BitVec 32) : Encodes.Statement (.shlImm h m d a imm) := ⟨rfl, Nat.le_of_ble_eq_true rfl⟩
theorem Encodes.shr (h : Hdr) (m : LogicMod) (d : Opnd) (a : Opnd) (b : Opnd) : Encodes.Statement (.shr h m d a b) := ⟨rfl, Nat.le_of_ble_eq_true rfl⟩
theorem Encodes.shrImm (h : Hdr) (m : LogicMod) (d : Opnd) (a : Opnd) (imm : BitVec 32) : Encodes.Statement (.shrImm h m d a imm) := ⟨rfl, Nat.le_of_ble_eq_true rfl⟩
theorem Encodes.rot (h : Hdr) (m : LogicMod) (d : Opnd) (a : Opnd) (b : Opnd) : Encodes.Statement (.rot h m d a b) := ⟨rfl, Nat.le_of_ble_eq_true rfl⟩
theorem Encodes.popc (h : Hdr) (m : LogicMod) (d : Opnd) (a : Opnd) : Encodes.Statement (.popc h m d a) := ⟨rfl, Nat.le_of_ble_eq_true rfl⟩
theorem Encodes.clz (h : Hdr) (m : LogicMod) (d : Opnd) (a : Opnd) : Encodes.Statement (.clz h m d a) := ⟨rfl, Nat.le_of_ble_eq_true rfl⟩
theorem Encodes.bfx (h : Hdr) (m : LogicMod) (d : Opnd) (a : Opnd) (b : Opnd) (c : Opnd) : Encodes.Statement (.bfx h m d a b c) := ⟨rfl, Nat.le_of_ble_eq_true rfl⟩
theorem Encodes.icmp (h : Hdr) (m : IcmpMod) (d : Opnd) (a : Opnd) (b : Opnd) (c : Option Opnd) : Encodes.Statement (.icmp h m d a b c) := ⟨rfl, Nat.le_of_ble_eq_true rfl⟩
theorem Encodes.icmpImm (h : Hdr) (m : IcmpMod) (d : Opnd) (a : Opnd) (imm : BitVec 32) : Encodes.Statement (.icmpImm h m d a imm) := ⟨rfl, Nat.le_of_ble_eq_true rfl⟩
theorem Encodes.fcmp (h : Hdr) (m : FcmpMod) (d : Opnd) (a : Opnd) (b : Opnd) (c : Option Opnd) : Encodes.Statement (.fcmp h m d a b c) := ⟨rfl, Nat.le_of_ble_eq_true rfl⟩
theorem Encodes.fcmpImm (h : Hdr) (m : FcmpMod) (d : Opnd) (a : Opnd) (imm : BitVec 32) : Encodes.Statement (.fcmpImm h m d a imm) := ⟨rfl, Nat.le_of_ble_eq_true rfl⟩
theorem Encodes.fclass (h : Hdr) (m : FclassMod) (d : Opnd) (a : Opnd) : Encodes.Statement (.fclass h m d a) := ⟨rfl, Nat.le_of_ble_eq_true rfl⟩
theorem Encodes.hcmp (h : Hdr) (m : HcmpMod) (d : Opnd) (a : Opnd) (b : Opnd) (c : Option Opnd) : Encodes.Statement (.hcmp h m d a b c) := ⟨rfl, Nat.le_of_ble_eq_true rfl⟩
theorem Encodes.sel (h : Hdr) (m : SelMod) (d : Opnd) (p : Opnd) (a : Opnd) (b : Opnd) : Encodes.Statement (.sel h m d p a b) := ⟨rfl, Nat.le_of_ble_eq_true rfl⟩
theorem Encodes.selImm (h : Hdr) (m : SelMod) (d : Opnd) (p : Opnd) (a : Opnd) (imm : BitVec 32) : Encodes.Statement (.selImm h m d p a imm) := ⟨rfl, Nat.le_of_ble_eq_true rfl⟩
theorem Encodes.pcomb (h : Hdr) (m : PcombMod) (d : Opnd) (a : Opnd) (b : Opnd) (c : Opnd) : Encodes.Statement (.pcomb h m d a b c) := ⟨rfl, Nat.le_of_ble_eq_true rfl⟩
theorem Encodes.p2g (h : Hdr) (m : P2gMod) (d : Opnd) : Encodes.Statement (.p2g h m d) := ⟨rfl, Nat.le_of_ble_eq_true rfl⟩
theorem Encodes.g2p (h : Hdr) (m : G2pMod) (a : Opnd) : Encodes.Statement (.g2p h m a) := ⟨rfl, Nat.le_of_ble_eq_true rfl⟩
theorem Encodes.mov (h : Hdr) (m : MovMod) (d : Opnd) (a : Opnd) : Encodes.Statement (.mov h m d a) := ⟨rfl, Nat.le_of_ble_eq_true rfl⟩
theorem Encodes.movImm (h : Hdr) (m : MovMod) (d : Opnd) (imm : BitVec 32) : Encodes.Statement (.movImm h m d imm) := ⟨rfl, Nat.le_of_ble_eq_true rfl⟩
theorem Encodes.movh (h : Hdr) (d : Opnd) (imm : BitVec 32) : Encodes.Statement (.movh h d imm) := ⟨rfl, Nat.le_of_ble_eq_true rfl⟩
theorem Encodes.lea (h : Hdr) (m : LeaMod) (d : Opnd) (a : Opnd) (b : Opnd) : Encodes.Statement (.lea h m d a b) := ⟨rfl, Nat.le_of_ble_eq_true rfl⟩
theorem Encodes.leaImm (h : Hdr) (m : LeaMod) (d : Opnd) (a : Opnd) (imm : BitVec 32) : Encodes.Statement (.leaImm h m d a imm) := ⟨rfl, Nat.le_of_ble_eq_true rfl⟩
theorem Encodes.fadd (h : Hdr) (m : FpMod) (d : Opnd) (a : Opnd) (b : Opnd) : Encodes.Statement (.fadd h m d a b) := ⟨rfl, Nat.le_of_ble_eq_true rfl⟩
theorem Encodes.faddImm (h : Hdr) (m : FpMod) (d : Opnd) (a : Opnd) (imm : BitVec 32) : Encodes.Statement (.faddImm h m d a imm) := ⟨rfl, Nat.le_of_ble_eq_true rfl⟩
theorem Encodes.fsub (h : Hdr) (m : FpMod) (d : Opnd) (a : Opnd) (b : Opnd) : Encodes.Statement (.fsub h m d a b) := ⟨rfl, Nat.le_of_ble_eq_true rfl⟩
theorem Encodes.fmul (h : Hdr) (m : FpMod) (d : Opnd) (a : Opnd) (b : Opnd) : Encodes.Statement (.fmul h m d a b) := ⟨rfl, Nat.le_of_ble_eq_true rfl⟩
theorem Encodes.fmulImm (h : Hdr) (m : FpMod) (d : Opnd) (a : Opnd) (imm : BitVec 32) : Encodes.Statement (.fmulImm h m d a imm) := ⟨rfl, Nat.le_of_ble_eq_true rfl⟩
theorem Encodes.ffma (h : Hdr) (m : FpMod) (d : Opnd) (a : Opnd) (b : Opnd) (c : Opnd) : Encodes.Statement (.ffma h m d a b c) := ⟨rfl, Nat.le_of_ble_eq_true rfl⟩
theorem Encodes.ffmaImm (h : Hdr) (m : FpMod) (d : Opnd) (a : Opnd) (b : Opnd) (imm : BitVec 32) : Encodes.Statement (.ffmaImm h m d a b imm) := ⟨rfl, Nat.le_of_ble_eq_true rfl⟩
theorem Encodes.fmin (h : Hdr) (m : FpMod) (d : Opnd) (a : Opnd) (b : Opnd) : Encodes.Statement (.fmin h m d a b) := ⟨rfl, Nat.le_of_ble_eq_true rfl⟩
theorem Encodes.fmax (h : Hdr) (m : FpMod) (d : Opnd) (a : Opnd) (b : Opnd) : Encodes.Statement (.fmax h m d a b) := ⟨rfl, Nat.le_of_ble_eq_true rfl⟩
theorem Encodes.fdiv (h : Hdr) (m : FpMod) (d : Opnd) (a : Opnd) (b : Opnd) : Encodes.Statement (.fdiv h m d a b) := ⟨rfl, Nat.le_of_ble_eq_true rfl⟩
theorem Encodes.fsqrt (h : Hdr) (m : FpMod) (d : Opnd) (a : Opnd) : Encodes.Statement (.fsqrt h m d a) := ⟨rfl, Nat.le_of_ble_eq_true rfl⟩
theorem Encodes.frcp (h : Hdr) (m : FpMod) (d : Opnd) (a : Opnd) : Encodes.Statement (.frcp h m d a) := ⟨rfl, Nat.le_of_ble_eq_true rfl⟩
theorem Encodes.frsq (h : Hdr) (m : FpMod) (d : Opnd) (a : Opnd) : Encodes.Statement (.frsq h m d a) := ⟨rfl, Nat.le_of_ble_eq_true rfl⟩
theorem Encodes.dadd (h : Hdr) (m : FpMod) (d : Opnd) (a : Opnd) (b : Opnd) : Encodes.Statement (.dadd h m d a b) := ⟨rfl, Nat.le_of_ble_eq_true rfl⟩
theorem Encodes.dmul (h : Hdr) (m : FpMod) (d : Opnd) (a : Opnd) (b : Opnd) : Encodes.Statement (.dmul h m d a b) := ⟨rfl, Nat.le_of_ble_eq_true rfl⟩
theorem Encodes.dfma (h : Hdr) (m : FpMod) (d : Opnd) (a : Opnd) (b : Opnd) (c : Opnd) : Encodes.Statement (.dfma h m d a b c) := ⟨rfl, Nat.le_of_ble_eq_true rfl⟩
theorem Encodes.hadd (h : Hdr) (m : HalfMod) (d : Opnd) (a : Opnd) (b : Opnd) : Encodes.Statement (.hadd h m d a b) := ⟨rfl, Nat.le_of_ble_eq_true rfl⟩
theorem Encodes.hmul (h : Hdr) (m : HalfMod) (d : Opnd) (a : Opnd) (b : Opnd) : Encodes.Statement (.hmul h m d a b) := ⟨rfl, Nat.le_of_ble_eq_true rfl⟩
theorem Encodes.hfma (h : Hdr) (m : HalfMod) (d : Opnd) (a : Opnd) (b : Opnd) (c : Opnd) : Encodes.Statement (.hfma h m d a b c) := ⟨rfl, Nat.le_of_ble_eq_true rfl⟩
theorem Encodes.hmin (h : Hdr) (m : HalfMod) (d : Opnd) (a : Opnd) (b : Opnd) : Encodes.Statement (.hmin h m d a b) := ⟨rfl, Nat.le_of_ble_eq_true rfl⟩
theorem Encodes.hmax (h : Hdr) (m : HalfMod) (d : Opnd) (a : Opnd) (b : Opnd) : Encodes.Statement (.hmax h m d a b) := ⟨rfl, Nat.le_of_ble_eq_true rfl⟩
theorem Encodes.vadd (h : Hdr) (m : VecMod) (d : Opnd) (a : Opnd) (b : Opnd) : Encodes.Statement (.vadd h m d a b) := ⟨rfl, Nat.le_of_ble_eq_true rfl⟩
theorem Encodes.vaddImm (h : Hdr) (m : VecMod) (d : Opnd) (a : Opnd) (imm : BitVec 32) : Encodes.Statement (.vaddImm h m d a imm) := ⟨rfl, Nat.le_of_ble_eq_true rfl⟩
theorem Encodes.vsub (h : Hdr) (m : VecMod) (d : Opnd) (a : Opnd) (b : Opnd) : Encodes.Statement (.vsub h m d a b) := ⟨rfl, Nat.le_of_ble_eq_true rfl⟩
theorem Encodes.vmin (h : Hdr) (m : VecMod) (d : Opnd) (a : Opnd) (b : Opnd) : Encodes.Statement (.vmin h m d a b) := ⟨rfl, Nat.le_of_ble_eq_true rfl⟩
theorem Encodes.vmax (h : Hdr) (m : VecMod) (d : Opnd) (a : Opnd) (b : Opnd) : Encodes.Statement (.vmax h m d a b) := ⟨rfl, Nat.le_of_ble_eq_true rfl⟩
theorem Encodes.vmul (h : Hdr) (m : VecMod) (d : Opnd) (a : Opnd) (b : Opnd) : Encodes.Statement (.vmul h m d a b) := ⟨rfl, Nat.le_of_ble_eq_true rfl⟩
theorem Encodes.vdot (h : Hdr) (m : VecMod) (d : Opnd) (a : Opnd) (b : Opnd) (c : Opnd) : Encodes.Statement (.vdot h m d a b c) := ⟨rfl, Nat.le_of_ble_eq_true rfl⟩
theorem Encodes.acs2 (h : Hdr) (m : VecMod) (d : Opnd) (a : Opnd) (b : Opnd) (c : Opnd) (e : Opnd) : Encodes.Statement (.acs2 h m d a b c e) := ⟨rfl, Nat.le_of_ble_eq_true rfl⟩
theorem Encodes.vabsd (h : Hdr) (m : VecMod) (d : Opnd) (a : Opnd) (b : Opnd) : Encodes.Statement (.vabsd h m d a b) := ⟨rfl, Nat.le_of_ble_eq_true rfl⟩
theorem Encodes.prmt (h : Hdr) (m : VecMod) (d : Opnd) (a : Opnd) (b : Opnd) (c : Opnd) : Encodes.Statement (.prmt h m d a b c) := ⟨rfl, Nat.le_of_ble_eq_true rfl⟩
theorem Encodes.prmtImm (h : Hdr) (m : VecMod) (d : Opnd) (a : Opnd) (b : Opnd) (imm : BitVec 32) : Encodes.Statement (.prmtImm h m d a b imm) := ⟨rfl, Nat.le_of_ble_eq_true rfl⟩
theorem Encodes.cvt (h : Hdr) (m : CvtMod) (d : Opnd) (a : Opnd) (b : Option Opnd) : Encodes.Statement (.cvt h m d a b) := ⟨rfl, Nat.le_of_ble_eq_true rfl⟩
theorem Encodes.cvtp (h : Hdr) (m : CvtpMod) (d : Opnd) (a : Opnd) (b : Option Opnd) (c : Option Opnd) : Encodes.Statement (.cvtp h m d a b c) := ⟨rfl, Nat.le_of_ble_eq_true rfl⟩
theorem Encodes.exp2 (h : Hdr) (m : SfuMod) (d : Opnd) (a : Opnd) : Encodes.Statement (.exp2 h m d a) := ⟨rfl, Nat.le_of_ble_eq_true rfl⟩
theorem Encodes.log2 (h : Hdr) (m : SfuMod) (d : Opnd) (a : Opnd) : Encodes.Statement (.log2 h m d a) := ⟨rfl, Nat.le_of_ble_eq_true rfl⟩
theorem Encodes.sinPi (h : Hdr) (m : SfuMod) (d : Opnd) (a : Opnd) : Encodes.Statement (.sinPi h m d a) := ⟨rfl, Nat.le_of_ble_eq_true rfl⟩
theorem Encodes.cosPi (h : Hdr) (m : SfuMod) (d : Opnd) (a : Opnd) : Encodes.Statement (.cosPi h m d a) := ⟨rfl, Nat.le_of_ble_eq_true rfl⟩
theorem Encodes.rndh (h : Hdr) (m : RndhMod) (d : Opnd) (a : Opnd) (b : Opnd) : Encodes.Statement (.rndh h m d a b) := ⟨rfl, Nat.le_of_ble_eq_true rfl⟩
theorem Encodes.rndhImm (h : Hdr) (m : RndhMod) (d : Opnd) (a : Opnd) (imm : BitVec 32) : Encodes.Statement (.rndhImm h m d a imm) := ⟨rfl, Nat.le_of_ble_eq_true rfl⟩
theorem Encodes.frnd (h : Hdr) (m : FrndMod) (d : Opnd) (a : Opnd) : Encodes.Statement (.frnd h m d a) := ⟨rfl, Nat.le_of_ble_eq_true rfl⟩
theorem Encodes.fscale (h : Hdr) (m : FrndMod) (d : Opnd) (a : Opnd) (b : Opnd) : Encodes.Statement (.fscale h m d a b) := ⟨rfl, Nat.le_of_ble_eq_true rfl⟩
theorem Encodes.fscaleImm (h : Hdr) (m : FrndMod) (d : Opnd) (a : Opnd) (imm : BitVec 32) : Encodes.Statement (.fscaleImm h m d a imm) := ⟨rfl, Nat.le_of_ble_eq_true rfl⟩
theorem Encodes.lxch (h : Hdr) (m : LxchMod) (d : Opnd) (a : Opnd) (b : Opnd) (c : Option Opnd) : Encodes.Statement (.lxch h m d a b c) := ⟨rfl, Nat.le_of_ble_eq_true rfl⟩
theorem Encodes.lxchImm (h : Hdr) (m : LxchMod) (d : Opnd) (a : Opnd) (imm : BitVec 32) : Encodes.Statement (.lxchImm h m d a imm) := ⟨rfl, Nat.le_of_ble_eq_true rfl⟩
theorem Encodes.pcol (h : Hdr) (m : PcolMod) (d : Opnd) (a : Opnd) : Encodes.Statement (.pcol h m d a) := ⟨rfl, Nat.le_of_ble_eq_true rfl⟩
theorem Encodes.xred (h : Hdr) (m : XredMod) (d : Opnd) (a : Opnd) : Encodes.Statement (.xred h m d a) := ⟨rfl, Nat.le_of_ble_eq_true rfl⟩
theorem Encodes.xscan (h : Hdr) (m : XredMod) (d : Opnd) (a : Opnd) : Encodes.Statement (.xscan h m d a) := ⟨rfl, Nat.le_of_ble_eq_true rfl⟩
theorem Encodes.xfind (h : Hdr) (m : XfindMod) (d : Opnd) (a : Opnd) (c : Option Opnd) : Encodes.Statement (.xfind h m d a c) := ⟨rfl, Nat.le_of_ble_eq_true rfl⟩
theorem Encodes.xfred (h : Hdr) (m : XfredMod) (d : Opnd) (a : Opnd) : Encodes.Statement (.xfred h m d a) := ⟨rfl, Nat.le_of_ble_eq_true rfl⟩
theorem Encodes.ld (h : Hdr) (m : MemMod) (d : Opnd) (a : Opnd) (b : Opnd) (imm : BitVec 32) : Encodes.Statement (.ld h m d a b imm) := ⟨rfl, Nat.le_of_ble_eq_true rfl⟩
theorem Encodes.st (h : Hdr) (m : StMod) (d : Opnd) (a : Opnd) (b : Opnd) (imm : BitVec 32) : Encodes.Statement (.st h m d a b imm) := ⟨rfl, Nat.le_of_ble_eq_true rfl⟩
theorem Encodes.ldProbe (h : Hdr) (m : ProbeMod) (d : Opnd) (a : Opnd) (b : Opnd) (imm : BitVec 32) : Encodes.Statement (.ldProbe h m d a b imm) := ⟨rfl, Nat.le_of_ble_eq_true rfl⟩
theorem Encodes.lds (h : Hdr) (m : LdsMod) (d : Opnd) (a : Opnd) (b : Opnd) (imm : BitVec 32) : Encodes.Statement (.lds h m d a b imm) := ⟨rfl, Nat.le_of_ble_eq_true rfl⟩
theorem Encodes.sts (h : Hdr) (m : LdsMod) (d : Opnd) (a : Opnd) (b : Opnd) (imm : BitVec 32) : Encodes.Statement (.sts h m d a b imm) := ⟨rfl, Nat.le_of_ble_eq_true rfl⟩
theorem Encodes.ldm (h : Hdr) (m : MemMod) (d : Opnd) (a : Opnd) (b : Opnd) (imm : BitVec 32) : Encodes.Statement (.ldm h m d a b imm) := ⟨rfl, Nat.le_of_ble_eq_true rfl⟩
theorem Encodes.stm (h : Hdr) (m : MemMod) (d : Opnd) (a : Opnd) (b : Opnd) (imm : BitVec 32) : Encodes.Statement (.stm h m d a b imm) := ⟨rfl, Nat.le_of_ble_eq_true rfl⟩
theorem Encodes.prf (h : Hdr) (m : MemMod) (a : Opnd) (b : Opnd) (imm : BitVec 32) : Encodes.Statement (.prf h m a b imm) := ⟨rfl, Nat.le_of_ble_eq_true rfl⟩
theorem Encodes.atomImm (h : Hdr) (m : AtomMod) (d : Opnd) (a : Opnd) (b : Opnd) (imm : BitVec 32) : Encodes.Statement (.atomImm h m d a b imm) := ⟨rfl, Nat.le_of_ble_eq_true rfl⟩
theorem Encodes.atom (h : Hdr) (m : AtomMod) (d : Opnd) (a : Opnd) (b : Opnd) (c : Opnd) : Encodes.Statement (.atom h m d a b c) := ⟨rfl, Nat.le_of_ble_eq_true rfl⟩
theorem Encodes.redImm (h : Hdr) (m : AtomMod) (a : Opnd) (b : Opnd) (imm : BitVec 32) : Encodes.Statement (.redImm h m a b imm) := ⟨rfl, Nat.le_of_ble_eq_true rfl⟩
theorem Encodes.red (h : Hdr) (m : AtomMod) (a : Opnd) (b : Opnd) (c : Opnd) : Encodes.Statement (.red h m a b c) := ⟨rfl, Nat.le_of_ble_eq_true rfl⟩
theorem Encodes.cas (h : Hdr) (m : CasMod) (d : Opnd) (a : Opnd) (b : Opnd) (c : Opnd) (e : Opnd) : Encodes.Statement (.cas h m d a b c e) := ⟨rfl, Nat.le_of_ble_eq_true rfl⟩
theorem Encodes.atoms (h : Hdr) (m : AtomsMod) (d : Opnd) (a : Opnd) (b : Opnd) (imm : BitVec 32) : Encodes.Statement (.atoms h m d a b imm) := ⟨rfl, Nat.le_of_ble_eq_true rfl⟩
theorem Encodes.reds (h : Hdr) (m : AtomsMod) (a : Opnd) (b : Opnd) (imm : BitVec 32) : Encodes.Statement (.reds h m a b imm) := ⟨rfl, Nat.le_of_ble_eq_true rfl⟩
theorem Encodes.cass (h : Hdr) (m : CassMod) (d : Opnd) (a : Opnd) (b : Opnd) (c : Opnd) (e : Opnd) : Encodes.Statement (.cass h m d a b c e) := ⟨rfl, Nat.le_of_ble_eq_true rfl⟩
theorem Encodes.fence (h : Hdr) (m : FenceMod) : Encodes.Statement (.fence h m) := ⟨rfl, Nat.le_of_ble_eq_true rfl⟩
theorem Encodes.pfence (h : Hdr) (m : PfenceMod) : Encodes.Statement (.pfence h m) := ⟨rfl, Nat.le_of_ble_eq_true rfl⟩
theorem Encodes.barInit (h : Hdr) (m : BarMod) (a : Opnd) : Encodes.Statement (.barInit h m a) := ⟨rfl, Nat.le_of_ble_eq_true rfl⟩
theorem Encodes.barInitImm (h : Hdr) (m : BarMod) (imm : BitVec 32) : Encodes.Statement (.barInitImm h m imm) := ⟨rfl, Nat.le_of_ble_eq_true rfl⟩
theorem Encodes.barArrive (h : Hdr) (m : BarArrMod) (a : Opnd) : Encodes.Statement (.barArrive h m a) := ⟨rfl, Nat.le_of_ble_eq_true rfl⟩
theorem Encodes.barArriveImm (h : Hdr) (m : BarArrMod) (imm : BitVec 32) : Encodes.Statement (.barArriveImm h m imm) := ⟨rfl, Nat.le_of_ble_eq_true rfl⟩
theorem Encodes.barWait (h : Hdr) (m : BarMod) : Encodes.Statement (.barWait h m) := ⟨rfl, Nat.le_of_ble_eq_true rfl⟩
theorem Encodes.barSync (h : Hdr) (m : BarArrMod) (a : Opnd) : Encodes.Statement (.barSync h m a) := ⟨rfl, Nat.le_of_ble_eq_true rfl⟩
theorem Encodes.barSyncImm (h : Hdr) (m : BarArrMod) (imm : BitVec 32) : Encodes.Statement (.barSyncImm h m imm) := ⟨rfl, Nat.le_of_ble_eq_true rfl⟩
theorem Encodes.barInv (h : Hdr) (m : BarMod) : Encodes.Statement (.barInv h m) := ⟨rfl, Nat.le_of_ble_eq_true rfl⟩
theorem Encodes.waitaImm (h : Hdr) (m : WaitaMod) (d : Opnd) (a : Opnd) (b : Opnd) (imm : BitVec 32) : Encodes.Statement (.waitaImm h m d a b imm) := ⟨rfl, Nat.le_of_ble_eq_true rfl⟩
theorem Encodes.waita (h : Hdr) (m : WaitaMod) (d : Opnd) (a : Opnd) (b : Opnd) (c : Opnd) : Encodes.Statement (.waita h m d a b c) := ⟨rfl, Nat.le_of_ble_eq_true rfl⟩
theorem Encodes.cbar (h : Hdr) (m : CbarMod) : Encodes.Statement (.cbar h m) := ⟨rfl, Nat.le_of_ble_eq_true rfl⟩
theorem Encodes.winBind (h : Hdr) (d : Opnd) (a : Opnd) (b : Opnd) : Encodes.Statement (.winBind h d a b) := ⟨rfl, Nat.le_of_ble_eq_true rfl⟩
theorem Encodes.winTouch (h : Hdr) (a : Opnd) : Encodes.Statement (.winTouch h a) := ⟨rfl, Nat.le_of_ble_eq_true rfl⟩
theorem Encodes.winRetire (h : Hdr) (a : Opnd) : Encodes.Statement (.winRetire h a) := ⟨rfl, Nat.le_of_ble_eq_true rfl⟩
theorem Encodes.winState (h : Hdr) (d : Opnd) (a : Opnd) : Encodes.Statement (.winState h d a) := ⟨rfl, Nat.le_of_ble_eq_true rfl⟩
theorem Encodes.seal (h : Hdr) (d : Opnd) (a : Opnd) (b : Opnd) (c : Opnd) : Encodes.Statement (.seal h d a b c) := ⟨rfl, Nat.le_of_ble_eq_true rfl⟩
theorem Encodes.unseal (h : Hdr) (m : UnsealMod) (d : Opnd) (a : Opnd) (b : Opnd) (c : Opnd) : Encodes.Statement (.unseal h m d a b c) := ⟨rfl, Nat.le_of_ble_eq_true rfl⟩
theorem Encodes.cctlImm (h : Hdr) (m : CctlMod) (a : Opnd) (imm : BitVec 32) : Encodes.Statement (.cctlImm h m a imm) := ⟨rfl, Nat.le_of_ble_eq_true rfl⟩
theorem Encodes.cctl (h : Hdr) (m : CctlMod) (a : Opnd) (b : Opnd) : Encodes.Statement (.cctl h m a b) := ⟨rfl, Nat.le_of_ble_eq_true rfl⟩
theorem Encodes.iinv (h : Hdr) (a : Opnd) (b : Opnd) : Encodes.Statement (.iinv h a b) := ⟨rfl, Nat.le_of_ble_eq_true rfl⟩
theorem Encodes.isync (h : Hdr) : Encodes.Statement (.isync h) := ⟨rfl, Nat.le_of_ble_eq_true rfl⟩
theorem Encodes.mxop (h : Hdr) (d : Opnd) (a : Opnd) : Encodes.Statement (.mxop h d a) := ⟨rfl, Nat.le_of_ble_eq_true rfl⟩
theorem Encodes.mxopImm (h : Hdr) (d : Opnd) (imm : BitVec 32) : Encodes.Statement (.mxopImm h d imm) := ⟨rfl, Nat.le_of_ble_eq_true rfl⟩
theorem Encodes.mxdrain (h : Hdr) (m : MxdrainMod) (d : Opnd) (a : Opnd) (b : Opnd) (c : Opnd) : Encodes.Statement (.mxdrain h m d a b c) := ⟨rfl, Nat.le_of_ble_eq_true rfl⟩
theorem Encodes.mxwait (h : Hdr) (m : MxwaitMod) (a : Option Opnd) : Encodes.Statement (.mxwait h m a) := ⟨rfl, Nat.le_of_ble_eq_true rfl⟩
theorem Encodes.mxburst (h : Hdr) (a : Opnd) : Encodes.Statement (.mxburst h a) := ⟨rfl, Nat.le_of_ble_eq_true rfl⟩
theorem Encodes.mxburstImm (h : Hdr) (imm : BitVec 32) : Encodes.Statement (.mxburstImm h imm) := ⟨rfl, Nat.le_of_ble_eq_true rfl⟩
theorem Encodes.collPost (h : Hdr) (d : Opnd) (a : Opnd) : Encodes.Statement (.collPost h d a) := ⟨rfl, Nat.le_of_ble_eq_true rfl⟩
theorem Encodes.taskPost (h : Hdr) (d : Opnd) (a : Opnd) (b : Opnd) : Encodes.Statement (.taskPost h d a b) := ⟨rfl, Nat.le_of_ble_eq_true rfl⟩
theorem Encodes.taskDep (h : Hdr) (m : TaskDepMod) (d : Opnd) (a : Opnd) (b : Opnd) (c : Opnd) : Encodes.Statement (.taskDep h m d a b c) := ⟨rfl, Nat.le_of_ble_eq_true rfl⟩
theorem Encodes.taskDepImm (h : Hdr) (m : TaskDepMod) (d : Opnd) (a : Opnd) (b : Opnd) (imm : BitVec 32) : Encodes.Statement (.taskDepImm h m d a b imm) := ⟨rfl, Nat.le_of_ble_eq_true rfl⟩
theorem Encodes.phase (h : Hdr) : Encodes.Statement (.phase h) := ⟨rfl, Nat.le_of_ble_eq_true rfl⟩
theorem Encodes.syscall (h : Hdr) (imm : BitVec 32) : Encodes.Statement (.syscall h imm) := ⟨rfl, Nat.le_of_ble_eq_true rfl⟩
theorem Encodes.svqtake (h : Hdr) (m : SvqtakeMod) (d : Opnd) : Encodes.Statement (.svqtake h m d) := ⟨rfl, Nat.le_of_ble_eq_true rfl⟩
theorem Encodes.svret (h : Hdr) (m : SvretMod) (a : Option Opnd) (b : Option Opnd) : Encodes.Statement (.svret h m a b) := ⟨rfl, Nat.le_of_ble_eq_true rfl⟩
theorem Encodes.svqwait (h : Hdr) : Encodes.Statement (.svqwait h) := ⟨rfl, Nat.le_of_ble_eq_true rfl⟩
theorem Encodes.movs (h : Hdr) (d : Opnd) (imm : BitVec 32) : Encodes.Statement (.movs h d imm) := ⟨rfl, Nat.le_of_ble_eq_true rfl⟩
theorem Encodes.csrrImm (h : Hdr) (d : Opnd) (imm : BitVec 32) : Encodes.Statement (.csrrImm h d imm) := ⟨rfl, Nat.le_of_ble_eq_true rfl⟩
theorem Encodes.csrr (h : Hdr) (d : Opnd) (a : Opnd) : Encodes.Statement (.csrr h d a) := ⟨rfl, Nat.le_of_ble_eq_true rfl⟩
theorem Encodes.csrwImm (h : Hdr) (a : Opnd) (imm : BitVec 32) : Encodes.Statement (.csrwImm h a imm) := ⟨rfl, Nat.le_of_ble_eq_true rfl⟩
theorem Encodes.csrw (h : Hdr) (a : Opnd) (b : Opnd) : Encodes.Statement (.csrw h a b) := ⟨rfl, Nat.le_of_ble_eq_true rfl⟩
theorem Encodes.ptsync (h : Hdr) (m : PtsyncMod) : Encodes.Statement (.ptsync h m) := ⟨rfl, Nat.le_of_ble_eq_true rfl⟩
theorem Encodes.tlbinv (h : Hdr) (m : TlbinvMod) (a : Option Opnd) (b : Option Opnd) (c : Option Opnd) : Encodes.Statement (.tlbinv h m a b c) := ⟨rfl, Nat.le_of_ble_eq_true rfl⟩
theorem Encodes.pgmove (h : Hdr) (m : PgmoveMod) (d : Opnd) (a : Opnd) (b : Opnd) (c : Opnd) : Encodes.Statement (.pgmove h m d a b c) := ⟨rfl, Nat.le_of_ble_eq_true rfl⟩
theorem Encodes.solderHandoff (h : Hdr) (d : Opnd) (a : Opnd) : Encodes.Statement (.solderHandoff h d a) := ⟨rfl, Nat.le_of_ble_eq_true rfl⟩
theorem Encodes.bndSet (h : Hdr) (m : BndMod) (a : Opnd) (b : Opnd) (c : Opnd) : Encodes.Statement (.bndSet h m a b c) := ⟨rfl, Nat.le_of_ble_eq_true rfl⟩
theorem Encodes.schedStep (h : Hdr) (m : SchedMod) (a : Option Opnd) : Encodes.Statement (.schedStep h m a) := ⟨rfl, Nat.le_of_ble_eq_true rfl⟩
theorem Encodes.svwake (h : Hdr) (d : Opnd) (a : Opnd) (b : Opnd) (c : Opnd) : Encodes.Statement (.svwake h d a b c) := ⟨rfl, Nat.le_of_ble_eq_true rfl⟩
theorem Encodes.tret (h : Hdr) (d : Opnd) (a : Opnd) (b : Opnd) (c : Opnd) : Encodes.Statement (.tret h d a b c) := ⟨rfl, Nat.le_of_ble_eq_true rfl⟩
theorem Encodes.frassign (h : Hdr) (d : Opnd) (a : Opnd) (b : Opnd) (c : Opnd) : Encodes.Statement (.frassign h d a b c) := ⟨rfl, Nat.le_of_ble_eq_true rfl⟩
theorem Encodes.solderRekey (h : Hdr) (d : Opnd) (a : Opnd) : Encodes.Statement (.solderRekey h d a) := ⟨rfl, Nat.le_of_ble_eq_true rfl⟩
theorem Encodes.halt (h : Hdr) (a : Opnd) : Encodes.Statement (.halt h a) := ⟨rfl, Nat.le_of_ble_eq_true rfl⟩
theorem Encodes.railInTolerance (rail : Rail) : Encodes.Statement (.railInTolerance rail) := ⟨rfl, rfl⟩
theorem Encodes.railOutOfTolerance (rail : Rail) : Encodes.Statement (.railOutOfTolerance rail) := ⟨rfl, rfl⟩
theorem Encodes.resetRelease (us : Nat) (hbmOk : Bool) : Encodes.Statement (.resetRelease us hbmOk) := ⟨rfl, rfl⟩
theorem Encodes.boardNorWrite (addr : Nat) (data : Bytes) : Encodes.Statement (.boardNorWrite addr data) := ⟨rfl, rfl⟩
theorem Encodes.diePowerSample (die : Fin 22) (watts : Nat) (sensors : List Nat) (pick : Nat) : Encodes.Statement (.diePowerSample die watts sensors pick) := ⟨rfl, rfl⟩
theorem Encodes.modulePowerSample (watts pick : Nat) : Encodes.Statement (.modulePowerSample watts pick) := ⟨rfl, rfl⟩
theorem Encodes.thermalTrip (die : Fin 22) (sensors : List Nat) : Encodes.Statement (.thermalTrip die sensors) := ⟨rfl, rfl⟩
theorem Encodes.attestExtend (v : BitVec 64) : Encodes.Statement (.attestExtend v) := ⟨rfl, rfl⟩
theorem Encodes.attestReportRequest (v : BitVec 64) : Encodes.Statement (.attestReportRequest v) := ⟨rfl, rfl⟩
theorem Encodes.norOpComplete (devOk : Bool) : Encodes.Statement (.norOpComplete devOk) := ⟨rfl, rfl⟩
theorem Encodes.bdyPwrWrite (v : BitVec 64) : Encodes.Statement (.bdyPwrWrite v) := ⟨rfl, rfl⟩
theorem Encodes.bdyDiepwrWrite (die : Die) (v : BitVec 64) : Encodes.Statement (.bdyDiepwrWrite die v) := ⟨rfl, rfl⟩
theorem Encodes.bdyThermWrite (v : BitVec 64) : Encodes.Statement (.bdyThermWrite v) := ⟨rfl, rfl⟩
theorem Encodes.qpTailWrite (vd : Vd) (q : Nat) (v : BitVec 64) : Encodes.Statement (.qpTailWrite vd q v) := ⟨rfl, rfl⟩
theorem Encodes.qpCqheadWrite (vd : Vd) (q : Nat) (v : BitVec 64) : Encodes.Statement (.qpCqheadWrite vd q v) := ⟨rfl, rfl⟩
theorem Encodes.qpRqheadWrite (vd : Vd) (q : Nat) (v : BitVec 64) : Encodes.Statement (.qpRqheadWrite vd q v) := ⟨rfl, rfl⟩
theorem Encodes.netCompletion (vd : Vd) (q : Nat) (res : NetResult) : Encodes.Statement (.netCompletion vd q res) := ⟨rfl, rfl⟩
theorem Encodes.inboundSend (pkt : InPkt) : Encodes.Statement (.inboundSend pkt) := ⟨rfl, rfl⟩
theorem Encodes.inboundWrite (pkt : InPkt) : Encodes.Statement (.inboundWrite pkt) := ⟨rfl, rfl⟩
theorem Encodes.inboundRead (pkt : InPkt) : Encodes.Statement (.inboundRead pkt) := ⟨rfl, rfl⟩
theorem Encodes.inboundFetchAdd (pkt : InPkt) : Encodes.Statement (.inboundFetchAdd pkt) := ⟨rfl, rfl⟩
theorem Encodes.landingWrite (ep : Fin 2) (w : PeerWrite) : Encodes.Statement (.landingWrite ep w) := ⟨rfl, rfl⟩
theorem Encodes.landingFlagWrite (ep : Fin 2) (w : PeerWrite) : Encodes.Statement (.landingFlagWrite ep w) := ⟨rfl, rfl⟩
theorem Encodes.barRead (ep : Fin 2) (off len : Nat) : Encodes.Statement (.barRead ep off len) := ⟨rfl, rfl⟩
theorem Encodes.msixAccess (ep : Fin 2) (off : Nat) (wr : Option Bytes) : Encodes.Statement (.msixAccess ep off wr) := ⟨rfl, rfl⟩
theorem Encodes.lwdCtlWrite (ep : Fin 2) (w : Fin 32) (v : BitVec 64) : Encodes.Statement (.lwdCtlWrite ep w v) := ⟨rfl, rfl⟩
theorem Encodes.brazeFlitReceive (port : Fin 16) (flits : Nat) (ok : Bool) : Encodes.Statement (.brazeFlitReceive port flits ok) := ⟨rfl, rfl⟩
theorem Encodes.remoteAccessTimeout (port : Fin 16) (idx : Nat) (performed : Bool) : Encodes.Statement (.remoteAccessTimeout port idx performed) := ⟨rfl, rfl⟩
theorem Encodes.flashBlockFill (vd : Vd) (nsid lba : Nat) (readOk : Bool) : Encodes.Statement (.flashBlockFill vd nsid lba readOk) := ⟨rfl, rfl⟩
theorem Encodes.blockCompletion (vd : Vd) (q idx : Nat) (mediaOk : Bool) : Encodes.Statement (.blockCompletion vd q idx mediaOk) := ⟨rfl, rfl⟩
theorem Encodes.handshakeRpcKey (via : Transport) (msg : Bytes) : Encodes.Statement (.handshakeRpcKey via msg) := ⟨rfl, rfl⟩
theorem Encodes.handshakeLocalDomain (via : Transport) (msg : Bytes) : Encodes.Statement (.handshakeLocalDomain via msg) := ⟨rfl, rfl⟩
theorem Encodes.handshakeOpen (via : Transport) (msg : Bytes) : Encodes.Statement (.handshakeOpen via msg) := ⟨rfl, rfl⟩
theorem Encodes.handshakeAccept (via : Transport) (msg : Bytes) : Encodes.Statement (.handshakeAccept via msg) := ⟨rfl, rfl⟩
theorem Encodes.handshakeComplete (via : Transport) (msg : Bytes) : Encodes.Statement (.handshakeComplete via msg) := ⟨rfl, rfl⟩
theorem Encodes.attest (slot : Fin 16) : Encodes.Statement (.attest slot) := ⟨rfl, rfl⟩
theorem Encodes.partCreate (slot : Fin 16) (v : Vd) (imgs : List (BitVec 64)) : Encodes.Statement (.partCreate slot v imgs) := ⟨rfl, rfl⟩
theorem Encodes.partDestroy (slot : Fin 16) (v : Vd) : Encodes.Statement (.partDestroy slot v) := ⟨rfl, rfl⟩
theorem Encodes.partReset (slot : Fin 16) (v : Vd) : Encodes.Statement (.partReset slot v) := ⟨rfl, rfl⟩
theorem Encodes.quotaSet (slot : Fin 16) (v : Vd) (k : Fin 10) (x : BitVec 64) : Encodes.Statement (.quotaSet slot v k x) := ⟨rfl, rfl⟩
theorem Encodes.calSet (slot : Fin 16) (imgs : List (BitVec 64)) : Encodes.Statement (.calSet slot imgs) := ⟨rfl, rfl⟩
theorem Encodes.imageLoad (slot : Fin 16) (v : Vd) (off : Nat) (final : Bool) (chunk : Bytes) : Encodes.Statement (.imageLoad slot v off final chunk) := ⟨rfl, rfl⟩
theorem Encodes.launch (vd : Vd) (slot : Fin 16) (record : Bytes) : Encodes.Statement (.launch vd slot record) := ⟨rfl, rfl⟩
theorem Encodes.map (vd : Vd) (slot : Fin 16) (req : MapReq) : Encodes.Statement (.map vd slot req) := ⟨rfl, rfl⟩
theorem Encodes.unmap (vd : Vd) (slot : Fin 16) (asid : Fin 256) (va len : Nat) : Encodes.Statement (.unmap vd slot asid va len) := ⟨rfl, rfl⟩
theorem Encodes.copy (vd : Vd) (slot : Fin 16) (asid : Fin 256) (src dst len : Nat) : Encodes.Statement (.copy vd slot asid src dst len) := ⟨rfl, rfl⟩
theorem Encodes.queryInterfaceVersion (vd : Vd) (slot : Fin 16) (arg : BitVec 64) : Encodes.Statement (.queryInterfaceVersion vd slot arg) := ⟨rfl, rfl⟩
theorem Encodes.queryPackageTime (vd : Vd) (slot : Fin 16) (arg : BitVec 64) : Encodes.Statement (.queryPackageTime vd slot arg) := ⟨rfl, rfl⟩
theorem Encodes.queryLaunchStatus (vd : Vd) (slot : Fin 16) (arg : BitVec 64) : Encodes.Statement (.queryLaunchStatus vd slot arg) := ⟨rfl, rfl⟩
theorem Encodes.queryRasRing (vd : Vd) (slot : Fin 16) (arg : BitVec 64) : Encodes.Statement (.queryRasRing vd slot arg) := ⟨rfl, rfl⟩
theorem Encodes.queryLaunchQueue (vd : Vd) (slot : Fin 16) (arg : BitVec 64) : Encodes.Statement (.queryLaunchQueue vd slot arg) := ⟨rfl, rfl⟩
theorem Encodes.subscribe (vd : Vd) (slot : Fin 16) (mask : BitVec 64) : Encodes.Statement (.subscribe vd slot mask) := ⟨rfl, rfl⟩
theorem Encodes.rpcReply (vd : Vd) (v : BitVec 64) : Encodes.Statement (.rpcReply vd v) := ⟨rfl, rfl⟩
theorem Encodes.rpcEvent (vd : Vd) (v : BitVec 64) : Encodes.Statement (.rpcEvent vd v) := ⟨rfl, rfl⟩
theorem Encodes.vdqQuotaWrite (v : Vd) (k : Fin 10) (x : BitVec 64) : Encodes.Statement (.vdqQuotaWrite v k x) := ⟨rfl, rfl⟩
theorem Encodes.calOwnWrite (j : Fin 4) (x : BitVec 64) : Encodes.Statement (.calOwnWrite j x) := ⟨rfl, rfl⟩
theorem Encodes.lqTailWrite (vd : Vd) (v : BitVec 64) : Encodes.Statement (.lqTailWrite vd v) := ⟨rfl, rfl⟩
theorem Encodes.launchKill (vd : Vd) (w : Work) : Encodes.Statement (.launchKill vd w) := ⟨rfl, rfl⟩
theorem Encodes.stgTailWrite (vd : Vd) (die : Die) (s : Fin 8) (v : BitVec 64) : Encodes.Statement (.stgTailWrite vd die s v) := ⟨rfl, rfl⟩
theorem Encodes.slicePairEnable (n : Fin 4) (v : BitVec 64) : Encodes.Statement (.slicePairEnable n v) := ⟨rfl, rfl⟩
theorem Encodes.l1WaysegWrite (vd : Vd) (v : BitVec 64) : Encodes.Statement (.l1WaysegWrite vd v) := ⟨rfl, rfl⟩
theorem Encodes.collComplete (vd : Vd) (peers : CollPeers) : Encodes.Statement (.collComplete vd peers) := ⟨rfl, rfl⟩
theorem Encodes.tableWalk (cl : Cluster) (vd : Vd) (asid : Fin 256) (va : BitVec 64) (acc : WalkAcc) : Encodes.Statement (.tableWalk cl vd asid va acc) := ⟨rfl, rfl⟩
theorem Encodes.solderWindowEnable (n : Fin 64) (v : BitVec 64) : Encodes.Statement (.solderWindowEnable n v) := ⟨rfl, rfl⟩
theorem Encodes.rasBaseWrite (v : Vd) (x : BitVec 64) : Encodes.Statement (.rasBaseWrite v x) := ⟨rfl, rfl⟩
theorem Encodes.rasHeadWrite (v : Vd) (x : BitVec 64) : Encodes.Statement (.rasHeadWrite v x) := ⟨rfl, rfl⟩
theorem Encodes.registerWrite (t : RegTarget) (v : BitVec 64) : Encodes.Statement (.registerWrite t v) := ⟨rfl, rfl⟩
theorem Encodes.debugPortAccess (spa len : Nat) : Encodes.Statement (.debugPortAccess spa len) := ⟨rfl, rfl⟩
theorem Encodes.coldReset : Encodes.Statement (.coldReset) := ⟨rfl, rfl⟩
theorem Encodes.busInRange : Encodes.Statement (.busInRange) := ⟨rfl, rfl⟩
theorem Encodes.gateStepChange : Encodes.Statement (.gateStepChange) := ⟨rfl, rfl⟩
theorem Encodes.extendComplete : Encodes.Statement (.extendComplete) := ⟨rfl, rfl⟩
theorem Encodes.reportComplete : Encodes.Statement (.reportComplete) := ⟨rfl, rfl⟩
theorem Encodes.norRead : Encodes.Statement (.norRead) := ⟨rfl, rfl⟩
theorem Encodes.norErase : Encodes.Statement (.norErase) := ⟨rfl, rfl⟩
theorem Encodes.norProgram : Encodes.Statement (.norProgram) := ⟨rfl, rfl⟩
theorem Encodes.netEnable : Encodes.Statement (.netEnable) := ⟨rfl, rfl⟩
theorem Encodes.netDisable : Encodes.Statement (.netDisable) := ⟨rfl, rfl⟩
theorem Encodes.qpWatchWake : Encodes.Statement (.qpWatchWake) := ⟨rfl, rfl⟩
theorem Encodes.netSend : Encodes.Statement (.netSend) := ⟨rfl, rfl⟩
theorem Encodes.netWrite : Encodes.Statement (.netWrite) := ⟨rfl, rfl⟩
theorem Encodes.netRead : Encodes.Statement (.netRead) := ⟨rfl, rfl⟩
theorem Encodes.netFetchAdd : Encodes.Statement (.netFetchAdd) := ⟨rfl, rfl⟩
theorem Encodes.qpStateReload : Encodes.Statement (.qpStateReload) := ⟨rfl, rfl⟩
theorem Encodes.brazeRekey : Encodes.Statement (.brazeRekey) := ⟨rfl, rfl⟩
theorem Encodes.blockRead : Encodes.Statement (.blockRead) := ⟨rfl, rfl⟩
theorem Encodes.blockWrite : Encodes.Statement (.blockWrite) := ⟨rfl, rfl⟩
theorem Encodes.blockTrim : Encodes.Statement (.blockTrim) := ⟨rfl, rfl⟩
theorem Encodes.blockFlush : Encodes.Statement (.blockFlush) := ⟨rfl, rfl⟩
theorem Encodes.vdBuild : Encodes.Statement (.vdBuild) := ⟨rfl, rfl⟩
theorem Encodes.vdRun : Encodes.Statement (.vdRun) := ⟨rfl, rfl⟩
theorem Encodes.vdReset : Encodes.Statement (.vdReset) := ⟨rfl, rfl⟩
theorem Encodes.vdDestroy : Encodes.Statement (.vdDestroy) := ⟨rfl, rfl⟩
theorem Encodes.virtualTimerFire : Encodes.Statement (.virtualTimerFire) := ⟨rfl, rfl⟩
theorem Encodes.calendarRoundStart : Encodes.Statement (.calendarRoundStart) := ⟨rfl, rfl⟩
theorem Encodes.launchTakeRecord : Encodes.Statement (.launchTakeRecord) := ⟨rfl, rfl⟩
theorem Encodes.placeBlock : Encodes.Statement (.placeBlock) := ⟨rfl, rfl⟩
theorem Encodes.placeTeam : Encodes.Statement (.placeTeam) := ⟨rfl, rfl⟩
theorem Encodes.placeTask : Encodes.Statement (.placeTask) := ⟨rfl, rfl⟩
theorem Encodes.phaseResume : Encodes.Statement (.phaseResume) := ⟨rfl, rfl⟩
theorem Encodes.launchComplete : Encodes.Statement (.launchComplete) := ⟨rfl, rfl⟩
theorem Encodes.counterDecrement : Encodes.Statement (.counterDecrement) := ⟨rfl, rfl⟩
theorem Encodes.taskComplete : Encodes.Statement (.taskComplete) := ⟨rfl, rfl⟩
theorem Encodes.stageWorkerTake : Encodes.Statement (.stageWorkerTake) := ⟨rfl, rfl⟩
theorem Encodes.governorEvaluate : Encodes.Statement (.governorEvaluate) := ⟨rfl, rfl⟩
theorem Encodes.slicePairDisable : Encodes.Statement (.slicePairDisable) := ⟨rfl, rfl⟩
theorem Encodes.sliceSwitch : Encodes.Statement (.sliceSwitch) := ⟨rfl, rfl⟩
theorem Encodes.activeSetRotate : Encodes.Statement (.activeSetRotate) := ⟨rfl, rfl⟩
theorem Encodes.mandrelTimer : Encodes.Statement (.mandrelTimer) := ⟨rfl, rfl⟩
theorem Encodes.svqBatchTimer : Encodes.Statement (.svqBatchTimer) := ⟨rfl, rfl⟩
theorem Encodes.svqWatchdog : Encodes.Statement (.svqWatchdog) := ⟨rfl, rfl⟩
theorem Encodes.svqPostRetry : Encodes.Statement (.svqPostRetry) := ⟨rfl, rfl⟩
theorem Encodes.svqWaiterPost : Encodes.Statement (.svqWaiterPost) := ⟨rfl, rfl⟩
theorem Encodes.groupSwapOut : Encodes.Statement (.groupSwapOut) := ⟨rfl, rfl⟩
theorem Encodes.groupRestore : Encodes.Statement (.groupRestore) := ⟨rfl, rfl⟩
theorem Encodes.waySurrenderComplete : Encodes.Statement (.waySurrenderComplete) := ⟨rfl, rfl⟩
theorem Encodes.mscScheduleEnable : Encodes.Statement (.mscScheduleEnable) := ⟨rfl, rfl⟩
theorem Encodes.mscScheduleDisable : Encodes.Statement (.mscScheduleDisable) := ⟨rfl, rfl⟩
theorem Encodes.swageContextStart : Encodes.Statement (.swageContextStart) := ⟨rfl, rfl⟩
theorem Encodes.swageBeat : Encodes.Statement (.swageBeat) := ⟨rfl, rfl⟩
theorem Encodes.windowFillComplete : Encodes.Statement (.windowFillComplete) := ⟨rfl, rfl⟩
theorem Encodes.windowDrainComplete : Encodes.Statement (.windowDrainComplete) := ⟨rfl, rfl⟩
theorem Encodes.anvilEntryAccept : Encodes.Statement (.anvilEntryAccept) := ⟨rfl, rfl⟩
theorem Encodes.anvilPass : Encodes.Statement (.anvilPass) := ⟨rfl, rfl⟩
theorem Encodes.anvilOpComplete : Encodes.Statement (.anvilOpComplete) := ⟨rfl, rfl⟩
theorem Encodes.anvilDrainComplete : Encodes.Statement (.anvilDrainComplete) := ⟨rfl, rfl⟩
theorem Encodes.anvilRampDown : Encodes.Statement (.anvilRampDown) := ⟨rfl, rfl⟩
theorem Encodes.snapshotShadow : Encodes.Statement (.snapshotShadow) := ⟨rfl, rfl⟩
theorem Encodes.solderWindowDisable : Encodes.Statement (.solderWindowDisable) := ⟨rfl, rfl⟩
theorem Encodes.minorCounterWrap : Encodes.Statement (.minorCounterWrap) := ⟨rfl, rfl⟩
theorem Encodes.waitaWake : Encodes.Statement (.waitaWake) := ⟨rfl, rfl⟩
theorem Encodes.waitaTimeout : Encodes.Statement (.waitaTimeout) := ⟨rfl, rfl⟩
theorem Encodes.fetchLine : Encodes.Statement (.fetchLine) := ⟨rfl, rfl⟩
theorem Encodes.brazeLinkBringUp : Encodes.Statement (.brazeLinkBringUp) := ⟨rfl, rfl⟩

end Sys2Proof.Laws
end

