-- ==== Sys2Proof/Laws/Traps.lean ====
section
/-! SUPPORT. Translation, queue entries, records and traps keep memory canonical, and with them every opcode whose body does. -/
namespace Sys2Proof.Machine

variable {s : State}

/-- Canonical memory, in a state with the same memory system. -/
theorem Canon.of_mem {t : State} (e : t.mem = s.mem) (h : Canon s) : Canon t := by rw [Canon, e]; exact h

theorem Canon.fst_of {α : Type} {p : State × α} {x : State} {y : α} (e : p = (x, y)) (h : Canon p.1) : Canon x := by
  rw [e] at h; exact h
theorem Canon.onSvq (core v : Nat) (f : Svq → Svq) (h : Canon s) : Canon (Machine.onSvq s core v f) := h
theorem Canon.onCores (f : CoresState → CoresState) (h : Canon s) : Canon (s.onCores f) := h
theorem Canon.onRas (f : RasState → RasState) (h : Canon s) : Canon (s.onRas f) := h

/-! Walks. -/

theorem Canon.wkRead (cl v spa : Nat) (h : Canon s) : Canon (Machine.wkRead s cl v spa).1 := by
  have h2 := Canon.mscRead v (kidFor s v spa) spa 8 h
  unfold Machine.wkRead
  dsimp only
  split <;> rename_i e <;> exact Canon.fst_of e h2

theorem Canon.wkOr (cl v spa m : Nat) (h : Canon s) : Canon (Machine.wkOr s cl v spa m).1 := by
  have h1 : Canon ((l2Keys s (dieOfCluster cl) (fun l => l.spa == lineOf spa && !l.home)).foldl Machine.l2Evict s) :=
    Canon.foldl (fun _ k hx => Canon.l2Evict k hx) _ h
  have h2 := Canon.mscRead v (kidFor s v spa) spa 8 h1
  unfold Machine.wkOr
  dsimp only
  split <;> rename_i e <;> rw [e] at h2
  · exact h2
  · exact Canon.mscWrite _ _ _ _ _ h2

theorem Canon.s2Walk (cl v gpa : Nat) : ∀ (n table : Nat) {s : State}, Canon s → Canon (Machine.s2Walk s cl v gpa table n).1
  | 0, _, _, h => h
  | n + 1, table, s, h => by
    have h1 := Canon.wkRead cl 0 (table + 8 * bits gpa (12 + 9 * n + 8) (12 + 9 * n)) h
    unfold Machine.s2Walk
    split <;> rename_i e <;> rw [e] at h1
    · exact h1
    · exact h1
    · dsimp only
      split_ifs
      all_goals first
        | exact h1
        | exact Canon.wkOr _ _ _ _ h1
        | exact Canon.s2Walk cl v gpa n _ h1

theorem Canon.ntlbFill (cl v gpa : Nat) (l : Leaf) (h : Canon s) : Canon (Machine.ntlbFill s cl v gpa l) := by
  unfold Machine.ntlbFill; dsimp only; split <;> exact h

theorem Canon.setAccessed (cl : Nat) (l : Leaf) (h : Canon s) : Canon (Machine.setAccessed s cl l) := by
  unfold Machine.setAccessed
  split
  · split
    · exact h
    · exact Canon.wkOr _ _ _ _ h
  · exact h

theorem Canon.stage2 (cl v gpa : Nat) (f : Bool → Bool → Bool → Bool) (h : Canon s) : Canon (Machine.stage2 s cl v gpa f).1 := by
  unfold Machine.stage2
  split_ifs
  · exact h
  · exact h
  · exact h
  · split
    · exact h
    · have h1 := Canon.s2Walk cl v gpa 4 (bits (trnOf s v).s2.toNat 63 12 * 4096) h
      split <;> rename_i e <;> rw [e] at h1
      · exact h1
      · split
        · exact Canon.ntlbFill _ _ _ _ (Canon.setAccessed _ _ h1)
        · exact h1

theorem Canon.gpaRead (cl v gpa : Nat) (h : Canon s) : Canon (Machine.gpaRead s cl v gpa).1 := by
  have h1 := Canon.stage2 cl v gpa (fun r _ _ => r) h
  unfold Machine.gpaRead
  split <;> rename_i e <;> rw [e] at h1
  · exact h1
  · split_ifs
    · exact h1
    · split
      · next a _ =>
        have h2 := Canon.wkRead cl v a h1
        split <;> rename_i e2 <;> rw [e2] at h2 <;> exact h2
      · exact h1

theorem Canon.s1Find (cl v va : Nat) : ∀ (n table : Nat) {s : State}, Canon s → Canon (Machine.s1Find s cl v va table n).1
  | 0, _, _, h => h
  | n + 1, table, s, h => by
    have h1 := Canon.gpaRead cl v (table + 8 * bits va (12 + 9 * n + 8) (12 + 9 * n)) h
    unfold Machine.s1Find
    split <;> rename_i e <;> rw [e] at h1
    · exact h1
    · split_ifs
      all_goals first
        | exact h1
        | exact Canon.s1Find cl v va n _ h1

theorem Canon.s1Walk (cl v va n table : Nat) {s : State} (h : Canon s) : Canon (Machine.s1Walk s cl v va table n).1 := by
  have h1 := Canon.s1Find cl v va n table h
  unfold Machine.s1Walk
  split <;> rename_i e <;> rw [e] at h1
  · exact h1
  · split_ifs <;> exact h1

theorem Canon.walk (cl v asid va : Nat) (acc : Acc) (h : Canon s) : Canon (Machine.walk s cl v asid va acc).1 := by
  have h1 := Canon.gpaRead cl v (bits (trnOf s v).astb.toNat 63 12 * 4096 + 8 * asid) h
  unfold Machine.walk
  split <;> rename_i e <;> rw [e] at h1
  · exact h1
  · split_ifs
    · exact h1
    · have h2 := fun tb => Canon.s1Walk cl v va 4 tb h1
      split <;> rename_i e2
      · exact Canon.fst_of e2 (h2 _)
      · split
        · exact Canon.fst_of e2 (h2 _)
        · dsimp only
          have h3 := fun g => Canon.stage2 cl v g (permits acc) (Canon.fst_of e2 (h2 _))
          split <;> rename_i e3 <;> have h4 := Canon.fst_of e3 (h3 _)
          · exact h4
          · split
            · exact h4
            · dsimp only
              split
              · exact h4
              · exact Canon.wkOr _ _ _ _ h4

theorem Canon.tlbFill (e : TlbEntry) (h : Canon s) : Canon (Machine.tlbFill s e) := by
  unfold Machine.tlbFill; dsimp only; split <;> exact h

theorem Canon.lookup (cl v asid va : Nat) (acc : Acc) (h : Canon s) : Canon (Machine.lookup s cl v asid va acc).1 := by
  unfold Machine.lookup
  split
  · exact h
  · dsimp only
    have h1 := Canon.walk cl v asid va acc (Canon.of_mem (t := s.onTrn fun t =>
      { t with tlb := t.tlb.filter (fun e => !(e.cluster == cl && e.vd == v && e.asid == asid && e.va == va / e.size * e.size)) }) rfl h)
    split <;> rename_i e <;> rw [e] at h1
    · exact h1
    · split
      · exact h1
      · exact Canon.tlbFill _ h1

theorem Canon.setDirty (e : TlbEntry) (h : Canon s) : Canon (Machine.setDirty s e).1 := by
  have h1 : ∀ (c : Bool) (x : State) (cl v a : Nat), Canon x → Canon (if c then (x, 1) else Machine.wkOr x cl v a 0x40).1 := by
    intro c x cl v a hx; cases c
    · exact Canon.wkOr _ _ _ _ hx
    · exact hx
  unfold Machine.setDirty
  by_cases hd : (e.d1 && e.d2) = true
  · rw [if_pos hd]; exact h
  · rw [if_neg hd]
    exact Canon.of_mem rfl (h1 e.d2 _ e.cluster 0 e.leaf2 (h1 e.d1 s e.cluster e.vd e.leaf1 h))

theorem Canon.xlate (cl v asid va : Nat) (acc : Acc) : ∀ (n : Nat) {s : State}, Canon s → Canon (Machine.xlate s cl v asid va acc n).1
  | 0, _, h => h
  | n + 1, s, h => by
    have h1 := Canon.lookup cl v asid va acc h
    unfold Machine.xlate
    by_cases hc : (!canonical va) = true
    · rw [if_pos hc]; exact h
    · rw [if_neg hc]
      split
      · split <;> exact h
      · exact h
      · split <;> rename_i e <;> rw [e] at h1
        · exact h1
        · exact h1
        · split
          · exact h1
          · dsimp only
            split
            · have h2 := fun ent => Canon.setDirty ent h1
              split <;> rename_i e2 <;> have h3 := Canon.fst_of e2 (h2 _)
              · exact h3
              · exact Canon.xlate cl v asid va acc n h3
            · exact h1

/-- A translation keeps memory canonical. -/
theorem Canon.translate (cl v asid va : Nat) (acc : Acc) (h : Canon s) : Canon (Machine.translate s cl v asid va acc).1 :=
  Canon.xlate cl v asid va acc 2 h

theorem Canon.setDirtyS2 (v : Nat) (l : Leaf) (h : Canon s) : Canon (Machine.setDirtyS2 s v l).1 := by
  unfold Machine.setDirtyS2
  split
  · exact h
  · split_ifs
    · exact h
    · exact Canon.of_mem rfl (Canon.wkOr 0 0 _ 0x40 h)

theorem Canon.gpaXlateF (v gpa : Nat) (w : Bool) : ∀ (n : Nat) {s : State}, Canon s → Canon (Machine.gpaXlateF s v gpa w n).1
  | 0, _, h => h
  | n + 1, s, h => by
    have h1 := Canon.stage2 0 v gpa (fun r x _ => if w then x else r) h
    unfold Machine.gpaXlateF
    split <;> rename_i e <;> rw [e] at h1
    · exact h1
    · next _ l =>
      by_cases hp : (if w = true then !l.w else !l.r) = true
      · rw [if_pos hp]; exact h1
      · rw [if_neg hp]
        split
        · split
          · have h2 := fun l => Canon.setDirtyS2 v l h1
            split <;> rename_i e2 <;> have h3 := Canon.fst_of e2 (h2 _)
            · exact h3
            · exact Canon.gpaXlateF v gpa w n h3
          · exact h1
        · exact h1

theorem Canon.gpaXlate (v gpa : Nat) (w : Bool) (h : Canon s) : Canon (Machine.gpaXlate s v gpa w).1 :=
  Canon.gpaXlateF v gpa w 2 h

theorem Canon.regXlate (v a : Nat) (w : Bool) (h : Canon s) : Canon (Machine.regXlate s v a w).1 := by
  unfold Machine.regXlate; split
  · exact h
  · exact Canon.gpaXlate v a w h

/-! Queue entries and records. -/

theorem Canon.noteBatch (core v : Nat) (h : Canon s) : Canon (Machine.noteBatch s core v) := h
theorem Canon.setMip (core b : Nat) (h : Canon s) : Canon (Machine.setMip s core b) := h
theorem Canon.setMipAll (b : Nat) (h : Canon s) : Canon (Machine.setMipAll s b) := by
  unfold Machine.setMipAll
  generalize List.range 832 = l
  exact Canon.foldl (fun _ c hx => Canon.setMip c b hx) l h

theorem Canon.svqSlot (core v i : Nat) (h : Canon s) : Canon (Machine.svqSlot s core v i).1 := by
  have h1 := Canon.gpaXlate v (bits (svqOf s core v).base.toNat 63 14 * 16384 + 64 * (i % 256)) true h
  unfold Machine.svqSlot
  dsimp only
  split <;> rename_i e <;> rw [e] at h1 <;> exact h1

theorem Canon.postRel (num : Nat) (h : Canon s) : Canon (Machine.postRel s num) :=
  Canon.foldl (fun _ _ hx => Canon.sendBy _ _ _ _ _ hx) _ h

theorem Canon.tryPost (num : Nat) (h : Canon s) : Canon (Machine.tryPost s num) := by
  unfold Machine.tryPost
  split
  · exact h
  · next p _ =>
    have h1 := Canon.svqSlot p.core p.vd (svqOf s p.core p.vd).tail.toNat h
    dsimp only
    split
    · exact h
    · split <;> rename_i e <;> rw [e] at h1
      · exact h1
      · next x a =>
        have h2 := Canon.mscWrite p.vd (kidFor x p.vd a) a (p.entry.take 32) false h1
        exact Canon.noteBatch _ _ (Canon.onSvq _ _ _ (Canon.onCores _ (Canon.postRel _ (Canon.mscWrite p.vd _ (a + 32) (p.entry.drop 32) false h2))))

theorem Canon.post (core v : Nat) (b : Bytes) (gid sw : Option Nat) (src : PostSrc) (h : Canon s) :
    Canon (Machine.post s core v b gid sw src).1 :=
  Canon.tryPost _ h

theorem Canon.postDirect (core v cause addr : Nat) (arg : Bytes) (src : PostSrc) (asid : Nat) (h : Canon s) :
    Canon (Machine.postDirect s core v cause addr arg src asid) := Canon.post _ _ _ _ _ _ h

theorem Canon.writeRec (v : Nat) (b : Bytes) (h : Canon s) : Canon (Machine.writeRec s v b) := by
  unfold Machine.writeRec
  dsimp only
  split
  · exact Canon.onRas _ h
  · have h0 := fun g => Canon.regXlate v g true h
    split <;> rename_i e <;> have h1 := Canon.fst_of e (h0 _)
    · exact Canon.onRas _ h1
    · next x a =>
      split
      · have h2 := Canon.mscWrite v (kidFor x v a) a (b.take 32) false h1
        have h3 := Canon.mscWrite v (kidFor (Machine.mscWrite x v (kidFor x v a) a (b.take 32) false).1 v a) (a + 32) (b.drop 32) false h2
        have h4 : ∀ y, Canon y → Canon (if v = 0 then Machine.setMipAll y 4 else Machine.setMip y (rpcCore y v) 3) := by
          intro y hy; split
          · exact Canon.setMipAll 4 hy
          · exact hy
        split
        · exact Canon.postDirect _ _ _ _ _ _ _ (h4 _ (Canon.onRas _ h3))
        · exact h4 _ (Canon.onRas _ h3)
      · exact Canon.onRas _ h1

/-- The end of a step keeps memory canonical. -/
theorem Canon.flushRecs (h : Canon s) : Canon (Machine.flushRecs s) := by
  unfold Machine.flushRecs
  dsimp only
  exact Canon.foldl (fun _ e hx => Canon.writeRec e.1 e.2 hx) _ (Canon.onRas _ h)

/-! Traps. -/

theorem Canon.startKill (v : Nat) (o : Owner) (q : Nat) (h : Canon s) : Canon (Machine.startKill s v o q) := by
  unfold Machine.startKill
  split
  · split
    · split_ifs <;> exact h
    · exact h
  · split
    · split_ifs <;> exact h
    · exact h
  · exact h
  · exact h

theorem Canon.haltCore (core pc cause : Nat) (h : Canon s) : Canon (Machine.haltCore s core pc cause) := by
  unfold Machine.haltCore
  split_ifs
  · exact h
  · exact Canon.foldl (fun _ g hx => Canon.startKill g.vd g.owner _ hx) _ h

theorem Canon.postTrap (g : Group) (pc : Nat) (us : List Nat) (t : Trap) (h : Canon s) : Canon (Machine.postTrap s g pc us t) :=
  Canon.post _ _ _ _ _ _ h

theorem Canon.offerBoth (v : Nat) (r : Rec) (h : Canon s) : Canon (Machine.offerBoth s v r) := by
  simpa [Canon, offerBoth_mem] using h

theorem Canon.postMachineCheck (g : Group) (pc : Nat) (us : List Nat) (t : Trap) (h : Canon s) :
    Canon (Machine.postMachineCheck s g pc us t) := by
  unfold Machine.postMachineCheck
  dsimp only
  split
  all_goals split_ifs
  all_goals first
    | exact h
    | exact Canon.offerBoth _ _ h
    | exact Canon.postTrap _ _ _ _ h
    | exact Canon.postTrap _ _ _ _ (Canon.offerBoth _ _ h)
    | (refine Canon.startKill _ _ _ (Canon.post _ _ _ _ _ _ ?_); first | exact h | exact Canon.offerBoth _ _ h)

theorem Canon.dropConsumed (l : List (Nat × Trap)) (h : Canon s) : Canon (Machine.dropConsumed s l) := by
  unfold Machine.dropConsumed; dsimp only; split_ifs <;> exact h

theorem Canon.postAll (g : Group) (pc : Nat) (l : List (Nat × Trap)) (h : Canon s) : Canon (Machine.postAll s g pc l) := by
  refine Canon.foldl (fun x q hx => ?_) _ h
  split
  · exact hx
  · split_ifs
    · exact Canon.postMachineCheck _ _ _ _ hx
    · exact Canon.postTrap _ _ _ _ hx

theorem Canon.takeTraps (g : Group) (pc : Nat) (l : List (Nat × Trap)) (h : Canon s) : Canon (Machine.takeTraps s g pc l) := by
  unfold Machine.takeTraps
  split
  · exact h
  · exact Canon.haltCore _ _ _ (Canon.postAll _ _ _ (Canon.dropConsumed _ h))
  · exact Canon.postAll _ _ _ (Canon.dropConsumed _ h)

/-- The ends of an instruction keep memory canonical. -/
theorem Canon.finish (gid : Nat) (pc : DWord) (l : List (Nat × Done)) (h : Canon s) : Canon (Machine.finish s gid pc l) := by
  unfold Machine.finish
  dsimp only
  split
  · exact h
  · exact Canon.takeTraps _ _ _ h

/-- An opcode keeps memory canonical when its body does. -/
theorem Canon.runOp {i : Instr} {need : Priv} {b : Body} (hb : ∀ s g c us, Canon s → Canon (b s g c us).1) (h : Canon s)
    {t : State} (ht : Machine.runOp i need b s = .next t) : Canon t := by
  unfold Machine.runOp at ht
  split at ht
  · cases ht
  · split at ht
    · split_ifs at ht
      · cases ht; exact Canon.flushRecs (Canon.finish _ _ _ h)
      · cases ht; exact Canon.flushRecs (Canon.finish _ _ _ h)
      · cases ht; exact Canon.flushRecs (Canon.finish _ _ _ (hb _ _ _ _ h))
    · cases ht

end Sys2Proof.Machine
end

