-- ==== Sys2Proof/Tests/Slice0.lean ====
section
/-! SUPPORT. Tests: terms that well-formedness refuses, words written out from the encoding tables of chapter 11, single steps, and
for every statement a state and operands that meet its hypotheses. -/
namespace Sys2Proof.Tests
open Sys2Proof.Machine
set_option Elab.async false

/-! A small state: one group of privilege H in core 0 with one running thread at PC 0, and frame 0 mapped at virtual page 0. -/

def h0 : Hdr := ⟨⟨false, 0⟩, ⟨false, 0⟩, .a, 0⟩
def c0 : Convoy := { gid := 832, pc := 0, tids := [0] }
def w0 : State := (placeWord State.reset nopWord).onSch fun c => { c with todo := [], ctx := some c0 }
/-- The same with another group in the place of it. -/
def withGroup (g : Group) : State := w0.onCores fun c => { c with groups := [g] }
/-- The selection of an event. -/
def pick (s : State) (vd : Vd) (die : Die) (core : Core) (n k : Nat) : State :=
  s.onSch fun c => { c with sel := { Sel.none with vd := vd, die := die, core := core, n := n, k := k } }

theorem selected_w0 : Selected w0 c0 bareGroup :=
  ⟨rfl, rfl, by decide, by decide, by decide, by decide, rfl⟩

/-- Any legal instruction with header h0 runs in the small state. -/
theorem runs_w0 {i : Instr} {need : Priv} (hh : i.hdr? = some h0) (hl : legal i bareGroup = true) : Runs w0 i need c0 bareGroup h0 :=
  { selected_w0 with hdr := hh, ok := hl, priv := by cases need <;> rfl }

theorem runs_all {need : Priv} {l : List Instr} (h : ∀ i ∈ l, i.hdr? = some h0 ∧ legal i bareGroup = true) :
    ∀ i ∈ l, Runs w0 i need c0 bareGroup h0 := fun i hi => runs_w0 (h i hi).1 (h i hi).2

/-! Well-formedness refuses each kind of ill-formed term. -/

theorem test_wf_event : Instr.wf .coldReset = false := by decide
theorem test_wf_second_guard : Instr.wf (.nop ⟨⟨false, 0⟩, ⟨false, 1⟩, .a, 0⟩) = false := by decide
theorem test_wf_hint : Instr.wf (.nop ⟨⟨false, 0⟩, ⟨false, 0⟩, .a, 1⟩) = false := by decide
theorem test_wf_kind : Instr.wf (.iadd h0 ⟨.lo, false, false, false⟩ (.p 1) (.g 4) (.g 5)) = false := by decide
theorem test_wf_odd_pair : Instr.wf (.iadd h0 ⟨.lo, false, false, true⟩ (.g 5) (.g 4) (.g 6)) = false := by decide
theorem test_wf_mod : Instr.wf (.iadd h0 ⟨.hi, false, false, false⟩ (.g 4) (.g 4) (.g 6)) = false := by decide
theorem test_wf_optional_operand : Instr.wf (.icmp h0 ⟨.and, .eq, false, false⟩ (.p 1) (.g 4) (.g 6) none) = false := by decide
theorem test_legal_regs : legal (.iadd h0 ⟨.lo, false, false, false⟩ (.g 8) (.g 4) (.g 5)) { bareGroup with regs := 8 } = false := by decide
theorem test_legal_mandrel : legal (.exit h0) { bareGroup with mandrel := true } = false := by decide

/-! Words written out field by field: OPC, guards and hint (16 bits), MOD, D, A, B, then C, E and zeros or IMM32. -/

theorem test_decode_nop : decodeTableWord 96 0x00_0000_0000_FF_FF_FF_FFFF0000 = some (.nop h0) := by decide
theorem test_decode_iadd : decodeTableWord 96 0x10_0000_0000_05_04_06_FFFF0000 =
    some (.iadd h0 ⟨.lo, false, false, false⟩ (.g 5) (.g 4) (.g 6)) := by decide
theorem test_decode_shl_guarded : decodeTableWord 96 0x29_0800_0000_07_05_FF_00000003 =
    some (.shlImm ⟨⟨false, 1⟩, ⟨false, 0⟩, .a, 0⟩ ⟨0, false, false, false⟩ (.g 7) (.g 5) 3) := by decide
theorem test_decode_mov : decodeTableWord 96 0x3C_0000_0000_04_FF_FF_00000010 = some (.movImm h0 ⟨false, false⟩ (.g 4) 16) := by decide
theorem test_decode_ffma_rz : decodeTableWord 96 0x45_0000_0001_04_05_06_07FF0000 =
    some (.ffma h0 ⟨false, false, .rz⟩ (.g 4) (.g 5) (.g 6) (.g 7)) := by decide
theorem test_decode_acs2 : decodeTableWord 96 0x5C_1000_1304_14_04_05_06070000 =
    some (.acs2 ⟨⟨false, 2⟩, ⟨false, 0⟩, .a, 0⟩ ⟨some 3, false, true, false, false⟩ (.g 20) (.g 4) (.g 5) (.g 6) (.g 7)) := by decide
theorem test_decode_frnd : decodeTableWord 96 0x68_0000_0000_04_05_FF_FFFF0000 = some (.frnd h0 ⟨false, .rn⟩ (.g 4) (.g 5)) := by decide
theorem test_decode_xred : decodeTableWord 96 0x73_0000_0000_04_05_FF_FFFF0000 =
    some (.xred h0 ⟨false, false, false, .add⟩ (.g 4) (.g 5)) := by decide
theorem test_decode_ld_acq_pkg : decodeTableWord 96 0x80_0000_2822_08_14_06_00000040 =
    some (.ld h0 ⟨false, .pkg, 0, 2, .w⟩ (.g 8) (.g 20) (.g 6) 0x40) := by decide
theorem test_decode_atom : decodeTableWord 96 0x91_0000_0000_04_06_FE_08FF0000 =
    some (.atom h0 ⟨.thread, 0, false, false, .add, false, false, 0⟩ (.g 4) (.g 6) .zero (.g 8)) := by decide
theorem test_decode_fence : decodeTableWord 96 0xA0_0000_0000_FF_FF_FF_FFFF0000 = some (.fence h0 ⟨none, .thread, .ar⟩) := by decide
theorem test_decode_win_touch : decodeTableWord 96 0xB1_0000_0000_FF_04_FF_FFFF0000 = some (.winTouch h0 (.g 4)) := by decide
theorem test_decode_mxdrain : decodeTableWord 96 0xC2_0000_21A3_0C_04_05_06FF0000 =
    some (.mxdrain h0 ⟨.bf16, .rn, false, true, true, false, true, 3⟩ (.g 12) (.g 4) (.g 5) (.g 6)) := by decide
theorem test_decode_task_post : decodeTableWord 96 0xD0_0000_0000_04_06_08_FFFF0000 = some (.taskPost h0 (.g 4) (.g 6) (.g 8)) := by decide
theorem test_decode_syscall : decodeTableWord 96 0xE0_0000_0000_FF_FF_FF_00000007 = some (.syscall h0 7) := by decide
theorem test_decode_halt : decodeTableWord 96 0xF4_0000_0000_FF_04_FF_FFFF0000 = some (.halt h0 (.g 4)) := by decide
theorem test_decode_reserved_operand : decodeTableWord 96 0x10_0000_0000_F5_04_06_FFFF0000 = none := by decide
theorem test_decode_absent_operand : decodeTableWord 96 0x10_0000_0000_FF_04_06_FFFF0000 = none := by decide
theorem test_decode_low_bits : decodeTableWord 96 0x00_0000_0000_FF_FF_FF_FFFF0001 = none := by decide
theorem test_decode_unassigned : decodeTableWord 96 0x0F_0000_0000_FF_FF_FF_FFFF0000 = none := by decide

/-! Instructions of rows 0x1 to 0x7 that run in the small state: every one meets the hypotheses of its statement. -/

def ar : ArithMod := ⟨.lo, false, false, false⟩
def lg : LogicMod := ⟨0, false, false, false⟩
def vc : VecMod := ⟨none, false, false, false, false⟩
def fp : FpMod := ⟨false, false, .rn⟩

theorem meets_IntegerArithmetic : ∀ i ∈ ([.iadd h0 ar (.g 4) (.g 5) .zero, .iaddImm h0 ar (.g 4) (.g 5) 1, .isub h0 ar (.g 4) (.g 5) (.k 1),
    .isubImm h0 ar .zero (.g 5) 1, .imin h0 ar (.g 4) (.g 5) (.g 6), .iminImm h0 ar (.g 4) (.g 5) 1, .imax h0 ar (.g 4) (.g 5) (.g 6),
    .imaxImm h0 ar (.g 4) (.g 5) 1, .iabs h0 ar (.g 4) (.g 5), .isad h0 ar (.g 4) (.g 5) (.g 6) (.g 7), .idiv h0 ar (.g 4) (.g 5) .zero,
    .idiv h0 ar (.g 4) (.k 5) (.g 6), .irem h0 ar (.g 4) (.g 5) .zero, .iadd h0 ⟨.lo, true, true, true⟩ (.g 190) (.g 4) (.g 6)] : List Instr),
    Runs w0 i .u c0 bareGroup h0 := runs_all (by decide)
theorem meets_IntegerArithmetic_multiply : ∀ i ∈ ([.imul h0 ar (.g 4) (.g 5) (.g 6), .imulImm h0 ⟨.hi, false, false, false⟩ (.g 4) (.g 5) 3,
    .imad h0 ⟨.wide, false, true, false⟩ (.g 4) (.g 6) (.g 7) (.g 8), .imadImm h0 ar (.g 4) (.g 5) (.g 6) 7] : List Instr),
    Runs w0 i .u c0 bareGroup h0 := runs_all (by decide)
theorem meets_LogicShiftsAndMoves : ∀ i ∈ ([.and h0 lg (.g 4) (.g 5) (.g 6), .andImm h0 lg (.g 4) (.g 5) 1, .or h0 lg (.g 4) (.g 5) (.g 6),
    .orImm h0 lg (.g 4) (.g 5) 1, .xor h0 lg (.g 4) (.g 5) (.g 6), .xorImm h0 lg (.g 4) (.g 5) 1, .not h0 lg (.g 4) (.g 5),
    .logt h0 ⟨0x96, false, false, false⟩ (.g 4) (.g 5) (.g 6) (.g 7), .shl h0 lg (.g 4) (.g 5) (.g 6), .shlImm h0 lg (.g 4) (.g 5) 32,
    .shr h0 ⟨0, false, true, false⟩ (.g 4) (.g 5) (.g 6), .shrImm h0 lg (.g 4) (.g 5) 31, .rot h0 ⟨0, true, false, false⟩ (.g 4) (.g 5) (.g 6),
    .popc h0 lg (.g 4) (.g 5), .clz h0 lg (.g 4) (.g 5), .bfx h0 lg (.g 4) (.g 5) (.g 6) (.g 7)] : List Instr),
    Runs w0 i .u c0 bareGroup h0 := runs_all (by decide)
theorem meets_ComparesAndPredicates : ∀ i ∈ ([.icmp h0 ⟨.none, .lt, false, false⟩ (.p 1) (.g 5) (.g 6) none,
    .icmp h0 ⟨.xor, .ge, true, true⟩ (.p 0) (.g 4) (.g 6) (some (.p 2)), .icmpImm h0 ⟨.none, .eq, false, false⟩ (.p 1) (.g 5) 1,
    .pcomb h0 ⟨0x80⟩ (.p 1) (.p 2) (.p 3) .zero, .p2g h0 ⟨true⟩ (.g 4), .g2p h0 ⟨0, false⟩ (.g 5)] : List Instr),
    Runs w0 i .u c0 bareGroup h0 := runs_all (by decide)
theorem meets_LogicShiftsAndMoves_moves : ∀ i ∈ ([.sel h0 ⟨false, true⟩ (.g 4) (.p 1) (.g 6) (.g 8), .selImm h0 ⟨true, false⟩ (.g 4) (.p 1) (.g 6) 9,
    .mov h0 ⟨false, false⟩ (.g 4) (.g 5), .movImm h0 ⟨true, true⟩ (.g 4) 5, .movh h0 (.g 4) 5, .lea h0 ⟨false, 3⟩ (.g 4) (.g 6) (.g 8),
    .leaImm h0 ⟨true, 7⟩ (.g 4) (.g 6) 5] : List Instr), Runs w0 i .u c0 bareGroup h0 := runs_all (by decide)
theorem meets_PackedArithmetic : ∀ i ∈ ([.vadd h0 vc (.g 4) (.g 5) (.g 6), .vaddImm h0 vc (.g 4) (.g 5) 1, .vsub h0 vc (.g 4) (.g 5) (.g 6),
    .vmin h0 vc (.g 4) (.g 5) (.g 6), .vmax h0 vc (.g 4) (.g 5) (.g 6), .vmul h0 vc (.g 4) (.g 5) (.g 6), .vabsd h0 vc (.g 4) (.g 5) (.g 6)] :
    List Instr), Runs w0 i .u c0 bareGroup h0 := runs_all (by decide)
theorem meets_VdotAccumulates : ∀ i ∈ ([.vdot h0 vc (.g 4) (.g 5) (.g 6) (.g 7)] : List Instr), Runs w0 i .u c0 bareGroup h0 :=
  runs_all (by decide)
/-- PRMT's selector at the highest value it may have, and one above. -/
theorem meets_AcsAndPermute : (0xFFFF#32).toNat ≤ 65535 ∧ 65535 < (0x10000#32).toNat ∧ ∀ i ∈ ([.prmt h0 vc (.g 4) (.g 5) (.g 6) (.g 7), .prmtImm h0 vc (.g 4) (.g 5) (.g 6) 0xFFFF,
    .prmtImm h0 vc (.g 4) (.g 5) (.g 6) 0x10000,
    .acs2 h0 ⟨some 3, true, true, false, false⟩ (.g 4) (.g 5) (.g 6) (.g 7) (.g 8)] : List Instr), Runs w0 i .u c0 bareGroup h0 :=
  ⟨by decide, by decide, runs_all (by decide)⟩
theorem meets_FloatArithmetic : ∀ i ∈ ([.fadd h0 fp (.g 4) (.g 5) (.g 6), .faddImm h0 fp (.g 4) (.g 5) 1, .fsub h0 fp (.g 4) (.g 5) (.g 6),
    .fmul h0 fp (.g 4) (.g 5) (.g 6), .fmulImm h0 fp (.g 4) (.g 5) 1, .ffma h0 ⟨true, true, .rd⟩ (.g 4) (.g 5) (.g 6) (.g 7),
    .ffmaImm h0 fp (.g 4) (.g 5) (.g 6) 1, .fmin h0 fp (.g 4) (.g 5) (.g 6), .fmax h0 fp (.g 4) (.g 5) (.g 6), .fdiv h0 fp (.g 4) (.g 5) .zero,
    .fsqrt h0 fp (.g 4) (.g 5), .frcp h0 fp (.g 4) (.g 5), .frsq h0 fp (.g 4) (.g 5), .dadd h0 fp (.g 4) (.g 6) (.g 8),
    .dmul h0 fp (.g 4) (.g 6) (.g 8), .dfma h0 fp (.g 4) (.g 6) (.g 8) (.g 10)] : List Instr), Runs w0 i .u c0 bareGroup h0 :=
  runs_all (by decide)
theorem meets_FloatHalvesAndFunctions : ∀ i ∈ ([.hadd h0 ⟨false, .rn⟩ (.g 4) (.g 5) (.g 6), .hmul h0 ⟨true, .rz⟩ (.g 4) (.g 5) (.g 6),
    .hfma h0 ⟨false, .rn⟩ (.g 4) (.g 5) (.g 6) (.g 7), .hmin h0 ⟨false, .rn⟩ (.g 4) (.g 5) (.g 6), .hmax h0 ⟨true, .rn⟩ (.g 4) (.g 5) (.g 6),
    .exp2 h0 ⟨.f32, .rn⟩ (.g 4) (.g 5), .log2 h0 ⟨.f16, .rn⟩ (.g 4) (.g 5), .sinPi h0 ⟨.bf16, .rn⟩ (.g 4) (.g 5),
    .cosPi h0 ⟨.f32, .ru⟩ (.g 4) (.g 5)] : List Instr), Runs w0 i .u c0 bareGroup h0 := runs_all (by decide)
theorem meets_FloatComparesAndConversions : Opnd.g 6 ≠ Opnd.g 4 ∧ CvtpOp.isPack .pk2 = true ∧ CvtpOp.isPack .up4 = false ∧
    ∀ i ∈ ([.fcmp h0 ⟨.or, .num, true⟩ (.p 1) (.g 4) (.g 6) (some (.p 2)), .fcmpImm h0 ⟨.none, .lt, false⟩ (.p 1) (.g 5) 1,
    .fclass h0 ⟨.f64, 3⟩ (.p 1) (.g 4), .frnd h0 ⟨true, .ru⟩ (.g 4) (.g 6), .fscale h0 ⟨false, .rn⟩ (.g 4) (.g 5) (.g 6),
    .fscaleImm h0 ⟨false, .rn⟩ (.g 4) (.g 5) 3, .rndh h0 ⟨true⟩ (.g 4) (.g 6) (.g 5), .rndhImm h0 ⟨false⟩ (.g 4) (.g 6) 1,
    .cvt h0 ⟨.f32, .i64, .rn, false, false⟩ (.g 4) (.g 6) none, .cvtp h0 ⟨.f8, .up4, .rn, false, false⟩ (.g 4) (.g 8) none none,
    .cvtp h0 ⟨.f16, .pk2, .rn, false, false⟩ (.g 4) (.g 8) (some (.g 9)) none, .cvt h0 ⟨.f16, .f32, .rn, false, true⟩ (.g 4) (.g 5) (some (.g 6)),
    .cvtp h0 ⟨.f16, .pk2, .rn, false, true⟩ (.g 4) (.g 8) (some (.g 9)) (some (.g 10)), .hcmp h0 ⟨.none, .ge, false⟩ (.p 1) (.g 5) (.g 6) none] : List Instr), Runs w0 i .u c0 bareGroup h0 :=
  ⟨by decide, by decide, by decide, runs_all (by decide)⟩
/-- LXCH over the widest segment that the group's 16 threads admit and over a wider one, with and without its predicate, and each mode of
PCOL and XFRED. -/
theorem meets_CrossLane : 2 ^ (4 : Fin 7).val ≤ bareGroup.width ∧ bareGroup.width < 2 ^ (5 : Fin 7).val
    ∧ ∀ i ∈ ([.lxch h0 ⟨true, 4, .flip⟩ (.g 4) (.g 6) (.g 8) none, .lxch h0 ⟨false, 4, .slide⟩ (.g 4) (.g 6) (.g 8) (some (.p 1)),
    .lxch h0 ⟨false, 5, .pick⟩ (.g 4) (.g 6) (.g 8) none, .lxch h0 ⟨false, 5, .pick⟩ (.g 4) (.g 6) (.g 8) (some (.p 1)),
    .lxchImm h0 ⟨false, 6, .rot⟩ (.g 4) (.g 5) 3, .pcol h0 ⟨true, 0, .mask⟩ (.g 4) (.p 2), .xfind h0 ⟨true⟩ (.g 4) (.g 6) (some (.p 1)),
    .lxchImm h0 ⟨false, 0, .rot⟩ (.g 4) (.g 5) 3, .pcol h0 ⟨false, 0, .every⟩ (.p 1) (.p 2), .pcol h0 ⟨false, 3, .any_⟩ (.p 1) (.p 2),
    .pcol h0 ⟨false, 0, .same⟩ (.p 1) (.p 2), .pcol h0 ⟨false, 0, .mask⟩ (.g 4) (.p 2), .pcol h0 ⟨false, 0, .count⟩ (.k 4) (.p 2),
    .xred h0 ⟨false, true, true, .max⟩ (.g 4) (.g 6), .xscan h0 ⟨true, false, false, .add⟩ (.g 4) (.g 5), .xfind h0 ⟨false⟩ (.g 4) (.g 5) none,
    .xfred h0 ⟨false, .rd, .add⟩ (.g 4) (.g 5), .xfred h0 ⟨true, .rn, .max⟩ (.g 4) (.g 6)] : List Instr), Runs w0 i .u c0 bareGroup h0 :=
  ⟨by decide +kernel, by decide +kernel, runs_all (by decide +kernel)⟩

/-! Instructions whose parts run one after another. -/

theorem acting_w0 : acting w0 c0 bareGroup h0 = [0] := by decide +kernel
/-- With one thread, the parts complete when its own part does. -/
theorem parts_complete {f : State → Nat → Option (State × Done)} {s : State} (h : (f s 0).isSome = true) :
    ∃ m l, inTurn f [0] s = some (m, l) := by
  obtain ⟨r, hr⟩ := Option.isSome_iff_exists.mp h
  exact ⟨r.1, [(0, r.2)], by simp [inTurn, hr]⟩
/-- Does an access complete? -/
def done {α : Type} (r : Got α) : Bool :=
  match r.2 with
  | .ok _ => true
  | .error _ => false

/-- A jump table at 128 with no join PC and one entry, slot 2 of line 0; g4 and g5 name it. -/
def w1 : State := writeReg (writeMem w0 128 (leBytes 8 0 ++ leBytes 8 1 ++ leBytes 8 2)) bareGroup 0 4 128
/-- A block with one scratchpad row, one expected arrival at barrier 1, in team 7. -/
def w2 : State := w0.onCores fun c =>
  { c with blocks := [{ bareBlock with rowCount := 1, team := some 7, bars := [(1, ⟨1, 0, false, 0⟩)] }] }
/-- VD 0 with one reservation entry, one tile and 256 counters. -/
def w3 : State := setVd w2 0 (fun r => { r with clu := 0x10020, cnt := 0x100, core := 0x200000000000 })

theorem meets_ControlFlow : (∀ i ∈ ([.nop h0, .bra h0 1, .call h0 (.g 4) 1, .ret h0 (.g 4), .brx h0 (.g 4) (.g 6), .callx h0 (.g 8) (.g 4) (.g 6),
      .yield h0, .exit h0] : List Instr), Runs w0 i .u c0 bareGroup h0)
    ∧ branchTarget 0 1 = some 1 ∧ (checkTarget w0 bareGroup 1).2 = none ∧ (checkTarget w0 bareGroup 0).2 = none
    ∧ (let j := loadBytes w1 bareGroup 0 bareGroup.own (readOp w1 bareGroup 0 (.g 4) 2) 8 0
       let n := loadBytes j.1 bareGroup 0 bareGroup.own 136 8 0
       let p := loadBytes n.1 bareGroup 0 bareGroup.own 144 8 0
       okGot j (fun _ b => leNat b) = some 0 ∧ okGot n (fun _ b => leNat b) = some 1 ∧ okGot p (fun _ b => leNat b) = some 2
         ∧ (checkTarget p.1 bareGroup 2).2 = none)
    ∧ (w0.cores.groups.map (·.gid)).Nodup ∧ bareGroup.resid = .core ∧ (∀ u < 16, (bareGroup.thread u).token = none)
    ∧ (∀ u < 16, u ≠ 0 → (bareGroup.thread u).st = .exited) ∧ swageOf w0 832 = false ∧ anvilOf w0 832 = false :=
  ⟨runs_all (by decide +kernel), by decide +kernel, by decide +kernel, by decide +kernel, by decide +kernel, by decide +kernel, rfl, by decide +kernel, by decide +kernel, by decide +kernel, by decide +kernel⟩
/-- A target in the middle of no slot; and EXIT of a lane that owes an SVRET. -/
theorem meets_ControlFlow_more : (checkTarget w0 bareGroup 8).2 ≠ none
    ∧ Runs (withGroup { bareGroup with threads := { bareThread with token := some ⟨9, true, 0, 0⟩ } :: List.replicate 15 Thread.none }) (.exit h0) .u c0
        { bareGroup with threads := { bareThread with token := some ⟨9, true, 0, 0⟩ } :: List.replicate 15 Thread.none } h0 :=
  ⟨by decide +kernel,
    { ctx := rfl, grp := rfl, order := by decide, inside := by decide, ready := by decide, lane := by decide, quiet := rfl, hdr := rfl, ok := by decide, priv := rfl }⟩

def mm : MemMod := ⟨false, .thread, 0, 0, .w⟩
def ls : LdsMod := ⟨0, .none, 0, .w⟩
theorem meets_Loads : (∀ i ∈ ([.ld h0 mm (.g 4) (.g 6) .zero 0, .ldProbe h0 ⟨false, .thread, 1, 0, .w⟩ (.g 4) (.g 6) .zero 0,
      .prf h0 ⟨false, .thread, 0, 0, .b⟩ (.g 6) .zero 64, .lds h0 ls (.g 4) (.g 6) .zero 0, .ldm h0 mm (.g 4) (.g 6) .zero 0] : List Instr),
      Runs w0 i .h c0 bareGroup h0)
    ∧ (usrCtx w0 bareGroup 0 false).isSome = true ∧ ea w0 bareGroup 0 (.g 6) .zero 0 0 = 0
    ∧ done (loadBytes w0 bareGroup 0 bareGroup.own 0 4 0) = true
    ∧ done (spadAccess w2 bareGroup 0 .none 0 252 4 false) = true ∧ wordsBad w2 0 [0] = false
    ∧ mapBad w0 0 = false ∧ mapOpen 0 4 = false :=
  ⟨runs_all (by decide +kernel), by decide +kernel, by decide +kernel, by decide +kernel, by decide +kernel, by decide +kernel, by decide +kernel, by decide +kernel⟩
/-- A store to the last word of a scratchpad row, and a checked store with no violation. -/
theorem meets_Stores : (∀ i ∈ ([.st h0 (.plain mm) (.g 4) (.g 6) .zero 64, .st h0 (.bc ⟨0, .f32, 0, .w⟩) (.g 4) (.g 6) .zero 64,
      .sts h0 ls (.g 4) (.g 6) .zero 0, .stm h0 mm (.g 4) (.g 6) .zero 0] : List Instr), Runs w0 i .h c0 bareGroup h0)
    ∧ done (storeBytes w0 bareGroup 0 bareGroup.own 64 (leBytes 4 5) 0 0 0) = true
    ∧ (boundOf w0 0 0 0).violates .f32 0 = false ∧ done (spadAccess w2 bareGroup 0 .none 0 252 4 true) = true :=
  ⟨runs_all (by decide +kernel), by decide +kernel, by decide +kernel, by decide +kernel⟩
/-- A bound of 1.0 to 2.0 whose action is TRAP, and a store of 0 that it stops. -/
def trapping : State := onBound w0 0 0 0 (fun r => { r with action := 2, lo := 0x3F800000, hi := 0x40000000 })
theorem meets_Stores_trap : (boundOf trapping 0 0 0).action = 2 ∧ (boundOf trapping 0 0 0).violates .f32 0 = true
    ∧ done (storeCheck trapping bareGroup bareGroup.own 64 4) = true ∧ Runs trapping (.st h0 (.bc ⟨0, .f32, 0, .w⟩) (.g 4) (.g 6) .zero 64) .u c0 bareGroup h0 :=
  ⟨by decide +kernel, by decide +kernel, by decide +kernel,
    { ctx := rfl, grp := rfl, order := by decide, inside := by decide, ready := by decide, lane := by decide, quiet := rfl, hdr := rfl, ok := by decide, priv := rfl }⟩
def am : AtomMod := ⟨.thread, 0, false, false, .add, false, false, 0⟩
theorem meets_Atomics : (∀ i ∈ ([.atom h0 am (.g 4) (.g 6) .zero (.g 8), .atomImm h0 am (.g 4) (.g 6) (.g 8) 64, .red h0 am (.g 6) .zero (.g 8),
      .redImm h0 am (.g 6) (.g 8) 64, .cas h0 ⟨.thread, 0, false, false, .c32, 0⟩ (.g 4) (.g 6) .zero (.g 8) (.g 9),
      .atoms h0 ⟨0, .none, .add, false, false⟩ (.g 4) (.g 6) (.g 8) 0, .reds h0 ⟨0, .none, .inc, false, false⟩ (.g 6) (.g 8) 0,
      .cass h0 ⟨0, .none, .c32, 0⟩ (.g 4) (.g 6) .zero (.g 8) (.g 9)] : List Instr), Runs w0 i .u c0 bareGroup h0)
    ∧ done (atomic w0 bareGroup 0 64 4 0 (.op .add false 3) 0 1 false false) = true
    ∧ done (atomic w0 bareGroup 0 64 4 0 (.cas 0 1) 0 1 false false) = true
    ∧ done (spadAccess w2 bareGroup 0 .none 0 0 4 true) = true ∧ wordsBad w2 0 [0] = false :=
  ⟨runs_all (by decide +kernel), by decide +kernel, by decide +kernel, by decide +kernel, by decide +kernel⟩
/-- Each barrier at count 65535, the highest it takes; WAITA on a word that holds, and CBAR in a team. -/
theorem meets_FencesAndBarriers : (∀ i ∈ ([.fence h0 ⟨some 0xF0, .pkg, .rel⟩, .fence h0 ⟨none, .sys, .acq⟩, .fence h0 ⟨none, .clu, .ar⟩,
      .pfence h0 ⟨0x80, .die, .ls⟩, .pfence h0 ⟨1, .die, .mx⟩, .pfence h0 ⟨0x80, .die, .lq⟩, .barInit h0 ⟨1⟩ (.g 4), .barInitImm h0 ⟨1⟩ 65535,
      .barArrive h0 ⟨0, 1⟩ (.g 4), .barArriveImm h0 ⟨0, 1⟩ 0, .barWait h0 ⟨1⟩, .barSync h0 ⟨0, 1⟩ (.g 4), .barSyncImm h0 ⟨0, 1⟩ 1,
      .barInv h0 ⟨1⟩, .cbar h0 ⟨0, .arrive⟩, .cbar h0 ⟨0, .sync⟩, .cbar h0 ⟨0, .wait⟩,
      .waita h0 ⟨.thread, .eq, false, .mem⟩ (.p 1) (.g 4) (.g 6) (.g 8), .waitaImm h0 ⟨.thread, .eq, false, .map⟩ (.p 1) (.g 4) (.g 6) 0] :
      List Instr), Runs w0 i .u c0 bareGroup h0)
    ∧ (65535#32).toNat ≤ 65535 ∧ (barOf w2 1 1).out = 0 ∧ barWaiters w2 1 1 = false ∧ (barOf w2 1 1).expect = 1
    ∧ (blockOf w2 bareGroup).bind (·.team) = some 7
    ∧ done (waPlace w0 bareGroup .mem 64 4) = true ∧ done (waPlace w0 bareGroup .map 0 4) = true
    ∧ done (waWord w0 bareGroup 0 ⟨.mem (.spa 64), 64, false, .eq, .thread, 0, .p 1, none⟩ 0) = true :=
  ⟨runs_all (by decide +kernel), by decide +kernel, by decide +kernel, by decide +kernel, by decide +kernel, by decide +kernel, by decide +kernel, by decide +kernel, by decide +kernel⟩

/-- A window descriptor of 256 bytes at offset 0, kind 0, with its completion on barrier 1. -/
def desc : Bytes := leBytes 8 64 ++ leBytes 4 0 ++ leBytes 4 256 ++ [0, 0, 0, 0, 0xFF, 0, 1, 4, 1, 0] ++ leBytes 38 0
def wn (st : WinSt) : Window := { st := st, desc := desc, blk := 1, vd := 0, asid := 0, status := 0 }
def withWin (st : WinSt) : State := onWin w3 0 0 (fun _ => wn st)
/-- WIN.BIND of entry 7, the last of the VD's eight, and each state of an entry that WIN.TOUCH and WIN.RETIRE meet. -/
theorem meets_WindowsAndCaches : (∀ i ∈ ([.winBind h0 (.g 4) (.g 6) (.g 8), .winTouch h0 (.g 4), .winRetire h0 (.g 4), .winState h0 (.g 4) (.g 5),
      .seal h0 (.g 4) (.g 6) (.g 8) (.g 9), .unseal h0 ⟨true⟩ (.g 4) (.g 6) (.g 8) (.g 9), .cctl h0 ⟨.l1, .wb⟩ (.g 6) (.g 8),
      .cctlImm h0 ⟨.l2, .wbinv⟩ (.g 6) 64, .iinv h0 (.g 6) (.g 8), .isync h0] : List Instr), Runs w0 i .s c0 bareGroup h0)
    ∧ done (loadDesc w0 bareGroup 0 64) = true
    ∧ 7 < rtCnt w3 0 ∧ (winOf w3 0 7).st = .empty
    ∧ (∀ b, findBlock w3 1 = some b → (wn .absent).valid w3 b = true ∧ blockWindows w3 b = [] ∧ bit (wn .absent).act 2 = true
        ∧ (b.bar (wn .absent).barid).expect ≠ 0 ∧ (b.bar (wn .absent).barid).out ≠ 32767)
    ∧ (∀ st ∈ [WinSt.empty, .absent, .filling, .present, .bound, .draining, .error],
        0 < rtCnt (withWin st) 0 ∧ (winOf (withWin st) 0 0).st = st ∧ (winOf (withWin st) 0 0).blk = bareGroup.blk ∧ (winOf (withWin st) 0 0).kind ≠ 1) :=
  ⟨runs_all (by decide), by decide +kernel, by decide +kernel, by decide +kernel,
    fun b h => by rw [show findBlock w3 1 = some _ from rfl] at h; cases h; decide +kernel, by decide +kernel⟩
/-- A free entry, none free, a present window with room for a drain, and a count of 65535. -/
theorem meets_EngineInstructions : (∀ i ∈ ([.mxop h0 (.g 4) (.g 5), .mxopImm h0 (.g 4) 192, .mxdrain h0 ⟨.f8, .rn, true, false, false, false, false, 0⟩
      (.g 4) (.g 5) (.g 6) (.g 7), .mxwait h0 ⟨false⟩ (some (.g 5)), .mxwait h0 ⟨true⟩ none, .mxburst h0 (.g 5), .mxburstImm h0 65535,
      .collPost h0 (.g 4) (.g 6)] : List Instr), Runs w0 i .u c0 bareGroup h0)
    ∧ (192 % 64 = 0 ∧ 192 + 64 ≤ ((blockOf w3 bareGroup).elim 0 fun b => 256 * b.rowCount)) ∧ tileIn w3 0 0 = true
    ∧ freeEntry w3 0 0 = some 0 ∧ freeEntry w0 0 0 = none ∧ tileNamed w3 0 0 = true
    ∧ (winOf (withWin .present) 0 0).st = .present ∧ acting w0 c0 bareGroup h0 ≠ [] ∧ mxPending w3 0 0 0 = false
    ∧ done (collPost w0 bareGroup 0 64) = true :=
  ⟨runs_all (by decide), by decide +kernel, by decide +kernel, by decide +kernel, by decide +kernel, by decide +kernel, by decide +kernel,
    by decide +kernel, by decide +kernel, by decide +kernel⟩
/-- A handle at the end of the VD's range, a count of 65535, and a group of a phased task. -/
def wp : State := { withGroup { bareGroup with owner := .task 1 } with lq := { State.reset.lq with tasks :=
  [{ tid := 1, vd := 0, die := 0, core := 0, asid := 0, packet := [4, 0x20], handle := none, phaseNo := 0, worker := none, killing := none }] } }
theorem meets_TaskInstructions : (∀ i ∈ ([.taskPost h0 (.g 4) (.g 6) (.g 8), .taskDep h0 ⟨false⟩ (.g 4) (.g 6) (.g 8) (.g 9),
      .taskDepImm h0 ⟨false⟩ (.g 4) (.g 6) (.g 8) 65535, .taskDepImm h0 ⟨true⟩ (.g 4) .zero (.g 8) 0] : List Instr), Runs w0 i .u c0 bareGroup h0)
    ∧ handleOk w3 0 255 = true ∧ handleOk w3 0 256 = false ∧ done (armThread w3 bareGroup 0 64 255 65535) = true
    ∧ (counterAt w3 255).st = .free
    ∧ Runs wp (.phase h0) .u c0 { bareGroup with owner := .task 1 } h0 ∧ phased wp { bareGroup with owner := .task 1 } = true :=
  ⟨runs_all (by decide), by decide +kernel, by decide +kernel, by decide +kernel, by decide +kernel,
    { ctx := rfl, grp := rfl, order := by decide, inside := by decide, ready := by decide, lane := by decide, quiet := rfl, hdr := rfl,
      ok := by decide, priv := rfl }, by decide +kernel⟩
theorem meets_SyscallEntry : Runs (withGroup { bareGroup with priv := .u }) (.syscall h0 7) .u c0 { bareGroup with priv := .u } h0
    ∧ ({ bareGroup with priv := .u } : Group).priv ≠ .h ∧ (acting (withGroup { bareGroup with priv := .u }) c0 { bareGroup with priv := .u } h0)[0]? = some 0 :=
  ⟨{ ctx := rfl, grp := rfl, order := by decide, inside := by decide, ready := by decide, lane := by decide, quiet := rfl, hdr := rfl,
     ok := by decide, priv := rfl }, by decide, by decide +kernel⟩
/-- A queue that is disabled, one that is empty and one with an entry; and a thread that owes a return. -/
def wq (base : DWord) (tail : BitVec 9) : State := onSvq w0 0 0 (fun q => { q with base := base, tail := tail })
theorem meets_SupervisorQueues : (∀ i ∈ ([.svqtake h0 ⟨1⟩ (.g 16), .svret h0 ⟨true, .next⟩ (some (.g 4)) (some (.g 5)), .svret h0 ⟨false, .exit⟩ none none,
      .svqwait h0, .svwake h0 (.g 4) (.g 5) (.g 6) (.g 8), .tret h0 (.g 4) (.g 5) (.g 6) (.g 8)] : List Instr), Runs w0 i .h c0 bareGroup h0)
    ∧ acting w0 c0 bareGroup h0 ≠ [] ∧ findGroup w0 832 = some bareGroup ∧ 0 < bareGroup.threads.length ∧ bareGroup.mandrel = false
    ∧ bit (svqOf (wq 0 0) 0 0).base.toNat 0 = false ∧ (svqOf (wq 1 0) 0 0).count = 0 ∧ (svqOf (wq 1 1) 0 0).count ≠ 0
    ∧ (bareGroup.thread 0).token = none
    ∧ (({ bareThread with token := some ⟨9, true, 0, 0⟩ } : Thread).token.map (·.caller)) = some true :=
  ⟨runs_all (by decide), by decide +kernel, rfl, by decide, rfl, by decide +kernel, by decide +kernel, by decide +kernel, rfl, rfl⟩
theorem meets_ReturnFromTrap : findGroup w0 bareGroup.gid = some bareGroup ∧ (w0.cores.groups.map (·.gid)).Nodup ∧ 0 < bareGroup.threads.length
    ∧ 0 < bareGroup.width ∧ bareGroup.resid = .core ∧ bareGroup.mandrel = false ∧ (⟨.next, 1, some 2⟩ : Resume).form = .next
    ∧ (⟨.replay, 0, none⟩ : Resume).form = .replay ∧ (⟨.exit, 0, none⟩ : Resume).form = .exit :=
  ⟨rfl, by decide, by decide, by decide, rfl, rfl, rfl, rfl, rfl⟩
theorem meets_SpecialAndControlRegisters : (∀ i ∈ ([.movs h0 (.g 4) 0, .csrrImm h0 (.g 4) 0xF00, .csrr h0 (.g 4) (.g 6), .csrwImm h0 (.g 4) 0xF00,
      .csrw h0 (.g 6) (.g 8)] : List Instr), Runs w0 i .s c0 bareGroup h0)
    ∧ (specialReg w0 bareGroup 0 0).isSome = true ∧ (csrOf bareGroup [] 0xF00).toOption.isSome = true ∧ (0xF00#32).toNat < 65536 :=
  ⟨runs_all (by decide), by decide +kernel, by decide +kernel, by decide⟩
theorem meets_TranslationAndFrames : (∀ i ∈ ([.ptsync h0 ⟨none, .pkg⟩, .tlbinv h0 ⟨.pkg, true, .s2⟩ (some (.g 4)) (some (.g 6)) (some (.g 8)),
      .tlbinv h0 ⟨.clu, false, .vd⟩ none none none, .pgmove h0 ⟨true⟩ (.g 4) (.g 6) (.g 8) (.g 10), .frassign h0 (.g 4) (.g 5) (.g 6) (.g 7),
      .solderHandoff h0 (.g 4) (.g 5), .solderRekey h0 (.g 4) (.g 5), .bndSet h0 ⟨false, false, false, .clamp⟩ (.g 4) (.g 5) (.g 6),
      .schedStep h0 ⟨false⟩ none, .schedStep h0 ⟨true⟩ (some (.g 4)), .halt h0 (.g 4)] : List Instr), Runs w0 i .h c0 bareGroup h0)
    ∧ bareGroup.priv = .h ∧ (acting w0 c0 bareGroup h0).getLast? = some 0 ∧ (acting w0 c0 bareGroup h0).head? = some 0 ∧ halted w0 0 = false :=
  ⟨runs_all (by decide), rfl, by decide +kernel, by decide +kernel, by decide +kernel⟩

/-! Reads of the engines go through in the small state. -/

/-- A VD's register pages of the network engine, if it has any, lie above its first 2^40 addresses. -/
def OffNet (s : State) (v : Nat) : Prop := qpMax s v = 0 ∨ 2 ^ 40 ≤ (netOf s v).pages.toNat

/-- A map that sorts addresses into classes puts no register page of a VD into one of the classes 1 to 6, whatever the configuration puts
where. -/
theorem free_class (v : Nat) (f : Nat → Nat) : ∃ k, 1 ≤ k ∧ k ≤ 6 ∧ ∀ s : State, OffNet s v → ∀ x, x < 2 ^ 40 → f (x / 4096 * 4096) = k →
    isRegPage s v x = false := by
  let l : List Nat := [lqPageOf v, govPageOf v 0, govPageOf v 1, govPageOf v 2, govPageOf v 3]
  have h : ∃ k ∈ Finset.Icc 1 6, k ∉ l.map f := by
    by_contra hc
    push Not at hc
    have h1 : Finset.Icc 1 6 ⊆ (l.map f).toFinset := fun y hy => List.mem_toFinset.mpr (hc y hy)
    have h2 := (Finset.card_le_card h1).trans (l.map f).toFinset_card_le
    simp [l] at h2
  obtain ⟨k, hk, hl⟩ := h
  rw [Finset.mem_Icc] at hk
  refine ⟨k, hk.1, hk.2, fun s hn x hb hx => ?_⟩
  have hq : ∀ q ∈ l, x / 4096 * 4096 ≠ q := fun q hq e => hl (hx ▸ e ▸ List.mem_map_of_mem hq)
  simp only [l, List.forall_mem_cons] at hq
  have hp : ¬ ((netOf s v).pages.toNat ≤ x ∧ x < (netOf s v).pages.toNat + 4096 * qpMax s v) := by
    rcases hn with h | h
    · rw [h]; omega
    · omega
  simp [isRegPage, hp, List.range_succ, hq.1, hq.2.1, hq.2.2.1, hq.2.2.2.1, hq.2.2.2.2.1]
/-- One of the six pages 1 to 6 of a VD is no register page. -/
theorem free_page_of (v : Nat) : ∃ p, 1 ≤ p ∧ p ≤ 6 ∧ ∀ s : State, OffNet s v → ∀ x, x / 4096 = p → isRegPage s v x = false := by
  obtain ⟨p, h1, h2, h⟩ := free_class v (· / 4096)
  exact ⟨p, h1, h2, fun s hn x hx => h s hn x (by omega) (by simpa using hx)⟩
theorem free_page : ∃ p, 1 ≤ p ∧ p ≤ 6 ∧ ∀ s : State, OffNet s 0 → ∀ x, x / 4096 = p → isRegPage s 0 x = false := free_page_of 0

/-- A nested TLB entry translates an address of memory. -/
theorem ntlb_xlate {s : State} {v g a : Nat} {e : NtlbEntry} (hr : isRegPage s v g = false) (he : bit (trnOf s v).s2.toNat 0 = true)
    (hf : s.trn.ntlb.find? (fun e => e.hits 0 v g && e.w) = some e)
    (hw : e.w = true ∧ e.d2 = true ∧ e.target = .spa a) : gpaXlate s v g true = (renewNested s e, .ok (a + g % e.size)) := by
  simp [gpaXlate, gpaXlateF, stage2, hr, he, hf, hw.1, hw.2.1, hw.2.2, Target.plus, setDirtyS2]

/-- The small state's translations, with the order of its TLB entry. -/
def trn0 (n : Nat) : TrnState := { w0.trn with tlb := [{ bareTlb with stamp := n }] }
theorem trn0_fot (n : Nat) : (trn0 n).fot = w0.trn.fot := rfl
theorem trn0_regs (n : Nat) : (trn0 n).regs = w0.trn.regs := rfl
theorem trn0_tlb (n : Nat) : (trn0 n).tlb = [{ bareTlb with stamp := n }] := rfl
theorem trn0_windows (n : Nat) : (trn0 n).windows = [] := rfl

/-- A state that differs from the small one in nothing a translation or a check of VD 0 reads. -/
structure Small (s : State) : Prop where
  trn : ∃ n, s.trn = trn0 n
  harm : s.mem.harm = []
  poison : s.mem.poison = []
  net : OffNet s 0

/-- Nothing but the caches and the TLB's order has moved. -/
structure Moved (s t : State) : Prop where
  net : t.net = s.net
  vds : t.vds = s.vds
  lq : t.lq = s.lq
  rpc : t.rpc = s.rpc
  cells : t.mem.cells = s.mem.cells
  small : Small t
theorem Moved.readMem {s t : State} (h : Moved s t) (a n : Nat) : Machine.readMem t a n = Machine.readMem s a n := readMem_same h.cells a n
theorem Moved.trans {s t u : State} (h : Moved s t) (k : Moved t u) : Moved s u :=
  ⟨k.net.trans h.net, k.vds.trans h.vds, k.lq.trans h.lq, k.rpc.trans h.rpc, k.cells.trans h.cells, k.small⟩
theorem Small.refl {s : State} (h : Small s) : Moved s s := ⟨rfl, rfl, rfl, rfl, rfl, h⟩
theorem Small.mem {s : State} (h : Small s) {m : MemState} (k : SameBytes s.mem m) : Moved s { s with mem := m } :=
  ⟨rfl, rfl, rfl, rfl, k.2.1, h.trn, k.1, k.2.2.trans h.poison, h.net⟩

theorem small_frame {s : State} (h : Small s) {x : Nat} (hx : x < 65536) : frameAt s (x / 65536) = { Frame.free with st := .owned } := by
  obtain ⟨n, hn⟩ := h.trn
  have hz : x / 65536 = 0 := by omega
  rw [hz]
  unfold frameAt
  rw [hn, trn0_fot]
  decide
theorem small_check {s : State} (h : Small s) {x : Nat} (hx : x < 65536) : mscCheck s 0 (kidFor s 0 x) x = none := by
  have hf := small_frame h hx
  have hk : dataKid s 0 = 0 := rfl
  have hc : x / 65536 < 15466496 := by omega
  simp [mscCheck, kidFor, hf, hk, Frame.free, frameCount, hc]

theorem small_xlate {s : State} (h : Small s) (w : Bool) {a : Nat} (hr : isRegPage s 0 a = false) : gpaXlate s 0 a w = (s, .ok a) := by
  obtain ⟨n, hn⟩ := h.trn
  exact gpaXlate_plain w hr rfl (by unfold trnOf; rw [hn, trn0_regs]; decide)
/-- An address in frame 0 that a register of VD 0 names. -/
theorem small_regXlate {s : State} (h : Small s) (w : Bool) {a : Nat} (ha : a < 65536) : regXlate s 0 a w = (s, .ok a) :=
  regXlate_zero w (by simp [ownsFrame, small_frame h ha, Frame.free])

theorem small_gpa {s : State} (h : Small s) {p : Nat} (hp : p ≤ 6) (hr : ∀ s : State, OffNet s 0 → ∀ x, x / 4096 = p → isRegPage s 0 x = false)
    (k o n : Nat) (ho : o + n ≤ 4096) :
    ∃ m, gpaReadN s (ioEng 0 k) (4096 * p + o) n = ({ s with mem := m }, .ok (readMem s (4096 * p + o) n, false)) ∧ SameBytes s.mem m := by
  have hx : ∀ m x, 4096 * p + o ≤ x → x < 4096 * p + o + n → engXlate { s with mem := m } (ioEng 0 k) x false = ({ s with mem := m }, .ok x)
      ∧ mscCheck s 0 (kidFor s 0 x) x = none := fun m x h1 h2 =>
    ⟨gpaXlate_plain false (hr _ h.net x (by omega)) rfl (by obtain ⟨n, hn⟩ := h.trn; show bit (s.trn.regs.at TrnRegs.reset 0).s2.toNat 0 = false; rw [hn, trn0_regs]; decide),
      small_check h (by omega)⟩
  exact gpaReadN_plain (e := ioEng 0 k) rfl (4096 * p + o) n h.harm h.poison hx
theorem small_greg {s : State} (h : Small s) (a n : Nat) (ha : a + n ≤ 65536) :
    ∃ m, gpaReadN s (regEng 0) a n = ({ s with mem := m }, .ok (readMem s a n, false)) ∧ SameBytes s.mem m := by
  have hx : ∀ m x, a ≤ x → x < a + n → engXlate { s with mem := m } (regEng 0) x false = ({ s with mem := m }, .ok x)
      ∧ mscCheck s 0 (kidFor s 0 x) x = none := fun m x h1 h2 => by
    refine ⟨?_, small_check h (by omega)⟩
    have ho : ownsFrame s 0 x = true := by simp [ownsFrame, small_frame h (show x < 65536 by omega), Frame.free]
    exact regXlate_zero false (s := { s with mem := m }) ho
  exact gpaReadN_plain (e := regEng 0) rfl a n h.harm h.poison hx

theorem small_translate {s : State} (h : Small s) (w : Bool) {x : Nat} (hx : x < 65536) :
    ∃ t, Machine.translate s 0 0 0 x { write := w, fetch := false, user := false, sup := false }
      = (t, .ok { target := .spa x, gpa := x, w := true, sl := false }) ∧ Moved s t := by
  obtain ⟨n, hn⟩ := h.trn
  have hb : bits x 63 47 = 0 := by simp [bits]; omega
  have hc : canonical x = true := by simp [canonical, hb]
  have hz : x / 65536 = 0 := by omega
  have hl : s.trn.tlb = [{ bareTlb with stamp := n }] := by rw [hn, trn0_tlb]
  have hw : s.trn.windows = [] := by rw [hn, trn0_windows]
  have hm : x % 65536 = x := by omega
  refine ⟨renewTlb s { bareTlb with stamp := n }, ?_, rfl, rfl, rfl, rfl, rfl, ⟨s.mem.clock + 1, ?_⟩, h.harm, h.poison, h.net⟩
  · cases w <;> simp [Machine.translate, xlate, hc, mapped, hw, lookup, TlbEntry.allows, Option.filter, tlbFind, hl, bareTlb, hz, permits, userOk, Target.plus, hm, setDirty]
  · simp [renewTlb, State.onTrn, hn, trn0, bareTlb, tick]

theorem small_reads (s : State) (k : Nat) (hk : k ≤ 65536) : Reads (ioEng 0 0) id 0 k (Moved s) where
  harm h := h.small.harm
  poison h := h.small.poison
  mem h k := h.trans (h.small.mem k)
  check h _ hx := small_check h.small (by simpa using hx.trans_le hk)
  xlate h _ hx := by
    obtain ⟨t, e, k⟩ := small_translate h.small false (hx.trans_le hk)
    exact ⟨t, _, e, rfl, h.trans k, k.cells⟩
theorem small_eng {s : State} (h : Small s) (a n : Nat) (ha : a + n ≤ 65536) :
    ∃ t, engReadN s (ioEng 0 0) a n = (t, .ok (readMem s a n, false)) ∧ Moved s t := by
  obtain ⟨t, e, k, -⟩ := engRead_plain (e := ioEng 0 0) (f := id) rfl (fun _ _ => rfl) (small_reads s 65536 (le_refl _)) (by decide) (n / 32 + 2) a n h.refl
    (Nat.zero_le _) ha (by omega)
  exact ⟨t, e, k⟩

theorem small_put {s : State} (h : Small s) (hl : s.lq.launches = []) (a : Nat) (b : Bytes) (hb : b ≠ []) (hs : a % 32 + b.length ≤ 32)
    (ha : a + b.length ≤ 65536) : ∃ t, engWriteN s (ioEng 0 0) a b = (t, .ok ()) := by
  have hn : b.isEmpty = false := by cases b <;> simp_all
  have h0 : 0 < b.length := List.length_pos_iff.mpr hb
  have hp : sectorPart a b.length = b.length := by unfold sectorPart; omega
  obtain ⟨u, ht, k⟩ := small_translate h true (x := a) (by omega)
  obtain ⟨m, hm, -⟩ := mscTouch_quiet u 0 (kidFor u 0 a) a true k.small.harm
  have hc := small_check k.small (x := a) (by omega)
  have hsn : snapOf u 0 (a / 65536) = none := by simp [snapOf, k.lq, hl]
  obtain ⟨f, hf⟩ : ∃ f, b.length / 32 + 2 = f + 1 + 1 := ⟨b.length / 32, rfl⟩
  have he : ∀ t f a, engWrite t (ioEng 0 0) false f a [] = (t, .ok ()) := fun t f a => by cases f <;> simp [engWrite]
  unfold engWriteN
  rw [hf]
  unfold engWrite
  simp only [hn, Bool.false_eq_true, if_false, hp, List.take_length, List.drop_length]
  unfold engWrite1
  simp only [ioEng, ht]
  simp only [engPhysWrite, hsn, mscWrite, hc, hm]
  have h1 := he
  simp only [ioEng] at h1
  simp only [h1]
  split_ifs <;> exact ⟨_, rfl⟩

/-- A write by guest-physical address goes through. -/
theorem small_gputF {p : Nat} (hp : p ≤ 6) (hr : ∀ s : State, OffNet s 0 → ∀ x, x / 4096 = p → isRegPage s 0 x = false) (k : Nat) :
    ∀ (fuel a : Nat) (b : Bytes) (s : State), Small s → s.lq.launches = [] → 4096 * p ≤ a → a + b.length ≤ 4096 * p + 4096 →
      (b = [] ∨ a % 32 + b.length ≤ 32 * fuel) → ∃ t, gpaWriteF s (ioEng 0 k) false fuel a b = (t, .ok ())
  | 0, a, b, s, _, _, _, _, _ => ⟨s, rfl⟩
  | fuel + 1, a, b, s, h, hl, h1, h2, hf => by
    unfold gpaWriteF
    rcases b with _ | ⟨b0, bs⟩
    · exact ⟨s, rfl⟩
    · have hpart := sectorPart_or a (b0 :: bs).length
      have h0 : 0 < (b0 :: bs).length := Nat.succ_pos _
      generalize (b0 :: bs) = b at *
      generalize sectorPart a b.length = c at hpart
      have hn : b.isEmpty = false := by cases b <;> simp_all
      obtain ⟨m, hm, ks⟩ := mscTouch_quiet s 0 (kidFor s 0 a) a true h.harm
      have hc := small_check h (x := a) (by omega)
      have hx := small_xlate h true (hr s h.net a (by omega))
      have hsn : snapOf s 0 (a / 65536) = none := by simp [snapOf, hl]
      have hb : b ≠ [] := fun e => by simp [e] at h0
      have hd : ∀ q : Bool, ∃ t, mscWrite s 0 (kidFor s 0 a) a (b.take c) false = (t, none) ∧ Small t ∧ t.lq.launches = [] := fun _ => by
        simp only [mscWrite, hc, hm, Bool.false_eq_true, if_false]
        split_ifs
        · exact ⟨_, rfl, ⟨h.trn, ks.1, by simp [setPoison, writeMem, State.onMem, ks.2.2, h.poison, setDel], h.net⟩, hl⟩
        · exact ⟨_, rfl, ⟨h.trn, ks.1, ks.2.2.trans h.poison, h.net⟩, hl⟩
      obtain ⟨t, ht, hs, hlt⟩ := hd true
      simp only [hn, Bool.false_eq_true, if_false, gpaWrite1, engXlate, ioEng, hx, engPhysWrite, hsn, ht]
      refine small_gputF hp hr k fuel (a + c) (b.drop c) t hs hlt (by omega) (by rw [List.length_drop]; omega) ?_
      rcases hpart with e | ⟨e1, e2⟩
      · left; rw [e]; exact List.drop_length
      · right
        rw [List.length_drop]
        have := hf.resolve_left hb
        omega
theorem small_gput {s : State} (h : Small s) (hl : s.lq.launches = []) {p : Nat} (hp : p ≤ 6)
    (hr : ∀ s : State, OffNet s 0 → ∀ x, x / 4096 = p → isRegPage s 0 x = false) (k o : Nat) (b : Bytes) (ho : o + b.length ≤ 4096) :
    ∃ t, gpaWriteN s (ioEng 0 k) (4096 * p + o) b = (t, .ok ()) :=
  small_gputF hp hr k _ _ b s h hl (by omega) (by omega) (by omega)

/-! The package: power, boot, attestation and boundary. Whether a signature verifies is the configuration's, so a good boot image is
one whose header the configuration accepts. -/

def onPkg (f : PkgState → PkgState) : State := State.reset.onPkg f
theorem meets_PowerAndReset : (onPkg (fun p => { p with busGood := true, rails := 7 })).pkg.busGood = true
    ∧ (onPkg (fun p => { p with busGood := true, rails := 7 })).pkg.rails = railOrder .vcore3
    ∧ railOrder .vcore3 < (onPkg (fun p => { p with rails := 8 })).pkg.rails
    ∧ ((onPkg (fun p => { p with pwrGood := true })).pkg.modResetN = false ∧ (onPkg (fun p => { p with pwrGood := true })).pkg.pwrGood = true)
    ∧ 999 < 1000 ∧ 1000 ≤ 1000 ∧ bootImage State.reset 0 0x100000 0 0x100000 = none
    ∧ (∀ s : State, imageOk (norBytes s 0x100000 4096) (fun n => norBytes s 0x101000 n) 0 0x100000 = true →
        bootImage s 0 0x100000 0 0x100000 ≠ none) :=
  ⟨rfl, rfl, by decide, ⟨rfl, rfl⟩, by decide, by decide, by decide +kernel, fun s h => by
    unfold bootImage; simp only [h, if_true]; split_ifs <;> simp⟩

/-- A die whose sample moves it from its step, with the shortest time since the last change that lets it fall. -/
def hot : State :=
  { onPkg (fun p => { p with running := true, dies := p.dies.set 1 { DiePower.reset with step := 5, since := 0 }, modStep := 3 }) with
    bdy := { State.reset.bdy with diePwr := Vector.replicate 4 100, tThrot := 60, modPwr := 500 }
    sch := { State.reset.sch with cycle := 130000 } }
theorem meets_PowerAndReset_control : hot.pkg.running = true ∧ (hot.bdy.diePwr[(1 : Die)]).toNat < 101 ∧ ¬ (hot.bdy.tThrot.toNat < 60)
    ∧ (hot.pkg.dies[(1 : Die)]).since + 130000 ≤ hot.sch.cycle ∧ min 4 (hot.pkg.dies[(1 : Die)]).step ≠ (hot.pkg.dies[(1 : Die)]).step
    ∧ min 2 hot.pkg.modStep ≠ hot.pkg.modStep ∧ 99 < maxDie hot ∧ ¬ (100 < maxDie hot) := by decide +kernel

def att (q : List AttReq) (run : Option (Nat × Nat × Nat)) (idx : BitVec 4) (dest : BitVec 64) : State :=
  w0.onAtt fun a => { a with queue := q, norRun := run, xIndex := idx, rDest := dest }
theorem meets_AttestationAndNor : AttReq.extend ∉ (att [] none 4 0).att.queue ∧ AttReq.extend ∈ (att [.extend] none 4 0).att.queue
    ∧ AttReq.report ∉ (att [.extend] none 4 0).att.queue ∧ AttReq.report ∈ (att [.extend, .report] none 4 0).att.queue
    ∧ bit (1#64).toNat 0 = true ∧ (att [.extend] none 3 0).att.queue.head? = some .extend ∧ (att [.extend] none 3 0).att.xIndex.toNat < 4
    ∧ 4 ≤ (att [.extend] none 4 0).att.xIndex.toNat ∧ (att [.report] none 4 63104).att.queue.head? = some .report
    ∧ (63104 % 64 = 0 ∧ spaOwned (att [.report] none 4 63104) 63104 2432 = true) ∧ spaOwned w0 63168 2432 = false ∧ 1 % 64 ≠ 0
    ∧ (∀ n ∈ [1, 2, 3], (att [] (some (n, 0, 256)) 0 0).att.norRun = some (n, 0, 256))
    ∧ norCheck w0 1 0x9000000 256 = 0 ∧ norCheck w0 2 0x9000000 0 = 0 ∧ norCheck w0 3 0x9000000 256 = 0
    ∧ (∀ n ∈ [0, 16, 21], (att [] (some (n, 0, 0)) 0 0).att.norRun = some (n, 0, 0) ∧ (n = 0 ∨ 16 ≤ n)) := by decide +kernel

/-- One queue pair: its index, its state and the state that holds it. -/
def qcfg : QpCfg :=
  { block := false, port := 0, sqLog2 := 6, cqLog2 := 6, rqLog2 := 6, slotLog2 := 8, notify := false, asid := 0, ncore := 0, lpid := 5
    sqva := 0, cqva := 0, rqva := 0 }
def qp : Qp := Qp.fresh qcfg 0
/-- Register pages of the network engine above the first 2^40 addresses. -/
def netFar : NetRegs := { NetRegs.reset with pages := BitVec.ofNat 64 (2 ^ 40) }
def withQp (p : Qp) : State := w3.onNet fun n => { n with qps := [(0, p)], regs := [(0, netFar)] }
theorem meets_RegisterPageStores : findQp (withQp qp) 0 0 = some qp ∧ findQp (withQp { qp with evicted := true }) 0 0 = some { qp with evicted := true }
    ∧ findQp (withQp qp) 0 1 = none ∧ ((32768 : BitVec 16) - qp.tail).toNat ≤ 32768 ∧ 32768 < ((32769 : BitVec 16) - qp.tail).toNat := by decide

/-- Window 31 of endpoint 0: 64 KiB at offset 65536 of the BAR, for requester 5, of a kind, with its flag word at 8. -/
def lw (kind : Nat) (tgt : BitVec 64) : Lwd :=
  { ctl := BitVec.ofNat 64 (1 + 2 ^ 31 + 16 * 2 ^ 32 + kind * 2 ^ 38 + 2 ^ 47 + 5 * 2 ^ 48), tgt := tgt, flag := 8, act := 0 }
def withLw (kind : Nat) : State := onLwd w0 0 31 (fun _ => lw kind 0)
theorem w0_off : OffNet w0 0 := .inl (by decide)
def pw (off : Nat) (b : Bytes) (relaxed : Bool) : PeerWrite := { rid := 5, off := off, data := b, relaxed := relaxed, crcOk := true }
theorem small_lw (k : Nat) : Small (withLw k) := ⟨⟨0, rfl⟩, rfl, rfl, w0_off⟩
theorem meets_LandingWindows : inMsix 65536 8 = false ∧ inMsix 17 1 = false ∧ windowOf (withLw 0) 0 65535 8 = none
    ∧ windowOf (withLw 2) 0 131064 8 = some 31 ∧ windowOf (withLw 2) 0 131065 8 = none
    ∧ (∀ k ∈ [0, 2], bit (lwdOf (withLw k) 0 31).ctl.toNat 30 = false ∧ bit (lwdOf (withLw k) 0 31).ctl.toNat 47 = true
        ∧ (pw 0 [] false).rid.toNat = bits (lwdOf (withLw k) 0 31).ctl.toNat 63 48 ∧ (lwdOf (withLw k) 0 31).kind = k
        ∧ coversFlag (lwdOf (withLw k) 0 31) (pw 65544 [1] false) = true ∧ coversFlag (lwdOf (withLw k) 0 31) (pw 65544 [1] true) = true
        ∧ coversFlag (lwdOf (withLw k) 0 31) (pw 65552 [1] false) = false ∧ coversFlag (lwdOf (withLw k) 0 31) (pw 65552 [1] true) = false)
    ∧ 8 + (leBytes 8 0).length ≤ 16 ∧ bit (lwdOf (withLw 2) 0 31).ctl.toNat 31 = true ∧ bit (lwdOf w0 0 31).ctl.toNat 31 = false := by decide +kernel
/-- A write of 8 bytes to memory lands. -/
theorem meets_LandingWindows_memory : ∃ p, 1 ≤ p ∧ p ≤ 6 ∧ landCheck (withLw 0) 0 false ((lw 0 0).target + (65536 + 4096 * p - (lw 0 0).base)) 8 2
    = (withLw 0, 0) := by
  obtain ⟨p, h1, h2, h3⟩ := free_page
  refine ⟨p, h1, h2, ?_⟩
  have hb : (lw 0 0).base = 65536 := by decide
  have ht : (lw 0 0).target = 0 := by decide
  have e1 : 0 + (65536 + 4096 * p - 65536) = 4096 * p := (Nat.zero_add _).trans (Nat.add_sub_cancel_left _ _)
  have hx := small_xlate (small_lw 0) true (h3 _ (small_lw 0).net (4096 * p) (by omega))
  have hc := small_check (small_lw 0) (x := 4096 * p) (by omega)
  have hs : sectorPart (4096 * p) 8 = 8 := by unfold sectorPart; omega
  rw [hb, ht, e1]
  simp [landCheck, hx, hc, hs]


/-! The network engine and the block rings: a work entry of 64 bytes at address 4096, the first of an empty queue's ring. -/

def ent (op flags : Byte) : Bytes := [op, flags, 3, 0] ++ List.replicate 56 0 ++ [0, 0, 0, 0x80]
def qp1 (block : Bool) : Qp := { qp with cfg := { qcfg with block := block, sqva := 4096 }, tail := 1 }
def withEnt (p : Qp) (e : Bytes) : State := writeMem (setVd (withQp p) 0 (fun r => { r with queue := 2 })) 4096 e
theorem small_ent (p : Qp) (e : Bytes) : Small (withEnt p e) := ⟨⟨0, rfl⟩, rfl, rfl, .inr (show 2 ^ 40 ≤ netFar.pages.toNat by decide)⟩
theorem ent_reads {p : Qp} (e : Bytes) (he : e.length = 64) (hs : p.cfg.sqva = 4096) (hz : p.head = 0) (ha : p.cfg.asid = 0) :
    ∃ x, readHead (withEnt p e) 0 p = (x, .ok (e, false)) := by
  obtain ⟨t, h, -⟩ := small_eng (small_ent p e) 4096 64 (by decide)
  have hr : readMem (withEnt p e) 4096 64 = e := by rw [← he]; exact readMem_writeMem _ _ _
  refine ⟨t, ?_⟩
  simp only [readHead, hs, hz, ha, show (0 : BitVec 16).toNat = 0 from rfl, Nat.zero_mod, Nat.mul_zero, Nat.add_zero, h, hr]

/-- A queue-pair entry that ENABLE accepts, and one that it does not. -/
def goodQ : Bytes := [0, 0, 6, 6, 6, 8, 0, 0, 0, 0, 5, 0] ++ List.replicate 116 0
def withQpt (p : Nat) (b : Bytes) : State :=
  writeMem ((pick (setVd w3 0 (fun r => { r with queue := 2 })) 0 0 0 1 0).onNet fun n =>
    { n with regs := [(0, { netFar with qpt := BitVec.ofNat 64 (4096 * p) })] }) (4096 * p + 128) b
theorem small_qpt (p : Nat) (b : Bytes) : Small (withQpt p b) := ⟨⟨0, rfl⟩, rfl, rfl, .inr (show 2 ^ 40 ≤ netFar.pages.toNat by decide)⟩
theorem entry_reads (b : Bytes) (hb : b.length = 128) : ∃ x : State, x.net = (withQpt 1 b).net
    ∧ gpaReadN (withQpt 1 b) (regEng 0) ((netOf (withQpt 1 b) 0).qpt.toNat + 128 * 1) 128 = (x, .ok (b, false)) := by
  obtain ⟨m, h, -⟩ := small_greg (small_qpt 1 b) (4096 + 128) 128 (by decide)
  have hr : readMem (withQpt 1 b) (4096 + 128) 128 = b := by
    have := readMem_writeMem ((pick (setVd w3 0 (fun r => { r with queue := 2 })) 0 0 0 1 0).onNet fun n =>
      { n with regs := [(0, { netFar with qpt := BitVec.ofNat 64 (4096 * 1) })] }) (4096 * 1 + 128) b
    rwa [hb] at this
  rw [hr] at h
  exact ⟨{ withQpt 1 b with mem := m }, rfl, h⟩
theorem goodQ_ok (s : State) (h : s.net.qps = []) : qpEntryOk s 0 goodQ = true ∧ qpEntryOk s 0 (goodQ.set 2 5) = false := by
  have hq : qpsOf s 0 = [] := by simp [qpsOf, h]
  have h1 : (qpCfgOf goodQ).block = false := by decide
  have h2 : (qpCfgOf (goodQ.set 2 5)).block = false := by decide
  constructor
  · unfold qpEntryOk; simp only [hq, h1, Bool.false_eq_true, if_false]; decide +kernel
  · unfold qpEntryOk; simp only [hq, h2, Bool.false_eq_true, if_false]; decide +kernel
/-- A table in a frame that VD 0 does not own. -/
def farQpt : State := (pick (setVd w3 0 (fun r => { r with queue := 2 })) 0 0 0 1 0).onNet fun n =>
  { n with regs := [(0, { netFar with qpt := 0x100000 })] }
theorem meets_NetworkQueues_enable : (∃ x, gpaReadN (withQpt 1 goodQ) (regEng 0) ((netOf (withQpt 1 goodQ) 0).qpt.toNat + 128 * 1) 128
      = (x, .ok (goodQ, false)) ∧ qpEntryOk x 0 goodQ = true)
    ∧ (∃ x, gpaReadN (withQpt 1 (goodQ.set 2 5)) (regEng 0) ((netOf (withQpt 1 (goodQ.set 2 5)) 0).qpt.toNat + 128 * 1) 128
      = (x, .ok (goodQ.set 2 5, false)) ∧ qpEntryOk x 0 (goodQ.set 2 5) = false)
    ∧ (∃ x e, gpaReadN farQpt (regEng 0) ((netOf farQpt 0).qpt.toNat + 128 * 1) 128 = (x, .error e)
      ∧ 1 < qpMax farQpt 0 ∧ findQp farQpt 0 1 = none)
    ∧ ∀ b, 1 < qpMax (withQpt 1 b) 0 ∧ qpMax (withQpt 1 b) 0 ≤ 2 ∧ findQp (withQpt 1 b) 0 1 = none := by
  refine ⟨?_, ?_, ?_, fun b => ⟨show 1 < qpMax (setVd w3 0 (fun r => { r with queue := 2 })) 0 by decide +kernel,
    show qpMax (setVd w3 0 (fun r => { r with queue := 2 })) 0 ≤ 2 by decide +kernel, rfl⟩⟩
  · obtain ⟨x, h2, h3⟩ := entry_reads goodQ rfl
    exact ⟨x, h3, (goodQ_ok x (by rw [h2]; rfl)).1⟩
  · obtain ⟨x, h2, h3⟩ := entry_reads (goodQ.set 2 5) rfl
    exact ⟨x, h3, (goodQ_ok x (by rw [h2]; rfl)).2⟩
  · exact ⟨(gpaReadN farQpt (regEng 0) ((netOf farQpt 0).qpt.toNat + 128 * 1) 128).1, .xl (.page false 0x100080), Prod.ext rfl (by decide +kernel), by decide +kernel, rfl⟩

/-- A Send taken, undecided or ended with a status, and the network's answer to it. -/
def op1 (f : Byte) (st : Option Nat) : NetOp := ⟨0, ent 1 f, st, 0, 0, none⟩
def res0 : NetResult := ⟨0, [], 0⟩
/-- A completion entry is written; one for a space that is not mapped is lost. -/
theorem meets_NetworkQueues_entries (body : Bytes) (hb : body.length = 28) : (writeCq (withQp qp) 0 0 body).2 = .written
    ∧ (writeCq (withQp { qp with cfg := { qcfg with cqva := 2 ^ 47 } }) 0 0 (List.replicate 28 0)).2 = .fault := by
  refine ⟨?_, by decide +kernel⟩
  have hs : Small (withQp qp) := ⟨⟨0, rfl⟩, rfl, rfl, .inr (show 2 ^ 40 ≤ netFar.pages.toNat by decide)⟩
  have hl : (body ++ leBytes 4 (2 ^ 31 * (ownerBit qp.cqTail qp.cfg.cqLog2).toNat)).length = 32 := by rw [List.length_append, hb]; rfl
  generalize hE : body ++ leBytes 4 (2 ^ 31 * (ownerBit qp.cqTail qp.cfg.cqLog2).toNat) = e at hl
  obtain ⟨t, h⟩ := small_put hs rfl 0 e (fun x => by rw [x] at hl; cases hl) (by rw [hl]) (by rw [hl]; decide)
  unfold writeCq
  simp only [show findQp (withQp qp) 0 0 = some qp from rfl, hE, hl, show qp.cfg.cqva + 32 * (qp.cqTail.toNat % 2 ^ qp.cfg.cqLog2) = 0 from rfl,
    show qp.cfg.asid = 0 from rfl, h]
/-- Each operation of a work entry, taken at HEAD; a stopped queue whose next entry is valid; an operation to complete, with and without a
completion entry; a queue to stop, one to refuse and one to reload. -/
theorem meets_NetworkQueues : (∀ op ∈ ([1, 2, 3, 4] : List Byte), ∃ x y, findQp (withEnt (qp1 false) (ent op 0)) 0 0 = some (qp1 false)
      ∧ (qp1 false).cfg.block = false ∧ Qp.takes (qp1 false) = true ∧ readHead (withEnt (qp1 false) (ent op 0)) 0 (qp1 false) = (x, .ok (ent op 0, false))
      ∧ bit (wCtrl (ent op 0)) 31 = ownerBit (qp1 false).head (qp1 false).cfg.sqLog2 ∧ wOp (ent op 0) = op.toNat ∧ bit (wFlags (ent op 0)) 1 = false
      ∧ runWork x 0 0 (qp1 false).head.toNat (qp1 false) (ent op 0) = (y, .done 2 0 0))
    ∧ (∃ x, findQp (withEnt { qp1 false with stopped := true } (ent 1 0)) 0 0 = some { qp1 false with stopped := true }
      ∧ readHead (withEnt { qp1 false with stopped := true } (ent 1 0)) 0 { qp1 false with stopped := true } = (x, .ok (ent 1 0, false)))
    ∧ (∀ f ∈ ([0, 1] : List Byte), findQp (netAnswer (withQp { qp with ops := [op1 f (some 8)] }) 0 0 res0) 0 0 = some { qp with ops := [op1 f (some 8)] }
      ∧ Qp.full { qp with ops := [op1 f (some 8)] } = false
      ∧ findQp (netAnswer (withQp { qp with ops := [op1 f none] }) 0 0 res0) 0 0 = some { qp with ops := [{ op1 f none with res := some res0 }] }
      ∧ (netOutcome (netAnswer (withQp { qp with ops := [op1 f none] }) 0 0 res0) 0 0 { op1 f none with res := some res0 } res0).2 = some (0, 0, 0))
    ∧ qpMax w3 0 ≤ 0 ∧ (findQp (withEnt qp []) 0 0).isSome = true ∧ 0 < qpMax (withEnt qp []) 0 ∧ qp.ops = [] := by
  refine ⟨fun op h => ?_, ?_, by decide +kernel, by decide +kernel, by decide +kernel, by decide +kernel, rfl⟩
  · have hl : (ent op 0).length = 64 := rfl
    obtain ⟨x, hx⟩ := ent_reads (p := qp1 false) (ent op 0) hl rfl rfl rfl
    have hw : workCheck (ent op 0) = some 2 := by fin_cases h <;> decide
    refine ⟨x, x, rfl, rfl, by decide, hx, ?_, ?_, ?_, by unfold runWork; rw [hw]⟩ <;> fin_cases h <;> decide
  · obtain ⟨x, hx⟩ := ent_reads (p := { qp1 false with stopped := true }) (ent 1 0) rfl rfl rfl rfl
    exact ⟨x, rfl, hx⟩

/-! Inbound packets: a domain with VD 0 of another package, an evicted queue that holds a Send, and a region of VD 0 with every permission. -/

def dom : Domain := { vd := 0, peerPkg := some 1, peerVd := 3, key := [] }
def pkt : InPkt :=
  { port := 0, domain := some 7, lpid := 5, rkey := 0, rva := 8, len := 8, addend := 1, data := [1], prof := 2, pdc := 0, seq := 3, cseq := 3
    flagged := false, supported := true, gcmOk := true, src := [], rpid := 0 }
def withDom (p : Qp) : State := (withQp p).onNet fun n => { n with domains := [(7, dom)] }
def reg : Bytes := leBytes 8 0 ++ leBytes 8 65536 ++ [7, 0] ++ leBytes 2 7 ++ leBytes 2 0 ++ [1] ++ leBytes 9 0
def withReg (p : Nat) : State :=
  writeMem ((withDom qp).onNet fun n => { n with regs := [(0, { netFar with rkey := BitVec.ofNat 64 (4096 * p + 1) })] }) (4096 * p) reg
theorem small_reg (p : Nat) : Small (withReg p) := ⟨⟨0, rfl⟩, rfl, rfl, .inr (show 2 ^ 40 ≤ netFar.pages.toNat by decide)⟩
theorem region_ok (k : Nat) (hk : k ∈ [0, 1, 2]) : ∃ t, Moved (withReg 1) t
    ∧ region (withReg 1) 0 7 0 k 8 8 = (t, .ok 0) ∧ region (withReg 1) 0 7 0 k 8 1 = (t, .ok 0) := by
  obtain ⟨m, h, hs⟩ := small_greg (small_reg 1) 4096 32 (by decide)
  have hr : readMem (withReg 1) 4096 32 = reg := readMem_writeMem _ _ reg
  have hq : (netOf (withReg 1) 0).rkey.toNat = 4097 := rfl
  rw [hr] at h
  refine ⟨_, (small_reg 1).mem hs, ?_, ?_⟩ <;>
  · simp only [region, hq, Nat.zero_mod, Nat.mul_zero, Nat.add_zero, if_false, show ¬ (bits 4097 11 0 ≤ 0) by decide,
      show bits 4097 63 12 * 4096 = 4096 by decide, h]
    exact congrArg (Prod.mk _) (by fin_cases hk <;> decide)
/-- The Writes before the packet's have been performed, in its delivery context or among those of its initiator queue pair. -/
def flowed (ctx : Bool) : State := (withDom qp).onNet fun n => { n with flows := [{ dom := 7, src := [], ctx := ctx, id := 0, next := 3, more := [] }] }
theorem meets_InboundTraffic : pkt.domain = some 7 ∧ (withDom { qp with evicted := true }).net.domains.find 7 = some dom ∧ dom.peerPkg.isSome = true
    ∧ pkt.supported = true ∧ pkt.prof ≤ 2 ∧ pkt.gcmOk = true ∧ (sendTo (withDom qp) 0 { pkt with data := [] } false none).2 = .ok
    ∧ writeWaits (withDom qp) 7 pkt = false ∧ writeWaits (withDom qp) 7 { pkt with flagged := true } = true
    ∧ writeWaits (flowed false) 7 { pkt with flagged := true } = false ∧ writeWaits (flowed false) 7 { pkt with prof := 1 } = true
    ∧ writeWaits (flowed true) 7 { pkt with prof := 1 } = false
    ∧ ({ pkt with domain := none, lpid := Config.mgmtLpid, prof := 0 } : InPkt).lpid = Config.mgmtLpid ∧ pkt.data.length ≤ 1048576 := by
  refine ⟨rfl, rfl, rfl, rfl, by decide, rfl, by decide +kernel, by decide, by decide, by decide, by decide, by decide, rfl, by decide⟩
theorem meets_InboundTraffic_memory : (withReg 1).net.domains.find 7 = some dom ∧ (inWrite (withReg 1) 0 7 0 8 [1] false).2 = .ok
    ∧ (inRead (withReg 1) 0 7 0 8 8).2.1 = .ok ∧ (inFadd (withReg 1) 0 7 0 8 1).2.1 = .ok := by
  refine ⟨rfl, ?_, ?_, ?_⟩
  · obtain ⟨t, hs, -, h⟩ := region_ok 1 (by decide)
    obtain ⟨t2, h2⟩ := small_put hs.small (by rw [hs.lq]; rfl) 8 [1] (by decide) (by decide) (by decide)
    simp only [inWrite, List.length_singleton, h, h2]
  · obtain ⟨t, hs, h, -⟩ := region_ok 0 (by decide)
    obtain ⟨t2, h2, -⟩ := small_eng hs.small 8 8 (by decide)
    simp only [inRead, h, h2]
  · obtain ⟨t, hs, h, -⟩ := region_ok 2 (by decide)
    obtain ⟨t2, h2, k⟩ := small_eng hs.small 8 8 (by decide)
    have hl : ∀ x, (leBytes 8 x).length = 8 := fun _ => rfl
    obtain ⟨t3, h3⟩ := small_put k.small (by rw [k.lq, hs.lq]; rfl) 8 (leBytes 8 ((leNat (readMem t 8 8) + 1) % 2 ^ 64))
      (fun e => absurd (congrArg List.length e) (by simp [hl])) (by simp [hl]) (by simp [hl])
    simp only [inFadd, h, show ¬ (8 % 8 ≠ 0) by decide, if_false, h2, h3]

def port1 : BrazePort := { up := true, keyed := true, keyEpoch := 1, flits := 2 ^ 32, replays := 6 }
def far : RemoteOp := { port := 1, gid := 832, tid := 0, pkg := 1, frame := 0, off := 0, data := [1], store := true, atomic := false, owner := .task 1 }
def withPort (p : BrazePort) : State := (pick w0 0 0 0 1 0).onNet fun n => { n with braze := [(1, p)], remoteOps := [far] }
theorem meets_BrazeFlashAndDebug : (brazeOf (withPort port1) 1).up = true ∧ (brazeOf (withPort port1) 1).keyed = true
    ∧ (brazeOf (withPort port1) 1).replays < 7 ∧ 7 ≤ (brazeOf (withPort { port1 with replays := 7 }) 1).replays
    ∧ 2 ^ 32 ≤ (brazeOf (withPort port1) (withPort port1).sch.sel.n).flits
    ∧ ((withPort port1).net.remoteOps.filter (fun r => r.port == 1))[0]? = some far
    ∧ (w0.onMem (fun m => { m with fills := [(0, 2, 1, 9)] })).mem.fills.find? (fun f => f.1 == 0 && f.2.2 == (1, 9)) = some (0, 2, 1, 9) := by decide +kernel

/-- Each request of a block ring that its own fields decide, a flush, and one to complete. -/
def bent (op : Byte) : Bytes := [op, 0, 0, 0] ++ List.replicate 36 0 ++ List.replicate 20 0 ++ [0, 0, 0, 0x80]
theorem meets_BlockRings : (∀ op ∈ ([1, 2, 3, 4] : List Byte), ∃ x, findQp (withEnt (qp1 true) (bent op)) 0 0 = some (qp1 true)
      ∧ (qp1 true).cfg.block = true ∧ Qp.takes (qp1 true) = true ∧ readHead (withEnt (qp1 true) (bent op)) 0 (qp1 true) = (x, .ok (bent op, false))
      ∧ bit (wCtrl (bent op)) 31 = ownerBit (qp1 true).head (qp1 true).cfg.sqLog2 ∧ wOp (bent op) = op.toNat)
    ∧ blockCheck (bent 1) = some 1
    ∧ blockCheck (bent 4) = none ∧ wOp (bent 4) = 4
    ∧ (({ qp1 true with ops := [⟨0, bent 1, none, 0, 0, none⟩] } : Qp).ops.find? (fun r => r.idx == 0)) = some ⟨0, bent 1, none, 0, 0, none⟩
    ∧ Qp.full (qp1 true) = false := by
  refine ⟨fun op h => ?_, by decide, by decide, by decide, rfl, by decide⟩
  obtain ⟨x, hx⟩ := ent_reads (p := qp1 true) (bent op) rfl rfl rfl rfl
  fin_cases h <;> exact ⟨x, rfl, rfl, by decide, hx, by decide, by decide⟩


/-! The host's messages: handshakes, replies, events, and the requests that serving software answers. -/

def hs (mode b : Byte) : Bytes :=
  leBytes 4 rpcMagic ++ [1, 0] ++ leBytes 2 1 ++ leBytes 8 9 ++ leBytes 4 1696 ++ leBytes 12 0 ++ [mode, b] ++ List.replicate 1694 0
/-- VD 0 and VD 1 in RUN, with one exchange pending between VD 1 and VD 0 of package 0. -/
def up : State :=
  (setVd (setVd w0 0 (fun r => { r with st := .run })) 1 (fun r => { r with st := .run })).onRpc fun r =>
    { r with pending := [{ vd := 1, pkg := 0, peerVd := 0, dk := [] }] }
/-- The first n domain indices in use. -/
def inUse (n : Nat) : Tab Domain := (List.range n).map (fun i => (i, { dom with vd := 9 }))
theorem inUse_full {s : State} (d : Domain) (hd : d.vd ≠ 9) (n : Nat) (hn : 4096 ≤ n) (hs : s.net.domains = inUse n) :
    freeDomain (dropPair s d) = none := by
  have hf : (dropPair s d).net.domains = inUse n := by
    unfold dropPair
    rw [State.onNet_net, hs]
    refine List.filter_eq_self.mpr (fun e he => ?_)
    obtain ⟨i, -, rfl⟩ := List.mem_map.mp he
    have : ((9 : Nat) == d.vd) = false := by simpa using fun h => hd h.symm
    simp [this]
  have hfind : ∀ (l : List Nat) (i : Nat), i ∈ l → (Tab.find (l.map (fun i => (i, ({ dom with vd := 9 } : Domain)))) i).isSome = true := by
    intro l
    induction l with
    | nil => intro i h; cases h
    | cons a l ih =>
      intro i h
      simp only [List.map_cons, Tab.find]
      split_ifs with ha
      · rfl
      · exact ih i ((List.mem_cons.mp h).resolve_left (fun e => ha e.symm))
  refine List.find?_eq_none.mpr (fun i hi => ?_)
  rw [hf]
  have := hfind (List.range n) i (List.mem_range.mpr (lt_of_lt_of_le (List.mem_range.mp hi) hn))
  simp [inUse, Option.isNone_iff_eq_none, Option.isSome_iff_ne_none.mp this]
/-- No domain index is free. -/
def fullUp : State := up.onNet fun n => { n with domains := inUse 4096 }
theorem fullUp_domains : fullUp.net.domains = inUse 4096 := by unfold fullUp; rw [State.onNet_net]
theorem meets_Handshakes : (∀ m ∈ ([0, 1, 2, 3, 4] : List Byte), hMode (hs m 1) = m.toNat ∧ hShape (hs m (if m = 0 then 0 else 1)) = true ∧ mVd (hs m 1) = 0)
    ∧ field (mBody (hs 1 1)) 1 1 = 1 ∧ serveAtt up = up ∧ vdUp (serveAtt up) 1 = true
    ∧ (∀ m ∈ ([2, 3, 4] : List Byte), hCross (serveAtt up) (hs m 1) m.toNat = true ∧ hCross (serveAtt up) (hs m 2) m.toNat = false)
    ∧ (serveAtt up).rpc.pending.find? (isPending (hs 4 1)) = some { vd := 1, pkg := 0, peerVd := 0, dk := [] }
    ∧ (∀ d : Domain, freeDomain (dropPair up d) = some 0) ∧ ∀ d : Domain, d.vd ≠ 9 → freeDomain (dropPair fullUp d) = none := by
  refine ⟨by decide +kernel, by decide +kernel, by decide +kernel, by decide +kernel, by decide +kernel, by decide +kernel, fun d => ?_, fun d hd => inUse_full d hd _ (le_refl _) fullUp_domains⟩
  exact List.find?_range_eq_some.mpr ⟨rfl, by decide +kernel, fun j h => absurd h (Nat.not_lt_zero j)⟩


/-- A request in slot 0 of VD 0's area for a VD, with a page of memory and an event subscription. -/
def rq (vd : Nat) (call : BitVec 16) : RpcReq := { vd := vd, seq := 9, call := call, via := .ue 0 [] 0, was := 3 }
def withRq (q : RpcReq) (p : Nat) (b : Bytes) : State :=
  writeMem (onRpcVd (setVd w0 0 (fun r => { r with queue := 0x4000000000 })) 0 (fun r =>
    { r with slots := [(0, q)], rx := 1, subAddr := some (.ue 0 [] 0), subMask := 0x8000000000000000 })) (4096 * p) b
theorem small_rq (q : RpcReq) (p : Nat) (b : Bytes) : Small (withRq q p b) := ⟨⟨0, rfl⟩, rfl, rfl, .inl (show qpMax (setVd w0 0 (fun r => { r with queue := 0x4000000000 })) 0 = 0 by decide)⟩
theorem rq_mem (q : RpcReq) (p : Nat) (b : Bytes) : readMem (withRq q p b) (4096 * p) b.length = b := readMem_writeMem _ _ _
/-- Reading a message of b bytes: its header, then its body. -/
theorem msg_parts {s : State} (h : Small s) (a : Nat) (b : Bytes) (hm : readMem s a b.length = b) (hb : b.length = 32 + mLen (b.take 32))
    (hl : a + b.length ≤ 65536) : ∃ t u, gpaReadN s (regEng 0) a 32 = (t, .ok (b.take 32, false))
      ∧ gpaReadN t (regEng 0) (a + 32) (mLen (b.take 32)) = (u, .ok (b.drop 32, false)) ∧ Moved s u := by
  have hall : readMem s a (32 + mLen (b.take 32)) = b := by rw [← hb]; exact hm
  rw [readMem_append] at hall
  have ht : readMem s a 32 = b.take 32 := by
    have := congrArg (List.take 32) hall
    rwa [List.take_left' (by simp [readMem])] at this
  have hd : readMem s (a + 32) (mLen (b.take 32)) = b.drop 32 := by
    have := congrArg (List.drop 32) hall
    rwa [List.drop_left' (by simp [readMem])] at this
  obtain ⟨m1, e1, k1⟩ := small_greg h a 32 (by omega)
  have h1 := h.mem k1
  obtain ⟨m2, e2, k2⟩ := small_greg h1.small (a + 32) (mLen (b.take 32)) (by omega)
  rw [ht] at e1
  rw [h1.readMem, hd] at e2
  exact ⟨_, _, e1, e2, h1.trans (h1.small.mem k2)⟩
theorem msg_reads (q : RpcReq) (b : Bytes) (ok : Bytes → Bool) (hb : b.length = 32 + mLen (b.take 32)) (hl : b.length ≤ 4096)
    (hg : ¬(field (b.take 32) 0 4 ≠ rpcMagic ∨ field (b.take 32) 4 1 ≠ 1 ∨ field (b.take 32) 22 2 ≠ 0 ∨ maxBody < mLen (b.take 32)
      ∨ bit (mCall (b.take 32)) 15 = false ∨ ok (b.take 32) = false)) :
    ∃ y, readMsg (withRq q 1 b) 0 4096 ok = (y, .ok (b, false)) ∧ y.rpc = (withRq q 1 b).rpc := by
  obtain ⟨t, u, e1, e2, k⟩ := msg_parts (small_rq q 1 b) 4096 b (rq_mem q 1 b) hb (by omega)
  refine ⟨u, ?_, k.rpc⟩
  unfold readMsg
  simp only [e1, if_neg hg, e2, List.take_append_drop, Bool.or_self]
/-- The body of the request in slot 0, which lies at address 0. -/
theorem body_reads {s : State} (h : Small s) (hg : slotGpa s 0 0 = 0) (b : Bytes) (hm : readMem s 0 b.length = b)
    (hb : b.length = 32 + mLen (b.take 32)) (hl : b.length ≤ 4096) : ∃ y, slotBody s 0 0 = (y, some (b.drop 32)) ∧ Moved s y := by
  obtain ⟨t, u, e1, e2, k⟩ := msg_parts h 0 b hm hb (by omega)
  rw [Nat.zero_add] at e2
  obtain ⟨m1, e3, k1⟩ := small_greg h 0 32 (by omega)
  rw [e1] at e3
  have ht : slotGpa t 0 0 = 0 := by rw [(Prod.mk.inj e3).1]; exact hg
  exact ⟨u, by simp only [slotBody, hg, e1, ht, Nat.zero_add, e2], k⟩
theorem rq_slot (q : RpcReq) (b : Bytes) : slotGpa (withRq q 0 b) 0 0 = 0 :=
  show bits (1#64).toNat 63 20 * 1048576 + 1048576 * 0 = 0 by decide
theorem rq_body (q : RpcReq) (b : Bytes) (hb : b.length = 32 + mLen (b.take 32)) (hl : b.length ≤ 4096) :
    ∃ y, slotBody (withRq q 0 b) 0 0 = (y, some (b.drop 32)) := by
  obtain ⟨y, h, -⟩ := body_reads (small_rq q 0 b) (rq_slot q b) b (rq_mem q 0 b) hb hl
  exact ⟨y, h⟩
/-- A slot in a frame that VD 0 does not own. -/
def farSlot (q : RpcReq) : State := onRpcVd (withRq q 0 []) 0 (fun r => { r with rx := 0x100001 })

/-- Zeros are no message. -/
theorem no_msg (q : RpcReq) (ok : Bytes → Bool) : ∃ y, readMsg (withRq q 1 (List.replicate 32 0)) 0 4096 ok = (y, .error (some 2)) := by
  obtain ⟨t, u, e1, -, -⟩ := msg_parts (small_rq q 1 (List.replicate 32 0)) 4096 (List.replicate 32 0) (rq_mem q 1 _) (by decide) (by decide)
  refine ⟨t, ?_⟩
  unfold readMsg
  simp only [e1]
  rw [if_pos (Or.inl (by decide))]
def reply1 : Bytes := replyMsg 1 0x100 9 0 []
/-- An event of a code. -/
def event (code : Nat) : Bytes := replyMsg 0 0x180 0 0 (leBytes 2 code)
/-- A reply that goes out and one that does not; an event of code 63, the highest, that is subscribed, of code 62 that is not and of
code 64. -/
theorem meets_ReplyRegister :
    (∃ y, (rpcOf (withRq (rq 1 0x100) 1 reply1) 0).slots.find 0 = some (rq 1 0x100) ∧ 0 < bits (rpcOf (withRq (rq 1 0x100) 1 reply1) 0).rx.toNat 4 0
      ∧ (rpcOf (withRq (rq 1 0x100) 1 reply1) 0).slots.find 1 = none
      ∧ readMsg (withRq (rq 1 0x100) 1 reply1) 0 (4096 / 64 * 64)
          (fun h => field h 5 1 == 1 && mSeq h == 9 && mCall h == 0x100 % 32768 + 32768) = (y, .ok (reply1, false)))
    ∧ (∀ ok : Bytes → Bool, ∃ y, readMsg (withRq (rq 1 0x100) 1 (List.replicate 32 0)) 0 (4096 / 64 * 64) ok = (y, .error (some 2)))
    ∧ ∀ code ∈ [62, 63, 64], ∃ y, readMsg (withRq (rq 1 0x100) 1 (event code)) 0 (4096 / 64 * 64)
        (fun h => field h 5 1 == 0 && mCall h == 0x8180) = (y, .ok (event code, false)) ∧ field (mBody (event code)) 0 2 = code
        ∧ (rpcOf y 0).subAddr = some (.ue 0 [] 0) ∧ bit (rpcOf y 0).subMask.toNat code = decide (code = 63) := by
  refine ⟨?_, fun ok => no_msg (rq 1 0x100) ok, fun code hc => ?_⟩
  · obtain ⟨y, h, -⟩ := msg_reads (rq 1 0x100) reply1 (fun h => field h 5 1 == 1 && mSeq h == 9 && mCall h == 0x100 % 32768 + 32768)
      (by decide) (by decide) (by decide)
    exact ⟨y, rfl, show 0 < bits (1#64).toNat 4 0 by decide, rfl, h⟩
  · obtain ⟨y, h, hr⟩ := msg_reads (rq 1 0x100) (event code) (fun h => field h 5 1 == 0 && mCall h == 0x8180)
      (by fin_cases hc <;> decide) (by fin_cases hc <;> decide) (by fin_cases hc <;> decide)
    have hy : rpcOf y 0 = rpcOf (withRq (rq 1 0x100) 0 []) 0 := by unfold rpcOf; rw [hr]; rfl
    refine ⟨y, h, by fin_cases hc <;> decide, by rw [hy]; rfl, ?_⟩
    rw [hy]
    fin_cases hc <;> decide +kernel

/-- Registers 1 to 9 of a VD that may run. -/
def quota : List (BitVec 64) := [0x0000200040010010, 0, 0x10001, 0x100, 0x0001014000001000, 0, 0, 0, 0]
/-- VD 1 in a state, with slot 0 of the calendar, and the request of a call. -/
def vd1 (st : VdSt) (call : BitVec 16) : State :=
  (onRpcVd (setVd State.reset 1 (fun r => { r with st := st })) 0 (fun r => { r with slots := [(0, rq 0 call)], rx := 1 })).onVds fun c =>
    { c with calLast := c.calLast.set 0 1 }
theorem meets_MonitorCalls : (∀ st call, (rpcOf (vd1 st call) 0).slots.find 0 = some (rq 0 call)) ∧ quota.length = 9 ∧ (1 : Vd).val ≠ 0
    ∧ vdState (vdBuild (vd1 .empty 0x10) 1) 1 = .built ∧ vdState (vd1 .run 0x10) 1 ≠ .empty
    ∧ vdRuns (vdRun ((List.range 9).foldl (fun y j => vdqWrite y 1 (j + 1) (quota.getD j 0)) (vdBuild (vd1 .empty 0x10) 1)) 1) 1 = true
    ∧ vdRuns (vdRun ((List.range 9).foldl (fun y j => vdqWrite y 1 (j + 1) ((quota.set 4 0).getD j 0)) (vdBuild (vd1 .empty 0x10) 1)) 1) 1 = false
    ∧ vdState (vd1 .built 0x11) 1 = .built ∧ vdState (vdDestroy (vd1 .built 0x11) 1) 1 = .empty ∧ vdState (vd1 .empty 0x12) 1 = .empty
    ∧ vdState (vd1 .resetting 0x13) 1 = .resetting ∧ (∀ k : Fin 10, k = 5 ∨ k = 9 → k.val ≠ 0 ∧ k.val ≠ 6)
    ∧ (∀ j < 4, calRead ((List.range 4).foldl (fun y j => calWrite y j (([0, 0, 0, 1] : List (BitVec 64)).getD j 0)) (vd1 .empty 0x14)) j
        = (([0, 0, 0, 1] : List (BitVec 64)).getD j 0).toNat)
    ∧ (∃ j < 4, calRead ((List.range 4).foldl (fun y j => calWrite y j 0x1111111111111111) (vd1 .empty 0x14)) j ≠ 0x1111111111111111)
    ∧ ([] : Bytes).length < 1 ∧ 0 ≤ ([] : Bytes).length ∧ callKnown 0x16 0 = false ∧ callKnown 0x15 1 = false :=
  ⟨fun _ _ => rfl, by decide +kernel⟩
/-- ATTEST with a nonce of 64 bytes, with one of 63, and from a slot that cannot be read. -/
theorem meets_MonitorCalls_attest : (∀ n ∈ [63, 64], ∃ y b, (rpcOf (withRq (rq 1 2) 0 (replyMsg 1 2 9 0 (List.replicate n 0))) 0).slots.find 0
      = some (rq 1 2) ∧ slotBody (withRq (rq 1 2) 0 (replyMsg 1 2 9 0 (List.replicate n 0))) 0 0 = (y, some b) ∧ b.length = n)
    ∧ (rpcOf (farSlot (rq 1 2)) 0).slots.find 0 = some (rq 1 2) ∧ (slotBody (farSlot (rq 1 2)) 0 0).2 = none := by
  refine ⟨fun n hn => ?_, rfl, by decide +kernel⟩
  fin_cases hn
  · obtain ⟨y, h⟩ := rq_body (rq 1 2) (replyMsg 1 2 9 0 (List.replicate 63 0)) (by decide) (by decide)
    exact ⟨y, _, rfl, h, by decide⟩
  · obtain ⟨y, h⟩ := rq_body (rq 1 2) (replyMsg 1 2 9 0 (List.replicate 64 0)) (by decide) (by decide)
    exact ⟨y, _, rfl, h, by decide⟩


/-- A request in VD 0's slot, for a VD whose launch queue lies at page p with 16 entries. -/
def withLq (q : RpcReq) (b : Bytes) (p : Nat) (tail : BitVec 16) : State :=
  onLqRegs (withRq q 0 b) 0 (fun l => { l with base := BitVec.ofNat 64 (4096 * p), tail := tail })
theorem small_lq (q : RpcReq) (b : Bytes) (p : Nat) (t : BitVec 16) : Small (withLq q b p t) := ⟨⟨0, rfl⟩, rfl, rfl, (small_rq q 0 b).net⟩
theorem lq_slot (q : RpcReq) (b : Bytes) (p : Nat) (t : BitVec 16) : slotGpa (withLq q b p t) 0 0 = 0 := rq_slot q b
theorem lq_mem (q : RpcReq) (b : Bytes) (p : Nat) (t : BitVec 16) : readMem (withLq q b p t) 0 b.length = b := rq_mem q 0 b
/-- The queue of a state that differs from such a one in caches alone. -/
theorem lq_base {q : RpcReq} {b : Bytes} {p : Nat} {y : State} {t : BitVec 16} (k : Moved (withLq q b p t) y) (hp : p ≤ 6) :
    lqBase y 0 = 4096 * p ∧ lqLog2 y 0 = 4 := by
  have h1 : lqLog2 y 0 = 4 := by
    unfold lqLog2 vdRec
    rw [k.vds]
    exact show bits (0x4000000000#64).toNat 39 36 = 4 by decide
  have h2 : (lqOf y 0).base.toNat = 4096 * p := by
    unfold lqOf
    rw [k.lq]
    exact (BitVec.toNat_ofNat _ _).trans (Nat.mod_eq_of_lt (by omega))
  refine ⟨?_, h1⟩
  unfold lqBase
  rw [h1, h2]
  omega
def mapReq (va len gpa : Nat) : MapReq := { asid := 0, va := va, len := len, perm := 3, source := .frames gpa, pool := [] }
def withWindow : State := (withRq (rq 1 0x102) 0 []).onTrn fun t => { t with windows := [(0, 0, 1, 2, .flash 1 9)] }
theorem meets_GuestCalls : (∀ call, (rpcOf (withRq (rq 1 call) 0 []) 0).slots.find 0 = some (rq 1 call)) ∧ (rq 0 0x104).vd = 0 ∧ (rq 1 0x100).vd ≠ 0
    ∧ callKnown 0x106 1 = false ∧ callKnown 0xFF 1 = false ∧ (0x100 : BitVec 16).toNat ≤ 0x104
    ∧ pageRange 4096 4096 = true ∧ pageRange 4097 4096 = false ∧ overlap 1 2 1 1 = true ∧ (mapReq 4096 4096 (2 ^ 48 - 4096)).source = .frames (2 ^ 48 - 4096)
    ∧ (2 ^ 48 - 4096) + 4096 ≤ 2 ^ 48 ∧ 2 ^ 48 < 2 ^ 48 - 4095 + 4096
    ∧ (∃ w ∈ withWindow.trn.windows, w.2.2.1 < 8192 / 4096 ∨ (8192 + 4096) / 4096 < w.2.2.1 + w.2.2.2.1)
    ∧ (∀ w ∈ withWindow.trn.windows, ¬ (w.2.2.1 < 4096 / 4096 ∨ (4096 + 8192) / 4096 < w.2.2.1 + w.2.2.2.1))
    ∧ (∃ y b, engReadN (withRq (rq 1 0x103) 0 []) (ioEng 0 0) 64 8 = (y, .ok (b, false)) ∧ ∀ b', b' ≠ [] → b'.length ≤ 8 →
        ∃ z, engWriteN y (ioEng 0 0) 128 b' = (z, .ok ()))
    ∧ (engReadN (withRq (rq 1 0x103) 0 []) (ioEng 0 0) (2 ^ 47) 8).2 = .error (.xl (.page false (2 ^ 47)))
    ∧ (slotBody (farSlot (rq 1 0x100)) 0 0).2 = none := by
  refine ⟨fun _ => rfl, rfl, by decide, by decide, by decide, by decide, by decide, by decide, by decide, rfl, by decide, by decide, by decide,
    by decide, ?_, by decide +kernel, by decide +kernel⟩
  obtain ⟨t, h, k⟩ := small_eng (small_rq (rq 1 0x103) 0 []) 64 8 (by decide)
  exact ⟨t, _, h, fun b' hb hl => small_put k.small (by rw [k.lq]; rfl) 128 b' hb (by omega) (by omega)⟩
/-- LAUNCH with a record of 256 bytes and the launch queue full, and with one free entry; and with one of 255 bytes. -/
def record (n : Nat) : Bytes := replyMsg 1 0x100 9 0 (List.replicate n 0)
theorem meets_GuestCalls_launch : (∃ y b, slotBody (withRq (rq 1 0x100) 0 (record 255)) 0 0 = (y, some b) ∧ b.length ≠ 256)
    ∧ (∃ y b, slotBody (withLq (rq 1 0x100) (record 256) 2 16) 0 0 = (y, some b) ∧ b.length = 256
        ∧ 2 ^ lqLog2 y 0 ≤ ((lqOf y 0).tail - (lqOf y 0).head).toNat)
    ∧ ∃ p y b, slotBody (withLq (rq 1 0x100) (record 256) p 15) 0 0 = (y, some b) ∧ b.length = 256
        ∧ ¬ (2 ^ lqLog2 y 0 ≤ ((lqOf y 0).tail - (lqOf y 0).head).toNat) ∧ y.lq.launches = []
        ∧ ∀ b : Bytes, b.length = 256 → ∃ z, gpaWriteN y (ioEng 0 0) (lqBase y 0 + 256 * ((lqOf y 0).tail.toNat % 2 ^ lqLog2 y 0)) b = (z, .ok ()) := by
  have hr : (record 256).length = 32 + mLen ((record 256).take 32) := by decide +kernel
  refine ⟨?_, ?_, ?_⟩
  · obtain ⟨y, h⟩ := rq_body (rq 1 0x100) (record 255) (by decide +kernel) (by decide +kernel)
    exact ⟨y, _, h, by decide +kernel⟩
  · obtain ⟨y, h, k⟩ := body_reads (small_lq (rq 1 0x100) (record 256) 2 16) (lq_slot _ _ _ _) _ (lq_mem _ _ _ _) hr (by decide +kernel)
    refine ⟨y, _, h, by decide +kernel, ?_⟩
    rw [(lq_base k (by decide +kernel)).2]
    unfold lqOf
    rw [k.lq]
    exact show 2 ^ 4 ≤ ((16 : BitVec 16) - 0).toNat by decide
  · obtain ⟨p, h1, h2, h3⟩ := free_page
    obtain ⟨y, h, k⟩ := body_reads (small_lq (rq 1 0x100) (record 256) p 15) (lq_slot _ _ _ _) _ (lq_mem _ _ _ _) hr (by decide +kernel)
    obtain ⟨hb, hl⟩ := lq_base k h2
    have ht : lqOf y 0 = lqOf (withLq (rq 1 0x100) (record 256) p 15) 0 := by unfold lqOf; rw [k.lq]
    refine ⟨p, y, _, h, by decide +kernel, ?_, by rw [k.lq]; rfl, fun b hb' => ?_⟩
    · rw [hl, ht]; exact show ¬ (2 ^ 4 ≤ ((15 : BitVec 16) - 0).toNat) by decide
    · rw [hb, hl, ht]
      exact small_gput k.small (by rw [k.lq]; rfl) h2 h3 0 (256 * (15 % 2 ^ 4)) b (by omega)
/-- QUERY of each item, of code 5, which there is none of, and of a launch's status at index 15; SUBSCRIBE with events 0 to 4, and with
event 5 as well. -/
def question (item arg : Nat) : Bytes := replyMsg 1 0x104 9 0 (leBytes 8 item ++ leBytes 8 arg)
def mask (m : Nat) : Bytes := replyMsg 1 0x105 9 0 (leBytes 8 m)
theorem meets_GuestCalls_query : (∀ item ∈ [0, 1, 2, 3, 4, 5], ∀ arg ∈ [0, 15, 65536], ∃ y b,
      slotBody (withRq (rq 1 0x104) 0 (question item arg)) 0 0 = (y, some b) ∧ b.length = 16 ∧ zeros b 2 8 = true ∧ field b 0 2 = item ∧ field b 8 8 = arg)
    ∧ (∃ p y b x w, slotBody (withLq (rq 1 0x104) (question 2 15) p 0) 0 0 = (y, some b) ∧ y.lq.launches = []
        ∧ gpaReadN y (ioEng 0 0) (lqBase y 0 + 256 * (15 % 2 ^ lqLog2 y 0) + 56) 8 = (x, .ok (w, false)))
    ∧ ∀ m ∈ [31, 32], ∃ y b, slotBody (withRq (rq 1 0x105) 0 (mask m)) 0 0 = (y, some b) ∧ b.length = 8 ∧ field b 0 8 = m := by
  refine ⟨fun item hi arg ha => ?_, ?_, fun m hm => ?_⟩
  · obtain ⟨y, h⟩ := rq_body (rq 1 0x104) (question item arg) (by fin_cases hi <;> fin_cases ha <;> decide) (by fin_cases hi <;> fin_cases ha <;> decide)
    exact ⟨y, _, h, by fin_cases hi <;> fin_cases ha <;> decide⟩
  · obtain ⟨p, h1, h2, h3⟩ := free_page
    obtain ⟨y, h, k⟩ := body_reads (small_lq (rq 1 0x104) (question 2 15) p 0) (lq_slot _ _ _ _) _ (lq_mem _ _ _ _) (by decide) (by decide)
    obtain ⟨hb, hl⟩ := lq_base k h2
    obtain ⟨m, hm, -⟩ := small_gpa k.small h2 h3 0 (256 * (15 % 2 ^ 4) + 56) 8 (by decide)
    exact ⟨p, y, _, _, _, h, by rw [k.lq]; rfl, by rw [hb, hl]; exact hm⟩
  · obtain ⟨y, h⟩ := rq_body (rq 1 0x105) (mask m) (by fin_cases hm <;> decide) (by fin_cases hm <;> decide)
    exact ⟨y, _, h, by fin_cases hm <;> decide⟩

def vdsel (st : VdSt) : State := pick (vd1 st 0) 1 0 0 0 0
theorem meets_VirtualDeviceLife : (∀ st ∈ [VdSt.empty, .built, .run, .resetting], (vdsel st).sch.sel.vd.val ≠ 0 ∧ (vdRec (vdsel st) 1).st = st)
    ∧ State.reset.sch.sel.vd.val = 0 ∧ freeKid (vdsel .empty) = some 1
    ∧ freeKid ((vdsel .empty).onTrn fun t => { t with solder := (List.range 63).map (fun i => (i, { Solder.reset with en := true, kid := BitVec.ofNat 6 (i + 1) })) }) = none
    ∧ runReason ((List.range 9).foldl (fun y j => vdqWrite y 1 (j + 1) (quota.getD j 0)) (vdsel .built)) 1 = 0 ∧ runReason (vdsel .built) 1 = 1
    ∧ (∀ e ∈ (vdsel .built).trn.fot, ¬ (e.2.st = .owned ∧ e.2.owner = 1))
    ∧ ∃ e ∈ (setFrame (vdsel .built) 5 { Frame.free with st := .owned, owner := 1 }).trn.fot, e.2.st = .owned ∧ e.2.owner = 1 := by decide +kernel
theorem meets_QuotasCalendarAndRings : 1 ≤ (5 : Fin 10).val ∧ (5 : Fin 10).val ≤ 5 ∧ vdState (vd1 .empty 0) 1 = .empty ∧ vdState (vd1 .run 0) 1 = .run
    ∧ ((9 : Fin 10).val = 7 ∨ (9 : Fin 10).val = 8 ∨ (9 : Fin 10).val = 9) ∧ csrFind 0 0x3FFF = none ∧ (csrFind 0 0x2100).isSome = true
    ∧ bit (ringOf (State.reset.onRas fun r => { r with rings := [(1, { RasRing.reset with base := 0x19 })] }) 1).base.toNat 0 = true
    ∧ bit (ringOf State.reset 1).base.toNat 0 = false := by decide +kernel

def launch1 (b : Bytes) : Launch :=
  { lid := 0, prev := none, vd := 0, idx := 0, slotVa := 0, asid := 0, record := b, rank := 0, nbrs := [], shareBase := 0, shareCnt := 2 ^ 32, cursor := 0
    dispatched := 0, resident := 0, ended := 0, teamDie := [], replays := 0, killing := none, snap := [] }
/-- A window of one frame, free or in use, between VDs 1 and 2 in RUN. -/
def withSolder (en : Bool) (count : Nat) : State :=
  (pick (setVd (vd1 .run 0) 2 (fun r => { r with st := .run })) 1 0 0 5 0).onTrn fun t =>
    { t with solder := [(5, { Solder.reset with en := en, range := BitVec.ofNat 64 (2 ^ 48 * count + 5) })] }
/-- VD 1's stage 2 with the pages 1 to 6 of level 0: page 1 in frame 5, and in frame 2 the address-space table at page 2 and the stage-1
tables of address space 0, which map virtual page 0 to page 1; a pool of one frame; virtual page 0 is under a snapshot. -/
def withSnap : State :=
  ((([(0x10000, 0x11001), (0x11000, 0x12001), (0x12000, 0x13001), (0x13008, 0x5108F), (0x13010, 0x2008F), (0x13018, 0x2108F), (0x13020, 0x2208F),
      (0x13028, 0x2308F), (0x13030, 0x2408F), (0x20000, 0x3001), (0x21000, 0x4001), (0x22000, 0x5001), (0x23000, 0x6001), (0x24000, 0x108F),
      (0x8000, 9)] : List (Nat × Nat)).foldl (fun s e => writeMem s e.1 (leBytes 8 e.2)) (withSolder true 1)).onTrn fun t =>
    { t with regs := [(1, { TrnRegs.reset with s2 := 0x10001, astb := 0x2000 })], pools := [(1, { ShdPool.reset with pool := 0x8000, count := 1 })]
             fot := [(1, { Frame.free with st := .owned, owner := 0 }), (2, { Frame.free with st := .owned, owner := 1 }), (5, { Frame.free with st := .owned, owner := 1 }),
                     (9, { Frame.free with st := .owned, owner := 0 })] }).onLq fun q =>
    { q with launches := [{ launch1 [] with lid := 4, vd := 1, snap := [(0, 64)] }] }
theorem find_none {α : Type} : ∀ (t : Tab α) (i : Nat), (∀ c ∈ t, c.1 ≠ i) → t.find i = none
  | [], _, _ => rfl
  | (k, v) :: t, i, h => by
    rw [Tab.find, if_neg (h (k, v) (List.mem_cons_self ..))]
    exact find_none t i fun c hc => h c (List.mem_cons_of_mem _ hc)
/-- A table word with no byte listed. -/
theorem tableWord_zero {s : State} {a : Nat} (hl : s.mem.l2 = []) (h : ∀ c ∈ s.mem.cells, c.1 < a ∨ a + 8 ≤ c.1) : tableWord s a = 0 := by
  have hm : readMem s a 8 = List.replicate 8 0 := by
    unfold readMem
    rw [List.eq_replicate_iff]
    refine ⟨by simp, fun b hb => ?_⟩
    obtain ⟨i, hi, rfl⟩ := List.mem_map.1 hb
    have hi := List.mem_range.1 hi
    simp [readByte, cellAt, Tab.at, find_none s.mem.cells (a + i) (fun c hc => by have := h c hc; omega)]
  simp only [tableWord, hl, List.find?_nil, ptRead, hm]
  decide
/-- A stage-2 table is read as far as memory lists bytes of it. -/
theorem leavesNaming_few {s : State} {f table gpa n : Nat} (k : Nat) (hl : s.mem.l2 = []) (hk : k ≤ 512)
    (h : ∀ c ∈ s.mem.cells, c.1 < table + 8 * k ∨ table + 4096 ≤ c.1) :
    leavesNaming s f table gpa (n + 1) = (List.range k).flatMap (fun i =>
      let e := tableWord s (table + 8 * i)
      if !bit e 0 || !s2Ok e n then []
      else if bit e 7 then
        if bits e 49 48 = 0 ∧ bits e 47 12 * 4096 / 65536 ≤ f ∧ f ≤ (bits e 47 12 * 4096 + levelSize n - 1) / 65536 then
          [(table + 8 * i, e, n, gpa + levelSize n * i)]
        else []
      else leavesNaming s f (bits e 47 12 * 4096) (gpa + levelSize n * i) n) := by
  have hr : List.range 512 = List.range k ++ (List.range (512 - k)).map (k + ·) := by
    rw [← List.range_add, Nat.add_sub_cancel' hk]
  rw [leavesNaming, hr, List.flatMap_append]
  refine (congrArg _ (List.flatMap_eq_nil_iff.2 fun i hi => ?_)).trans (List.append_nil _)
  obtain ⟨j, hj, rfl⟩ := List.mem_map.1 hi
  have hj := List.mem_range.1 hj
  have hz : tableWord s (table + 8 * (k + j)) = 0 := tableWord_zero hl fun c hc => by have := h c hc; omega
  simp [hz, show bit 0 0 = false from rfl]
/-- A table whose first word alone is listed, and names another table. -/
theorem leavesNaming_down {s : State} {f table gpa n e : Nat} (hl : s.mem.l2 = []) (h : ∀ c ∈ s.mem.cells, c.1 < table + 8 * 1 ∨ table + 4096 ≤ c.1)
    (he : tableWord s table = e) (hb : bit e 0 = true ∧ s2Ok e n = true ∧ bit e 7 = false) :
    leavesNaming s f table gpa (n + 1) = leavesNaming s f (bits e 47 12 * 4096) gpa n := by
  rw [leavesNaming_few 1 hl (by decide) h]
  simp [he, hb.1, hb.2.1, hb.2.2]
theorem snap_names : frameNames withSnap 1 5 = [(0x13008, 0x5108F, 0, 0x1000)] := by
  have hl : withSnap.mem.l2 = [] := rfl
  have down : ∀ {n : Nat} (table next : Nat), (∀ c ∈ withSnap.mem.cells, c.1 < table + 8 * 1 ∨ table + 4096 ≤ c.1) → tableWord withSnap table = next + 1 →
      (bit (next + 1) 0 = true ∧ s2Ok (next + 1) n = true ∧ bit (next + 1) 7 = false) →
      bits (next + 1) 47 12 * 4096 = next →
      leavesNaming withSnap 5 table 0 (n + 1) = leavesNaming withSnap 5 next 0 n := fun t x h1 h2 h3 h4 => (leavesNaming_down hl h1 h2 h3).trans (by rw [h4])
  rw [frameNames, if_pos (by decide +kernel), show bits (trnOf withSnap 1).s2.toNat 63 12 * 4096 = 0x10000 by decide +kernel]
  rw [down 0x10000 0x11000 (by decide +kernel) (by decide +kernel) (by decide +kernel) (by decide +kernel),
    down 0x11000 0x12000 (by decide +kernel) (by decide +kernel) (by decide +kernel) (by decide +kernel),
    down 0x12000 0x13000 (by decide +kernel) (by decide +kernel) (by decide +kernel) (by decide +kernel),
    leavesNaming_few 7 hl (by decide) (by decide +kernel)]
  decide +kernel
theorem meets_SolderAndShadows_snapshot : snapOf withSnap 1 5 = some (4, 0) ∧ (poolOf withSnap 1).used ≠ (poolOf withSnap 1).count
    ∧ (frameAt withSnap (poolEntry withSnap 1 0)).st = .owned ∧ (frameAt withSnap (poolEntry withSnap 1 0)).owner = 0
    ∧ frameLeaves withSnap 1 5 = some [(0x13008, 0x1000)] := by
  rw [snapOf, frameLeaves, snap_names]
  decide +kernel
theorem meets_SolderAndShadows : (solderOf (withSolder true 1) 5).en = true ∧ (solderOf (withSolder false 1) 5).en = false
    ∧ solderRefused (withSolder false 0) { solderOf (withSolder false 0) 5 with vda := 1, vdb := 2 } = true
    ∧ wordsGood (withSolder false 1) { solderOf (withSolder false 1) 5 with vda := 1, vdb := 2 } = some false
    ∧ snapOf (withSolder true 1) 1 5 = none :=
  ⟨by decide +kernel, by decide +kernel, by decide +kernel, by
    have h : ∀ v, v ≠ 0 → ∀ a, wordGood (withSolder false 1) v a = some false := fun v hv a => by
      have h2 : bit (trnOf (withSolder false 1) v).s2.toNat 0 = false := show bit (0#64).toNat 0 = false by decide
      rcases h : isRegPage (withSolder false 1) v a <;> simp [wordGood, gpaPeek, stage2, h, h2, hv, Target.plus]
    exact congrArg₂ bothOk (h 1 (by decide) _) (h 2 (by decide) _), by decide +kernel⟩


def ntlb1 (v set gpa size a : Nat) : NtlbEntry :=
  { cluster := 0, set := set, way := 0, vd := v, gpa := gpa, size := size, target := .spa a, r := true, w := true, x := true, d2 := true, leaf2 := 0, raw2 := 0
    stamp := 0 }
/-- VDs 1 and 2 in RUN with stage 2, a handoff word of each on a frame of its own, and one free frame in the window. -/
def goodSolder (p1 p2 : Nat) : State :=
  (pick (setVd (vd1 .run 0) 2 (fun r => { r with st := .run })) 1 0 0 5 0).onTrn fun t =>
    { t with
      solder := [(5, { Solder.reset with range := 0x1000000000005, hwa := BitVec.ofNat 64 (4096 * p1), hwb := BitVec.ofNat 64 (4096 * p2) })]
      regs := [(1, { TrnRegs.reset with s2 := 1 }), (2, { TrnRegs.reset with s2 := 1 })]
      ntlb := [ntlb1 1 p1 0 65536 (65536 * 7), ntlb1 2 p2 0 65536 (65536 * 8)]
      fot := [(7, { Frame.free with st := .owned, owner := 1 }), (8, { Frame.free with st := .owned, owner := 2 })] }
theorem good_off (p1 p2 v : Nat) (hv : v = 1 ∨ v = 2) : OffNet (goodSolder p1 p2) v := by
  rcases hv with rfl | rfl
  · exact .inl (show qpMax (setVd (vd1 .run 0) 2 (fun r => { r with st := .run })) 1 = 0 by decide)
  · exact .inl (show qpMax (setVd (vd1 .run 0) 2 (fun r => { r with st := .run })) 2 = 0 by decide)
theorem word_ok (p1 p2 v p : Nat) (hv : v = 1 ∧ p = p1 ∨ v = 2 ∧ p = p2) (hp : p ≤ 6)
    (hr : ∀ s : State, OffNet s v → ∀ x, x / 4096 = p → isRegPage s v x = false) : wordGood (goodSolder p1 p2) v (4096 * p) = some true := by
  have h0 : 4096 * p / 65536 = 0 := by omega
  have h1 : bits (4096 * p) 18 12 = p := by simp [bits]; omega
  have hg := hr _ (good_off p1 p2 v (by omega)) (4096 * p) (by omega)
  have he : ∃ e, (goodSolder p1 p2).trn.ntlb.find? (fun e => e.hits 0 v (4096 * p) && e.w) = some e ∧ e.target = .spa (65536 * (6 + v)) ∧ e.size = 65536
      ∧ e.w = true := by
    rcases hv with ⟨rfl, rfl⟩ | ⟨rfl, rfl⟩
    · exact ⟨ntlb1 1 p 0 65536 (65536 * 7), by
        show [ntlb1 1 p 0 65536 (65536 * 7), ntlb1 2 p2 0 65536 (65536 * 8)].find? _ = _
        simp [ntlb1, NtlbEntry.hits, h0, h1], rfl, rfl, rfl⟩
    · exact ⟨ntlb1 2 p 0 65536 (65536 * 8), by
        show [ntlb1 1 p1 0 65536 (65536 * 7), ntlb1 2 p 0 65536 (65536 * 8)].find? _ = _
        simp [ntlb1, NtlbEntry.hits, h0, h1], rfl, rfl, rfl⟩
  obtain ⟨e, he, ht, hz, hw⟩ := he
  have hs : bit (trnOf (goodSolder p1 p2) v).s2.toNat 0 = true := by rcases hv with ⟨rfl, -⟩ | ⟨rfl, -⟩ <;> exact show bit (1#64).toNat 0 = true by decide
  have hf : (65536 * (6 + v) + 4096 * p % 65536) / 65536 = 6 + v := by omega
  have ho : ownsFrame (goodSolder p1 p2) v (65536 * (6 + v) + 4096 * p % 65536) = true := by
    unfold ownsFrame
    rw [hf]
    rcases hv with ⟨rfl, -⟩ | ⟨rfl, -⟩ <;> rfl
  simp only [wordGood, gpaPeek, stage2, hg, Bool.false_eq_true, if_false, hs, Bool.true_eq_false, if_true, he, hw, Bool.not_true, ht, hz, Target.plus, ho]
theorem meets_SolderAndShadows_enable : ∃ p1 p2, (solderOf (goodSolder p1 p2) 5).en = false ∧ freeKid (goodSolder p1 p2) = some 1
    ∧ solderRefused (goodSolder p1 p2) { solderOf (goodSolder p1 p2) 5 with vda := 1, vdb := 2 } = false
    ∧ wordsGood (goodSolder p1 p2) { solderOf (goodSolder p1 p2) 5 with vda := 1, vdb := 2 } = some true := by
  obtain ⟨p1, -, h1, r1⟩ := free_page_of 1
  obtain ⟨p2, -, h2, r2⟩ := free_page_of 2
  refine ⟨p1, p2, rfl, rfl, ?_⟩
  rw [and_comm]
  have e1 : (BitVec.ofNat 64 (4096 * p1)).toNat = 4096 * p1 := (BitVec.toNat_ofNat _ _).trans (Nat.mod_eq_of_lt (by omega))
  have e2 : (BitVec.ofNat 64 (4096 * p2)).toNat = 4096 * p2 := (BitVec.toNat_ofNat _ _).trans (Nat.mod_eq_of_lt (by omega))
  have w1 := word_ok p1 p2 1 p1 (.inl ⟨rfl, rfl⟩) h1 r1
  have w2 := word_ok p1 p2 2 p2 (.inr ⟨rfl, rfl⟩) h2 r2
  have ha : (solderOf (goodSolder p1 p2) 5).hwa.toNat = 4096 * p1 := e1
  have hb : (solderOf (goodSolder p1 p2) 5).hwb.toNat = 4096 * p2 := e2
  refine ⟨by simp only [wordsGood, ha, hb, show (1 : BitVec 4).toNat = 1 from rfl, show (2 : BitVec 4).toNat = 2 from rfl, w1, w2, bothOk, Bool.and_self], ?_⟩
  exact (show solderRefused (goodSolder 0 0) { solderOf (goodSolder 0 0) 5 with vda := 1, vdb := 2 } = false by decide +kernel)


/-- A frame table from a map of frames. -/
theorem find_map {α : Type} (F : Nat → α) (l : List Nat) (i : Nat) (h : i ∈ l) : Tab.find (l.map (fun i => (i, F i))) i = some (F i) := by
  induction l with
  | nil => cases h
  | cons a l ih =>
    simp only [List.map_cons, Tab.find]
    split_ifs with ha
    · rw [ha]
    · exact ih ((List.mem_cons.mp h).resolve_left (fun e => ha e.symm))
def saveFrame (i : Nat) : Frame := { Frame.free with st := .owned, owner := if i < 32768 then 1 else 2 }
/-- A translation of g bytes, in the eight sets that the starts of its frames select. -/
def saveTlb (v b g a : Nat) : List NtlbEntry := (List.range 8).map (fun j => ntlb1 v (16 * j) b g a)
theorem saveTlb_miss {v b g a v' x : Nat} (h : v ≠ v' ∨ b ≠ x / g * g) : (saveTlb v b g a).find? (fun e => e.hits 0 v' x && e.w) = none := by
  refine List.find?_eq_none.mpr (fun e he => ?_)
  obtain ⟨j, -, rfl⟩ := List.mem_map.mp he
  simp only [NtlbEntry.hits, ntlb1]
  rcases h with h | h <;> simp [h]
theorem saveTlb_hit {v b g a x k : Nat} (hb : b = x / g * g) (hk : bits x 18 12 = 16 * k) (h8 : k < 8) :
    (saveTlb v b g a).find? (fun e => e.hits 0 v x && e.w) = some (ntlb1 v (16 * k) b g a) := by
  unfold saveTlb
  rw [List.find?_map]
  have : (List.range 8).find? ((fun e : NtlbEntry => e.hits 0 v x && e.w) ∘ fun j => ntlb1 v (16 * j) b g a) = some k :=
    List.find?_range_eq_some.mpr ⟨by simp [NtlbEntry.hits, ntlb1, hb.symm, hk], List.mem_range.mpr h8, fun j hj => by
      simp [NtlbEntry.hits, ntlb1, hk]; omega⟩
  rw [this]
  rfl
/-- VDs 1 and 2 with a save area each at b1 and b2 of their spaces, in two translations of g bytes each. -/
def goodSlices (b1 b2 g n : Nat) : State :=
  (setVd (vd1 .run 0) 2 (fun r => { r with st := .built })).onTrn fun t =>
    { t with
      regs := [(1, { TrnRegs.reset with s2 := 1 }), (2, { TrnRegs.reset with s2 := 1 })]
      ntlb := saveTlb 1 b1 g 0 ++ saveTlb 1 (b1 + g) g g ++ saveTlb 2 b2 g (2 * g) ++ saveTlb 2 (b2 + g) g (3 * g)
      fot := (List.range n ++ (List.range n).map (32768 + ·)).map (fun i => (i, saveFrame i)) }
def goodPair (b1 b2 : Nat) : SlicePair :=
  { SlicePair.reset with vda := 1, vdb := 2, slice := 10, saveA := BitVec.ofNat 64 b1, saveB := BitVec.ofNat 64 b2 }
theorem save_owns {b1 b2 g n v f a : Nat} (hf : (f < n ∧ f < 32768 ∧ v = 1) ∨ (32768 ≤ f ∧ f - 32768 < n ∧ v = 2)) (ha : a / 65536 = f) :
    ownsFrame (goodSlices b1 b2 g n) v a = true := by
  have hm : f ∈ List.range n ++ (List.range n).map (32768 + ·) := by
    rw [List.mem_append, List.mem_map]
    rcases hf with h | h
    · exact .inl (List.mem_range.mpr h.1)
    · exact .inr ⟨f - 32768, List.mem_range.mpr h.2.1, by omega⟩
  have hfr : frameAt (goodSlices b1 b2 g n) f = saveFrame f := by
    show (Tab.find ((List.range n ++ (List.range n).map (32768 + ·)).map (fun i => (i, saveFrame i))) f).getD Frame.free = _
    rw [find_map saveFrame _ f hm]
    rfl
  have hlt : (if f < 32768 then 1 else 2) = v := by split_ifs <;> omega
  simp [ownsFrame, ha, hfr, saveFrame, hlt]
theorem save_mod (g b x : Nat) (hg : 0 < g) (hb : b % g = 0) (hx : x < g) : (b + x) / g * g = b ∧ (b + x) % g = x := by
  obtain ⟨q, rfl⟩ := Nat.dvd_of_mod_eq_zero hb
  constructor
  · rw [Nat.mul_add_div hg, Nat.div_eq_of_lt hx, Nat.add_zero, Nat.mul_comm]
  · rw [Nat.mul_add_mod, Nat.mod_eq_of_lt hx]
theorem save_xlate {b1 b2 g n v b p x : Nat} (hg : 0 < g) (hb : b % g = 0) (hx : x < g) (h65 : g % 524288 = 0) (h16 : x % 65536 = 0)
    (he : (v = 1 ∧ ((b = b1 ∧ p = 0) ∨ (b = b1 + g ∧ p = g))) ∨ (v = 2 ∧ ((b = b2 ∧ p = 2 * g) ∨ (b = b2 + g ∧ p = 3 * g))))
    (hr : isRegPage (goodSlices b1 b2 g n) v (b + x) = false) :
    ∃ l, (stage2 (goodSlices b1 b2 g n) 0 v (b + x) (fun _ w _ => w)).2 = .ok l ∧ l.target.plus ((b + x) % l.size) = .spa (p + x) ∧ l.size = g ∧ l.w = true := by
  obtain ⟨h1, h2⟩ := save_mod g b x hg hb hx
  have hs2 : bit (trnOf (goodSlices b1 b2 g n) v).s2.toNat 0 = true := by
    rcases he with ⟨rfl, -⟩ | ⟨rfl, -⟩ <;> exact show bit (1#64).toNat 0 = true by decide
  have hne : ∀ y, y ≠ y + g := fun y => by omega
  have hbm : (b + x) % 65536 = 0 := by
    obtain ⟨q, rfl⟩ := Nat.dvd_of_mod_eq_zero hb
    obtain ⟨r, rfl⟩ := Nat.dvd_of_mod_eq_zero h65
    obtain ⟨y, rfl⟩ := Nat.dvd_of_mod_eq_zero h16
    have : 524288 * r * q + 65536 * y = 65536 * (8 * r * q + y) := by ring
    rw [this]
    exact Nat.mul_mod_right _ _
  have hk : bits (b + x) 18 12 = 16 * ((b + x) / 65536 % 8) := by unfold bits; omega
  have h8 : (b + x) / 65536 % 8 < 8 := Nat.mod_lt _ (by decide)
  have hf : (goodSlices b1 b2 g n).trn.ntlb.find? (fun e => e.hits 0 v (b + x) && e.w) = some (ntlb1 v (16 * ((b + x) / 65536 % 8)) b g p) := by
    show (saveTlb 1 b1 g 0 ++ saveTlb 1 (b1 + g) g g ++ saveTlb 2 b2 g (2 * g) ++ saveTlb 2 (b2 + g) g (3 * g)).find? _ = _
    have hit := saveTlb_hit (v := v) (a := p) h1.symm hk h8
    simp only [List.find?_append]
    rcases he with ⟨rfl, ⟨rfl, rfl⟩ | ⟨rfl, rfl⟩⟩ | ⟨rfl, ⟨rfl, rfl⟩ | ⟨rfl, rfl⟩⟩
    · rw [hit]; rfl
    · rw [saveTlb_miss (.inr (by rw [h1]; exact hne _)), hit]; rfl
    · rw [saveTlb_miss (.inl (by decide)), saveTlb_miss (.inl (by decide)), hit]; rfl
    · rw [saveTlb_miss (.inl (by decide)), saveTlb_miss (.inl (by decide)), saveTlb_miss (.inr (by rw [h1]; exact hne _)), hit]; rfl
  have hst : (stage2 (goodSlices b1 b2 g n) 0 v (b + x) (fun _ w _ => w)).2 = .ok { target := .spa p, size := g, r := true, w := true, x := true, u := true, sl := false, d := true, at? := some (0, 0) } := by
    simp only [stage2, hr, Bool.false_eq_true, if_false, hs2, Bool.true_eq_false, hf]
    rfl
  exact ⟨_, hst, by show Target.spa (p + (b + x) % g) = _; rw [h2], rfl, rfl⟩
/-- A range is mapped and owned when each of its pages is, in translations of whole frames. -/
theorem mapped_all {s : State} {v hi lo : Nat} (h : ∀ a, lo ≤ a → a < hi → a % 65536 = 0 → ∃ l x, (stage2 s 0 v a (fun _ w _ => w)).2 = .ok l
    ∧ l.target.plus (a % l.size) = .spa x ∧ l.w = true ∧ ownsFrame s v x = true ∧ l.size % 65536 = 0 ∧ 0 < l.size) :
    ∀ n a, lo ≤ a → a % 65536 = 0 → mappedOwn s v hi n a = some true
  | 0, _, _, _ => rfl
  | n + 1, a, h1, h2 => by
    unfold mappedOwn
    split_ifs with hh
    · rfl
    · obtain ⟨l, x, e1, e2, e3, e4, e5, e6⟩ := h a h1 (by omega) h2
      simp only [e1, e2, e3, e4, Bool.and_self, if_true]
      have h3 := Nat.div_add_mod a l.size
      rw [Nat.mul_comm] at h3
      have h4 := Nat.mod_lt a e6
      have h5 : (a / l.size * l.size) % 65536 = 0 := Nat.mod_eq_zero_of_dvd (Dvd.dvd.mul_left (Nat.dvd_of_mod_eq_zero e5) _)
      exact mapped_all h n _ (by omega) (by omega)
theorem save_ok {b1 b2 g n v b p : Nat} (hg : 0 < g) (hb : b % g = 0) (h65 : g % 524288 = 0) (hp : (v = 1 ∧ b = b1 ∧ p = 0) ∨ (v = 2 ∧ b = b2 ∧ p = 2 * g))
    (hg1 : g = 1073741824) (hn : n = 16640) (hr : ∀ x, x < 2 * g → isRegPage (goodSlices b1 b2 g n) v (b + x) = false) :
    saveOk (goodSlices b1 b2 g n) v b = some true := by
  have hb' : b % 1073741824 = 0 := hg1 ▸ hb
  refine mapped_all (lo := b) (fun a ha hh hm => ?_) _ b (le_refl _) (by omega)
  obtain ⟨y, rfl⟩ : ∃ y, a = b + y := ⟨a - b, by omega⟩
  have hreg := hr y (by omega)
  have key : ∃ l f, (stage2 (goodSlices b1 b2 g n) 0 v (b + y) (fun _ w _ => w)).2 = .ok l ∧ l.target.plus ((b + y) % l.size) = .spa (65536 * f)
      ∧ l.size = g ∧ l.w = true ∧ ((f < n ∧ f < 32768 ∧ v = 1) ∨ (32768 ≤ f ∧ f - 32768 < n ∧ v = 2)) := by
    by_cases h : y < g
    · obtain ⟨l, e1, e2, e3, e4⟩ := save_xlate (b1 := b1) (b2 := b2) (n := n) (v := v) (p := p) hg hb h h65 (by omega)
        (hp.imp (fun h => ⟨h.1, .inl h.2⟩) (fun h => ⟨h.1, .inl h.2⟩)) hreg
      rcases hp with ⟨rfl, rfl, rfl⟩ | ⟨rfl, rfl, rfl⟩
      · exact ⟨l, y / 65536, e1, by rw [e2]; congr 1; omega, e3, e4, .inl (by omega)⟩
      · exact ⟨l, 32768 + y / 65536, e1, by rw [e2]; congr 1; omega, e3, e4, .inr (by omega)⟩
    · obtain ⟨z, rfl⟩ : ∃ z, y = g + z := ⟨y - g, by omega⟩
      obtain ⟨l, e1, e2, e3, e4⟩ := save_xlate (b1 := b1) (b2 := b2) (n := n) (v := v) (b := b + g) (p := p + g) (x := z) hg (by simpa using hb) (by omega) h65 (by omega)
        (by rcases hp with ⟨rfl, rfl, rfl⟩ | ⟨rfl, rfl, rfl⟩
            · exact .inl ⟨rfl, .inr ⟨rfl, by omega⟩⟩
            · exact .inr ⟨rfl, .inr ⟨rfl, by omega⟩⟩) (by rw [Nat.add_assoc]; exact hreg)
      rw [Nat.add_assoc] at e1 e2
      rcases hp with ⟨rfl, rfl, rfl⟩ | ⟨rfl, rfl, rfl⟩
      · exact ⟨l, (g + z) / 65536, e1, by rw [e2]; congr 1; omega, e3, e4, .inl (by omega)⟩
      · exact ⟨l, 32768 + (g + z) / 65536, e1, by rw [e2]; congr 1; omega, e3, e4, .inr (by omega)⟩
  obtain ⟨l, f, e1, e2, e3, e4, hf⟩ := key
  exact ⟨l, _, e1, e2, e4, save_owns hf (by omega), by omega, by omega⟩
/-- What EN checks of the pair beside its save areas. -/
theorem save_field (k b : Nat) (hk : k ≤ 6) (hb : b = k * 2147483648) : bits (BitVec.ofNat 64 b).toNat 63 20 * 2 ^ 20 = b := by
  rw [BitVec.toNat_ofNat, Nat.mod_eq_of_lt (by omega)]; unfold bits; omega
theorem saves_ok {s : State} {p : SlicePair} {v w a b : Nat} (h1 : p.vda.toNat = v) (h2 : p.vdb.toNat = w) (h3 : bits p.saveA.toNat 63 20 * 2 ^ 20 = a)
    (h4 : bits p.saveB.toNat 63 20 * 2 ^ 20 = b) (h5 : saveOk s v a = some true) (h6 : saveOk s w b = some true) : savesOk s p = some true := by
  subst h1 h2 h3 h4
  exact congrArg₂ bothOk h5 h6
theorem save_off (b1 b2 g n v : Nat) (hv : v = 1 ∨ v = 2) : OffNet (goodSlices b1 b2 g n) v := by
  rcases hv with rfl | rfl
  · exact .inl (show qpMax (setVd (vd1 .run 0) 2 (fun r => { r with st := .built })) 1 = 0 by decide)
  · exact .inl (show qpMax (setVd (vd1 .run 0) 2 (fun r => { r with st := .built })) 2 = 0 by decide)
theorem meets_SlicePairs_enable : ∃ b1 b2 g n, (pairAt (goodSlices b1 b2 g n) 0).en = false
    ∧ pairRefused (goodSlices b1 b2 g n) 0 (goodPair b1 b2) = false
    ∧ savesOk (goodSlices b1 b2 g n) (goodPair b1 b2) = some true := by
  obtain ⟨k1, -, h1, r1⟩ := free_class 1 (· / 2147483648)
  obtain ⟨k2, -, h2, r2⟩ := free_class 2 (· / 2147483648)
  obtain ⟨n, hn⟩ : ∃ n, n = 16640 := ⟨_, rfl⟩
  obtain ⟨g, hg⟩ : ∃ g, g = 1073741824 := ⟨_, rfl⟩
  obtain ⟨b1, e1⟩ : ∃ b, b = k1 * 2147483648 := ⟨_, rfl⟩
  obtain ⟨b2, e2⟩ : ∃ b, b = k2 * 2147483648 := ⟨_, rfl⟩
  refine ⟨b1, b2, g, n, rfl, ?_⟩
  have s1 : saveOk (goodSlices b1 b2 g n) 1 b1 = some true := save_ok (p := 0) (by omega) (by rw [hg, e1]; omega) (by omega) (.inl ⟨rfl, rfl, rfl⟩) (by omega) hn
    (fun x hx => r1 _ (save_off b1 b2 g n 1 (.inl rfl)) _ (by omega) (by show (b1 + x) / 4096 * 4096 / 2147483648 = k1; omega))
  have s2 : saveOk (goodSlices b1 b2 g n) 2 b2 = some true := save_ok (p := 2 * g) (by omega) (by rw [hg, e2]; omega) (by omega) (.inr ⟨rfl, rfl, rfl⟩) (by omega) hn
    (fun x hx => r2 _ (save_off b1 b2 g n 2 (.inr rfl)) _ (by omega) (by show (b2 + x) / 4096 * 4096 / 2147483648 = k2; omega))
  have e1 := save_field k1 b1 h1 e1
  have e2 := save_field k2 b2 h2 e2
  refine ⟨?_, saves_ok rfl rfl e1 e2 s1 s2⟩
  unfold pairRefused
  simp only [goodPair, show (1 : BitVec 4).toNat = 1 from rfl, show (2 : BitVec 4).toNat = 2 from rfl]
  clear s1 s2 e1 e2 r1 r2 hn hg
  have hp : ∀ m, pairAt (goodSlices b1 b2 g n) m = pairAt State.reset m := fun _ => rfl
  have hv : ∀ v, vdRec (goodSlices b1 b2 g n) v = vdRec (goodSlices 0 0 0 0) v := fun _ => rfl
  have hw : ∀ v, waysOf (goodSlices b1 b2 g n) v = waysOf State.reset v := fun _ => rfl
  simp only [vdState, pairInside, slotBase, rowBase, slotCnt, rowCnt, segBase, segCnt, swgBase, swgCnt, accBase, accCnt, rsvBase, rsvCnt, hp, hv, hw,
    SlicePair.slotBase, SlicePair.slotCnt, SlicePair.rowBase, SlicePair.rowCnt, SlicePair.segBase, SlicePair.segCnt, SlicePair.swgBase,
    SlicePair.swgCnt, SlicePair.accBase, SlicePair.accCnt, SlicePair.rsvBase, SlicePair.rsvCnt]
  have he : ∀ P : SlicePair, ((List.range 4).any fun m => m != 0 && (pairAt State.reset m).en && pairsCross P (pairAt State.reset m)) = false := by
    intro P
    simp only [show List.range 4 = [0, 1, 2, 3] from rfl, List.any_cons, List.any_nil, show (pairAt State.reset 0).en = false from rfl,
      show (pairAt State.reset 1).en = false from rfl, show (pairAt State.reset 2).en = false from rfl,
      show (pairAt State.reset 3).en = false from rfl, Bool.and_false, Bool.false_and, Bool.or_false]
  rw [he]
  rfl
/-- Pair 3, the last, in use, at the instant its slice ends and one nanosecond before; each VD's state saved or not. -/
def slicing (holderB savedA savedB : Bool) (next : Nat) : State :=
  (pick State.reset 0 0 0 3 0).onVds fun c =>
    { c with slices := c.slices.set 3 { SlicePair.reset with en := true, holderB := holderB, savedA := savedA, savedB := savedB, slice := 10, nextNs := next } }
theorem meets_SlicePairs : (pairAt (slicing false false false 0) 3).en = true ∧ (pairAt State.reset 0).en = false
    ∧ pairRefused State.reset 0 (pairAt State.reset 0) = true ∧ (slicing false false false 0).sch.sel.n < 4 ∧ (pairAt State.reset 0).stopped = false
    ∧ nsNow (slicing false false false 1) < (pairAt (slicing false false false 1) 3).nextNs
    ∧ (pairAt (slicing true false true 0) 3).nextNs ≤ nsNow (slicing true false true 0) ∧ (pairAt (slicing true false true 0) 3).holderB = true := by
  decide +kernel

def waying (w : WayRegs) : State := onWays (setVd (pick w0 1 0 0 0 0) 1 (fun r => { r with core := 0x0000200040010010 })) 1 (fun _ => w)
/-- An engine's read of a space without translation fails. -/
theorem far_read (s : State) (a n : Nat) (h2 : bit (trnOf s 1).s2.toNat 0 = false) (hn : n ≠ 0) : ∃ y x, gpaReadN s (ioEng 1 0) a n = (y, .error (.xl x)) ∧ y = s := by
  unfold gpaReadN
  obtain ⟨k, hk⟩ : ∃ k, n / 32 + 2 = k + 1 := ⟨n / 32 + 1, rfl⟩
  rw [hk]
  unfold gpaReadF
  simp only [hn, if_false, gpaRead1, engXlate, show (ioEng 1 0).vd = 1 from rfl, show (ioEng 1 0).reg = false from rfl, Bool.false_eq_true, if_false]
  rcases h : isRegPage s 1 a with _ | _ <;> simp [gpaXlate, gpaXlateF, stage2, h, h2, Target.plus]
theorem meets_WaysAndSchedules : waysReason (waying WayRegs.reset) 1 1 = 0 ∧ waysReason (waying WayRegs.reset) 1 2 = 1
    ∧ (waysOf (waying WayRegs.reset) 1).busy = false ∧ (waysOf (waying { WayRegs.reset with busy := true, leaving := 1 }) 1).busy = true
    ∧ mscSchedOk w0 0 = false ∧ mscSchedOk (setVd w0 1 (fun r => { r with cache := 0x100000000 })) 1 = true
    ∧ ∃ y x, gpaReadN w0 (ioEng 1 0) 0 4096 = (y, .error (.xl x)) ∧ y = w0 :=
  ⟨by decide +kernel, by decide +kernel, by decide +kernel, by decide +kernel, by decide +kernel, by decide +kernel,
    far_read w0 0 4096 (show bit (0#64).toNat 0 = false by decide) (by decide)⟩
/-- A schedule of one page of VD 0 is read. -/
theorem meets_WaysAndSchedules_table : ∃ p y b, gpaReadN (setVd w0 0 (fun r => { r with cache := 0x100000000 })) (ioEng 0 0) (4096 * p + 0) 4096
    = (y, .ok (b, false)) := by
  obtain ⟨p, h1, h2, h3⟩ := free_page
  obtain ⟨t, h, -⟩ := small_gpa (s := setVd w0 0 (fun r => { r with cache := 0x100000000 })) ⟨⟨0, rfl⟩, rfl, rfl, w0_off⟩ h2 h3 0 0 4096 (by omega)
  exact ⟨p, _, _, h⟩

/-! The launch unit, dispatchers and counters: a record of one block of one group of 32 threads in slot 0 of VD 0's queue, and the
launch it is. -/

def goodRec : Bytes := [1, 0, 0, 0x80, 32, 3, 8, 0] ++ leBytes 8 0x1000 ++ leBytes 4 0 ++ [255, 255, 255, 255] ++ List.replicate 40 0
  ++ [0, 0, 0, 0, 32, 0, 0, 0, 1, 1, 0, 0, 1, 0, 0, 0, 2, 2, 0, 0, 1, 0, 0, 0] ++ List.replicate 168 0
def r0 : State := setVd w0 0 (fun r => { r with st := .run, core := 0x40010010, queue := 0x4000000000 })
def withRec (p : Nat) (b : Bytes) : State :=
  writeMem (onLqRegs r0 0 (fun q => { q with tail := 1, base := BitVec.ofNat 64 (4096 * p) })) (4096 * p) b
def withLaunch (l : Launch) : State := r0.onLq fun q => { q with launches := [l], nextId := 1 }
def withTask (p : Bytes) (h : Option (BitVec 32)) : State :=
  r0.onLq fun q => { q with tasks := [{ tid := 0, vd := 0, die := 0, core := 0, asid := 0, packet := p, handle := h, phaseNo := 0, worker := none, killing := none }] }
theorem r0_off : qpMax r0 0 = 0 := by decide
theorem small_rec (p : Nat) (b : Bytes) : Small (withRec p b) := ⟨⟨0, rfl⟩, rfl, rfl, .inl (show qpMax r0 0 = 0 from r0_off)⟩
theorem rec_reads (b : Bytes) (hb : b.length = 256) : ∃ p y, p ≤ 6
    ∧ recordAt (withRec p b) 0 = (y, if bit (field b 2 2) 15 = true then .good b else .invalid) ∧ ∃ m, y = { withRec p b with mem := m } := by
  obtain ⟨p, h1, h2, h3⟩ := free_page
  obtain ⟨m, h, k⟩ := small_gpa (small_rec p b) h2 h3 0 0 256 (by decide)
  have hr : readMem (withRec p b) (4096 * p) 256 = b := by
    have := readMem_writeMem (onLqRegs r0 0 (fun q => { q with tail := 1, base := BitVec.ofNat 64 (4096 * p) })) (4096 * p) b
    rwa [hb] at this
  have hl : lqLog2 (withRec p b) 0 = 4 := show lqLog2 r0 0 = 4 by decide
  have hq : lqBase (withRec p b) 0 = 4096 * p := by
    unfold lqBase
    rw [hl]
    show (BitVec.ofNat 64 (4096 * p)).toNat / 2 ^ (8 + 4) * 2 ^ (8 + 4) / 4096 * 4096 = _
    rw [BitVec.toNat_ofNat, Nat.mod_eq_of_lt (by omega)]
    omega
  have hh : (lqOf (withRec p b) 0).head = 0 := rfl
  refine ⟨p, _, h2, ?_, m, rfl⟩
  rw [Nat.add_zero] at h
  unfold recordAt
  simp only [hq, hl, show lqLog2 { withRec p b with mem := m } 0 = 4 from hl, hh, show (0 : BitVec 16).toNat % 2 ^ 4 = 0 from rfl, Nat.mul_zero, h,
    Nat.add_zero, hr, Bool.false_eq_true, if_false, show ownerBit 0 4 = true by decide]

/-- The launch of a record, whatever the launch unit names it by. -/
def launchAt (b : Bytes) (i : Nat) (p : Option Nat) (a d : Nat) : Launch := { launch1 b with lid := i, prev := p, slotVa := a, asid := d, shareCnt := 0 }
theorem rec_ok (s : State) (i : Nat) (p : Option Nat) (a d : Nat) (h : fitsGrant s 0 (launch1 goodRec).need = true) :
    ∃ z l, launchCheck s (launchAt goodRec i p a d) = (z, .ok l) := by
  have h1 : ¬((launchAt goodRec i p a d).f 0 2 ≠ 1 ∨ bits (launchAt goodRec i p a d).flags 14 3 ≠ 0 ∨ (launchAt goodRec i p a d).f 24 7 ≠ 0
      ∨ (launchAt goodRec i p a d).f 56 8 ≠ 0
      ∨ (List.range (min 8 (launchAt goodRec i p a d).nlev)).any (fun j => (launchAt goodRec i p a d).f (66 + 8 * j) 2 != 0) = true) :=
    show ¬((launch1 goodRec).f 0 2 ≠ 1 ∨ bits (launch1 goodRec).flags 14 3 ≠ 0 ∨ (launch1 goodRec).f 24 7 ≠ 0 ∨ (launch1 goodRec).f 56 8 ≠ 0
      ∨ (List.range (min 8 (launch1 goodRec).nlev)).any (fun j => (launch1 goodRec).f (66 + 8 * j) 2 != 0) = true) by decide +kernel
  have h2 : ¬((launchAt goodRec i p a d).width ≠ 16 ∧ (launchAt goodRec i p a d).width ≠ 32 ∧ (launchAt goodRec i p a d).width ≠ 64) :=
    show ¬((launch1 goodRec).width ≠ 16 ∧ (launch1 goodRec).width ≠ 32 ∧ (launch1 goodRec).width ≠ 64) by decide +kernel
  have h3 : ¬((launchAt goodRec i p a d).regs < 8 ∨ 192 < (launchAt goodRec i p a d).regs ∨ (launchAt goodRec i p a d).regs % 8 ≠ 0) :=
    show ¬((launch1 goodRec).regs < 8 ∨ 192 < (launch1 goodRec).regs ∨ (launch1 goodRec).regs % 8 ≠ 0) by decide +kernel
  have h4 : (launchAt goodRec i p a d).scratch % 256 = 0 := show (launch1 goodRec).scratch % 256 = 0 by decide +kernel
  have h5 : (launchAt goodRec i p a d).levelsOk = true := show (launch1 goodRec).levelsOk = true by decide +kernel
  have h6 : pgtCheck s (launchAt goodRec i p a d) = (s, .ok none) := by
    have e1 : ((launchAt goodRec i p a d).level 6).isNone = true := show ((launch1 goodRec).level 6).isNone = true by decide +kernel
    have e2 : (launchAt goodRec i p a d).f 32 8 = 0 := show (launch1 goodRec).f 32 8 = 0 by decide +kernel
    simp [pgtCheck, e1, e2]
  have h7 : snapRegions s (launchAt goodRec i p a d) = (s, .ok []) := by
    have e1 : (launchAt goodRec i p a d).f 31 1 = 0 := show (launch1 goodRec).f 31 1 = 0 by decide +kernel
    simp [snapRegions, e1]
  have h8 : (launchAt goodRec i p a d).cnt = noHandle := show (launch1 goodRec).cnt = noHandle by decide +kernel
  have h9 : fitsGrant s (launchAt goodRec i p a d).vd (launchAt goodRec i p a d).need = true := h
  unfold launchCheck
  simp only [h1, h2, h3, h4, h5, h6, h7, h8, h9, if_false, ne_eq, not_true_eq_false, Bool.not_true, Bool.false_eq_true, false_or, false_and,
    Bool.true_eq_false]
  exact ⟨_, _, rfl⟩
theorem rec_bad (s : State) (i : Nat) (p : Option Nat) (a d : Nat) : launchCheck s (launchAt (goodRec.set 0 2) i p a d) = (s, .error (some 1)) := by
  have h1 : (launchAt (goodRec.set 0 2) i p a d).f 0 2 ≠ 1 := show (launch1 (goodRec.set 0 2)).f 0 2 ≠ 1 by decide +kernel
  unfold launchCheck
  exact if_pos (.inl h1)

/-- A queue of VD 1 whose record cannot be read. -/
def farRec : State := onLqRegs (setVd w0 1 (fun r => { r with st := .run, queue := 0x4000000000 })) 1 (fun q => { q with tail := 1 })
/-- A remote access of a launch that is not answered. -/
def waitingFar : State := (withLaunch (launch1 goodRec)).onNet fun n => { n with remoteOps := [{ far with owner := .launch 0 }] }
theorem meets_LaunchUnit : lqReady w0 0 = false ∧ lqReady (withRec 1 goodRec) 0 = true
    ∧ (∃ p y, lqReady (withRec p goodRec) 0 = true ∧ recordAt (withRec p goodRec) 0 = (y, .good goodRec)
        ∧ ∀ i q a d, ∃ z l, launchCheck y (launchAt goodRec i q a d) = (z, .ok l))
    ∧ (∃ p y, recordAt (withRec p (goodRec.set 0 2)) 0 = (y, .good (goodRec.set 0 2))
        ∧ ∀ i q a d, launchCheck y (launchAt (goodRec.set 0 2) i q a d) = (y, .error (some 1)))
    ∧ (∃ p y, recordAt (withRec p (goodRec.set 3 0)) 0 = (y, .invalid))
    ∧ (lqReady farRec 1 = true ∧ (lqOf farRec 1).stopped = false ∧ ∃ y, recordAt farRec 1 = (y, .bad))
    ∧ findLaunch w0 0 = none ∧ findTask w0 0 = none ∧ findTask (withTask [] none) 0 ≠ none ∧ (withTask [] none).net.remoteOps = []
    ∧ (findLaunch (withLaunch (launch1 goodRec)) 0 = some (launch1 goodRec) ∧ launchDone (withLaunch (launch1 goodRec)) (launch1 goodRec) = false)
    ∧ launchDone (withLaunch { launch1 goodRec with cursor := 1 }) { launch1 goodRec with cursor := 1 } = true
    ∧ ((launch1 (goodRec.set 2 1)).snapOn = true ∧ (launch1 (goodRec.set 2 1)).replays < 2) ∧ (launch1 goodRec).snapOn = false
    ∧ findLaunch waitingFar 0 ≠ none ∧ ∃ r ∈ waitingFar.net.remoteOps, r.owner = .launch 0 ∧ (r.store || r.atomic) = true := by
  refine ⟨by decide +kernel, by decide +kernel, ?_, ?_, ?_, ?_, by decide +kernel, by decide +kernel, by decide +kernel, rfl, by decide +kernel,
    by decide +kernel, by decide +kernel, by decide +kernel, by decide +kernel, by decide +kernel⟩
  · obtain ⟨p, y, hp, h, m, rfl⟩ := rec_reads goodRec (by decide +kernel)
    rw [if_pos (by decide +kernel)] at h
    exact ⟨p, _, show lqReady (onLqRegs r0 0 (fun q => { q with tail := 1 })) 0 = true by decide, h,
      fun i q a d => rec_ok _ i q a d (show fitsGrant r0 0 (launch1 goodRec).need = true by decide +kernel)⟩
  · obtain ⟨p, y, hp, h, m, rfl⟩ := rec_reads (goodRec.set 0 2) (by decide +kernel)
    rw [if_pos (by decide +kernel)] at h
    exact ⟨p, _, h, fun i q a d => rec_bad _ i q a d⟩
  · obtain ⟨p, y, hp, h, -⟩ := rec_reads (goodRec.set 3 0) (by decide +kernel)
    rw [if_neg (by decide +kernel)] at h
    exact ⟨p, _, h⟩
  · obtain ⟨y, x, h, -⟩ := far_read farRec (lqBase farRec 1 + 256 * ((lqOf farRec 1).head.toNat % 2 ^ lqLog2 farRec 1)) 256
      (show bit (0#64).toNat 0 = false by decide) (by decide)
    exact ⟨by decide +kernel, rfl, y, by unfold recordAt; simp only [h]⟩

/-! A task packet of 32 bytes, ready, in a ring, or resuming; counters; the governor; a collective. -/

def pk (ctl : Byte) : Bytes := [2, ctl, 0, 0, 8, 0, 0, 0] ++ leBytes 8 0x1000 ++ List.replicate 16 0
def rdy (resume : Option (Nat × Nat)) : Ready := { pri := 0, handle := none, packet := pk 0, vd := 0, asid := 0, resume := resume, joined := 0 }
def withReady (r : Ready) : State := setReady r0 0 0 [r]
def team1 : Bytes := [1, 0, 0, 0x80, 32, 4, 8, 0] ++ leBytes 8 0x1000 ++ leBytes 4 0 ++ [255, 255, 255, 255] ++ List.replicate 40 0
  ++ [0, 0, 0, 0, 32, 0, 0, 0, 1, 1, 0, 0, 1, 0, 0, 0, 2, 2, 0, 0, 4, 0, 0, 0, 3, 3, 0, 0, 1, 0, 0, 0] ++ List.replicate 160 0
/-- Worker 0 of die 0: stage 0, core 1, slot 16; its stage's ring holds one packet. -/
def withRing (p : Nat) (b : Bytes) : State :=
  writeMem (onGov r0 0 0 (fun _ =>
    { Gov.reset with workers := [(0, 0x80100001)], stages := [(0, { Stage.reset with ring := BitVec.ofNat 64 (4096 * p + 0x401), tail := 1 })] })) (4096 * p) b
theorem small_ring (p : Nat) (b : Bytes) : Small (withRing p b) := ⟨⟨0, rfl⟩, rfl, rfl, .inl (show qpMax r0 0 = 0 from r0_off)⟩
theorem ring_reads (b : Bytes) (hb : b.length = 256) : ∃ p y, workerIdle (withRing p b) 0 0 0 = true ∧ (∃ m l, y = { r0 with mem := m, lq := l })
    ∧ gpaReadN (withRing p b) (ioEng 0 0) (((govOf (withRing p b) 0 0).stage (wkStage ((govOf (withRing p b) 0 0).worker 0))).base + 256 * 0) 256 = (y, .ok (b, false)) := by
  obtain ⟨p, h1, h2, h3⟩ := free_page
  obtain ⟨m, h, -⟩ := small_gpa (small_ring p b) h2 h3 0 0 256 (by decide)
  have hr : readMem (withRing p b) (4096 * p) 256 = b := by
    have := readMem_writeMem (onGov r0 0 0 (fun _ =>
      { Gov.reset with workers := [(0, 0x80100001)], stages := [(0, { Stage.reset with ring := BitVec.ofNat 64 (4096 * p + 0x401), tail := 1 })] })) (4096 * p) b
    rwa [hb] at this
  have he : (govOf (withRing p b) 0 0).worker 0 = 0x80100001 := rfl
  have hw : wkStage ((govOf (withRing p b) 0 0).worker 0) = 0 := by rw [he]; decide
  have hn : ((govOf (withRing p b) 0 0).stage 0).ring.toNat = 4096 * p + 0x401 := (BitVec.toNat_ofNat _ _).trans (Nat.mod_eq_of_lt (by omega))
  have hs : ((govOf (withRing p b) 0 0).stage 0).base = 4096 * p := by
    unfold Stage.base bits
    rw [hn]
    omega
  refine ⟨p, { withRing p b with mem := m }, ?_, ⟨m, _, rfl⟩, by rw [Nat.add_zero, hr] at h; rw [hw, hs, Nat.mul_zero, Nat.add_zero]; exact h⟩
  have e1 : ((govOf (withRing p b) 0 0).stage 0).en = true := by unfold Stage.en bit; rw [hn, Nat.pow_zero, Nat.div_one]; exact decide_eq_true (by omega)
  have e2 : ((govOf (withRing p b) 0 0).stage 0).log = 4 := by unfold Stage.log bits; rw [hn]; omega
  have e3 : wkCore ((govOf (withRing p b) 0 0).worker 0) = 1 := by rw [he]; decide
  have e4 : wkSlot ((govOf (withRing p b) 0 0).worker 0) = 16 := by rw [he]; decide
  have e5 : wkOn ((govOf (withRing p b) 0 0).worker 0) = true := by rw [he]; decide
  have e6 : (((govOf (withRing p b) 0 0).stage 0).head != ((govOf (withRing p b) 0 0).stage 0).tail) = true := rfl
  have e7 : slotTaken (residents (withRing p b) 1) (16 / 16) (16 % 16) = false := show slotTaken (residents r0 1) (16 / 16) (16 % 16) = false by decide
  have e8 : halted (withRing p b) 1 = false := show halted r0 1 = false by decide
  have e9 : vdRuns (withRing p b) 0 = true := show vdRuns r0 0 = true by decide
  simp only [workerIdle, hw, e1, e2, e3, e4, e5, e6, e7, e8, e9]
  decide
theorem worker_ok0 : fitsGrant r0 0 (pkNeed (pk 0)) = true ∧ (workerFit r0 0 1 16 (pkNeed (pk 0))).isSome = true := by decide +kernel
theorem fits_frame (s : State) (m : MemState) (l : LqState) (v : Nat) (n : Need) : fitsGrant { s with mem := m, lq := l } v n = fitsGrant s v n := rfl
theorem worker_frame (s : State) (m : MemState) (l : LqState) (v c x : Nat) (n : Need) :
    workerFit { s with mem := m, lq := l } v c x n = workerFit s v c x n := by
  have h1 : ∀ p r, slotIn { s with mem := m, lq := l } v p r = slotIn s v p r := fun _ _ => rfl
  have h2 : ∀ p r, rowIn { s with mem := m, lq := l } v p r = rowIn s v p r := fun _ _ => rfl
  have h3 : ∀ p r, segIn { s with mem := m, lq := l } v p r = segIn s v p r := fun _ _ => rfl
  have h4 : residents { s with mem := m, lq := l } c = residents s c := rfl
  have h5 : ∀ q r, reservedRow { s with mem := m, lq := l } v q r = reservedRow s v q r := fun _ _ => rfl
  have h6 : ∀ r, spadTaken { s with mem := m, lq := l } c r = spadTaken s c r := fun _ => rfl
  have h7 : ∀ q r, reservedSlot { s with mem := m, lq := l } v q r = reservedSlot s v q r := fun _ _ => rfl
  have h8 : halted { s with mem := m, lq := l } c = halted s c := rfl
  have h9 : ∀ q, restoreWaits { s with mem := m, lq := l } v c q = restoreWaits s v c q := fun _ => rfl
  have h10 : partsOf { s with mem := m, lq := l } v = partsOf s v := rfl
  simp only [workerFit, freeRows, freeSpad, h1, h2, h3, h4, h5, h6, h7, h8, h9, h10]
/-- Every core of die 0 but the first eight is stopped. -/
def few (s : State) : State := s.onCores fun c => { c with halted := (List.range 200).map (fun i => (8 + i, 0)) }
theorem meets_Dispatchers : launchOffer r0 0 0 = none ∧ taskOffer r0 0 0 = none
    ∧ (launchOffer (few (withLaunch (launch1 goodRec))) 0 0).isSome = true ∧ (launch1 goodRec).level 3 = none
    ∧ (launchOffer (few (withLaunch (launch1 team1))) 0 0).isSome = true ∧ (launch1 team1).level 3 ≠ none
    ∧ (taskOffer (few (withReady (rdy none))) 0 0).map (fun x => x.1.resume) = some none
    ∧ (taskOffer (few (withReady (rdy (some (0, 1))))) 0 0).map (fun x => (x.1.resume, clusterOfCore x.2.1)) = some (some (0, 1), 1)
    ∧ workerIdle r0 0 0 0 = false := by decide +kernel
/-- A packet whose owner bit is right, a bad one, and one whose owner bit is wrong. -/
theorem meets_Dispatchers_worker : (∀ c ∈ ([0x80, 0x98, 0x00] : List Byte), ∃ p y, workerIdle (withRing p (padTo 256 (pk c))) 0 0 0 = true
      ∧ gpaReadN (withRing p (padTo 256 (pk c))) (ioEng 0 0)
        (((govOf (withRing p (padTo 256 (pk c))) 0 0).stage (wkStage ((govOf (withRing p (padTo 256 (pk c))) 0 0).worker 0))).base + 256 * 0) 256
          = (y, .ok (padTo 256 (pk c), false))
      ∧ fitsGrant y 0 (pkNeed (pk 0)) = true ∧ (workerFit y 0 1 16 (pkNeed (pk 0))).isSome = true)
    ∧ bit (field (padTo 256 (pk 0x80)) 1 1) 7 = ownerBit 0 4 ∧ bit (field (padTo 256 (pk 0)) 1 1) 7 ≠ ownerBit 0 4 ∧ pkOk (padTo 256 (pk 0x80)) = true
    ∧ pkPhased (padTo 256 (pk 0x80)) = false ∧ pkNeed ((padTo 256 (pk 0x80)).take (16 * field (padTo 256 (pk 0x80)) 0 1)) = pkNeed (pk 0)
    ∧ pkOk (padTo 256 (pk 0x98)) = false := by
  refine ⟨fun c hc => ?_, by decide +kernel, by decide +kernel, by decide +kernel, by decide +kernel, by decide +kernel, by decide +kernel⟩
  have hl : (padTo 256 (pk c)).length = 256 := by fin_cases hc <;> decide +kernel
  obtain ⟨p, y, h1, ⟨m, l, rfl⟩, h5⟩ := ring_reads _ hl
  exact ⟨p, _, h1, h5, (fits_frame r0 m l 0 _).trans worker_ok0.1, by rw [worker_frame r0 m l 0 1 16]; exact worker_ok0.2⟩

/-! Counters, tasks, the governor and collectives. -/

def withCounter (st : CntSt) (value : BitVec 16) (d : Dec) : State :=
  (onCounter r0 5 (fun c => { c with st := st, value := value, packet := pk 0 })).onLq fun q => { q with decs := [d] }
def dec1 (v : Nat) : Dec := { cycle := 0, key := 0, vd := v, core := none, asid := 0, launch := none, after := none, handles := [5] }
def busy : State := r0.onCores fun c => { c with blocks := { bareBlock with bid := 2, owner := .task 0 } :: c.blocks }
/-- The governor on, two stages: stage 0 of two workers and nothing to do, stage 1 with work and one worker. -/
def governed : State := onGov r0 0 0 (fun _ =>
  { Gov.reset with
    ctl := 1
    workers := [(0, 0x80000001), (1, 0x80000002), (2, 0x81000003)]
    stages := [(0, { Stage.reset with ring := 1, thr := 0x0000000400010801 }), (1, { Stage.reset with ring := 1, tail := 9, thr := 0x0000000400010801 })] })
def coll (dt : Byte) : CollCtx :=
  { cid := 0, vd := 0, asid := 0, owner := .monitor, core := 0, desc := [1, dt] ++ List.replicate 62 0, ctx := some 0, need := 2, beats := 2, peers := none }
def withColl (c : CollCtx) : State := r0.onLoc fun l => { l with colls := [c] }
theorem meets_CountersAndTasks : r0.lq.decs = [] ∧ (withCounter .armed 2 (dec1 0)).lq.decs = [dec1 0] ∧ (dec1 0).handles = [5] ∧ bits (5#32).toNat 31 30 = 0
    ∧ vdRuns (withCounter .armed 2 (dec1 3)) 3 = false ∧ vdRuns (withCounter .armed 2 (dec1 0)) 0 = true
    ∧ ((counterAt (withCounter .armed 2 (dec1 0)) 5).st = .armed ∧ (counterAt (withCounter .armed 2 (dec1 0)) 5).value.toNat = 2)
    ∧ (counterAt (withCounter .armed 1 (dec1 0)) 5).value.toNat = 1 ∧ (counterAt (withCounter .running 0 (dec1 0)) 5).st ≠ .armed
    ∧ findTask r0 0 = none ∧ (findTask (withTask (pk 0) (some 5)) 0).map (taskDone (withTask (pk 0) (some 5))) = some true
    ∧ (findTask (withTask (pk 0) none) 0).map (taskDone busy) = some false
    ∧ bit (govOf r0 0 0).ctl.toNat 0 = false ∧ bit (govOf governed 0 0).ctl.toNat 0 = true
    ∧ (r0.loc.colls.filter (fun c => c.vd == 0 && c.ctx.isSome))[0]? = none
    ∧ ((withColl (coll 5)).loc.colls.filter (fun c => c.vd == 0 && c.ctx.isSome))[0]? = some (coll 5) ∧ (coll 5).need ≤ (coll 5).beats
    ∧ (coll 5).beats < { coll 5 with need := 3 }.need ∧ (coll 5).peers = none
    ∧ (withCounter .running 0 { dec1 0 with after := some (0, 31) }).lq.decs = [{ dec1 0 with after := some (0, 31) }] := by decide +kernel
theorem meets_CountersAndTasks_governor : govMoves (govOf governed 0 0) = [(1, 1)] := by decide +kernel
/-- A collective whose table is not one. -/
theorem meets_CountersAndTasks_collective : ∃ y st out bad, collRun (withColl (coll 5)) (coll 5) [] = (y, some (st, out, bad)) := by
  have hs : Small (withColl (coll 5)) := ⟨⟨0, rfl⟩, rfl, rfl, .inl r0_off⟩
  obtain ⟨t, h, -⟩ := small_eng hs 0 16 (by decide)
  unfold collRun
  have he : ioEng (coll 5).vd (coll 5).asid = ioEng 0 0 := rfl
  have hp : field (coll 5).desc 32 8 = 0 := by decide +kernel
  have hd : (cDType (coll 5).desc).isSome = true := by decide +kernel
  obtain ⟨d, hd⟩ := Option.isSome_iff_exists.mp hd
  have hz : field (readMem (withColl (coll 5)) 0 16) 0 4 ≠ 0x4B575047 := by decide +kernel
  simp only [he, hp, hd, h, Bool.false_eq_true, if_false]
  rw [if_pos (.inl hz)]
  exact ⟨_, _, _, _, rfl⟩

/-! Timers and queues. -/

/-- A second group, pending; a mandrel timer past; VD 0's timer due on core 0; a queue of core 0 with a batch and a watchdog due. -/
def timed : State :=
  let s := setVd (pick w0 0 0 0 0 0) 0 (fun r => { r with vtimer := 0x8000000000000000 })
  let s := s.onCores fun c =>
    { c with
      groups := c.groups ++ [{ bareGroup with gid := 840, slot := 1, active := false }]
      mandrel := [(0, { Mandrel.reset with mtcmp := 10 })]
      svq := [(0, { Svq.reset with timer := some 0, batchSince := some 0, wdog := 1, tail := 1 })] }
  { s with sch := { s.sch with cycle := 1000000 } }
def post (idx : Option (BitVec 9)) : SvqPost := { num := 4, core := 0, vd := 0, entry := [], gid := none, swage := none, src := .core, idx := idx }
def withPost (base : DWord) (head tail : BitVec 9) : State :=
  (pick w0 0 0 0 0 0).onCores fun c => { c with posts := [post none], svq := [(0, { Svq.reset with base := base, head := head, tail := tail })] }
theorem meets_CoreTimers : (oldestActive timed 0 0 0).isSome = true ∧ (oldestPending timed 0 0 0).isSome = true ∧ oldestPending w0 0 0 0 = none
    ∧ nsNow w0 < (mandrelOf w0 0).mtcmp.toNat ∧ (mandrelOf timed 0).mtcmp.toNat ≤ nsNow timed ∧ vtDue w0 0 = false ∧ vtDue timed 0 = true
    ∧ vtCore timed 0 < 832 ∧ batchDue w0 0 0 = false ∧ batchDue timed 0 0 = true ∧ watchdogDue w0 0 0 = false ∧ watchdogDue timed 0 0 = true
    ∧ svqWaiters w0 0 0 = 0
    ∧ (withPost 1 0 0).cores.posts.filter (fun x => x.core == 0 && x.vd == 0 && x.idx.isNone) = [post none]
    ∧ (withPost 1 0 0).cores.posts.find? (fun x => x.num == (post none).num) = some (post none)
    ∧ bit (svqOf (withPost 0 0 0) 0 0).base.toNat 0 = false ∧ (svqOf (withPost 1 0 256) 0 0).count = 256 ∧ (svqOf (withPost 1 256 255) 0 0).count = 511 := by
  decide +kernel
theorem meets_CoreTimers_slot : ∃ p k t y a, bit (svqOf (withPost (BitVec.ofNat 64 (16384 * k + 1)) 0 t) 0 0).base.toNat 0 = true
    ∧ (svqOf (withPost (BitVec.ofNat 64 (16384 * k + 1)) 0 t) 0 0).count ≠ 256 ∧ halted (withPost (BitVec.ofNat 64 (16384 * k + 1)) 0 t) 0 = false
    ∧ svqSlot (withPost (BitVec.ofNat 64 (16384 * k + 1)) 0 t) 0 0 t.toNat = (y, some a) ∧ p ≤ 6 := by
  obtain ⟨p, h1, h2, h3⟩ := free_page
  have hs : ∀ b t, Small (withPost b 0 t) := fun _ _ => ⟨⟨0, rfl⟩, rfl, rfl, w0_off⟩
  have hb : bits (BitVec.ofNat 64 (16384 * (p / 4) + 1)).toNat 63 14 * 16384 = 16384 * (p / 4) := by
    rw [BitVec.toNat_ofNat, Nat.mod_eq_of_lt (by omega)]; unfold bits; omega
  have ho : (BitVec.ofNat 64 (16384 * (p / 4) + 1)).toNat = 16384 * (p / 4) + 1 := by rw [BitVec.toNat_ofNat, Nat.mod_eq_of_lt (by omega)]
  have ht : (BitVec.ofNat 9 (64 * (p % 4))).toNat = 64 * (p % 4) := by rw [BitVec.toNat_ofNat, Nat.mod_eq_of_lt (by omega)]
  refine ⟨p, p / 4, BitVec.ofNat 9 (64 * (p % 4)), withPost (BitVec.ofNat 64 (16384 * (p / 4) + 1)) 0 (BitVec.ofNat 9 (64 * (p % 4))), 4096 * p, ?_, ?_,
    show halted w0 0 = false by decide, ?_, h2⟩
  · show bit (BitVec.ofNat 64 (16384 * (p / 4) + 1)).toNat 0 = true
    rw [ho]; unfold bit; exact decide_eq_true (by omega)
  · show ((BitVec.ofNat 9 (64 * (p % 4))).toNat + 512 - 0) % 512 ≠ 256
    rw [ht]; omega
  · have hx := small_xlate (hs (BitVec.ofNat 64 (16384 * (p / 4) + 1)) (BitVec.ofNat 9 (64 * (p % 4)))) true (h3 _ (hs _ _).net (4096 * p) (by omega))
    have hc := small_check (hs (BitVec.ofNat 64 (16384 * (p / 4) + 1)) (BitVec.ofNat 9 (64 * (p % 4)))) (x := 4096 * p) (by omega)
    have hf : ownsFrame (withPost (BitVec.ofNat 64 (16384 * (p / 4) + 1)) 0 (BitVec.ofNat 9 (64 * (p % 4)))) 0 (4096 * p) = true := by
      have hz : 4096 * p / 65536 = 0 := by omega
      unfold ownsFrame
      rw [hz]
      exact show ownsFrame w0 0 0 = true by decide
    have hq : svqOf (withPost (BitVec.ofNat 64 (16384 * (p / 4) + 1)) 0 (BitVec.ofNat 9 (64 * (p % 4)))) 0 0
        = { Svq.reset with base := BitVec.ofNat 64 (16384 * (p / 4) + 1), head := 0, tail := BitVec.ofNat 9 (64 * (p % 4)) } := rfl
    have hadd : 16384 * (p / 4) + 64 * (64 * (p % 4) % 256) = 4096 * p := by omega
    unfold svqSlot
    simp only [hq, hb, ht, hadd, hx, hf, hc]
    rfl

/-! Groups, walks, counters and the Swage. -/

def heldAll : List Thread := List.replicate 16 { bareThread with st := .held 1 true }
/-- The group held since cycle 0, in a VD whose context area is in use, at the first cycle that swaps it out. -/
def longHeld : State :=
  let s := (withGroup { bareGroup with threads := heldAll, heldSince := some 0 }).onCores fun c => { c with svq := [(0, { Svq.reset with ctx := 1 })] }
  { s with sch := { s.sch with cycle := 5200, sel := { s.sch.sel with n := 832 } } }
def away : Group := { bareGroup with owner := .server, resid := .frame true, active := false }
def wrec (arg : Nat) : WaitRec := { place := .sram 0 5, va := 0, w64 := false, cmp := .eq, scope := .thread, arg := arg, d := .p 1, deadline := some 9 }
def waiting (arg : Nat) : Group := { bareGroup with threads := { bareThread with st := .wait (.waita (wrec arg)) } :: List.replicate 15 Thread.none }
def isOk {ε α : Type} (x : Except ε α) : Bool :=
  match x with
  | .ok _ => true
  | .error _ => false
theorem ok_of {σ ε α : Type} {x : σ × Except ε α} (h : isOk x.2 = true) : ∃ y a, x = (y, .ok a) := by
  rcases x with ⟨y, e | a⟩
  · cases h
  · exact ⟨y, a, rfl⟩
theorem err_of {σ ε α : Type} {x : σ × Except ε α} (h : isOk x.2 = false) : ∃ y e, x = (y, .error e) := by
  rcases x with ⟨y, e | a⟩
  · exact ⟨y, e, rfl⟩
  · cases h
theorem end_of {x : State × Done} {d : Done} (h : x.2 = d) : ∃ y, x = (y, d) := ⟨x.1, by rw [← h]⟩
def isTrap (d : Done) : Bool :=
  match d with
  | .trap _ => true
  | _ => false
theorem trap_of {x : State × Done} (h : isTrap x.2 = true) : ∃ y e, x = (y, .trap e) := by
  rcases x with ⟨y, d⟩
  cases d <;> first | exact ⟨_, _, rfl⟩ | cases h
def counted (n : Nat) : State := { State.reset with mem := { State.reset.mem with minor := [(minorKey 0 (homeStack 0) (localLine 0), n)] } }
theorem meets_GroupsAndMemoryEvents : findGroup w0 5 = none ∧ findGroup w0 832 = some bareGroup ∧ bareGroup.heldSince = none
    ∧ ((findGroup longHeld 832).map (fun g => (g.heldSince, swappable longHeld g)) = some (some 0, true) ∧ 0 + 5200 ≤ longHeld.sch.cycle ∧ 5199 < 0 + 5200)
    ∧ (findGroup (withGroup away) 832 = some away ∧ away.resid = .frame true ∧ (restoreSpot (withGroup away) away).isSome = true)
    ∧ restoreSpot ((withGroup away).onCores fun c => { c with halted := [(0, 1)] }) away = none ∧ bareGroup.resid ≠ .frame true
    ∧ canIssue w0 bareGroup = true ∧ canIssue (withGroup away) away = false ∧ (bareGroup.thread 0).st ≠ .wait (.waita (wrec 0))
    ∧ ((waiting 0).thread 0).st = .wait (.waita (wrec 0)) ∧ lineMinor (counted 126) 0 ≠ 127 ∧ lineMinor (counted 127) 0 = 127 := by decide +kernel
theorem meets_GroupsAndMemoryEvents_waits : (∃ y, waStep (withGroup (waiting 0)) (waiting 0) 0 (wrec 0) false = (y, .next))
    ∧ (∃ y, waStep (withGroup (waiting 1)) (waiting 1) 0 (wrec 1) true = (y, .next))
    ∧ (∃ y, waStep (withGroup (waiting 1)) (waiting 1) 0 (wrec 1) false = (y, .wait (.waita (wrec 1))))
    ∧ ∃ y e, waStep ((withGroup (waiting 1)).onLoc fun l => { l with sramPoison := [0] }) (waiting 1) 0 (wrec 1) false = (y, .trap e) :=
  ⟨end_of (by decide +kernel), end_of (by decide +kernel), end_of (by decide +kernel),
    trap_of (by decide +kernel)⟩
theorem meets_GroupsAndMemoryEvents_lines : (∃ y b, convoyLine w0 bareGroup 0 [0] = (y, .ok b))
    ∧ ∃ y e, convoyLine w0 { bareGroup with threads := [{ bareThread with pc := 8, entry := true }] } 8 [0] = (y, .error e) :=
  ⟨ok_of (by decide +kernel), err_of (by decide +kernel)⟩

/-- A window of 4 rows of 32 F16 elements of block 1 at row 0 of its scratchpad, and a context of cluster 0 that fills or drains it. -/
def wdesc (kind : Byte) : Bytes := leBytes 8 0 ++ leBytes 4 0 ++ leBytes 4 256 ++ [kind, 0, 0, 0, 255, 0, 0, 0, 0, 1, 0, 0] ++ leBytes 12 0 ++ leBytes 4 64
  ++ leBytes 2 4 ++ leBytes 2 32 ++ leBytes 16 0
def win1 (kind : Byte) : Window := { Window.none with st := .filling, desc := wdesc kind, blk := 1, vd := 0 }
def job (drain : Bool) : SwageJob := { core := 0, entry := 3, drain := drain, caller := none, vd := 0, asid := 0 }
def sctx (drain : Bool) (pos : Nat) : SwageCtx :=
  { job := job drain, pos := pos, cpos := 0, part := [], buf := List.replicate 256 7, bad := [], stopped := none, held := some (0, 0, false), viol := 0
    first := none, action := 0 }
def swaging (kind : Byte) (c : List (Nat × SwageCtx)) (q : List SwageJob) : State :=
  (pick (setVd w0 0 (fun r => { r with clu := 0x40000000 })) 0 0 0 0 0).onLoc fun l =>
    { l with windows := [(3, win1 kind)], swage := c, swageQueue := [(0, q)] }
theorem meets_SwageWork : swageNext w0 0 0 = none ∧ (swageNext (swaging 0 [] [job false]) 0 0).map (·.1) = some (job false)
    ∧ (findBlock (swaging 0 [] [job true]) (winOf (swaging 0 [] [job true]) 0 3).blk).isSome = true
    ∧ (winOf (swaging 0 [] [job true]) 0 3).early (swaging 0 [] [job true]) = 0 ∧ (winOf (swaging 2 [] [job false]) 0 3).early (swaging 2 [] [job false]) = 8
    ∧ w0.loc.swage.find (swageCtxKey 0 0) = none ∧ (swaging 0 [(0, sctx false 0)] []).loc.swage.find (swageCtxKey 0 0) = some (sctx false 0)
    ∧ (win1 0).payload = 256 ∧ (sctx false 0).stopped = none ∧ (sctx false 0).pos < 256 ∧ (sctx true 256).job.drain = true ∧ (win1 0).fmt = 0
    ∧ 0 < (win1 0).rowLen ∧ (beatDrain (swaging 0 [(0, sctx true 0)] []) (swEng w0 0 0 0) 0 bareBlock (win1 0) (sctx true 0)).2 = .moved
    ∧ (beatFill (swaging 0 [(0, sctx false 0)] []) (swEng w0 0 0 0) 0 bareBlock (win1 0) (sctx false 0)).2 = .moved
    ∧ (beatHalo (swaging 2 [(0, sctx false 0)] []) 0 bareBlock (win1 2) (sctx false 0)).2 = .moved := by decide +kernel
/-- Slice pair 0 between VDs 0 and 1, with VD 1 the holder, and a block of VD 0 in its region. -/
def sliced (s : State) : State :=
  (s.onVds fun c => { c with slices := c.slices.set 0 { SlicePair.reset with en := true, vda := 0, vdb := 1, holderB := true } }).onCores fun c =>
    { c with blocks := [{ bareBlock with inRegion := some 0 }] }
theorem meets_SwageWork_here : winHere (swaging 0 [(0, sctx false 0)] []) (win1 0) = true ∧ winHere (sliced (swaging 0 [(0, sctx false 0)] [])) (win1 0) = false
    ∧ (findBlock (sliced (swaging 0 [(0, sctx false 0)] [])) 1).map (·.here (sliced (swaging 0 [(0, sctx false 0)] []))) = some false
    ∧ (win1 0).payload ≤ (sctx false 256).pos ∧ (win1 0).payload ≤ (sctx true 256).pos
    ∧ (swageRead (swaging 0 [(0, sctx false 0)] []) (swEng w0 0 0 0) (some (0, 0, false)) 0 64).1.loc.swage.find 0 = some (sctx false 0) := by decide +kernel
theorem meets_SwageWork_read : ∃ y d p h, swageRead (swaging 0 [(0, sctx false 0)] []) (swEng w0 0 0 0) (some (0, 0, false)) 0 64 = (y, .ok (d, p), h) := by
  have h : isOk (swageRead (swaging 0 [(0, sctx false 0)] []) (swEng w0 0 0 0) (some (0, 0, false)) 0 64).2.1 = true := by decide +kernel
  rcases hx : swageRead (swaging 0 [(0, sctx false 0)] []) (swEng w0 0 0 0) (some (0, 0, false)) 0 64 with ⟨y, e | ⟨d, p⟩, h'⟩
  · rw [hx] at h; cases h
  · exact ⟨y, d, p, h', rfl⟩

/-! The Anvil: an operation of one K-step on tile 0 with its A rows in window 0 and its B tile in window 1 of core 0, and a drain. -/

def param1 : Bytes := [0, 0, 0, 0, 0, 0, 0, 0] ++ leBytes 2 1 ++ leBytes 2 0 ++ [0, 255, 255, 255] ++ leBytes 2 96 ++ leBytes 6 0 ++ [0, 1, 0, 0]
  ++ leBytes 4 6400 ++ [255, 255, 255, 255, 255, 255, 255, 255] ++ leBytes 24 0
def ent1 (mdr : Option MxdrainMod) : AnvilEntry :=
  { vd := 0, gen := 1, order := 0, core := 0, gid := 832, tid := 0, blk := 1, asid := 0, ops := leBytes 16 0, param := param1, mdr := mdr, pc := 0, zeroed := false, done := 0
    passed := 0, status := 0 }
def mwin (n : Nat) : Window := { Window.none with st := .present, desc := leBytes 12 0 ++ leBytes 4 n ++ List.replicate 48 0, blk := 1 }
def anvil1 (l : List (Nat × AnvilEntry)) (q : List (Nat × Nat)) : State :=
  let s := (pick (setVd w0 0 (fun r => { r with core := 0x200040010010, clu := 0x00100400 })) 0 0 0 0 0).onLoc fun x =>
    { x with windows := [(0, mwin 1536), (1, mwin 6400)], entries := l, mxQueue := [(0, q)] }
  s.onCores fun c => { c with blocks := [{ bareBlock with rowCount := 1 }] }
def drain1 : MxdrainMod := ⟨.f32, .rn, false, false, false, false, false, 0⟩
def mxWaits : Group := { bareGroup with threads := { bareThread with st := .wait (.mxEntry (.g 4) none (leBytes 4 0) 7) } :: List.replicate 15 Thread.none }
def queued : State := (anvil1 [] [(832, 0)]).onCores fun c => { c with groups := [mxWaits] }
/-- A waiter whose group is saved away, and another in its core. -/
def queuedAway : State := (anvil1 [] [(833, 1), (832, 0)]).onCores fun c => { c with groups := [{ bareGroup with gid := 833, resid := .saved 0 }, mxWaits] }
def zeroing : AnvilEntry := { ent1 none with param := param1.set 0 1 }
theorem meets_AnvilWork_more : queuedAway.loc.mxQueue.at [] (engineKey 0 0) = [(833, 1)] ++ (832, 0) :: []
    ∧ (findGroup queuedAway 833).map (·.resid == .core) = some false ∧ freeEntry queuedAway 0 0 = some 0
    ∧ (findBlock (sliced (anvil1 [(0, ent1 none)] [])) (ent1 none).blk).map (·.here (sliced (anvil1 [(0, ent1 none)] []))) = some false
    ∧ (anvil1 [(0, zeroing)] []).loc.entries.find 0 = some zeroing ∧ mxFirst (anvil1 [(0, zeroing)] []) 0 zeroing = true ∧ zeroing.validate (anvil1 [(0, zeroing)] []) = 0
    ∧ zeroing.done < zeroing.ksteps ∧ tileIn (anvil1 [(0, zeroing)] []) zeroing.vd zeroing.tile = true ∧ bit zeroing.flags 0 = true ∧ zeroing.zeroed = false
    ∧ (engineOf (anvil1 [] []) 0 0).burst = false := by decide +kernel
theorem meets_AnvilWork : (anvil1 [] []).loc.mxQueue.at [] (engineKey 0 0) = [] ∧ freeEntry w0 0 0 = none
    ∧ (queued.loc.mxQueue.at [] (engineKey 0 0) = [(832, 0)] ∧ freeEntry queued 0 0 = some 0 ∧ findGroup queued 832 = some mxWaits
      ∧ (mxWaits.thread 0).st = .wait (.mxEntry (.g 4) none (leBytes 4 0) 7) ∧ clusterOfCore mxWaits.core = 0)
    ∧ mxWinner (mxSurvey (anvil1 [] []) 0 0).1 0 0 (mxSurvey (anvil1 [] []) 0 0).2 = none
    ∧ mxWinner (mxSurvey (anvil1 [(0, ent1 none)] []) 0 0).1 0 0 (mxSurvey (anvil1 [(0, ent1 none)] []) 0 0).2 = some (0, ent1 none)
    ∧ ((mxSurvey (anvil1 [(0, ent1 none)] []) 0 0).2.map (·.1)) = [0]
    ∧ (anvil1 [] []).loc.entries.find 0 = none ∧ (anvil1 [(0, ent1 none)] []).loc.entries.find 0 = some (ent1 none)
    ∧ (ent1 none).mdr = none ∧ (findBlock (anvil1 [(0, ent1 none)] []) 1).map (·.here (anvil1 [(0, ent1 none)] [])) = some true
    ∧ (ent1 (some drain1)).mdr = some drain1 ∧ (mxFirst (anvil1 [(0, ent1 (some drain1))] []) (0 / 32) (ent1 (some drain1))
      && tileIn (anvil1 [(0, ent1 (some drain1))] []) 0 (ent1 (some drain1)).tile) = true
    ∧ tileIn (setVd (anvil1 [(0, ent1 (some drain1))] []) 0 (fun r => { r with clu := 0 })) 0 (ent1 (some drain1)).tile = false := by decide +kernel

/-! Checks, traps, ends of threads, the step, encodings and memory. -/

def tailQp : Qp := { qp with tail := 65535, stopped := true }
theorem meets_TailStores : findQp (withQp tailQp) (0 : Vd).val 0 = some tailQp ∧ tailQp.evicted = false
    ∧ (1 ≤ ((32767#64).toNat % 65536 + 65536 - tailQp.tail.toNat) % 65536 ∧ ((32767#64).toNat % 65536 + 65536 - tailQp.tail.toNat) % 65536 = 32768)
    ∧ ((32767#64).toNat % 65536 + 65536 - (5#64).toNat % 65536) % 65536 < 32768 := by decide +kernel

/-- An instruction whose register is not the group's, and privileged ones in a U group. -/
def uGroup : Group := { bareGroup with priv := .u, regs := 8 }
theorem meets_ChecksBeforeEffect : (withGroup uGroup).sch.ctx = some c0 ∧ findGroup (withGroup uGroup) c0.gid = some uGroup
    ∧ ((Instr.iadd h0 ar (.g 8) (.g 4) (.g 5)).raw.isSome = true ∧ legal (.iadd h0 ar (.g 8) (.g 4) (.g 5)) uGroup = false)
    ∧ ((Instr.halt h0 (.g 4)).raw.map (·.opc) = some 0xF4 ∧ legal (.halt h0 (.g 4)) uGroup = true ∧ 0 < 2) := by decide +kernel

def tr1 : Trap := { cause := 0x0B }
theorem meets_TrapEntries : (∀ g ∈ [bareGroup, uGroup], Selected (withGroup g) c0 g ∧ ∀ u b, (g.thread u).st ≠ .held (withGroup g).cores.nextNum b)
    ∧ c0.tids ≠ [] ∧ tr1.each = false ∧ tr1.cause ≠ 0x0E ∧ uGroup.priv ≠ .h ∧ bareGroup.priv = .h ∧ halted w0 0 = false := by
  refine ⟨?_, by decide +kernel, by decide +kernel, by decide +kernel, by decide +kernel, by decide +kernel, by decide +kernel⟩
  intro g hg
  have hs : Selected (withGroup g) c0 g := by
    fin_cases hg <;> exact ⟨rfl, rfl, by decide, by decide, by decide, by decide, rfl⟩
  have hst : ∀ u, (g.thread u).st = .ready ∨ (g.thread u).st = .exited := by
    have ht : g.threads = bareThread :: List.replicate 15 Thread.none := by fin_cases hg <;> rfl
    intro u
    by_cases hu : u < 16
    · unfold Group.thread; rw [ht]; interval_cases u <;> decide
    · unfold Group.thread; rw [ht, List.getD_eq_default _ _ (by simpa using hu)]; decide
  exact ⟨hs, fun u b h => by rcases hst u with h' | h' <;> rw [h'] at h <;> cases h⟩

theorem meets_EndsOfThreads : findGroup w0 c0.gid = some bareGroup ∧ w0.ras.pending = [] ∧ c0.tids.Nodup ∧ (∀ u ∈ c0.tids, u < bareGroup.threads.length)
    ∧ ∀ d ∈ [Done.next, Done.jump 96, Done.wait .phase, Done.exit], ([(0, d)].map (·.1)).Nodup ∧ ∀ e ∈ [(0, d)], ∀ tr, e.2 ≠ .trap tr := by
  refine ⟨by decide +kernel, by decide +kernel, by decide +kernel, by decide +kernel, fun d hd => ⟨by simp, fun e he tr => ?_⟩⟩
  rw [List.mem_singleton.mp he]
  fin_cases hd <;> simp

def fetches (word : Nat) (t : Turn) : State := (placeWord State.reset word).onSch fun c => { c with todo := [t] }
def line0 (s : State) : State × Except Trap Bytes := convoyLine s bareGroup 0 [0]
def aged (word : Nat) (t : Turn) : State := onGroup ((fetches word t).onSch fun c => { c with todo := [] }) 832 (fun k => k.ageBy [0] 0)
def phaseAt (p : CyclePhase) (d : List Dec) : State := (w0.onSch fun c => { c with phase := p }).onLq fun q => { q with decs := d }
def atSlot1 : Group := { bareGroup with threads := { bareThread with pc := 1 } :: List.replicate 15 Thread.none }
theorem meets_StepRunsDecoded_phases : (∀ p d, (phaseAt p d).sch.inputs = [] ∧ (phaseAt p d).sch.todo = [] ∧ (phaseAt p d).sch.phase = p)
    ∧ dueDecs (phaseAt .over []) = [] ∧ dueDecs (phaseAt .over [{ dec1 0 with cycle := 0 }]) ≠ [] := by
  refine ⟨fun _ _ => ⟨rfl, rfl, rfl⟩, by decide +kernel, by decide +kernel⟩
theorem meets_StepRunsDecoded : (State.reset.onSch fun c => { c with inputs := [(.coldReset, Sel.none)] }).sch.inputs = [(.coldReset, Sel.none)]
    ∧ (w0.sch.inputs = [] ∧ w0.sch.todo = []) ∧ (fetches nopWord (.ev .mandrelTimer Sel.none)).sch.todo = [.ev .mandrelTimer Sel.none]
    ∧ ((fetches nopWord (.issue 832)).sch.inputs = [] ∧ (fetches nopWord (.issue 832)).sch.todo = [.issue 832])
    ∧ (findGroup (fetches nopWord (.issue 832)) 832 = some bareGroup ∧ bareGroup.choosePc = 0 ∧ bareGroup.convoyAt 0 = [0])
    ∧ (canIssue (fetches nopWord (.issue 832)) bareGroup = true ∧ canIssue (withGroup away) away = false)
    ∧ (fetches nopWord (.pair 832 1 [0])).sch.todo = [.pair 832 1 [0]]
    ∧ (findGroup (withGroup atSlot1) 832 = some atSlot1 ∧ canIssue (withGroup atSlot1) atSlot1 = true)
    ∧ [0].filter (fun u => (atSlot1.thread u).st == .ready && (atSlot1.thread u).pc == 1 && (atSlot1.thread u).jpc != 1) = [0] := by decide +kernel
theorem meets_StepRunsDecoded_lines : (∃ z b, line0 (aged nopWord (.issue 832)) = (z, .ok b) ∧ decodeBytes (slotBytes b 0) = some (.nop h0))
    ∧ (∃ z b, line0 (aged 0 (.issue 832)) = (z, .ok b) ∧ decodeBytes (slotBytes b 0) = none) := by
  have key : ∀ w, isOk (line0 (aged w (.issue 832))).2 = true → ∃ z b, line0 (aged w (.issue 832)) = (z, .ok b)
      ∧ (match (line0 (aged w (.issue 832))).2 with | .ok b => b | .error _ => []) = b := fun w h => by
    obtain ⟨z, b, e⟩ := ok_of h
    exact ⟨z, b, e, by rw [e]⟩
  obtain ⟨z, b, e, rfl⟩ := key nopWord (by decide +kernel)
  obtain ⟨z', b', e', rfl⟩ := key 0 (by decide +kernel)
  exact ⟨⟨z, _, e, by decide +kernel⟩, z', _, e', by decide +kernel⟩

theorem meets_DecodeOfEncode : Instr.wf (.ffma h0 ⟨true, true, .rd⟩ (.g 4) (.g 5) (.g 6) (.g 7)) = true
    ∧ Instr.wf (.iadd h0 ar (.p 1) (.g 4) (.g 5)) = false ∧ decodeWord 0x10_0000_0000_05_04_06_FFFF0000 = some (.iadd h0 ar (.g 5) (.g 4) (.g 6)) := by
  decide
theorem meets_MemoryStaysCanonical : Memory.wf (fetches nopWord (.issue 832)).mem.cells = true ∧ ∃ t, step (fetches nopWord (.issue 832)) = .next t := by
  refine ⟨by decide +kernel, ?_⟩
  have h : (match step (fetches nopWord (.issue 832)) with | .next _ => true | _ => false) = true := by decide +kernel
  rcases hs : step (fetches nopWord (.issue 832)) with t | f | r
  · exact ⟨t, rfl⟩
  all_goals rw [hs] at h; cases h

/-- The machine out of reset with its mandrel lanes' numbers taken, and its next step. -/
def running0 : State := (fetches nopWord (.issue 832)).onCores fun c => { c with nextGid := 833 }
theorem meets_GroupsAndTablesStay : Orderly State.reset ∧ Orderly running0 ∧ ∃ t, step running0 = .next t := by
  refine ⟨⟨by decide, by decide, by decide, by decide, by decide, by simp [Rising, State.reset], by simp [Rising, State.reset], by simp [Rising, State.reset],
      by simp [Rising, State.reset], by simp [Rising, State.reset], by simp [Rising, State.reset]⟩,
    ⟨by decide, by decide, by decide, by decide, by decide, .nil, ⟨.nil, .nil⟩, .nil, .nil, .nil, ?_⟩, ?_⟩
  · exact List.pairwise_singleton _ _
  have h : (match step running0 with | .next _ => true | _ => false) = true := by decide +kernel
  rcases hs : step running0 with t | f | r
  · exact ⟨t, rfl⟩
  all_goals rw [hs] at h; cases h

/-! Rounding, and what the frame operations meet. -/

/-- The two numbers about the middle between the largest F16 and what would follow it, rounded as IEEE 754 has it, and sums of each kind. -/
theorem meets_RoundingRule : rnd f16 .rn (.num false 65519 0) = 0x7BFF ∧ rnd f16 .rn (.num false 65520 0) = 0x7C00
    ∧ (roundTo f16 .rn true (.num true 65520 0)) = ⟨0xFBFF, true⟩ ∧ rnd f16 .rz (.inf true) = 0xFC00
    ∧ sumFl true [.num false 1 0, .num true 1 0] = .num true 0 0 ∧ ([.nan, .inf true] : List Fl) ≠ [] ∧ Fl.inf true ∈ ([.inf true, .inf (!true)] : List Fl)
    ∧ (Fl.num true 1 0).isNan = false ∧ (Fl.inf true).isInf = true := by decide +kernel

/-- Frame 5 free or in a state, its target VD 1 in RUN. -/
def framed (st : FrSt) : State := setFrame (vd1 .run 0) 5 { Frame.free with st := st }
theorem bit_small {t k : Nat} (ht : t < 16) (hk : 4 ≤ k) : bit t k = false := by
  have h : 2 ^ 4 ≤ 2 ^ k := Nat.pow_le_pow_right (by decide) hk
  simp [bit, Nat.div_eq_of_lt (show t < 2 ^ k by omega)]
/-- The arguments of FRASSIGN at the limits of its checks. -/
theorem meets_FrameOperations : ((16385 > 16384) ∧ 15466496 < 15466496 + 1 ∧ bit 0x10 4 = true ∧ bit 2 8 = false ∧ vdState (framed .free) (2 % 16) = .empty)
    ∧ (∀ t ∈ [1, 256], ¬(16384 = 0 ∨ 16384 < 16384 ∨ 15466496 < (15466496 - 16384) + 16384 ∨ (∃ k, 4 ≤ k ∧ k ≠ 8 ∧ bit t k = true)
        ∨ (bit t 8 = false ∧ vdState (framed .free) (t % 16) = .empty)))
    ∧ (∀ st ∈ [FrSt.scrub, .solder, .shadow, .migrating], (frameAt (framed st) 5).st = st) ∧ (∀ f, ((frameAt (framed .owned) f).st = .owned ∧ f = 5) ∨ (frameAt (framed .owned) f).st = .free)
    ∧ (solderOf (withSolder true 1) 5).en = true ∧ (solderOf (withSolder false 1) 5).en = false
    ∧ (∀ k, 1 ≤ k → k ≤ 63 → kidUsed ((vdsel .empty).onTrn fun t =>
        { t with solder := (List.range 63).map (fun i => (i, { Solder.reset with en := true, kid := BitVec.ofNat 6 (i + 1) })) }) k = true)
    ∧ kidUsed (withSolder true 1) 1 = false ∧ vdRuns (withSolder true 1) 5 = false := by
  refine ⟨by decide, fun t ht => ?_, by decide, fun f => ?_, by decide, by decide, fun k h1 h2 => ?_, by decide +kernel, by decide +kernel⟩
  · rintro (h | h | h | ⟨k, h4, h8, hb⟩ | h)
    · omega
    · omega
    · omega
    · fin_cases ht
      · rw [bit_small (by decide) h4] at hb; cases hb
      · rcases Nat.lt_or_ge k 9 with hk | hk
        · interval_cases k <;> simp_all [bit]
        · have h : 2 ^ 9 ≤ 2 ^ k := Nat.pow_le_pow_right (by decide) hk
          simp [bit, Nat.div_eq_of_lt (show 256 < 2 ^ k by omega)] at hb
    · fin_cases ht <;> revert h <;> decide +kernel
  · by_cases h : f = 5
    · left; subst h; exact ⟨by decide, rfl⟩
    · right
      have e : frameAt (framed .owned) f = Frame.free := by
        show (Tab.find (Tab.put [] 5 _) f).getD Frame.free = _
        simp [Tab.put, Tab.find, Ne.symm h]
      rw [e]; rfl
  · revert k; decide +kernel

/-! Pages being migrated: VD 1's stage 2 maps its pages 1 to 6 by leaves with MIG set, and its address-space table is one of them. -/

def migs (p : Nat) (s : State) : State :=
  (((0x10000, 0x11001) :: (0x11000, 0x12001) :: (0x12000, 0x13001) :: (List.range 6).map (fun i => (0x13008 + 8 * i, 0x5048F + 4096 * i))).foldl
    (fun s e => writeMem s e.1 (leBytes 8 e.2)) s).onTrn fun t =>
    { t with regs := [(1, { TrnRegs.reset with s2 := 0x10001, astb := BitVec.ofNat 64 (4096 * p) })]
             fot := [(0, { Frame.free with st := .owned }), (1, { Frame.free with st := .owned, owner := 0 })] }
/-- What a translation of page p of VD 1 meets. -/
structure Migs (p : Nat) (s : State) : Prop where
  small : 1 ≤ p ∧ p ≤ 6
  page : isRegPage s 1 (4096 * p) = false
  en : bit (trnOf s 1).s2.toNat 0 = true
  none : s.trn.ntlb = [] ∧ s.trn.windows = []
  walk : (s2Walk s 0 1 (4096 * p) (bits (trnOf s 1).s2.toNat 63 12 * 4096) 4).2 = .error .mig
theorem mig_stage {p : Nat} {s : State} (h : Migs p s) (a : Bool → Bool → Bool → Bool) :
    (stage2 s 0 1 (4096 * p) a).2 = .error .mig := by
  have hw := h.walk
  simp only [stage2, h.page, Bool.false_eq_true, if_false, h.en, Bool.true_eq_false, h.none.1, List.find?_nil]
  rcases hs : s2Walk s 0 1 (4096 * p) (bits (trnOf s 1).s2.toNat 63 12 * 4096) 4 with ⟨t, e | l⟩
  · rw [hs] at hw; simpa using hw
  · rw [hs] at hw; cases hw
theorem mig_gpa {p : Nat} {s : State} (h : Migs p s) (w : Bool) : (gpaXlate s 1 (4096 * p) w).2 = .error .mig := by
  have hw := mig_stage h (fun r w' _ => if w then w' else r)
  unfold gpaXlate gpaXlateF
  rcases hs : stage2 s 0 1 (4096 * p) (fun r w' _ => if w then w' else r) with ⟨t, e | l⟩
  · rw [hs] at hw; simpa using hw
  · rw [hs] at hw; cases hw
theorem mig_greads {p : Nat} {s : State} (h : Migs p s) {n : Nat} (hn : n ≠ 0) :
    (gpaReadN s (regEng 1) (4096 * p) n).2 = .error .wait := by
  have hw := mig_gpa h false
  unfold gpaReadN gpaReadF
  simp only [hn, if_false, gpaRead1, engXlate, regEng, ioEng, if_true, regXlate, Nat.one_ne_zero]
  rcases hs : gpaXlate s 1 (4096 * p) false with ⟨t, e | l⟩
  · rw [hs] at hw; cases hw; rfl
  · rw [hs] at hw; cases hw
/-- A write by virtual address waits for the address-space table. -/
theorem mig_writes {p : Nat} {s : State} (h : Migs p { s with trn := { s.trn with tlb := s.trn.tlb.filter (fun e => !(e.cluster == 0 && e.vd == 1 && e.asid == 0 && e.va == 0 / e.size * e.size)) } })
    (ha : bits (trnOf s 1).astb.toNat 63 12 = p) (ht : tlbFind s 0 1 0 0 = none) (b : Bytes) (hb : b ≠ []) :
    (engWriteN s (ioEng 1 0) 0 b).2 = .error .wait := by
  generalize hS : ({ s with trn := { s.trn with tlb := s.trn.tlb.filter (fun e => !(e.cluster == 0 && e.vd == 1 && e.asid == 0 && e.va == 0 / e.size * e.size)) } } : State) = S at h
  have hr : ∀ acc, (Machine.translate s 0 1 0 0 acc).2 = .error .mig := fun acc => by
    have hw := mig_stage h (fun r _ _ => r)
    have hm : mapped s 1 0 0 = none := by
      have : s.trn.windows = [] := by have := h.none.2; rw [← hS] at this; exact this
      simp [mapped, this]
    have he : (walk S 0 1 0 0 acc).2 = .error .mig := by
      have ha' : bits (trnOf S 1).astb.toNat 63 12 * 4096 + 8 * 0 = 4096 * p := by rw [← hS]; show bits (trnOf s 1).astb.toNat 63 12 * 4096 + 8 * 0 = _; rw [ha]; omega
      unfold walk gpaRead
      rw [ha']
      rcases hs : stage2 S 0 1 (4096 * p) (fun r _ _ => r) with ⟨t, e | l⟩
      · rw [hs] at hw; simpa using hw
      · rw [hs] at hw; cases hw
    have hl : (lookup s 0 1 0 0 acc).2 = .error .mig := by
      unfold lookup
      rw [ht]
      simp only [Option.filter_none, State.onTrn]
      rw [hS]
      rcases hs : walk S 0 1 0 0 acc with ⟨t, e | l⟩
      · rw [hs] at he; simpa using he
      · rw [hs] at he; cases he
    unfold Machine.translate xlate
    simp only [show canonical 0 = true from rfl, Bool.not_true, Bool.false_eq_true, if_false, hm]
    rcases hs : lookup s 0 1 0 0 acc with ⟨t, e | l⟩
    · rw [hs] at hl; cases hl; rfl
    · rw [hs] at hl; cases hl
  have hn : b.isEmpty = false := by cases b <;> simp_all
  unfold engWriteN engWrite
  simp only [hn, Bool.false_eq_true, if_false]
  unfold engWrite1
  have hw := hr { write := true, fetch := false, user := false, sup := false }
  simp only [ioEng]
  rcases hs : Machine.translate s 0 1 0 0 { write := true, fetch := false, user := false, sup := false } with ⟨t, e | l⟩
  · rw [hs] at hw; cases hw; rfl
  · rw [hs] at hw; cases hw
theorem migs_of {p : Nat} {s : State} (h1 : 1 ≤ p) (h2 : p ≤ 6) (hr : ∀ s : State, OffNet s 1 → ∀ x, x / 4096 = p → isRegPage s 1 x = false) (hn : OffNet s 1)
    (he : bit (trnOf s 1).s2.toNat 0 = true) (hz : s.trn.ntlb = [] ∧ s.trn.windows = [])
    (hw : (s2Walk s 0 1 (4096 * p) (bits (trnOf s 1).s2.toNat 63 12 * 4096) 4).2 = .error .mig) : Migs p s :=
  ⟨⟨h1, h2⟩, hr s hn _ (by omega), he, hz, hw⟩
/-- A queue of VD 1 and its table, on a page that is being migrated. -/
def migNet (p : Nat) (qs : Tab Qp) : State :=
  (pick (migs p (setVd w0 1 (fun r => { r with queue := 2 }))) 1 0 0 0 0).onNet fun n =>
    { n with regs := [(1, { netFar with qpt := BitVec.ofNat 64 (4096 * p) })], qps := qs }
theorem qpt_at {p : Nat} (h : p ≤ 6) : (BitVec.ofNat 64 (4096 * p)).toNat = 4096 * p := (BitVec.toNat_ofNat _ _).trans (Nat.mod_eq_of_lt (by omega))
/-- ENABLE reads its entry, and a completion its ring, on a page that is being migrated. -/
theorem meets_NetworkQueues_waits : ∃ p, (0 < qpMax (migNet p []) 1 ∧ findQp (migNet p []) 1 0 = none
      ∧ (gpaReadN (migNet p []) (regEng 1) ((netOf (migNet p []) 1).qpt.toNat + 128 * 0) 128).2 = .error .wait)
    ∧ ∀ body : Bytes, (writeCq (migNet p [(qpKey 1 0, qp)]) 1 0 body).2 = .wait := by
  obtain ⟨p, h1, h2, h3⟩ := free_page_of 1
  have ho : ∀ qs, OffNet (migNet p qs) 1 := fun qs => .inr (show 2 ^ 40 ≤ netFar.pages.toNat by decide)
  refine ⟨p, ⟨by interval_cases p <;> decide +kernel, rfl, ?_⟩, fun body => ?_⟩
  · have hm : Migs p (migNet p []) := migs_of h1 h2 h3 (ho _) (show bit (0x10001#64).toNat 0 = true by decide) ⟨rfl, rfl⟩ (by clear h3 ho; interval_cases p <;> decide +kernel)
    rw [show (netOf (migNet p []) 1).qpt.toNat + 128 * 0 = 4096 * p from qpt_at h2]
    exact mig_greads hm (by decide)
  · have hb : body ++ leBytes 4 (2 ^ 31 * (ownerBit qp.cqTail qp.cfg.cqLog2).toNat) ≠ [] := fun e => by
      have := congrArg List.length e
      simp [show ∀ x, (leBytes 4 x).length = 4 from fun _ => rfl] at this
    have hw := mig_writes (p := p) (s := migNet p [(qpKey 1 0, qp)]) (migs_of h1 h2 h3 (.inr (show 2 ^ 40 ≤ netFar.pages.toNat by decide))
      (by clear h3 ho; interval_cases p <;> decide +kernel) ⟨rfl, rfl⟩ (by clear h3 ho; interval_cases p <;> decide +kernel)) (by
        show bits (BitVec.ofNat 64 (4096 * p)).toNat 63 12 = p
        rw [qpt_at h2]; simp [bits]; omega) (by clear h3 ho; interval_cases p <;> decide +kernel) _ hb
    unfold writeCq
    rw [show findQp (migNet p [(qpKey 1 0, qp)]) 1 0 = some qp from rfl]
    simp only [show qp.cfg.cqva = 0 from rfl, show qp.cqTail.toNat = 0 from rfl, Nat.zero_mod, Nat.mul_zero, Nat.add_zero, show qp.cfg.asid = 0 from rfl]
    rcases hs : engWriteN (migNet p [(qpKey 1 0, qp)]) (ioEng 1 0) 0 (body ++ leBytes 4 (2 ^ 31 * (ownerBit qp.cqTail qp.cfg.cqLog2).toNat)) with ⟨t, e | l⟩
    · rw [hs] at hw; cases hw; rfl
    · rw [hs] at hw; cases hw
/-- A window of VD 1 whose target is such a page; and a handoff word there. -/
theorem meets_LandingWindows_waits : ∃ p, (landCheck (migNet p []) 1 false (4096 * p) 8 2).2 = 9 ∧ wordGood (migNet p []) 1 (4096 * p) = none := by
  obtain ⟨p, h1, h2, h3⟩ := free_page_of 1
  have hm : Migs p (migNet p []) := migs_of h1 h2 h3 (.inr (show 2 ^ 40 ≤ netFar.pages.toNat by decide)) (show bit (0x10001#64).toNat 0 = true by decide) ⟨rfl, rfl⟩
    (by clear h3; interval_cases p <;> decide +kernel)
  refine ⟨p, ?_, ?_⟩
  · have hw := mig_gpa hm true
    unfold landCheck
    rcases hs : gpaXlate (migNet p []) 1 (4096 * p) true with ⟨t, e | l⟩
    · rw [hs] at hw; cases hw; rfl
    · rw [hs] at hw; cases hw
  · have hw := mig_stage hm (fun r w _ => if true = true then w else r)
    unfold wordGood gpaPeek
    rw [hw]
/-- A clean line of 128 bytes of VD 0 at address 0 in an L1. -/
def nm0 : L1Name := nameOf w0 bareGroup bareGroup.own 0 0
def lined : State × Except Deny (Bytes × Bool) := l1Read (onWays w0 0 (fun r => { r with ways := 1 })) nm0 0 32 false false
theorem meets_BytesOfAStore : (mscWrite w0 0 0 64 [1, 2] false).2 = none ∧ isOk (mscRead w0 0 0 64 32).2 = true
    ∧ ((l1Find lined.1 nm0).bind (fun k => lined.1.mem.l1.find k)).map (fun l => (l.data.length, secBit l.valid 0)) = some (128, true)
    ∧ 4 % 32 + [1, 2].length ≤ 32 ∧ (l1Write lined.1 nm0 4 [1, 2] ⟨0, 0, 0⟩).2 = none := by decide +kernel

end Sys2Proof.Tests
end

section
/-! PROOFS. The machine in cold reset (R14, R51, R79, R142, R224). -/
namespace Sys2Proof.Machine

/-- In cold reset every VD has the registers of an EMPTY one. -/
theorem vdRec_reset (v : Nat) : vdRec State.reset v = VdRec.reset := by
  unfold vdRec
  split
  · exact Vector.getElem_replicate ..
  · rfl

theorem rising_nil {α : Type} : Rising ([] : Tab α) := List.Pairwise.nil

/-- In cold reset no group, queue or table has an entry to be out of order. -/
theorem orderly_reset : Orderly State.reset where
  ids := List.nodup_nil
  fresh := fun _ hg => nomatch hg
  lanes := le_refl 832
  inReset := fun _ _ hg => nomatch hg
  queues := fun _ he => nomatch he
  svqs := rising_nil
  servers := ⟨rising_nil, rising_nil⟩
  mandrels := rising_nil
  rows := rising_nil
  trans := rising_nil
  frames := rising_nil

theorem vdqRead_reset (v k : Nat) : vdqRead State.reset v k = 0 := by
  simp [vdqRead, vdRec_reset, VdRec.reset, VdSt.code]

end Sys2Proof.Machine

namespace Sys2Proof
open Machine

/-- Settles O55: each table of the machine in cold reset is empty, so that every read of it gives its default. -/
theorem resetState : Obligations.ResetState := by
  unfold Obligations.ResetState
  refine ⟨rfl, rfl, rfl, rfl, rfl, rfl, rfl, fun _ => rfl, fun v _ => ?_, fun _ => rfl, fun _ => ⟨rfl, rfl, rfl⟩, by decide,
    fun _ _ => rfl, rfl, fun _ => ⟨rfl, rfl⟩, fun _ _ => rfl, rfl, fun _ => rfl, vdqRead_reset, rfl, rfl, orderly_reset⟩
  simp [vdState, vdRec_reset, VdRec.reset]

end Sys2Proof
end

section
/-! PROOFS. What memory accesses, translations, queue entries, records and traps leave alone. -/
namespace Sys2Proof.Machine

/-! Single bits. -/

theorem bit_eq_testBit (v i : Nat) : bit v i = v.testBit i := by
  rw [bit, Nat.testBit_eq_decide_div_mod_eq]; rfl

/-- A bit of a doubleword after one bit of it has been set. -/
theorem bit_setBit (m : DWord) (b k : Nat) (hk : k < 64) :
    bit (BitVec.ofNat 64 (setBits m.toNat b b 1)).toNat k = (decide (k = b) || bit m.toNat k) := by
  have h := testBit_setBits m.toNat b 1 1 k Nat.one_pos
  rw [Nat.add_sub_cancel] at h
  rw [bit_eq_testBit, bit_eq_testBit, BitVec.toNat_ofNat, Nat.testBit_mod_two_pow, h, decide_eq_true hk, Bool.true_and]
  by_cases e : k = b
  · subst e; simp
  · rw [if_neg (by omega), decide_eq_false e, Bool.false_or]

/-- Only the low 64 bits of a doubleword can be set. -/
theorem lt_of_bit {m : DWord} {k : Nat} (h : bit m.toNat k = true) : k < 64 := by
  by_contra hk
  have hm : m.toNat < 2 ^ k := lt_of_lt_of_le m.isLt (Nat.pow_le_pow_right (by decide) (Nat.le_of_not_lt hk))
  rw [bit_eq_testBit, Nat.testBit_lt_two_pow hm] at h
  cases h

/-! Mandrel registers. -/

theorem mandrelOf_onMandrel (s : State) (c k : Nat) (f : Mandrel → Mandrel) :
    mandrelOf (onMandrel s c f) k = if k = c then f (mandrelOf s c) else mandrelOf s k := by
  split_ifs with h
  · subst h; simp [mandrelOf, onMandrel, Tab.at]
  · simp [mandrelOf, onMandrel, Tab.at, Tab.find_put_ne _ _ h]

/-- A pending bit of a core after one has been raised. -/
theorem mip_setMip (s : State) (c b k j : Nat) (hj : j < 64) :
    bit (mandrelOf (setMip s c b) k).mip.toNat j = (decide (k = c ∧ j = b) || bit (mandrelOf s k).mip.toNat j) := by
  rw [setMip, mandrelOf_onMandrel]
  by_cases h : k = c
  · subst h; simp only [if_true, true_and]; exact bit_setBit _ _ _ hj
  · simp [h]

/-- A step is shown by the state its instruction answers, in a form that makes the property plain. -/
theorem Goes.of_next {s : State} {i : Instr} {p : State → Prop} {x t : State} (h : exec i s = .next x) (e : x = t) (hp : p t) :
    Goes s i p := ⟨t, e ▸ h, hp⟩

/-! The relation. -/

/-- The second state holds what the first does of the parts that the memory system, translation, supervisor queues, records and
traps never change: power, attestation, the boundary, the network, PCIe, RPC and the VDs; block fills asked for and the blocks in
the buffers of flash windows; and every interrupt bit that is pending. -/
structure Keeps (s t : State) : Prop where
  pkg : t.pkg = s.pkg
  att : t.att = s.att
  bdy : t.bdy = s.bdy
  net : t.net = s.net
  pcie : t.pcie = s.pcie
  rpc : t.rpc = s.rpc
  vds : t.vds = s.vds
  fills : t.mem.fills = s.mem.fills
  flash : t.mem.flash = s.mem.flash
  mip : ∀ c b, bit (mandrelOf s c).mip.toNat b = true → bit (mandrelOf t c).mip.toNat b = true

theorem Keeps.refl (s : State) : Keeps s s := ⟨rfl, rfl, rfl, rfl, rfl, rfl, rfl, rfl, rfl, fun _ _ h => h⟩

theorem Keeps.trans {a b c : State} (h : Keeps a b) (k : Keeps b c) : Keeps a c where
  pkg := k.pkg.trans h.pkg
  att := k.att.trans h.att
  bdy := k.bdy.trans h.bdy
  net := k.net.trans h.net
  pcie := k.pcie.trans h.pcie
  rpc := k.rpc.trans h.rpc
  vds := k.vds.trans h.vds
  fills := k.fills.trans h.fills
  flash := k.flash.trans h.flash
  mip := fun c b hb => k.mip c b (h.mip c b hb)

variable {o s : State}

theorem Keeps.foldl {β : Type} {f : State → β → State} (hf : ∀ s b, Keeps o s → Keeps o (f s b)) :
    ∀ (l : List β) {s : State}, Keeps o s → Keeps o (l.foldl f s)
  | [], _, h => h
  | b :: l, _, h => Keeps.foldl hf l (hf _ b h)

theorem Keeps.fst_of {α : Type} {p : State × α} {x : State} {y : α} (e : p = (x, y)) (h : Keeps o p.1) : Keeps o x := by
  rw [e] at h; exact h

/-- What `Keeps` speaks of, less the interrupt bits; and the registers of the mandrel lanes. -/
def State.apart (s : State) :=
  ((s.pkg, s.att, s.bdy, s.net), (s.pcie, s.rpc, s.vds), (s.mem.fills, s.mem.flash), s.cores.mandrel)

/-- An update of the other parts. -/
theorem Keeps.same {t : State} (h : Keeps o s) (e : t.apart = s.apart) : Keeps o t := by
  simp only [State.apart, Prod.mk.injEq] at e
  obtain ⟨⟨pkg, att, bdy, net⟩, ⟨pcie, rpc, vds⟩, ⟨fills, flash⟩, lanes⟩ := e
  exact ⟨pkg.trans h.pkg, att.trans h.att, bdy.trans h.bdy, net.trans h.net, pcie.trans h.pcie, rpc.trans h.rpc, vds.trans h.vds,
    fills.trans h.fills, flash.trans h.flash, fun c b hb => by
      rw [show mandrelOf t c = mandrelOf s c by simp only [mandrelOf, lanes]]; exact h.mip c b hb⟩

theorem Keeps.onMem {f : MemState → MemState} (hf : (f s.mem).fills = s.mem.fills) (hb : (f s.mem).flash = s.mem.flash)
    (h : Keeps o s) : Keeps o (s.onMem f) := h.same (by simp [State.apart, hf, hb])
theorem Keeps.onCores {f : CoresState → CoresState} (hf : (f s.cores).mandrel = s.cores.mandrel) (h : Keeps o s) :
    Keeps o (s.onCores f) := h.same (by simp [State.apart, hf])
theorem Keeps.onTrn (f : TrnState → TrnState) (h : Keeps o s) : Keeps o (s.onTrn f) := h.same rfl
theorem Keeps.onRas (f : RasState → RasState) (h : Keeps o s) : Keeps o (s.onRas f) := h.same rfl
theorem Keeps.setMip (c b : Nat) (h : Keeps o s) : Keeps o (Machine.setMip s c b) :=
  ⟨h.pkg, h.att, h.bdy, h.net, h.pcie, h.rpc, h.vds, h.fills, h.flash, fun k j hj => by
    have hk := h.mip k j hj
    rw [mip_setMip _ _ _ _ _ (lt_of_bit hk), hk, Bool.or_true]⟩
theorem Keeps.setMipAll (b : Nat) (h : Keeps o s) : Keeps o (Machine.setMipAll s b) := by
  unfold Machine.setMipAll
  generalize List.range 832 = l
  exact Keeps.foldl (fun _ c hx => hx.setMip c b) l h

/-! Records, and the MSC. -/

theorem Keeps.tick (h : Keeps o s) : Keeps o (Machine.tick s) := h.same rfl
theorem Keeps.writeMem (a : Nat) (b : Bytes) (h : Keeps o s) : Keeps o (Machine.writeMem s a b) := h.same rfl
theorem Keeps.setPoison (a : Nat) (p : Bool) (h : Keeps o s) : Keeps o (Machine.setPoison s a p) := h.same rfl
theorem Keeps.setMark (a : Nat) (ws : List Writer) (h : Keeps o s) : Keeps o (Machine.setMark s a ws) := by
  unfold Machine.setMark; split_ifs
  · exact h
  · exact h.same rfl
theorem Keeps.offerRec (v : Nat) (r : Rec) (h : Keeps o s) : Keeps o (Machine.offerRec s v r) := h.same rfl
theorem Keeps.offerBoth (v : Nat) (r : Rec) (h : Keeps o s) : Keeps o (Machine.offerBoth s v r) := by
  unfold Machine.offerBoth; dsimp only; split_ifs
  · exact h.offerRec v r
  · exact (h.offerRec v r).offerRec 0 r

theorem countChild_fills (m : MemState) (l k c : Nat) : (countChild m l k c).fills = m.fills ∧ (countChild m l k c).flash = m.flash := by
  simp only [countChild, minorWrap]; split_ifs <;> exact ⟨rfl, rfl⟩
theorem countAbove_fills (m : MemState) (k l : Nat) : (countAbove m k l).fills = m.fills ∧ (countAbove m k l).flash = m.flash := by
  simp [countAbove, countChild_fills]
theorem Keeps.writeBackLine (a : Nat) (h : Keeps o s) : Keeps o (Machine.writeBackLine s a) :=
  h.same (by simp [State.apart, Machine.writeBackLine, countChild_fills, countAbove_fills])

theorem Keeps.checkFails (a : Nat) (l : List Nat) (addr kind : Nat) (h : Keeps o s) : Keeps o (Machine.checkFails s a l addr kind) :=
  Keeps.offerBoth _ _ (Keeps.foldl (fun _ _ hx => Keeps.foldl (fun _ _ hy => hy.setPoison _ _) _ hx) l h)
theorem Keeps.meetHarm (a : Nat) (d : Harm) (h : Keeps o s) : Keeps o (Machine.meetHarm a s d) := by
  cases d with
  | line l b =>
    simp only [Machine.meetHarm]; split_ifs
    · exact h
    · exact h.checkFails _ _ _ _
  | node lvl stack n b =>
    simp only [Machine.meetHarm]; split_ifs
    · exact h
    · exact h.checkFails _ _ _ _
  | ecc l => exact h.checkFails _ _ _ _
  | flip l y => exact h.offerRec _ _
theorem Keeps.dramRead (a : Nat) (h : Keeps o s) : Keeps o (Machine.dramRead s a) := by
  unfold Machine.dramRead; split_ifs
  · exact h
  · exact Keeps.foldl (fun _ d hx => hx.meetHarm a d) _ h

theorem Keeps.mscTouch (v kid a : Nat) (w : Bool) (h : Keeps o s) : Keeps o (Machine.mscTouch s v kid a w) := by
  have hd := h.tick.dramRead a
  simp only [Machine.mscTouch]
  split
  · exact h.tick.same rfl
  · split
    · split_ifs
      · exact hd.writeBackLine a
      · exact hd
    · refine Keeps.onMem rfl rfl ?_
      split
      · split_ifs
        · exact hd.writeBackLine _
        · exact hd
      · exact hd
theorem Keeps.mscRead (v kid a n : Nat) (h : Keeps o s) : Keeps o (Machine.mscRead s v kid a n).1 := by
  unfold Machine.mscRead; split
  · exact h
  · exact h.mscTouch v kid a false
theorem Keeps.mscWrite (v kid a : Nat) (b : Bytes) (p : Bool) (h : Keeps o s) : Keeps o (Machine.mscWrite s v kid a b p).1 := by
  have hw := (h.mscTouch v kid a true).writeMem a b
  unfold Machine.mscWrite; split
  · exact h
  · dsimp only; split_ifs
    · exact hw.setPoison a p
    · exact hw.setPoison a true
    · exact hw
theorem Keeps.devWrite (v a : Nat) (b : Bytes) (h : Keeps o s) : Keeps o (Machine.devWrite s v a b) :=
  (h.mscTouch v _ a true).writeMem a b

/-! L2 and L1. -/

theorem Keeps.onL2 (k : Nat) (f : L2Line → L2Line) (h : Keeps o s) : Keeps o (Machine.onL2 s k f) := h.same rfl
theorem Keeps.l2Clean (k m : Nat) (h : Keeps o s) : Keeps o (Machine.l2Clean s k m) := by
  unfold Machine.l2Clean; split
  · exact h
  · dsimp only; split_ifs
    · exact h
    · exact Keeps.onMem rfl rfl (Keeps.foldl (fun _ _ hx => Keeps.setMark _ _ (Keeps.foldl (fun _ _ hy => hy.mscWrite _ _ _ _ _) _ hx)) _ h)
theorem Keeps.l2Evict (k : Nat) (h : Keeps o s) : Keeps o (Machine.l2Evict s k) := (h.l2Clean k 0xFF).same rfl
theorem Keeps.l2Alloc (die v kid a : Nat) (h : Keeps o s) : Keeps o (Machine.l2Alloc s die v kid a).1 := by
  unfold Machine.l2Alloc; dsimp only; split
  · exact h
  · exact (h.l2Evict _).same rfl
theorem Keeps.l2Get (die v kid a : Nat) (h : Keeps o s) : Keeps o (Machine.l2Get s die v kid a).1 := by
  unfold Machine.l2Get; split
  · exact h.same rfl
  · exact h.l2Alloc die v kid a
theorem Keeps.l2Fill (v kid a k : Nat) (h : Keeps o s) : Keeps o (Machine.l2Fill s v kid a k).1 := by
  have hr := h.mscRead v kid (a / 32 * 32) 32
  unfold Machine.l2Fill; split
  · exact h
  · split_ifs
    · exact h
    · split <;> rename_i e
      · exact hr.fst_of e
      · exact (hr.fst_of e).onL2 _ _
theorem Keeps.l2Write (die v kid a : Nat) (b : Bytes) (cols : Nat) (ws : List Writer) (p : Bool) (h : Keeps o s) :
    Keeps o (Machine.l2Write s die v kid a b cols ws p).1 := by
  have hw := h.tick.mscWrite v kid a b p
  have hg := h.tick.l2Get die v kid a
  unfold Machine.l2Write
  dsimp only
  split_ifs
  · split <;> rename_i e
    · exact hw.fst_of e
    · exact ((hw.fst_of e).l2Get die v kid a).setMark _ _
  all_goals
    split
    · exact h.tick
    · split <;> rename_i e <;> replace hg := hg.fst_of e
      · split_ifs
        · exact (hg.mscWrite v kid a b p).setMark _ _
        · exact hg.mscWrite v kid a b p
      · next k =>
        have hf := hg.l2Fill v kid a k
        split <;> rename_i e
        · first | exact hf.fst_of e | cases e
        · first | exact (hf.fst_of e).onL2 _ _ | (cases e; exact hg.onL2 _ _)
theorem Keeps.l2Release (die v m : Nat) (h : Keeps o s) : Keeps o (Machine.l2Release s die v m) :=
  Keeps.foldl (fun _ k hx => hx.l2Clean k m) _ h
theorem Keeps.l1Clean (k m : Nat) (h : Keeps o s) : Keeps o (Machine.l1Clean s k m) := by
  unfold Machine.l1Clean; split
  · exact h
  · exact Keeps.onMem rfl rfl (Keeps.foldl (fun _ _ hx => Keeps.foldl (fun _ _ hy => hy.l2Write _ _ _ _ _ _ _ _) _ hx) _ h)
theorem Keeps.l1Evict (k : Nat) (h : Keeps o s) : Keeps o (Machine.l1Evict s k) := (h.l1Clean k 0xFF).same rfl
theorem Keeps.flushLines (f : Nat → Bool) (h : Keeps o s) : Keeps o (Machine.flushLines s f) :=
  Keeps.foldl (fun _ k hx => hx.l2Evict k) _ (Keeps.foldl (fun _ k hx => hx.l1Evict k) _ h)
theorem Keeps.l1Release (core v m : Nat) (h : Keeps o s) : Keeps o (Machine.l1Release s core v m) :=
  Keeps.foldl (fun _ k hx => hx.l1Clean k m) _ h
theorem Keeps.release (core v sc m : Nat) (h : Keeps o s) : Keeps o (Machine.release s core v sc m) := by
  unfold Machine.release; dsimp only; split_ifs
  · exact (h.l1Release _ _ _).l2Release _ _ _
  · exact h.l2Release _ _ _
  · exact h.l1Release _ _ _
  · exact h
theorem Keeps.addChan (c : Chan) (rs : List Rel) (h : Keeps o s) : Keeps o (Machine.addChan s c rs) := by
  unfold Machine.addChan; split_ifs
  · exact h
  · exact h.same rfl
theorem Keeps.sendBy (g : Group) (us : List Nat) (sc m : Nat) (c : Chan) (h : Keeps o s) : Keeps o (Machine.sendBy s g us sc m c) :=
  Keeps.addChan _ _ (Keeps.foldl (fun _ _ hx => hx.release _ _ _ _) _ h)

/-! Stage-2 translation. -/

theorem Keeps.wkRead (cl v spa : Nat) (h : Keeps o s) : Keeps o (Machine.wkRead s cl v spa).1 := by
  have hr := h.mscRead v (kidFor s v spa) spa 8
  unfold Machine.wkRead
  dsimp only
  split <;> rename_i e <;> exact hr.fst_of e
theorem Keeps.wkOr (cl v spa m : Nat) (h : Keeps o s) : Keeps o (Machine.wkOr s cl v spa m).1 := by
  have h1 : Keeps o ((l2Keys s (dieOfCluster cl) (fun l => l.spa == lineOf spa && !l.home)).foldl Machine.l2Evict s) :=
    Keeps.foldl (fun _ k hx => hx.l2Evict k) _ h
  have hr := h1.mscRead v (kidFor s v spa) spa 8
  unfold Machine.wkOr
  dsimp only
  split <;> rename_i e
  · exact hr.fst_of e
  · exact (hr.fst_of e).mscWrite _ _ _ _ _
theorem Keeps.s2Walk (cl v gpa : Nat) : ∀ (n table : Nat) {s : State}, Keeps o s → Keeps o (Machine.s2Walk s cl v gpa table n).1
  | 0, _, _, h => h
  | n + 1, table, s, h => by
    have h1 := h.wkRead cl 0 (table + 8 * bits gpa (12 + 9 * n + 8) (12 + 9 * n))
    unfold Machine.s2Walk
    split <;> rename_i e <;> replace h1 := h1.fst_of e
    · exact h1
    · exact h1
    · dsimp only
      split_ifs
      all_goals first
        | exact h1
        | exact Keeps.s2Walk cl v gpa n _ h1
theorem Keeps.ntlbFill (cl v gpa : Nat) (l : Leaf) (h : Keeps o s) : Keeps o (Machine.ntlbFill s cl v gpa l) := by
  unfold Machine.ntlbFill; dsimp only; split
  · exact h
  · exact h.tick.same rfl
theorem Keeps.setAccessed (cl : Nat) (l : Leaf) (h : Keeps o s) : Keeps o (Machine.setAccessed s cl l) := by
  unfold Machine.setAccessed
  split
  · split
    · exact h
    · exact h.wkOr _ _ _ _
  · exact h
theorem Keeps.stage2 (cl v gpa : Nat) (f : Bool → Bool → Bool → Bool) (h : Keeps o s) : Keeps o (Machine.stage2 s cl v gpa f).1 := by
  have hw := Keeps.s2Walk cl v gpa 4 (bits (trnOf s v).s2.toNat 63 12 * 4096) h
  unfold Machine.stage2
  split_ifs
  · exact h
  · exact h
  · exact h
  · split
    · exact h.tick.same rfl
    · split <;> rename_i e <;> replace hw := hw.fst_of e
      · exact hw
      · split
        · exact (hw.setAccessed _ _).ntlbFill _ _ _ _
        · exact hw
theorem Keeps.setDirtyS2 (v : Nat) (l : Leaf) (h : Keeps o s) : Keeps o (Machine.setDirtyS2 s v l).1 := by
  unfold Machine.setDirtyS2
  split
  · exact h
  · split_ifs
    · exact h
    · exact (h.wkOr _ _ _ _).same rfl
theorem Keeps.gpaXlateF (v gpa : Nat) (w : Bool) : ∀ (n : Nat) {s : State}, Keeps o s → Keeps o (Machine.gpaXlateF s v gpa w n).1
  | 0, _, h => h
  | n + 1, s, h => by
    have h1 := h.stage2 0 v gpa (fun r x _ => if w then x else r)
    unfold Machine.gpaXlateF
    split <;> rename_i e <;> replace h1 := h1.fst_of e
    · exact h1
    · next _ l =>
      by_cases hp : (if w = true then !l.w else !l.r) = true
      · rw [if_pos hp]; exact h1
      · rw [if_neg hp]
        split
        · split
          · have h2 := h1.setDirtyS2 v l
            split <;> rename_i e2 <;> replace h2 := h2.fst_of e2
            · exact h2
            · exact Keeps.gpaXlateF v gpa w n h2
          · exact h1
        · exact h1
theorem Keeps.gpaXlate (v gpa : Nat) (w : Bool) (h : Keeps o s) : Keeps o (Machine.gpaXlate s v gpa w).1 := h.gpaXlateF v gpa w 2
theorem Keeps.regXlate (v a : Nat) (w : Bool) (h : Keeps o s) : Keeps o (Machine.regXlate s v a w).1 := by
  unfold Machine.regXlate; split
  · exact h
  · exact h.gpaXlate v a w

/-! Queue entries, records written, traps. -/

theorem Keeps.onSvq (core v : Nat) (f : Svq → Svq) (h : Keeps o s) : Keeps o (Machine.onSvq s core v f) := h.same rfl
theorem Keeps.noteBatch (core v : Nat) (h : Keeps o s) : Keeps o (Machine.noteBatch s core v) := h.same rfl
theorem Keeps.postRel (num : Nat) (h : Keeps o s) : Keeps o (Machine.postRel s num) :=
  Keeps.foldl (fun _ _ hx => hx.sendBy _ _ _ _ _) _ h
theorem Keeps.svqSlot (core v i : Nat) (h : Keeps o s) : Keeps o (Machine.svqSlot s core v i).1 := by
  have h1 := h.gpaXlate v (bits (svqOf s core v).base.toNat 63 14 * 16384 + 64 * (i % 256)) true
  unfold Machine.svqSlot
  dsimp only
  split <;> rename_i e <;> exact h1.fst_of e
theorem Keeps.tryPost (num : Nat) (h : Keeps o s) : Keeps o (Machine.tryPost s num) := by
  unfold Machine.tryPost
  split
  · exact h
  · next p _ =>
    have h1 := h.svqSlot p.core p.vd (svqOf s p.core p.vd).tail.toNat
    dsimp only
    split
    · exact h
    · split <;> rename_i e <;> replace h1 := h1.fst_of e
      · exact h1
      · exact Keeps.noteBatch _ _ (Keeps.onSvq _ _ _ (Keeps.onCores rfl
          (Keeps.postRel _ ((h1.mscWrite _ _ _ _ _).mscWrite _ _ _ _ _))))
theorem Keeps.post (core v : Nat) (b : Bytes) (gid sw : Option Nat) (src : PostSrc) (h : Keeps o s) :
    Keeps o (Machine.post s core v b gid sw src).1 := Keeps.tryPost _ (h.same rfl)
theorem Keeps.writeRec (v : Nat) (b : Bytes) (h : Keeps o s) : Keeps o (Machine.writeRec s v b) := by
  have hx := fun g => h.regXlate v g true
  have hm : ∀ {y}, Keeps o y → Keeps o (if v = 0 then Machine.setMipAll y 4 else Machine.setMip y (rpcCore y v) 3) := by
    intro y hy; split
    · exact hy.setMipAll 4
    · exact hy.setMip _ 3
  unfold Machine.writeRec
  dsimp only
  split
  · exact h.same rfl
  · split <;> rename_i e <;> have h1 := (hx _).fst_of e
    · exact h1.same rfl
    · split
      · split
        · exact Keeps.post _ _ _ _ _ _ (hm (Keeps.onRas _ ((h1.mscWrite _ _ _ _ _).mscWrite _ _ _ _ _)))
        · exact hm (Keeps.onRas _ ((h1.mscWrite _ _ _ _ _).mscWrite _ _ _ _ _))
      · exact h1.same rfl
/-- The end of a step. -/
theorem Keeps.flushRecs (h : Keeps o s) : Keeps o (Machine.flushRecs s) := by
  unfold Machine.flushRecs
  exact Keeps.foldl (fun _ e hx => hx.writeRec e.1 e.2) _ (h.onRas _)

theorem Keeps.wakeThreads (p : Group → Nat → Thread → Bool) (f : Thread → Thread) (h : Keeps o s) :
    Keeps o (Machine.wakeThreads s p f) := h.same rfl
theorem Keeps.startKill (v : Nat) (w : Owner) (q : Nat) (h : Keeps o s) : Keeps o (Machine.startKill s v w q) := by
  unfold Machine.startKill
  split
  · split
    · split_ifs
      · exact h
      · exact h.same rfl
      · exact h.same rfl
    · exact h
  · split
    · split_ifs
      · exact h
      · exact h.same rfl
      · exact h.same rfl
    · exact h
  · exact h
  · exact h
theorem Keeps.haltCore (core pc cause : Nat) (h : Keeps o s) : Keeps o (Machine.haltCore s core pc cause) := by
  unfold Machine.haltCore
  split_ifs
  · exact h
  · exact Keeps.foldl (fun _ g hx => hx.startKill g.vd g.owner _) _ (Keeps.onCores rfl (h.offerRec _ _))
theorem Keeps.postTrap (g : Group) (pc : Nat) (us : List Nat) (t : Trap) (h : Keeps o s) : Keeps o (Machine.postTrap s g pc us t) :=
  Keeps.post _ _ _ _ _ _ (h.same rfl)
theorem Keeps.postMachineCheck (g : Group) (pc : Nat) (us : List Nat) (t : Trap) (h : Keeps o s) :
    Keeps o (Machine.postMachineCheck s g pc us t) := by
  have hb : ∀ r : Rec, Keeps o (if t.seq.isSome = true then s else Machine.offerBoth s g.vd r) := by
    intro r; split
    · exact h
    · exact h.offerBoth _ _
  unfold Machine.postMachineCheck
  dsimp only
  split
  · exact Keeps.startKill _ _ _ (Keeps.post _ _ _ _ _ _ ((hb _).same rfl))
  · exact (hb _).postTrap _ _ _ _
  · exact hb _
theorem Keeps.postAll (g : Group) (pc : Nat) (l : List (Nat × Trap)) (h : Keeps o s) : Keeps o (Machine.postAll s g pc l) := by
  refine Keeps.foldl (fun x q hx => ?_) _ h
  split
  · exact hx
  · split_ifs
    · exact hx.postMachineCheck _ _ _ _
    · exact hx.postTrap _ _ _ _
/-- Traps that consume no block of a flash window. -/
theorem Keeps.takeTraps (g : Group) (pc : Nat) {l : List (Nat × Trap)} (hl : ∀ e ∈ l, e.2.flash = none) (h : Keeps o s) :
    Keeps o (Machine.takeTraps s g pc l) := by
  have hd : dropConsumed s l = s := by
    rw [dropConsumed, List.filterMap_eq_nil_iff.mpr hl]; rfl
  unfold Machine.takeTraps
  rw [hd]
  split
  · exact h
  · exact (h.postAll _ _ _).haltCore _ _ _
  · exact h.postAll _ _ _

/-! Shadows of snapshot frames, and the buffers of the monitor. -/

theorem Keeps.setFrame (f : Nat) (x : Frame) (h : Keeps o s) : Keeps o (Machine.setFrame s f x) := h.same rfl
theorem Keeps.dropFrame (f : Nat) (h : Keeps o s) : Keeps o (Machine.dropFrame s f) := h.same rfl
theorem Keeps.onPool (v : Nat) (f : ShdPool → ShdPool) (h : Keeps o s) : Keeps o (Machine.onPool s v f) := h.same rfl
theorem Keeps.rerun (w : Wait) (h : Keeps o s) : Keeps o (Machine.rerun s w) := by
  unfold Machine.rerun; exact h.wakeThreads _ _
theorem Keeps.migDone (h : Keeps o s) : Keeps o (Machine.migDone s) := h.rerun .mig
theorem Keeps.ptWrite (v a n : Nat) (h : Keeps o s) : Keeps o (Machine.ptWrite s v a n) := (h.flushLines _).devWrite _ _ _
theorem Keeps.copyPhys (v src dst n : Nat) (ws : List Writer) (h : Keeps o s) : Keeps o (Machine.copyPhys s v src dst n ws) := by
  unfold Machine.copyPhys
  generalize List.range ((n + 127) / 128) = l
  exact Keeps.onMem rfl rfl (Keeps.foldl (fun _ _ hx => (hx.mscTouch _ _ _ _).mscTouch _ _ _ _) _ h)
theorem Keeps.shadowTake (v lid f : Nat) (h : Keeps o s) : Keeps o (Machine.shadowTake s v lid f).1 := by
  unfold Machine.shadowTake
  dsimp only
  split
  · exact h
  · split_ifs
    · exact h
    · exact Keeps.migDone (Keeps.onTrn _ (Keeps.foldl (fun _ _ hx => hx.ptWrite _ _ _) _ (Keeps.flushLines _ (Keeps.copyPhys _ _ _ _ _
        (Keeps.setFrame _ _ (Keeps.dropFrame _ (Keeps.flushLines _ (Keeps.flushLines _ (h.onPool _ _)))))))))
theorem Keeps.engPhysRead {e : Eng} (hd : e.die = none) (a n : Nat) (h : Keeps o s) : Keeps o (Machine.engPhysRead s e a n).1 := by
  have h1 := h.mscRead e.vd (kidFor s e.vd a) a n
  simp only [Machine.engPhysRead, hd]
  split <;> rename_i q <;> exact h1.fst_of q
theorem Keeps.engPhysWrite {e : Eng} (hd : e.die = none) (a : Nat) (b : Bytes) (p : Bool) (h : Keeps o s) :
    Keeps o (Machine.engPhysWrite s e a b p).1 := by
  have h1 := h.mscWrite e.vd (kidFor s e.vd a) a b p
  simp only [Machine.engPhysWrite, hd]
  split
  · split
    · exact h.shadowTake _ _ _
    · exact h
  · split <;> rename_i q <;> exact h1.fst_of q
theorem Keeps.spaWriteF : ∀ (n a : Nat) (b : Bytes) {s : State}, Keeps o s → Keeps o (Machine.spaWriteF s n a b)
  | 0, _, _, _, h => h
  | n + 1, a, b, s, h => by
    unfold Machine.spaWriteF
    split_ifs
    · exact h
    · exact Keeps.spaWriteF n _ _ (h.engPhysWrite rfl _ _ _)
theorem Keeps.spaWrite (a : Nat) (b : Bytes) (h : Keeps o s) : Keeps o (Machine.spaWrite s a b) := h.spaWriteF _ a b
theorem Keeps.spaReadF : ∀ (n a k : Nat) {s : State}, Keeps o s → Keeps o (Machine.spaReadF s n a k).1
  | 0, _, _, _, h => h
  | n + 1, a, k, s, h => by
    have h1 := h.engPhysRead (e := spaEng) rfl a (sectorPart a k)
    unfold Machine.spaReadF
    split_ifs
    · exact h
    · dsimp only
      split <;> rename_i e <;> exact Keeps.spaReadF n _ _ (h1.fst_of e)
theorem Keeps.spaRead (a n : Nat) (h : Keeps o s) : Keeps o (Machine.spaRead s a n).1 := h.spaReadF _ a n

end Sys2Proof.Machine
end

section
/-! PROOFS. Power, cold reset, boot, the power controllers and the boundary limits (R14 to R28). -/
namespace Sys2Proof.Machine

/-! Rails, cold reset and the thermal trip. -/

/-- Every rail is down, nothing runs, and the state held only in the package is lost. -/
def PoweredDown (t : State) : Prop :=
  t.pkg.rails = 0 ∧ t.pkg.pwrGood = false ∧ t.pkg.running = false ∧ t.pkg.modResetN = false ∧ t.mem.cells = [] ∧ t.cores.groups = []

theorem poweredDown_powerDown (s : State) : PoweredDown (powerDown s) := ⟨rfl, rfl, rfl, rfl, rfl, rfl⟩

theorem poweredDown_thermTrip (s : State) (die : Fin 22) : PoweredDown (thermTrip s die) := poweredDown_powerDown _

theorem execRailInTolerance_next {s : State} {rail : Rail} (hb : s.pkg.busGood = true) (hr : s.pkg.rails = railOrder rail) :
    execRailInTolerance rail s =
      .next { s with pkg := { s.pkg with rails := s.pkg.rails + 1, pwrGood := decide (rail = .vcore3) } } := by
  have hl : (s.pkg.rails == 7) = decide (rail = .vcore3) := by rw [hr]; cases rail <;> rfl
  simp [execRailInTolerance, hb, hr, State.onPkg, ← hl]

theorem execRailOutOfTolerance_down {s : State} {rail : Rail} (h : railOrder rail < s.pkg.rails) :
    execRailOutOfTolerance rail s = .next (powerDown s) := by
  rw [execRailOutOfTolerance, if_pos h]

/-- A sample changes a die's temperature and THERM_ALERT_N alone. -/
theorem sampleTemp_rest (s : State) (die : Fin 22) (sensors : List Nat) :
    sampleTemp s die sensors =
      { s with pkg := { s.pkg with temps := s.pkg.temps.set die (hottest die sensors),
                                   thermAlertN := (sampleTemp s die sensors).pkg.thermAlertN } } := rfl

@[simp] theorem sampleTemp_temp (s : State) (die : Fin 22) (sensors : List Nat) :
    (sampleTemp s die sensors).pkg.temps[die] = hottest die sensors := by
  rw [sampleTemp_rest]; simp

theorem execThermalTrip_hot {s : State} {die : Fin 22} {sensors : List Nat} (h : tripAt s die ≤ hottest die sensors) :
    execThermalTrip die sensors s = .next (thermTrip (sampleTemp s die sensors) die) := by
  have h' : tripAt (sampleTemp s die sensors) die ≤ (sampleTemp s die sensors).pkg.temps[die] := by
    rw [sampleTemp_temp]; exact h
  rw [execThermalTrip, if_pos h']

theorem execThermalTrip_cool {s : State} {die : Fin 22} {sensors : List Nat} (h : hottest die sensors < tripAt s die) :
    execThermalTrip die sensors s = .next (sampleTemp s die sensors) := by
  have h' : ¬tripAt (sampleTemp s die sensors) die ≤ (sampleTemp s die sensors).pkg.temps[die] := by
    rw [sampleTemp_temp]; exact Nat.not_le.mpr h
  rw [execThermalTrip, if_neg h']

/-! The NOR flash as the board writes it. -/

/-- A table after values have been written at consecutive keys. -/
theorem Tab.at_foldl_write {α : Type} [DecidableEq α] (t : Tab α) (d : α) (a x : Nat) (f : Nat → α) (n : Nat) :
    Tab.at ((List.range n).foldl (fun m i => Tab.write m d (a + i) (f i)) t) d x =
      if a ≤ x ∧ x < a + n then f (x - a) else t.at d x := by
  induction n with
  | zero => rw [if_neg (by omega)]; rfl
  | succ n ih =>
    rw [List.range_succ, List.foldl_append, List.foldl_cons, List.foldl_nil]
    by_cases h : x = a + n
    · subst h; rw [Tab.at_write_self, if_pos (by omega), Nat.add_sub_cancel_left]
    · rw [Tab.at_write_ne _ _ _ h, ih]
      exact if_congr (by omega) rfl rfl

/-- Each byte of the NOR flash after a write. -/
theorem norByte_norPut (s : State) (a : Nat) (b : Bytes) (x : Nat) :
    norByte (norPut s a b) x = if a ≤ x ∧ x < a + b.length then b.getD (x - a) 0 else norByte s x :=
  Tab.at_foldl_write s.att.nor 0xFF a x (fun i => b.getD i 0) b.length

theorem norByte_execBoardNorWrite (s : State) (addr : Nat) (data : Bytes) :
    ∃ t, execBoardNorWrite addr data s = .next t ∧ ∀ a, norByte t a =
      if s.pkg.modResetN = false ∧ addr ≤ a ∧ a < addr + data.length ∧ a < 0x20000000 then data.getD (a - addr) 0 else norByte s a := by
  refine ⟨_, rfl, fun a => ?_⟩
  cases s.pkg.modResetN with
  | true => simp
  | false =>
    simp only [Bool.false_eq_true, if_false, norByte_norPut, List.length_take, true_and]
    by_cases h : addr ≤ a ∧ a < addr + data.length ∧ a < 0x20000000
    · rw [if_pos h, if_pos (by omega), List.getD_eq_getElem?_getD, List.getD_eq_getElem?_getD, List.getElem?_take_of_lt (by omega)]
    · rw [if_neg h, if_neg (by omega)]

/-! The boot. -/

/-- A part of the state that no step of a fold changes. -/
theorem foldl_proj {β γ : Type} (p : State → γ) {f : State → β → State} (hf : ∀ s b, p (f s b) = p s) (l : List β) (s : State) :
    p (l.foldl f s) = p s := by
  induction l generalizing s with
  | nil => rfl
  | cons b l ih => rw [List.foldl_cons, ih, hf]

/-- Images are read from the NOR flash alone. -/
theorem bootImage_of_nor {s t : State} (h : t.att.nor = s.att.nor) : bootImage t = bootImage s := by
  have hb : norByte t = norByte s := funext fun a => by rw [norByte, norByte, h]
  have hs : norBytes t = norBytes s := funext fun a => funext fun n => by rw [norBytes, norBytes, hb]
  funext a b kind limit
  unfold bootImage
  rw [hs]

/-- What no step of the boot changes: the NOR flash, MOD_RESET_N, and that the machine is out of cold reset. -/
structure SameBoot (s t : State) : Prop where
  nor : t.att.nor = s.att.nor
  modResetN : t.pkg.modResetN = s.pkg.modResetN
  running : t.pkg.running = s.pkg.running

theorem SameBoot.trans {a b c : State} (h : SameBoot a b) (k : SameBoot b c) : SameBoot a c :=
  ⟨k.nor.trans h.nor, k.modResetN.trans h.modResetN, k.running.trans h.running⟩

theorem sameBoot_bootStart (s : State) : SameBoot s (bootStart s) := by
  unfold bootStart; dsimp only; split_ifs <;> exact ⟨rfl, rfl, rfl⟩
theorem sameBoot_bootPolicy (s : State) (h body : Bytes) : SameBoot s (bootPolicy s h body) := ⟨rfl, rfl, rfl⟩
theorem sameBoot_bootFail (s : State) (n : Nat) : SameBoot s (bootFail s n) := ⟨rfl, rfl, rfl⟩

/-- VD 0's registers after an update. -/
theorem vdRec_setVd_self (s : State) (v : Nat) (f : VdRec → VdRec) (h : v < 16) : vdRec (setVd s v f) v = f (vdRec s v) := by
  simp [vdRec, setVd, h]

theorem vdRuns_of_vds {s t : State} (h : t.vds = s.vds) (v : Nat) : vdRuns t v = vdRuns s v := by simp only [vdRuns, vdRec, h]

/-- What the ROM gives VD 0: RUN, and nothing else than registers and frames. -/
theorem bootVd0_kept (s : State) :
    SameBoot s (bootVd0 s) ∧ (bootVd0 s).bdy = s.bdy ∧ vdRuns (bootVd0 s) 0 = true := by
  have h := fun x => foldl_proj (fun s => (s.att.nor, s.pkg, s.bdy, s.vds)) (fun _ _ => rfl)
    (f := fun s f => setFrame s f { Frame.free with st := .owned, owner := 0, kid := 0 }) Config.bootFrames x
  simp only [Prod.mk.injEq, forall_and] at h
  obtain ⟨nor, pkg, bdy, vds⟩ := h
  unfold bootVd0
  refine ⟨⟨by rw [nor, setVd, State.onVds_att], by rw [pkg, setVd, State.onVds_pkg], by rw [pkg, setVd, State.onVds_pkg]⟩,
    by rw [bdy, setVd, State.onVds_bdy], ?_⟩
  rw [vdRuns_of_vds (vds _), vdRuns, vdRec_setVd_self _ _ _ (by decide)]
  rfl

theorem sameBoot_bootMonitor (s : State) (h body : Bytes) (copyB : Bool) : SameBoot s (bootMonitor s h body copyB) := by
  obtain ⟨⟨nor, mrn, run⟩, -, -⟩ := bootVd0_kept ((extend (bootStat s 5) 3 (headerDigest h)).onBdy
    fun b => { b with copyB := copyB, rollback := BitVec.ofNat 8 (field h 5 1) })
  exact ⟨nor, mrn, run⟩

/-- The boot's last steps leave the boundary as it is, VD 0 in RUN and every mandrel lane at the monitor's entry point. -/
theorem bootMonitor_ends (s : State) (h body : Bytes) (copyB : Bool) :
    (bootMonitor s h body copyB).pkg.bootStat = 7 ∧ (bootMonitor s h body copyB).pkg.secretReadable = false
      ∧ (bootMonitor s h body copyB).bdy.locked = s.bdy.locked ∧ vdRuns (bootMonitor s h body copyB) 0 = true
      ∧ ∀ c < 832, ∃ g ∈ (bootMonitor s h body copyB).cores.groups,
          g.core = c ∧ g.mandrel = true ∧ (g.thread 0).pc = Config.monitorEntry := by
  obtain ⟨-, bdy, runs⟩ := bootVd0_kept ((extend (bootStat s 5) 3 (headerDigest h)).onBdy
    fun b => { b with copyB := copyB, rollback := BitVec.ofNat 8 (field h 5 1) })
  refine ⟨rfl, rfl, (congrArg BdyState.locked bdy :), runs, fun c hc => ⟨mandrelGroup c, ?_, rfl, rfl, rfl⟩⟩
  exact List.mem_append_left _ (List.mem_map_of_mem (List.mem_range.mpr hc))

/-! The boot by the step it stops at. -/

theorem boot_noPolicy {s : State} (h : bootImage s 0 0x100000 0 0x100000 = none) : boot s true = bootFail (bootStart s) 3 := by
  simp only [boot, Bool.not_true, Bool.false_eq_true, if_false]
  rw [bootImage_of_nor (sameBoot_bootStart s).nor, h]

/-- The boot once it has the policy image, up to the monitor image. -/
theorem boot_policy {s : State} {hd body : Bytes} {b : Bool} (h : bootImage s 0 0x100000 0 0x100000 = some (hd, body, b)) :
    (bootImage s 0x1000000 0x5000000 1 0x4000000 = none → boot s true = bootFail (bootPolicy (bootStart s) hd body) 5)
      ∧ ∀ q, bootImage s 0x1000000 0x5000000 1 0x4000000 = some q →
          boot s true = bootMonitor (bootPolicy (bootStart s) hd body) q.1 q.2.1 q.2.2 := by
  have hn := ((sameBoot_bootStart s).trans (sameBoot_bootPolicy (bootStart s) hd body)).nor
  simp only [boot, Bool.not_true, Bool.false_eq_true, if_false]
  rw [bootImage_of_nor (sameBoot_bootStart s).nor, h]
  dsimp only
  rw [bootImage_of_nor hn]
  refine ⟨fun h2 => ?_, fun q h2 => ?_⟩ <;> simp only [h2]

theorem sameBoot_boot (s : State) (hbmOk : Bool) : SameBoot s (boot s hbmOk) := by
  have h0 := sameBoot_bootStart s
  cases hbmOk with
  | false => exact h0.trans (sameBoot_bootFail _ 2)
  | true =>
    cases h1 : bootImage s 0 0x100000 0 0x100000 with
    | none => rw [boot_noPolicy h1]; exact h0.trans (sameBoot_bootFail _ 3)
    | some p =>
      have hp := h0.trans (sameBoot_bootPolicy (bootStart s) p.1 p.2.1)
      cases h2 : bootImage s 0x1000000 0x5000000 1 0x4000000 with
      | none => rw [(boot_policy h1).1 h2]; exact hp.trans (sameBoot_bootFail _ 5)
      | some q => rw [(boot_policy h1).2 q h2]; exact hp.trans (sameBoot_bootMonitor _ _ _ _)

/-- A boot that finds no monitor image stops at step 5. -/
theorem boot_noMonitor {s : State} (h1 : bootImage s 0 0x100000 0 0x100000 ≠ none) (h2 : bootImage s 0x1000000 0x5000000 1 0x4000000 = none) :
    (boot s true).pkg.bootStat = 0xE ∧ (boot s true).pkg.bootFailed = some 5 := by
  obtain ⟨p, h1⟩ := Option.ne_none_iff_exists'.mp h1
  rw [(boot_policy h1).1 h2]
  exact ⟨rfl, rfl⟩

/-- A boot that finds both images releases the mandrel lanes into the monitor. -/
theorem boot_monitor {s : State} (h1 : bootImage s 0 0x100000 0 0x100000 ≠ none) (h2 : bootImage s 0x1000000 0x5000000 1 0x4000000 ≠ none) :
    (boot s true).pkg.bootStat = 7 ∧ (boot s true).pkg.secretReadable = false ∧ (boot s true).bdy.locked = true
      ∧ vdRuns (boot s true) 0 = true
      ∧ ∀ c < 832, ∃ g ∈ (boot s true).cores.groups, g.core = c ∧ g.mandrel = true ∧ (g.thread 0).pc = Config.monitorEntry := by
  obtain ⟨p, h1⟩ := Option.ne_none_iff_exists'.mp h1
  obtain ⟨q, h2⟩ := Option.ne_none_iff_exists'.mp h2
  rw [(boot_policy h1).2 q h2]
  exact bootMonitor_ends (bootPolicy (bootStart s) p.1 p.2.1) q.1 q.2.1 q.2.2

/-! The power controllers. -/

/-- CLAMP is pending on every core of a list after it has been raised on each. -/
theorem mip_foldl_setMip (b : Nat) (hb : b < 64) (l : List Nat) (s : State) {c : Nat} (hc : c ∈ l) :
    bit (mandrelOf (l.foldl (fun s c => setMip s c b) s) c).mip.toNat b = true := by
  induction l generalizing s with
  | nil => cases hc
  | cons k l ih =>
    rw [List.foldl_cons]
    by_cases h : c ∈ l
    · exact ih _ h
    · have e : c = k := (List.mem_cons.mp hc).resolve_right h
      refine (Keeps.foldl (fun _ k hx => hx.setMip k b) l (Keeps.refl (setMip s k b))).mip c b ?_
      rw [mip_setMip _ _ _ _ _ hb, decide_eq_true ⟨e, rfl⟩, Bool.true_or]

theorem retarget_dies (s : State) (d : Nat) (i : Die) :
    (retarget s d).pkg.dies[i] =
      if i.val = d then { s.pkg.dies[i] with next := some (min 12 (max (s.pkg.dies[i]).step s.pkg.modStep)) } else s.pkg.dies[i] := by
  simp [retarget]

/-- The dies of a list are given the step now combined, and nothing else of the power controllers changes. -/
theorem foldl_retarget_dies (l : List Nat) (s : State) (i : Die) :
    (l.foldl retarget s).pkg.dies[i] =
      if i.val ∈ l then { s.pkg.dies[i] with next := some (min 12 (max (s.pkg.dies[i]).step s.pkg.modStep)) } else s.pkg.dies[i] := by
  induction l generalizing s with
  | nil => rfl
  | cons d l ih =>
    rw [List.foldl_cons, ih, retarget_dies]
    by_cases h : i.val = d <;> by_cases h' : i.val ∈ l <;> simp [h, h', retarget]

/-- The step a die's controller chooses (R17). -/
def dieStep (s : State) (die : Die) (watts temp pick : Nat) : Nat :=
  gateStep (decide (s.bdy.diePwr[die].toNat < watts) || decide (s.bdy.tThrot.toNat < temp)) (s.pkg.dies[die]).step (s.pkg.dies[die]).since
    s.sch.cycle pick

/-- A die's controller after a sample. -/
def dieSampled (s : State) (die : Die) (watts temp pick : Nat) : State :=
  let p := s.pkg.dies[die]
  let step := dieStep s die watts temp pick
  let q := { p with watts := watts, step := step, since := if step = p.step then p.since else s.sch.cycle }
  s.onPkg fun k => { k with dies := k.dies.set die q }

theorem gateDie_still {s : State} {die : Die} {watts temp pick : Nat} (h : dieStep s die watts temp pick = (s.pkg.dies[die]).step) :
    gateDie s die watts temp pick = dieSampled s die watts temp pick := if_pos h

/-- A step that changes is combined with the module's, and CLAMP is raised on the die's cores. -/
theorem gateDie_changed {s : State} {die : Die} {watts temp pick : Nat} (h : dieStep s die watts temp pick ≠ (s.pkg.dies[die]).step) :
    (gateDie s die watts temp pick).pkg = (retarget (dieSampled s die watts temp pick) die.val).pkg
      ∧ ∀ c, 208 * die.val ≤ c → c < 208 * die.val + 208 → bit (mandrelOf (gateDie s die watts temp pick) c).mip.toNat 5 = true := by
  have e : gateDie s die watts temp pick = flushRecs ((rangeFrom (208 * die.val) 208).foldl (fun s c => setMip s c 5)
      (offerRec (retarget (dieSampled s die watts temp pick) die.val) 0
        { type := 0x0A, sev := 0, vd := 0, unit := dieUnit die.val, addr := some die.val, data0 := temp,
          data1 := dieStep s die watts temp pick })) := if_neg h
  rw [e]
  refine ⟨(Keeps.flushRecs (Keeps.foldl (fun _ c hx => hx.setMip c 5) _ (Keeps.offerRec _ _ (Keeps.refl _)))).pkg, fun c h1 h2 => ?_⟩
  refine (Keeps.flushRecs (Keeps.refl _)).mip c 5 (mip_foldl_setMip 5 (by decide) _ _ ?_)
  exact List.mem_map.mpr ⟨c - 208 * die.val, List.mem_range.mpr (by omega), by omega⟩

/-- A compute die's controller has its sample and the step chosen for it. -/
theorem gateDie_ends (s : State) (die : Die) (watts temp pick : Nat) :
    ((gateDie s die watts temp pick).pkg.dies[die]).watts = watts ∧ (gateDie s die watts temp pick).pkg.temps = s.pkg.temps
      ∧ ((gateDie s die watts temp pick).pkg.dies[die]).step = dieStep s die watts temp pick
      ∧ (dieStep s die watts temp pick ≠ (s.pkg.dies[die]).step →
          ((gateDie s die watts temp pick).pkg.dies[die]).since = s.sch.cycle
          ∧ ((gateDie s die watts temp pick).pkg.dies[die]).next = some (min 12 (max (dieStep s die watts temp pick) s.pkg.modStep))
          ∧ ∀ c, 208 * die.val ≤ c → c < 208 * die.val + 208 → bit (mandrelOf (gateDie s die watts temp pick) c).mip.toNat 5 = true) := by
  by_cases h : dieStep s die watts temp pick = (s.pkg.dies[die]).step
  · rw [gateDie_still h]
    simp [dieSampled, h]
  · obtain ⟨hp, hm⟩ := gateDie_changed h
    rw [hp]
    refine ⟨?_, rfl, ?_, fun _ => ⟨?_, ?_, hm⟩⟩ <;> rw [retarget_dies, if_pos rfl] <;> simp [dieSampled]
    exact fun e => absurd e h

/-- A sample while the machine runs: a die at its trip temperature trips, a compute die's controller takes its step, any other die
is measured alone. -/
theorem execDiePowerSample_hot {s : State} {die : Fin 22} {sensors : List Nat} {watts pick : Nat} (hr : s.pkg.running = true)
    (h : tripAt s die ≤ hottest die sensors) :
    execDiePowerSample die watts sensors pick s = .next (thermTrip (sampleTemp s die sensors) die) := by
  have h' : tripAt (sampleTemp s die sensors) die ≤ (sampleTemp s die sensors).pkg.temps[die] := by
    rw [sampleTemp_temp]; exact h
  unfold execDiePowerSample
  rw [hr]
  exact if_pos h'

theorem execDiePowerSample_cool {s : State} {die : Fin 22} {sensors : List Nat} {watts pick : Nat} (hr : s.pkg.running = true)
    (h : hottest die sensors < tripAt s die) :
    execDiePowerSample die watts sensors pick s =
      if h : die.val < 4 then .next (gateDie (sampleTemp s die sensors) ⟨die.val, h⟩ watts (hottest die sensors) pick)
      else .next (sampleTemp s die sensors) := by
  have h' : ¬tripAt (sampleTemp s die sensors) die ≤ (sampleTemp s die sensors).pkg.temps[die] := by
    rw [sampleTemp_temp]; exact Nat.not_le.mpr h
  unfold execDiePowerSample
  rw [hr, ← sampleTemp_temp s die sensors]
  exact if_neg h'

/-- The step the module's controller chooses (R18). -/
def moduleStep (s : State) (watts pick : Nat) : Nat :=
  gateStep (decide (s.bdy.modPwr.toNat < watts)) s.pkg.modStep s.pkg.modSince s.sch.cycle pick

/-- The module's controller after a sample. -/
def moduleSampled (s : State) (watts pick : Nat) : State :=
  s.onPkg fun k => { k with modWatts := watts, modStep := moduleStep s watts pick,
                            modSince := if moduleStep s watts pick = s.pkg.modStep then k.modSince else s.sch.cycle }

theorem execModulePowerSample_still {s : State} {watts pick : Nat} (hr : s.pkg.running = true)
    (h : moduleStep s watts pick = s.pkg.modStep) : execModulePowerSample watts pick s = .next (moduleSampled s watts pick) := by
  unfold execModulePowerSample
  rw [hr]
  exact if_pos h

/-- A step of the module that changes is combined with every die's, and CLAMP is raised on every core. -/
theorem execModulePowerSample_changed {s : State} {watts pick : Nat} (hr : s.pkg.running = true)
    (h : moduleStep s watts pick ≠ s.pkg.modStep) : ∃ t, execModulePowerSample watts pick s = .next t
      ∧ t.pkg = ((List.range 4).foldl retarget (moduleSampled s watts pick)).pkg
      ∧ ∀ c < 832, bit (mandrelOf t c).mip.toNat 5 = true := by
  unfold execModulePowerSample
  rw [hr]
  refine ⟨_, if_neg h, ?_, fun c hc => ?_⟩
  · exact (Keeps.flushRecs (Keeps.setMipAll 5 (Keeps.offerRec _ _ (Keeps.refl _)))).pkg
  · exact (Keeps.flushRecs (Keeps.refl _)).mip c 5 (mip_foldl_setMip 5 (by decide) _ _ (List.mem_range.mpr hc))

/-- The module's controller has its sample and the step chosen for it. -/
theorem execModulePowerSample_ends {s : State} (watts pick : Nat) (hr : s.pkg.running = true) :
    ∃ t, execModulePowerSample watts pick s = .next t ∧ t.pkg.modWatts = watts ∧ t.pkg.modStep = moduleStep s watts pick
      ∧ (moduleStep s watts pick ≠ s.pkg.modStep →
          (∀ d : Die, (t.pkg.dies[d]).next = some (min 12 (max (s.pkg.dies[d]).step (moduleStep s watts pick))))
          ∧ ∀ c < 832, bit (mandrelOf t c).mip.toNat 5 = true) := by
  by_cases h : moduleStep s watts pick = s.pkg.modStep
  · exact ⟨_, execModulePowerSample_still hr h, rfl, rfl, fun hn => absurd h hn⟩
  · obtain ⟨t, ht, hp, hm⟩ := execModulePowerSample_changed hr h
    refine ⟨t, ht, by rw [hp]; rfl, by rw [hp]; rfl, fun _ => ⟨fun d => ?_, hm⟩⟩
    rw [hp, foldl_retarget_dies, if_pos (List.mem_range.mpr d.isLt)]
    rfl

/-! The boundary limits. -/

/-- A write of BDY_PWR lowers the module's limit, and every die's when its field is below the highest of them (R28). -/
theorem bdyPwrWrite_limits (s : State) (v : Nat) :
    (bdyPwrWrite s v).bdy.modPwr = lower s.bdy.modPwr (v % 4096)
      ∧ ∀ d : Die, (bdyPwrWrite s v).bdy.diePwr[d] =
          if v / 4096 % 1024 < maxDie s then lower s.bdy.diePwr[d] (v / 4096 % 1024) else s.bdy.diePwr[d] := by
  have hf : bits v 21 12 = v / 4096 % 1024 := rfl
  refine ⟨by simp [bdyPwrWrite, bits], fun d => ?_⟩
  simp only [bdyPwrWrite, State.onBdy_bdy, hf]
  by_cases h : v / 4096 % 1024 < maxDie s <;> simp [h]

theorem bdyDiepwrWrite_limits (s : State) (die d : Die) (v : Nat) :
    (bdyDiepwrWrite s die.val v).bdy.diePwr[d] = if d = die then lower s.bdy.diePwr[d] (v % 1024) else s.bdy.diePwr[d] := by
  simp [bdyDiepwrWrite, bits, Fin.ext_iff]

theorem bdyThermWrite_limit (s : State) (v : Nat) :
    (bdyThermWrite s v).bdy.tThrot = if v % 256 < 60 then s.bdy.tThrot else lower s.bdy.tThrot (v % 256) := by
  simp [bdyThermWrite, bits]

/-- The step chosen for a die takes effect, and no other die changes (R17). -/
theorem execGateStepChange_dies (s : State) : ∃ t, execGateStepChange s = .next t ∧ ∀ d : Die, t.pkg.dies[d] =
    if d = s.sch.sel.die then { s.pkg.dies[d] with inEffect := (s.pkg.dies[d]).next.getD (s.pkg.dies[d]).inEffect, next := none }
    else s.pkg.dies[d] :=
  ⟨_, rfl, fun d => by simp⟩

/-! MOD_RESET_N released. -/

theorem execResetRelease_early {s : State} {us : Nat} {hbmOk : Bool} (hm : s.pkg.modResetN = false) (hp : s.pkg.pwrGood = true)
    (h : us < 1000) : execResetRelease us hbmOk s = .next { s with pkg := { s.pkg with modResetN := true } } := by
  unfold execResetRelease
  rw [hm, hp]
  exact congrArg Host.Outcome.next (if_pos h)

/-- The machine as the ROM starts. -/
def released (s : State) : State := s.onPkg fun p => { p with modResetN := true, running := true }

theorem execResetRelease_boots {s : State} {us : Nat} {hbmOk : Bool} (hm : s.pkg.modResetN = false) (hp : s.pkg.pwrGood = true)
    (h : 1000 ≤ us) : execResetRelease us hbmOk s = .next (boot (released s) hbmOk) := by
  unfold execResetRelease
  rw [hm, hp]
  exact congrArg Host.Outcome.next (if_neg (Nat.not_lt.mpr h))

end Sys2Proof.Machine
end

section
namespace Sys2Proof
open Machine

/-- Settles O25: each step of power by the lemma of its own function; what follows a record or CLAMP is kept by the end of the step
(`Keeps.flushRecs`). -/
theorem powerAndReset : Obligations.PowerAndReset := by
  unfold Obligations.PowerAndReset
  refine ⟨fun s rail us addr die sensors hbmOk data => ?_, fun s die any watts pick sensors v => ?_⟩
  · refine ⟨⟨_, rfl, rfl, rfl, rfl, rfl, rfl, rfl, rfl, rfl, rfl, rfl⟩, ⟨_, rfl, rfl⟩, fun hb hr => ⟨_, execRailInTolerance_next hb hr, rfl⟩,
      fun h => ⟨_, execRailOutOfTolerance_down h, poweredDown_powerDown s⟩,
      fun h => ⟨_, execThermalTrip_hot h, poweredDown_thermTrip _ die⟩,
      fun h => ⟨_, execThermalTrip_cool h, sampleTemp_temp s die sensors, rfl, rfl, rfl, rfl, rfl⟩, fun hm hp => ⟨fun hus => ?_, fun hus => ?_⟩,
      norByte_execBoardNorWrite s addr data⟩
    · exact ⟨_, execResetRelease_early hm hp hus, rfl⟩
    · have hb := sameBoot_boot (released s) hbmOk
      refine ⟨_, execResetRelease_boots hm hp hus, hb.modResetN, hb.running, fun h => ?_, fun h h1 => ?_, fun h h1 => ⟨fun h2 => ?_, fun h2 => ?_⟩⟩ <;>
        subst h
      · exact ⟨rfl, rfl⟩
      · rw [boot_noPolicy (s := released s) h1]; exact ⟨rfl, rfl⟩
      · exact boot_noMonitor (s := released s) h1 h2
      · exact boot_monitor (s := released s) h1 h2
  · refine ⟨fun hr h => ⟨_, execDiePowerSample_hot hr h, rfl, rfl, rfl⟩,
      fun hr h hd => ⟨_, (execDiePowerSample_cool hr h).trans (dif_neg (by omega)), rfl, rfl⟩,
      fun hr h hd => ?_, fun hr => execModulePowerSample_ends watts pick hr, execGateStepChange_dies s,
      ⟨_, rfl, bdyPwrWrite_limits s v.toNat⟩, ⟨_, rfl, fun d => bdyDiepwrWrite_limits s die d v.toNat⟩,
      ⟨_, rfl, bdyThermWrite_limit s v.toNat⟩⟩
    have hd4 : any.val < 4 := hd ▸ die.isLt
    have e : (⟨any.val, hd4⟩ : Die) = die := Fin.ext hd
    refine ⟨_, (execDiePowerSample_cool hr h).trans (dif_pos hd4), ?_⟩
    rw [e]
    exact gateDie_ends (sampleTemp s any sensors) die watts (hottest any sensors) pick

end Sys2Proof
end

section
/-! PROOFS. The attestation unit's requests and completions, and the NOR operations (R26, R27, R31). -/
namespace Sys2Proof.Machine

/-! Requests. -/

theorem attBusy_iff (s : State) (r : AttReq) : attBusy s r = true ↔ r ∈ s.att.queue := by
  simp [attBusy]

theorem xctlWrite_free {s : State} {v : Nat} (h : AttReq.extend ∉ s.att.queue) (hg : bit v 0 = true) :
    xctlWrite s v = s.onAtt fun a =>
      { a with xIndex := BitVec.ofNat 4 (bits v 11 8), xBusy := a.xBusy && !bit v 2, xDone := false, queue := a.queue ++ [.extend] } := by
  rw [xctlWrite, if_neg (mt (attBusy_iff s _).mp h), if_pos hg]
  rfl

theorem xctlWrite_busy {s : State} {v : Nat} (h : AttReq.extend ∈ s.att.queue) (hg : bit v 0 = true) :
    xctlWrite s v = s.onAtt fun a => { a with xBusy := true } := by
  rw [xctlWrite, if_pos ((attBusy_iff s _).mpr h), if_pos hg]

theorem rctlWrite_free {s : State} {v : Nat} (h : AttReq.report ∉ s.att.queue) (hg : bit v 0 = true) :
    rctlWrite s v = s.onAtt fun a => { a with rBusy := a.rBusy && !bit v 2, rDone := false, queue := a.queue ++ [.report] } := by
  rw [rctlWrite, if_neg (mt (attBusy_iff s _).mp h), if_pos hg]
  rfl

theorem rctlWrite_busy {s : State} {v : Nat} (h : AttReq.report ∈ s.att.queue) (hg : bit v 0 = true) :
    rctlWrite s v = s.onAtt fun a => { a with rBusy := true } := by
  rw [rctlWrite, if_pos ((attBusy_iff s _).mpr h), if_pos hg]

/-! Completions. -/

/-- The measurement registers after an extend. -/
theorem extend_meas (s : State) (k : Nat) (d : Bytes) (i : Fin 16) :
    (extend s k d).att.meas[i] = if i.val = k then bits512 (shake256 (bytes512 s.att.meas[i] ++ d) 64) else s.att.meas[i] := by
  by_cases h : i.val = k
  · subst h; simp [extend]
  · simp [extend, h, Ne.symm h]

/-- A register below the first that software may extend is refused (R27). -/
theorem serveExtend_low {s : State} (h : s.att.xIndex.toNat < 4) :
    serveExtend s = s.onAtt fun a => { a with xStat := 3, xDone := true, queue := a.queue.drop 1 } := by
  rw [serveExtend, if_pos h]; rfl

theorem serveExtend_chains {s : State} (h : 4 ≤ s.att.xIndex.toNat) :
    serveExtend s = (extend s s.att.xIndex.toNat (bytes512 s.att.xDig)).onAtt fun a =>
      { a with xStat := 0, xDone := true, queue := a.queue.drop 1 } := by
  rw [serveExtend, if_neg (Nat.not_lt.mpr h)]; rfl

/-- A report is written where its buffer is aligned and the monitor's; else its request fails (R26). -/
theorem serveReport_written {s : State} (h : s.att.rDest.toNat % 64 = 0) (ho : spaOwned s s.att.rDest.toNat 2432 = true) :
    serveReport s = (spaWrite s s.att.rDest.toNat (reportBytes s (bytes512 s.att.rNonce))).onAtt fun a =>
      { a with rStat := 0, rDone := true, queue := a.queue.drop 1 } := by
  simp [serveReport, dropReq, State.onAtt, h, ho]

theorem serveReport_refused {s : State} (h : ¬(s.att.rDest.toNat % 64 = 0 ∧ spaOwned s s.att.rDest.toNat 2432 = true)) :
    serveReport s = s.onAtt fun a => { a with rStat := 2, rDone := true, queue := a.queue.drop 1 } := by
  have hb : (s.att.rDest.toNat % 64 == 0 && spaOwned s s.att.rDest.toNat 2432) = false := by
    rw [Bool.eq_false_iff]; simpa using h
  simp only [serveReport, dropReq, State.onAtt, hb]; rfl

/-! NOR operations. -/

theorem norWork_run {s : State} {op a n : Nat} (h : s.att.norRun = some (op, a, n)) (work : State → Nat → Nat → State) :
    norWork s op work = norEnd (if norCheck s op a n = 0 then work s a n else s) (norCheck s op a n) := by
  simp only [norWork, h, if_true]

/-- A completion gives the status that the operation's own checks decided, else the device's outcome. -/
theorem execNorOpComplete_ends {s : State} {o a n : Nat} {devOk : Bool} (h : s.att.norRun = some (o, a, n)) (ho : o = 0 ∨ 16 ≤ o) :
    execNorOpComplete devOk s = .next (s.onAtt fun a =>
      { a with
        norRun := none, norDone := true
        norStatus := if 16 < o then BitVec.ofNat 8 (o - 16) else if devOk then 0 else 4 }) := by
  unfold execNorOpComplete
  rw [h]
  exact congrArg Host.Outcome.next (if_pos ho)

theorem norByte_norEnd (s : State) (st x : Nat) : norByte (norEnd s st) x = norByte s x := rfl

/-- An erase leaves its block of 64 KiB erased, and no other byte changed. -/
theorem norByte_erase (s : State) (a x : Nat) :
    norByte (norPut s a (List.replicate 65536 0xFF)) x = if a ≤ x ∧ x < a + 65536 then 0xFF else norByte s x := by
  rw [norByte_norPut, List.length_replicate]
  split_ifs with h
  · rw [List.getD_eq_getElem?_getD, List.getElem?_replicate_of_lt (by omega)]; rfl
  · rfl

/-- A program only clears bits of its own range. -/
theorem norByte_program (s : State) (a n x : Nat) (b : Bytes) :
    norByte (norPut s a ((List.range n).map (fun i => norByte s (a + i) &&& b.getD i 0))) x =
      if a ≤ x ∧ x < a + n then norByte s x &&& b.getD (x - a) 0 else norByte s x := by
  rw [norByte_norPut, List.length_map, List.length_range]
  split_ifs with h
  · rw [List.getD_eq_getElem?_getD, List.getElem?_map, List.getElem?_range (by omega), Option.map_some, Option.getD_some,
      Nat.add_sub_cancel' h.1]
  · rfl

end Sys2Proof.Machine

namespace Sys2Proof
open Machine

/-- Settles O26: each request and each completion by the equation of its case; the writes and reads of the monitor's buffers leave the
attestation unit as it is (`Keeps.spaWrite`, `Keeps.spaRead`). -/
theorem attestationAndNor : Obligations.AttestationAndNor := by
  unfold Obligations.AttestationAndNor
  intro s v o a n devOk
  refine ⟨fun h hg => .of_next rfl (xctlWrite_free h hg) ⟨rfl, rfl, rfl⟩, fun h hg => .of_next rfl (xctlWrite_busy h hg) rfl,
    fun h hg => .of_next rfl (rctlWrite_free h hg) ⟨rfl, rfl⟩, fun h hg => .of_next rfl (rctlWrite_busy h hg) rfl,
    fun h => .of_next rfl (if_pos h) ?_, fun h => .of_next rfl (if_pos h) ?_,
    fun h => .of_next rfl (norWork_run h _) ⟨rfl, fun hc => ?_⟩, fun h => .of_next rfl (norWork_run h _) ⟨rfl, fun x => ?_⟩,
    fun h => .of_next rfl (norWork_run h _) ⟨rfl, fun x => ?_⟩, fun h ho => ⟨_, execNorOpComplete_ends h ho, rfl, rfl, rfl⟩⟩
  · by_cases hx : s.att.xIndex.toNat < 4
    · rw [serveExtend_low hx]
      exact ⟨List.drop_one, rfl, fun _ => ⟨rfl, rfl⟩, fun h4 => absurd hx (Nat.not_lt.mpr h4)⟩
    · rw [serveExtend_chains (Nat.not_lt.mp hx)]
      exact ⟨List.drop_one, rfl, fun h4 => absurd h4 hx, fun _ => ⟨rfl, extend_meas s _ _⟩⟩
  · by_cases hd : s.att.rDest.toNat % 64 = 0 ∧ spaOwned s s.att.rDest.toNat 2432 = true
    · rw [serveReport_written hd.1 hd.2]
      have hq := (Keeps.spaWrite s.att.rDest.toNat (reportBytes s (bytes512 s.att.rNonce)) (Keeps.refl s)).att
      rw [State.onAtt_att, State.onAtt_mem, hq]
      exact ⟨List.drop_one, rfl, fun _ _ => ⟨rfl, rfl⟩, fun hn => absurd hd hn⟩
    · rw [serveReport_refused hd]
      exact ⟨List.drop_one, rfl, fun h1 h2 => absurd ⟨h1, h2⟩ hd, fun _ => ⟨rfl, rfl⟩⟩
  · rw [if_pos hc]; rfl
  · rw [norByte_norEnd]
    by_cases hc : norCheck s 2 a n = 0
    · rw [if_pos hc, norByte_erase]; simp only [hc, true_and]
    · rw [if_neg hc, if_neg (fun h => hc h.1)]
  · rw [norByte_norEnd]
    by_cases hc : norCheck s 3 a n = 0
    · have hk : ∀ y, norByte (spaRead s s.att.nBuf.toNat n).1 y = norByte s y := fun y => by
        rw [norByte, norByte, (Keeps.spaRead s.att.nBuf.toNat n (Keeps.refl s)).att]
      rw [if_pos hc, norByte_program, hk]; simp only [hc, true_and]
    · rw [if_neg hc, if_neg (fun h => hc h.1)]

end Sys2Proof
end

section
/-! PROOFS. Braze links, remote accesses, fills of flash windows and the debug port (R28, R58 to R61). -/
namespace Sys2Proof.Machine

/-! Links. -/

theorem brazeOf_onBraze_self (s : State) (p : Nat) (f : BrazePort → BrazePort) : brazeOf (onBraze s p f) p = f (brazeOf s p) := by
  simp [brazeOf, onBraze, Tab.at]

theorem Keeps.brazeOf {s t : State} (h : Keeps s t) (p : Nat) : Machine.brazeOf t p = Machine.brazeOf s p := by
  rw [Machine.brazeOf, h.net, Machine.brazeOf]

theorem flitReceive_good {s : State} {port flits : Nat} (hu : (brazeOf s port).up = true) (hk : (brazeOf s port).keyed = true) :
    flitReceive s port flits true = onBraze s port (fun p => { p with flits := p.flits + flits, replays := 0 }) := by
  simp [flitReceive, hu, hk]

/-- A group that fails its checks before its eighth replay. -/
theorem flitReceive_replayed {s : State} {port flits : Nat} (hu : (brazeOf s port).up = true) (hk : (brazeOf s port).keyed = true)
    (hr : (brazeOf s port).replays < 7) :
    flitReceive s port flits false = onBraze s port (fun p => { p with replays := p.replays + 1 }) := by
  simp [flitReceive, hu, hk, hr]

/-- The eighth replay takes the link down. -/
theorem flitReceive_down {s : State} {port flits : Nat} (hu : (brazeOf s port).up = true) (hk : (brazeOf s port).keyed = true)
    (hr : 7 ≤ (brazeOf s port).replays) :
    flitReceive s port flits false = linkRec (onBraze s port (fun p => { p with up := false, keyed := false, replays := 0 })) port 0 := by
  simp [flitReceive, hu, hk, show ¬(brazeOf s port).replays + 1 < 8 by omega]

theorem Keeps.linkRec {o s : State} (port what : Nat) (h : Keeps o s) : Keeps o (Machine.linkRec s port what) := h.offerRec _ _

/-! Remote accesses. -/

/-- A remote access performed changes the memory of the other package alone. -/
theorem remoteDo_net (s : State) (o : RemoteOp) : (remoteDo s o).net.braze = s.net.braze ∧ (remoteDo s o).net.remoteOps = s.net.remoteOps := by
  unfold remoteDo
  split_ifs
  · exact ⟨rfl, rfl⟩
  · unfold remoteRmw; dsimp only; split <;> exact ⟨rfl, rfl⟩
  · exact ⟨rfl, rfl⟩

/-- The bytes of another package's memory after a store to it. -/
theorem cellAt_remoteDo_store {s : State} {o : RemoteOp} (h : o.store = true) (k : Nat) :
    cellAt (remoteDo s o).net.remote k =
      if remoteKey o.pkg o.frame o.off ≤ k ∧ k < remoteKey o.pkg o.frame o.off + o.data.length then
        o.data.getD (k - remoteKey o.pkg o.frame o.off) 0
      else cellAt s.net.remote k := by
  rw [remoteDo, if_pos h]
  exact cellAt_cellsPut s.net.remote k o.data _

/-- The port and the accesses left after a bring-up. -/
theorem execBrazeLinkBringUp_ends (s : State) : ∃ t, execBrazeLinkBringUp s = .next t
    ∧ brazeOf t (s.sch.sel.n % 16) =
        { up := true, keyed := true, keyEpoch := (brazeOf s (s.sch.sel.n % 16)).keyEpoch + 1, flits := 0, replays := 0 }
    ∧ t.net.remoteOps = s.net.remoteOps.filter (fun r => r.port != s.sch.sel.n % 16) := by
  have hk := foldl_proj (fun s => (s.net.braze, s.net.remoteOps)) (f := remoteDo)
    (fun s o => Prod.ext (remoteDo_net s o).1 (remoteDo_net s o).2)
  simp only [Prod.mk.injEq, forall_and] at hk
  obtain ⟨hb, ho⟩ := hk
  refine ⟨_, rfl, ?_, ho _ _⟩
  refine Eq.trans ?_ (brazeOf_onBraze_self s (s.sch.sel.n % 16)
    (fun p => { up := true, keyed := true, keyEpoch := p.keyEpoch + 1, flits := 0, replays := 0 }))
  exact congrArg (fun b => Tab.at b BrazePort.reset (s.sch.sel.n % 16)) (hb _ _)

/-- An access outstanding no more, and performed or not. -/
def accessEnded (s : State) (o : RemoteOp) (performed : Bool) : State :=
  let s := s.onNet fun x => { x with remoteOps := x.remoteOps.erase o }
  if performed then remoteDo s o else s

/-- After an access that times out is over, its record, its thread's trap and what they start change nothing of the network. -/
theorem Keeps.remoteTimeout {s : State} {port idx : Nat} {o : RemoteOp} (performed : Bool)
    (h : (s.net.remoteOps.filter (fun r => r.port == port))[idx]? = some o) :
    Keeps (accessEnded s o performed) (Machine.remoteTimeout s port idx performed) := by
  generalize hz : accessEnded s o performed = z
  unfold accessEnded at hz
  dsimp only at hz
  have hl : Keeps z (Machine.linkRec z port 1) := (Keeps.refl z).linkRec _ _
  unfold Machine.remoteTimeout
  rw [h]
  dsimp only
  rw [hz]
  split_ifs
  · exact hl.wakeThreads _ _
  · split
    · exact hl
    · split_ifs
      · exact hl.takeTraps _ _ (by simp [machineCheck])
      · exact hl

theorem accessEnded_remoteOps (s : State) (o : RemoteOp) (performed : Bool) :
    (accessEnded s o performed).net.remoteOps = s.net.remoteOps.erase o := by
  cases performed with
  | true => exact (remoteDo_net _ o).2
  | false => rfl

/-! Fills of flash windows. -/

/-- Room for one more block in the buffer of a flash window: the least recently used one leaves when it is full (R60). -/
def flashRoom (s : State) (v win : Nat) : State :=
  let mine := s.mem.flash.filter (fun b => b.vd == v && b.win == win)
  if mine.length < max 1 (256 * flBuf s v) then s
  else match leastBy (fun (b : FlashBlock) => b.stamp) mine with
    | some b => s.onMem fun m => { m with flash := m.flash.erase b }
    | none => s

theorem flashRoom_rest (s : State) (v win : Nat) : ∃ l, flashRoom s v win = { s with mem := { s.mem with flash := l } } := by
  unfold flashRoom
  dsimp only
  split_ifs
  · exact ⟨s.mem.flash, rfl⟩
  · split
    · exact ⟨_, rfl⟩
    · exact ⟨s.mem.flash, rfl⟩

/-- A block that has come in, before its record and before its loads run again. -/
def flashIn (s : State) (v win nsid lba : Nat) (readOk : Bool) : State :=
  let s := flashRoom (tick (s.onMem fun m => { m with fills := m.fills.erase (v, win, nsid, lba) })) v win
  let blk : FlashBlock :=
    { vd := v, win := win, nsid := nsid, lba := lba, data := nandBlock s nsid lba, poisoned := !readOk, stamp := s.mem.clock }
  s.onMem fun m => { m with flash := m.flash ++ [blk] }

theorem Keeps.flashFill {s : State} {v win nsid lba : Nat} (readOk : Bool)
    (h : s.mem.fills.find? (fun f => f.1 == v && f.2.2 == (nsid, lba)) = some (v, win, nsid, lba)) :
    Keeps (flashIn s v win nsid lba readOk) (Machine.flashFill s v nsid lba readOk) := by
  have e : Machine.flashFill s v nsid lba readOk = Machine.rerun (if readOk then flashIn s v win nsid lba readOk
      else Machine.offerRec (flashIn s v win nsid lba readOk) v
        { type := 0x0C, sev := 1, vd := v, unit := 0x401, addr := some nsid, data0 := lba }) (.flash win nsid lba) := by
    unfold Machine.flashFill
    rw [h]
    rfl
  rw [e]
  split_ifs
  · exact (Keeps.refl _).rerun _
  · exact ((Keeps.refl _).offerRec _ _).rerun _

/-- A fill ends the request for its block, and the block stands in its window's buffer. -/
theorem flashIn_ends (s : State) (v win nsid lba : Nat) (readOk : Bool) :
    (flashIn s v win nsid lba readOk).mem.fills = s.mem.fills.erase (v, win, nsid, lba)
      ∧ ∃ b ∈ (flashIn s v win nsid lba readOk).mem.flash, b.vd = v ∧ b.win = win ∧ b.nsid = nsid ∧ b.lba = lba
          ∧ b.data = nandBlock s nsid lba ∧ b.poisoned = !readOk := by
  obtain ⟨l, hl⟩ := flashRoom_rest (tick (s.onMem fun m => { m with fills := m.fills.erase (v, win, nsid, lba) })) v win
  unfold flashIn
  rw [hl]
  exact ⟨rfl, _, List.mem_append_right _ (List.mem_singleton_self _), rfl, rfl, rfl, rfl, rfl, rfl⟩

/-! The debug port. -/

/-- The debug port answers what DBGMODE opens, and nothing else (R28). -/
theorem execDebugPortAccess_ends (spa len : Nat) (s : State) : ∃ t, execDebugPortAccess spa len s = .next t ∧
    t = if s.bdy.dbgMode = 2 ∨ (s.bdy.dbgMode = 1 ∧ bits (ringOf s 0).base.toNat 63 12 * 4096 ≤ spa
          ∧ spa + len ≤ bits (ringOf s 0).base.toNat 63 12 * 4096 + 64 * 2 ^ bits (ringOf s 0).base.toNat 6 2) then
        { s with sch := { s.sch with outbox := s.sch.outbox ++ [.debug (readMem s spa len)] } } else s :=
  ⟨_, rfl, if_congr (by simp) rfl rfl⟩

end Sys2Proof.Machine

namespace Sys2Proof
open Machine

/-- Settles O31: each step by the equation of its case; the records, traps and loads run again that follow it leave the network, or the
fills and the flash blocks, as they are (`Keeps`). -/
theorem brazeFlashAndDebug : Obligations.BrazeFlashAndDebug := by
  unfold Obligations.BrazeFlashAndDebug
  intro s port flits idx nsid lba spa len performed readOk vd o
  refine ⟨fun hu hk => ⟨?_, fun hr => ?_, fun hr => ?_⟩, fun hk hf => ?_, execBrazeLinkBringUp_ends s, fun h => ⟨_, rfl, ?_⟩,
    fun win h => ⟨_, rfl, ?_⟩, execDebugPortAccess_ends spa len s⟩
  · refine .of_next rfl (congrArg flushRecs (flitReceive_good hu hk)) ?_
    rw [(Keeps.flushRecs (Keeps.refl _)).brazeOf, brazeOf_onBraze_self]
  · refine .of_next rfl (congrArg flushRecs (flitReceive_replayed hu hk hr)) ?_
    rw [(Keeps.flushRecs (Keeps.refl _)).brazeOf, brazeOf_onBraze_self]
  · refine .of_next rfl (congrArg flushRecs (flitReceive_down hu hk hr)) ?_
    rw [((Keeps.refl _).linkRec _ _).flushRecs.brazeOf, brazeOf_onBraze_self]
    exact ⟨rfl, rfl⟩
  · refine .of_next rfl (if_pos (by rw [hk, decide_eq_true hf]; rfl)) ?_
    rw [brazeOf_onBraze_self]
  · dsimp only
    rw [(Keeps.remoteTimeout performed h).flushRecs.net]
    refine ⟨accessEnded_remoteOps s o performed, fun hp hs k => ?_, fun hp => ?_⟩ <;> subst hp
    · exact cellAt_remoteDo_store hs k
    · rfl
  · obtain ⟨hf, b, hb, he⟩ := flashIn_ends s vd.val win nsid lba readOk
    have hk := (Keeps.flashFill readOk h).flushRecs
    exact ⟨hk.fills.trans hf, b, hk.flash ▸ hb, he⟩

end Sys2Proof
end

section
/-! PROOFS. The monitor's calls: how a slot's request is served, and what each call answers (R24, R69 to R76). -/
namespace Sys2Proof.Machine

/-! A slot's request. -/

section
variable {s : State} {v : Nat} {slot : Fin 16} {q : RpcReq} {call : Nat}

/-- A call that R75 does not give the VD is BAD_CALL. -/
theorem serve_unknown (h : (rpcOf s v).slots.find slot.val = some q) (hk : callKnown q.call.toNat q.vd = false)
    (f : State → RpcReq → State × Nat × Bytes) : serve v slot call f s = answerSlot s v slot.val q 1 [] := by
  simp [serve, h, hk]

/-- The request of the call in question has the effect, the status and the body that the call's function gives. -/
theorem serve_answers (h : (rpcOf s v).slots.find slot.val = some q) (hk : callKnown q.call.toNat q.vd = true) (hc : q.call.toNat = call)
    {f : State → RpcReq → State × Nat × Bytes} {y : State} {st : Nat} {body : Bytes} (hf : f s q = (y, st, body)) (hst : st ≠ notYet) :
    serve v slot call f s = answerSlot y v slot.val q st body := by
  subst hc
  simp [serve, h, hk, hf, hst]

/-- A request that a page under migration holds back stays in its slot. -/
theorem serve_waits (h : (rpcOf s v).slots.find slot.val = some q) (hk : callKnown q.call.toNat q.vd = true) (hc : q.call.toNat = call)
    {f : State → RpcReq → State × Nat × Bytes} {y : State} {body : Bytes} (hf : f s q = (y, notYet, body)) :
    serve v slot call f s = .next y := by
  subst hc
  simp [serve, h, hk, hf]

/-- The same for a call whose body lies in the slot. -/
theorem serveBody_unknown (h : (rpcOf s v).slots.find slot.val = some q) (hk : callKnown q.call.toNat q.vd = false) (other : Bytes → Bool)
    (f : State → RpcReq → Bytes → State × Nat × Bytes) : serveBody v slot call other f s = answerSlot s v slot.val q 1 [] := by
  unfold serveBody
  rw [if_neg (by simp [h, hk])]
  exact serve_unknown h hk _

/-- A body that cannot be read is FAULT, unless its page is under migration. -/
theorem serveBody_unread (h : (rpcOf s v).slots.find slot.val = some q) (hk : callKnown q.call.toNat q.vd = true) (hc : q.call.toNat = call)
    {y : State} (hb : slotBody s v slot.val = (y, none)) (other : Bytes → Bool) (f : State → RpcReq → Bytes → State × Nat × Bytes) :
    serveBody v slot call other f s = if slotWaits y v slot.val = true then .next y else answerSlot y v slot.val q 5 [] := by
  unfold serveBody
  rw [if_neg (by simp [hb])]
  by_cases hw : slotWaits y v slot.val = true
  · rw [if_pos hw]; exact serve_waits (body := []) h hk hc (by simp only [hb, if_pos hw])
  · rw [if_neg hw]; exact serve_answers h hk hc (by simp only [hb]; rw [if_neg hw]) (by decide)

theorem serveBody_answers (h : (rpcOf s v).slots.find slot.val = some q) (hk : callKnown q.call.toNat q.vd = true) (hc : q.call.toNat = call)
    {y : State} {b : Bytes} (hb : slotBody s v slot.val = (y, some b)) {other : Bytes → Bool} (ho : other b = false)
    {f : State → RpcReq → Bytes → State × Nat × Bytes} {z : State} {st : Nat} {body : Bytes} (hf : f y q b = (z, st, body)) (hst : st ≠ notYet) :
    serveBody v slot call other f s = answerSlot z v slot.val q st body := by
  unfold serveBody
  rw [if_neg (by simp [hb, ho])]
  exact serve_answers h hk hc (by simp only [hb]; exact hf) hst

/-- The monitor's calls are VD 0's (R75). -/
theorem callKnown_monitor {call : Nat} (h1 : 0x10 ≤ call) (h2 : call ≤ 0x15) : callKnown call 0 = true := by
  simp [callKnown, h1, h2]

/-- The STATE byte of a VD in RUN. -/
theorem leBytes_code_of_vdRuns (h : vdRuns s v = true) : leBytes 1 (vdState s v).code = [2] := by
  have hs : vdState s v = .run := eq_of_beq h
  rw [hs]; rfl

/-! A step `a` that is a monitor call. -/

theorem monitorCall_unknown {a : Answer} {f : State → State × Nat × Bytes} (ha : a = monitorCall slot call f s)
    (h : (rpcOf s 0).slots.find slot.val = some q) (hk : callKnown q.call.toNat q.vd = false) : a = answerSlot s 0 slot.val q 1 [] :=
  ha.trans (serve_unknown h hk _)

theorem monitorCall_answers {a : Answer} {f : State → State × Nat × Bytes} (ha : a = monitorCall slot call f s)
    (h : (rpcOf s 0).slots.find slot.val = some q) (hv : q.vd = 0) (hc : q.call.toNat = call) (hr : 0x10 ≤ call ∧ call ≤ 0x15)
    (y : State) (st : Nat) (body : Bytes) (hst : st ≠ notYet) (hf : f s = (y, st, body)) : a = answerSlot y 0 slot.val q st body :=
  ha.trans (serve_answers h (by rw [hc, hv]; exact callKnown_monitor hr.1 hr.2) hc hf hst)

end

end Sys2Proof.Machine

namespace Sys2Proof
open Machine

/-- Settles O35: each call by the case of its function that the hypotheses choose. -/
theorem monitorCalls : Obligations.MonitorCalls := by
  unfold Obligations.MonitorCalls
  intro s slot q v k x imgs off chunk i hq
  refine ⟨?_, ?_, ?_, ?_, ?_, ?_, ?_, ?_⟩
  · rintro hk (rfl | rfl | rfl | rfl | rfl | rfl | ⟨final, rfl⟩)
    · exact serveBody_unknown hq hk _ _
    · exact monitorCall_unknown (execPartCreate.eq_1 slot v imgs s) hq hk
    · exact monitorCall_unknown (execPartDestroy.eq_1 slot v s) hq hk
    · exact monitorCall_unknown (execPartReset.eq_1 slot v s) hq hk
    · exact monitorCall_unknown (execQuotaSet.eq_1 slot v k x s) hq hk
    · exact monitorCall_unknown (execCalSet.eq_1 slot imgs s) hq hk
    · exact monitorCall_unknown (execImageLoad.eq_1 slot v off final chunk s) hq hk
  · rintro rfl hc y z hb
    have hk : callKnown q.call.toNat q.vd = true := by rw [hc]; rfl
    refine ⟨fun hz => ?_, fun n hz => ⟨fun hn => ?_, fun hn => ?_⟩⟩ <;> subst hz
    · have unread := serveBody_unread hq hk (congrArg BitVec.toNat hc) hb (fun _ => false)
      by_cases hw : slotWaits y 0 slot.val = true
      · rw [if_pos hw]; exact (unread _).trans (if_pos hw)
      · rw [if_neg hw]; exact (unread _).trans (if_neg hw)
    · exact serveBody_answers hq hk (congrArg BitVec.toNat hc) hb rfl (if_pos hn) (by decide)
    · exact serveBody_answers hq hk (congrArg BitVec.toNat hc) hb rfl (if_neg (not_not.mpr hn)) (by decide)
  · rintro rfl ⟨hv, hc⟩
    have answer := monitorCall_answers (execPartCreate.eq_1 slot v imgs s) hq hv (congrArg BitVec.toNat hc) (by decide)
    refine ⟨fun h => answer _ 2 _ (by decide) (if_pos h), fun h0 h9 => ?_⟩
    have hn : ¬(v.val = 0 ∨ imgs.length ≠ 9) := by tauto
    refine ⟨fun he => answer _ 4 _ (by decide) ((if_neg hn).trans (if_pos he)), fun he => ?_⟩
    refine ⟨fun hb => ?_, fun hb hr => ?_, fun hb hr => ?_⟩
    · exact answer _ 4 _ (by decide) ((if_neg hn).trans ((if_neg (not_not.mpr he)).trans (if_pos hb)))
    · refine answer _ 0 _ (by decide)
        ((if_neg hn).trans ((if_neg (not_not.mpr he)).trans ((if_neg (not_not.mpr hb)).trans ((if_pos hr).trans ?_))))
      rw [leBytes_code_of_vdRuns hr]
    · exact answer _ 4 _ (by decide)
        ((if_neg hn).trans ((if_neg (not_not.mpr he)).trans ((if_neg (not_not.mpr hb)).trans (if_neg (Bool.eq_false_iff.mp hr)))))
  · rintro rfl ⟨hv, hc⟩
    have answer := monitorCall_answers (execPartDestroy.eq_1 slot v s) hq hv (congrArg BitVec.toNat hc) (by decide)
    refine ⟨fun h0 => answer _ 2 _ (by decide) (if_pos h0), fun h0 => ⟨fun hs hd => ?_, fun hn => ?_⟩⟩
    · exact answer _ 0 _ (by decide) ((if_neg h0).trans (if_pos (by simp [hs, hd])))
    · exact answer _ 4 _ (by decide) ((if_neg h0).trans (if_neg (by simpa using hn)))
  · rintro rfl ⟨hv, hc⟩
    have answer := monitorCall_answers (execPartReset.eq_1 slot v s) hq hv (congrArg BitVec.toNat hc) (by decide)
    exact ⟨fun h0 => answer _ 2 _ (by decide) (if_pos h0), fun h0 he => answer _ 4 _ (by decide) ((if_neg h0).trans (if_pos he)),
      fun h0 he => answer _ 0 _ (by decide) ((if_neg h0).trans (if_neg he))⟩
  · rintro rfl ⟨hv, hc⟩
    have answer := monitorCall_answers (execQuotaSet.eq_1 slot v k x s) hq hv (congrArg BitVec.toNat hc) (by decide)
    refine ⟨fun hk => answer _ 2 _ (by decide) (if_pos hk), fun h0 h6 hs => ?_, fun h0 h6 hs => ?_⟩
    · exact answer _ 4 _ (by decide) ((if_neg (not_or.mpr ⟨h0, h6⟩)).trans (if_pos hs))
    · have hn : ¬(vdState s v.val = .run ∨ vdState s v.val = .resetting) := by rcases hs with hs | hs <;> simp [hs]
      exact answer _ 0 _ (by decide) ((if_neg (not_or.mpr ⟨h0, h6⟩)).trans (if_neg hn))
  · rintro rfl ⟨hv, hc⟩
    have answer := monitorCall_answers (execCalSet.eq_1 slot imgs s) hq hv (congrArg BitVec.toNat hc) (by decide)
    refine ⟨fun hn => answer _ 2 _ (by decide) (if_pos hn), fun hn => ⟨fun hall => ?_, fun hex => ?_⟩⟩
    · exact answer _ 0 _ (by decide) ((if_neg (not_not.mpr hn)).trans (if_pos (by simpa using hall)))
    · exact answer _ 4 _ (by decide) ((if_neg (not_not.mpr hn)).trans (if_neg (by simpa using hex)))
  · rintro ⟨hv, hc⟩
    have answer (final : Bool) :=
      monitorCall_answers (execImageLoad.eq_1 slot v off final chunk s) hq hv (congrArg BitVec.toNat hc) (by decide)
    refine ⟨?_, ?_, ?_⟩
    · rintro h final rfl
      exact answer final _ 2 _ (by decide) (if_pos h)
    · rintro h0 hle rfl
      exact answer false _ 0 _ (by decide) ((if_neg (by omega)).trans (if_pos rfl))
    · rintro h0 hle rfl
      exact ⟨fun hg => answer true _ 0 _ (by decide) ((if_neg (by omega)).trans ((if_neg (by decide)).trans (if_pos hg))),
        fun hg => answer true _ 7 _ (by decide) ((if_neg (by omega)).trans ((if_neg (by decide)).trans (if_neg hg)))⟩

end Sys2Proof
end

section
/-! PROOFS. Stores to the tails and heads of queues, rings and stages (R40, R41, R44, R50, R87, R110). -/
namespace Sys2Proof.Machine

/-! One queue's state. -/

/-- What a queue's update leaves of it. -/
@[simp] theorem findQp_onQp_self {s : State} {v q : Nat} {p : Qp} (f : Qp → Qp) (h : findQp s v q = some p) :
    findQp (onQp s v q f) v q = some (f p) := by
  unfold findQp at h
  simp [findQp, onQp, h]

/-- An update of a queue that is not enabled does nothing. -/
theorem onQp_none {s : State} {v q : Nat} (f : Qp → Qp) (h : findQp s v q = none) : onQp s v q f = s := by
  unfold findQp at h
  simp [onQp, h, State.onNet]

/-! The launch queues and the stages. -/

@[simp] theorem lqOf_onLqRegs_self (s : State) (v : Nat) (f : LqRegs → LqRegs) : lqOf (onLqRegs s v f) v = f (lqOf s v) := by
  simp [lqOf, onLqRegs, Tab.at]

theorem lqOf_onLqRegs_ne (s : State) {v u : Nat} (f : LqRegs → LqRegs) (h : u ≠ v) : lqOf (onLqRegs s v f) u = lqOf s u := by
  simp [lqOf, onLqRegs, Tab.at, Tab.find_put_ne _ _ h]

@[simp] theorem govOf_onGov_self (s : State) (v d : Nat) (f : Gov → Gov) : govOf (onGov s v d f) v d = f (govOf s v d) := by
  simp [govOf, onGov, Tab.at]

@[simp] theorem Gov.stage_onStage_self (g : Gov) (i : Nat) (f : Stage → Stage) : (g.onStage i f).stage i = f (g.stage i) := by
  simp [Gov.stage, Gov.onStage, Tab.at]

/-- R41 in natural numbers: the distance of a store before the tail, modulo the index space. -/
theorem tailFilter_toNat (tail v : BitVec 16) : (tailFilter tail v).toNat =
    if 1 ≤ (v.toNat + 65536 - tail.toNat) % 65536 ∧ (v.toNat + 65536 - tail.toNat) % 65536 ≤ 32768 then v.toNat else tail.toNat := by
  have hd : (v - tail).toNat = (v.toNat + 65536 - tail.toNat) % 65536 := by
    rw [BitVec.toNat_sub]; congr 1; omega
  simp only [tailFilter, hd, apply_ite BitVec.toNat, Nat.reducePow]

/-- R41: behind a tail by less than half the index space, a store leaves it. -/
theorem tailFilter_older {tail v : BitVec 16} (h : (tail.toNat + 65536 - v.toNat) % 65536 < 32768) : tailFilter tail v = tail := by
  apply BitVec.eq_of_toNat_eq
  rw [tailFilter_toNat]
  split_ifs
  · omega
  · rfl

/-- The queue after a store to TAIL of one that is on chip. -/
theorem findQp_qpTailStore {s : State} {v q : Nat} {p : Qp} (h : findQp s v q = some p) (he : p.evicted = false) (x : BitVec 16) :
    findQp (qpTailStore s v q x) v q = some { p with tail := tailFilter p.tail x, stopped := false } := by
  simp [qpTailStore, findQp_onQp_self _ h, he]

end Sys2Proof.Machine

namespace Sys2Proof
open Machine

/-- Settles O27: each store is an update of one queue, ring or stage. -/
theorem registerPageStores : Obligations.RegisterPageStores := by
  unfold Obligations.RegisterPageStores
  intro s vd die q i v x tail
  refine ⟨fun p hp => ⟨⟨_, rfl, findQp_onQp_self _ hp⟩, ⟨_, rfl, findQp_onQp_self _ hp⟩, ⟨_, rfl, findQp_onQp_self _ hp⟩⟩,
    fun hn => ⟨⟨_, rfl, onQp_none _ hn⟩, ⟨_, rfl, onQp_none _ hn⟩, ⟨_, rfl, onQp_none _ hn⟩⟩,
    ⟨_, rfl, lqOf_onLqRegs_self _ _ _, fun u hu => lqOf_onLqRegs_ne _ _ hu⟩, ⟨_, rfl, ?_⟩⟩
  simp only [stgTailStore, govOf_onGov_self, Gov.stage_onStage_self]
  exact ⟨rfl, rfl⟩

/-- Settles O50: the distance that the filter tests is the store less TAIL, and a store behind the tail it left is at a distance above half. -/
theorem tailStores : Obligations.TailStores := by
  unfold Obligations.TailStores
  intro s vd q v p hp he x d
  have hx : (v.setWidth 16).toNat = x := BitVec.toNat_setWidth ..
  have hz := findQp_qpTailStore hp he (v.setWidth 16)
  have ht := tailFilter_toNat p.tail (v.setWidth 16)
  rw [hx] at ht
  refine ⟨_, rfl, ⟨_, hz, ht, rfl, rfl⟩, fun v' h1 h2 hv => ⟨_, rfl, _, findQp_qpTailStore hz he _, ?_⟩⟩
  rw [if_pos ⟨h1, h2⟩] at ht
  simp only [tailFilter_older (tail := tailFilter p.tail (v.setWidth 16)) (v := v'.setWidth 16) (by rw [ht, BitVec.toNat_setWidth]; exact hv), ht]

end Sys2Proof
end

section
/-! PROOFS. What memory accesses, translations, queue entries and records leave alone: every part of the state but memory, the cores, their
local memories, translation, the chains and the records. -/
namespace Sys2Proof.Machine

/-- The parts of a state that the memory system, translation, supervisor queues and records leave alone. -/
def State.outer (s : State) : State :=
  { State.reset with pkg := s.pkg, att := s.att, bdy := s.bdy, net := s.net, pcie := s.pcie, rpc := s.rpc, vds := s.vds, lq := s.lq, sch := s.sch }

theorem outer_fst {α : Type} {q : State × α} {x s : State} {y : α} (e : q = (x, y)) (h : q.1.outer = s.outer) : x.outer = s.outer := by
  rw [e] at h; exact h
theorem outer_foldl {β : Type} {f : State → β → State} (hf : ∀ s b, (f s b).outer = s.outer) (l : List β) (s : State) :
    (l.foldl f s).outer = s.outer := foldl_proj State.outer hf l s

theorem onMem_outer (s : State) (f : MemState → MemState) : (s.onMem f).outer = s.outer := rfl
theorem onCores_outer (s : State) (f : CoresState → CoresState) : (s.onCores f).outer = s.outer := rfl
theorem onLoc_outer (s : State) (f : LocState → LocState) : (s.onLoc f).outer = s.outer := rfl
theorem onTrn_outer (s : State) (f : TrnState → TrnState) : (s.onTrn f).outer = s.outer := rfl
theorem onRas_outer (s : State) (f : RasState → RasState) : (s.onRas f).outer = s.outer := rfl

/-! Records, and the MSC. -/

theorem poisonLine_outer (s : State) (line : Nat) : (poisonLine s line).outer = s.outer := rfl
theorem writeBackLine_outer (s : State) (a : Nat) : (writeBackLine s a).outer = s.outer := onMem_outer ..
theorem setMark_outer (s : State) (a : Nat) (ws : List Writer) : (setMark s a ws).outer = s.outer := by
  unfold setMark; split_ifs <;> rfl
theorem offerBoth_outer (s : State) (v : Nat) (r : Rec) : (offerBoth s v r).outer = s.outer := by
  unfold offerBoth; dsimp only; split_ifs <;> rfl
theorem checkFails_outer (s : State) (a : Nat) (l : List Nat) (addr kind : Nat) : (checkFails s a l addr kind).outer = s.outer :=
  (offerBoth_outer ..).trans (outer_foldl poisonLine_outer l s)
theorem outer_meetHarm (a : Nat) (s : State) (d : Harm) : (meetHarm a s d).outer = s.outer := by
  cases d with
  | line l b =>
    simp only [meetHarm]; split_ifs
    · rfl
    · exact checkFails_outer ..
  | node lvl stack n b =>
    simp only [meetHarm]; split_ifs
    · rfl
    · exact checkFails_outer ..
  | ecc l => exact checkFails_outer ..
  | flip l y => rfl
theorem dramRead_outer (s : State) (a : Nat) : (dramRead s a).outer = s.outer := by
  unfold dramRead; split_ifs
  · rfl
  · exact outer_foldl (fun t d => outer_meetHarm a t d) _ s

theorem mscTouch_outer (s : State) (v kid a : Nat) (w : Bool) : (mscTouch s v kid a w).outer = s.outer := by
  have hd : (dramRead (tick s) a).outer = s.outer := dramRead_outer (tick s) a
  simp only [mscTouch]
  split
  · exact onMem_outer ..
  · split
    · split_ifs
      · exact (writeBackLine_outer ..).trans hd
      · exact hd
    · refine (onMem_outer ..).trans ?_
      split
      · split_ifs
        · exact (writeBackLine_outer ..).trans hd
        · exact hd
      · exact hd
theorem mscRead_outer (s : State) (v kid a n : Nat) : (mscRead s v kid a n).1.outer = s.outer := by
  unfold mscRead; split
  · rfl
  · exact mscTouch_outer ..
theorem mscWrite_outer (s : State) (v kid a : Nat) (b : Bytes) (q : Bool) : (mscWrite s v kid a b q).1.outer = s.outer := by
  have ht := mscTouch_outer s v kid a true
  unfold mscWrite; split
  · rfl
  · dsimp only; split_ifs <;> exact ht
theorem devWrite_outer (s : State) (v a : Nat) (b : Bytes) : (devWrite s v a b).outer = s.outer := mscTouch_outer ..

/-! L2 and L1. -/

theorem l2Clean_outer (s : State) (k m : Nat) : (l2Clean s k m).outer = s.outer := by
  unfold l2Clean; split
  · rfl
  · dsimp only; split_ifs
    · rfl
    · exact outer_foldl (fun t _ => (setMark_outer ..).trans (outer_foldl (fun u _ => mscWrite_outer u ..) _ t)) _ s
theorem l2Evict_outer (s : State) (k : Nat) : (l2Evict s k).outer = s.outer := l2Clean_outer s k 0xFF
theorem l2Get_outer (s : State) (die v kid a : Nat) : (l2Get s die v kid a).1.outer = s.outer := by
  unfold l2Get; split
  · rfl
  · unfold l2Alloc; dsimp only; split
    · rfl
    · exact l2Evict_outer ..
theorem l2Fill_outer (s : State) (v kid a k : Nat) : (l2Fill s v kid a k).1.outer = s.outer := by
  have hr := mscRead_outer s v kid (a / 32 * 32) 32
  unfold l2Fill; split
  · rfl
  · split_ifs
    · rfl
    · split <;> rename_i e
      · exact outer_fst e hr
      · exact (onMem_outer ..).trans (outer_fst e hr)
theorem l2Write_outer (s : State) (die v kid a : Nat) (b : Bytes) (cols : Nat) (ws : List Writer) (q : Bool) :
    (l2Write s die v kid a b cols ws q).1.outer = s.outer := by
  have hw : (mscWrite (tick s) v kid a b q).1.outer = s.outer := mscWrite_outer (tick s) v kid a b q
  have hg : (l2Get (tick s) die v kid a).1.outer = s.outer := l2Get_outer (tick s) die v kid a
  unfold l2Write
  dsimp only
  split_ifs
  · split <;> rename_i e
    · exact outer_fst e hw
    · exact (setMark_outer ..).trans ((l2Get_outer ..).trans (outer_fst e hw))
  all_goals
    split
    · rfl
    · split <;> rename_i t _ e <;> replace hg := outer_fst e hg
      · split_ifs
        · exact (setMark_outer ..).trans ((mscWrite_outer ..).trans hg)
        · exact (mscWrite_outer ..).trans hg
      · next k =>
        have hf := (l2Fill_outer t v kid a k).trans hg
        split <;> rename_i e
        · first | exact outer_fst e hf | cases e
        · first | exact (onMem_outer ..).trans (outer_fst e hf) | (cases e; exact (onMem_outer ..).trans hg)
theorem l2Release_outer (s : State) (die v m : Nat) : (l2Release s die v m).outer = s.outer := outer_foldl (fun t k => l2Clean_outer t k m) _ s
theorem l1Clean_outer (s : State) (k m : Nat) : (l1Clean s k m).outer = s.outer := by
  unfold l1Clean; split
  · rfl
  · exact outer_foldl (fun t _ => outer_foldl (fun u _ => l2Write_outer u ..) _ t) _ s
theorem l1Evict_outer (s : State) (k : Nat) : (l1Evict s k).outer = s.outer := l1Clean_outer s k 0xFF
theorem flushLines_outer (s : State) (f : Nat → Bool) : (flushLines s f).outer = s.outer :=
  (outer_foldl l2Evict_outer _ _).trans (outer_foldl l1Evict_outer _ s)
theorem l1Release_outer (s : State) (core v m : Nat) : (l1Release s core v m).outer = s.outer := outer_foldl (fun t k => l1Clean_outer t k m) _ s
theorem release_outer (s : State) (core v sc m : Nat) : (release s core v sc m).outer = s.outer := by
  unfold release; dsimp only; split_ifs
  · exact (l2Release_outer ..).trans (l1Release_outer ..)
  · exact l2Release_outer ..
  · exact l1Release_outer ..
  · rfl
theorem sendBy_outer (s : State) (g : Group) (us : List Nat) (sc m : Nat) (c : Chan) : (sendBy s g us sc m c).outer = s.outer := by
  have hr : (releaseBy s g us sc m).outer = s.outer := outer_foldl (fun t v => release_outer t g.core v sc m) _ s
  unfold sendBy addChan; split_ifs <;> exact hr

/-! Stage-2 translation. -/

theorem wkRead_outer (s : State) (cl v spa : Nat) : (wkRead s cl v spa).1.outer = s.outer := by
  have hr := mscRead_outer s v (kidFor s v spa) spa 8
  unfold wkRead
  dsimp only
  split <;> rename_i e <;> exact outer_fst e hr
theorem wkOr_outer (s : State) (cl v spa m : Nat) : (wkOr s cl v spa m).1.outer = s.outer := by
  have hr := (mscRead_outer ((l2Keys s (dieOfCluster cl) (fun l => l.spa == lineOf spa && !l.home)).foldl l2Evict s) v (kidFor s v spa)
    spa 8).trans (outer_foldl l2Evict_outer _ s)
  unfold wkOr
  dsimp only
  split <;> rename_i e
  · exact outer_fst e hr
  · exact (mscWrite_outer ..).trans (outer_fst e hr)
theorem s2Walk_outer (cl v gpa : Nat) : ∀ (n table : Nat) (s : State), (s2Walk s cl v gpa table n).1.outer = s.outer
  | 0, _, _ => rfl
  | n + 1, table, s => by
    have h1 := wkRead_outer s cl 0 (table + 8 * bits gpa (12 + 9 * n + 8) (12 + 9 * n))
    unfold s2Walk
    split <;> rename_i e <;> replace h1 := outer_fst e h1
    · exact h1
    · exact h1
    · dsimp only
      split_ifs
      all_goals first
        | exact h1
        | exact (s2Walk_outer cl v gpa n _ _).trans h1
theorem ntlbFill_outer (s : State) (cl v gpa : Nat) (l : Leaf) : (ntlbFill s cl v gpa l).outer = s.outer := by
  unfold ntlbFill; dsimp only; split <;> rfl
theorem setAccessed_outer (s : State) (cl : Nat) (l : Leaf) : (setAccessed s cl l).outer = s.outer := by
  unfold setAccessed
  split
  · split
    · rfl
    · exact wkOr_outer ..
  · rfl
theorem stage2_outer (s : State) (cl v gpa : Nat) (f : Bool → Bool → Bool → Bool) : (stage2 s cl v gpa f).1.outer = s.outer := by
  have hw := s2Walk_outer cl v gpa 4 (bits (trnOf s v).s2.toNat 63 12 * 4096) s
  unfold stage2
  split_ifs
  · rfl
  · rfl
  · rfl
  · split
    · rfl
    · split <;> rename_i e <;> replace hw := outer_fst e hw
      · exact hw
      · split
        · exact (ntlbFill_outer ..).trans ((setAccessed_outer ..).trans hw)
        · exact hw
theorem setDirtyS2_outer (s : State) (v : Nat) (l : Leaf) : (setDirtyS2 s v l).1.outer = s.outer := by
  unfold setDirtyS2
  split
  · rfl
  · split_ifs
    · rfl
    · exact wkOr_outer s 0 0 _ 0x40
theorem gpaXlateF_outer (v gpa : Nat) (w : Bool) : ∀ (n : Nat) (s : State), (gpaXlateF s v gpa w n).1.outer = s.outer
  | 0, _ => rfl
  | n + 1, s => by
    have h1 := stage2_outer s 0 v gpa (fun r x _ => if w then x else r)
    unfold gpaXlateF
    split <;> rename_i e <;> replace h1 := outer_fst e h1
    · exact h1
    · next t l =>
      by_cases hp : (if w = true then !l.w else !l.r) = true
      · rw [if_pos hp]; exact h1
      · rw [if_neg hp]
        split
        · split
          · have h2 := (setDirtyS2_outer t v l).trans h1
            split <;> rename_i e2 <;> replace h2 := outer_fst e2 h2
            · exact h2
            · exact (gpaXlateF_outer v gpa w n _).trans h2
          · exact h1
        · exact h1
theorem gpaXlate_outer (s : State) (v gpa : Nat) (w : Bool) : (gpaXlate s v gpa w).1.outer = s.outer := gpaXlateF_outer v gpa w 2 s
theorem regXlate_outer (s : State) (v a : Nat) (w : Bool) : (regXlate s v a w).1.outer = s.outer := by
  unfold regXlate; split
  · rfl
  · exact gpaXlate_outer ..

/-! Queue entries, and records written. -/

theorem setMipAll_outer (s : State) (b : Nat) : (setMipAll s b).outer = s.outer := by
  unfold setMipAll
  generalize List.range 832 = l
  exact outer_foldl (f := fun s c => setMip s c b) (fun _ _ => rfl) l s
theorem postRel_outer (s : State) (num : Nat) : (postRel s num).outer = s.outer := outer_foldl (fun t _ => sendBy_outer t ..) _ s
theorem svqSlot_outer (s : State) (core v i : Nat) : (svqSlot s core v i).1.outer = s.outer := by
  have h1 := gpaXlate_outer s v (bits (svqOf s core v).base.toNat 63 14 * 16384 + 64 * (i % 256)) true
  unfold svqSlot
  dsimp only
  split <;> rename_i e <;> exact outer_fst e h1
theorem noteBatch_outer (s : State) (core v : Nat) : (noteBatch s core v).outer = s.outer := onCores_outer ..
theorem onSvq_outer (s : State) (core v : Nat) (f : Svq → Svq) : (onSvq s core v f).outer = s.outer := onCores_outer ..
theorem tryPost_outer (s : State) (num : Nat) : (tryPost s num).outer = s.outer := by
  unfold tryPost
  split
  · rfl
  · next q _ =>
    have h1 := svqSlot_outer s q.core q.vd (svqOf s q.core q.vd).tail.toNat
    dsimp only
    split
    · rfl
    · split <;> rename_i e <;> replace h1 := outer_fst e h1
      · exact h1
      · exact (noteBatch_outer ..).trans <| (onSvq_outer ..).trans <| (onCores_outer ..).trans <|
          (postRel_outer ..).trans ((mscWrite_outer ..).trans ((mscWrite_outer ..).trans h1))
theorem postDirect_outer (s : State) (core v cause addr : Nat) (arg : Bytes) (src : PostSrc) (asid : Nat) :
    (postDirect s core v cause addr arg src asid).outer = s.outer := tryPost_outer ..
theorem writeRec_outer (s : State) (v : Nat) (b : Bytes) : (writeRec s v b).outer = s.outer := by
  have hx := fun g => regXlate_outer s v g true
  have hm : ∀ y, (if v = 0 then setMipAll y 4 else setMip y (rpcCore y v) 3).outer = y.outer := by
    intro y; split
    · exact setMipAll_outer y 4
    · rfl
  unfold writeRec
  dsimp only
  split
  · rfl
  · split <;> rename_i e <;> have h1 := outer_fst e (hx _)
    · exact h1
    · split
      · have hw := fun (x y : Nat) (b c : Bytes) (k l : Nat) => (mscWrite_outer (mscWrite _ v l y c false).1 v k x b false).trans
          ((mscWrite_outer _ v l y c false).trans h1)
        split
        · exact (postDirect_outer ..).trans ((hm _).trans (hw ..))
        · exact (hm _).trans (hw ..)
      · exact h1
/-- The end of a step. -/
theorem flushRecs_outer (s : State) : (flushRecs s).outer = s.outer := outer_foldl (fun t (e : Nat × Bytes) => writeRec_outer t e.1 e.2) _ _


/-! What the outer parts hold. -/

section
variable {s t : State} (h : t.outer = s.outer)
include h
theorem sch_of_outer : t.sch = s.sch := (congrArg State.sch h :)
theorem bdy_of_outer : t.bdy = s.bdy := (congrArg State.bdy h :)
theorem net_of_outer : t.net = s.net := (congrArg State.net h :)
theorem rpc_of_outer : t.rpc = s.rpc := (congrArg State.rpc h :)
theorem pcie_of_outer : t.pcie = s.pcie := (congrArg State.pcie h :)
end

/-- So the end of a step leaves the messages sent, the network, the RPC unit and PCI Express alone. -/
@[simp] theorem flushRecs_sch (s : State) : (flushRecs s).sch = s.sch :=
  sch_of_outer (flushRecs_outer s)
@[simp] theorem flushRecs_net (s : State) : (flushRecs s).net = s.net := net_of_outer (flushRecs_outer s)
@[simp] theorem flushRecs_rpc (s : State) : (flushRecs s).rpc = s.rpc := rpc_of_outer (flushRecs_outer s)
@[simp] theorem flushRecs_pcie (s : State) : (flushRecs s).pcie = s.pcie := pcie_of_outer (flushRecs_outer s)

end Sys2Proof.Machine
end

section
/-! PROOFS. Messages that leave a port, and handshakes (R29, R34, R66, R67, R72, R73). -/
namespace Sys2Proof.Machine

/-! Packets that leave a port. -/

/-- The egress check looks at the boundary alone. -/
theorem egressBad_iff {s x : State} (hb : x.bdy = s.bdy) (port : Fin 4) (addr : Bytes) :
    egressBad x port.val addr = true ↔ s.bdy.peerChk[port] = true ∧ egressOk s addr = false := by
  simp [egressBad, egressOk, hb]

/-- What a packet adds to the messages sent. -/
theorem ueSend_outbox {s x : State} (hb : x.bdy = s.bdy) (v : Nat) (port : Fin 4) (addr : Bytes) (rpid : Nat) (bad : Bool) (body : Bytes) :
    (ueSend x v port.val addr rpid bad body).sch.outbox = x.sch.outbox ++
      (if s.bdy.peerChk[port] = true ∧ egressOk s addr = false then [] else [.ue port.val (addr ++ leBytes 2 rpid) bad body]) := by
  unfold ueSend
  by_cases h : s.bdy.peerChk[port] = true ∧ egressOk s addr = false
  · rw [if_pos h, if_pos ((egressBad_iff hb port addr).mpr h), List.append_nil]; rfl
  · rw [if_neg h, if_neg (mt (egressBad_iff hb port addr).mp h)]; rfl

theorem ueSend_rpc (s : State) (v port : Nat) (addr : Bytes) (rpid : Nat) (bad : Bool) (body : Bytes) :
    (ueSend s v port addr rpid bad body).rpc = s.rpc := by
  unfold ueSend; split_ifs <;> rfl

theorem msixFire_rpc (s : State) (ep : Nat) : (msixFire s ep).rpc = s.rpc := by
  unfold msixFire; dsimp only; split_ifs <;> rfl

theorem rpcSend_rpc (s : State) (v : Nat) (via : Transport) (bad : Bool) (m : Bytes) : (rpcSend s v via bad m).rpc = s.rpc := by
  cases via with
  | ue port src rpid => exact ueSend_rpc ..
  | pcie ep w => exact msixFire_rpc ..

theorem ueSend_domains (s : State) (v port : Nat) (addr : Bytes) (rpid : Nat) (bad : Bool) (body : Bytes) :
    (ueSend s v port addr rpid bad body).net.domains = s.net.domains := by
  unfold ueSend; split_ifs <;> rfl

theorem msixFire_net (s : State) (ep : Nat) : (msixFire s ep).net = s.net := by
  unfold msixFire; dsimp only; split_ifs <;> rfl

theorem rpcSend_domains (s : State) (v : Nat) (via : Transport) (bad : Bool) (m : Bytes) :
    (rpcSend s v via bad m).net.domains = s.net.domains := by
  cases via with
  | ue port src rpid => exact ueSend_domains ..
  | pcie ep w => exact congrArg NetState.domains (msixFire_net ..)

/-! One VD's RPC state. -/

@[simp] theorem rpcOf_onRpcVd_self (s : State) (v : Nat) (f : RpcVd → RpcVd) : rpcOf (onRpcVd s v f) v = f (rpcOf s v) := by
  simp [rpcOf, onRpcVd, Tab.at]

theorem rpcOf_congr {s t : State} (h : t.rpc = s.rpc) (v : Nat) : rpcOf t v = rpcOf s v := by rw [rpcOf, rpcOf, h]

/-! Requests of the attestation unit that came first. -/

theorem serveReport_bdy (s : State) : (serveReport s).bdy = s.bdy := by
  by_cases h : s.att.rDest.toNat % 64 = 0 ∧ spaOwned s s.att.rDest.toNat 2432 = true
  · rw [serveReport_written h.1 h.2, State.onAtt_bdy]
    exact ((Keeps.refl s).spaWrite _ _).bdy
  · rw [serveReport_refused h, State.onAtt_bdy]

theorem serveAtt_bdy (s : State) : (serveAtt s).bdy = s.bdy := by
  refine foldl_proj State.bdy (fun t r => ?_) _ s
  cases r with
  | extend => simp only [serveExtend]; split_ifs <;> rfl
  | report => exact serveReport_bdy t

/-! Secure domains (R34). -/

/-- The index a domain takes is the lowest that is free. -/
theorem freeDomain_some {s : State} {k : Nat} (h : freeDomain s = some k) :
    k < 4096 ∧ s.net.domains.find k = none ∧ ∀ j < k, (s.net.domains.find j).isSome = true := by
  unfold freeDomain at h
  rw [List.find?_range_eq_some] at h
  obtain ⟨hk, hm, hl⟩ := h
  exact ⟨List.mem_range.mp hm, by simpa using hk, fun j hj => by simpa [Option.isSome_iff_ne_none] using hl j hj⟩

/-- A domain put at an index of the table. -/
def domainAt (s : State) (k : Nat) (d : Domain) : State :=
  s.onNet fun n => { n with domains := n.domains.put k d, flows := n.flows.filter (·.dom != k) }

theorem putDomain_some {s : State} {d : Domain} {k : Nat} (h : freeDomain (dropPair s d) = some k) :
    putDomain s d = (domainAt (dropPair s d) k d, some k) := by
  unfold putDomain
  dsimp only
  split
  · next e => rw [e] at h; cases h; rfl
  · next e => rw [e] at h; cases h
theorem putDomain_none {s : State} {d : Domain} (h : freeDomain (dropPair s d) = none) : putDomain s d = (dropPair s d, none) := by
  unfold putDomain
  dsimp only
  split
  · next e => rw [e] at h; cases h
  · rfl

/-- A handshake that installs a domain ends with its index; with no free index it is refused. -/
theorem hInstall_some {s : State} {d : Domain} {k : Nat} (h : freeDomain (dropPair s d) = some k) (via : Transport) (m : Bytes)
    (body : State → Bytes) : hInstall s via m d body =
      hDone (hReply (domainAt (dropPair s d) k d) via m 0 (body (domainAt (dropPair s d) k d) ++ leBytes 4 k)) (mVd m) := by
  unfold hInstall
  split
  · next e => cases (putDomain_some h).symm.trans e; rfl
  · next e => cases (putDomain_some h).symm.trans e
theorem hInstall_none {s : State} {d : Domain} (h : freeDomain (dropPair s d) = none) (via : Transport) (m : Bytes)
    (body : State → Bytes) : hInstall s via m d body = hReply (dropPair s d) via m 3 [] := by
  unfold hInstall
  split
  · next e => cases (putDomain_none h).symm.trans e
  · next e => cases (putDomain_none h).symm.trans e; rfl

/-! The end of a handshake. -/

/-- A completed handshake has cleared the window of its VD (R67). -/
theorem rpcOf_hDone_hReply (s : State) (via : Transport) (m : Bytes) (st : Nat) (body : Bytes) :
    rpcOf (hDone (hReply s via m st body) (mVd m)) (mVd m) = { rpcOf s (mVd m) with high := 0, map := 0 } := by
  rw [hDone, rpcOf_onRpcVd_self, rpcOf_congr (show (hReply s via m st body).rpc = s.rpc from rpcSend_rpc ..)]

/-- The reply of a completed handshake to a requester on a port. -/
theorem hDone_hReply_outbox {s x : State} (hb : x.bdy = s.bdy) (port : Fin 4) (src : Bytes) (rpid : Nat) (m : Bytes) (st : Nat) (body : Bytes) :
    (hDone (hReply x (.ue port src rpid) m st body) (mVd m)).sch.outbox = x.sch.outbox ++
      (if s.bdy.peerChk[port] = true ∧ egressOk s src = false then [] else
        [.ue port.val (src ++ leBytes 2 rpid) false (withMac (rpcOf x (mVd m)).key (replyMsg (mVd m) (mCall m) (mSeq m) st body))]) :=
  ueSend_outbox hb (mVd m) port src rpid false _

/-- What a handshake that has installed a domain leaves of the table, the window and the messages sent. -/
theorem hInstall_ends {s x : State} (hb : x.bdy = s.bdy) {d : Domain} {k : Nat} (h : freeDomain (dropPair x d) = some k) (via : Transport)
    (m : Bytes) (body : State → Bytes) : let t := flushRecs (hInstall x via m d body)
    k < 4096 ∧ t.net.domains.find k = some d ∧ (∀ j, j ≠ k → t.net.domains.find j = (dropPair x d).net.domains.find j)
      ∧ (∀ j < k, (t.net.domains.find j).isSome = true) ∧ (rpcOf t (mVd m)).high = 0 ∧ (rpcOf t (mVd m)).map = 0
      ∧ ∀ port src rpid, via = .ue port src rpid → t.sch.outbox = x.sch.outbox ++
          (if s.bdy.peerChk[port] = true ∧ egressOk s src = false then [] else [.ue port.val (src ++ leBytes 2 rpid) false
            (withMac (rpcOf x (mVd m)).key (replyMsg (mVd m) (mCall m) (mSeq m) 0 (body (domainAt (dropPair x d) k d) ++ leBytes 4 k)))]) := by
  intro t
  obtain ⟨hk, hf, hl⟩ := freeDomain_some h
  have ht : t = flushRecs _ := congrArg flushRecs (hInstall_some h via m body)
  have hr : rpcOf t (mVd m) = _ := (rpcOf_congr (by rw [ht, flushRecs_rpc]) _).trans (rpcOf_hDone_hReply ..)
  have hd : t.net.domains = (dropPair x d).net.domains.put k d := by rw [ht, flushRecs_net]; exact rpcSend_domains ..
  have ho : ∀ j, j ≠ k → t.net.domains.find j = (dropPair x d).net.domains.find j := fun j hj => by rw [hd, Tab.find_put_ne _ _ hj]
  refine ⟨hk, by rw [hd, Tab.find_put_self], ho, fun j hj => by rw [ho j (Nat.ne_of_lt hj)]; exact hl j hj, by rw [hr], by rw [hr], ?_⟩
  rintro port src rpid rfl
  rw [ht, flushRecs_sch]
  exact hDone_hReply_outbox (x := domainAt (dropPair x d) k d) hb port src rpid m 0 _

/-- Mode 0 leaves its VD with the new key and a clear window (R67, R72). -/
theorem rpcOf_newKey (s : State) (v : Nat) (key : Option Bytes) :
    rpcOf (flushRecs (hDone (onRpcVd s v (fun x => { x with key := key })) v)) v = { rpcOf s v with key := key, high := 0, map := 0 } := by
  rw [rpcOf_congr (flushRecs_rpc _), hDone, rpcOf_onRpcVd_self, rpcOf_onRpcVd_self]

/-- Mode 4 with a pending key of its triple. -/
theorem execHandshakeComplete_some {s : State} {via : Transport} {msg : Bytes} {p : PendingKem}
    (hp : (serveAtt s).rpc.pending.find? (isPending msg) = some p) (hc : hCross (serveAtt s) msg 4 = true) :
    execHandshakeComplete via msg s = .next (flushRecs (hInstall
      ((serveAtt s).onRpc fun x => { x with pending := x.pending.filter (fun q => !isPending msg q) }) via msg
      { vd := hLocal msg, peerPkg := some (hPkg msg), peerVd := hPeer msg, key := crossKey (Config.kemDecaps p.dk (hField msg)) msg }
      (fun s => hReport s (hNonce msg ++ hField msg)))) := by
  unfold execHandshakeComplete
  dsimp only
  split
  · next q e =>
    cases hp.symm.trans e
    exact if_neg (by simpa using hc)
  · next e => cases hp.symm.trans e

/-- Without one, or where its tests fail, it is BAD_ARG. -/
theorem execHandshakeComplete_bad {s : State} {via : Transport} {msg : Bytes}
    (h : (serveAtt s).rpc.pending.find? (isPending msg) = none ∨ hCross (serveAtt s) msg 4 = false) :
    execHandshakeComplete via msg s = .next (flushRecs (hBad (serveAtt s) via msg)) := by
  unfold execHandshakeComplete
  dsimp only
  split
  · next q e => exact if_pos (by simpa [e] using h)
  · rfl

end Sys2Proof.Machine

namespace Sys2Proof
open Machine

/-- Settles O33: each mode by its tests, and the modes that install a domain by the one way in which they end. -/
theorem handshakes : Obligations.Handshakes := by
  unfold Obligations.Handshakes
  intro s via msg i a r v f e c report bad told installs
  have hb : a.bdy = s.bdy := serveAtt_bdy s
  have hi : ∀ (x : State) (d : Domain) (body : State → Bytes) (b : Bytes), x.bdy = s.bdy →
      exec i s = .next (flushRecs (hInstall x via msg d body)) → (∀ k, body (domainAt (dropPair x d) k d) = b) → installs x d b := by
    intro x d body b hx he hbody
    refine ⟨fun k hk => ?_, fun hn => ?_⟩
    · have ends := hInstall_ends hx hk via msg body
      rw [hbody] at ends
      exact ⟨_, he, ends⟩
    · rw [he, hInstall_none hn]
  refine ⟨?_, ?_, ?_, ?_, ?_⟩
  · rintro rfl
    refine ⟨fun h => if_pos h, fun h0 hs hu => ⟨_, if_neg (by simp [h0, hs, hu, a, v]), ?_⟩⟩
    beta_reduce
    intro key
    refine ⟨congrArg RpcVd.key (rpcOf_newKey _ v _), congrArg RpcVd.high (rpcOf_newKey _ v _), congrArg RpcVd.map (rpcOf_newKey _ v _), ?_⟩
    rintro port src rpid rfl
    rw [flushRecs_sch]
    exact ueSend_outbox (x := r.1) hb v port src rpid false _
  · rintro rfl b
    refine ⟨fun h => if_pos h, fun h0 hs hv hb0 hu => ?_⟩
    exact hi _ _ _ _ hb (if_neg (by
      simp only [not_or]
      exact ⟨not_not.mpr h0, by simp [hs], not_not.mpr hv, hb0, by simpa using hu⟩)) fun _ => rfl
  · rintro rfl
    refine ⟨fun h => if_pos (by simpa using h), fun h => ⟨_, if_neg (by simpa using h), ?_⟩⟩
    beta_reduce
    intro k p
    have hr := (rpcOf_congr (flushRecs_rpc _) _).trans (rpcOf_hDone_hReply (r.1.onRpc fun x => { x with
      pending := x.pending.filter (fun q => !isPending msg q) ++ [p] }) via msg 0 (padTo 1568 k.1 ++ report r.1 (hNonce msg ++ padTo 1568 k.1)))
    refine ⟨?_, congrArg RpcVd.high hr, congrArg RpcVd.map hr, ?_⟩
    · rw [flushRecs_rpc]
      exact congrArg RpcState.pending (rpcSend_rpc ..)
    · rintro port src rpid rfl
      rw [flushRecs_sch]
      exact hDone_hReply_outbox (x := r.1.onRpc _) hb port src rpid msg 0 _
  · rintro rfl
    exact ⟨fun h => if_pos (by simpa using h), fun h => hi _ _ _ _ hb (if_neg (by simpa using h)) fun _ => rfl⟩
  · rintro rfl
    exact ⟨execHandshakeComplete_bad, fun p hp h => hi _ _ _ _ hb (execHandshakeComplete_some hp h) fun _ => rfl⟩

end Sys2Proof
end

section
/-! PROOFS. MAP that fails leaves the state of the call, and not what its walk has moved (R75). -/
namespace Sys2Proof.Machine

/-! A reply by PCI Express offers no record and leaves memory alone. -/

theorem msixFire_ras_mem (s : State) (ep : Nat) : (msixFire s ep).ras = s.ras ∧ (msixFire s ep).mem = s.mem := by
  unfold msixFire; dsimp only; split_ifs <;> exact ⟨rfl, rfl⟩

theorem flushRecs_slotSend_mem {s : State} {q : RpcReq} {ep : Fin 2} {w : Fin 32} (h : s.ras.pending = []) (hv : q.via = .pcie ep w) (v i : Nat)
    (bad : Bool) (m : Bytes) : (flushRecs (slotSend s v i q bad m)).mem = s.mem := by
  have hs : (slotSend s v i q bad m).ras = s.ras ∧ (slotSend s v i q bad m).mem = s.mem := by
    unfold slotSend
    rw [hv]
    exact msixFire_ras_mem _ _
  rw [flushRecs_quiet (by rw [hs.1, h]), hs.2]

/-! A walk of VD 0's by guest-physical address. -/

theorem gpaRead_plain {s t : State} {gpa e : Nat} (hr : isRegPage s 0 gpa = false) (he : bit (trnOf s 0).s2.toNat 0 = false)
    (hw : wkRead s 0 0 gpa = (t, .ok e)) : gpaRead s 0 0 gpa = (t, .ok (e, gpa)) := by
  have h2 : gpa / 1073741824 * 1073741824 + gpa % 1073741824 = gpa := Nat.div_add_mod' _ _
  simp [gpaRead, stage2, hr, he, Target.plus, h2, hw]

/-- With no table and an empty pool, a MAP of one page ends where it has read the address-space table. -/
theorem mapPages_noTable {s t : State} {a asid va gpa perm : Nat} (ha : bits (trnOf s 0).astb.toNat 63 12 * 4096 + 8 * asid = a)
    (hr : gpaRead s 0 0 a = (t, .ok (0, a))) : mapPages 0 asid perm 1 va gpa [] s = (t, false) := by
  simp only [mapPages, mapPage, ha, mapTable, hr]; rfl

/-- A MAP that cannot be made is answered FAULT from the state before it. -/
theorem execMap_fault {s y : State} {vd : Vd} {slot : Fin 16} {q : RpcReq} {req : MapReq} {gpa : Nat}
    (h : (rpcOf s vd.val).slots.find slot.val = some q) (hk : callKnown q.call.toNat q.vd = true) (hc : q.call.toNat = 0x101)
    (hs : req.source = .frames gpa) (hr : pageRange req.va req.len = true) (hw : s.trn.windows = []) (ha : gpa % 4096 = 0)
    (hl : gpa + req.len ≤ 2 ^ 48) (hp : req.pool = [])
    (hm : mapPages vd.val req.asid.val req.perm.val (req.len / 4096) req.va gpa req.pool s = (y, false)) :
    execMap vd slot req s = answerSlot s vd.val slot.val q 5 [] := by
  unfold execMap guestCall
  refine serve_answers h hk hc (st := 5) ?_ (by decide)
  have hn : ¬(gpa % 4096 ≠ 0 ∨ 2 ^ 48 < gpa + req.len ∨ req.pool.any (fun p => p % 4096 != 0 || decide (2 ^ 48 ≤ p)) = true) := by
    rw [hp]; simp only [List.any_nil, Bool.false_eq_true, or_false]; omega
  simp only [hr, hw, hs, List.any_nil, Bool.not_true, Bool.or_self, Bool.false_eq_true, if_false]
  rw [if_neg hn, hm]
  rfl

/-- VD 0 owns frame 0, its address-space table is page p, all zeros, and slot 0 of its receive area holds a MAP of VD 1. -/
def failingMap (p : Nat) : State :=
  { State.reset with
    trn := { State.reset.trn with regs := [(0, { TrnRegs.reset with astb := BitVec.ofNat 64 (4096 * p) })]
                                  fot := [(0, { Frame.free with st := .owned })] }
    rpc := { State.reset.rpc with vds := [(0, { RpcVd.reset with
      slots := [(0, { vd := 1, seq := 0, call := 0x101, via := .pcie 0 0, was := 0 })] })] } }

/-- The read of its address-space table moves the clock of the memory-side cache. -/
theorem failingMap_reads {p : Nat} (h1 : 1 ≤ p) (h2 : p ≤ 6) : (wkRead (failingMap p) 0 0 (4096 * p)).2 = .ok 0
    ∧ (wkRead (failingMap p) 0 0 (4096 * p)).1.mem.clock = 1 ∧ (wkRead (failingMap p) 0 0 (4096 * p)).1.ras.pending = [] := by
  interval_cases p <;> decide +kernel

end Sys2Proof.Machine

namespace Sys2Proof
open Machine

/-- Refutes O36: the statement has a MAP that cannot be made answer FAULT in the state `y` that its attempt has reached, and the model answers
from the state before the attempt; here the attempt has moved the clock of the memory-side cache. -/
theorem not_guestCalls : ¬ Obligations.GuestCalls := by
  unfold Obligations.GuestCalls
  intro h
  obtain ⟨p, h1, h2, hp⟩ := Tests.free_page
  obtain ⟨hz, hclock, hras⟩ := failingMap_reads h1 h2
  let req : MapReq := { asid := 0, va := 4096, len := 4096, perm := 3, source := .frames 0, pool := [] }
  have hq : (rpcOf (failingMap p) 0).slots.find 0 = some { vd := 1, seq := 0, call := 0x101, via := .pcie 0 0, was := 0 } := rfl
  have ha : bits (trnOf (failingMap p) 0).astb.toNat 63 12 * 4096 + 8 * 0 = 4096 * p := by interval_cases p <;> decide
  have hr : gpaRead (failingMap p) 0 0 (4096 * p) = _ :=
    gpaRead_plain (hp _ (.inl (show qpMax State.reset 0 = 0 by decide)) _ (by omega)) (show bit (0 : DWord).toNat 0 = false by decide)
      (Prod.ext rfl hz)
  have hm : mapPages 0 0 3 (req.len / 4096) 4096 0 [] (failingMap p) = _ :=
    (show req.len / 4096 = 1 by decide) ▸ mapPages_noTable ha hr
  obtain ⟨-, -, -, map, -⟩ := h (failingMap p) 0 0 _ req 0 0 0 0 0 [] 0 0 _ hq
  obtain ⟨-, good⟩ := map rfl ⟨rfl, by decide⟩
  have stated := ((good (by decide) (by rintro ⟨w, hw, -⟩; cases hw)).1 0 rfl rfl (by decide) (by simp [req]) _ _ hm).2 rfl
  have answered : exec (.map 0 0 req) (failingMap p) = _ :=
    execMap_fault hq (by decide) (by decide) rfl (by decide) rfl rfl (by decide) rfl hm
  injection stated.symm.trans answered with hends
  have hmem := congrArg State.mem hends
  rw [flushRecs_slotSend_mem hras rfl, flushRecs_slotSend_mem rfl rfl] at hmem
  exact absurd (hclock.symm.trans (congrArg MemState.clock hmem)) (show 1 ≠ 0 by decide)

end Sys2Proof
end

section
/-! PROOFS. PCI Express accesses: landing writes, flags, BAR reads, MSI-X and descriptors (R51, R52, R53, R54, R55, R57). -/
namespace Sys2Proof.Machine

/-! What a landing write comes to, by the window that it lies in. -/

section
variable {s : State} {ep w : Nat} {p : PeerWrite}

/-- What the check of a write answers, the message of an RPC window being stored without one. -/
def windowCheck (s : State) (ep w : Nat) (p : PeerWrite) : State × Nat :=
  let d := lwdOf s ep w
  if d.kind = 2 then (s, 0)
  else landCheck s d.vd (d.kind == 1) (d.target + (p.off - d.base)) p.data.length (p.data.length / 32 + 2)

theorem landWrite_noWindow (hm : inMsix p.off p.data.length = false) (hw : windowOf s ep p.off p.data.length = none) :
    landWrite s ep p = lwdRec s 0 5 (256 * ep) p.off := by
  simp [landWrite, hm, hw]

/-- R52 to R57: what a write inside a window comes to. -/
theorem landWrite_window (hm : inMsix p.off p.data.length = false) (hw : windowOf s ep p.off p.data.length = some w) :
    landWrite s ep p =
      if bit (lwdOf s ep w).ctl.toNat 30 = true then s
      else if bit (lwdOf s ep w).ctl.toNat 47 = true ∧ p.rid.toNat ≠ bits (lwdOf s ep w).ctl.toNat 63 48 then
        lwdRec s (lwdOf s ep w).vd 6 (256 * ep + w) p.rid.toNat
      else if (!p.crcOk) = true then lwdFail s ep w (p.off - (lwdOf s ep w).base)
      else if (windowCheck s ep w p).2 = 8 then
        lwdRec (windowCheck s ep w p).1 (lwdOf s ep w).vd 8 (256 * ep + w) (p.off - (lwdOf s ep w).base)
      else if (windowCheck s ep w p).2 = 7 then lwdFail (windowCheck s ep w p).1 ep w (p.off - (lwdOf s ep w).base)
      else landAccept (windowCheck s ep w p).1 ep w p := by
  simp only [landWrite, hm, hw]
  rfl

theorem windowCheck_eq {x : State} {c : Nat} (h : (lwdOf s ep w).kind = 2 ∧ x = s ∧ c = 0 ∨ (lwdOf s ep w).kind ≠ 2 ∧
    landCheck s (lwdOf s ep w).vd ((lwdOf s ep w).kind == 1) ((lwdOf s ep w).target + (p.off - (lwdOf s ep w).base)) p.data.length
      (p.data.length / 32 + 2) = (x, c)) : windowCheck s ep w p = (x, c) := by
  obtain ⟨hk, rfl, rfl⟩ | ⟨hk, hc⟩ := h
  · exact if_pos hk
  · exact (if_neg hk).trans hc

/-! What becomes of a write that is tried. -/

theorem landTry_waits {x : State} (h : windowCheck s ep w p = (x, 9)) : landTry s ep w p = (x, .waits) := by
  simp only [landTry, show (if (lwdOf s ep w).kind = 2 then _ else _) = (x, 9) from h]
theorem landTry_refused {x : State} (h : windowCheck s ep w p = (x, 7)) :
    landTry s ep w p = (lwdFail x ep w (p.off - (lwdOf s ep w).base), .failed) := by
  simp only [landTry, show (if (lwdOf s ep w).kind = 2 then _ else _) = (x, 7) from h]
theorem landTry_discarded {x : State} (h : windowCheck s ep w p = (x, 8)) :
    landTry s ep w p = (lwdRec x (lwdOf s ep w).vd 8 (256 * ep + w) (p.off - (lwdOf s ep w).base), .done) := by
  simp only [landTry, show (if (lwdOf s ep w).kind = 2 then _ else _) = (x, 8) from h]
theorem landTry_lands {x y : State} {b : Bool} (h : windowCheck s ep w p = (x, 0)) (hd : landDo x ep w p = (y, b)) :
    landTry s ep w p = if b = true then (if coversFlag (lwdOf s ep w) p = true then landFire y ep w else y, .done) else (y, .failed) := by
  simp only [landTry, show (if (lwdOf s ep w).kind = 2 then _ else _) = (x, 0) from h, hd]
  cases b <;> rfl

/-- A write to memory is made by the bytes' write, a fault of which stops the window. -/
theorem landDo_memory {y : State} {z : Except EngErr Unit} (hk : (lwdOf s ep w).kind ≠ 2)
    (h : gpaWriteN s (ioEng (lwdOf s ep w).vd 0) ((lwdOf s ep w).target + (p.off - (lwdOf s ep w).base)) p.data = (y, z)) :
    (∀ u, z = .ok u → landDo s ep w p = (y, true))
    ∧ (∀ e, z = .error e → landDo s ep w p = (lwdFail y ep w (p.off - (lwdOf s ep w).base), false)) := by
  constructor <;> rintro _ rfl <;> simp only [landDo, if_neg hk, h]

theorem landDo_rpcWin (hk : (lwdOf s ep w).kind = 2) (k : Nat) :
    cellAt (landDo s ep w p).1.pcie.rpcWin k =
      if rpcWinKey ep w (p.off - (lwdOf s ep w).base) ≤ k ∧ k < rpcWinKey ep w (p.off - (lwdOf s ep w).base) + p.data.length then
        p.data.getD (k - rpcWinKey ep w (p.off - (lwdOf s ep w).base)) 0
      else cellAt s.pcie.rpcWin k := by
  simp only [landDo, if_pos hk]
  exact cellAt_cellsPut ..

/-! The writes that a window holds. -/

theorem landHeld_one {pick : PeerWrite → Bool} (hh : heldOf s ep w = [p]) (hp : pick p = true) :
    landHeld s ep w pick = putHeld (landTry s ep w p).1 ep w (if (landTry s ep w p).2 = .waits then [p] else []) := by
  obtain ⟨⟨x, l⟩, e⟩ : ∃ r, landTry s ep w p = r := ⟨_, rfl⟩
  cases l <;> simp [landHeld, hh, landRun, hp, e]

/-- A write stays behind an earlier one of its requester that waits, when it covers the flag or both are ordered. -/
theorem landHeld_two {pick : PeerWrite → Bool} {q : PeerWrite} {x : State} (hh : heldOf s ep w = [p, q]) (hp : pick p = true)
    (ht : landTry s ep w p = (x, .waits)) (ha : landAfter (lwdOf x ep w) q p = true) :
    landHeld s ep w pick = putHeld x ep w [p, q] := by
  simp [landHeld, hh, landRun, hp, ht, ha]

end

/-! MSI-X. -/

/-- A message that fires of a vector that is not masked leaves table and pending bits. -/
theorem msixFire_unmasked {s : State} {ep : Nat} (h : bit (s.pcie.msixTable[ep]?.getD 0).toNat 96 = false) :
    (msixFire s ep).pcie = s.pcie := by
  unfold msixFire; rw [if_neg (by rw [h]; decide)]; rfl

/-- The entry takes a value, and a message that its mask lets through leaves. -/
def msixPut (s : State) (ep v : Nat) : State :=
  let s := s.onPcie fun p => { p with msixTable := p.msixTable.setIfInBounds ep (BitVec.ofNat 128 v) }
  if bit v 96 = false ∧ s.pcie.msixPending[ep]?.getD false then
    msixFire (s.onPcie fun p => { p with msixPending := p.msixPending.setIfInBounds ep false }) ep
  else s

theorem msixWrite_eq_put {s : State} {off : Nat} {b : Bytes} (ep : Nat) (h : off + b.length ≤ 16) : msixWrite s ep off b =
    msixPut s ep (leNat (splice (leBytes 16 (s.pcie.msixTable[ep]?.getD 0).toNat) off b) % 2 ^ 97 / 4 * 4) := by
  rw [msixWrite, if_pos h]; rfl

theorem perPort_getD {α : Type} (l : Vector α 2) (ep : Fin 2) (d : α) : l[ep.val]?.getD d = l[ep.val] := by
  rw [getElem?_pos l ep.val ep.isLt]; rfl

theorem msixPut_pcie (s : State) (ep : Fin 2) {v : Nat} (hv : v < 2 ^ 128) : (msixPut s ep.val v).pcie =
    { s.pcie with
      msixTable := s.pcie.msixTable.setIfInBounds ep.val (BitVec.ofNat 128 v)
      msixPending := if bit v 96 = false ∧ s.pcie.msixPending[ep.val] = true then s.pcie.msixPending.setIfInBounds ep.val false
        else s.pcie.msixPending } := by
  simp only [msixPut, State.onPcie, perPort_getD]
  split_ifs with hf
  · exact msixFire_unmasked (by
      simp only [perPort_getD, Vector.getElem_setIfInBounds_self, BitVec.toNat_ofNat, Nat.mod_eq_of_lt hv]
      exact hf.1)
  · rfl

/-- R51: the entry holds the value, and a message whose mask is now clear is not pending. -/
theorem msixPut_table (s : State) (ep : Fin 2) {v : Nat} (hv : v < 2 ^ 128) :
    (msixPut s ep.val v).pcie.msixTable[ep] = BitVec.ofNat 128 v
    ∧ (bit v 96 = false → (msixPut s ep.val v).pcie.msixPending[ep] = false) := by
  simp only [msixPut_pcie s ep hv]
  refine ⟨by simp, fun hb => ?_⟩
  by_cases hp : s.pcie.msixPending[ep.val] = true <;> simp [hb, hp]

/-! Descriptors. -/

@[simp] theorem lwdOf_onLwd_self (s : State) (ep w : Nat) (f : Lwd → Lwd) : lwdOf (onLwd s ep w f) ep w = f (lwdOf s ep w) := by
  simp [lwdOf, onLwd, Tab.at]

@[simp] theorem lwdOf_flushRecs (s : State) (ep w : Nat) : lwdOf (flushRecs s) ep w = lwdOf s ep w := by
  rw [lwdOf, flushRecs_pcie]; rfl

/-- R53: a closed window takes the value, EN being refused, with ERR kept unless it is written with 1. -/
theorem lwdCtlWrite_closed {s : State} {ep w : Nat} (he : bit (lwdOf s ep w).ctl.toNat 31 = false) (x : Nat) :
    lwdCtlWrite s ep w x =
      let n : Lwd := { lwdOf s ep w with ctl := BitVec.ofNat 64 (setBits (setBits (setBits x 46 44 0) 29 26 0) 30 30
        (bit (lwdOf s ep w).ctl.toNat 30 && !bit x 30).toNat) }
      if bit x 31 = true ∧ lwdRefused s ep w n = true then s else onLwd s ep w (fun _ => n) := by
  simp only [lwdCtlWrite, Lwd.en, he, Bool.false_eq_true, if_false, Bool.and_eq_true]

/-- R53: of an open window EN and ERR change, EN once no write waits that it holds. -/
theorem lwdCtlWrite_open {s : State} {ep w : Nat} (he : bit (lwdOf s ep w).ctl.toNat 31 = true) (x : Nat) :
    let y := if bit x 31 = true then s else landHeld s ep w (fun _ => true)
    (bit x 31 = false → heldOf y ep w ≠ [] → lwdCtlWrite s ep w x = y)
    ∧ (bit x 31 = true ∨ heldOf y ep w = [] → lwdCtlWrite s ep w x = onLwd y ep w (fun d => { d with
        ctl := BitVec.ofNat 64 (setBits (setBits d.ctl.toNat 30 30 (bit d.ctl.toNat 30 && !bit x 30).toNat) 31 31 (bit x 31).toNat) })) := by
  intro y
  simp only [lwdCtlWrite, Lwd.en, he, if_true]
  refine ⟨fun h hh => if_pos ?_, fun h => if_neg ?_⟩
  · change (!bit x 31 && !(heldOf y ep w).isEmpty) = true
    simp [h, hh]
  · change ¬(!bit x 31 && !(heldOf y ep w).isEmpty) = true
    obtain h | h := h <;> simp [h]

/-- Bits 30 and 31 of a descriptor's control word after ERR and EN are written. -/
theorem bit_errEn (x : Nat) (e n : Bool) : let c := (BitVec.ofNat 64 (setBits (setBits x 30 30 e.toNat) 31 31 n.toNat)).toNat
    bit c 31 = n ∧ bit c 30 = e := by
  have h30 := fun i => testBit_setBits x 30 1 e.toNat i Nat.one_pos
  have h31 := fun i => testBit_setBits (setBits x 30 30 e.toNat) 31 1 n.toNat i Nat.one_pos
  simp only [Nat.add_sub_cancel] at h30 h31
  simp only [bit_eq_testBit, BitVec.toNat_ofNat, Nat.testBit_mod_two_pow, h31, h30]
  cases e <;> cases n <;> simp

end Sys2Proof.Machine

namespace Sys2Proof
open Machine

/-- Settles O28: a write by the window that it lies in and by what its check answers, a held one by its try; the registers by their bits. -/
theorem landingWindows : Obligations.LandingWindows := by
  unfold Obligations.LandingWindows
  intro s ep w off len b p v i
  refine ⟨fun hi hm => ?_, fun hk x c hc => ?_, fun pick hh hp => landHeld_one hh hp, fun pick q x hh hp ht hr ha => ?_,
    fun hk k => landDo_rpcWin hk k, ⟨_, rfl, ?_⟩, ⟨_, rfl, ?_⟩, fun h => ⟨_, rfl, ?_⟩, fun he => ?_, fun he => ⟨_, rfl, ?_⟩⟩
  · have hx : exec i s = .next (flushRecs (landWrite s ep.val p)) := by obtain rfl | rfl := hi <;> rfl
    rw [hx]
    refine ⟨fun hw => by rw [landWrite_noWindow hm hw], fun hw => ?_⟩
    rw [landWrite_window hm hw]
    refine ⟨fun h => by rw [if_pos h], fun h h47 hr => ?_, fun h hr => ⟨fun hcrc => ?_, fun hcrc x c hc => ?_⟩⟩
    · rw [if_neg (by simp [h]), if_pos ⟨h47, hr⟩]
    · rw [if_neg (by simp [h]), if_neg (by tauto), if_pos (by simp [hcrc])]
    · rw [if_neg (by simp [h]), if_neg (by tauto), if_neg (by simp [hcrc]), windowCheck_eq hc]
      refine ⟨?_, ?_, fun h09 => ?_⟩
      · rintro rfl; rfl
      · rintro rfl; rfl
      · rw [if_neg (by dsimp only; omega), if_neg (by dsimp only; omega)]
        refine ⟨fun hf => ?_, fun hf hrel => ?_, fun hf hrel => ?_⟩
        · simp [landAccept, hf]
        · simp [landAccept, hf, hrel]
        · by_cases hv : bit (freeValue (putHeld x ep.val w.val (heldOf x ep.val w.val ++ [p]))).2.toNat 0 = true
          · left; simp [landAccept, hf, hrel, hv]
          · right; simp [landAccept, hf, hrel, hv]
  · have hx := windowCheck_eq (.inr ⟨hk, hc⟩)
    refine ⟨?_, ?_, ?_, ?_⟩
    · rintro rfl hd y z hz
      rw [← hd] at hk hz
      obtain ⟨hok, herr⟩ := landDo_memory hk hz
      exact ⟨fun u hu => landTry_lands hx (hok u hu), fun e hu => (landTry_lands hx (herr e hu)).trans (by rw [hd]; rfl)⟩
    · rintro rfl; exact landTry_refused hx
    · rintro rfl; exact landTry_discarded hx
    · rintro rfl; exact landTry_waits hx
  · refine landHeld_two hh hp ht ?_
    simp only [landAfter, hr, beq_self_eq_true, Bool.true_and, Bool.or_eq_true, Bool.and_eq_true, Bool.not_eq_true']
    exact ha
  · split_ifs <;> rfl
  · beta_reduce
    split_ifs <;> rfl
  · have ht : inMsix off b.length = true := by simp [inMsix, h]
    simp only [if_pos ht, msixWrite_eq_put ep.val h, perPort_getD]
    exact msixPut_table s ep (lt_of_le_of_lt (Nat.div_mul_le_self _ 4) ((Nat.mod_lt _ (Nat.two_pow_pos 97)).trans (by decide)))
  · obtain ⟨hstay, hset⟩ := lwdCtlWrite_open (w := w.val) he v.toNat
    refine ⟨fun h31 hh => ?_, fun h => ⟨_, rfl, ?_⟩⟩
    · exact congrArg (Host.Outcome.next ∘ flushRecs) (hstay h31 hh)
    · beta_reduce
      rw [lwdOf_flushRecs, hset h, lwdOf_onLwd_self]
      obtain ⟨h31, h30⟩ := bit_errEn
        (lwdOf (if bit v.toNat 31 = true then s else landHeld s ep.val w.val fun _ => true) ep.val w.val).ctl.toNat _ _
      exact ⟨h31, h30, rfl, rfl, rfl⟩
  · beta_reduce
    rw [lwdOf_flushRecs, lwdCtlWrite_closed (w := w.val) he]
    dsimp only
    split_ifs
    · rfl
    · exact lwdOf_onLwd_self ..

end Sys2Proof
end

section
/-! PROOFS. What translations and engine accesses leave alone: an engine's write reaches besides memory only the memory of other packages. -/
namespace Sys2Proof.Machine

/-- The outer parts of a state without the memory of other packages. -/
def State.rim (s : State) : State := { s.outer with net := { s.net with remote := [], remotePoison := [] } }

theorem rim_of_outer {s t : State} (h : t.outer = s.outer) : t.rim = s.rim :=
  congrArg (fun o : State => { o with net := { o.net with remote := [], remotePoison := [] } }) h
theorem rim_fst {α : Type} {q : State × α} {x s : State} {y : α} (e : q = (x, y)) (h : q.1.rim = s.rim) : x.rim = s.rim := by
  rw [e] at h; exact h

section
variable {s t : State} (h : t.rim = s.rim)
include h
theorem bdy_of_rim : t.bdy = s.bdy := (congrArg State.bdy h :)
theorem qps_of_rim : t.net.qps = s.net.qps := (congrArg (fun o => o.net.qps) h :)
end

/-! Translation by virtual address. -/

theorem gpaRead_outer (s : State) (cl v gpa : Nat) : (gpaRead s cl v gpa).1.outer = s.outer := by
  have h1 := stage2_outer s cl v gpa (fun r _ _ => r)
  unfold gpaRead
  split <;> rename_i e <;> replace h1 := outer_fst e h1
  · exact h1
  · next t l =>
    split_ifs
    · exact h1
    · split
      · next a _ =>
        have h2 := (wkRead_outer t cl v a).trans h1
        split <;> rename_i e2 <;> exact outer_fst e2 h2
      · exact h1

theorem s1Find_outer (cl v va : Nat) : ∀ (n table : Nat) (s : State), (s1Find s cl v va table n).1.outer = s.outer
  | 0, _, _ => rfl
  | n + 1, table, s => by
    have h1 := gpaRead_outer s cl v (table + 8 * bits va (12 + 9 * n + 8) (12 + 9 * n))
    unfold s1Find
    split <;> rename_i e <;> replace h1 := outer_fst e h1
    · exact h1
    · split_ifs
      · exact h1
      · exact h1
      · exact h1
      · exact h1
      · exact (s1Find_outer cl v va n _ _).trans h1

theorem s1Walk_outer (s : State) (cl v va table n : Nat) : (s1Walk s cl v va table n).1.outer = s.outer := by
  have h1 := s1Find_outer cl v va n table s
  unfold s1Walk
  split <;> rename_i e <;> replace h1 := outer_fst e h1
  · exact h1
  · split_ifs <;> exact h1

theorem walk_outer (s : State) (cl v asid va : Nat) (acc : Acc) : (walk s cl v asid va acc).1.outer = s.outer := by
  have h1 := gpaRead_outer s cl v (bits (trnOf s v).astb.toNat 63 12 * 4096 + 8 * asid)
  unfold walk
  split <;> rename_i e <;> replace h1 := outer_fst e h1
  · exact h1
  · next t r _ =>
    by_cases hr : (!bit r 0 || bits r 63 48 != 0 || bits r 11 1 != 0) = true
    · rw [if_pos hr]; exact h1
    · rw [if_neg hr]
      have h2 := (s1Walk_outer t cl v va (bits r 47 12 * 4096) 4).trans h1
      split <;> rename_i e2 <;> replace h2 := outer_fst e2 h2
      · exact h2
      · next u w lvl a =>
        by_cases hp : (!permits acc (bit w 1) (bit w 2) (bit w 3) || !userOk acc (bit w 4)) = true
        · rw [if_pos hp]; exact h2
        · rw [if_neg hp]
          have h3 := (stage2_outer u cl v (leafBase w lvl va + va % leafSize w lvl va) (permits acc)).trans h2
          dsimp only
          split <;> rename_i e3 <;> replace h3 := outer_fst e3 h3
          · exact h3
          · split_ifs
            · exact h3
            · exact h3
            · exact (wkOr_outer ..).trans h3

theorem tlbFill_outer (s : State) (e : TlbEntry) : (tlbFill s e).outer = s.outer := by
  unfold tlbFill
  dsimp only
  split <;> rfl
theorem renewTlb_outer (s : State) (e : TlbEntry) : (renewTlb s e).outer = s.outer := onTrn_outer ..

theorem lookup_outer (s : State) (cl v asid va : Nat) (acc : Acc) : (lookup s cl v asid va acc).1.outer = s.outer := by
  unfold lookup
  split
  · exact renewTlb_outer ..
  · dsimp only
    split <;> rename_i e <;> have h1 := (outer_fst e (walk_outer ..)).trans (onTrn_outer s _)
    · exact h1
    · split
      · exact h1
      · exact (tlbFill_outer ..).trans h1

theorem setDirty_outer (s : State) (e : TlbEntry) : (setDirty s e).1.outer = s.outer := by
  have hif : ∀ (b : Bool) (t : State) (v a : Nat), (if b = true then (t, 1) else wkOr t e.cluster v a 0x40).1.outer = t.outer := by
    intro b t v a
    split_ifs
    · rfl
    · exact wkOr_outer ..
  by_cases hd : (e.d1 && e.d2) = true
  · rw [setDirty, if_pos hd]
  · rw [setDirty, if_neg hd]
    exact (onTrn_outer ..).trans ((hif e.d2 _ 0 e.leaf2).trans (hif e.d1 s e.vd e.leaf1))

theorem xlate_outer (cl v asid va : Nat) (acc : Acc) : ∀ (n : Nat) (s : State), (xlate s cl v asid va acc n).1.outer = s.outer
  | 0, _ => rfl
  | n + 1, s => by
    have h1 := lookup_outer s cl v asid va acc
    unfold xlate
    by_cases hc : (!canonical va) = true
    · rw [if_pos hc]
    · rw [if_neg hc]
      split
      · split_ifs <;> rfl
      · rfl
      · split <;> rename_i e <;> replace h1 := outer_fst e h1
        · exact h1
        · exact h1
        · next t te =>
          dsimp only
          by_cases hs : (acc.write && te.sealedP) = true
          · rw [if_pos hs]; exact h1
          · rw [if_neg hs]
            have h2 := (setDirty_outer t te).trans h1
            split
            · split <;> rename_i e2 <;> replace h2 := outer_fst e2 h2
              · exact h2
              · exact (xlate_outer cl v asid va acc n _).trans h2
            · exact h1
theorem translate_outer (s : State) (cl v asid va : Nat) (acc : Acc) : (translate s cl v asid va acc).1.outer = s.outer :=
  xlate_outer cl v asid va acc 2 s

/-! The shadow that a snapshot frame asks for. -/

theorem dropFrame_outer (s : State) (f : Nat) : (dropFrame s f).outer = s.outer := by
  unfold dropFrame; exact (onLoc_outer ..).trans (onTrn_outer ..)
theorem copyPhys_outer (s : State) (v src dst n : Nat) (ws : List Writer) : (copyPhys s v src dst n ws).outer = s.outer := by
  unfold copyPhys
  exact (onMem_outer ..).trans (outer_foldl (fun t i => (mscTouch_outer ..).trans (mscTouch_outer ..)) _ s)
theorem ptWrite_outer (s : State) (v spa new : Nat) : (ptWrite s v spa new).outer = s.outer :=
  (devWrite_outer ..).trans (flushLines_outer ..)
theorem migDone_outer (s : State) : (migDone s).outer = s.outer := onCores_outer ..

theorem shadowTake_outer (s : State) (v lid f : Nat) : (shadowTake s v lid f).1.outer = s.outer := by
  unfold shadowTake
  dsimp only
  split
  · rfl
  · split_ifs
    · rfl
    · refine (migDone_outer ..).trans <| (onTrn_outer ..).trans <| (outer_foldl (fun t (a : Nat × Nat) => ptWrite_outer t ..) _ _).trans <|
        (flushLines_outer ..).trans <| (copyPhys_outer ..).trans <| (onTrn_outer ..).trans <| (dropFrame_outer ..).trans <|
        (flushLines_outer ..).trans <| (flushLines_outer ..).trans (onTrn_outer ..)

/-! Physical accesses of engines. -/

theorem l2Alloc_outer (s : State) (die v kid a : Nat) : (l2Alloc s die v kid a).1.outer = s.outer := by
  unfold l2Alloc
  dsimp only
  split
  · rfl
  · exact (onMem_outer ..).trans (l2Evict_outer ..)
theorem l2Read_outer (s : State) (die v kid a n : Nat) (r : Bool) : (l2Read s die v kid a n r).1.outer = s.outer := by
  have hr := (mscRead_outer (tick s) v kid a n).trans (onMem_outer ..)
  have hg := (l2Get_outer (tick s) die v kid a).trans (onMem_outer ..)
  unfold l2Read
  dsimp only
  by_cases hd : homeDie a = die
  · rw [if_pos hd]
    split
    · exact hg
    · split <;> rename_i e <;> replace hr := outer_fst e hr
      · exact hr
      · exact (l2Alloc_outer ..).trans hr
  · rw [if_neg hd]
    split
    · exact onMem_outer ..
    · split <;> rename_i e <;> replace hg := outer_fst e hg
      · exact (mscRead_outer ..).trans hg
      · next t key =>
        have hf := (l2Fill_outer (onL2 t key fun l => { l with replica := l.replica || r }) v kid a key).trans ((onMem_outer ..).trans hg)
        split <;> rename_i e2 <;> replace hf := outer_fst e2 hf
        · exact hf
        · split <;> exact hf

theorem engPhysRead_outer (s : State) (e : Eng) (a n : Nat) (sl : Bool) : (engPhysRead s e a n sl).1.outer = s.outer := by
  have h : (match e.die with
    | some d => l2Read s d e.vd (kidFor s e.vd a) a n sl
    | none => mscRead s e.vd (kidFor s e.vd a) a n).1.outer = s.outer := by
    split
    · exact l2Read_outer ..
    · exact mscRead_outer ..
  unfold engPhysRead
  dsimp only
  split <;> rename_i e2 <;> exact outer_fst e2 h

theorem engPhysWrite_outer (s : State) (e : Eng) (a : Nat) (b : Bytes) (p : Bool) : (engPhysWrite s e a b p).1.outer = s.outer := by
  have h : (match e.die with
      | some d => l2Write s d e.vd (kidFor s e.vd a) a b 1 e.ws p
      | none => mscWrite s e.vd (kidFor s e.vd a) a b p).1.outer = s.outer := by
    split
    · exact l2Write_outer ..
    · exact mscWrite_outer ..
  unfold engPhysWrite
  split
  · dsimp only
    split_ifs
    · exact shadowTake_outer ..
    · rfl
  · dsimp only
    split <;> rename_i e2 <;> exact outer_fst e2 h

/-! Accesses by virtual address. -/

theorem flashRenew_outer (s : State) (v win nsid lba : Nat) : (flashRenew s v win nsid lba).outer = s.outer := onMem_outer ..
theorem flashAsk_outer (s : State) (v win nsid lba : Nat) : (flashAsk s v win nsid lba).outer = s.outer := onMem_outer ..
theorem linkLost_outer (s : State) (pkg : Nat) : (linkLost s pkg).outer = s.outer := onRas_outer ..

theorem engRead1_outer (s : State) (e : Eng) (va n : Nat) : (engRead1 s e va n).1.outer = s.outer := by
  have h1 := translate_outer s e.cl e.vd e.asid va { write := false, fetch := false, user := false, sup := false }
  unfold engRead1
  split <;> rename_i e1 <;> replace h1 := outer_fst e1 h1
  · exact h1
  · exact h1
  · split
    · exact (engPhysRead_outer ..).trans h1
    · exact h1
    · split_ifs
      · exact h1
      · split
        · exact (flashRenew_outer ..).trans h1
        · exact (flashAsk_outer ..).trans h1
    · split_ifs
      · exact h1
      · exact (linkLost_outer ..).trans h1

theorem engRead_outer (e : Eng) : ∀ (f va n : Nat) (s : State), (engRead s e f va n).1.outer = s.outer
  | 0, _, _, _ => rfl
  | f + 1, va, n, s => by
    have h1 := engRead1_outer s e va (sectorPart va n)
    unfold engRead
    split_ifs
    · rfl
    · split <;> rename_i e1 <;> replace h1 := outer_fst e1 h1
      · exact h1
      · next t _ _ =>
        have h2 := (engRead_outer e f ((va + sectorPart va n) % 2 ^ 64) (n - sectorPart va n) t).trans h1
        split <;> rename_i e2 <;> exact outer_fst e2 h2
theorem engReadN_outer (s : State) (e : Eng) (va n : Nat) : (engReadN s e va n).1.outer = s.outer := engRead_outer e _ va n s

theorem engReadFar_outer (e : Eng) : ∀ (f va n : Nat) (s : State), (engReadFar s e f va n).1.outer = s.outer
  | 0, _, _, _ => rfl
  | f + 1, va, n, s => by
    have h1 := engRead1_outer s e va (sectorPart va n)
    unfold engReadFar
    split_ifs
    · rfl
    · split <;> rename_i e1 <;> replace h1 := outer_fst e1 h1
      · exact h1
      · exact (engReadFar_outer e f _ _ _).trans h1

theorem remoteWrite_rim (s : State) (pkg h off : Nat) (b : Bytes) (p : Bool) : (remoteWrite s pkg h off b p).rim = s.rim := rfl

theorem engWrite1_rim (e : Eng) (va : Nat) (b : Bytes) (p : Bool) : ∀ (f : Nat) (s : State), (engWrite1 s e va b p f).1.rim = s.rim
  | 0, _ => rfl
  | f + 1, s => by
    have h1 := translate_outer s e.cl e.vd e.asid va { write := true, fetch := false, user := false, sup := false }
    unfold engWrite1
    split <;> rename_i e1 <;> replace h1 := outer_fst e1 h1
    · exact rim_of_outer h1
    · exact rim_of_outer h1
    · next t x =>
      split
      · next a _ =>
        have h2 := (engPhysWrite_outer t e a b p).trans h1
        split <;> rename_i e2 <;> replace h2 := rim_of_outer (outer_fst e2 h2)
        · exact h2
        · exact h2
        · exact (engWrite1_rim e va b p f _).trans h2
      · exact rim_of_outer h1
      · exact rim_of_outer h1
      · split_ifs
        · exact (remoteWrite_rim ..).trans (rim_of_outer h1)
        · exact rim_of_outer ((linkLost_outer ..).trans h1)

theorem engWrite_rim (e : Eng) (p : Bool) : ∀ (f va : Nat) (b : Bytes) (s : State), (engWrite s e p f va b).1.rim = s.rim
  | 0, _, _, _ => rfl
  | f + 1, va, b, s => by
    have h1 := engWrite1_rim e va (b.take (sectorPart va b.length)) p 2 s
    unfold engWrite
    split_ifs
    · rfl
    · split <;> rename_i e1 <;> replace h1 := rim_fst e1 h1
      · exact h1
      · exact (engWrite_rim e p f _ _ _).trans h1
theorem engWriteN_rim (s : State) (e : Eng) (va : Nat) (b : Bytes) (p : Bool) : (engWriteN s e va b p).1.rim = s.rim :=
  engWrite_rim e p _ va b s

/-! Accesses by guest-physical address. -/

theorem engXlate_outer (s : State) (e : Eng) (gpa : Nat) (w : Bool) : (engXlate s e gpa w).1.outer = s.outer := by
  unfold engXlate
  split_ifs
  · exact regXlate_outer ..
  · exact gpaXlate_outer ..

theorem gpaRead1_outer (s : State) (e : Eng) (gpa n : Nat) : (gpaRead1 s e gpa n).1.outer = s.outer := by
  have h1 := engXlate_outer s e gpa false
  unfold gpaRead1
  split <;> rename_i e1 <;> replace h1 := outer_fst e1 h1
  · exact h1
  · exact h1
  · exact (engPhysRead_outer ..).trans h1

theorem gpaReadF_outer (e : Eng) : ∀ (f a n : Nat) (s : State), (gpaReadF s e f a n).1.outer = s.outer
  | 0, _, _, _ => rfl
  | f + 1, a, n, s => by
    have h1 := gpaRead1_outer s e a (sectorPart a n)
    unfold gpaReadF
    split_ifs
    · rfl
    · split <;> rename_i e1 <;> replace h1 := outer_fst e1 h1
      · exact h1
      · next t _ _ =>
        have h2 := (gpaReadF_outer e f (a + sectorPart a n) (n - sectorPart a n) t).trans h1
        split <;> rename_i e2 <;> exact outer_fst e2 h2
theorem gpaReadN_outer (s : State) (e : Eng) (gpa n : Nat) : (gpaReadN s e gpa n).1.outer = s.outer := gpaReadF_outer e _ gpa n s

theorem gpaWrite1_outer (e : Eng) (gpa : Nat) (b : Bytes) (p : Bool) : ∀ (f : Nat) (s : State), (gpaWrite1 s e gpa b p f).1.outer = s.outer
  | 0, _ => rfl
  | f + 1, s => by
    have h1 := engXlate_outer s e gpa true
    unfold gpaWrite1
    split <;> rename_i e1 <;> replace h1 := outer_fst e1 h1
    · exact h1
    · exact h1
    · next t a =>
      have h2 := (engPhysWrite_outer t e a b p).trans h1
      split <;> rename_i e2 <;> replace h2 := outer_fst e2 h2
      · exact h2
      · exact h2
      · exact (gpaWrite1_outer e gpa b p f _).trans h2

theorem gpaWriteF_outer (e : Eng) (p : Bool) : ∀ (f a : Nat) (b : Bytes) (s : State), (gpaWriteF s e p f a b).1.outer = s.outer
  | 0, _, _, _ => rfl
  | f + 1, a, b, s => by
    have h1 := gpaWrite1_outer e a (b.take (sectorPart a b.length)) p 2 s
    unfold gpaWriteF
    split_ifs
    · rfl
    · split <;> rename_i e1 <;> replace h1 := outer_fst e1 h1
      · exact h1
      · exact (gpaWriteF_outer e p f _ _ _).trans h1
theorem gpaWriteN_outer (s : State) (e : Eng) (gpa : Nat) (b : Bytes) (p : Bool) : (gpaWriteN s e gpa b p).1.outer = s.outer :=
  gpaWriteF_outer e p _ gpa b s

/-! Releases that bytes carry. -/

theorem tell_outer (s : State) (loc : Nat) (b : Bytes) (rs : List Rel) : (tell s loc b rs).outer = s.outer := by
  unfold tell; dsimp only; split_ifs <;> rfl
theorem tellAll_outer (s : State) (loc : Nat) (b : Bytes) (rs : List Rel) : (tellAll s loc b rs).outer = s.outer :=
  outer_foldl (fun t _ => tell_outer t ..) _ s
theorem tellVa_outer (s : State) (e : Eng) (va : Nat) (b : Bytes) (rs : List Rel) : (tellVa s e va b rs).outer = s.outer := by
  unfold tellVa
  split
  · split
    · exact tellAll_outer ..
    · rfl
  · rfl

end Sys2Proof.Machine
end

section
/-! PROOFS. What the network engine's work leaves of its queues, and inbound packets (R33, R44, R45, R47, R48, R49, R50, R68). -/
namespace Sys2Proof.Machine

/-- What taking, serving and answering operations leave: the boundary's registers, and of each queue whether its state is on chip and what its
tail stores have come to. -/
def State.tails (s : State) : BdyState × (Nat → Option (Bool × BitVec 16 × List (BitVec 16))) :=
  (s.bdy, fun k => (s.net.qps.find k).map fun p => (p.evicted, p.tail, p.heldTails))

theorem tails_of_rim {s t : State} (h : t.rim = s.rim) : t.tails = s.tails :=
  congrArg (fun o : State => (o.bdy, fun k => (o.net.qps.find k).map fun p => (p.evicted, p.tail, p.heldTails))) h
theorem tails_of_outer {s t : State} (h : t.outer = s.outer) : t.tails = s.tails := tails_of_rim (rim_of_outer h)
theorem tails_fst {α : Type} {q : State × α} {x s : State} {y : α} (e : q = (x, y)) (h : q.1.tails = s.tails) : x.tails = s.tails := by
  rw [e] at h; exact h
theorem bdy_of_tails {s t : State} (h : t.tails = s.tails) : t.bdy = s.bdy := congrArg Prod.fst h
theorem findQp_of_tails {s t : State} (h : t.tails = s.tails) {v q : Nat} {p : Qp} (hp : findQp s v q = some p) :
    ∃ z, findQp t v q = some z ∧ z.evicted = p.evicted ∧ z.tail = p.tail ∧ z.heldTails = p.heldTails := by
  have hk := congrFun (congrArg Prod.snd h) (qpKey v q)
  simp only [State.tails, show s.net.qps.find (qpKey v q) = some p from hp, Option.map_some, Option.map_eq_some_iff, Prod.mk.injEq] at hk
  exact hk

/-- An update of a queue that leaves its tail stores. -/
theorem onQp_tails (s : State) (v q : Nat) {f : Qp → Qp}
    (hf : ∀ p, (f p).evicted = p.evicted ∧ (f p).tail = p.tail ∧ (f p).heldTails = p.heldTails) : (onQp s v q f).tails = s.tails := by
  cases hp : findQp s v q with
  | none => rw [onQp_none f hp]
  | some p =>
    have hq : s.net.qps.find (qpKey v q) = some p := hp
    refine Prod.ext rfl (funext fun k => ?_)
    by_cases hk : k = qpKey v q
    · subst hk
      obtain ⟨he, ht, hh⟩ := hf p
      simp [State.tails, onQp, hq, he, ht, hh]
    · simp [State.tails, onQp, hq, Tab.find_put_ne _ _ hk]

/-- An update of a queue is one of the outer parts. -/
theorem onQp_outer {s t : State} (h : t.outer = s.outer) (v q : Nat) (f : Qp → Qp) : (onQp t v q f).outer = (onQp s v q f).outer :=
  (congrArg (fun o => (onQp o v q f).outer) h :)

/-! Answers. -/

theorem netRec_outer (s : State) (v reason addr data1 : Nat) : (netRec s v reason addr data1).outer = s.outer := onRas_outer ..
theorem egressDrop_tails (s : State) (v port : Nat) : (egressDrop s v port).tails = s.tails := rfl
theorem ueSend_tails (s : State) (v port : Nat) (addr : Bytes) (rpid : Nat) (bad : Bool) (body : Bytes) :
    (ueSend s v port addr rpid bad body).tails = s.tails := by
  unfold ueSend; split_ifs <;> rfl
theorem netReply_tails (s : State) (v : Nat) (pkt : InPkt) (op st : Nat) (data : Bytes) (bad : Bool) :
    (netReply s v pkt op st data bad).tails = s.tails := ueSend_tails ..
theorem netNack_tails (s : State) (v : Nat) (pkt : InPkt) : (netNack s v pkt).tails = s.tails := by
  unfold netNack; split_ifs <;> rfl

/-! Completion entries and receive slots. -/

/-- A queue whose completion ring has taken one more entry. -/
def Qp.cqNext (p : Qp) : Qp := let p := { p with cqTail := p.cqTail + 1 }; { p with cqFull := Qp.full p }

/-- How the write of a completion entry ends, and what it leaves of the queues. -/
theorem writeCq_cases (s : State) (v q : Nat) (body : Bytes) :
    ((writeCq s v q body).2 = .wait ∧ (writeCq s v q body).1 = s)
    ∨ ((writeCq s v q body).2 = .fault ∧ (writeCq s v q body).1.rim = s.rim)
    ∨ ((writeCq s v q body).2 = .written ∧ ∃ t : State, t.rim = s.rim ∧ (writeCq s v q body).1.outer = (onQp t v q Qp.cqNext).outer) := by
  unfold writeCq
  split
  · exact .inr (.inl ⟨rfl, rfl⟩)
  · dsimp only
    split <;> rename_i e
    · exact .inl ⟨rfl, rfl⟩
    · exact .inr (.inl ⟨rfl, rim_fst e (engWriteN_rim ..)⟩)
    · refine .inr (.inr ⟨rfl, _, rim_fst e (engWriteN_rim ..), ?_⟩)
      generalize [engineRel 5 _ 7 _] = rs
      split_ifs
      · exact (postDirect_outer ..).trans (onQp_outer (tellVa_outer ..) v q Qp.cqNext)
      · exact onQp_outer (tellVa_outer ..) v q Qp.cqNext

theorem writeCq_tails (s : State) (v q : Nat) (body : Bytes) : (writeCq s v q body).1.tails = s.tails := by
  obtain ⟨-, h⟩ | ⟨-, h⟩ | ⟨-, t, ht, h⟩ := writeCq_cases s v q body
  · rw [h]
  · exact tails_of_rim h
  · exact (tails_of_outer h).trans ((onQp_tails t v q (f := Qp.cqNext) fun _ => ⟨rfl, rfl, rfl⟩).trans (tails_of_rim ht))

theorem recvSlot_tails (s : State) (v q : Nat) (data : Bytes) (p : Bool) : (recvSlot s v q data p).1.tails = s.tails := by
  unfold recvSlot
  split
  · rfl
  · next x _ =>
    dsimp only
    split
    · rfl
    · split
      · rfl
      · split <;> rename_i e
        · rfl
        · next t r _ =>
          have ht := tails_of_rim (rim_fst e (engWriteN_rim ..))
          split
          · exact ht
          · split <;> rename_i e2
            · rfl
            · refine (tails_fst e2 (writeCq_tails ..)).trans (Eq.trans ?_ ht)
              exact onQp_tails t v q fun _ => ⟨rfl, rfl, rfl⟩

theorem sendTo_tails (s : State) (v : Nat) (pkt : InPkt) (p : Bool) (back : Option (Nat × Nat × Nat)) :
    (sendTo s v pkt p back).1.tails = s.tails := by
  unfold sendTo
  split
  · rfl
  · split
    · split_ifs
      · rfl
      · rfl
      · rfl
      · exact onQp_tails (s.onNet _) v _ fun _ => ⟨rfl, rfl, rfl⟩
    · exact recvSlot_tails ..

/-! Remote regions. -/

theorem region_outer (s : State) (v dom rkey perm rva n : Nat) : (region s v dom rkey perm rva n).1.outer = s.outer := by
  have h1 := gpaReadN_outer s (regEng v) (bits (netOf s v).rkey.toNat 63 12 * 4096 + 32 * (rkey % 65536)) 32
  unfold region
  split_ifs
  · rfl
  · split <;> rename_i e <;> exact outer_fst e h1

theorem inWrite_rim (s : State) (v dom rkey rva : Nat) (b : Bytes) (p : Bool) : (inWrite s v dom rkey rva b p).1.rim = s.rim := by
  have h1 := region_outer s v dom rkey 1 rva b.length
  unfold inWrite
  split <;> rename_i e <;> replace h1 := rim_of_outer (outer_fst e h1)
  · exact h1
  · split <;> rename_i e2
    · exact (rim_fst e2 (engWriteN_rim ..)).trans h1
    · exact h1
    · exact h1

theorem inRead_outer (s : State) (v dom rkey rva n : Nat) : (inRead s v dom rkey rva n).1.outer = s.outer := by
  have h1 := region_outer s v dom rkey 0 rva n
  unfold inRead
  split <;> rename_i e <;> replace h1 := outer_fst e h1
  · exact h1
  · split <;> rename_i e2
    · exact (outer_fst e2 (engReadN_outer ..)).trans h1
    · exact (outer_fst e2 (engReadN_outer ..)).trans h1
    · exact h1

theorem inFadd_rim (s : State) (v dom rkey rva add : Nat) : (inFadd s v dom rkey rva add).1.rim = s.rim := by
  have h1 := region_outer s v dom rkey 2 rva 8
  unfold inFadd
  split <;> rename_i e <;> replace h1 := rim_of_outer (outer_fst e h1)
  · exact h1
  · split
    · exact h1
    · split <;> rename_i e2
      · exact (rim_of_outer (outer_fst e2 (engReadN_outer ..))).trans h1
      · split <;> rename_i e3
        · exact (rim_fst e3 (engWriteN_rim ..)).trans ((rim_of_outer (outer_fst e2 (engReadN_outer ..))).trans h1)
        · exact h1
        · exact h1
      · exact (rim_of_outer (outer_fst e2 (engReadN_outer ..))).trans h1
      · exact h1

/-! Messages to the RPC unit leave the boundary's registers. -/

theorem rpcSend_bdy (s : State) (v : Nat) (via : Transport) (bad : Bool) (m : Bytes) : (rpcSend s v via bad m).bdy = s.bdy := by
  unfold rpcSend
  split
  · exact bdy_of_tails (ueSend_tails ..)
  · unfold msixFire; dsimp only; split_ifs <;> rfl

theorem rpcPlace_bdy (s : State) (via : Transport) (m : Bytes) : (rpcPlace s via m).bdy = s.bdy := by
  unfold rpcPlace
  dsimp only
  split
  · exact rpcSend_bdy ..
  · split
    · exact rpcSend_bdy ..
    · split <;> rename_i e
      · rfl
      · exact (rpcSend_bdy ..).trans (bdy_of_outer (outer_fst e (gpaWriteN_outer ..)))
      · refine (bdy_of_outer ((onCores_outer ..).trans (postDirect_outer ..))).trans ?_
        have hb := bdy_of_outer (outer_fst e (gpaWriteN_outer ..))
        split_ifs <;> exact hb

theorem rpcArrive_bdy (s : State) (via : Transport) (m : Bytes) : (rpcArrive s via m).bdy = s.bdy := by
  unfold rpcArrive
  split
  · rfl
  · split
    · split
      · rfl
      · rfl
      · rfl
      · rfl
      · rfl
      · exact rpcSend_bdy ..
    · split
      · split_ifs <;> rfl
      · refine (rpcPlace_bdy ..).trans ?_
        split_ifs <;> rfl

/-! A served packet of an enabled domain. -/

section
variable {s : State} {pkt : InPkt} {k : Nat} {d : Domain}

theorem inboundFor_served (hk : pkt.domain = some k) (hd : s.net.domains.find k = some d) (hp : d.peerPkg.isSome = true)
    (hs : pkt.supported = true) (hf : pkt.prof ≤ 2) : inboundFor s pkt = (s, some (d.vd, k)) := by
  simp [inboundFor, hk, hd, pktServed, hs, hf, Option.isNone_eq_false_iff.mpr hp]

theorem inboundSend_served (hk : pkt.domain = some k) (hi : inboundFor s pkt = (s, some (d.vd, k))) (hg : pkt.gcmOk = true) {x : State}
    (h : sendTo s d.vd pkt false none = (x, .ok)) : inboundSend s pkt = netReply x d.vd pkt 1 0 [] false := by
  simp [inboundSend, hk, hi, hg, h]

theorem inboundWrite_served (hi : inboundFor s pkt = (s, some (d.vd, k))) (hg : pkt.gcmOk = true) : inboundWrite s pkt =
    if writeWaits s k pkt = true then netNack s d.vd pkt
    else
      let r := inWrite s d.vd k pkt.rkey.toNat pkt.rva.toNat pkt.data false
      netAck (if r.2 = .nack then r.1 else writeOver r.1 k pkt) d.vd pkt 2 r.2 := by
  simp [inboundWrite, hi, hg]

theorem tagged_served (hi : inboundFor s pkt = (s, some (d.vd, k))) (hg : pkt.gcmOk = true) (f : State → Nat → Nat → State) :
    tagged s pkt f = f s d.vd k := by
  simp [tagged, hi, hg]

end

end Sys2Proof.Machine

namespace Sys2Proof
open Machine

/-- Settles O30: the packet's domain is served, what it does leaves the egress table, and its answer is sent or discarded by that table. -/
theorem inboundTraffic : Obligations.InboundTraffic := by
  unfold Obligations.InboundTraffic
  intro s pkt k d drop leave reply
  have hleave : ∀ (v : Nat) (x : State) (m : OutMsg), x.bdy = s.bdy →
      flushRecs (if egressBad x pkt.port.val pkt.src = true then egressDrop x v pkt.port.val else x.emit m) = leave v x m := by
    intro v x m hx
    simp only [leave, egressBad_iff hx]
    rfl
  have hreply : ∀ (v : Nat) (x : State) (op : Nat) (data : Bytes) (bad : Bool), x.bdy = s.bdy →
      flushRecs (netReply x v pkt op 0 data bad) = reply v x op data bad := fun v x op data bad hx => hleave v x _ hx
  refine ⟨fun hk hd hp hs hf hg => ?_, fun hk hl hs hf hg hn => ?_⟩
  · have hi := inboundFor_served hk hd hp hs hf
    refine ⟨fun x hx => ?_, ?_, fun hw => ?_, fun x hw hx => ?_, fun x hw hx => ?_, fun x b bad hx => ?_, fun x old bad hx => ?_⟩
    · exact congrArg Host.Outcome.next ((congrArg flushRecs (inboundSend_served hk hi hg hx)).trans
        (hreply _ _ _ _ _ (bdy_of_tails (tails_fst hx (sendTo_tails ..)))))
    · simp [writeWaits]
    · refine congrArg Host.Outcome.next ((congrArg flushRecs ((inboundWrite_served hi hg).trans (if_pos hw))).trans (hleave _ _ _ rfl))
    · have h := (inboundWrite_served hi hg).trans (if_neg (by simp [hw]))
      simp only [hx] at h
      have hb : (writeOver x k pkt).bdy = s.bdy := bdy_of_rim (s := s) (t := x) (rim_fst hx (inWrite_rim ..))
      exact congrArg Host.Outcome.next ((congrArg flushRecs h).trans (hreply _ _ _ _ _ hb))
    · have h := (inboundWrite_served hi hg).trans (if_neg (by simp [hw]))
      simp only [hx] at h
      exact congrArg Host.Outcome.next ((congrArg flushRecs h).trans (hleave _ _ _ (bdy_of_rim (rim_fst hx (inWrite_rim ..)))))
    · refine congrArg Host.Outcome.next ((congrArg flushRecs (tagged_served hi hg _)).trans ?_)
      simp only [hx]
      exact hreply _ _ _ _ _ (bdy_of_outer (outer_fst hx (inRead_outer ..)))
    · refine congrArg Host.Outcome.next ((congrArg flushRecs (tagged_served hi hg _)).trans ?_)
      simp only [hx]
      exact hreply _ _ _ _ _ (bdy_of_rim (rim_fst hx (inFadd_rim ..)))
  · have h : inboundSend s pkt = netReply (rpcArrive s (.ue pkt.port pkt.src pkt.rpid) pkt.data) 0 pkt 1 0 [] false := by
      simp [inboundSend, hk, hl, pktServed, hs, hf, hg, Nat.not_lt.mpr hn]
    exact congrArg Host.Outcome.next ((congrArg flushRecs h).trans (hreply _ _ _ _ _ (rpcArrive_bdy ..)))

end Sys2Proof
end

section
/-! PROOFS. The network engine: enabling, work entries, completions and reload (R35, R36, R38, R41, R42, R44, R50). -/
namespace Sys2Proof.Machine

/-! ENABLE and DISABLE. -/

theorem netOf_netResult (s : State) (v r : Nat) : (netOf (netResult s v r) v).stat = BitVec.ofNat 8 r := by
  simp [netOf, netResult, onNetRegs, Tab.at]
@[simp] theorem findQp_netResult (s : State) (v r u q : Nat) : findQp (netResult s v r) u q = findQp s u q := rfl

theorem findQp_of_net {s t : State} (h : t.net = s.net) (v q : Nat) : findQp t v q = findQp s v q := by rw [findQp, h]; rfl
theorem netOf_of_net {s t : State} (h : t.net = s.net) (v : Nat) : netOf t v = netOf s v := by rw [netOf, h]; rfl
@[simp] theorem findQp_flushRecs (s : State) (v q : Nat) : findQp (flushRecs s) v q = findQp s v q := findQp_of_net (flushRecs_net s) v q
@[simp] theorem netOf_flushRecs (s : State) (v : Nat) : netOf (flushRecs s) v = netOf s v := netOf_of_net (flushRecs_net s) v

theorem movePosts_outer (s : State) (v : Nat) (src : PostSrc) (core : Nat) : (movePosts s v src core).outer = s.outer :=
  (outer_foldl (fun t (p : SvqPost) => tryPost_outer t p.num) _ _).trans (onCores_outer ..)

theorem leastBy_mem {α : Type} {f : α → Nat} : ∀ {l : List α} {x : α}, leastBy f l = some x → x ∈ l
  | y :: l, x, h => by
    unfold leastBy at h
    split at h
    · cases h; exact List.mem_cons_self
    · next z hz =>
      split at h <;> cases h
      · exact List.mem_cons_of_mem _ (leastBy_mem hz)
      · exact List.mem_cons_self

/-- R50: the queue that is being brought in is not the one that leaves. -/
theorem findQp_evictQp_keep (s : State) (v q : Nat) : findQp (evictQp s (qpKey v q)) v q = findQp s v q := by
  unfold evictQp
  dsimp only
  split
  · rfl
  · split
    · next e he =>
      have hk : e.1 ≠ qpKey v q := by simpa using (List.mem_filter.mp (leastBy_mem he)).2
      exact Tab.find_put_ne _ _ hk.symm
    · rfl

theorem netOf_flushRecs_netResult (s : State) (v r : Nat) : (netOf (flushRecs (netResult s v r)) v).stat = BitVec.ofNat 8 r := by
  rw [netOf_flushRecs, netOf_netResult]

section
variable {s : State} {v q : Nat}

theorem netEnable_past (h : qpMax s v ≤ q) : netEnable s v q = (netResult s v 1, true) := if_pos h
theorem netEnable_twice (h : q < qpMax s v) (hq : (findQp s v q).isSome = true) : netEnable s v q = (netResult s v 3, true) := by
  rw [netEnable, if_neg (Nat.not_le.mpr h), if_pos hq]
theorem netEnable_unread {x : State} {e : EngErr} (h : q < qpMax s v) (hq : findQp s v q = none)
    (hx : gpaReadN s (regEng v) ((netOf s v).qpt.toNat + 128 * q) 128 = (x, .error e)) :
    netEnable s v q = if e = .wait then (x, false) else (netResult x v 4, true) := by
  rw [netEnable, if_neg (Nat.not_le.mpr h), if_neg (by simp [hq])]
  cases e <;> simp [hx]
theorem netEnable_read {x : State} {b : Bytes} (h : q < qpMax s v) (hq : findQp s v q = none)
    (hx : gpaReadN s (regEng v) ((netOf s v).qpt.toNat + 128 * q) 128 = (x, .ok (b, false))) :
    netEnable s v q = if qpEntryOk x v b = true then
        (movePosts (netResult (evictQp (x.onNet fun n => { n with qps := n.qps.put (qpKey v q) (Qp.fresh (qpCfgOf b) x.sch.cycle) })
          (qpKey v q)) v 0) v (.queue q) (qpCfgOf b).ncore, true)
      else (netResult x v 2, true) := by
  rw [netEnable, if_neg (Nat.not_le.mpr h), if_neg (by simp [hq])]
  simp only [hx]

theorem netDisable_past (h : qpMax s v ≤ q) : netDisable s v q = (netResult s v 1, true) := if_pos h
theorem netDisable_absent (h : q < qpMax s v) (hq : findQp s v q = none) : netDisable s v q = (netResult s v 3, true) := by
  rw [netDisable, if_neg (Nat.not_le.mpr h), hq]
theorem netDisable_idle {p : Qp} (h : q < qpMax s v) (hq : findQp s v q = some p) (ho : p.ops = []) :
    netDisable s v q = (netResult ((dropHeld s v q).onNet fun n => { n with qps := n.qps.del (qpKey v q) }) v 0, true) := by
  simp [netDisable, Nat.not_le.mpr h, hq, ho]
theorem netDisable_busy {p : Qp} (h : q < qpMax s v) (hq : findQp s v q = some p) (ho : p.ops ≠ []) :
    netDisable s v q = (onQp s v q (fun p => { p with stopping := true }), false) := by
  simp [netDisable, Nat.not_le.mpr h, hq, ho]

end

/-! Work entries. -/

theorem peerOf_tails (s : State) (v port : Nat) (e : Bytes) : (peerOf s v port e).1.tails = s.tails := by
  have h1 := gpaReadN_outer s (regEng v) (bits (netOf s v).peer.toNat 63 12 * 4096 + 32 * field e 4 4) 32
  unfold peerOf
  split
  · rfl
  · split <;> rename_i e1 <;> replace h1 := tails_of_outer (outer_fst e1 h1)
    · exact h1
    · exact h1
    · exact h1
    · split
      · exact h1
      · split_ifs
        · exact h1
        · exact (egressDrop_tails ..).trans h1
        · exact h1

theorem readRest_outer (s : State) (e : Eng) (x : Qp) (va n : Nat) : (readRest s e x va n).1.outer = s.outer := engReadFar_outer ..
theorem readHead_outer (s : State) (v : Nat) (p : Qp) : (readHead s v p).1.outer = s.outer := by
  have h := engReadN_outer s (ioEng v p.cfg.asid) (p.cfg.sqva + 64 * (p.head.toNat % 2 ^ p.cfg.sqLog2)) 64
  unfold readHead
  split <;> rename_i e <;> exact outer_fst e h

theorem runLocal_tails (s : State) (v q idx asid t port : Nat) (e : Bytes) (p : Peer) (data : Bytes) :
    (runLocal s v q idx asid t port e p data).1.tails = s.tails := by
  unfold runLocal
  split
  · dsimp only
    split <;> rename_i e1
    · exact tails_fst e1 (sendTo_tails ..)
    · exact tails_fst e1 (sendTo_tails ..)
    · exact tails_fst e1 (sendTo_tails ..)
    · exact (tails_of_outer (netRec_outer ..)).trans (tails_fst e1 (sendTo_tails ..))
    · exact tails_fst e1 (sendTo_tails ..)
  · split <;> rename_i e1 <;> exact tails_of_rim (rim_fst e1 (inWrite_rim ..))
  · split <;> rename_i e1 <;> have h1 := tails_of_outer (outer_fst e1 (inRead_outer ..))
    · split
      · exact h1
      · split <;> rename_i e2 <;> exact (tails_of_rim (rim_fst e2 (engWriteN_rim ..))).trans h1
    · exact h1
    · exact h1
  · split
    · rfl
    · rfl
    · split <;> rename_i e1 <;> have h1 := tails_of_rim (rim_fst e1 (inFadd_rim ..))
      · split
        · exact h1
        · split <;> rename_i e2 <;> exact (tails_of_rim (rim_fst e2 (engWriteN_rim ..))).trans h1
      · exact h1
      · exact h1

theorem runWork_tails (s : State) (v q idx : Nat) (x : Qp) (e : Bytes) : (runWork s v q idx x e).1.tails = s.tails := by
  unfold runWork
  dsimp only
  split
  · rfl
  · split <;> rename_i e1 <;> have h1 := tails_fst e1 (peerOf_tails ..)
    · exact h1
    · exact h1
    · split <;> rename_i e2 <;> replace h1 := (tails_of_outer (outer_fst e2 (readRest_outer ..))).trans h1
      · exact h1
      · exact h1
      · split
        · split
          · exact h1
          · exact (runLocal_tails ..).trans h1
        · exact (ueSend_tails ..).trans h1

section
variable {s x y : State} {v q op : Nat} {p : Qp} {e : Bytes} {r : Taken}

/-- R42: what becomes of a valid entry at HEAD whose operation can start. -/
theorem netTake_entry (hp : findQp s v q = some p) (hb : p.cfg.block = false) (ht : p.takes = true) (hh : readHead s v p = (x, .ok (e, false)))
    (hv : bit (wCtrl e) 31 = ownerBit p.head p.cfg.sqLog2) (hop : wOp e = op) (h1 : 1 ≤ op ∧ op ≤ 4)
    (hf : bit (wFlags e) 1 = true → ∀ o ∈ p.ops, wOp o.entry < 3) (hr : runWork x v q p.head.toNat p e = (y, r)) :
    (r = .later → netTake s v q op = askOnly x y)
    ∧ (∀ b bad, r = .more b bad → netTake s v q op = keepPart (askOnly x y) v q b bad)
    ∧ (r = .sent → netTake s v q op = tookOp y v q p e none 0 0)
    ∧ (∀ st m val, r = .done st m val → netTake s v q op = tookOp y v q p e (some st) m val) := by
  have hn : (if wOp e = 0 ∨ 4 < wOp e then 1 else wOp e) = op := by rw [if_neg (by omega), hop]
  have ha : ¬(bit (wFlags e) 1 = true ∧ p.ops.any (fun o => decide (3 ≤ wOp o.entry)) = true) := by
    simpa using hf
  refine ⟨?_, ?_, ?_, ?_⟩ <;> intros <;> subst r <;>
    simp only [netTake, hp, hb, ht, hh, hv, hn, if_neg ha, hr, Bool.not_true, Bool.or_self, Bool.false_eq_true, if_false, ne_eq,
      not_true_eq_false]

/-- An operation recorded: HEAD is past it, and it is among the operations in progress. -/
theorem tookOp_takes {z : Qp} (hz : findQp y v q = some z) (st : Option Nat) (m val : Nat) : ∃ z, findQp (tookOp y v q p e st m val) v q = some z
    ∧ z.head = p.head + 1 ∧ ∃ o ∈ z.ops, o.idx = p.head.toNat ∧ o.entry = e ∧ o.status = st :=
  ⟨_, findQp_onQp_self _ hz, rfl, _, List.mem_append_right _ List.mem_cons_self, rfl, rfl, rfl⟩

/-- R42: a stopped queue whose watched entry has become valid runs on. -/
theorem qpWatch_valid {bad : Bool} (hp : findQp s v q = some p) (hs : p.stopped = true) (hh : readHead s v p = (x, .ok (e, bad)))
    (hv : bit (wCtrl e) 31 = ownerBit p.head p.cfg.sqLog2) : qpWatch s v q = onQp x v q (fun z => { z with stopped := false }) := by
  simp [qpWatch, hp, hs, hh, hv]

end

/-! Completions. -/

/-- The status of an operation is decided, with its bytes and old value: before, or by the network's answer that it has. -/
def Decided (a : State) (v : Nat) (p : Qp) (o : NetOp) (y : State) (st m val : Nat) : Prop :=
  (o.status = some st ∧ y = a ∧ m = o.bytes ∧ val = o.value.toNat)
  ∨ (∃ r, o.status = none ∧ o.res = some r ∧ netOutcome a v p.cfg.asid o r = (y, some (st, m, val)))

/-- The oldest operation has ended, after the write of its completion entry if it has one. -/
def opEnded (y : State) (v q : Nat) (p : Qp) (o : NetOp) (rest : List NetOp) (a : CqAns) (st : Nat) : State :=
  let s := onQp y v q (fun x => { x with ops := rest, error := x.error || cqStatus a st != 0 })
  sendDecs s v p.cfg.asid neKey none (if o.entry.all (· == 0) then [] else cntField (field o.entry 48 4))
    (rels := [engineRel 5 3 7 (chanOf s (.queue v q))])

theorem sendDecs_net (s : State) (v asid key : Nat) (core : Option Nat) (hs : List Nat) (launch : Option Nat) (after : Option (Nat × Nat))
    (rels : List Rel) : (sendDecs s v asid key core hs launch after rels).net = s.net := by
  have h := net_of_outer (outer_foldl (f := fun t h => badHandle t v h) (fun t h => onRas_outer ..) (hs.filter fun h => !handleOk s v h) s)
  unfold sendDecs
  dsimp only
  split_ifs
  · exact h
  · exact h

theorem findQp_opEnded {y : State} {v q : Nat} {z : Qp} (hz : findQp y v q = some z) (p : Qp) (o : NetOp) (rest : List NetOp) (a : CqAns)
    (st : Nat) :
    findQp (opEnded y v q p o rest a st) v q = some { z with ops := rest, error := z.error || cqStatus a st != 0 } :=
  (findQp_of_net (sendDecs_net ..) v q).trans (findQp_onQp_self _ hz)

theorem netOutcome_rim (s : State) (v asid : Nat) (o : NetOp) (res : NetResult) : (netOutcome s v asid o res).1.rim = s.rim := by
  unfold netOutcome
  split
  · rfl
  · split
    · rfl
    · dsimp only
      split <;> rename_i e <;> exact rim_fst e (engWriteN_rim ..)

section
variable {a y : State} {v q : Nat} {p : Qp} {o : NetOp} {rest : List NetOp} {st m val : Nat}

theorem Decided.rim (h : Decided a v p o y st m val) : y.rim = a.rim := by
  obtain ⟨-, rfl, -, -⟩ | ⟨r, -, -, h⟩ := h
  · rfl
  · exact rim_fst h (netOutcome_rim ..)

theorem findQp_of_rim {s t : State} (h : t.rim = s.rim) (v q : Nat) : findQp t v q = findQp s v q := by
  rw [findQp, qps_of_rim h]; rfl

section
variable (hp : findQp a v q = some p) (ho : p.ops = o :: rest) (hb : p.cfg.block = false) (hd : Decided a v p o y st m val)
include hp ho hb hd

/-- R44: an operation that asks for no completion entry ends. -/
theorem netEnd_silent (hf : bit (wFlags o.entry) 0 = false) : netEnd a v q = opEnded y v q p o rest .written st := by
  obtain ⟨hs, rfl, rfl, rfl⟩ | ⟨r, hs, hr, h⟩ := hd
  · simp [netEnd, hp, ho, hb, hf, hs, opEnded]
  · simp [netEnd, hp, ho, hb, hf, hs, hr, h, opEnded]

/-- R39, R44: one that asks for it ends with its entry, or waits until that can be written. -/
theorem netEnd_entry {w : State} {ans : CqAns} (hf : bit (wFlags o.entry) 0 = true) (hfull : p.full = false)
    (hw : writeCq y v q (cqEntry (field o.entry 40 8) st (wOp o.entry) m val o.idx) = (w, ans)) :
    netEnd a v q = if ans = .wait then opDecided w v q o st m val else opEnded w v q p o rest ans st := by
  obtain ⟨hs, rfl, rfl, rfl⟩ | ⟨r, hs, hr, h⟩ := hd
  · cases ans <;> simp [netEnd, hp, ho, hb, hf, hs, hfull, hw, opEnded]
  · cases ans <;> simp [netEnd, hp, ho, hb, hf, hs, hr, h, hfull, hw, opEnded]

end

/-- The queue after the write of a completion entry that does not wait. -/
theorem findQp_writeCq {w : State} {body : Bytes} {ans : CqAns} (hy : findQp y v q = some p) (hw : writeCq y v q body = (w, ans))
    (ha : ans ≠ .wait) :
    ∃ z, findQp w v q = some z ∧ z.cqTail = (if ans = .written then p.cqTail + 1 else p.cqTail) ∧ z.error = p.error := by
  have h := writeCq_cases y v q body
  rw [hw] at h
  obtain ⟨rfl, -⟩ | ⟨rfl, h⟩ | ⟨rfl, t, ht, h⟩ := h
  · exact absurd rfl ha
  · exact ⟨p, (findQp_of_rim h v q).trans hy, rfl, rfl⟩
  · exact ⟨p.cqNext, (findQp_of_net (net_of_outer h) v q).trans (findQp_onQp_self _ ((findQp_of_rim ht v q).trans hy)), rfl, rfl⟩

theorem cqStatus_ne_zero (ans : CqAns) (st : Nat) : (cqStatus ans st != 0) = (ans == .fault || st != 0) := by
  unfold cqStatus
  split_ifs with h
  · simp [h.1]
  · cases ans <;> simp_all

end

/-! Reload. -/

theorem opStatus_tails (s : State) (v q idx st n : Nat) : (opStatus s v q idx st n).tails = s.tails :=
  onQp_tails s v q fun _ => ⟨rfl, rfl, rfl⟩

theorem heldOne_tails (s : State) (v q : Nat) (h : HeldPkt) : (heldOne s v q h).tails = s.tails := by
  have h1 := recvSlot_tails s v q h.pkt.data false
  unfold heldOne
  dsimp only
  split <;> rename_i e _ <;> replace h1 := tails_fst e h1
  · exact (netNack_tails ..).trans h1
  · refine Eq.trans ?_ h1
    exact onQp_tails _ v q fun _ => ⟨rfl, rfl, rfl⟩
  · exact (netReply_tails ..).trans h1
  · exact (opStatus_tails ..).trans h1

/-- R50: the state that a reload brings back. -/
def Qp.reloaded (p : Qp) (cycle : Nat) : Qp :=
  { p with evicted := false, heldTails := [], heldPkts := [], tail := p.heldTails.foldl tailFilter p.tail, used := cycle,
           stopped := p.stopped && p.heldTails.isEmpty }

theorem qpReload_evicted {s : State} {v q : Nat} {p : Qp} (hp : findQp s v q = some p) (he : p.evicted = true) :
    qpReload s v q = p.heldPkts.foldl (fun s h => heldOne s v q h) (evictQp (onQp s v q (fun p => p.reloaded s.sch.cycle)) (qpKey v q)) := by
  simp only [qpReload, hp, he, Bool.not_true, Bool.false_and, Bool.false_eq_true, if_false]
  rfl

/-- An event leads to the end of the step from what its function makes of the state. -/
theorem goes_flushed {s x y : State} {i : Instr} {P : State → Prop} (hi : exec i s = .next (flushRecs x)) (hx : x = y) (hP : P (flushRecs y)) :
    Goes s i P := ⟨_, hi.trans (by rw [hx]), hP⟩

end Sys2Proof.Machine

namespace Sys2Proof
open Machine

/-- Settles O29: each event's outcome by its case, and what serving an operation leaves of its queue. -/
theorem networkQueues : Obligations.NetworkQueues := by
  unfold Obligations.NetworkQueues
  intro s op q i vd res v n
  refine ⟨fun h => ⟨goes_flushed rfl (congrArg Prod.fst (netEnable_past h)) ?_, goes_flushed rfl (congrArg Prod.fst (netDisable_past h)) ?_⟩,
    fun h hq => goes_flushed rfl (congrArg Prod.fst (netEnable_twice h hq)) ?_, fun h hq x e hx => ?_, fun h hq x b hx => ?_,
    fun h hq => goes_flushed rfl (congrArg Prod.fst (netDisable_absent h hq)) ?_,
    fun h p hp => ⟨fun ho => goes_flushed rfl (congrArg Prod.fst (netDisable_idle h hp ho)) ⟨?_, ?_⟩,
      fun ho => goes_flushed rfl (congrArg Prod.fst (netDisable_busy h hp ho)) ?_⟩,
    fun hi p x e y r hp hb ht hh hv hop hf hr => ?_, fun p x e bad hp hs hh hv => goes_flushed rfl (qpWatch_valid hp hs hh hv) ?_,
    fun p o rest hp ho hb hfull y st m val hd => ?_, fun p hp he => goes_flushed rfl (qpReload_evicted hp he) ?_⟩
  · exact netOf_flushRecs_netResult ..
  · exact netOf_flushRecs_netResult ..
  · exact netOf_flushRecs_netResult ..
  · have hu := congrArg Prod.fst (netEnable_unread h hq hx)
    have hz := (findQp_of_net (net_of_outer (outer_fst hx (gpaReadN_outer ..))) v n).trans hq
    refine ⟨fun he => congrArg (Host.Outcome.next ∘ flushRecs) (hu.trans (by rw [if_pos he])),
      fun he => goes_flushed rfl (hu.trans (by rw [if_neg he])) ⟨?_, ?_⟩⟩
    · exact netOf_flushRecs_netResult ..
    · simpa using hz
  · have hu := congrArg Prod.fst (netEnable_read h hq hx)
    have hz := (findQp_of_net (net_of_outer (outer_fst hx (gpaReadN_outer ..))) v n).trans hq
    refine ⟨fun hok => goes_flushed rfl (hu.trans (by rw [if_pos hok])) ⟨?_, ?_⟩,
      fun hok => goes_flushed rfl (hu.trans (by rw [if_neg (by simp [hok])])) ⟨?_, ?_⟩⟩
    · rw [netOf_flushRecs, netOf_of_net (net_of_outer (movePosts_outer ..)), netOf_netResult]
      rfl
    · rw [findQp_flushRecs, findQp_of_net (net_of_outer (movePosts_outer ..)), findQp_netResult, findQp_evictQp_keep]
      exact Tab.find_put_self ..
    · exact netOf_flushRecs_netResult ..
    · simpa using hz
  · exact netOf_flushRecs_netResult ..
  · exact netOf_flushRecs_netResult ..
  · rw [findQp_flushRecs]
    exact Tab.find_del_self ..
  · exact (findQp_flushRecs ..).trans (findQp_onQp_self _ hp)
  · have h1 : 1 ≤ op ∧ op ≤ 4 := by omega
    have hx : exec i s = .next (flushRecs (netTake s v n op)) := by
      obtain ⟨rfl, rfl⟩ | ⟨rfl, rfl⟩ | ⟨rfl, rfl⟩ | ⟨rfl, rfl⟩ := hi <;> rfl
    obtain ⟨hlater, hmore, hsent, hdone⟩ := netTake_entry hp hb ht hh hv hop h1 hf hr
    have hy : y.tails = s.tails := (tails_fst hr (runWork_tails ..)).trans (tails_of_outer (outer_fst hh (readHead_outer ..)))
    obtain ⟨z, hz, -⟩ := findQp_of_tails hy hp
    refine ⟨fun st m val hst => ?_, fun h => by rw [hx, hlater h], fun b bad h => by rw [hx, hmore b bad h]⟩
    obtain ⟨hs, rfl⟩ | ⟨hd, hs⟩ := hst
    · refine goes_flushed hx (hsent hs) ?_
      simp only [findQp_flushRecs]
      exact tookOp_takes hz none 0 0
    · obtain ⟨st, rfl⟩ := Option.isSome_iff_exists.mp hs
      refine goes_flushed hx (hdone _ _ _ hd) ?_
      simp only [findQp_flushRecs]
      exact tookOp_takes hz (some st) m val
  · have hz := (findQp_of_net (net_of_outer (outer_fst hh (readHead_outer ..))) v n).trans hp
    simp only [findQp_flushRecs]
    exact ⟨_, findQp_onQp_self _ hz, rfl, rfl⟩
  · have hd : Decided _ vd.val p o y st m val := hd
    have hy := (findQp_of_rim hd.rim vd.val q).trans hp
    refine ⟨fun hf => goes_flushed rfl (netEnd_silent hp ho hb hd hf) ?_, fun hf w ans hw => ?_⟩
    · simp only [findQp_flushRecs]
      refine ⟨_, findQp_opEnded hy .., rfl, rfl, ?_⟩
      rw [cqStatus_ne_zero]
      rfl
    · have he := netEnd_entry hp ho hb hd hf (hfull hf) hw
      refine ⟨fun ha => congrArg (Host.Outcome.next ∘ flushRecs) (he.trans (if_pos ha)), fun ha => goes_flushed rfl (he.trans (if_neg ha)) ?_⟩
      obtain ⟨z, hz, hc, herr⟩ := findQp_writeCq hy hw ha
      simp only [findQp_flushRecs]
      refine ⟨_, findQp_opEnded hz .., rfl, hc, ?_⟩
      rw [cqStatus_ne_zero, herr]
  · have h0 : findQp (evictQp (onQp s v n (fun p => p.reloaded s.sch.cycle)) (qpKey v n)) v n = some (p.reloaded s.sch.cycle) :=
      (findQp_evictQp_keep ..).trans (findQp_onQp_self _ hp)
    simp only [findQp_flushRecs]
    obtain ⟨z, hz, hev, htail, hheld⟩ := findQp_of_tails (foldl_proj State.tails (fun t h => heldOne_tails t v n h) p.heldPkts _) h0
    refine ⟨z, hz, hev, htail, hheld, fun hk => ?_⟩
    rw [hk] at hz
    cases h0.symm.trans hz
    rfl

end Sys2Proof
end

section
/-! PROOFS. RPC_REPLY: the replies and events that serving software sends (R66, R69, R71, R78). -/
namespace Sys2Proof.Machine

/-- Reading a message moves nothing but caches and translations. -/
theorem readMsg_outer (s : State) (v a : Nat) (headOk : Bytes → Bool) : (readMsg s v a headOk).1.outer = s.outer := by
  have h1 := gpaReadN_outer s (regEng v) a 32
  unfold readMsg
  split <;> rename_i e <;> replace h1 := outer_fst e h1
  · exact h1
  · exact h1
  · split_ifs
    · exact h1
    · next t h p _ =>
      have h2 := (gpaReadN_outer t (regEng v) (a + 32) (mLen h)).trans h1
      split <;> rename_i e2 <;> exact outer_fst e2 h2

@[simp] theorem rpcOf_flushRecs (s : State) (v : Nat) : rpcOf (flushRecs s) v = rpcOf s v := rpcOf_congr (flushRecs_rpc s) v

/-- What a message that leaves by a transport adds to the messages sent, when that is a port. -/
theorem rpcSend_outbox {s x : State} (hb : x.bdy = s.bdy) (v : Nat) {via : Transport} {port : Fin 4} {addr : Bytes} {rpid : Nat}
    (hv : via = .ue port addr rpid) (bad : Bool) (m : Bytes) : (rpcSend x v via bad m).sch.outbox = x.sch.outbox ++
      (if s.bdy.peerChk[port] = true ∧ egressOk s addr = false then [] else [.ue port.val (addr ++ leBytes 2 rpid) bad m]) := by
  subst hv
  exact ueSend_outbox hb v port addr rpid bad m

/-! A write of RPC_REPLY that answers slot `x % 64`. -/

section
variable {s y : State} {v x : Nat} {q : RpcReq}

/-- The header that an answer to a request must have (R66, R71). -/
def answersReq (q : RpcReq) (h : Bytes) : Bool :=
  field h 5 1 == q.vd && mSeq h == q.seq.toNat && mCall h == q.call.toNat % 32768 + 32768

theorem rpcReplyWrite_noRequest (h : (rpcOf s v).slots.find (x % 64) = none ∨ bits (rpcOf s v).rx.toNat 4 0 ≤ x % 64) :
    (rpcReplyWrite s v x).1 = setResult s v 1 := by
  unfold rpcReplyWrite
  dsimp only
  split
  · rfl
  · next q hq => rw [if_pos (h.resolve_left (by rw [hq]; exact Option.some_ne_none q))]

/-- The answer to a request turns on how its message reads. -/
theorem rpcReplyWrite_request (hq : (rpcOf s v).slots.find (x % 64) = some q) (hr : x % 64 < bits (rpcOf s v).rx.toNat 4 0)
    {z : Except (Option Nat) (Bytes × Bool)} (hm : readMsg s v (x / 64 * 64) (answersReq q) = (y, z)) :
    (z = .error none → (rpcReplyWrite s v x).1 = y) ∧ (∀ e, z = .error (some e) → (rpcReplyWrite s v x).1 = setResult y v e)
      ∧ ∀ m p, z = .ok (m, p) → (rpcReplyWrite s v x).1 = setResult (slotSend y v (x % 64) q p m) v 0 := by
  unfold answersReq at hm
  unfold rpcReplyWrite
  simp only [hq, if_neg (Nat.not_le.mpr hr), hm]
  refine ⟨?_, fun e => ?_, fun m p => ?_⟩ <;> rintro rfl <;> rfl

/-- What an answer leaves of the slots and the result. -/
theorem rpcOf_setResult_slotSend (s : State) (v i n : Nat) (q : RpcReq) (bad : Bool) (m : Bytes) :
    rpcOf (setResult (slotSend s v i q bad m) v n) v =
      { rpcOf s v with slots := (rpcOf s v).slots.del i, result := BitVec.ofNat 8 n } := by
  rw [setResult, rpcOf_onRpcVd_self, slotSend, rpcOf_onRpcVd_self, rpcOf_congr (rpcSend_rpc ..)]

end

/-! A write of RPC_REPLY with SLOT 63. -/

section
variable {s y : State} {v x : Nat}

/-- The header of an event of a VD (R78). -/
def isEvent (v : Nat) (h : Bytes) : Bool := field h 5 1 == v && mCall h == 0x8180

/-- The event with its number, in the sequence of its VD. -/
def numbered (r : RpcVd) (m : Bytes) : Bytes := withMac r.key (splice m 8 (leBytes 8 r.evSeq.toNat))

theorem rpcEventWrite_read {z : Except (Option Nat) (Bytes × Bool)} (hm : readMsg s v (x / 64 * 64) (isEvent v) = (y, z)) :
    (z = .error none → (rpcEventWrite s v x).1 = y) ∧ ∀ e, z = .error (some e) → (rpcEventWrite s v x).1 = setResult y v e := by
  unfold isEvent at hm
  unfold rpcEventWrite
  simp only [hm]
  refine ⟨?_, fun e => ?_⟩ <;> rintro rfl <;> rfl

/-- An event that nobody has subscribed to. -/
theorem rpcEventWrite_unwanted {m : Bytes} {p : Bool} (hm : readMsg s v (x / 64 * 64) (isEvent v) = (y, .ok (m, p)))
    (h : (rpcOf y v).subAddr = none ∨ 64 ≤ field (mBody m) 0 2 ∨ bit (rpcOf y v).subMask.toNat (field (mBody m) 0 2) = false) :
    (rpcEventWrite s v x).1 = setResult y v 4 := by
  unfold isEvent at hm
  unfold rpcEventWrite
  simp only [hm]
  split
  · rfl
  · next via hv => rw [if_pos (h.resolve_left (by rw [hv]; exact Option.some_ne_none via))]

theorem rpcEventWrite_sent {m : Bytes} {p : Bool} {via : Transport} (hm : readMsg s v (x / 64 * 64) (isEvent v) = (y, .ok (m, p)))
    (hv : (rpcOf y v).subAddr = some via) (hc : field (mBody m) 0 2 < 64) (hb : bit (rpcOf y v).subMask.toNat (field (mBody m) 0 2) = true) :
    (rpcEventWrite s v x).1 =
      setResult (onRpcVd (rpcSend y v via p (numbered (rpcOf y v) m)) v (fun r => { r with evSeq := r.evSeq + 1 })) v 0 := by
  unfold isEvent at hm
  unfold rpcEventWrite
  simp only [hm, hv]
  rw [if_neg (not_or.mpr ⟨Nat.not_le.mpr hc, by simp [hb]⟩)]
  rfl

/-- What an event that is sent leaves of the result and the number of the next. -/
theorem rpcOf_eventSent (s : State) (v u n : Nat) (via : Transport) (bad : Bool) (m : Bytes) :
    rpcOf (setResult (onRpcVd (rpcSend s u via bad m) v (fun r => { r with evSeq := r.evSeq + 1 })) v n) v =
      { rpcOf s v with evSeq := (rpcOf s v).evSeq + 1, result := BitVec.ofNat 8 n } := by
  rw [setResult, rpcOf_onRpcVd_self, rpcOf_onRpcVd_self, rpcOf_congr (rpcSend_rpc ..)]

end

end Sys2Proof.Machine

namespace Sys2Proof
open Machine

/-- Settles O34: each write by how its message reads, which leaves the boundary's tables; what is sent leaves the RPC unit. -/
theorem replyRegister : Obligations.ReplyRegister := by
  unfold Obligations.ReplyRegister
  intro s vd v x n r leaves
  have bdy {headOk : Bytes → Bool} {y : State} {z : Except (Option Nat) (Bytes × Bool)}
      (hm : readMsg s vd.val (x / 64 * 64) headOk = (y, z)) : y.bdy = s.bdy :=
    bdy_of_outer (outer_fst hm (readMsg_outer ..))
  have reply (y : State) (h : (rpcReplyWrite s vd.val x).1 = y) : exec (.rpcReply vd v) s = .next (flushRecs y) :=
    congrArg (Host.Outcome.next ∘ flushRecs) h
  have event (y : State) (h : (rpcEventWrite s vd.val x).1 = y) : exec (.rpcEvent vd v) s = .next (flushRecs y) :=
    congrArg (Host.Outcome.next ∘ flushRecs) h
  refine ⟨fun h => reply _ (rpcReplyWrite_noRequest h), fun q hq hr y z hm => ?_, fun y z hm => ?_⟩
  · obtain ⟨waits, unread, sent⟩ := rpcReplyWrite_request hq hr hm
    refine ⟨fun hz => reply _ (waits hz), fun e hz => reply _ (unread e hz), fun m p hz => ⟨_, reply _ (sent m p hz), ?_⟩⟩
    beta_reduce
    rw [rpcOf_flushRecs, rpcOf_setResult_slotSend]
    refine ⟨rfl, rfl, fun port src rpid hv => ?_⟩
    rw [flushRecs_sch]
    exact rpcSend_outbox (bdy hm) q.vd hv p _
  · obtain ⟨waits, unread⟩ := rpcEventWrite_read hm
    refine ⟨fun hz => event _ (waits hz), fun e hz => event _ (unread e hz), fun m p hz => ?_⟩
    subst hz
    refine ⟨fun h => event _ (rpcEventWrite_unwanted hm h), fun via hv hc hb => ⟨_, event _ (rpcEventWrite_sent hm hv hc hb), ?_⟩⟩
    beta_reduce
    rw [rpcOf_flushRecs, rpcOf_eventSent]
    refine ⟨rfl, rfl, fun port src rpid hp => ?_⟩
    rw [flushRecs_sch]
    exact rpcSend_outbox (bdy hm) vd.val hp p _

end Sys2Proof
end

section
/-! PROOFS. Quota registers, the calendar's owners and the registers of the RAS rings (R6, R79, R81, R82, R123, R236). -/
namespace Sys2Proof.Machine

/-! The registers of a VD. -/

theorem vdRec_congr {s t : State} (h : t.vds = s.vds) (v : Nat) : vdRec t v = vdRec s v := by rw [vdRec, vdRec, h]

@[simp] theorem flushRecs_vds (s : State) : (flushRecs s).vds = s.vds := (congrArg State.vds (flushRecs_outer s) :)
@[simp] theorem vdRec_flushRecs (s : State) (v : Nat) : vdRec (flushRecs s) v = vdRec s v := vdRec_congr (flushRecs_vds s) v
@[simp] theorem vdRec_movePosts (s : State) (v u core : Nat) (src : PostSrc) : vdRec (movePosts s v src core) u = vdRec s u :=
  vdRec_congr (congrArg State.vds (movePosts_outer s v src core) :) u
@[simp] theorem vdRec_dropLent (s : State) (v u : Nat) : vdRec (dropLent s v) u = vdRec s u := rfl

theorem vdRec_setVd_ne (s : State) {v u : Nat} (f : VdRec → VdRec) (h : u ≠ v) : vdRec (setVd s v f) u = vdRec s u := by
  unfold vdRec setVd
  split_ifs <;> simp [h]

/-- The registers of a VD once the one of number k, no control register, holds a value. -/
def VdRec.put (r : VdRec) (k : Nat) (x : DWord) : VdRec :=
  if k = 1 then { r with core := x } else if k = 2 then { r with clu := x } else if k = 3 then { r with cache := x }
  else if k = 4 then { r with cnt := x } else if k = 5 then { r with queue := x } else if k = 7 then { r with lend := x }
  else if k = 8 then { r with vtimer := x } else { r with rpc := x }

/-- A register that has been written reads as its value, and the others as before. -/
theorem vdqRead_of_put {s t : State} {v k : Nat} {x : DWord} (hk : (1 ≤ k ∧ k ≤ 5) ∨ k = 7 ∨ k = 8 ∨ k = 9)
    (h : vdRec t v = (vdRec s v).put k x) :
    vdqRead t v k = x.toNat ∧ ∀ m, m ≠ k → m ≤ 9 → vdqRead t v m = vdqRead s v m := by
  have hk9 : k ≤ 9 := by omega
  have h06 : k ≠ 0 ∧ k ≠ 6 := by omega
  simp only [vdqRead, h]
  refine ⟨?_, fun m hm h9 => ?_⟩
  · interval_cases k <;> simp_all [VdRec.put]
  · interval_cases k <;> interval_cases m <;> simp_all [VdRec.put]

section
variable {s : State} {v k : Nat}

/-- A quota register takes its fields while its VD is not in RUN or RESETTING. -/
theorem vdRec_vdqWrite_quota (hv : v < 16) (h1 : 1 ≤ k) (h5 : k ≤ 5) (hs : vdState s v = .empty ∨ vdState s v = .built) (x : DWord) :
    vdRec (vdqWrite s v k x) v = (vdRec s v).put k (x &&& vdqMask k) := by
  have hr : ¬(vdState s v = .run ∨ vdState s v = .resetting) := by rcases hs with hs | hs <;> simp [hs]
  unfold vdqWrite
  dsimp only
  rw [if_neg (by omega), if_neg (by omega), if_neg (by omega), if_neg (by omega), if_neg (by omega), if_neg hr, vdRec_setVd_self _ _ _ hv]
  interval_cases k <;> rfl

/-- In RUN it is refused with reason 4. -/
theorem vdqWrite_running (h1 : 1 ≤ k) (h5 : k ≤ 5) (hs : vdState s v = .run ∨ vdState s v = .resetting) (x : DWord) :
    vdqWrite s v k x = vdRefuse s v 4 := by
  unfold vdqWrite
  dsimp only
  rw [if_neg (by omega), if_neg (by omega), if_neg (by omega), if_neg (by omega), if_neg (by omega), if_pos hs]

/-- VDQ_LEND, VDQ_VTIMER and VDQ_RPC are written in any state. -/
theorem vdRec_vdqWrite_free (hv : v < 16) (hk : k = 7 ∨ k = 8 ∨ k = 9) (x : DWord) :
    vdRec (vdqWrite s v k x) v = (vdRec s v).put k (x &&& vdqMask k) := by
  obtain rfl | rfl | rfl := hk <;> unfold vdqWrite <;> dsimp only <;> rw [if_neg (by decide), if_neg (by decide)]
  · rw [if_pos rfl, vdRec_dropLent, vdRec_setVd_self _ _ _ hv]; rfl
  · rw [if_neg (by decide), if_pos rfl, vdRec_movePosts, vdRec_setVd_self _ _ _ hv]; rfl
  · rw [if_neg (by decide), if_neg (by decide), if_pos rfl, vdRec_movePosts, vdRec_setVd_self _ _ _ hv]; rfl

end

/-! The calendar's owners. -/

theorem ownsSlot_iff (t : Vector DWord 4) (v : Nat) : ownsSlot t v = true ↔ ∃ n < 64, slotOwner t n = v := by simp [ownsSlot]

/-- A table is taken when each VD in need of a slot owns one. -/
theorem calOk_iff (s : State) (t : Vector DWord 4) : calOk s t = true ↔
    ∀ u : Vd, (u.val = 0 ∨ vdState s u.val = .run ∨ vdState s u.val = .resetting) → ∃ n < 64, slotOwner t n = u.val := by
  have hb (u : Nat) : (ownsSlot t u || !(u == 0 || vdState s u == .run || vdState s u == .resetting)) = true ↔
      ((u = 0 ∨ vdState s u = .run ∨ vdState s u = .resetting) → ∃ n < 64, slotOwner t n = u) := by
    rw [← ownsSlot_iff]
    simp only [Bool.or_eq_true, Bool.not_eq_true', ← Bool.not_eq_true, beq_iff_eq, or_assoc]
    tauto
  simp only [calOk, List.all_eq_true, List.mem_range, hb]
  exact ⟨fun h u => h u.val u.isLt, fun h u hu => h ⟨u, hu⟩⟩

theorem calTable_eq_set (s : State) (j : Fin 4) (x : DWord) : calTable s j.val x = s.vds.calLast.set j x := by
  apply Vector.toArray_inj.mp
  simp [calTable, Array.setIfInBounds]

/-! The RAS rings. -/

@[simp] theorem ringOf_onRing_self (s : State) (v : Nat) (f : RasRing → RasRing) : ringOf (onRing s v f) v = f (ringOf s v) := by
  simp [ringOf, onRing, Tab.at]

theorem setBits_zero_bit (b : Nat) (e : Bool) : setBits b 0 0 e.toNat = b / 2 * 2 + e.toNat := by
  have he := Bool.toNat_le e
  simp only [setBits, bits]
  omega

theorem bit_zero_eq (b : Nat) : bit b 0 = decide (b % 2 = 1) := by simp [bit, beq_eq_decide]

/-- R236: while the ring is enabled only its EN bit takes a value. -/
theorem rasBaseWrite_enabled {s : State} {v : Nat} (h : bit (ringOf s v).base.toNat 0 = true) (x : Nat) :
    (ringOf (rasBaseWrite s v x) v).base.toNat =
        (ringOf s v).base.toNat - 1 + (bit x 0 && logOk (bits (ringOf s v).base.toNat 6 2)).toNat
      ∧ (ringOf (rasBaseWrite s v x) v).tail = (ringOf s v).tail := by
  have hb : (ringOf s v).base.toNat % 2 = 1 := by simpa [bit_zero_eq] using h
  have hlt := (ringOf s v).base.isLt
  have he := Bool.toNat_le (bit x 0 && logOk (bits (ringOf s v).base.toNat 6 2))
  rw [rasBaseWrite, ringOf_onRing_self]
  simp only [h, if_true, setBits_zero_bit, BitVec.toNat_ofNat, and_true]
  omega

/-- The size field that a write leaves a disabled ring: its own where it is in range, else the one before. -/
def ringLog (x b : Nat) : Nat := if 6 ≤ bits x 6 2 ∧ bits x 6 2 ≤ 16 then bits x 6 2 else bits b 6 2

theorem ringLog_lt (x b : Nat) : ringLog x b < 32 := by
  have h1 := bits_lt x 6 2
  have h2 := bits_lt b 6 2
  unfold ringLog
  split_ifs <;> omega

theorem rasBaseWrite_disabled {s : State} {v x : Nat} (h : bit (ringOf s v).base.toNat 0 = false) (hx : x < 2 ^ 64) :
    let lg := ringLog x (ringOf s v).base.toNat
    (ringOf (rasBaseWrite s v x) v).base.toNat = x / 4096 * 4096 + 4 * lg + (bit x 0 && logOk lg).toNat
      ∧ (ringOf (rasBaseWrite s v x) v).tail = (ringOf s v).tail := by
  intro lg
  have hl : lg < 32 := ringLog_lt x _
  have hw : (if logOk (bits x 6 2) then bits x 6 2 else bits (ringOf s v).base.toNat 6 2) = lg := by
    simp only [logOk, decide_eq_true_eq, lg, ringLog]
  have hlg : bits (x / 4096 * 4096 + 4 * lg) 6 2 = lg := by simp only [bits]; omega
  have he := Bool.toNat_le (bit x 0 && logOk lg)
  rw [rasBaseWrite, ringOf_onRing_self]
  simp only [h, Bool.false_eq_true, if_false, hw, hlg, setBits_zero_bit, BitVec.toNat_ofNat, and_true]
  omega

end Sys2Proof.Machine

namespace Sys2Proof
open Machine

/-- Settles O38: a register by the case of its number, and what follows the write, the posts moved to another core and the end of the step,
leaves the VDs' registers; a table by the test on its owners; a ring's register by its EN bit. -/
theorem quotasCalendarAndRings : Obligations.QuotasCalendarAndRings := by
  unfold Obligations.QuotasCalendarAndRings
  intro s v k j x tgt b
  refine ⟨fun h1 h5 hs => ⟨_, rfl, ?_⟩, fun h1 h5 hs => ⟨_, rfl, ?_⟩, fun hk => ⟨_, rfl, ?_⟩, fun hk => ⟨_, rfl, ?_⟩, fun hk => ⟨_, rfl, ?_⟩,
    ⟨_, rfl, ?_⟩, ⟨_, rfl, rfl⟩, ?_, fun hb => ⟨_, rfl, ?_⟩, fun hb => ⟨_, rfl, ?_⟩, ⟨_, rfl, ?_⟩⟩
  · exact vdqRead_of_put (.inl ⟨h1, h5⟩) ((vdRec_flushRecs ..).trans (vdRec_vdqWrite_quota v.isLt h1 h5 hs x))
  · beta_reduce
    rw [vdRec_flushRecs, vdqWrite_running h1 h5 hs]
    exact vdRec_setVd_self _ _ _ v.isLt
  · exact vdqRead_of_put (.inr hk) ((vdRec_flushRecs ..).trans (vdRec_vdqWrite_free v.isLt hk x))
  · rw [hk]; rfl
  · rw [hk]; rfl
  · have hc := calOk_iff s (s.vds.calLast.set j x)
    unfold calWrite
    rw [calTable_eq_set]
    exact ⟨fun hf => if_pos (hc.mpr hf), fun hf => if_neg (mt hc.mp hf)⟩
  · cases tgt with
    | page u gpa => exact ⟨_, rfl, rfl⟩
    | csr core i =>
      cases hf : csrFind 0 i with
      | none => exact ⟨s, by simp only [exec, execRegisterWrite, hf], by simp only [hf]⟩
      | some p =>
        exact ⟨flushRecs (if p.2 = .none then s else (csrWrite s core.val true x.toNat p.1).1),
          by simp only [exec, execRegisterWrite, hf], by simp only [hf]⟩
  · exact rasBaseWrite_enabled hb x.toNat
  · exact rasBaseWrite_disabled hb x.isLt
  · exact ringOf_onRing_self ..

end Sys2Proof
end

section
/-! PROOFS. A waiting source whose entry names no thread is not counted among a queue's waiters, and is written all the same (R143, R147). -/
namespace Sys2Proof.Machine

/-- A slot of a queue of VD 0 that lies in its own memory. -/
theorem svqSlot_small {s : State} (h : Tests.Small s) {p core n : Nat} (hp : p ≤ 6) (hr : isRegPage s 0 (4096 * p) = false)
    (ha : bits (svqOf s core 0).base.toNat 63 14 * 16384 + 64 * (n % 256) = 4096 * p) : svqSlot s core 0 n = (s, some (4096 * p)) := by
  have ho : ownsFrame s 0 (4096 * p) = true := by simp [ownsFrame, Tests.small_frame h (show 4096 * p < 65536 by omega), Frame.free]
  unfold svqSlot
  simp only [ha, Tests.small_xlate h true hr, ho, Tests.small_check h (show 4096 * p < 65536 by omega)]
  rfl

/-- A source of a group waits for the queue of core 0, with an entry whose LMASK is 0. -/
def masklessPost : SvqPost := { num := 4, core := 0, vd := 0, entry := [], gid := some 832, swage := none, src := .core, idx := none }

/-- The queue is enabled and lies where the slot of its next entry begins page p. -/
def maskless (p : Nat) : State :=
  Tests.w0.onCores fun c => { c with
    posts := [masklessPost]
    svq := [(0, { Svq.reset with base := BitVec.ofNat 64 (16384 * (p / 4) + 1), tail := BitVec.ofNat 9 (64 * (p % 4)) })] }

theorem small_maskless (p : Nat) : Tests.Small (maskless p) := ⟨⟨0, rfl⟩, rfl, rfl, Tests.w0_off⟩

theorem base_maskless {p : Nat} (hp : p ≤ 6) : (svqOf (maskless p) 0 0).base.toNat = 16384 * (p / 4) + 1 :=
  (BitVec.toNat_ofNat ..).trans (Nat.mod_eq_of_lt (by omega))
theorem tail_maskless (p : Nat) : (svqOf (maskless p) 0 0).tail.toNat = 64 * (p % 4) :=
  (BitVec.toNat_ofNat ..).trans (Nat.mod_eq_of_lt (by omega))

/-- The entry names no thread, so that no waiter is counted. -/
theorem svqWaiters_maskless (p : Nat) : svqWaiters (maskless p) 0 0 = 0 := by
  show svqWaiters (maskless 0) 0 0 = 0
  decide +kernel

theorem svqSlot_maskless {p : Nat} (hp : p ≤ 6) (hr : isRegPage (maskless p) 0 (4096 * p) = false) :
    svqSlot (maskless p) 0 0 (svqOf (maskless p) 0 0).tail.toNat = (maskless p, some (4096 * p)) := by
  refine svqSlot_small (small_maskless p) hp hr ?_
  rw [base_maskless hp, tail_maskless p]
  unfold bits
  omega

end Sys2Proof.Machine

namespace Sys2Proof
open Machine

/-- Refutes O45: with no waiter counted a retry is to do nothing, and a source that waits is to have its entry written. The count is of the
threads that the entries of waiting groups name in LMASK, so the one source that waits here, with no thread named, counts for none and its
entry is written: TAIL moves on. -/
theorem not_coreTimers : ¬ Obligations.CoreTimers := by
  unfold Obligations.CoreTimers
  intro h
  obtain ⟨p, -, hp, hpage⟩ := Tests.free_page
  have hslot := svqSlot_maskless hp (hpage _ (small_maskless p).net _ (by omega))
  have enabled : bit (svqOf (maskless p) 0 0).base.toNat 0 = true := by
    rw [base_maskless hp]; simp only [bit, beq_iff_eq]; omega
  have room : (svqOf (maskless p) 0 0).count ≠ 256 := by
    have head : (svqOf (maskless p) 0 0).head.toNat = 0 := rfl
    rw [Svq.count, tail_maskless p, head]; omega
  obtain ⟨-, -, -, -, -, -, -, -, -, retry⟩ := h (maskless p) .svqPostRetry
  obtain ⟨idle, writes⟩ := retry (.inl rfl)
  have still := idle (svqWaiters_maskless p)
  obtain ⟨t, ht, moved, -⟩ := (writes masklessPost rfl rfl).2 _ _ enabled room rfl hslot
  cases ht.symm.trans still
  have next_ne (x : BitVec 9) : x ≠ x + 1 := by bv_omega
  exact next_ne _ moved

end Sys2Proof
end

section
/-! PROOFS. What memory accesses, releases and acquires, and translations by guest-physical address move: memory, the chains, the records and
the nested translations, and nothing else. -/
namespace Sys2Proof.Machine

/-- A state with its memory, chains, records and nested translations set aside. -/
def State.aside (s : State) : State :=
  { s with mem := State.reset.mem, ord := State.reset.ord, ras := State.reset.ras, trn := { s.trn with ntlb := [] } }

theorem aside_fst {α : Type} {q : State × α} {x s : State} {y : α} (e : q = (x, y)) (h : q.1.aside = s.aside) : x.aside = s.aside := by
  rw [e] at h; exact h
theorem aside_foldl {β : Type} {f : State → β → State} (hf : ∀ s b, (f s b).aside = s.aside) (l : List β) (s : State) :
    (l.foldl f s).aside = s.aside := foldl_proj State.aside hf l s

theorem onMem_aside (s : State) (f : MemState → MemState) : (s.onMem f).aside = s.aside := rfl
theorem onOrd_aside (s : State) (f : OrdState → OrdState) : (s.onOrd f).aside = s.aside := rfl
theorem onRas_aside (s : State) (f : RasState → RasState) : (s.onRas f).aside = s.aside := rfl
theorem tick_aside (s : State) : (tick s).aside = s.aside := rfl

/-! Records, and the MSC. -/

theorem offerRec_aside (s : State) (v : Nat) (r : Rec) : (offerRec s v r).aside = s.aside := rfl
theorem offerBoth_aside (s : State) (v : Nat) (r : Rec) : (offerBoth s v r).aside = s.aside := by
  unfold offerBoth; dsimp only; split_ifs <;> rfl
theorem setMark_aside (s : State) (a : Nat) (ws : List Writer) : (setMark s a ws).aside = s.aside := by
  unfold setMark; split_ifs <;> rfl
theorem writeBackLine_aside (s : State) (a : Nat) : (writeBackLine s a).aside = s.aside := rfl
theorem poisonLine_aside (s : State) (line : Nat) : (poisonLine s line).aside = s.aside := rfl
theorem checkFails_aside (s : State) (a : Nat) (l : List Nat) (addr kind : Nat) : (checkFails s a l addr kind).aside = s.aside :=
  (offerBoth_aside ..).trans (aside_foldl poisonLine_aside l s)
theorem meetHarm_aside (a : Nat) (s : State) (d : Harm) : (meetHarm a s d).aside = s.aside := by
  cases d with
  | line l b =>
    simp only [meetHarm]; split_ifs
    · rfl
    · exact checkFails_aside ..
  | node lvl stack n b =>
    simp only [meetHarm]; split_ifs
    · rfl
    · exact checkFails_aside ..
  | ecc l => exact checkFails_aside ..
  | flip l y => rfl
theorem dramRead_aside (s : State) (a : Nat) : (dramRead s a).aside = s.aside := by
  unfold dramRead; split_ifs
  · rfl
  · exact aside_foldl (fun t d => meetHarm_aside a t d) _ s
theorem mscTouch_aside (s : State) (v kid a : Nat) (w : Bool) : (mscTouch s v kid a w).aside = s.aside := by
  have hd : (dramRead (tick s) a).aside = s.aside := dramRead_aside (tick s) a
  simp only [mscTouch]
  split
  · rfl
  · split
    · split_ifs
      · exact (writeBackLine_aside ..).trans hd
      · exact hd
    · refine (onMem_aside ..).trans ?_
      split
      · split_ifs
        · exact (writeBackLine_aside ..).trans hd
        · exact hd
      · exact hd
theorem mscRead_aside (s : State) (v kid a n : Nat) : (mscRead s v kid a n).1.aside = s.aside := by
  unfold mscRead; split
  · rfl
  · exact mscTouch_aside ..
theorem mscWrite_aside (s : State) (v kid a : Nat) (b : Bytes) (p : Bool) : (mscWrite s v kid a b p).1.aside = s.aside := by
  have ht := mscTouch_aside s v kid a true
  unfold mscWrite; split
  · rfl
  · dsimp only; split_ifs <;> exact ht
theorem devWrite_aside (s : State) (v a : Nat) (b : Bytes) : (devWrite s v a b).aside = s.aside := mscTouch_aside ..

/-! L2. -/

theorem l2Clean_aside (s : State) (k m : Nat) : (l2Clean s k m).aside = s.aside := by
  unfold l2Clean; split
  · rfl
  · dsimp only; split_ifs
    · rfl
    · exact aside_foldl (fun t _ => (setMark_aside ..).trans (aside_foldl (fun u _ => mscWrite_aside u ..) _ t)) _ s
theorem l2Evict_aside (s : State) (k : Nat) : (l2Evict s k).aside = s.aside := l2Clean_aside s k 0xFF
theorem l2Alloc_aside (s : State) (die v kid a : Nat) : (l2Alloc s die v kid a).1.aside = s.aside := by
  unfold l2Alloc; dsimp only; split
  · rfl
  · exact l2Evict_aside ..
theorem l2Get_aside (s : State) (die v kid a : Nat) : (l2Get s die v kid a).1.aside = s.aside := by
  unfold l2Get; split
  · rfl
  · exact l2Alloc_aside ..
theorem l2Fill_aside (s : State) (v kid a k : Nat) : (l2Fill s v kid a k).1.aside = s.aside := by
  have hr := mscRead_aside s v kid (a / 32 * 32) 32
  unfold l2Fill; split
  · rfl
  · split_ifs
    · rfl
    · split <;> rename_i e <;> replace hr := aside_fst e hr <;> exact hr
theorem l2Read_aside (s : State) (die v kid a n : Nat) (r : Bool) : (l2Read s die v kid a n r).1.aside = s.aside := by
  have hr : (mscRead (tick s) v kid a n).1.aside = s.aside := mscRead_aside ..
  have hg : (l2Get (tick s) die v kid a).1.aside = s.aside := l2Get_aside ..
  unfold l2Read
  dsimp only
  by_cases hd : homeDie a = die
  · rw [if_pos hd]
    split
    · exact hg
    · split <;> rename_i e <;> replace hr := aside_fst e hr
      · exact hr
      · exact (l2Alloc_aside ..).trans hr
  · rw [if_neg hd]
    split
    · rfl
    · split <;> rename_i e <;> replace hg := aside_fst e hg
      · exact (mscRead_aside ..).trans hg
      · next t key =>
        have hf := (l2Fill_aside (onL2 t key fun l => { l with replica := l.replica || r }) v kid a key).trans hg
        split <;> rename_i e2 <;> replace hf := aside_fst e2 hf
        · exact hf
        · split <;> exact hf
theorem l2Write_aside (s : State) (die v kid a : Nat) (b : Bytes) (cols : Nat) (ws : List Writer) (p : Bool) :
    (l2Write s die v kid a b cols ws p).1.aside = s.aside := by
  have hw : (mscWrite (tick s) v kid a b p).1.aside = s.aside := mscWrite_aside ..
  have hg : (l2Get (tick s) die v kid a).1.aside = s.aside := l2Get_aside ..
  unfold l2Write
  dsimp only
  by_cases hd : homeDie a = die
  · rw [if_pos hd]
    split <;> rename_i e
    · exact aside_fst e hw
    · exact (setMark_aside ..).trans ((l2Get_aside ..).trans (aside_fst e hw))
  · rw [if_neg hd]
    split
    · rfl
    · split <;> rename_i e <;> replace hg := aside_fst e hg
      · split_ifs
        · exact (setMark_aside ..).trans ((mscWrite_aside ..).trans hg)
        · exact (mscWrite_aside ..).trans hg
      · next t key =>
        have hf : (if wholeSector a b.length = true then (t, none) else l2Fill t v kid a key).1.aside = s.aside := by
          split_ifs
          · exact hg
          · exact (l2Fill_aside ..).trans hg
        split <;> rename_i e2 <;> replace hf := aside_fst e2 hf <;> exact hf
theorem l2Release_aside (s : State) (die v m : Nat) : (l2Release s die v m).aside = s.aside :=
  aside_foldl (fun t k => l2Clean_aside t k m) _ s
theorem l2Acquire_aside (s : State) (die v : Nat) : (l2Acquire s die v).aside = s.aside := l2Release_aside s die v 0xFF
theorem l2Out_aside (s : State) (die line : Nat) : (l2Out s die line).aside = s.aside := aside_foldl l2Evict_aside _ s

/-! L1. -/

theorem l1Clean_aside (s : State) (k m : Nat) : (l1Clean s k m).aside = s.aside := by
  unfold l1Clean; split
  · rfl
  · exact aside_foldl (fun t _ => aside_foldl (fun u _ => l2Write_aside u ..) _ t) _ s
theorem l1Evict_aside (s : State) (k : Nat) : (l1Evict s k).aside = s.aside := l1Clean_aside s k 0xFF
theorem l1Out_aside (s : State) (core line : Nat) : (l1Out s core line).aside = s.aside := aside_foldl l1Evict_aside _ s
theorem l1Get_aside (s : State) (n : L1Name) (line : Nat) (w sl : Bool) : (l1Get s n line w sl).1.aside = s.aside := by
  unfold l1Get; split
  · rfl
  · split
    · rfl
    · exact (l1Evict_aside ..).trans (aside_foldl l1Evict_aside _ s)
theorem l1Fill_aside (s : State) (n : L1Name) (a k : Nat) (sl : Bool) : (l1Fill s n a k sl).1.aside = s.aside := by
  have hr := l2Read_aside s (dieOfCore n.core) n.vd n.kid (a / 32 * 32) 32 sl
  unfold l1Fill; split
  · rfl
  · split_ifs
    · rfl
    · split <;> rename_i e <;> replace hr := aside_fst e hr <;> exact hr
theorem l1Read_aside (s : State) (n : L1Name) (a len : Nat) (w sl : Bool) : (l1Read s n a len w sl).1.aside = s.aside := by
  have hg : (l1Get (tick s) n (lineOf a) w sl).1.aside = s.aside := l1Get_aside ..
  unfold l1Read
  dsimp only
  split
  · rfl
  · split <;> rename_i e <;> replace hg := aside_fst e hg
    · exact (l2Read_aside ..).trans hg
    · next t key =>
      have hf := (l1Fill_aside t n a key sl).trans hg
      split <;> rename_i e2 <;> replace hf := aside_fst e2 hf
      · exact hf
      · split <;> exact hf
theorem l1Release_aside (s : State) (core v m : Nat) : (l1Release s core v m).aside = s.aside :=
  aside_foldl (fun t k => l1Clean_aside t k m) _ s
theorem l1Acquire_aside (s : State) (core v : Nat) : (l1Acquire s core v).aside = s.aside := aside_foldl l1Evict_aside _ s
theorem flushLines_aside (s : State) (f : Nat → Bool) : (flushLines s f).aside = s.aside :=
  (aside_foldl l2Evict_aside _ _).trans (aside_foldl l1Evict_aside _ s)
theorem pointRead_aside (s : State) (n : L1Name) (a len sc : Nat) (w sl : Bool) : (pointRead s n a len sc w sl).1.aside = s.aside := by
  unfold pointRead; dsimp only; split_ifs
  · exact l1Read_aside ..
  · exact (l2Read_aside ..).trans (l1Out_aside ..)
  · exact (mscRead_aside ..).trans ((l2Out_aside ..).trans (l1Out_aside ..))

/-! Releases and acquires. -/

theorem release_aside (s : State) (core v sc m : Nat) : (release s core v sc m).aside = s.aside := by
  unfold release; dsimp only; split_ifs
  · exact (l2Release_aside ..).trans (l1Release_aside ..)
  · exact l2Release_aside ..
  · exact l1Release_aside ..
  · rfl
theorem acquire_aside (s : State) (core v sc : Nat) : (acquire s core v sc).aside = s.aside := by
  unfold acquire; dsimp only; split_ifs
  · exact (l2Acquire_aside ..).trans (l1Acquire_aside ..)
  · exact l2Acquire_aside ..
  · exact l1Acquire_aside ..
  · rfl
theorem learn_aside (s : State) (a : Nat) (ks : List Know) : (learn s a ks).aside = s.aside := by
  unfold learn; split_ifs <;> rfl
theorem hear_aside (s : State) (a loc : Nat) (b : Bytes) : (hear s a loc b).aside = s.aside := by
  unfold hear; split <;> rfl
theorem meetSeen_aside (s : State) (a core sc since : Nat) : (meetSeen s a core sc since).aside = s.aside := by
  unfold meetSeen; split
  · rfl
  · exact learn_aside ..
theorem acquireIf_aside (s : State) (g : Group) (t sc since : Nat) : (acquireIf s g t sc since).aside = s.aside := by
  unfold acquireIf; split_ifs
  · rfl
  · exact (aside_foldl (fun u _ => meetSeen_aside u ..) _ _).trans (aside_foldl (fun u _ => acquire_aside u ..) _ s)
theorem sendBy_aside (s : State) (g : Group) (us : List Nat) (sc m : Nat) (c : Chan) : (sendBy s g us sc m c).aside = s.aside := by
  have hr : (releaseBy s g us sc m).aside = s.aside := aside_foldl (fun t v => release_aside t ..) _ s
  unfold sendBy addChan; split_ifs <;> exact hr
theorem recvBy_aside (s : State) (g : Group) (us : List Nat) (sc : Nat) (c : Chan) : (recvBy s g us sc c).aside = s.aside :=
  (aside_foldl (fun u _ => learn_aside u ..) _ _).trans (aside_foldl (fun u _ => acquire_aside u ..) _ s)

/-! Stage-2 translation. -/

theorem wkRead_aside (s : State) (cl v spa : Nat) : (wkRead s cl v spa).1.aside = s.aside := by
  have hr := mscRead_aside s v (kidFor s v spa) spa 8
  unfold wkRead
  dsimp only
  split <;> rename_i e <;> exact aside_fst e hr
theorem wkOr_aside (s : State) (cl v spa m : Nat) : (wkOr s cl v spa m).1.aside = s.aside := by
  have hr := (mscRead_aside ((l2Keys s (dieOfCluster cl) (fun l => l.spa == lineOf spa && !l.home)).foldl l2Evict s) v (kidFor s v spa)
    spa 8).trans (aside_foldl l2Evict_aside _ s)
  unfold wkOr
  dsimp only
  split <;> rename_i e
  · exact aside_fst e hr
  · exact (mscWrite_aside ..).trans (aside_fst e hr)
theorem s2Walk_aside (cl v gpa : Nat) : ∀ (n table : Nat) (s : State), (s2Walk s cl v gpa table n).1.aside = s.aside
  | 0, _, _ => rfl
  | n + 1, table, s => by
    have h1 := wkRead_aside s cl 0 (table + 8 * bits gpa (12 + 9 * n + 8) (12 + 9 * n))
    unfold s2Walk
    split <;> rename_i e <;> replace h1 := aside_fst e h1
    · exact h1
    · exact h1
    · dsimp only
      split_ifs
      · exact h1
      · exact h1
      · exact h1
      · exact h1
      · exact h1
      · exact h1
      · exact h1
      · exact (s2Walk_aside cl v gpa n _ _).trans h1
theorem ntlbFill_aside (s : State) (cl v gpa : Nat) (l : Leaf) : (ntlbFill s cl v gpa l).aside = s.aside := by
  unfold ntlbFill; dsimp only; split <;> rfl
theorem setAccessed_aside (s : State) (cl : Nat) (l : Leaf) : (setAccessed s cl l).aside = s.aside := by
  unfold setAccessed
  split
  · split
    · rfl
    · exact wkOr_aside ..
  · rfl
theorem stage2_aside (s : State) (cl v gpa : Nat) (f : Bool → Bool → Bool → Bool) : (stage2 s cl v gpa f).1.aside = s.aside := by
  have hw := s2Walk_aside cl v gpa 4 (bits (trnOf s v).s2.toNat 63 12 * 4096) s
  unfold stage2
  split_ifs
  · rfl
  · rfl
  · rfl
  · split
    · rfl
    · split <;> rename_i e <;> replace hw := aside_fst e hw
      · exact hw
      · split
        · exact (ntlbFill_aside ..).trans ((setAccessed_aside ..).trans hw)
        · exact hw
theorem setDirtyS2_aside (s : State) (v : Nat) (l : Leaf) : (setDirtyS2 s v l).1.aside = s.aside := by
  unfold setDirtyS2
  split
  · rfl
  · split_ifs
    · rfl
    · exact wkOr_aside s 0 0 _ 0x40
theorem gpaXlateF_aside (v gpa : Nat) (w : Bool) : ∀ (n : Nat) (s : State), (gpaXlateF s v gpa w n).1.aside = s.aside
  | 0, _ => rfl
  | n + 1, s => by
    have h1 := stage2_aside s 0 v gpa (fun r x _ => if w then x else r)
    unfold gpaXlateF
    split <;> rename_i e <;> replace h1 := aside_fst e h1
    · exact h1
    · next t l =>
      by_cases hp : (if w = true then !l.w else !l.r) = true
      · rw [if_pos hp]; exact h1
      · rw [if_neg hp]
        split
        · split
          · have h2 := (setDirtyS2_aside t v l).trans h1
            split <;> rename_i e2 <;> replace h2 := aside_fst e2 h2
            · exact h2
            · exact (gpaXlateF_aside v gpa w n _).trans h2
          · exact h1
        · exact h1
theorem gpaXlate_aside (s : State) (v gpa : Nat) (w : Bool) : (gpaXlate s v gpa w).1.aside = s.aside := gpaXlateF_aside v gpa w 2 s
theorem regXlate_aside (s : State) (v a : Nat) (w : Bool) : (regXlate s v a w).1.aside = s.aside := by
  unfold regXlate; split
  · rfl
  · exact gpaXlate_aside ..
theorem engXlate_aside (s : State) (e : Eng) (gpa : Nat) (w : Bool) : (engXlate s e gpa w).1.aside = s.aside := by
  unfold engXlate
  split_ifs
  · exact regXlate_aside ..
  · exact gpaXlate_aside ..
theorem svqSlot_aside (s : State) (core v i : Nat) : (svqSlot s core v i).1.aside = s.aside := by
  have h1 := gpaXlate_aside s v (bits (svqOf s core v).base.toNat 63 14 * 16384 + 64 * (i % 256)) true
  unfold svqSlot
  dsimp only
  split <;> rename_i e <;> exact aside_fst e h1
theorem postRel_aside (s : State) (num : Nat) : (postRel s num).aside = s.aside := aside_foldl (fun t _ => sendBy_aside t ..) _ s

/-! Reads by guest-physical address. -/

theorem engPhysRead_aside (s : State) (e : Eng) (a n : Nat) (sl : Bool) : (engPhysRead s e a n sl).1.aside = s.aside := by
  have h : (match e.die with
    | some d => l2Read s d e.vd (kidFor s e.vd a) a n sl
    | none => mscRead s e.vd (kidFor s e.vd a) a n).1.aside = s.aside := by
    split
    · exact l2Read_aside ..
    · exact mscRead_aside ..
  unfold engPhysRead
  dsimp only
  split <;> rename_i e2 <;> exact aside_fst e2 h
theorem gpaRead1_aside (s : State) (e : Eng) (gpa n : Nat) : (gpaRead1 s e gpa n).1.aside = s.aside := by
  have h1 := engXlate_aside s e gpa false
  unfold gpaRead1
  split <;> rename_i e1 <;> replace h1 := aside_fst e1 h1
  · exact h1
  · exact h1
  · exact (engPhysRead_aside ..).trans h1
theorem gpaReadF_aside (e : Eng) : ∀ (f a n : Nat) (s : State), (gpaReadF s e f a n).1.aside = s.aside
  | 0, _, _, _ => rfl
  | f + 1, a, n, s => by
    have h1 := gpaRead1_aside s e a (sectorPart a n)
    unfold gpaReadF
    split_ifs
    · rfl
    · split <;> rename_i e1 <;> replace h1 := aside_fst e1 h1
      · exact h1
      · next t _ _ =>
        have h2 := (gpaReadF_aside e f (a + sectorPart a n) (n - sectorPart a n) t).trans h1
        split <;> rename_i e2 <;> exact aside_fst e2 h2
theorem gpaReadN_aside (s : State) (e : Eng) (gpa n : Nat) : (gpaReadN s e gpa n).1.aside = s.aside := gpaReadF_aside e _ gpa n s

/-! Copies, and tables rewritten. -/

theorem copyPhys_aside (s : State) (v src dst n : Nat) (ws : List Writer) : (copyPhys s v src dst n ws).aside = s.aside := by
  unfold copyPhys
  generalize List.range ((n + 127) / 128) = l
  exact (onMem_aside ..).trans (aside_foldl (fun t i => (mscTouch_aside ..).trans (mscTouch_aside ..)) l s)
theorem ptWrite_aside (s : State) (v spa new : Nat) : (ptWrite s v spa new).aside = s.aside :=
  (devWrite_aside ..).trans (flushLines_aside ..)
theorem ptCas_aside (s : State) (v spa old new : Nat) : (ptCas s v spa old new).1.aside = s.aside := by
  unfold ptCas
  dsimp only
  split_ifs
  · exact (ptWrite_aside ..).trans (flushLines_aside ..)
  · exact flushLines_aside ..

end Sys2Proof.Machine
end

section
/-! PROOFS. What a reset must not bring back: work, translations and domains of a VD that had none (R84). -/
namespace Sys2Proof.Machine

/-- Each VD of a group, block, launch, task, collective or translation of the second state is one of such in the first, and each domain of
the second is one of the first. -/
structure Fewer (o s : State) : Prop where
  groups : s.cores.groups.map (·.vd) ⊆ o.cores.groups.map (·.vd)
  blocks : s.cores.blocks.map (·.vd) ⊆ o.cores.blocks.map (·.vd)
  launches : s.lq.launches.map (·.vd) ⊆ o.lq.launches.map (·.vd)
  tasks : s.lq.tasks.map (·.vd) ⊆ o.lq.tasks.map (·.vd)
  colls : s.loc.colls.map (·.vd) ⊆ o.loc.colls.map (·.vd)
  tlb : s.trn.tlb.map (·.vd) ⊆ o.trn.tlb.map (·.vd)
  domains : s.net.domains ⊆ o.net.domains

/-- And the VDs' registers and the counts of key generations are those of the first. -/
structure NoNew (o s : State) : Prop extends Fewer o s where
  regs : s.vds.vd = o.vds.vd
  keys : s.trn.keyGen = o.trn.keyGen

theorem Fewer.refl (s : State) : Fewer s s := ⟨fun _ h => h, fun _ h => h, fun _ h => h, fun _ h => h, fun _ h => h, fun _ h => h, fun _ h => h⟩
theorem Fewer.trans {a b c : State} (h : Fewer a b) (k : Fewer b c) : Fewer a c where
  groups := List.Subset.trans k.groups h.groups
  blocks := List.Subset.trans k.blocks h.blocks
  launches := List.Subset.trans k.launches h.launches
  tasks := List.Subset.trans k.tasks h.tasks
  colls := List.Subset.trans k.colls h.colls
  tlb := List.Subset.trans k.tlb h.tlb
  domains := List.Subset.trans k.domains h.domains
theorem NoNew.refl (s : State) : NoNew s s := ⟨Fewer.refl s, rfl, rfl⟩
theorem NoNew.trans {a b c : State} (h : NoNew a b) (k : NoNew b c) : NoNew a c :=
  ⟨h.toFewer.trans k.toFewer, k.regs.trans h.regs, k.keys.trans h.keys⟩

/-- The lists that `Fewer` speaks of. -/
def State.holders (s : State) :=
  ((s.cores.groups.map (·.vd), s.cores.blocks.map (·.vd)), (s.lq.launches.map (·.vd), s.lq.tasks.map (·.vd)), s.loc.colls.map (·.vd),
    s.trn.tlb.map (·.vd), s.net.domains)
/-- And what `NoNew` speaks of besides. -/
def State.folk (s : State) := (s.holders, s.vds.vd, s.trn.keyGen)

theorem Fewer.same {s t : State} (e : t.holders = s.holders) : Fewer s t := by
  simp only [State.holders, Prod.mk.injEq] at e
  obtain ⟨⟨groups, blocks⟩, ⟨launches, tasks⟩, colls, tlb, domains⟩ := e
  exact ⟨groups ▸ fun _ h => h, blocks ▸ fun _ h => h, launches ▸ fun _ h => h, tasks ▸ fun _ h => h, colls ▸ fun _ h => h,
    tlb ▸ fun _ h => h, domains ▸ fun _ h => h⟩

section
variable {o s t : State}

theorem NoNew.same (h : NoNew o s) (e : t.folk = s.folk) : NoNew o t := by
  simp only [State.folk, Prod.mk.injEq] at e
  obtain ⟨holders, regs, keys⟩ := e
  exact h.trans ⟨Fewer.same holders, regs, keys⟩
theorem NoNew.of_aside (h : NoNew o s) (e : t.aside = s.aside) : NoNew o t := h.same (congrArg State.folk e :)
theorem NoNew.fst_of {α : Type} {p : State × α} {x : State} {y : α} (e : p = (x, y)) (h : NoNew o p.1) : NoNew o x := by
  rw [e] at h; exact h
theorem NoNew.pair {α : Type} (h : NoNew o s) (x : α) : NoNew o (s, x).1 := h
theorem NoNew.ite {c : Prop} [Decidable c] (ht : NoNew o s) (he : NoNew o t) : NoNew o (if c then s else t) := by
  split_ifs; exacts [ht, he]
theorem NoNew.foldl {β : Type} {f : State → β → State} (hf : ∀ s b, NoNew o s → NoNew o (f s b)) :
    ∀ (l : List β) {s : State}, NoNew o s → NoNew o (l.foldl f s)
  | [], _, h => h
  | b :: l, _, h => NoNew.foldl hf l (hf _ b h)
/-- A fold that carries more than the state. -/
theorem NoNew.foldl_fst {β γ : Type} {f : State × γ → β → State × γ} (hf : ∀ x b, NoNew o x.1 → NoNew o (f x b).1) :
    ∀ (l : List β) {x : State × γ}, NoNew o x.1 → NoNew o (l.foldl f x).1
  | [], _, h => h
  | b :: l, _, h => NoNew.foldl_fst hf l (hf _ b h)

/-! Updates of the lists. -/

theorem map_map_of_proj {α β : Type} {p : α → β} {f : α → α} (hf : ∀ x, p (f x) = p x) (l : List α) : (l.map f).map p = l.map p := by
  rw [List.map_map]
  exact List.map_congr_left fun x _ => hf x
theorem filter_map_subset {α β : Type} (p : α → β) (f : α → Bool) (l : List α) : (l.filter f).map p ⊆ l.map p :=
  List.map_subset p List.filter_sublist.subset

/-- An update of the groups one by one that leaves their VDs. -/
theorem NoNew.mapGroups {f : Group → Group} (hf : ∀ g, (f g).vd = g.vd) (h : NoNew o s) :
    NoNew o (s.onCores fun c => { c with groups := c.groups.map f }) :=
  h.same (by simp only [State.folk, State.holders, State.onCores, map_map_of_proj hf])
theorem NoNew.mapBlocks {f : Block → Block} (hf : ∀ b, (f b).vd = b.vd) (h : NoNew o s) :
    NoNew o (s.onCores fun c => { c with blocks := c.blocks.map f }) :=
  h.same (by simp only [State.folk, State.holders, State.onCores, map_map_of_proj hf])

theorem NoNew.onGroup (gid : Nat) {f : Group → Group} (hf : ∀ g, (f g).vd = g.vd) (h : NoNew o s) : NoNew o (Machine.onGroup s gid f) :=
  h.mapGroups fun g => by split_ifs; exacts [hf g, rfl]
theorem NoNew.onBlock (bid : Nat) {f : Block → Block} (hf : ∀ b, (f b).vd = b.vd) (h : NoNew o s) : NoNew o (Machine.onBlock s bid f) :=
  h.mapBlocks fun b => by split_ifs; exacts [hf b, rfl]
theorem NoNew.onLaunch (lid : Nat) {f : Launch → Launch} (hf : ∀ l, (f l).vd = l.vd) (h : NoNew o s) : NoNew o (Machine.onLaunch s lid f) :=
  h.same (by
    simp only [State.folk, State.holders, Machine.onLaunch, State.onLq]
    rw [map_map_of_proj fun l => by split_ifs; exacts [hf l, rfl]])
theorem NoNew.onTask (tid : Nat) {f : Task → Task} (hf : ∀ t, (f t).vd = t.vd) (h : NoNew o s) : NoNew o (Machine.onTask s tid f) :=
  h.same (by
    simp only [State.folk, State.holders, Machine.onTask, State.onLq]
    rw [map_map_of_proj fun t => by split_ifs; exacts [hf t, rfl]])
/-- A group put for those of its number has the VD of one that was there. -/
theorem NoNew.setGroup {g : Group} (hg : g.vd ∈ o.cores.groups.map (·.vd)) (h : NoNew o s) : NoNew o (Machine.setGroup s g) where
  toFewer := { h.toFewer with
    groups := fun v hv => by
      simp only [Machine.setGroup, State.onCores, List.map_map, List.mem_map, Function.comp_apply] at hv
      obtain ⟨x, hx, rfl⟩ := hv
      split_ifs
      · exact hg
      · exact h.groups (List.mem_map_of_mem hx) }
  regs := h.regs
  keys := h.keys
theorem NoNew.wakeThreads (p : Group → Nat → Thread → Bool) (f : Thread → Thread) (h : NoNew o s) : NoNew o (Machine.wakeThreads s p f) :=
  h.mapGroups fun g => by dsimp only; split_ifs <;> rfl
theorem NoNew.rerun (w : Wait) (h : NoNew o s) : NoNew o (Machine.rerun s w) := h.wakeThreads _ _
theorem NoNew.migDone (h : NoNew o s) : NoNew o (Machine.migDone s) := h.rerun .mig

theorem NoNew.push (q : Turn) (h : NoNew o s) : NoNew o (s.push q) := h.same rfl

/-! Frames. -/

theorem NoNew.setFrame (f : Nat) (x : Frame) (h : NoNew o s) : NoNew o (Machine.setFrame s f x) := h.same rfl
theorem NoNew.onPool (v : Nat) (f : ShdPool → ShdPool) (h : NoNew o s) : NoNew o (Machine.onPool s v f) := h.same rfl
theorem NoNew.dropFrame (f : Nat) (h : NoNew o s) : NoNew o (Machine.dropFrame s f) :=
  h.trans ⟨{ Fewer.refl s with tlb := filter_map_subset .. }, rfl, rfl⟩
theorem NoNew.onMem (f : MemState → MemState) (h : NoNew o s) : NoNew o (s.onMem f) := h.of_aside (onMem_aside s f)
theorem NoNew.discardFrame (f : Nat) (h : NoNew o s) : NoNew o (Machine.discardFrame s f) := h.onMem _
theorem NoNew.freshCounters (f : Nat) (h : NoNew o s) : NoNew o (Machine.freshCounters s f) := h.onMem _
theorem NoNew.clearRange (a n : Nat) (h : NoNew o s) : NoNew o (Machine.clearRange s a n) := h.onMem _
theorem NoNew.scrubFrame (f : Nat) (h : NoNew o s) : NoNew o (Machine.scrubFrame s f) := by
  unfold Machine.scrubFrame
  exact (((h.discardFrame f).dropFrame f).freshCounters f).clearRange _ _
theorem NoNew.flushLines (f : Nat → Bool) (h : NoNew o s) : NoNew o (Machine.flushLines s f) := h.of_aside (flushLines_aside ..)
theorem NoNew.copyPhys (v src dst n : Nat) (ws : List Writer) (h : NoNew o s) : NoNew o (Machine.copyPhys s v src dst n ws) :=
  h.of_aside (copyPhys_aside ..)
theorem NoNew.ptWrite (v a n : Nat) (h : NoNew o s) : NoNew o (Machine.ptWrite s v a n) := h.of_aside (ptWrite_aside ..)
theorem NoNew.ptCas (v a old new : Nat) (h : NoNew o s) : NoNew o (Machine.ptCas s v a old new).1 := h.of_aside (ptCas_aside ..)
theorem NoNew.onShadows (f : TrnState → List Shadow) (h : NoNew o s) : NoNew o (s.onTrn fun t => { t with shadows := f t }) := h.same rfl
theorem NoNew.shadowTake (v lid f : Nat) (h : NoNew o s) : NoNew o (Machine.shadowTake s v lid f).1 := by
  unfold Machine.shadowTake
  dsimp only
  split
  · exact h
  · split_ifs
    · exact h
    · exact NoNew.migDone (NoNew.onShadows _ (NoNew.foldl (fun _ _ hx => hx.ptWrite _ _ _) _ (NoNew.flushLines _ (NoNew.copyPhys _ _ _ _ _
        (NoNew.setFrame _ _ (NoNew.dropFrame _ (NoNew.flushLines _ (NoNew.flushLines _ (h.onPool _ _)))))))))

theorem NoNew.framesMoved (src dst k : Nat) (ok : Bool) (h : NoNew o s) : NoNew o (Machine.framesMoved s src dst k ok) :=
  NoNew.foldl (fun _ _ hx => by
    dsimp only
    split_ifs
    · exact ((hx.setFrame _ _).scrubFrame _).setFrame _ _
    · exact (hx.setFrame _ _).setFrame _ _) _ h
/-- One leaf of a page that is given its new frame. -/
def repointStep (v dst : Nat) (x : State × List (Nat × Nat × Nat) × Bool) (l : Nat × Nat × Nat) : State × List (Nat × Nat × Nat) × Bool :=
  if !x.2.2 then x
  else
    let r := ptCas x.1 v l.1 (withMig l.2.2 true) (withAddr (withMig l.2.2 true) (dst + l.2.1))
    if r.2 then (r.1, x.2.1 ++ [l], true) else (r.1, x.2.1, false)
theorem NoNew.repointStep (v dst : Nat) (x : State × List (Nat × Nat × Nat) × Bool) (l : Nat × Nat × Nat) (h : NoNew o x.1) :
    NoNew o (Machine.repointStep v dst x l).1 := by
  have hc := h.ptCas v l.1 (withMig l.2.2 true) (withAddr (withMig l.2.2 true) (dst + l.2.1))
  unfold Machine.repointStep
  dsimp only
  split_ifs
  exacts [h, hc.pair _, hc.pair _]
theorem NoNew.repoint (v dst : Nat) (l : List (Nat × Nat × Nat)) (h : NoNew o s) : NoNew o (Machine.repoint s v dst l).1 := by
  have h1 := NoNew.foldl_fst (NoNew.repointStep v dst) l (x := (s, [], true)) h
  unfold Machine.repoint
  apply NoNew.foldl_fst
  · intro x b hx
    dsimp only
    exact hx.ptCas _ _ _ _
  · apply NoNew.pair
    apply NoNew.ite
    · exact h1
    · exact NoNew.foldl (fun _ _ hx => hx.ptCas _ _ _ _) _ h1
theorem NoNew.moveDo (m : Move) (h : NoNew o s) : NoNew o (Machine.moveDo s m).1 := by
  unfold Machine.moveDo
  dsimp only
  refine NoNew.migDone (NoNew.of_aside (NoNew.framesMoved _ _ _ _ (NoNew.repoint _ _ _ (NoNew.foldl (fun _ _ hx => hx.copyPhys _ _ _ _ _) _ ?_)))
    ((learn_aside ..).trans (acquire_aside ..)))
  exact (h.flushLines _).of_aside (tick_aside _)

/-! Writes by guest-physical address. -/

theorem NoNew.engPhysWrite (e : Eng) (a : Nat) (b : Bytes) (p : Bool) (h : NoNew o s) : NoNew o (Machine.engPhysWrite s e a b p).1 := by
  have hr : NoNew o (match e.die with
      | some d => l2Write s d e.vd (kidFor s e.vd a) a b 1 e.ws p
      | none => mscWrite s e.vd (kidFor s e.vd a) a b p).1 := by
    split
    · exact h.of_aside (l2Write_aside ..)
    · exact h.of_aside (mscWrite_aside ..)
  unfold Machine.engPhysWrite
  split
  · dsimp only
    split_ifs
    · exact h.shadowTake _ _ _
    · exact h
  · dsimp only
    split <;> rename_i q <;> exact hr.fst_of q
theorem NoNew.gpaWrite1 (e : Eng) (gpa : Nat) (b : Bytes) (p : Bool) : ∀ (n : Nat) {s : State}, NoNew o s → NoNew o (Machine.gpaWrite1 s e gpa b p n).1
  | 0, _, h => h
  | n + 1, s, h => by
    have h1 := h.of_aside (engXlate_aside s e gpa true)
    unfold Machine.gpaWrite1
    split <;> rename_i q <;> replace h1 := h1.fst_of q
    · exact h1
    · exact h1
    · next a =>
      have h2 := h1.engPhysWrite e a b p
      split <;> rename_i q2 <;> replace h2 := h2.fst_of q2
      · exact h2
      · exact h2
      · exact NoNew.gpaWrite1 e gpa b p n h2
theorem NoNew.gpaWriteF (e : Eng) (p : Bool) : ∀ (n a : Nat) (b : Bytes) {s : State}, NoNew o s → NoNew o (Machine.gpaWriteF s e p n a b).1
  | 0, _, _, _, h => h
  | n + 1, a, b, s, h => by
    have h1 := h.gpaWrite1 e a (b.take (sectorPart a b.length)) p 2
    unfold Machine.gpaWriteF
    split_ifs
    · exact h
    · split <;> rename_i q <;> replace h1 := h1.fst_of q
      · exact h1
      · exact NoNew.gpaWriteF e p n _ _ h1
theorem NoNew.gpaWriteN (e : Eng) (gpa : Nat) (b : Bytes) (p : Bool) (h : NoNew o s) : NoNew o (Machine.gpaWriteN s e gpa b p).1 :=
  h.gpaWriteF e p _ gpa b

/-! Posts, records and traps. -/

theorem NoNew.setMip (c b : Nat) (h : NoNew o s) : NoNew o (Machine.setMip s c b) := h.same rfl
theorem NoNew.setMipAll (b : Nat) (h : NoNew o s) : NoNew o (Machine.setMipAll s b) := by
  unfold Machine.setMipAll
  generalize List.range 832 = l
  exact NoNew.foldl (fun _ c hx => hx.setMip c b) l h
theorem NoNew.noteBatch (core v : Nat) (h : NoNew o s) : NoNew o (Machine.noteBatch s core v) := h.same rfl
theorem NoNew.onSvq (core v : Nat) (f : Svq → Svq) (h : NoNew o s) : NoNew o (Machine.onSvq s core v f) := h.same rfl
theorem NoNew.tryPost (num : Nat) (h : NoNew o s) : NoNew o (Machine.tryPost s num) := by
  unfold Machine.tryPost
  split
  · exact h
  · next p _ =>
    have h1 := h.of_aside (svqSlot_aside s p.core p.vd (svqOf s p.core p.vd).tail.toNat)
    dsimp only
    split
    · exact h
    · split <;> rename_i e <;> replace h1 := h1.fst_of e
      · exact h1
      · next t a =>
        have h2 := h1.of_aside ((postRel_aside (mscWrite (mscWrite t p.vd (kidFor t p.vd a) a (p.entry.take 32)).1 p.vd
          (kidFor (mscWrite t p.vd (kidFor t p.vd a) a (p.entry.take 32)).1 p.vd a) (a + 32) (p.entry.drop 32)).1 num).trans
          ((mscWrite_aside ..).trans (mscWrite_aside ..)))
        refine NoNew.noteBatch _ _ (NoNew.onSvq _ _ _ ((h2.mapGroups (f := fun g => if some g.gid = p.gid then
          { g with threads := g.threads.map (fun t => if t.st = .held num false then { t with st := .held num true } else t) } else g)
          fun g => ?_).same rfl))
        split_ifs <;> rfl
theorem NoNew.post (core v : Nat) (b : Bytes) (gid sw : Option Nat) (src : PostSrc) (h : NoNew o s) :
    NoNew o (Machine.post s core v b gid sw src).1 := NoNew.tryPost _ (h.same rfl)
theorem NoNew.postDirect (core v cause addr : Nat) (arg : Bytes) (src : PostSrc) (asid : Nat) (h : NoNew o s) :
    NoNew o (Machine.postDirect s core v cause addr arg src asid) := h.post _ _ _ _ _ _
theorem NoNew.offerBoth (v : Nat) (r : Rec) (h : NoNew o s) : NoNew o (Machine.offerBoth s v r) := h.of_aside (offerBoth_aside ..)
theorem NoNew.writeRec (v : Nat) (b : Bytes) (h : NoNew o s) : NoNew o (Machine.writeRec s v b) := by
  have hm : ∀ {y}, NoNew o y → NoNew o (if v = 0 then Machine.setMipAll y 4 else Machine.setMip y (rpcCore y v) 3) := by
    intro y hy; split
    · exact hy.setMipAll 4
    · exact hy.setMip _ 3
  unfold Machine.writeRec
  dsimp only
  split
  · exact h.same rfl
  · split <;> rename_i e <;> have h1 := (h.of_aside (regXlate_aside ..)).fst_of e
    · exact h1.same rfl
    · next t a =>
      split
      · have h2 := (h1.of_aside (mscWrite_aside t v (kidFor t v a) a (b.take 32) false)).of_aside (mscWrite_aside _ v
          (kidFor (mscWrite t v (kidFor t v a) a (b.take 32)).1 v a) (a + 32) (b.drop 32) false)
        split
        · exact NoNew.postDirect _ _ _ _ _ _ _ (hm (h2.same rfl))
        · exact hm (h2.same rfl)
      · exact h1.same rfl
/-- The end of a step. -/
theorem NoNew.flushRecs (h : NoNew o s) : NoNew o (Machine.flushRecs s) := by
  unfold Machine.flushRecs
  exact NoNew.foldl (fun _ e hx => hx.writeRec e.1 e.2) _ (h.same rfl)

theorem NoNew.startKill (v : Nat) (w : Owner) (q : Nat) (h : NoNew o s) : NoNew o (Machine.startKill s v w q) := by
  unfold Machine.startKill
  split
  · next lid =>
    split
    · dsimp only; split_ifs
      · exact h
      · exact NoNew.push _ (NoNew.onLaunch lid (fun _ => rfl) h)
      · exact NoNew.onLaunch lid (fun _ => rfl) h
    · exact h
  · next tid =>
    split
    · dsimp only; split_ifs
      · exact h
      · exact NoNew.push _ (NoNew.onTask tid (fun _ => rfl) h)
      · exact NoNew.onTask tid (fun _ => rfl) h
    · exact h
  · exact h
  · exact h
theorem NoNew.haltCore (core pc cause : Nat) (h : NoNew o s) : NoNew o (Machine.haltCore s core pc cause) := by
  unfold Machine.haltCore
  split_ifs
  · exact h
  · exact NoNew.foldl (fun _ g hx => hx.startKill g.vd g.owner _) _ (h.same rfl)
/-- Threads of a group that are changed leave it its VD. -/
theorem vd_foldl_onThread (f : Thread → Thread) (l : List Nat) (g : Group) : (l.foldl (fun g i => g.onThread i f) g).vd = g.vd := by
  induction l generalizing g with
  | nil => rfl
  | cons i l ih => exact ih _
theorem NoNew.postTrap (g : Group) (pc : Nat) (us : List Nat) (t : Trap) (h : NoNew o s) : NoNew o (Machine.postTrap s g pc us t) :=
  NoNew.post _ _ _ _ _ _ (h.onGroup _ (vd_foldl_onThread _ us))
theorem NoNew.postMachineCheck (g : Group) (pc : Nat) (us : List Nat) (t : Trap) (h : NoNew o s) :
    NoNew o (Machine.postMachineCheck s g pc us t) := by
  have hb : ∀ r : Rec, NoNew o (if t.seq.isSome = true then s else Machine.offerBoth s g.vd r) := by
    intro r; split
    · exact h
    · exact h.offerBoth _ _
  unfold Machine.postMachineCheck
  dsimp only
  split
  · exact NoNew.startKill _ _ _ (NoNew.post _ _ _ _ _ _ ((hb _).onGroup _ (vd_foldl_onThread _ us)))
  · exact (hb _).postTrap _ _ _ _
  · exact hb _
theorem NoNew.postAll (g : Group) (pc : Nat) (l : List (Nat × Trap)) (h : NoNew o s) : NoNew o (Machine.postAll s g pc l) := by
  refine NoNew.foldl (fun x q hx => ?_) _ h
  split
  · exact hx
  · split_ifs
    · exact hx.postMachineCheck _ _ _ _
    · exact hx.postTrap _ _ _ _
theorem NoNew.takeTraps (g : Group) (pc : Nat) (l : List (Nat × Trap)) (h : NoNew o s) : NoNew o (Machine.takeTraps s g pc l) := by
  have hd : NoNew o (dropConsumed s l) := by
    unfold dropConsumed; dsimp only; split_ifs
    · exact h
    · exact h.same rfl
  unfold Machine.takeTraps
  split
  · exact h
  · exact (hd.postAll _ _ _).haltCore _ _ _
  · exact hd.postAll _ _ _

end

end Sys2Proof.Machine
end

section
/-! PROOFS. Waits that end, landing windows and host messages bring back no work, translation or domain. -/
namespace Sys2Proof.Machine
section
variable {o s : State}

theorem NoNew.onSch (f : SchState → SchState) (h : NoNew o s) : NoNew o (s.onSch f) := h.same rfl
theorem NoNew.onRpc (f : RpcState → RpcState) (h : NoNew o s) : NoNew o (s.onRpc f) := h.same rfl
theorem NoNew.onPcie (f : PcieState → PcieState) (h : NoNew o s) : NoNew o (s.onPcie f) := h.same rfl
theorem NoNew.onRas (f : RasState → RasState) (h : NoNew o s) : NoNew o (s.onRas f) := h.of_aside (onRas_aside s f)
theorem NoNew.onOrd (f : OrdState → OrdState) (h : NoNew o s) : NoNew o (s.onOrd f) := h.of_aside (onOrd_aside s f)
theorem NoNew.queue (q : Turn) (h : NoNew o s) : NoNew o (s.queue q) := h.onSch _
theorem NoNew.emit (m : OutMsg) (h : NoNew o s) : NoNew o (s.emit m) := h.onSch _

/-! Writes of registers, and threads of WAITA and of barriers. -/

theorem NoNew.onThread (gid t : Nat) (f : Thread → Thread) (h : NoNew o s) : NoNew o (Machine.onThread s gid t f) := h.onGroup gid fun _ => rfl
theorem NoNew.writeReg (g : Group) (t j : Nat) (w : Word) (h : NoNew o s) : NoNew o (Machine.writeReg s g t j w) := by
  unfold Machine.writeReg
  split_ifs
  · exact h.same rfl
  · exact h.same rfl
theorem NoNew.writeK (g : Group) (j : Nat) (w : Word) (h : NoNew o s) : NoNew o (Machine.writeK s g j w) := h.onGroup g.gid fun _ => rfl
theorem NoNew.writeOp (g : Group) (t : Nat) (d : Opnd) (x : Nat) : ∀ (n : Nat), NoNew o s → NoNew o (Machine.writeOp s g t d x n)
  | 0, h => h
  | n + 1, h => by
    have h1 := NoNew.writeOp g t d x n h
    unfold Machine.writeOp
    cases d
    · exact h1.writeReg _ _ _ _
    · exact h1.writeK _ _ _
    · exact h1
    · exact h1
theorem NoNew.writePB (g : Group) (t : Nat) (d : Opnd) (b : Bool) (h : NoNew o s) : NoNew o (Machine.writePB s g t d b) := by
  unfold Machine.writePB Machine.writeP
  split
  · exact h.onThread _ _ _
  · exact h
theorem NoNew.barReturn (p : Group → Thread → Bool) (f : Thread → Thread) (sc : Nat) (c : Chan) (h : NoNew o s) :
    NoNew o (Machine.barReturn s p f sc c) :=
  NoNew.foldl (fun _ _ hx => hx.of_aside (recvBy_aside ..)) _ (h.wakeThreads _ _)
theorem NoNew.barResume (g : Group) (h : NoNew o s) : NoNew o (Machine.barResume s g) := by
  have h1 := NoNew.foldl (o := o) (fun _ j hx => NoNew.barReturn (fun a x => a.gid == g.gid && (match x.st with
    | .wait (.bar j) => bar16 x.pend j && bar16 x.tok j != (barOf s g.blk j).phase
    | _ => false) && x.st == .wait (.bar j)) (·.fromBar j) 2 (.bar g.blk j true) hx) (List.range 16) h
  unfold Machine.barResume
  dsimp only
  split
  · exact h1
  · exact h1.barReturn _ _ _ _

theorem NoNew.remoteWait (gid tid pkg hd off : Nat) (b : Bytes) (st at' : Bool) (h : NoNew o s) :
    NoNew o (Machine.remoteWait s gid tid pkg hd off b st at') := h.same rfl
theorem NoNew.flashRenew (v win nsid lba : Nat) (h : NoNew o s) : NoNew o (Machine.flashRenew s v win nsid lba) :=
  (h.of_aside (tick_aside s)).onMem _
theorem NoNew.flashAsk (v win nsid lba : Nat) (h : NoNew o s) : NoNew o (Machine.flashAsk s v win nsid lba) := h.onMem _
theorem NoNew.flashRead (v va win nsid lba off n : Nat) (h : NoNew o s) : NoNew o (Machine.flashRead s v va win nsid lba off n).1 := by
  unfold Machine.flashRead
  split
  · split_ifs
    · exact h
    · exact (h.flashRenew _ _ _ _).pair _
  · exact (h.flashAsk _ _ _ _).pair _
theorem NoNew.waWord (g : Group) (t : Nat) (r : WaitRec) (sc : Nat) (h : NoNew o s) : NoNew o (Machine.waWord s g t r sc).1 := by
  have hh : ∀ {x a loc b}, NoNew o x → NoNew o (hear (tick x) a loc b) := fun hx => hx.of_aside ((hear_aside ..).trans (tick_aside _))
  unfold Machine.waWord
  dsimp only
  split
  · split_ifs
    · exact h
    · exact NoNew.foldl (fun _ _ hx => hx.of_aside (hear_aside ..)) _ (h.of_aside (tick_aside s))
  · split_ifs
    · exact h
    · split
      · exact hh h
      · exact h
  · exact h
  · next win nsid lba off _ =>
    have h1 := h.flashRead g.vd r.va win nsid lba off (nBits r.w64 / 8)
    split <;> rename_i e <;> exact h1.fst_of e
  · split_ifs
    · exact h
    · exact hh h
    · exact h
    · exact h.remoteWait _ _ _ _ _ _ _ _
  · next a _ =>
    have h1 := h.of_aside (pointRead_aside s (nameOf s g g.own r.va a) a (nBits r.w64 / 8) sc false false)
    split <;> rename_i e <;> replace h1 := h1.fst_of e
    · exact h1
    · split_ifs
      · exact h1
      · exact hh h1
theorem NoNew.waStep (g : Group) (t : Nat) (r : WaitRec) (last : Bool) (h : NoNew o s) : NoNew o (Machine.waStep s g t r last).1 := by
  have h1 := h.waWord g t r (scopeRank r.scope)
  unfold Machine.waStep
  dsimp only
  split <;> rename_i e <;> replace h1 := h1.fst_of e
  · exact h1
  · exact h1
  · split_ifs
    · exact (h1.writePB _ _ _ _).of_aside (acquireIf_aside ..)
    · exact h1.writePB _ _ _ _
    · exact h1
theorem NoNew.waAgain (gid t : Nat) (last : Bool) (h : NoNew o s) : NoNew o (Machine.waAgain s gid t last) := by
  unfold Machine.waAgain
  split
  · exact h
  · next g _ =>
    split_ifs
    · exact h
    · split
      · next r _ =>
        have h1 := h.waStep g t r last
        split <;> rename_i e <;> replace h1 := h1.fst_of e
        · exact h1
        · exact (h1.takeTraps _ _ _).flushRecs
        · exact h1.wakeThreads _ _
      · exact h
theorem NoNew.wakeSector (a : Nat) (h : NoNew o s) : NoNew o (Machine.wakeSector s a) :=
  NoNew.foldl (fun _ _ hx => hx.waAgain _ _ _) _ h

/-! Host messages. -/

theorem NoNew.offerRec (v : Nat) (r : Rec) (h : NoNew o s) : NoNew o (Machine.offerRec s v r) := h.of_aside (offerRec_aside s v r)
theorem NoNew.onRpcVd (v : Nat) (f : RpcVd → RpcVd) (h : NoNew o s) : NoNew o (Machine.onRpcVd s v f) := h.onRpc _
theorem NoNew.netRec (v reason addr d : Nat) (h : NoNew o s) : NoNew o (Machine.netRec s v reason addr d) := h.offerRec _ _
theorem NoNew.egressDrop (v port : Nat) (h : NoNew o s) : NoNew o (Machine.egressDrop s v port) := (h.netRec 0 1 port v).same rfl
theorem NoNew.rpcSend (v : Nat) (via : Transport) (bad : Bool) (m : Bytes) (h : NoNew o s) : NoNew o (Machine.rpcSend s v via bad m) := by
  unfold Machine.rpcSend
  split
  · unfold ueSend
    split_ifs
    · exact h.egressDrop _ _
    · exact h.emit _
  · unfold msixFire
    dsimp only
    split_ifs
    · exact (h.emit _).onPcie _
    · exact (h.emit _).emit _
theorem NoNew.rpcReplyTo (v : Nat) (via : Transport) (c q st : Nat) (b : Bytes) (h : NoNew o s) : NoNew o (Machine.rpcReplyTo s v via c q st b) :=
  h.rpcSend _ _ _ _
theorem NoNew.hReply (via : Transport) (m : Bytes) (st : Nat) (b : Bytes) (h : NoNew o s) : NoNew o (Machine.hReply s via m st b) :=
  h.rpcReplyTo _ _ _ _ _ _
theorem NoNew.slotSend (v i : Nat) (q : RpcReq) (bad : Bool) (m : Bytes) (h : NoNew o s) : NoNew o (Machine.slotSend s v i q bad m) :=
  (h.rpcSend _ _ _ _).onRpcVd _ _
theorem NoNew.rpcPlace (via : Transport) (m : Bytes) (h : NoNew o s) : NoNew o (Machine.rpcPlace s via m) := by
  unfold Machine.rpcPlace
  dsimp only
  split
  · exact h.rpcReplyTo _ _ _ _ _ _
  · next i _ =>
    split
    · exact h.rpcReplyTo _ _ _ _ _ _
    · have h1 := h.gpaWriteN (regEng (slotVd m)) (slotGpa s (slotVd m) i) (m.take (32 + mLen m)) false
      split <;> rename_i e <;> replace h1 := h1.fst_of e
      · exact h.onRpc _
      · exact h1.rpcReplyTo _ _ _ _ _ _
      · apply NoNew.setMip
        apply NoNew.postDirect
        apply NoNew.ite
        · exact (h1.onRpcVd _ _).onRpcVd _ _
        · exact h1.onRpcVd _ _
theorem NoNew.rpcArrive (via : Transport) (m : Bytes) (h : NoNew o s) : NoNew o (Machine.rpcArrive s via m) := by
  have ht : NoNew o (if mCall m = 2 then s else Machine.onRpcVd s (mVd m) (fun r => seqTake r (mSeq m))) := NoNew.ite h (h.onRpcVd _ _)
  unfold Machine.rpcArrive
  split
  · exact h.offerRec _ _
  · split
    · split
      · exact h.push _
      · exact h.push _
      · exact h.push _
      · exact h.push _
      · exact h.push _
      · exact h.hReply _ _ _ _
    · split
      · exact ht.onRpc _
      · exact ht.rpcPlace _ _

/-! Landing windows. -/

theorem NoNew.onLwd (ep w : Nat) (f : Lwd → Lwd) (h : NoNew o s) : NoNew o (Machine.onLwd s ep w f) := h.onPcie _
theorem NoNew.putHeld (ep w : Nat) (l : List PeerWrite) (h : NoNew o s) : NoNew o (Machine.putHeld s ep w l) := h.onPcie _
theorem NoNew.lwdRec (v reason addr d : Nat) (h : NoNew o s) : NoNew o (Machine.lwdRec s v reason addr d) := h.offerRec _ _
theorem NoNew.lwdFail (ep w off : Nat) (h : NoNew o s) : NoNew o (Machine.lwdFail s ep w off) := (h.onLwd _ _ _).lwdRec _ _ _ _
theorem NoNew.sendDecs (v asid key : Nat) (core : Option Nat) (hs : List Nat) (l : Option Nat) (a : Option (Nat × Nat)) (rs : List Rel)
    (h : NoNew o s) : NoNew o (Machine.sendDecs s v asid key core hs l a rs) := by
  have h1 := NoNew.foldl (o := o) (fun x i hx => NoNew.offerRec v
    { type := 0x0B, sev := 1, vd := v, unit := 0x420 + bits i 31 30, data0 := i } hx) (hs.filter (fun i => !handleOk s v i)) h
  unfold Machine.sendDecs
  dsimp only
  split_ifs
  · exact h1
  · exact h1.same rfl
theorem NoNew.landGo (ep w : Nat) (h : NoNew o s) : NoNew o (Machine.landGo s ep w) := by
  have h1 := h.of_aside (gpaXlate_aside s (lwdOf s ep w).vd ((lwdOf s ep w).target + (lwdOf s ep w).flagOff) false)
  have h2 : NoNew o (if bit (lwdOf s ep w).act.toNat 33 ∧ (lwdOf s ep w).kind ≠ 2 then
      match gpaXlate s (lwdOf s ep w).vd ((lwdOf s ep w).target + (lwdOf s ep w).flagOff) false with
      | (s, .ok a) => Machine.wakeSector s a
      | (s, .error _) => s
    else s) := by
    apply NoNew.ite
    · split <;> rename_i e <;> replace h1 := h1.fst_of e
      · exact h1.wakeSector _
      · exact h1
    · exact h
  exact NoNew.ite (h2.postDirect _ _ _ _ _ _ _) h2
theorem NoNew.landFire (ep w : Nat) (h : NoNew o s) : NoNew o (Machine.landFire s ep w) := by
  unfold Machine.landFire
  dsimp only
  have h1 : NoNew o (if bit (lwdOf s ep w).act.toNat 32 then
      Machine.sendDecs s (lwdOf s ep w).vd 0 landKey none [(lwdOf s ep w).act.toNat % 2 ^ 32] none (some (ep, w)) else s) :=
    NoNew.ite (h.sendDecs _ _ _ _ _ _ _ _) h
  apply NoNew.ite
  · apply NoNew.rpcArrive
    exact NoNew.ite h1 (h1.landGo _ _)
  · exact NoNew.ite h1 (h1.landGo _ _)
theorem landCheck_aside (v : Nat) (sol : Bool) : ∀ (fuel gpa n : Nat) (s : State), (landCheck s v sol gpa n fuel).1.aside = s.aside
  | 0, _, _, _ => rfl
  | fuel + 1, gpa, n, s => by
    have h1 := gpaXlate_aside s v gpa true
    unfold landCheck
    split_ifs
    · rfl
    · split <;> rename_i e <;> replace h1 := aside_fst e h1
      · exact h1
      · exact h1
      · dsimp only
        split_ifs
        · exact h1
        · exact h1
        · exact h1
        · exact (landCheck_aside v sol fuel _ _ _).trans h1
theorem NoNew.landDo (ep w : Nat) (p : PeerWrite) (h : NoNew o s) : NoNew o (Machine.landDo s ep w p).1 := by
  unfold Machine.landDo
  dsimp only
  split
  · exact (h.onPcie _).pair _
  · have h1 := h.gpaWriteN (ioEng (lwdOf s ep w).vd 0) ((lwdOf s ep w).target + (p.off - (lwdOf s ep w).base)) p.data false
    split <;> rename_i e <;> replace h1 := h1.fst_of e
    · exact h1
    · exact (h1.lwdFail _ _ _).pair _
theorem NoNew.landTry (ep w : Nat) (p : PeerWrite) (h : NoNew o s) : NoNew o (Machine.landTry s ep w p).1 := by
  have h1 : NoNew o (if (lwdOf s ep w).kind = 2 then (s, 0) else landCheck s (lwdOf s ep w).vd ((lwdOf s ep w).kind == 1)
      ((lwdOf s ep w).target + (p.off - (lwdOf s ep w).base)) p.data.length (p.data.length / 32 + 2)).1 := by
    split_ifs
    · exact h
    · exact h.of_aside (landCheck_aside ..)
  unfold Machine.landTry
  dsimp only
  split <;> rename_i e <;> replace h1 := h1.fst_of e
  · next t =>
    have h2 := h1.landDo ep w p
    split <;> rename_i e2 <;> replace h2 := h2.fst_of e2
    · apply NoNew.pair
      exact NoNew.ite (h2.landFire _ _) h2
    · exact h2
  · exact (h1.lwdRec _ _ _ _).pair _
  · exact h1
  · exact (h1.lwdFail _ _ _).pair _
theorem NoNew.landRun (ep w : Nat) (pick : PeerWrite → Bool) : ∀ (l kept : List PeerWrite) {s : State},
    NoNew o s → NoNew o (Machine.landRun ep w pick kept l s).1
  | [], _, _, h => h
  | p :: l, kept, s, h => by
    unfold Machine.landRun
    split
    · exact NoNew.landRun ep w pick l _ h
    · have h1 := h.landTry ep w p
      split <;> rename_i e <;> replace h1 := h1.fst_of e
      · exact NoNew.landRun ep w pick l _ h1
      · exact h1
      · exact NoNew.landRun ep w pick l _ h1
theorem NoNew.landHeld (ep w : Nat) (pick : PeerWrite → Bool) (h : NoNew o s) : NoNew o (Machine.landHeld s ep w pick) :=
  (h.landRun ep w pick (heldOf s ep w) []).putHeld _ _ _
end
end Sys2Proof.Machine
end

section
/-! PROOFS. Moves, held packets, slices, shadow frames and frames bring back no work, translation or domain. -/
namespace Sys2Proof.Machine
section
variable {o s : State}

theorem NoNew.onMoves (f : TrnState → List Move) (h : NoNew o s) : NoNew o (s.onTrn fun t => { t with moves := f t }) := h.same rfl
theorem NoNew.moveGive (m : Move) (st : Nat) (h : NoNew o s) : NoNew o (Machine.moveGive s m st) := by
  unfold Machine.moveGive
  split
  · exact h
  · dsimp only
    split_ifs
    · exact ((h.writeOp _ _ _ _ _).wakeThreads _ _).wakeThreads _ _
    · exact h.onMoves _
theorem NoNew.finishMoves (p : Move → Bool) (h : NoNew o s) : NoNew o (Machine.finishMoves s p) :=
  NoNew.foldl (fun _ m hx => ((hx.onMoves _).moveDo m).moveGive _ _) _ h

/-! Held packets. -/

theorem NoNew.onQp (v q : Nat) (f : Qp → Qp) (h : NoNew o s) : NoNew o (Machine.onQp s v q f) := h.same rfl
theorem NoNew.rxFree (v : Nat) (p : HeldPkt) (h : NoNew o s) : NoNew o (Machine.rxFree s v p) := h.same rfl
theorem NoNew.opStatus (v q i st n : Nat) (h : NoNew o s) : NoNew o (Machine.opStatus s v q i st n) := h.onQp _ _ _
theorem NoNew.dropHeld (v q : Nat) (h : NoNew o s) : NoNew o (Machine.dropHeld s v q) := by
  unfold Machine.dropHeld
  split
  · exact h
  · refine NoNew.foldl (fun x p hx => ?_) _ (h.onQp _ _ _)
    have h1 := (hx.rxFree v p).netRec v 4 p.pkt.lpid p.pkt.port.val
    dsimp only
    split
    · exact h1.opStatus _ _ _ _ _
    · exact h1

/-! Slices. -/

/-- An update of the places that leaves the collectives. -/
theorem NoNew.onLoc (f : LocState → LocState) (h : NoNew o s) (hf : ∀ l, (f l).colls = l.colls := by intro; rfl) : NoNew o (s.onLoc f) :=
  h.same (by simp only [State.folk, State.holders, State.onLoc, hf])
theorem NoNew.onSlice (n : Nat) (f : SlicePair → SlicePair) (h : NoNew o s) : NoNew o (Machine.onSlice s n f) := h.same rfl
theorem NoNew.setSramBad (c w : Nat) (p : Bool) (h : NoNew o s) : NoNew o (Machine.setSramBad s c w p) := h.onLoc _
theorem NoNew.setTileBad (c t r : Nat) (p : Bool) (h : NoNew o s) : NoNew o (Machine.setTileBad s c t r p) := h.onLoc _
theorem NoNew.onWin (c e : Nat) (f : Window → Window) (h : NoNew o s) : NoNew o (Machine.onWin s c e f) := h.onLoc _
theorem NoNew.onWays (v : Nat) (f : WayRegs → WayRegs) (h : NoNew o s) : NoNew o (Machine.onWays s v f) := h.onLoc _
theorem NoNew.clearSegs (m : Nat) (h : NoNew o s) : NoNew o (Machine.clearSegs s m) := h.onLoc _
theorem NoNew.sliceClear (n : Nat) (h : NoNew o s) : NoNew o (Machine.sliceClear s n) := by
  unfold Machine.sliceClear
  exact h.onLoc _
theorem NoNew.dropStash (n : Nat) (b : Bool) (h : NoNew o s) : NoNew o (Machine.dropStash s n b) := by
  unfold Machine.dropStash
  exact h.onLoc _
theorem NoNew.loadPart (n v c off len : Nat) (h : NoNew o s) : NoNew o (Machine.loadPart s n v c off len).1 := by
  have h1 := h.of_aside (gpaReadN_aside s { vd := v, asid := 0, cl := clusterOfCore c, die := some (dieOfCore c) } (saveBase s n v c + off) len)
  unfold Machine.loadPart
  split <;> rename_i e <;> exact h1.fst_of e
theorem NoNew.loadWhole (n v c off len : Nat) (h : NoNew o s) : NoNew o (Machine.loadWhole s n v c off len).1 := h.loadPart n v c off len
theorem NoNew.loadRows (n v c : Nat) (h : NoNew o s) : NoNew o (Machine.loadRows s n v c).1 := by
  refine NoNew.foldl_fst (fun x p hx => ?_) _ h
  apply NoNew.pair
  exact (hx.loadWhole _ _ _ _ _).onLoc _
theorem NoNew.loadSegs (n v c : Nat) (h : NoNew o s) : NoNew o (Machine.loadSegs s n v c).1 := by
  refine NoNew.foldl_fst (fun x p hx => ?_) _ h
  apply NoNew.pair
  exact ((hx.loadPart _ _ _ _ _).onLoc _).setSramBad _ _ _
theorem NoNew.loadTiles (n v c : Nat) (h : NoNew o s) : NoNew o (Machine.loadTiles s n v c).1 := by
  refine NoNew.foldl_fst (fun y t hy => NoNew.foldl_fst (fun x i hx => ?_) _ hy) _ h
  apply NoNew.pair
  exact ((hx.loadPart _ _ _ _ _).onLoc _).setTileBad _ _ _ _
theorem NoNew.loadCore (n v c : Nat) (h : NoNew o s) : NoNew o (Machine.loadCore s n v c) := by
  have h1 := ((h.loadRows n v c).loadSegs n v c).loadTiles n v c
  unfold Machine.loadCore
  dsimp only
  split_ifs
  · exact h1
  · exact NoNew.foldl (fun _ _ hx => hx.startKill _ _ _) _ h1
/-- A group is put back and its waits are looked at again. -/
theorem NoNew.resumeGroup {g : Group} (hg : g.vd ∈ o.cores.groups.map (·.vd)) (p : Group → Nat → Thread → Bool) (f : Thread → Thread)
    (l : List Nat) (q : Nat → Turn) (h : NoNew o s) :
    NoNew o (l.foldl (fun s i => s.queue (q i)) (Machine.wakeThreads (Machine.barResume (Machine.setGroup s g) g) p f)) :=
  NoNew.foldl (fun _ _ hx => hx.queue _) l (((h.setGroup hg).barResume g).wakeThreads p f)
theorem vd_joins (g : Group) : g.joins.vd = g.vd := rfl
theorem vd_ofImage (g : Group) (a b : Bytes) : (g.ofImage a b).vd = g.vd := by simp only [Group.ofImage]
theorem NoNew.loadGroup {g : Group} (hg : g.vd ∈ o.cores.groups.map (·.vd)) (n v : Nat) (h : NoNew o s) :
    NoNew o (Machine.loadGroup s n v g) := by
  have h1 := (h.loadWhole n v g.core (0x400 + 1280 * g.coreSlot) 1280).loadWhole n v g.core (0x130000 + 1024 * g.coreSlot) 1024
  unfold Machine.loadGroup
  extract_lets a b j y u t src w
  have hj : j.vd = g.vd := (vd_joins _).trans (vd_ofImage ..)
  clear_value j
  have hy : y.vd ∈ o.cores.groups.map (·.vd) := hj ▸ hg
  have hw : NoNew o w := NoNew.resumeGroup (g := y) hy _ _ _ _ h1
  exact NoNew.ite hw (hw.startKill _ _ _)
theorem NoNew.loadBlock4 (n v : Nat) (b : Block) (h : NoNew o s) : NoNew o (Machine.loadBlock4 s n v b) := by
  have h1 := h.loadWhole n v b.core (0x14400 + 256 * b.num) 256
  unfold Machine.loadBlock4
  dsimp only
  refine NoNew.onBlock b.bid (fun _ => rfl) ?_
  exact NoNew.ite h1 (h1.startKill _ _ _)
theorem NoNew.loadEntry (n v key : Nat) (e : AnvilEntry) (h : NoNew o s) : NoNew o (Machine.loadEntry s n v key e) := by
  have h1 := h.loadWhole n v (4 * (key / 32)) (0x18400 + 64 * (key % 32)) 64
  unfold Machine.loadEntry
  dsimp only
  apply NoNew.ite
  · exact h1.onLoc _
  · apply NoNew.startKill
    exact h1.onLoc _
theorem NoNew.loadContext (n v key : Nat) (c : SwageCtx) (h : NoNew o s) : NoNew o (Machine.loadContext s n v key c) := by
  have h1 := h.loadWhole n v (4 * (key / 8)) (0x18C00 + 128 * (key % 8)) 128
  unfold Machine.loadContext
  dsimp only
  apply NoNew.ite
  · apply NoNew.onWin
    exact h1.onLoc _
  · apply NoNew.startKill
    apply NoNew.onWin
    exact h1.onLoc _
/-- A fold over some of the elements of a list, by what all elements of the list satisfy. -/
theorem NoNew.foldl_mem {β : Type} {f : State → β → State} (l : List β) (hf : ∀ s, ∀ b ∈ l, NoNew o s → NoNew o (f s b)) (h : NoNew o s) :
    NoNew o (l.foldl f s) := by
  induction l generalizing s with
  | nil => exact h
  | cons b l ih => exact ih (fun s c hc => hf s c (List.mem_cons_of_mem _ hc)) (hf s b List.mem_cons_self h)
/-- Groups that a list of the state names are loaded again. -/
theorem NoNew.loadGroups (p : Group → Bool) (n v : Nat) (h : NoNew o s) :
    NoNew o ((s.cores.groups.filter p).foldl (fun s g => Machine.loadGroup s n v g) s) :=
  NoNew.foldl_mem _ (fun _ _ hg hx => hx.loadGroup (h.groups (List.mem_map_of_mem (List.mem_of_mem_filter hg))) n v) h
theorem NoNew.sliceIn (n v : Nat) (b : Bool) (h : NoNew o s) : NoNew o (Machine.sliceIn s n v b) := by
  unfold Machine.sliceIn
  dsimp only
  apply NoNew.onSlice
  refine NoNew.foldl (fun _ e hx => (hx.onLoc _).loadContext _ _ _ _) _ ?_
  refine NoNew.foldl (fun _ e hx => (hx.onLoc _).loadEntry _ _ _ _) _ ?_
  exact NoNew.loadGroups _ _ _ (NoNew.foldl (fun _ b hx => hx.loadBlock4 n v b) _ (NoNew.foldl (fun _ c hx => hx.loadCore n v c) _ h))
theorem NoNew.sliceGive (n : Nat) (b : Bool) (h : NoNew o s) : NoNew o (Machine.sliceGive s n b) := by
  unfold Machine.sliceGive
  dsimp only
  apply NoNew.ite
  · exact (h.onSlice _ _).sliceIn _ _ _
  · exact h.onSlice _ _
theorem NoNew.resetPairs (v : Nat) (h : NoNew o s) : NoNew o (Machine.resetPairs s v) := by
  refine NoNew.foldl (fun x n hx => ?_) _ h
  dsimp only
  split_ifs
  · exact (((hx.dropStash _ _).onSlice _ _).sliceClear _).sliceGive _ _
  · exact (hx.dropStash _ _).onSlice _ _
  · exact hx

/-! Shadow frames. -/

theorem NoNew.poolReturn (v f : Nat) (h : NoNew o s) : NoNew o (Machine.poolReturn s v f) :=
  (h.of_aside (devWrite_aside s 0 (bits (poolOf s v).pool.toNat 63 12 * 4096 + 4 * ((poolOf s v).used.toNat - 1)) (leBytes 4 f))).onPool v
    fun p => { p with used := p.used - 1 }
theorem NoNew.discardShadows (lid : Nat) (h : NoNew o s) : NoNew o (Machine.discardShadows s lid) := by
  refine NoNew.foldl (fun x r hx => ?_) _ (h.onShadows _)
  apply NoNew.poolReturn
  apply NoNew.setFrame
  apply NoNew.scrubFrame
  refine NoNew.foldl (fun y a hy => ?_) _ (hx.flushLines _)
  exact NoNew.ite (hy.ptWrite _ _ _) hy
end
end Sys2Proof.Machine
end

section
/-! PROOFS. The steps of a reset (R84): what each takes from the VD, and that none of it returns. -/
namespace Sys2Proof.Machine

/-- A VD has no group, block, launch or task. -/
def Idle (s : State) (v : Nat) : Prop :=
  v ∉ s.cores.groups.map (·.vd) ∧ v ∉ s.cores.blocks.map (·.vd) ∧ v ∉ s.lq.launches.map (·.vd) ∧ v ∉ s.lq.tasks.map (·.vd)
/-- A VD has no collective and joins no domain. -/
def Alone (s : State) (v : Nat) : Prop := v ∉ s.loc.colls.map (·.vd) ∧ ∀ d ∈ s.net.domains, joins d.2 v = false

theorem Idle.mono {o s : State} {v : Nat} (k : Idle o v) (h : Fewer o s) : Idle s v := by
  obtain ⟨groups, blocks, launches, tasks⟩ := k
  exact ⟨fun x => groups (h.groups x), fun x => blocks (h.blocks x), fun x => launches (h.launches x), fun x => tasks (h.tasks x)⟩
theorem Alone.mono {o s : State} {v : Nat} (k : Alone o v) (h : Fewer o s) : Alone s v :=
  ⟨fun x => k.1 (h.colls x), fun d hd => k.2 d (h.domains hd)⟩

theorem not_mem_filter_vd {α : Type} (p : α → Nat) (v : Nat) (l : List α) : v ∉ (l.filter (fun x => p x != v)).map p := by
  simp

section
variable {o s : State}

/-! Groups, blocks, launches and tasks. -/

theorem resetGroups_ends (s : State) (v : Nat) : NoNew s (resetGroups s v) ∧ Idle (resetGroups s v) v := by
  have h1 : NoNew s ((s.lq.launches.filter (fun l => l.vd == v)).foldl (fun s l => discardShadows s l.lid) s) :=
    NoNew.foldl (fun _ l hx => hx.discardShadows l.lid) _ (NoNew.refl s)
  unfold resetGroups
  extract_lets s1 gs teams s2 s3 s4
  have h2 : NoNew s1 s2 := ⟨{ Fewer.refl s1 with
    groups := filter_map_subset _ _ s1.cores.groups, blocks := filter_map_subset _ _ s1.cores.blocks }, rfl, rfl⟩
  have h3 : NoNew s2 s3 := ⟨{ Fewer.refl s2 with
    launches := filter_map_subset _ _ s2.lq.launches, tasks := filter_map_subset _ _ s2.lq.tasks }, rfl, rfl⟩
  have h4 : NoNew s3 s4 := (NoNew.refl s3).same rfl
  have h5 : NoNew s4 (resetPairs s4 v) := (NoNew.refl s4).resetPairs v
  have k : Idle s4 v := ⟨not_mem_filter_vd _ v s1.cores.groups, not_mem_filter_vd _ v s1.cores.blocks,
    not_mem_filter_vd _ v s2.lq.launches, not_mem_filter_vd _ v s2.lq.tasks⟩
  exact ⟨(((h1.trans h2).trans h3).trans h4).trans h5, k.mono h5.toFewer⟩

/-! Engines, queue pairs, domains, moves and landing windows. -/

theorem resetEngines_ends (s : State) (v : Nat) : NoNew s (resetEngines s v) ∧ Alone (resetEngines s v) v := by
  unfold resetEngines
  extract_lets s1 s2 s3 s4 s5 s6 ws
  have h1 : NoNew s s1 := ⟨{ Fewer.refl s with colls := filter_map_subset _ _ s.loc.colls }, rfl, rfl⟩
  have h2 : NoNew s1 s2 := NoNew.foldl (fun _ e hx => hx.dropHeld v e.1) _ (NoNew.refl s1)
  have h3 : NoNew s2 s3 := ⟨{ Fewer.refl s2 with domains := List.filter_sublist.subset }, rfl, rfl⟩
  have h4 : NoNew s3 s6 := (((NoNew.refl s3).onRpc _).onMem _).finishMoves _
  have h5 : NoNew s6 (ws.foldl (fun s x => onLwd (putHeld (landHeld s x.1 x.2 (fun _ => true)) x.1 x.2 []) x.1 x.2
      (fun d => { d with ctl := BitVec.ofNat 64 (setBits d.ctl.toNat 31 31 0) })) s6) :=
    NoNew.foldl (fun _ x hx => ((hx.landHeld x.1 x.2 _).putHeld _ _ _).onLwd _ _ _) _ (NoNew.refl s6)
  have h35 := (h4.trans h5).toFewer
  refine ⟨(h1.trans h2).trans (h3.trans (h4.trans h5)), ?_, ?_⟩
  · exact fun x => not_mem_filter_vd _ v s.loc.colls (h2.colls (h3.colls (h35.colls x)))
  · intro d hd
    have hj := (List.mem_filter.mp (h35.domains hd)).2
    simpa using hj

/-! Frames, ways and translations. -/

theorem NoNew.onSolder (f : TrnState → Tab Solder) (h : NoNew o s) : NoNew o (s.onTrn fun t => { t with solder := f t }) := h.same rfl
theorem resetFrames_ends (s : State) (v : Nat) : NoNew s (resetFrames s v) ∧ v ∉ (resetFrames s v).trn.tlb.map (·.vd) := by
  unfold resetFrames
  extract_lets s1 own src s2 ws s3 old s4 s5
  have h1 : NoNew s s1 := (NoNew.refl s).finishMoves _
  have h2 : NoNew s1 s2 := NoNew.foldl (fun _ f hx => (hx.scrubFrame f).setFrame _ _) _ (NoNew.refl s1)
  have h3 : NoNew s2 s3 := NoNew.foldl
    (fun x e hx => NoNew.foldl (fun _ f hy => (hy.scrubFrame f).setFrame _ _) _ (hx.onSolder _)) _ (NoNew.refl s2)
  have h4 : NoNew s3 s4 := NoNew.foldl (fun _ k hx => hx.of_aside (l1Evict_aside _ k)) _ (NoNew.refl s3)
  have h5 : NoNew s4 s5 := ((NoNew.refl s4).clearSegs _).onWays _ _
  have h := h1.trans (h2.trans (h3.trans (h4.trans h5)))
  clear_value s5
  refine ⟨h.trans ⟨{ Fewer.refl s5 with tlb := filter_map_subset _ _ s5.trn.tlb }, rfl, rfl⟩, ?_⟩
  exact not_mem_filter_vd _ v s5.trn.tlb

/-! Host calls. -/

theorem resetRpc_ends (s : State) (v : Nat) : NoNew s (resetRpc s v) ∧ ∃ r : RpcVd, rpcOf (resetRpc s v) v = { r with key := none, rx := 0, slots := [] } := by
  unfold resetRpc
  extract_lets reset s1 s2 s3 s4 s5 s6
  have hr : ∀ {x : State} (u : Nat) (e : Nat × RpcReq), NoNew s x → NoNew s (reset u x e) := fun u e hx => hx.slotSend _ _ _ _ _
  have h2 : NoNew s s2 := NoNew.foldl (fun _ e hx => hr 0 e hx) _ (NoNew.foldl (fun _ e hx => hr v e hx) _ (NoNew.refl s))
  have h4 : NoNew s s4 := (NoNew.foldl (fun _ x hx => hx.hReply _ _ _ _) _ h2).onSch _
  have h6 : NoNew s s6 := (NoNew.foldl (fun _ x hx => hx.hReply _ _ _ _) _ h4).onRpc _
  refine ⟨h6.onRpcVd _ _, { rpcOf s6 v with high := 0, map := 0, result := 0 }, ?_⟩
  simp [rpcOf, onRpcVd, State.onRpc, Tab.at, Tab.find_put_self]

theorem Fewer.newKey (s : State) (k : Nat) : Fewer s (Machine.newKey s k) := Fewer.same rfl
theorem rpcOf_of_newKey (s : State) (k v : Nat) : rpcOf (newKey s k) v = rpcOf s v := rfl
theorem vds_newKey (s : State) (k : Nat) : (newKey s k).vds = s.vds := rfl
theorem keyGen_newKey {s t : State} (h : t.trn.keyGen = s.trn.keyGen) (k : Nat) : (newKey t k).trn.keyGen = (newKey s k).trn.keyGen := by
  simp only [newKey, State.onTrn, h]
theorem resetState_ends (s : State) (v : Nat) : Fewer s (resetState s v) ∧ (resetState s v).vds.vd = s.vds.vd
    ∧ (resetState s v).trn.keyGen = (newKey s (vdRec s v).kid.toNat).trn.keyGen
    ∧ ∃ r : RpcVd, rpcOf (resetState s v) v = { r with key := none, rx := 0, slots := [] } := by
  unfold resetState
  extract_lets s1 s2 s3 s4 s5 s6 s7
  have h1 : NoNew s s1 := (NoNew.refl s).onLoc _
  have h3 : NoNew s1 s3 := (NoNew.refl s1).same rfl
  have h5 : NoNew s3 s5 := ((NoNew.refl s3).onLoc _).onRas _
  have h7 : NoNew s5 s7 := ((NoNew.refl s5).same (t := s6) rfl).onOrd _
  obtain ⟨h8, hrpc⟩ := resetRpc_ends s7 v
  have ha := (h1.trans h3).trans (h5.trans h7)
  have h := ha.trans h8
  have hk : (vdRec s7 v).kid = (vdRec s v).kid := by rw [vdRec, vdRec, ha.regs]
  rw [hk, vds_newKey, rpcOf_of_newKey]
  exact ⟨h.toFewer.trans (Fewer.newKey _ _), h.regs, keyGen_newKey h.keys _, hrpc⟩
end
end Sys2Proof.Machine
end

section
/-! PROOFS. The life of a virtual device: BUILD, RUN, DESTROY and RESET (R79, R81, R84). -/
namespace Sys2Proof.Machine

/-- The registers of one VD are given and the other VDs' are left. -/
def TakesRec (s : State) (v : Nat) (t : State) (x : VdRec) : Prop := vdRec t v = x ∧ ∀ u, u ≠ v → vdRec t u = vdRec s u

section
variable {s t : State} {v k : Nat}

theorem takesRec_setVd (hv : v < 16) (f : VdRec → VdRec) : TakesRec s v (setVd s v f) (f (vdRec s v)) :=
  ⟨vdRec_setVd_self s v f hv, fun _ hu => vdRec_setVd_ne s f hu⟩
theorem takesRec_refuse (hv : v < 16) (n : Nat) :
    TakesRec s v (vdRefuse s v n) { vdRec s v with refused := true, reason := BitVec.ofNat 8 n } := takesRec_setVd hv _
theorem TakesRec.of_vds {x : VdRec} {t' : State} (h : TakesRec s v t x) (e : t'.vds = t.vds) : TakesRec s v t' x := by
  obtain ⟨self, rest⟩ := h
  exact ⟨(vdRec_congr e v).trans self, fun u hu => (vdRec_congr e u).trans (rest u hu)⟩

theorem vdRec_of_regs (h : t.vds.vd = s.vds.vd) (v : Nat) : vdRec t v = vdRec s v := by rw [vdRec, vdRec, h]
theorem ne_of_not_mem_map {α : Type} {p : α → Nat} {l : List α} (h : v ∉ l.map p) : ∀ x ∈ l, p x ≠ v :=
  fun _ hx e => h (e ▸ List.mem_map_of_mem hx)

/-! BUILD. -/

theorem trn_setVd (s : State) (v : Nat) (f : VdRec → VdRec) : (setVd s v f).trn = s.trn := rfl

/-- The free key identifier is the least from 1 to 63 that no VD and no window uses. -/
theorem freeKid_some (h : freeKid s = some k) : 1 ≤ k ∧ k ≤ 63 ∧ kidUsed s k = false ∧ ∀ j, 1 ≤ j → j < k → kidUsed s j = true := by
  unfold freeKid rangeFrom at h
  rw [List.find?_map] at h
  obtain ⟨i, hi, rfl⟩ := Option.map_eq_some_iff.mp h
  obtain ⟨hm, hk, hl⟩ := List.find?_range_eq_some.mp hi
  have hi63 := List.mem_range.mp hk
  refine ⟨by omega, by omega, by simpa using hm, fun j h1 hj => ?_⟩
  have hu := hl (j - 1) (by omega)
  simpa [show 1 + (j - 1) = j by omega] using hu

theorem vdBuild_free (hs : vdState s v = .empty) (hk : freeKid s = some k) :
    vdBuild s v = newKey (setVd s v (fun x => { x with st := .built, keyValid := true, kid := BitVec.ofNat 6 k })) k := by
  simp only [vdBuild, hs, hk]
theorem vdBuild_full (hs : vdState s v = .empty) (hk : freeKid s = none) : vdBuild s v = vdRefuse s v 5 := by
  simp only [vdBuild, hs, hk]
theorem vdBuild_busy (hs : vdState s v = .built ∨ vdState s v = .run) : vdBuild s v = vdRefuse s v 4 := by
  rcases hs with hs | hs <;> simp only [vdBuild, hs]
theorem keyGen_newKey_self (s : State) (k : Nat) : (newKey s k).trn.keyGen.at 0 k = s.trn.keyGen.at 0 k + 1 := by
  simp [newKey, State.onTrn, Tab.at]

/-! RUN. -/

theorem vdRun_passes (hs : vdState s v = .built) (hr : runReason s v = 0) : vdRun s v = enterRun s v := by
  simp only [vdRun, hs, hr, if_true]
theorem vdRun_fails (hs : vdState s v = .built) (hr : runReason s v ≠ 0) : vdRun s v = vdRefuse s v (runReason s v) := by
  simp only [vdRun, hs, if_neg hr]
theorem vdRun_other (hs : vdState s v = .empty ∨ vdState s v = .run) : vdRun s v = vdRefuse s v 4 := by
  rcases hs with hs | hs <;> simp only [vdRun, hs]

theorem Tab.find_keep {α : Type} (f : Nat → Bool) (k : Nat) (t : Tab α) : (t.keep f).find k = if f k then t.find k else none := by
  induction t with
  | nil => simp [Tab.keep]
  | cons e t ih =>
    by_cases hf : f e.1 <;> by_cases he : e.1 = k <;> simp_all [Tab.keep, Tab.find]

/-- A number in the ranges of two VDs makes the ranges overlap. -/
theorem overlap_of_inRange {x a n b m : Nat} (h : inRange x a n = true) (h' : inRange x b m = true) : overlap a n b m = true := by
  simp only [inRange, overlap, decide_eq_true_eq] at *
  omega
/-- Once RUN passes, no running VD holds an accumulator tile of the VD's range. -/
theorem not_othersHold_tile (hr : runReason s v = 0) {x : Nat} (hx : inRange x (accBase s v) (accCnt s v) = true) :
    othersHold s v x accBase accCnt = false := by
  rw [othersHold, Bool.eq_false_iff, Ne, List.any_eq_true]
  rintro ⟨u, hu, h⟩
  simp only [Bool.and_eq_true, bne_iff_ne, beq_iff_eq] at h
  obtain ⟨⟨hne, hrun⟩, hin⟩ := h
  have ho := overlap_of_inRange hx hin
  have hc : quotaCross s v u = true := by simp [quotaCross, ho]
  have ha : ((List.range 16).any (fun u => u != v && (vdState s u == .run || vdState s u == .resetting) && quotaCross s v u)) = true :=
    List.any_eq_true.mpr ⟨u, hu, by simp [hne, hrun, hc]⟩
  rw [runReason, if_pos ha] at hr
  split_ifs at hr

/-- What a VD has of the tiles is read in its cluster register and the slice pairs. -/
theorem tileIn_congr (hc : (vdRec t v).clu = (vdRec s v).clu) (hp : t.vds.slices = s.vds.slices) (x : Nat) : tileIn t v x = tileIn s v x := by
  simp only [tileIn, cluHas, inOwnRegion, pairAt, accBase, accCnt, hc, hp]
theorem othersHold_congr (h : ∀ u, u ≠ v → vdRec t u = vdRec s u) (x : Nat) : othersHold t v x accBase accCnt = othersHold s v x accBase accCnt := by
  refine congrArg (List.any (List.range 16)) (funext fun u => ?_)
  by_cases hu : u = v
  · simp [hu]
  · simp only [vdState, accBase, accCnt, h u hu]
/-- The tiles a VD holds and no running VD does are +0 once cleared. -/
theorem residue_clearResidue (hin : inRange (k / 4096 % 16) (accBase s v) (accCnt s v) = true) (ht : tileIn s v (k / 4096 % 16) = true)
    (ho : othersHold s v (k / 4096 % 16) accBase accCnt = false) : (clearResidue s v).loc.residue.at 0 k = 0 := by
  simp [clearResidue, State.onLoc, Tab.at, Tab.find_keep, hin, ht, ho]

theorem vds_clearResidue (s : State) (v : Nat) : (clearResidue s v).vds = s.vds := rfl

/-- The running VD before its tiles are cleared. -/
def running (s : State) (v : Nat) : State :=
  (dropLent (setVd s v (fun x => { x with st := .run })) v).onLq fun q => { q with toggles := q.toggles.keep (fun k => k / 4 != v) }
theorem enterRun_eq (s : State) (v : Nat) : enterRun s v = clearResidue (running s v) v := rfl
theorem vdRec_onLq (s : State) (f : LqState → LqState) (u : Nat) : vdRec (s.onLq f) u = vdRec s u := rfl
theorem vdRec_running (s : State) (v u : Nat) : vdRec (running s v) u = vdRec (setVd s v (fun x => { x with st := .run })) u := by
  rw [running, vdRec_onLq, vdRec_dropLent]
theorem takesRec_running (hv : v < 16) : TakesRec s v (running s v) { vdRec s v with st := .run } := by
  simp only [TakesRec, vdRec_running]
  exact takesRec_setVd hv _

theorem takesRec_enterRun (hv : v < 16) : TakesRec s v (enterRun s v) { vdRec s v with st := .run } :=
  (takesRec_running hv).of_vds (vds_clearResidue ..)
theorem lent_enterRun (hk : k % 16 = v) : (enterRun s v).vds.lent.find k = none := by
  show (Tab.keep s.vds.lent (fun k => k % 16 != v)).find k = none
  simp [Tab.find_keep, hk]
theorem residue_enterRun (hv : v < 16) (hr : runReason s v = 0) (hin : inRange (k / 4096 % 16) (accBase s v) (accCnt s v) = true)
    (ht : tileIn s v (k / 4096 % 16) = true) : (enterRun s v).loc.residue.at 0 k = 0 := by
  obtain ⟨self, rest⟩ := takesRec_running (s := s) hv
  have hclu : (vdRec (running s v) v).clu = (vdRec s v).clu := by rw [self]
  rw [enterRun_eq]
  refine residue_clearResidue ?_ ((tileIn_congr hclu rfl _).trans ht) ((othersHold_congr rest _).trans (not_othersHold_tile hr hin))
  rwa [accBase, accCnt, hclu]

/-! DESTROY. -/

theorem vdDestroy_idle (hs : vdState s v = .built) (hf : ∀ e ∈ s.trn.fot, ¬(e.2.st = .owned ∧ e.2.owner = v)) :
    vdDestroy s v = setVd s v (fun x => { x with st := .empty, keyValid := false, kid := 0 }) := by
  have ha : (s.trn.fot.any fun e => e.2.st == .owned && e.2.owner == v) = false := by simpa using hf
  simp only [vdDestroy, hs, ha, Bool.false_eq_true, if_false]
theorem vdDestroy_owner (hs : vdState s v = .built) (hf : ∃ e ∈ s.trn.fot, e.2.st = .owned ∧ e.2.owner = v) : vdDestroy s v = vdRefuse s v 6 := by
  have ha : (s.trn.fot.any fun e => e.2.st == .owned && e.2.owner == v) = true := by simpa using hf
  simp only [vdDestroy, hs, ha, if_true]
theorem vdDestroy_other (hs : vdState s v = .empty ∨ vdState s v = .run) : vdDestroy s v = vdRefuse s v 4 := by
  rcases hs with hs | hs <;> simp only [vdDestroy, hs]

/-! RESET. -/

/-- The VD in RESETTING, as its reset takes it up. -/
def resetting (s : State) (v : Nat) : State := setVd s v (fun x => { x with st := .resetting })

theorem Fewer.setVd (s : State) (v : Nat) (f : VdRec → VdRec) : Fewer s (Machine.setVd s v f) := Fewer.same rfl
theorem rpcOf_setVd (s : State) (v u : Nat) (f : VdRec → VdRec) : rpcOf (setVd s v f) u = rpcOf s u := rfl

/-- What a reset leaves of the VD however far it had come: it is built, holds no slot, key or buffer of the network, no translation, and
its key is of a new generation. -/
theorem resetTail_ends (hv : v < 16) (h : NoNew (resetting s v) t) :
    Fewer t (flushRecs (resetTail t v)) ∧ vdState (flushRecs (resetTail t v)) v = .built
      ∧ ((rpcOf (flushRecs (resetTail t v)) v).slots = [] ∧ (rpcOf (flushRecs (resetTail t v)) v).key = none
        ∧ (rpcOf (flushRecs (resetTail t v)) v).rx = 0)
      ∧ v ∉ (flushRecs (resetTail t v)).trn.tlb.map (·.vd)
      ∧ (flushRecs (resetTail t v)).trn.keyGen.at 0 (vdRec s v).kid.toNat = s.trn.keyGen.at 0 (vdRec s v).kid.toNat + 1 := by
  obtain ⟨hf, hgone⟩ := resetFrames_ends t v
  obtain ⟨hfew, -, hkey, r, hrpc⟩ := resetState_ends (resetFrames t v) v
  have hall := h.trans hf
  have hflush := (NoNew.refl (resetTail t v)).flushRecs
  have htail : Fewer (resetState (resetFrames t v) v) (flushRecs (resetTail t v)) := (Fewer.setVd _ v _).trans hflush.toFewer
  have hkid : (vdRec (resetFrames t v) v).kid = (vdRec s v).kid := by
    rw [vdRec_of_regs hall.regs, resetting, vdRec_setVd_self _ _ _ hv]
  have hr : rpcOf (flushRecs (resetTail t v)) v = { r with key := none, rx := 0, slots := [] } := by
    rw [rpcOf_flushRecs, resetTail, rpcOf_setVd, hrpc]
  have hgen : (flushRecs (resetTail t v)).trn.keyGen = (newKey (resetting s v) (vdRec s v).kid.toNat).trn.keyGen := by
    rw [hflush.keys, resetTail, trn_setVd, hkey, hkid, keyGen_newKey hall.keys]
  refine ⟨hf.toFewer.trans (hfew.trans htail), ?_, by simp only [hr, and_self], fun hx => hgone (hfew.tlb (htail.tlb hx)), ?_⟩
  · rw [vdState, vdRec_flushRecs, resetTail, vdRec_setVd_self _ _ _ hv]
  · rw [hgen, keyGen_newKey_self, resetting, trn_setVd]

theorem vdReset_run (h0 : v ≠ 0) (hs : vdState s v = .run) : vdReset s v = resetTail (resetEngines (resetGroups (resetting s v) v) v) v := by
  simp only [vdReset, if_neg h0, hs, resetAll, resetting]
theorem vdReset_built (h0 : v ≠ 0) (hs : vdState s v = .built) : vdReset s v = resetTail (resetPairs (resetting s v) v) v := by
  simp only [vdReset, if_neg h0, hs, resetting]
theorem vdReset_empty (h0 : v ≠ 0) (hs : vdState s v = .empty) : vdReset s v = vdRefuse s v 4 := by
  simp only [vdReset, if_neg h0, hs]
theorem vdReset_none (h : v = 0 ∨ vdState s v = .resetting) : vdReset s v = s := by
  unfold vdReset
  rcases h with h | h
  · rw [if_pos h]
  · simp only [h, ite_self]

/-- A VD in RUN is left with no work, no collective and no domain. -/
theorem vdReset_run_ends (hv : v < 16) (h0 : v ≠ 0) (hs : vdState s v = .run) :
    Idle (flushRecs (vdReset s v)) v ∧ Alone (flushRecs (vdReset s v)) v := by
  rw [vdReset_run h0 hs]
  obtain ⟨hg, hidle⟩ := resetGroups_ends (resetting s v) v
  obtain ⟨he, halone⟩ := resetEngines_ends (resetGroups (resetting s v) v) v
  obtain ⟨hfew, -⟩ := resetTail_ends hv (hg.trans he)
  exact ⟨hidle.mono (he.toFewer.trans hfew), halone.mono hfew⟩

/-- The reset of a VD in RUN or BUILT ends in its last steps, with what went before adding nothing. -/
theorem vdReset_tail (h0 : v ≠ 0) (hs : vdState s v = .run ∨ vdState s v = .built) :
    ∃ t, NoNew (resetting s v) t ∧ vdReset s v = resetTail t v := by
  rcases hs with hs | hs
  · exact ⟨_, (resetGroups_ends _ v).1.trans (resetEngines_ends _ v).1, vdReset_run h0 hs⟩
  · exact ⟨_, (NoNew.refl _).resetPairs v, vdReset_built h0 hs⟩

/-! The commands. -/

theorem vdCmd_build (h0 : v ≠ 0) : vdCmd s v 1 = vdBuild s v := by rw [vdCmd, if_neg h0]; rfl
theorem vdCmd_run (h0 : v ≠ 0) : vdCmd s v 2 = vdRun s v := by rw [vdCmd, if_neg h0]; rfl
theorem vdCmd_reset (h0 : v ≠ 0) : vdCmd s v 3 = vdReset s v := by rw [vdCmd, if_neg h0]; rfl
theorem vdCmd_destroy (h0 : v ≠ 0) : vdCmd s v 4 = vdDestroy s v := by rw [vdCmd, if_neg h0]; rfl
/-- VD 0, and a VD in RESETTING, take no command. -/
theorem vdCmd_ignored (h : v = 0 ∨ vdState s v = .resetting) (c : Nat) : vdCmd s v c = s := by
  unfold vdCmd
  split_ifs with h0 h1 h2 h3 h4
  · rfl
  · simp only [vdBuild, h.resolve_left h0]
  · simp only [vdRun, h.resolve_left h0]
  · exact vdReset_none h
  · simp only [vdDestroy, h.resolve_left h0]
  · rfl

end
end Sys2Proof.Machine
namespace Sys2Proof
open Machine

/-- Settles O37. What RESET must not leave is gone once its filters have run, and no later step of it brings any back: `NoNew`, which every
operation that the reset calls keeps. -/
theorem virtualDeviceLife : Obligations.VirtualDeviceLife := by
  unfold Obligations.VirtualDeviceLife
  intro s i v r rec_ refused
  have hv : v < 16 := s.sch.sel.vd.isLt
  refine ⟨?_, fun h => congrArg (fun t => Host.Outcome.next (flushRecs t)) (vdCmd_ignored h 3), fun h0 => ?_⟩
  · rintro (rfl | rfl | rfl) h <;> exact congrArg Host.Outcome.next (vdCmd_ignored h _)
  have build : exec .vdBuild s = .next (vdBuild s v) := congrArg Host.Outcome.next (vdCmd_build h0)
  have run : exec .vdRun s = .next (vdRun s v) := congrArg Host.Outcome.next (vdCmd_run h0)
  have reset : exec .vdReset s = .next (flushRecs (vdReset s v)) := congrArg (fun t => Host.Outcome.next (flushRecs t)) (vdCmd_reset h0)
  have destroy : exec .vdDestroy s = .next (vdDestroy s v) := congrArg Host.Outcome.next (vdCmd_destroy h0)
  unfold Goes
  simp only [build, run, reset, destroy, Host.Outcome.next.injEq, exists_eq_left']
  refine ⟨fun hs k hk => ?_, fun hs hk => ?_, fun hs => ?_, fun hs hr => ?_, fun hs hr => ?_, fun hs => ⟨?_, ?_⟩, fun hs hf => ?_, fun hs hf => ?_,
    fun hs => ?_, fun hs => ?_, fun hs => ?_⟩
  · obtain ⟨h1, h63, hu, hl⟩ := freeKid_some hk
    rw [vdBuild_free hs hk]
    refine ⟨h1, h63, hu, hl, (takesRec_setVd hv _).of_vds (vds_newKey ..), ?_⟩
    rw [keyGen_newKey_self, trn_setVd]
  · rw [vdBuild_full hs hk]
    exact takesRec_refuse hv 5
  · rw [vdBuild_busy hs]
    exact takesRec_refuse hv 4
  · rw [vdRun_passes hs hr]
    exact ⟨takesRec_enterRun hv, fun k hk => lent_enterRun hk, fun k => residue_enterRun hv hr⟩
  · rw [vdRun_fails hs hr]
    exact takesRec_refuse hv _
  · rw [vdRun_other hs]
    exact takesRec_refuse hv 4
  · rw [vdDestroy_other hs]
    exact takesRec_refuse hv 4
  · rw [vdDestroy_idle hs hf]
    exact takesRec_setVd hv _
  · rw [vdDestroy_owner hs hf]
    exact takesRec_refuse hv 6
  · obtain ⟨t, ht, e⟩ := vdReset_tail h0 (.inl hs)
    obtain ⟨⟨groups, blocks, launches, tasks⟩, colls, domains⟩ := vdReset_run_ends hv h0 hs
    obtain ⟨-, hst, -⟩ := resetTail_ends hv ht
    exact ⟨e ▸ hst, ne_of_not_mem_map groups, ne_of_not_mem_map blocks, ne_of_not_mem_map launches, ne_of_not_mem_map tasks, domains,
      ne_of_not_mem_map colls⟩
  · obtain ⟨t, ht, e⟩ := vdReset_tail h0 hs
    obtain ⟨-, hst, ⟨hslots, hkey, hrx⟩, htlb, hgen⟩ := resetTail_ends hv ht
    rw [e]
    exact ⟨hst, hslots, hkey, hrx, ne_of_not_mem_map htlb, hgen⟩
  · rw [vdReset_empty h0 hs]
    exact (takesRec_refuse hv 4).of_vds (flushRecs_vds _)
end Sys2Proof
end

section
/-! PROOFS. Instructions whose threads act one after another on the machine (R8, R253): where each thread's part completes, the instruction
does. -/
namespace Sys2Proof.Machine

section
variable {s : State} {i : Instr} {need : Priv} {c : Convoy} {g : Group} {h : Hdr}

/-- Where an opcode runs, its body acts for the threads whose guard[0] is 1, and every thread of the convoy has its end. -/
theorem Runs.runOp_eq (R : Runs s i need c g h) (b : Body) :
    runOp i need b s = .next (goEnds (b s g c (acting s c g h)).1 c (b s g c (acting s c g h)).2) :=
  runOp_body R.ctx R.grp R.hdr R.ok R.priv

end

/-- A body run thread by thread does the threads' parts in turn. -/
theorem memBody_of_inTurn {F : State → State → Group → Nat → State × Done} {f : State → Nat → Option (State × Done)} {s0 : State} {g : Group}
    (hf : ∀ x u r, f x u = some r → F s0 x g u = r) : ∀ (us : List Nat) (s : State) (l0 : List (Nat × Done)) {m : State} {l : List (Nat × Done)},
    inTurn f us s = some (m, l) →
    us.foldl (fun (a : State × List (Nat × Done)) t => let r := F s0 a.1 g t; (r.1, a.2 ++ [(t, r.2)])) (s, l0) = (m, l0 ++ l)
  | [], s, l0, m, l, h => by cases h; simp
  | u :: us, s, l0, m, l, h => by
    obtain ⟨r, hr, hrest⟩ := Option.bind_eq_some_iff.mp h
    obtain ⟨q, hq, e⟩ := Option.map_eq_some_iff.mp hrest
    cases e
    rw [List.foldl_cons, hf s u r hr]
    simpa using memBody_of_inTurn hf us r.1 (l0 ++ [(u, r.2)]) hq

/-- The ends of parts in turn that all go on to the next slot. -/
theorem ends_of_inTurn_next {f : State → Nat → Option State} : ∀ (us : List Nat) (s : State) {m : State} {l : List (Nat × Done)},
    inTurn (fun x u => (f x u).map (·, .next)) us s = some (m, l) → ∀ e ∈ l, e.2 = .next
  | [], s, m, l, h => by cases h; simp
  | u :: us, s, m, l, h => by
    obtain ⟨r, hr, hrest⟩ := Option.bind_eq_some_iff.mp h
    obtain ⟨q, hq, e⟩ := Option.map_eq_some_iff.mp hrest
    obtain ⟨y, -, rfl⟩ := Option.map_eq_some_iff.mp hr
    cases e
    simpa using ends_of_inTurn_next us y hq

/-- Ends that all go on are those of a convoy of which no thread is named. -/
theorem withNext_of_next (tids : List Nat) {l : List (Nat × Done)} (h : ∀ e ∈ l, e.2 = .next) : withNext tids l = withNext tids [] := by
  rw [withNext_nil]
  refine List.map_congr_left fun t _ => ?_
  cases hl : l.find? (fun e => e.1 == t) with
  | none => rfl
  | some e => simp [h e (List.mem_of_find?_eq_some hl)]

/-- An opcode of such a body, none of whose completed parts stops its thread. -/
theorem doesEach_of_memBody {s : State} {i : Instr} {need : Priv} {F : State → State → Group → Nat → State × Done}
    {f : State → Group → State → Nat → Option State} {ok : Body → Body} (hi : exec i s = runOp i need (ok (memBody F)) s)
    (hok : ok (memBody F) = memBody F) (hf : ∀ g x u y, f s g x u = some y → F s x g u = (y, .next)) : DoesEach s i need f := by
  intro c g h m l R ht
  have hb : memBody F s g c (acting s c g h) = (m, l) :=
    memBody_of_inTurn (fun x u r hr => by
      obtain ⟨y, hy, rfl⟩ := Option.map_eq_some_iff.mp hr
      exact hf g x u y hy) _ s [] ht
  rw [hi, hok, R.runOp_eq, hb, goOn, goEnds, goEnds, withNext_of_next _ (ends_of_inTurn_next _ _ ht)]

end Sys2Proof.Machine
end

section
/-! PROOFS. The arming of tasks, and PHASE (R101, R102, R104, R106, R375 to R377). -/
namespace Sys2Proof.Machine

/-! Counters and ready queues. -/

@[simp] theorem counterAt_onCounter_self (s : State) (h : Nat) (f : Counter → Counter) : counterAt (onCounter s h f) h = f (counterAt s h) :=
  Tab.at_write_self ..
@[simp] theorem readyOf_setReady_self (s : State) (v d : Nat) (l : List Ready) : readyOf (setReady s v d l) v d = l := Tab.at_write_self ..
@[simp] theorem counterAt_enqueue (s : State) (v d : Nat) (r : Ready) (h : Nat) : counterAt (enqueue s v d r) h = counterAt s h := rfl

/-- Does a waiting entry of a queue yield its place to one that joins now: a counter that became READY in this cycle under a higher handle? -/
def Ready.yields (x r : Ready) (cycle : Nat) : Bool :=
  r.resume.isNone && x.resume.isNone && x.joined == cycle && decide ((r.handle.getD 0).toNat < (x.handle.getD 0).toNat)

/-- One that joins stands before the first entry that yields to it. -/
theorem readyOf_enqueue_self (s : State) (v d : Nat) (r : Ready) : readyOf (enqueue s v d r) v d =
    (readyOf s v d).takeWhile (fun x => !x.yields r s.sch.cycle)
      ++ { r with joined := s.sch.cycle } :: (readyOf s v d).dropWhile (fun x => !x.yields r s.sch.cycle) := readyOf_setReady_self ..

/-- What joins the ready queue for a counter. -/
def Counter.entry (c : Counter) (h : Nat) : Ready :=
  { pri := pkPri c.packet, handle := some (BitVec.ofNat 32 h), packet := c.packet, vd := c.vd, asid := c.asid, resume := none, joined := 0 }

theorem counterReady_eq (s : State) (h : Nat) : counterReady s h = enqueue (onCounter s h (fun c => { c with st := .ready, value := 0 }))
    (counterAt s h).vd (pkTarget (counterAt s h).packet (bits h 31 30)) ((counterAt s h).entry h) := by
  simp only [counterReady, counterAt_onCounter_self, Counter.entry]

/-- A counter that becomes READY keeps its packet and owner. -/
theorem counterAt_counterReady_self (s : State) (h : Nat) : counterAt (counterReady s h) h = { counterAt s h with st := .ready, value := 0 } := by
  rw [counterReady_eq, counterAt_enqueue, counterAt_onCounter_self]

/-- It stands in the ready queue of its packet's die. -/
theorem readyOf_counterReady (s : State) (h : Nat) {d : Nat} (hd : pkTarget (counterAt s h).packet (bits h 31 30) = d) :
    readyOf (counterReady s h) (counterAt s h).vd d =
      (readyOf s (counterAt s h).vd d).takeWhile (fun x => !x.yields ((counterAt s h).entry h) s.sch.cycle)
      ++ { (counterAt s h).entry h with joined := s.sch.cycle }
      :: (readyOf s (counterAt s h).vd d).dropWhile (fun x => !x.yields ((counterAt s h).entry h) s.sch.cycle) := by
  rw [counterReady_eq, hd]
  exact readyOf_enqueue_self ..

theorem Ready.yields_iff (x : Ready) (c : Counter) {h : Nat} (hh : h < 2 ^ 32) (cycle : Nat) :
    x.yields (c.entry h) cycle = true ↔ x.resume = none ∧ x.joined = cycle ∧ h < (x.handle.getD 0).toNat := by
  have hn : (BitVec.ofNat 32 h).toNat = h := Nat.mod_eq_of_lt hh
  simp only [Ready.yields, Counter.entry, Option.isNone_none, Option.getD_some, hn, Bool.true_and, Bool.and_eq_true, decide_eq_true_eq,
    Option.isNone_iff_eq_none, beq_iff_eq, and_assoc]

/-- A list cut before the first element that passes a test. -/
theorem takeWhile_dropWhile_not {α : Type} (p : α → Bool) (l : List α) :
    l = l.takeWhile (fun x => !p x) ++ l.dropWhile (fun x => !p x) ∧ (∀ x ∈ l.takeWhile (fun x => !p x), ¬p x = true)
      ∧ ∀ x, (l.dropWhile (fun x => !p x)).head? = some x → p x = true := by
  refine ⟨(List.takeWhile_append_dropWhile).symm, fun x hx => by simpa using List.mem_takeWhile_imp hx, fun x hx => ?_⟩
  have := List.head?_dropWhile_not (fun x => !p x) l
  rw [hx] at this
  simpa using this

/-- The arm of a counter with a count that is not 0. -/
theorem armCounter_armed (s : State) (v asid h : Nat) {count : Nat} (p : Bytes) (hc : count ≠ 0) : armCounter s v asid h count p =
    onCounter s h (fun _ => { st := .armed, value := BitVec.ofNat 16 count, poison := false, packet := p, vd := v, asid := asid }) := if_neg hc

/-- The arm with a count of 0. -/
theorem armCounter_ready (s : State) (v asid h : Nat) (p : Bytes) : armCounter s v asid h 0 p =
    counterReady (onCounter s h (fun _ => { st := .armed, value := 0, poison := false, packet := p, vd := v, asid := asid })) h := rfl

/-! The instructions. -/

/-- A thread's part of TASK.POST and TASK.DEP, with its status in d (R375, R376). -/
def taskPart (d : Opnd) (clrp : Bool) (s : State) (g : Group) (u va k count : Nat) : Option State :=
  if handleOk s g.vd k = false then some (writeOp s g u d 2 1)
  else if clrp = true then
    if (counterAt s k).st = .free ∧ (counterAt s k).poison = true then
      some (writeOp (onCounter s k (fun c => { c with poison := false })) g u d 0 1)
    else some (writeOp s g u d 1 1)
  else if 65535 < count then some (writeOp s g u d 5 1)
  else okGot (armThread s g u va k count) fun x st => writeOp x g u d st 1

theorem taskArm_completes {s : State} {g : Group} {u : Nat} {clrp : Bool} {va k count : Nat} {d : Opnd} {y : State}
    (h : taskPart d clrp s g u va k count = some y) : ∃ x st, taskArm s g u clrp va k count = (x, .ok st) ∧ writeOp x g u d st 1 = y := by
  unfold taskPart at h
  unfold taskArm
  by_cases hk : handleOk s g.vd k = false
  · rw [if_pos hk] at h
    cases h
    exact ⟨s, 2, by rw [hk]; rfl, rfl⟩
  rw [if_neg hk] at h
  rw [if_neg (by simpa using hk)]
  by_cases hp : clrp = true
  · rw [if_pos hp] at h ⊢
    dsimp only
    split_ifs at h ⊢
    · cases h; exact ⟨_, _, rfl, rfl⟩
    · cases h; exact ⟨_, _, rfl, rfl⟩
  · rw [if_neg hp] at h ⊢
    split_ifs at h ⊢
    · cases h; exact ⟨_, _, rfl, rfl⟩
    · cases ha : armThread s g u va k count with
      | mk x r =>
        rw [ha] at h
        cases r with
        | error e => cases h
        | ok st => cases h; exact ⟨_, _, rfl, rfl⟩

/-- A body of such parts. -/
theorem doesEach_taskBody {s : State} {i : Instr} {d a b : Opnd} {clrp : Bool} {count : State → Group → Nat → Nat} {ok : Body → Body}
    (hi : exec i s = runOp i .u (ok (taskBody d a b clrp count)) s) (hok : ok (taskBody d a b clrp count) = taskBody d a b clrp count) :
    DoesEach s i .u (fun s g x u => taskPart d clrp x g u (readOp s g u a 2) (readOp s g u b 1) (count s g u)) :=
  doesEach_of_memBody hi hok fun g x u y hy => by
    obtain ⟨z, st, ht, rfl⟩ := taskArm_completes hy
    rw [ht]

/-- PHASE of a phased task holds its threads (R106, R377). -/
theorem execPhase_phased {s : State} {h h' : Hdr} {c : Convoy} {g : Group} (R : Runs s (.phase h) .u c g h') (hp : phased s g = true) :
    execPhase h s = .next (flushRecs (reap (goEnds s c ((acting s c g h').map (fun u => (u, .wait .phase)))))) := by
  unfold execPhase
  dsimp only
  rw [R.runOp_eq]
  simp only [hp, if_true]
  rfl

end Sys2Proof.Machine

namespace Sys2Proof
open Machine

/-- Settles O18: each instruction's body is `taskArm` thread by thread, and an arm with count 0 puts its counter before the first entry of its
queue that a later counter of the cycle stands in. -/
theorem taskInstructions : Obligations.TaskInstructions := by
  unfold Obligations.TaskInstructions
  intro s h m d a b c imm arm later
  refine ⟨?_, ?_, fun hi hc => ?_, fun v asid k count p hcount hk => ⟨fun hc => ?_, ?_⟩, fun c g h' R hp => execPhase_phased R hp⟩
  · exact doesEach_taskBody (ok := id) rfl rfl
  · exact doesEach_taskBody (ok := id) rfl rfl
  · have hok : (decide (imm.toNat < 65536) && (!m.clrp || imm == 0)) = true := by
      cases hm : m.clrp with
      | false => simp; omega
      | true => simp [hc hm]
    exact doesEach_taskBody (ok := immBody _ (.taskDepImm h m d a b imm)) rfl (funext fun _ => by rw [hok]; rfl)
  · rw [armCounter_armed s v asid k p hc]
    exact ⟨counterAt_onCounter_self .., rfl⟩
  · rintro rfl
    rw [armCounter_ready]
    have hr := readyOf_counterReady (onCounter s k (fun _ => { st := .armed, value := 0, poison := false, packet := p, vd := v, asid := asid })) k
      (d := pkTarget p (bits k 31 30)) (by rw [counterAt_onCounter_self])
    rw [counterAt_counterReady_self]
    rw [counterAt_onCounter_self] at hr ⊢
    obtain ⟨cut, front, back⟩ := takeWhile_dropWhile_not (fun x : Ready => x.yields
      (Counter.entry { st := .armed, value := 0, poison := false, packet := p, vd := v, asid := asid } k) s.sch.cycle)
      (readyOf s v (pkTarget p (bits k 31 30)))
    exact ⟨rfl, _, _, cut, hr, fun x hx => mt (Ready.yields_iff x _ hk _).mpr (front x hx), fun x hx => (Ready.yields_iff x _ hk _).mp (back x hx)⟩

end Sys2Proof
end

section
/-! PROOFS. What traps, waits that end, landing actions and the ends of work leave of the launch queues, of the decrements that wait and of the
launches (R55, R95, R105, R146, R349). -/
namespace Sys2Proof.Machine

section
variable {s t : State}
theorem lq_of_outer (h : t.outer = s.outer) : t.lq = s.lq := (congrArg State.lq h :)
theorem lq_of_rim (h : t.rim = s.rim) : t.lq = s.lq := (congrArg State.lq h :)
theorem lq_of_aside (h : t.aside = s.aside) : t.lq = s.lq := (congrArg State.lq h :)
theorem lq_fst {α : Type} {q : State × α} {x : State} {y : α} (e : q = (x, y)) (h : q.1.lq = s.lq) : x.lq = s.lq := by
  rw [e] at h; exact h
end

/-- A launch without what is under way of it. -/
def Launch.still (l : Launch) : Launch := { l with resident := 0, ended := 0, killing := none }
/-- The launch queues, the decrements that wait, and the launches without what is under way of them. -/
def State.accepted (s : State) : (Tab LqRegs × List Dec) × List Launch := ((s.lq.queues, s.lq.decs), s.lq.launches.map Launch.still)

theorem accepted_of_lq {s t : State} (h : t.lq = s.lq) : t.accepted = s.accepted := by rw [State.accepted, State.accepted, h]
theorem accepted_foldl {β : Type} {f : State → β → State} (hf : ∀ s b, (f s b).accepted = s.accepted) (l : List β) (s : State) :
    (l.foldl f s).accepted = s.accepted := foldl_proj State.accepted hf l s

section
variable {s t : State} (h : t.accepted = s.accepted)
include h
theorem lqOf_of_accepted (v : Nat) : lqOf t v = lqOf s v := by
  have hq : t.lq.queues = s.lq.queues := congrArg (fun x => x.1.1) h
  rw [lqOf, lqOf, hq]
theorem decs_of_accepted : t.lq.decs = s.lq.decs := congrArg (fun x => x.1.2) h
/-- Each launch is there with all but what is under way of it. -/
theorem launch_of_accepted {l : Launch} (hl : l ∈ s.lq.launches) : ∃ x ∈ t.lq.launches, x.still = l.still := by
  have hs : t.lq.launches.map Launch.still = s.lq.launches.map Launch.still := congrArg Prod.snd h
  have hm : l.still ∈ t.lq.launches.map Launch.still := hs ▸ List.mem_map_of_mem hl
  simpa using hm
theorem lid_of_accepted {x : Launch} (hx : x ∈ t.lq.launches) : ∃ l ∈ s.lq.launches, l.lid = x.lid := by
  obtain ⟨l, hl, e⟩ := launch_of_accepted h.symm hx
  exact ⟨l, hl, (congrArg Launch.lid e :)⟩
end

theorem onLaunch_accepted (s : State) (lid : Nat) {f : Launch → Launch} (hf : ∀ l, (f l).still = l.still) :
    (onLaunch s lid f).accepted = s.accepted := by
  simp only [State.accepted, onLaunch, State.onLq]
  rw [map_map_of_proj fun l => by split_ifs; exacts [hf l, rfl]]

/-! Posts, kills and traps. -/

theorem post_lq (s : State) (core v : Nat) (b : Bytes) (gid sw : Option Nat) (src : PostSrc) : (post s core v b gid sw src).1.lq = s.lq :=
  lq_of_outer (tryPost_outer ..)
theorem startKill_accepted (s : State) (v : Nat) (w : Owner) (q : Nat) : (startKill s v w q).accepted = s.accepted := by
  unfold startKill
  split
  · next lid =>
    split
    · dsimp only; split_ifs
      · rfl
      · exact onLaunch_accepted s lid fun _ => rfl
      · exact onLaunch_accepted s lid fun _ => rfl
    · rfl
  · split
    · dsimp only; split_ifs <;> rfl
    · rfl
  · rfl
  · rfl
theorem haltCore_accepted (s : State) (core pc cause : Nat) : (haltCore s core pc cause).accepted = s.accepted := by
  unfold haltCore
  split_ifs
  · rfl
  · exact accepted_foldl (fun t (g : Group) => startKill_accepted t g.vd g.owner _) _ _
theorem postTrap_accepted (s : State) (g : Group) (pc : Nat) (us : List Nat) (t : Trap) : (postTrap s g pc us t).accepted = s.accepted :=
  accepted_of_lq (post_lq ..)
theorem postMachineCheck_accepted (s : State) (g : Group) (pc : Nat) (us : List Nat) (t : Trap) :
    (postMachineCheck s g pc us t).accepted = s.accepted := by
  have hb : ∀ r : Rec, (if t.seq.isSome = true then s else offerBoth s g.vd r).accepted = s.accepted := by
    intro r; split
    · rfl
    · exact accepted_of_lq (lq_of_outer (offerBoth_outer ..))
  unfold postMachineCheck
  dsimp only
  split
  · exact (startKill_accepted ..).trans ((accepted_of_lq (post_lq ..)).trans (hb _))
  · exact (postTrap_accepted ..).trans (hb _)
  · exact hb _
theorem postAll_accepted (s : State) (g : Group) (pc : Nat) (l : List (Nat × Trap)) : (postAll s g pc l).accepted = s.accepted := by
  refine accepted_foldl (fun x q => ?_) _ s
  split
  · rfl
  · split_ifs
    · exact postMachineCheck_accepted ..
    · exact postTrap_accepted ..
theorem takeTraps_accepted (s : State) (g : Group) (pc : Nat) (l : List (Nat × Trap)) : (takeTraps s g pc l).accepted = s.accepted := by
  have hd : (dropConsumed s l).accepted = s.accepted := by
    unfold dropConsumed; dsimp only; split_ifs <;> rfl
  unfold takeTraps
  split
  · rfl
  · exact (haltCore_accepted ..).trans ((postAll_accepted ..).trans hd)
  · exact (postAll_accepted ..).trans hd

/-! WAITA read again, and what a landing window does after its decrement. -/

theorem flashRead_lq (s : State) (v va win nsid lba off n : Nat) : (flashRead s v va win nsid lba off n).1.lq = s.lq := by
  unfold flashRead
  split
  · split_ifs <;> rfl
  · rfl
theorem hear_lq (s : State) (a loc : Nat) (b : Bytes) : (hear s a loc b).lq = s.lq := lq_of_aside (hear_aside ..)
theorem waWord_lq (s : State) (g : Group) (u : Nat) (r : WaitRec) (sc : Nat) : (waWord s g u r sc).1.lq = s.lq := by
  unfold waWord
  dsimp only
  split
  · split_ifs
    · rfl
    · exact foldl_proj State.lq (fun t _ => hear_lq t ..) _ (tick s)
  · split_ifs
    · rfl
    · split
      · exact hear_lq ..
      · rfl
  · rfl
  · next win nsid lba off _ =>
    have h1 := flashRead_lq s g.vd r.va win nsid lba off (nBits r.w64 / 8)
    split <;> rename_i e <;> exact lq_fst e h1
  · split_ifs
    · rfl
    · exact hear_lq ..
    · rfl
    · rfl
  · next a _ =>
    have h1 := lq_of_aside (pointRead_aside s (nameOf s g g.own r.va a) a (nBits r.w64 / 8) sc false false)
    split <;> rename_i e <;> replace h1 := lq_fst e h1
    · exact h1
    · split_ifs
      · exact h1
      · exact (hear_lq ..).trans h1
theorem writePB_lq (s : State) (g : Group) (u : Nat) (d : Opnd) (b : Bool) : (writePB s g u d b).lq = s.lq := by
  unfold writePB writeP
  split <;> rfl
theorem waStep_lq (s : State) (g : Group) (u : Nat) (r : WaitRec) (last : Bool) : (waStep s g u r last).1.lq = s.lq := by
  have h1 := waWord_lq s g u r (scopeRank r.scope)
  unfold waStep
  dsimp only
  split <;> rename_i e <;> replace h1 := lq_fst e h1
  · exact h1
  · exact h1
  · split_ifs
    · exact (lq_of_aside (acquireIf_aside ..)).trans ((writePB_lq ..).trans h1)
    · exact (writePB_lq ..).trans h1
    · exact h1
theorem waAgain_accepted (s : State) (gid u : Nat) (last : Bool) : (waAgain s gid u last).accepted = s.accepted := by
  unfold waAgain
  split
  · rfl
  · next g _ =>
    split_ifs
    · rfl
    · split
      · next r _ =>
        have h1 := waStep_lq s g u r last
        split <;> rename_i e <;> replace h1 := accepted_of_lq (lq_fst e h1)
        · exact h1
        · exact (accepted_of_lq (lq_of_outer (flushRecs_outer _))).trans ((takeTraps_accepted ..).trans h1)
        · exact h1
      · rfl
theorem wakeSector_accepted (s : State) (a : Nat) : (wakeSector s a).accepted = s.accepted :=
  accepted_foldl (fun t _ => waAgain_accepted t ..) _ s
theorem landGo_accepted (s : State) (ep w : Nat) : (landGo s ep w).accepted = s.accepted := by
  have h1 := accepted_of_lq (lq_of_aside (gpaXlate_aside s (lwdOf s ep w).vd ((lwdOf s ep w).target + (lwdOf s ep w).flagOff) false))
  have h2 : (if bit (lwdOf s ep w).act.toNat 33 ∧ (lwdOf s ep w).kind ≠ 2 then
      match gpaXlate s (lwdOf s ep w).vd ((lwdOf s ep w).target + (lwdOf s ep w).flagOff) false with
      | (s, .ok a) => wakeSector s a
      | (s, .error _) => s
    else s).accepted = s.accepted := by
    split_ifs
    · split <;> rename_i e <;> rw [e] at h1
      · exact (wakeSector_accepted ..).trans h1
      · exact h1
    · rfl
  unfold landGo
  dsimp only
  split
  · exact (accepted_of_lq (post_lq ..)).trans h2
  · exact h2

/-! Phases, groups and blocks that end. -/

theorem emptyWindows_outer (s : State) (b : Block) : (emptyWindows s b).outer = s.outer :=
  outer_foldl (fun t (_ : Nat × Window) => onLoc_outer t _) _ s
theorem dropBlock_outer (s : State) (b : Block) : (dropBlock s b).outer = s.outer := emptyWindows_outer s b
theorem releaseBy_outer (s : State) (g : Group) (us : List Nat) (sc m : Nat) : (releaseBy s g us sc m).outer = s.outer :=
  outer_foldl (fun t _ => release_outer t ..) _ s
theorem addChan_outer (s : State) (c : Chan) (rs : List Rel) : (addChan s c rs).outer = s.outer := by
  unfold addChan; split_ifs <;> rfl
theorem engWriteP_rim (e : Eng) (p : Nat → Bool) : ∀ (f va o : Nat) (b : Bytes) (s : State), (engWriteP s e p f va o b).1.rim = s.rim
  | 0, _, _, _, _ => rfl
  | f + 1, va, o, b, s => by
    have h1 := engWrite1_rim e va (b.take (sectorPart va b.length)) ((List.range (sectorPart va b.length)).any (fun i => p (o + i))) 2 s
    unfold engWriteP
    split_ifs
    · rfl
    · dsimp only
      split <;> rename_i e1 <;> replace h1 := rim_fst e1 h1
      · exact h1
      · exact (engWriteP_rim e p f _ _ _ _).trans h1
theorem engWriteBits_lq (s : State) (e : Eng) (va : Nat) (b : Bytes) (p : Nat → Bool) : (engWriteBits s e va b p).1.lq = s.lq :=
  lq_of_rim (engWriteP_rim e p _ va 0 b s)
theorem phaseLeave_accepted (s : State) (g : Group) : (phaseLeave s g).accepted = s.accepted := by
  unfold phaseLeave
  split
  · next tid b _ _ =>
    split
    · rfl
    · next k _ =>
      split_ifs
      · rfl
      · have h1 : (releaseBy (emptyWindows s b) g (List.range g.threads.length) 3 0xFF).lq = s.lq :=
          lq_of_outer ((releaseBy_outer ..).trans (emptyWindows_outer ..))
        dsimp only
        generalize releaseBy (emptyWindows s b) g (List.range g.threads.length) 3 0xFF = x at h1 ⊢
        have h2 := (engWriteBits_lq x (swEng x (clusterOfCore g.core) k.vd k.asid) (pkBillet k.packet) (billetBytes x k g b.rowStart)
          (billetBad x k g b.rowStart)).trans h1
        split <;> rename_i e <;> replace h2 := accepted_of_lq (lq_fst e h2)
        · exact h2
        · exact (startKill_accepted ..).trans h2
        · exact (accepted_of_lq (lq_of_outer (dropBlock_outer ..))).trans h2
  · rfl
theorem endGroups_lq (s : State) : (endGroups s).lq = s.lq := by
  unfold endGroups
  dsimp only
  split_ifs
  · rfl
  · exact foldl_proj State.lq (fun t g => lq_of_outer (addChan_outer ..)) _ s
theorem endBlocks_accepted (s : State) : (endBlocks s).accepted = s.accepted := by
  refine accepted_foldl (fun t b => ?_) _ s
  have h1 := accepted_of_lq (lq_of_outer (dropBlock_outer t b))
  dsimp only
  split
  · exact (onLaunch_accepted _ _ (by intro; rfl)).trans h1
  · exact h1
theorem queueOnce_lq (s : State) (q : Turn) : (queueOnce s q).lq = s.lq := by
  unfold queueOnce; split_ifs <;> rfl
/-- What has come to its end leaves the queues, the waiting decrements and the launches. -/
theorem reap_accepted (s : State) : (reap s).accepted = s.accepted := by
  have h1 : ((s.cores.groups.filter phaseFull).foldl phaseLeave s).accepted = s.accepted := accepted_foldl phaseLeave_accepted _ s
  unfold reap
  dsimp only
  refine (accepted_foldl (fun t _ => accepted_of_lq (queueOnce_lq t _)) _ _).trans ?_
  refine (accepted_foldl (fun t _ => accepted_of_lq (queueOnce_lq t _)) _ _).trans ?_
  exact (endBlocks_accepted _).trans ((accepted_of_lq (endGroups_lq _)).trans h1)
@[simp] theorem flushRecs_lq (s : State) : (flushRecs s).lq = s.lq := lq_of_outer (flushRecs_outer s)
/-- And so does the end of a step after it. -/
theorem flushRecs_reap_accepted (s : State) : (flushRecs (reap s)).accepted = s.accepted :=
  (accepted_of_lq (flushRecs_lq _)).trans (reap_accepted s)

end Sys2Proof.Machine
end

section
/-! PROOFS. Decrements of counters, and the ends of tasks (R102 to R105). -/
namespace Sys2Proof.Machine

/-! An entry posted. -/

theorem cores_of_aside {s t : State} (h : t.aside = s.aside) : t.cores = s.cores := (congrArg State.cores h :)

/-- Where a post goes, the group that waits for it, and its entry. -/
def SvqPost.sent (p : SvqPost) : Nat × Nat × Option Nat × Bytes := (p.core, p.vd, p.gid, p.entry)

theorem tryPost_sent (s : State) (num : Nat) : (tryPost s num).cores.posts.map SvqPost.sent = s.cores.posts.map SvqPost.sent := by
  unfold tryPost
  split
  · rfl
  · next p _ =>
    have h1 := svqSlot_aside s p.core p.vd (svqOf s p.core p.vd).tail.toNat
    dsimp only
    split
    · rfl
    · split <;> rename_i e <;> replace h1 := aside_fst e h1
      · exact congrArg (fun c : CoresState => c.posts.map SvqPost.sent) (cores_of_aside h1)
      · next t a =>
        have h2 : (postRel (mscWrite (mscWrite t p.vd (kidFor t p.vd a) a (p.entry.take 32)).1 p.vd
            (kidFor (mscWrite t p.vd (kidFor t p.vd a) a (p.entry.take 32)).1 p.vd a) (a + 32) (p.entry.drop 32)).1 num).cores = s.cores :=
          cores_of_aside ((postRel_aside ..).trans ((mscWrite_aside ..).trans ((mscWrite_aside ..).trans h1)))
        simp only [noteBatch, onSvq, State.onCores, h2]
        exact map_map_of_proj (fun x => by split_ifs <;> rfl) _
/-- A post is the last of the posts, written or waiting. -/
theorem posts_post (s : State) (core v : Nat) (b : Bytes) (gid sw : Option Nat) (src : PostSrc) :
    ((post s core v b gid sw src).1.cores.posts.getLast?).map SvqPost.sent = some (core, v, gid, b) := by
  rw [← List.getLast?_map]
  refine (congrArg List.getLast? (tryPost_sent ..)).trans ?_
  simp [State.onCores, SvqPost.sent]

/-! One decrement, by its counter's state. -/

section
variable {s : State} {v asid h : Nat} {core : Option Nat} {rs : List Rel}

theorem counterAt_of_lq {s t : State} (h : t.lq = s.lq) (k : Nat) : counterAt t k = counterAt s k := by rw [counterAt, counterAt, h]
theorem addChan_lq (s : State) (c : Chan) (rs : List Rel) : (addChan s c rs).lq = s.lq := lq_of_outer (addChan_outer ..)
theorem counterReady_decs (s : State) (h : Nat) : (counterReady s h).lq.decs = s.lq.decs := rfl

theorem decrement_idle (hv : vdRuns s v = false) : decrement s v core asid h rs = s := by simp [decrement, hv]

/-- The releases that a decrement of an armed counter leaves with it. -/
def decReleased (s : State) (h : Nat) (rs : List Rel) : State :=
  addChan s (.counter (counterKey h)) [pkgRel 5 (chanOf s (.counter (counterKey h)) ++ rs)]
theorem decReleased_lq (s : State) (h : Nat) (rs : List Rel) : (decReleased s h rs).lq = s.lq := addChan_lq ..
theorem counterAt_decReleased (s : State) (h : Nat) (rs : List Rel) (k : Nat) : counterAt (decReleased s h rs) k = counterAt s k :=
  counterAt_of_lq (decReleased_lq ..) k

theorem decrement_armed (hv : vdRuns s v = true) (hc : (counterAt s h).st = .armed) (h1 : 1 < (counterAt s h).value.toNat) :
    decrement s v core asid h rs = onCounter (decReleased s h rs) h (fun c => { c with value := c.value - 1 }) := by
  simp [decrement, hv, hc, Nat.not_le.mpr h1, decReleased]
theorem decrement_last (hv : vdRuns s v = true) (hc : (counterAt s h).st = .armed) (h1 : (counterAt s h).value.toNat ≤ 1) :
    decrement s v core asid h rs = counterReady (decReleased s h rs) h := by
  simp [decrement, hv, hc, h1, decReleased]
/-- A counter that is not armed is poisoned. -/
def poisoned (s : State) (h : Nat) : State := onCounter s h (fun c => { c with poison := true })
theorem decrement_other (hv : vdRuns s v = true) (hc : (counterAt s h).st ≠ .armed) : decrement s v core asid h rs =
    if (counterAt s h).poison then poisoned s h
    else postDirect (poisoned s h) (core.getD (208 * bits h 31 30)) v 0x0D h [] .core asid := by
  unfold decrement
  rw [if_neg (by simp [hv])]
  dsimp only
  split
  · next e => exact absurd e hc
  · rfl

/-- A decrement sends no other. -/
theorem decrement_decs (s : State) (v : Nat) (core : Option Nat) (asid h : Nat) (rs : List Rel) :
    (decrement s v core asid h rs).lq.decs = s.lq.decs := by
  by_cases hv : vdRuns s v = false
  · rw [decrement_idle hv]
  replace hv : vdRuns s v = true := by simpa using hv
  by_cases hc : (counterAt s h).st = .armed
  · by_cases h1 : 1 < (counterAt s h).value.toNat
    · rw [decrement_armed hv hc h1]
      exact (congrArg LqState.decs (decReleased_lq s h rs) :)
    · rw [decrement_last hv hc (Nat.not_lt.mp h1), counterReady_decs, decReleased_lq]
  · rw [decrement_other hv hc]
    split_ifs
    · rfl
    · exact (congrArg LqState.decs (post_lq (poisoned s h) ..) :)
end

/-! The decrements of a die. -/

section
variable {s : State} {d : Nat} {x : Dec} {h : BitVec 32}

theorem applyDecs_none (hs : s.lq.decs = []) : ∀ n, applyDecs s d n = s
  | 0 => rfl
  | n + 1 => by simp [applyDecs, nextDec, hs, leastBy]

/-- What follows a source's last decrement: the rest of a landing window's action (R55). -/
def decDone (t : State) : Option (Nat × Nat) → State
  | some (ep, w) => landGo t ep w
  | none => t
theorem decDone_decs (t : State) (a : Option (Nat × Nat)) : (decDone t a).lq.decs = t.lq.decs := by
  cases a with
  | none => rfl
  | some a => exact decs_of_accepted (landGo_accepted t a.1 a.2)

theorem nextDec_one (hs : s.lq.decs = [x]) (hx : x.handles = [h]) (hd : bits h.toNat 31 30 = d) : nextDec s d = some x := by
  simp [nextDec, hs, hx, hd, leastBy]

/-- The only handle of the only source is taken from the list and applied. -/
theorem applyDecs_one (hs : s.lq.decs = [x]) (hx : x.handles = [h]) (hd : bits h.toNat 31 30 = d) (n : Nat) : applyDecs s d (n + 1) =
    decDone (decrement (s.onLq fun q => { q with decs := [] }) x.vd x.core x.asid h.toNat x.rels) x.after := by
  have hf : x.handles.find? (fun h => bits h.toNat 31 30 == d) = some h := by simp [hx, hd]
  have he : x.handles.erase h = [] := by simp [hx]
  have hq : (s.onLq fun q => { q with decs := q.decs.erase x }) = s.onLq fun q => { q with decs := [] } := by simp [State.onLq, hs]
  unfold applyDecs
  rw [nextDec_one hs hx hd]
  dsimp only
  rw [hf]
  dsimp only
  simp only [he, List.isEmpty_nil, if_true, hq]
  refine (applyDecs_none ?_ n).trans ?_
  · have h := (decDone_decs (decrement (s.onLq fun q => { q with decs := [] }) x.vd x.core x.asid h.toNat x.rels) x.after).trans (decrement_decs ..)
    cases ha : x.after <;> rw [ha] at h <;> exact h
  · cases x.after <;> rfl
end

/-! Decrements sent, and the end of a task. -/

/-- The entry of a list of decrements from a source, as far as its handles are valid; none when none is. -/
def decsFor (s : State) (v asid key : Nat) (core : Option Nat) (hs : List Nat) (launch : Option Nat) (after : Option (Nat × Nat))
    (rels : List Rel) : List Dec :=
  if (hs.filter (handleOk s v)).isEmpty then []
  else [{ cycle := s.sch.cycle, key := key, vd := v, core := core, asid := asid, launch := launch, after := after,
          handles := (hs.filter (handleOk s v)).map (BitVec.ofNat 32), rels := rels }]

theorem decsFor_some {s : State} {v asid key : Nat} {core : Option Nat} {hs : List Nat} {launch : Option Nat} {after : Option (Nat × Nat)}
    {rels : List Rel} (h : hs.filter (handleOk s v) ≠ []) : ∃ x ∈ decsFor s v asid key core hs launch after rels,
      x.vd = v ∧ x.core = core ∧ x.asid = asid ∧ x.handles = (hs.filter (handleOk s v)).map (BitVec.ofNat 32) := by
  unfold decsFor
  rw [if_neg (by simpa using h)]
  exact ⟨_, List.mem_singleton_self _, rfl, rfl, rfl, rfl⟩

theorem handleOk_of_outer {s t : State} (h : t.outer = s.outer) (v : Nat) : handleOk t v = handleOk s v := by
  funext k
  have hv : t.vds = s.vds := (congrArg State.vds h :)
  unfold handleOk cntBase cntCnt
  rw [vdRec_congr hv]
theorem badHandles_outer (s : State) (v : Nat) (l : List Nat) : (l.foldl (fun s h => badHandle s v h) s).outer = s.outer :=
  outer_foldl (f := fun s h => badHandle s v h) (fun _ _ => rfl) l s
/-- Decrements sent join those that wait, and change nothing else of the launch unit's state. -/
theorem sendDecs_lq (s : State) (v asid key : Nat) (core : Option Nat) (hs : List Nat) (launch : Option Nat) (after : Option (Nat × Nat))
    (rels : List Rel) : (sendDecs s v asid key core hs launch after rels).lq =
      { s.lq with decs := s.lq.decs ++ decsFor s v asid key core hs launch after rels } := by
  have hb := badHandles_outer s v (hs.filter (fun h => !handleOk s v h))
  unfold sendDecs decsFor
  generalize (hs.filter (fun h => !handleOk s v h)).foldl (fun s h => badHandle s v h) s = t at hb ⊢
  simp only [handleOk_of_outer hb]
  split_ifs
  · rw [lq_of_outer hb, List.append_nil]
  · simp only [State.onLq, lq_of_outer hb, sch_of_outer hb]

theorem releaseAll_aside (s : State) (v : Nat) : (releaseAll s v).aside = s.aside :=
  (aside_foldl (fun t d => l2Release_aside t d v 0xFF) _ _).trans (aside_foldl (fun t k => l1Clean_aside t k 0xFF) _ s)
theorem releaseAll_outer (s : State) (v : Nat) : (releaseAll s v).outer = s.outer :=
  (outer_foldl (fun t d => l2Release_outer t d v 0xFF) _ _).trans (outer_foldl (fun t k => l1Clean_outer t k 0xFF) _ s)

theorem setChan_outer (s : State) (c : Chan) (rs : List Rel) : (setChan s c rs).outer = s.outer := rfl
/-- A task's end lets its VD's accesses go first, which leaves all but memory. -/
def taskReleased (s : State) (k : Task) : State := setChan (releaseAll s k.vd) (.work (.task k.tid)) []
theorem taskReleased_outer (s : State) (k : Task) : (taskReleased s k).outer = s.outer :=
  (setChan_outer ..).trans (releaseAll_outer ..)

/-- The launch unit's state after the end of a task (R105). -/
theorem finishTask_lq (s : State) (k : Task) : ∃ rs, (finishTask s k).lq =
    { s.lq with
      decs := s.lq.decs ++ decsFor s k.vd k.asid (taskKey k.core) (some k.core) (pkSucc k.packet) none none rs
      counters := k.handle.elim s.lq.counters fun h => s.lq.counters.write Counter.free (counterKey h.toNat)
        { Counter.free with poison := (counterAt s h.toNat).poison }
      tasks := s.lq.tasks.filter (fun x => x.tid != k.tid) } := by
  refine ⟨[pkgRel 5 (chanOf (releaseAll s k.vd) (.work (.task k.tid)))], ?_⟩
  have ho := taskReleased_outer s k
  have hl := lq_of_outer ho
  have hd := sendDecs_lq (taskReleased s k) k.vd k.asid (taskKey k.core) (some k.core) (pkSucc k.packet) none none
    [pkgRel 5 (chanOf (releaseAll s k.vd) (.work (.task k.tid)))]
  have he : ∀ rs, decsFor (taskReleased s k) k.vd k.asid (taskKey k.core) (some k.core) (pkSucc k.packet) none none rs =
      decsFor s k.vd k.asid (taskKey k.core) (some k.core) (pkSucc k.packet) none none rs := fun rs => by
    unfold decsFor
    rw [handleOk_of_outer ho, sch_of_outer ho]
  rw [hl, he] at hd
  unfold finishTask
  dsimp only
  cases k.handle with
  | none => simp only [State.onLq, Option.elim_none]; exact congrArg (fun q : LqState => { q with tasks := q.tasks.filter (fun x => x.tid != k.tid) }) hd
  | some h =>
    simp only [State.onLq, onCounter, Option.elim_some, counterAt]
    exact congrArg (fun q : LqState => { q with
      counters := q.counters.write Counter.free (counterKey h.toNat) { Counter.free with poison := (q.counters.at Counter.free (counterKey h.toNat)).poison }
      tasks := q.tasks.filter (fun x => x.tid != k.tid) }) hd

/-- A task that has ended is gone. -/
theorem finishTask_gone (s : State) (k : Task) : ∀ x ∈ (finishTask s k).lq.tasks, x.tid ≠ k.tid := by
  obtain ⟨rs, hl⟩ := finishTask_lq s k
  intro x hx
  rw [hl] at hx
  simpa using (List.mem_filter.mp hx).2
theorem finishTask_ready (s : State) (k : Task) : (finishTask s k).lq.ready = s.lq.ready := by
  obtain ⟨rs, hl⟩ := finishTask_lq s k
  rw [hl]

end Sys2Proof.Machine
end

section
/-! PROOFS. Dependence counters, the ends of tasks, the governor and collectives (R102 to R105, R111, R371, R374). -/
namespace Sys2Proof.Machine

/-! Moves of the governor. -/

/-- A worker's register with another stage. -/
def Gov.move (g : Gov) (m : Nat × Nat) : Gov :=
  { g with workers := g.workers.put m.1 (BitVec.ofNat 64 (setBits (g.worker m.1) 26 24 m.2)) }

theorem govEvaluate_moves {s : State} {v d : Nat} (h : bit (govOf s v d).ctl.toNat 0 = true) :
    govEvaluate s v d = onGov s v d (fun g => (govMoves g).foldl Gov.move g) := by
  simp only [govEvaluate, h]
  rfl

theorem govEvaluate_off {s : State} {v d : Nat} (h : bit (govOf s v d).ctl.toNat 0 = false) : govEvaluate s v d = s := by
  simp [govEvaluate, h]

theorem Gov.worker_move_self (g : Gov) (m : Nat × Nat) : (g.move m).worker m.1 = setBits (g.worker m.1) 26 24 m.2 := by
  have hv : g.worker m.1 < 2 ^ 64 := BitVec.isLt _
  have hs := setBits_eq (g.worker m.1) 24 3 m.2 (by decide)
  have hlt : setBits (g.worker m.1) 26 24 m.2 < 2 ^ 64 := by
    simp only [Nat.reduceAdd, Nat.reduceSub] at hs
    omega
  have hw : (g.move m).worker m.1 = (BitVec.ofNat 64 (setBits (g.worker m.1) 26 24 m.2)).toNat := by
    simp only [Gov.worker, Gov.move, Tab.at, Tab.find_put_self, Option.getD_some]
  rw [hw, BitVec.toNat_ofNat, Nat.mod_eq_of_lt hlt]
theorem Gov.worker_move_ne (g : Gov) {m : Nat × Nat} {k : Nat} (h : k ≠ m.1) : (g.move m).worker k = g.worker k := by
  simp only [Gov.worker, Gov.move, Tab.at, Tab.find_put_ne _ _ h]

theorem Gov.stages_moves (l : List (Nat × Nat)) (g : Gov) : (l.foldl Gov.move g).stages = g.stages := by
  induction l generalizing g with
  | nil => rfl
  | cons m l ih => exact ih (g.move m)
/-- Only the workers that moves name move. -/
theorem Gov.worker_moves_other (l : List (Nat × Nat)) (g : Gov) {k : Nat} (h : k ∉ l.map (·.1)) : (l.foldl Gov.move g).worker k = g.worker k := by
  induction l generalizing g with
  | nil => rfl
  | cons m l ih =>
    rw [List.map_cons, List.mem_cons, not_or] at h
    rw [List.foldl_cons, ih _ h.2, g.worker_move_ne h.1]
/-- Moves of different workers give each its stage. -/
theorem Gov.worker_moves (l : List (Nat × Nat)) (g : Gov) (hn : (l.map (·.1)).Nodup) {m : Nat × Nat} (hm : m ∈ l) :
    (l.foldl Gov.move g).worker m.1 = setBits (g.worker m.1) 26 24 m.2 := by
  induction l generalizing g with
  | nil => cases hm
  | cons a l ih =>
    rw [List.map_cons, List.nodup_cons] at hn
    rw [List.foldl_cons]
    rcases List.mem_cons.mp hm with rfl | hl
    · rw [Gov.worker_moves_other l _ hn.1, g.worker_move_self]
    · have hne : m.1 ≠ a.1 := fun e => hn.1 (e ▸ List.mem_map_of_mem hl)
      rw [ih _ hn.2 hl, g.worker_move_ne hne]

/-! The end of a task. -/

section
variable {s : State} {k : Task}
theorem execTaskComplete_none (h : findTask s s.sch.sel.n = none) : execTaskComplete s = .next s := by
  simp only [execTaskComplete, h]
variable (hk : findTask s s.sch.sel.n = some k)
include hk
theorem execTaskComplete_busy (h : taskDone s k = false) : execTaskComplete s = .next s := by simp [execTaskComplete, hk, h]
theorem execTaskComplete_done (h : taskDone s k = true) : execTaskComplete s = .next (finishTask s k) := by
  simp only [execTaskComplete, hk, h, if_true]
end

/-! The end of a collective. -/

section
variable {s y w z : State} {c : CollCtx} {ps : CollPeers}

/-- A collective keeps what it has still to write. -/
def collKeep (t : State) (c : CollCtx) (o : Nat × CollOut) : State :=
  t.onLoc fun l => { l with colls := l.colls.map (fun y => if y.cid = c.cid then { y with out := some o } else y) }
/-- A collective decrements its counter and frees its context. -/
def collClose (t : State) (c : CollCtx) : State :=
  let t := if bit (field c.desc 3 1) 1 then sendDecs t c.vd c.asid coKey none [field c.desc 52 4] (rels := [c.rel]) else t
  collFill (t.onLoc fun l => { l with colls := l.colls.filter (fun x => x.cid != c.cid) })
/-- The word that a collective writes at its end. -/
def collWord (c : CollCtx) (st : Nat) : Bytes := leBytes 4 (if st = 0 then field c.desc 48 4 else mxError st)

theorem collSignal_silent (hf : bit (field c.desc 3 1) 0 = false) (t : State) (st : Nat) : collSignal t c st = collClose t c := by
  simp [collSignal, collClose, hf]
section
variable {t : State} {st : Nat} (hf : bit (field c.desc 3 1) 0 = true)
include hf
theorem collSignal_waits (hw : engWriteN t (ioEng c.vd c.asid) (field c.desc 40 8) (collWord c st) = (z, .error .wait)) :
    collSignal t c st = collKeep z c (st, 0, [], []) := by
  unfold collWord at hw
  simp [collSignal, hf, hw, collKeep]
theorem collSignal_fails {e : EngErr} (hw : engWriteN t (ioEng c.vd c.asid) (field c.desc 40 8) (collWord c st) = (z, .error e))
    (he : e ≠ .wait) : collSignal t c st = collClose z c := by
  unfold collWord at hw
  cases e with
  | wait => exact absurd rfl he
  | _ => simp [collSignal, hf, hw, collClose, okOf]
theorem collSignal_writes {u : Unit} (hw : engWriteN t (ioEng c.vd c.asid) (field c.desc 40 8) (collWord c st) = (z, .ok u)) :
    collSignal t c st = collClose (tellVa z (ioEng c.vd c.asid) (field c.desc 40 8) (collWord c st) [c.rel]) c := by
  unfold collWord at hw ⊢
  simp [collSignal, hf, hw, collClose, okOf]
end

theorem collLeft_kept {o : Nat × CollOut} (h : c.out = some o) : collLeft s c ps = (s, some o) := by simp only [collLeft, h]
theorem collLeft_waits (h : c.out = none) (hr : collRun s c ps = (y, none)) : collLeft s c ps = (y, none) := by simp only [collLeft, h, hr]
theorem collLeft_ran {st : Nat} {b : Bytes} {bad : List Bool} (h : c.out = none) (hr : collRun s c ps = (y, some (st, b, bad))) :
    collLeft s c ps = (y, some (st, field c.desc 16 8, b, bad)) := by simp only [collLeft, h, hr]

theorem collEnd_waits (h : collLeft s c ps = (y, none)) : collEnd s c ps = y := by simp only [collEnd, h]
section
variable {st va : Nat} {b : Bytes} {bad : List Bool} (h : collLeft s c ps = (y, some (st, va, b, bad)))
include h
theorem collEnd_fails (hw : collWrite y (ioEng c.vd c.asid) (b.length / 128 + 2) (va, b, bad) = (w, none)) :
    collEnd s c ps = collSignal w c 2 := by simp only [collEnd, h, hw]
theorem collEnd_writes {va' : Nat} {bad' : List Bool}
    (hw : collWrite y (ioEng c.vd c.asid) (b.length / 128 + 2) (va, b, bad) = (w, some (va', [], bad'))) :
    collEnd s c ps = collSignal w c st := by simp only [collEnd, h, hw]
theorem collEnd_left {va' : Nat} {left : Bytes} {bad' : List Bool} (hl : left ≠ [])
    (hw : collWrite y (ioEng c.vd c.asid) (b.length / 128 + 2) (va, b, bad) = (w, some (va', left, bad'))) :
    collEnd s c ps = collKeep w c (st, va', left, bad') := by
  cases left with
  | nil => exact absurd rfl hl
  | cons a l => simp only [collEnd, h, hw, collKeep]
end

/-- The peers of a collective are noted. -/
def collMet (s : State) (c : CollCtx) (ps : CollPeers) : State :=
  s.onLoc fun l => { l with colls := l.colls.map (fun x => if x.cid = c.cid then { x with peers := some ps } else x) }

section
variable {vd : Vd} {peers : CollPeers}
theorem execCollComplete_none (h : (s.loc.colls.filter (fun c => c.vd == vd.val && c.ctx.isSome))[s.sch.sel.n]? = none) :
    execCollComplete vd peers s = .next s := by simp only [execCollComplete, h]
variable (h : (s.loc.colls.filter (fun c => c.vd == vd.val && c.ctx.isSome))[s.sch.sel.n]? = some c)
include h
theorem execCollComplete_moving (hb : c.beats < c.need) : execCollComplete vd peers s = .next (collMet s c (c.peers.getD peers)) := by
  simp only [execCollComplete, h, hb, if_true]
  rfl
theorem execCollComplete_ends (hb : c.need ≤ c.beats) : execCollComplete vd peers s =
    .next (flushRecs (reap (collEnd (collMet s c (c.peers.getD peers)) c (c.peers.getD peers)))) := by
  simp only [execCollComplete, h, Nat.not_lt.mpr hb, if_false]
  rfl
end
end

end Sys2Proof.Machine

namespace Sys2Proof
open Machine

/-- Settles O44: each decrement by its counter's state (`decrement_armed`, `decrement_last`, `decrement_other`), the end of a task by what it
leaves of the launch unit (`finishTask_lq`), and a collective by what its run, its writes and its word come to. -/
theorem countersAndTasks : Obligations.CountersAndTasks := by
  unfold Obligations.CountersAndTasks
  intro s vd peers d v n
  refine ⟨rfl, fun hs => applyDecs_none hs 4, ?_, ?_, ?_, fun hg => ?_, fun hg hn => ?_, fun h => execCollComplete_none h, ?_⟩
  · intro x h hs hx hd c y t
    refine ⟨?_, fun hv => decrement_idle (s := y) hv, fun hv hc h1 => ?_, fun hv hc h1 => ?_, fun hv hc => ?_⟩
    · rw [applyDecs_one hs hx hd 3]
      cases x.after <;> rfl
    · have ht : t = _ := decrement_armed (s := y) hv hc h1
      rw [ht, counterAt_onCounter_self, counterAt_decReleased]
      rfl
    · have ht : t = _ := decrement_last (s := y) hv hc h1
      have hr := readyOf_counterReady (decReleased y h.toNat x.rels) h.toNat (d := pkTarget c.packet d) (by rw [counterAt_decReleased, hd]; rfl)
      rw [counterAt_decReleased] at hr
      rw [ht, counterAt_counterReady_self, counterAt_decReleased]
      refine ⟨rfl, { c.entry h.toNat with joined := (decReleased y h.toNat x.rels).sch.cycle }, ?_, ?_, rfl, rfl⟩
      · exact hr ▸ List.mem_append_right _ List.mem_cons_self
      · simp [Counter.entry]
    · have ht : t = _ := decrement_other (s := y) hv hc
      rw [ht]
      refine ⟨?_, fun hp => ?_, fun hp => ?_⟩
      · split_ifs
        · exact counterAt_onCounter_self ..
        · exact (counterAt_of_lq (post_lq ..) _).trans (counterAt_onCounter_self ..)
      · rw [if_pos (show (counterAt y h.toNat).poison = true from hp)]
        rfl
      · rw [if_neg (show ¬(counterAt y h.toNat).poison = true by rw [show (counterAt y h.toNat).poison = false from hp]; decide), hd]
        exact posts_post ..
  · rintro (h | ⟨k, hk, hd⟩)
    · exact execTaskComplete_none h
    · exact execTaskComplete_busy hk hd
  · intro k hk hdone hs
    obtain ⟨rs, hl⟩ := finishTask_lq s k
    have hid : k.tid = n := by simpa using List.find?_some hk
    refine ⟨finishTask s k, execTaskComplete_done hk hdone, fun x hx => ?_, fun h hh => ?_, fun hne => ?_⟩
    · exact hid ▸ finishTask_gone s k x hx
    · rw [counterAt, hl, hh]
      exact congrArg Counter.st (Tab.at_write_self ..)
    · rw [hl]
      obtain ⟨x, hx, hdec⟩ := decsFor_some hne
      exact ⟨x, List.mem_append_right _ hx, hdec⟩
  · exact congrArg Host.Outcome.next (govEvaluate_off hg)
  · refine ⟨_, congrArg Host.Outcome.next (govEvaluate_moves hg), ?_⟩
    dsimp only
    rw [govOf_onGov_self]
    exact ⟨fun m hm => Gov.worker_moves _ _ hn hm, fun k hk => Gov.worker_moves_other _ _ hk, Gov.stages_moves _ _⟩
  · intro c hc ps x
    refine ⟨fun hb => execCollComplete_moving hc hb, fun hb => ?_⟩
    intro ends e keep closes signal
    have hend : ∀ {t}, collEnd x c ps = t → ends t := fun h => h ▸ execCollComplete_ends hc hb
    have hsig : ∀ t st, (∀ {u}, collSignal t c st = u → ends u) → signal t st := fun t st hu =>
      ⟨fun hf => hu (collSignal_silent hf t st), fun hf z r hw => ⟨fun hr => hu (collSignal_waits hf (hr ▸ hw)),
        fun f hr hne => hu (collSignal_fails hf (hr ▸ hw) hne), fun u hr => hu (collSignal_writes hf (hr ▸ hw))⟩⟩
    refine ⟨fun ho y hy => hend (collEnd_waits (collLeft_waits ho hy)), fun y st va out bad hr w r hw => ?_⟩
    have hleft : collLeft x c ps = (y, some (st, va, out, bad)) := by
      rcases hr with ⟨ho, rfl⟩ | ⟨ho, hy, rfl⟩
      · exact collLeft_kept ho
      · exact collLeft_ran ho hy
    refine ⟨fun hr => hsig w 2 fun hu => hend ((collEnd_fails hleft (hr ▸ hw)).trans hu),
      fun va' bad' hr => hsig w st fun hu => hend ((collEnd_writes hleft (hr ▸ hw)).trans hu),
      fun va' left bad' hr hl => hend (collEnd_left hleft hl (hr ▸ hw))⟩

end Sys2Proof
end

section
/-! PROOFS. Whose groups and blocks are there, and kills of launches and tasks (R97, R232, R241). -/
namespace Sys2Proof.Machine

/-! The owners of groups and blocks. -/

/-- Whose work each group and each block is. -/
def State.owners (s : State) : List Owner × List Owner := (s.cores.groups.map (·.owner), s.cores.blocks.map (·.owner))

theorem owners_of_cores {s t : State} (h : t.cores = s.cores) : t.owners = s.owners := by rw [State.owners, State.owners, h]
theorem owners_of_aside {s t : State} (h : t.aside = s.aside) : t.owners = s.owners := owners_of_cores (cores_of_aside h)
theorem owners_fst {α : Type} {q : State × α} {x s : State} {y : α} (e : q = (x, y)) (h : q.1.owners = s.owners) : x.owners = s.owners := by
  rw [e] at h; exact h
theorem owners_foldl {β : Type} {f : State → β → State} (hf : ∀ s b, (f s b).owners = s.owners) (l : List β) (s : State) :
    (l.foldl f s).owners = s.owners := foldl_proj State.owners hf l s

theorem owners_mapGroups (s : State) {f : Group → Group} (hf : ∀ g, (f g).owner = g.owner) :
    (s.onCores fun c => { c with groups := c.groups.map f }).owners = s.owners := by
  simp only [State.owners, State.onCores, map_map_of_proj hf]
theorem wakeThreads_owners (s : State) (p : Group → Nat → Thread → Bool) (f : Thread → Thread) : (wakeThreads s p f).owners = s.owners :=
  owners_mapGroups s fun g => by dsimp only; split_ifs <;> rfl
theorem migDone_owners (s : State) : (migDone s).owners = s.owners := wakeThreads_owners ..

theorem setFrame_cores (s : State) (f : Nat) (x : Frame) : (setFrame s f x).cores = s.cores := rfl
theorem onPool_cores (s : State) (v : Nat) (f : ShdPool → ShdPool) : (onPool s v f).cores = s.cores := rfl
theorem dropFrame_cores (s : State) (f : Nat) : (dropFrame s f).cores = s.cores := by
  unfold dropFrame
  simp only [State.onLoc_cores, State.onTrn_cores]
theorem scrubFrame_cores (s : State) (f : Nat) : (scrubFrame s f).cores = s.cores := by
  unfold scrubFrame clearRange freshCounters discardFrame
  simp only [State.onMem_cores, dropFrame_cores]
theorem ptWrite_cores (s : State) (v a n : Nat) : (ptWrite s v a n).cores = s.cores := cores_of_aside (ptWrite_aside ..)
theorem flushLines_cores (s : State) (f : Nat → Bool) : (flushLines s f).cores = s.cores := cores_of_aside (flushLines_aside ..)
theorem copyPhys_cores (s : State) (v src dst n : Nat) (ws : List Writer) : (copyPhys s v src dst n ws).cores = s.cores :=
  cores_of_aside (copyPhys_aside ..)
theorem poolReturn_cores (s : State) (v f : Nat) : (poolReturn s v f).cores = s.cores := by
  unfold poolReturn
  simp only [onPool_cores, cores_of_aside (devWrite_aside ..)]
theorem discardShadows_cores (s : State) (lid : Nat) : (discardShadows s lid).cores = s.cores := by
  unfold discardShadows
  refine (foldl_proj State.cores (fun t x => ?_) _ _).trans (State.onTrn_cores ..)
  simp only [poolReturn_cores, setFrame_cores, scrubFrame_cores]
  refine (foldl_proj State.cores (fun y a => ?_) _ _).trans (flushLines_cores ..)
  split_ifs
  · exact ptWrite_cores ..
  · rfl
theorem shadowTake_owners (s : State) (v lid f : Nat) : (shadowTake s v lid f).1.owners = s.owners := by
  unfold shadowTake
  dsimp only
  split
  · rfl
  · split_ifs
    · rfl
    · rw [migDone_owners]
      refine owners_of_cores ?_
      rw [State.onTrn_cores, foldl_proj State.cores (fun t (a : Nat × Nat) => ptWrite_cores t ..)]
      simp only [flushLines_cores, copyPhys_cores, setFrame_cores, dropFrame_cores, flushFrame, onPool_cores]

/-! Writes by guest-physical address. -/

theorem engPhysWrite_owners (s : State) (e : Eng) (a : Nat) (b : Bytes) (p : Bool) : (engPhysWrite s e a b p).1.owners = s.owners := by
  have hr : (match e.die with
      | some d => l2Write s d e.vd (kidFor s e.vd a) a b 1 e.ws p
      | none => mscWrite s e.vd (kidFor s e.vd a) a b p).1.owners = s.owners := by
    split
    · exact owners_of_aside (l2Write_aside ..)
    · exact owners_of_aside (mscWrite_aside ..)
  unfold engPhysWrite
  split
  · dsimp only
    split_ifs
    · exact shadowTake_owners ..
    · rfl
  · dsimp only
    split <;> rename_i q <;> exact owners_fst q hr
theorem gpaWrite1_owners (e : Eng) (gpa : Nat) (b : Bytes) (p : Bool) : ∀ (n : Nat) (s : State), (gpaWrite1 s e gpa b p n).1.owners = s.owners
  | 0, _ => rfl
  | n + 1, s => by
    have h1 := owners_of_aside (engXlate_aside s e gpa true)
    unfold gpaWrite1
    split <;> rename_i q <;> replace h1 := owners_fst q h1
    · exact h1
    · exact h1
    · next y a =>
      have h2 := (engPhysWrite_owners y e a b p).trans h1
      split <;> rename_i q2 <;> replace h2 := owners_fst q2 h2
      · exact h2
      · exact h2
      · exact (gpaWrite1_owners e gpa b p n _).trans h2
theorem gpaWriteF_owners (e : Eng) (p : Bool) : ∀ (n a : Nat) (b : Bytes) (s : State), (gpaWriteF s e p n a b).1.owners = s.owners
  | 0, _, _, _ => rfl
  | n + 1, a, b, s => by
    have h1 := gpaWrite1_owners e a (b.take (sectorPart a b.length)) p 2 s
    unfold gpaWriteF
    split_ifs
    · rfl
    · split <;> rename_i q <;> replace h1 := owners_fst q h1
      · exact h1
      · exact (gpaWriteF_owners e p n _ _ _).trans h1
theorem tellAll_owners (s : State) (loc : Nat) (b : Bytes) (rs : List Rel) : (tellAll s loc b rs).owners = s.owners :=
  owners_foldl (fun t i => by unfold tell; dsimp only; split_ifs <;> rfl) _ s
theorem tellGpa_owners (s : State) (e : Eng) (gpa : Nat) (b : Bytes) (rs : List Rel) : (tellGpa s e gpa b rs).owners = s.owners := by
  unfold tellGpa
  split
  · exact tellAll_owners ..
  · rfl
theorem writeDone_owners (s : State) (v slot x : Nat) (rs : List Rel) : (writeDone s v slot x rs).owners = s.owners :=
  (tellGpa_owners ..).trans (gpaWriteF_owners ..)

/-! Posts and records. -/

theorem tryPost_owners (s : State) (num : Nat) : (tryPost s num).owners = s.owners := by
  unfold tryPost
  split
  · rfl
  · next p _ =>
    have h1 := svqSlot_aside s p.core p.vd (svqOf s p.core p.vd).tail.toNat
    dsimp only
    split
    · rfl
    · split <;> rename_i e <;> replace h1 := aside_fst e h1
      · exact owners_of_aside h1
      · next t a =>
        have h2 := (postRel_aside (mscWrite (mscWrite t p.vd (kidFor t p.vd a) a (p.entry.take 32)).1 p.vd
          (kidFor (mscWrite t p.vd (kidFor t p.vd a) a (p.entry.take 32)).1 p.vd a) (a + 32) (p.entry.drop 32)).1 num).trans
          ((mscWrite_aside ..).trans ((mscWrite_aside ..).trans h1))
        refine Eq.trans ?_ (owners_of_aside h2)
        exact owners_mapGroups _ (f := fun g => if some g.gid = p.gid then
          { g with threads := g.threads.map (fun t => if t.st = .held num false then { t with st := .held num true } else t) } else g)
          fun g => by split_ifs <;> rfl
theorem post_owners (s : State) (core v : Nat) (b : Bytes) (gid sw : Option Nat) (src : PostSrc) :
    (post s core v b gid sw src).1.owners = s.owners := tryPost_owners ..
theorem setMipAll_owners (s : State) (b : Nat) : (setMipAll s b).owners = s.owners := by
  unfold setMipAll
  generalize List.range 832 = l
  exact owners_foldl (f := fun s c => setMip s c b) (fun _ _ => rfl) l s
theorem writeRec_owners (s : State) (v : Nat) (b : Bytes) : (writeRec s v b).owners = s.owners := by
  have hm : ∀ y, State.owners (if v = 0 then setMipAll y 4 else setMip y (rpcCore y v) 3) = y.owners := by
    intro y; split
    · exact setMipAll_owners ..
    · rfl
  unfold writeRec
  dsimp only
  split
  · rfl
  · split <;> rename_i e <;> have h1 := aside_fst e (regXlate_aside ..)
    · exact owners_of_aside h1
    · next t a =>
      split
      · have h2 : (mscWrite (mscWrite t v (kidFor t v a) a (b.take 32)).1 v (kidFor (mscWrite t v (kidFor t v a) a (b.take 32)).1 v a) (a + 32)
            (b.drop 32)).1.owners = s.owners :=
          owners_of_aside ((mscWrite_aside ..).trans ((mscWrite_aside ..).trans h1))
        split
        · exact (post_owners ..).trans ((hm _).trans h2)
        · exact (hm _).trans h2
      · exact owners_of_aside h1
theorem flushRecs_owners (s : State) : (flushRecs s).owners = s.owners := by
  unfold flushRecs
  exact (owners_foldl (fun t (e : Nat × Bytes) => writeRec_owners t e.1 e.2) _ _).trans (owners_of_cores (State.onRas_cores ..))

/-! The ends of launches and tasks. -/

theorem sendDecs_cores (s : State) (v asid key : Nat) (core : Option Nat) (hs : List Nat) (launch : Option Nat) (after : Option (Nat × Nat))
    (rels : List Rel) : (sendDecs s v asid key core hs launch after rels).cores = s.cores := by
  have hb : ∀ l : List Nat, (l.foldl (fun s h => badHandle s v h) s).cores = s.cores := fun l =>
    foldl_proj State.cores (f := fun s h => badHandle s v h) (fun _ _ => rfl) l s
  unfold sendDecs
  dsimp only
  split_ifs
  · exact hb _
  · exact hb _
theorem releaseAll_cores (s : State) (v : Nat) : (releaseAll s v).cores = s.cores := cores_of_aside (releaseAll_aside ..)
theorem setChan_cores (s : State) (c : Chan) (rs : List Rel) : (setChan s c rs).cores = s.cores := rfl
theorem onLaunch_cores (s : State) (lid : Nat) (f : Launch → Launch) : (onLaunch s lid f).cores = s.cores := rfl
theorem finishLaunch_owners (s : State) (l : Launch) (st : Nat) : (finishLaunch s l st).owners = s.owners := by
  unfold finishLaunch
  refine (owners_of_cores ((State.onLq_cores ..).trans (sendDecs_cores ..))).trans ((writeDone_owners ..).trans (owners_of_cores ?_))
  simp only [setChan_cores, releaseAll_cores, onLaunch_cores]
theorem finishTask_cores (s : State) (k : Task) : (finishTask s k).cores = s.cores := by
  unfold finishTask
  dsimp only
  split <;> simp only [onCounter, State.onLq_cores, sendDecs_cores, setChan_cores, releaseAll_cores]
/-- A launch that has ended is gone. -/
theorem finishLaunch_gone (s : State) (l : Launch) (st : Nat) : ∀ x ∈ (finishLaunch s l st).lq.launches, x.lid ≠ l.lid := by
  intro x hx
  unfold finishLaunch at hx
  simpa using (List.mem_filter.mp hx).2

/-! Steps 1 and 2 of a kill. -/

theorem emptyWindows_cores (s : State) (b : Block) : (emptyWindows s b).cores = s.cores :=
  foldl_proj State.cores (f := fun s (e : Nat × Window) => onWin s b.core e.1 (fun w => { w with st := .empty })) (fun _ _ => rfl) _ s
theorem dropBlock_groups (s : State) (b : Block) : (dropBlock s b).cores.groups = s.cores.groups := by
  unfold dropBlock
  simp only [State.onCores_cores, emptyWindows_cores]
theorem dropBlocks_groups (bs : List Block) (s : State) : (bs.foldl dropBlock s).cores.groups = s.cores.groups :=
  foldl_proj (fun t : State => t.cores.groups) dropBlock_groups bs s
theorem dropBlock_blocks (s : State) (b : Block) : (dropBlock s b).cores.blocks = s.cores.blocks.filter (fun x => x.bid != b.bid) := by
  unfold dropBlock
  simp only [State.onCores_cores, emptyWindows_cores]
theorem mem_dropBlocks {x : Block} : ∀ (bs : List Block) {s : State}, x ∈ (bs.foldl dropBlock s).cores.blocks →
    x ∈ s.cores.blocks ∧ ∀ b ∈ bs, x.bid ≠ b.bid
  | [], _, h => ⟨h, by simp⟩
  | b :: bs, s, h => by
    obtain ⟨hx, hbs⟩ := mem_dropBlocks bs h
    rw [dropBlock_blocks, List.mem_filter] at hx
    refine ⟨hx.1, fun c hc => ?_⟩
    rcases List.mem_cons.mp hc with rfl | hc
    · simpa using hx.2
    · exact hbs c hc

/-- No group and no block is a piece of work's. -/
def NoWork (s : State) (o : Owner) : Prop := (∀ g ∈ s.cores.groups, g.owner ≠ o) ∧ ∀ b ∈ s.cores.blocks, b.owner ≠ o
theorem noWork_iff (s : State) (o : Owner) : NoWork s o ↔ o ∉ s.owners.1 ∧ o ∉ s.owners.2 := by
  simp [NoWork, State.owners, not_exists]
theorem NoWork.of_owners {s t : State} {o : Owner} (h : NoWork s o) (e : t.owners = s.owners) : NoWork t o := by
  rw [noWork_iff, e]
  exact (noWork_iff s o).mp h

/-- A kill's first steps leave no group and no block of the work. -/
theorem discardWork_noWork (s : State) (o : Owner) : NoWork (discardWork s o) o := by
  unfold discardWork
  refine NoWork.of_owners ⟨fun g hg => ?_, fun b hb => ?_⟩ (wakeThreads_owners ..)
  · rw [dropBlocks_groups] at hg
    simpa using (List.mem_filter.mp hg).2
  · obtain ⟨hs, hne⟩ := mem_dropBlocks _ hb
    exact fun ho => hne b (List.mem_filter.mpr ⟨hs, by simp [ho]⟩) rfl
/-- They leave the launch unit's state, and of the network give up only remote loads. -/
theorem discardWork_outer (s : State) (o : Owner) : (discardWork s o).outer =
    (s.onNet fun n => { n with remoteOps := n.remoteOps.filter (fun r => r.store || r.atomic || r.owner != o) }).outer := by
  unfold discardWork
  exact outer_foldl dropBlock_outer _ _
theorem discardWork_lq (s : State) (o : Owner) : (discardWork s o).lq = s.lq := (lq_of_outer (discardWork_outer s o)).trans rfl
/-- A kill waits for the work's remote stores and atomics. -/
theorem killWaits_discardWork (s : State) (o : Owner) : killWaits (discardWork s o) o = true ↔
    ∃ r ∈ s.net.remoteOps, r.owner = o ∧ (r.store || r.atomic) = true := by
  have hn : (discardWork s o).net = _ := (congrArg State.net (discardWork_outer s o) :)
  unfold killWaits
  rw [hn]
  simp only [State.outer, State.onNet, List.any_eq_true, List.mem_filter, beq_iff_eq]
  constructor
  · rintro ⟨r, ⟨hr, h⟩, rfl⟩
    exact ⟨r, hr, rfl, by simpa using h⟩
  · rintro ⟨r, hr, rfl, h⟩
    exact ⟨r, ⟨hr, by rw [h]; rfl⟩, rfl⟩

/-! The other steps. -/

theorem setFrame_outer (s : State) (f : Nat) (x : Frame) : (setFrame s f x).outer = s.outer := rfl
theorem scrubFrame_outer (s : State) (f : Nat) : (scrubFrame s f).outer = s.outer := by
  unfold scrubFrame clearRange freshCounters discardFrame
  simp only [onMem_outer, dropFrame_outer]
theorem poolReturn_outer (s : State) (v f : Nat) : (poolReturn s v f).outer = s.outer := by
  unfold poolReturn onPool
  simp only [onTrn_outer, devWrite_outer]
theorem discardShadows_outer (s : State) (lid : Nat) : (discardShadows s lid).outer = s.outer := by
  unfold discardShadows
  refine (outer_foldl (fun t x => ?_) _ _).trans (onTrn_outer ..)
  simp only [poolReturn_outer, setFrame_outer, scrubFrame_outer]
  refine (outer_foldl (fun y a => ?_) _ _).trans (flushLines_outer ..)
  split_ifs
  · exact ptWrite_outer ..
  · rfl

/-- The record of a killed launch, and of a killed task (R97). -/
def launchKillRec (l : Launch) : Rec :=
  { type := 0x06, sev := 2, vd := l.vd, unit := 0x420, tag := some (l.f 48 8), data0 := if l.again then 0 else 1, data1 := l.killing.getD 0 }
def taskKillRec (k : Task) : Rec := { type := 0x06, sev := 2, vd := k.vd, unit := 0x420 + k.die, data0 := 2, data1 := k.killing.getD 0 }
/-- A launch that runs again from its first block (R232). -/
def Launch.restart (l : Launch) : Launch :=
  { l with cursor := 0, dispatched := 0, resident := 0, ended := 0, teamDie := [], replays := l.replays + 1, killing := none }
/-- A launch's work is discarded, with its shadows, and a record is offered. -/
def launchStopped (s : State) (l : Launch) (lid : Nat) : State :=
  offerRec (discardShadows (releaseAll (discardWork s (.launch lid)) l.vd) lid) l.vd (launchKillRec l)
/-- Ready queues without the entries that resume a task. -/
def readyWithout (tid : Nat) (l : Tab (List Ready)) : Tab (List Ready) :=
  l.map (fun e => (e.1, e.2.filter (fun r => !(r.resume.any (fun x => x.1 == tid)))))
theorem mem_readyWithout (tid : Nat) (l : Tab (List Ready)) : ∀ e ∈ readyWithout tid l, ∀ r ∈ e.2, ∀ cl, r.resume ≠ some (tid, cl) := by
  intro e he r hr cl hcl
  obtain ⟨x, -, rfl⟩ := List.mem_map.mp he
  simpa [hcl] using (List.mem_filter.mp hr).2
/-- A task's work is discarded, its places in ready queues too, and a record is offered. -/
def taskStopped (s : State) (k : Task) (tid : Nat) : State :=
  offerRec ((releaseAll (discardWork s (.task tid)) k.vd).onLq fun q => { q with ready := readyWithout tid q.ready }) k.vd (taskKillRec k)

theorem offerRec_cores (s : State) (v : Nat) (r : Rec) : (offerRec s v r).cores = s.cores := rfl
theorem offerRec_lq (s : State) (v : Nat) (r : Rec) : (offerRec s v r).lq = s.lq := rfl
theorem launchStopped_cores (s : State) (l : Launch) (lid : Nat) : (launchStopped s l lid).cores = (discardWork s (.launch lid)).cores := by
  unfold launchStopped
  rw [offerRec_cores, discardShadows_cores, releaseAll_cores]
theorem launchStopped_lq (s : State) (l : Launch) (lid : Nat) : (launchStopped s l lid).lq = s.lq := by
  unfold launchStopped
  rw [offerRec_lq, lq_of_outer (discardShadows_outer ..), lq_of_outer (releaseAll_outer ..), discardWork_lq]
theorem taskStopped_cores (s : State) (k : Task) (tid : Nat) : (taskStopped s k tid).cores = (discardWork s (.task tid)).cores := by
  unfold taskStopped
  rw [offerRec_cores, State.onLq_cores, releaseAll_cores]
/-- No entry of a ready queue resumes a task that is stopped. -/
theorem taskStopped_ready (s : State) (k : Task) (tid : Nat) : ∀ e ∈ (taskStopped s k tid).lq.ready, ∀ r ∈ e.2,
    ∀ cl, r.resume ≠ some (tid, cl) := by
  have h : (taskStopped s k tid).lq.ready = readyWithout tid (releaseAll (discardWork s (.task tid)) k.vd).lq.ready := by
    unfold taskStopped
    rw [offerRec_lq, State.onLq_lq]
  rw [h]
  exact mem_readyWithout tid _

section
variable {s : State} (vd : Vd) {lid tid : Nat} {l : Launch} {k : Task}

theorem launchKill_none (h : findLaunch s lid = none) : execLaunchKill vd (.launch lid) s = .next s := by simp only [execLaunchKill, h]
theorem taskKill_none (h : findTask s tid = none) : execLaunchKill vd (.task tid) s = .next s := by simp only [execLaunchKill, h]
section
variable (h : findLaunch s lid = some l)
include h
theorem launchKill_waits (hw : killWaits (discardWork s (.launch lid)) (.launch lid) = true
      ∨ l.again = false ∧ doneWaits (discardWork s (.launch lid)) l.vd l.slotVa = true) :
    execLaunchKill vd (.launch lid) s = .next (discardWork s (.launch lid)) := by
  have hc : (killWaits (discardWork s (.launch lid)) (.launch lid) || !l.again && doneWaits (discardWork s (.launch lid)) l.vd l.slotVa) = true := by
    rcases hw with hw | ⟨ha, hw⟩ <;> simp [*]
  simp only [execLaunchKill, h, hc, if_true]
variable (hk : killWaits (discardWork s (.launch lid)) (.launch lid) = false)
include hk
theorem launchKill_again (ha : l.again = true) :
    execLaunchKill vd (.launch lid) s = .next (flushRecs (onLaunch (launchStopped s l lid) lid Launch.restart)) := by
  simp only [execLaunchKill, h, hk, ha, launchStopped, launchKillRec]
  rfl
theorem launchKill_over (ha : l.again = false) (hd : doneWaits (discardWork s (.launch lid)) l.vd l.slotVa = false) :
    execLaunchKill vd (.launch lid) s = .next (flushRecs (finishLaunch (launchStopped s l lid) l 4)) := by
  simp only [execLaunchKill, h, hk, ha, hd, launchStopped, launchKillRec]
  rfl
end
section
variable (h : findTask s tid = some k)
include h
theorem taskKill_waits (hw : killWaits (discardWork s (.task tid)) (.task tid) = true) :
    execLaunchKill vd (.task tid) s = .next (discardWork s (.task tid)) := by
  simp only [execLaunchKill, h, hw, if_true]
theorem taskKill_ends (hw : killWaits (discardWork s (.task tid)) (.task tid) = false) :
    execLaunchKill vd (.task tid) s = .next (flushRecs (finishTask (taskStopped s k tid) k)) := by
  simp only [execLaunchKill, h, hw]
  rfl
end

theorem Launch.again_iff (l : Launch) : l.again = true ↔ l.snapOn = true ∧ l.replays < 2 := by simp [Launch.again]
end

end Sys2Proof.Machine
end

section
/-! PROOFS. The launch unit takes, completes and kills launches (R87, R94, R95, R96, R97, R232, R241). -/
namespace Sys2Proof.Machine

/-! The record at HEAD. -/

/-- The launch of a record at HEAD, before what its tables give. -/
def recordLaunch (s y : State) (v : Nat) (b : Bytes) : Launch :=
  { lid := y.lq.nextId, prev := (lqOf s v).last, vd := v, idx := (lqOf s v).head
    slotVa := lqBase y v + 256 * ((lqOf s v).head.toNat % 2 ^ lqLog2 y v), asid := (trnOf y v).uasid.toNat, record := b, rank := 0, nbrs := []
    shareBase := 0, shareCnt := 0, cursor := 0, dispatched := 0, resident := 0, ended := 0, teamDie := [], replays := 0, killing := none, snap := [] }
/-- HEAD goes past the record. -/
def tookRecord (s : State) (v : Nat) : State := onLqRegs s v (fun q => { q with stopped := false, head := q.head + 1 })
/-- A launch is accepted as the last of its queue. -/
def acceptLaunch (s : State) (v : Nat) (l : Launch) : State :=
  (onLqRegs (tookRecord s v) v (fun q => { q with last := some l.lid })).onLq fun q => { q with launches := q.launches ++ [l], nextId := q.nextId + 1 }
/-- The record of a queue stopped at a record that is not readable. -/
def launchBadRec (v head : Nat) : Rec := { type := 0x0D, sev := 1, vd := v, unit := 0x420, addr := some head, data0 := 0 }

section
variable {s y z : State} {v : Nat}
theorem launchTake_idle (h : lqReady s v = false) : launchTake s v = s := by simp [launchTake, h]
variable (h : lqReady s v = true)
include h
theorem launchTake_later (hr : recordAt s v = (y, .later)) : launchTake s v = y := by simp [launchTake, h, hr]
theorem launchTake_invalid (hr : recordAt s v = (y, .invalid)) : launchTake s v = onLqRegs y v (fun r => { r with stopped := true }) := by
  simp [launchTake, h, hr]
theorem launchTake_bad_stopped (hr : recordAt s v = (y, .bad)) (hq : (lqOf s v).stopped = true) : launchTake s v = y := by
  simp [launchTake, h, hr, hq]
theorem launchTake_bad (hr : recordAt s v = (y, .bad)) (hq : (lqOf s v).stopped = false) : launchTake s v =
    offerRec (onLqRegs y v (fun r => { r with stopped := true, error := true })) v (launchBadRec v (lqOf s v).head.toNat) := by
  simp [launchTake, h, hr, hq, launchBadRec]
section
variable {b : Bytes} (hr : recordAt s v = (y, .good b))
include hr
theorem launchTake_check_waits (hc : launchCheck y (recordLaunch s y v b) = (z, .error none)) : launchTake s v = z := by
  unfold recordLaunch at hc
  simp [launchTake, h, hr, hc]
theorem launchTake_refusal_waits {r : Nat} (hc : launchCheck y (recordLaunch s y v b) = (z, .error (some r)))
    (hd : doneWaits z v (recordLaunch s y v b).slotVa = true) : launchTake s v = z := by
  unfold recordLaunch at hc hd
  simp [launchTake, h, hr, hc, hd]
theorem launchTake_refuses {r : Nat} (hc : launchCheck y (recordLaunch s y v b) = (z, .error (some r)))
    (hd : doneWaits z v (recordLaunch s y v b).slotVa = false) :
    launchTake s v = launchRefuse (tookRecord z v) (recordLaunch s y v b) r := by
  unfold recordLaunch at hc hd ⊢
  simp [launchTake, h, hr, hc, hd, tookRecord]
theorem launchTake_accepts {l : Launch} (hc : launchCheck y (recordLaunch s y v b) = (z, .ok l)) : launchTake s v = acceptLaunch z v l := by
  unfold recordLaunch at hc
  simp [launchTake, h, hr, hc, acceptLaunch, tookRecord]
end
end

/-- The queue's registers once a launch is accepted. -/
theorem lqOf_acceptLaunch (s : State) (v : Nat) (l : Launch) :
    lqOf (acceptLaunch s v l) v = { lqOf s v with stopped := false, head := (lqOf s v).head + 1, last := some l.lid } := by
  have h : lqOf (acceptLaunch s v l) v = lqOf (onLqRegs (tookRecord s v) v (fun q => { q with last := some l.lid })) v := rfl
  rw [h, lqOf_onLqRegs_self, tookRecord, lqOf_onLqRegs_self]
theorem mem_acceptLaunch (s : State) (v : Nat) (l : Launch) : l ∈ (acceptLaunch s v l).lq.launches :=
  List.mem_append_right _ (List.mem_singleton_self l)

section
variable {s t : State} {v : Nat}
/-- A step that takes a record ends as it leaves the launch unit. -/
theorem launchTakeRecord_of (h : launchTake s s.sch.sel.vd.val = t) : exec .launchTakeRecord s = .next (flushRecs (reap t)) := by
  rw [← h]
  rfl
theorem lqOf_flushRecs_reap (t : State) (v : Nat) : lqOf (flushRecs (reap t)) v = lqOf t v := lqOf_of_accepted (flushRecs_reap_accepted t) v

/-! Completion. -/

variable {l : Launch}
theorem launchComplete_none (h : findLaunch s s.sch.sel.n = none) : execLaunchComplete s = .next s := by simp only [execLaunchComplete, h]
variable (h : findLaunch s s.sch.sel.n = some l)
include h
theorem launchComplete_waits (hd : launchDone s l = false ∨ doneWaits s l.vd l.slotVa = true) : execLaunchComplete s = .next s := by
  have hc : (launchDone s l && !doneWaits s l.vd l.slotVa) = false := by rcases hd with hd | hd <;> simp [hd]
  simp [execLaunchComplete, h, hc]
theorem launchComplete_ends (hd : launchDone s l = true) (hw : doneWaits s l.vd l.slotVa = false) :
    execLaunchComplete s = .next (reap (finishLaunch (promoteShadows s l.lid) l (1 + l.replays))) := by
  simp [execLaunchComplete, h, hd, hw]
end

theorem findLaunch_lid {s : State} {n : Nat} {l : Launch} (h : findLaunch s n = some l) : l.lid = n := by simpa using List.find?_some h
theorem findTask_tid {s : State} {n : Nat} {k : Task} (h : findTask s n = some k) : k.tid = n := by simpa using List.find?_some h

/-- A launch that ended is gone, whatever else ends with it. -/
theorem reap_finishLaunch_gone (s : State) (l : Launch) (st : Nat) : ∀ x ∈ (reap (finishLaunch s l st)).lq.launches, x.lid ≠ l.lid := by
  intro x hx
  obtain ⟨y, hy, he⟩ := lid_of_accepted (reap_accepted _) hx
  exact he ▸ finishLaunch_gone s l st y hy

/-! Kills. -/

/-- A replayed launch starts again from its first block. -/
theorem mem_onLaunch_restart {s : State} {lid : Nat} {l : Launch} (h : findLaunch s lid = some l) :
    ∃ x ∈ (onLaunch s lid Launch.restart).lq.launches, x = l.restart :=
  ⟨_, List.mem_map.mpr ⟨l, List.mem_of_find?_eq_some h, if_pos (findLaunch_lid h)⟩, rfl⟩
theorem findLaunch_of_lq {s t : State} (h : t.lq = s.lq) (lid : Nat) : findLaunch t lid = findLaunch s lid := by rw [findLaunch, findLaunch, h]

/-- The work of a launch that is killed is gone when its step ends. -/
theorem launchKill_noWork {s t : State} {l : Launch} {lid : Nat} (h : t.owners = (launchStopped s l lid).owners) :
    NoWork (flushRecs t) (.launch lid) :=
  (discardWork_noWork s _).of_owners ((flushRecs_owners t).trans (h.trans (owners_of_cores (launchStopped_cores ..))))

end Sys2Proof.Machine

namespace Sys2Proof
open Machine

/-- Settles O42: the launch unit's step by what it finds at HEAD, a completion, and a kill, whose first steps leave no group and no block
of the work (`discardWork_noWork`) and whose later ones bring none back. -/
theorem launchUnit : Obligations.LaunchUnit := by
  unfold Obligations.LaunchUnit
  intro s vd lid v q at_ taken n
  refine ⟨fun h => launchTakeRecord_of (launchTake_idle h), fun h y => ⟨fun hr => launchTakeRecord_of (launchTake_later h hr),
    fun hr => launchTakeRecord_of (launchTake_invalid h hr), fun hr hq => launchTakeRecord_of (launchTake_bad_stopped h hr hq), fun hr hq => ?_,
    ?_⟩, ?_, fun l hl hd hw => ?_, launchKill_none vd,
    fun l hl hops hdone => ?_, taskKill_none vd, fun l hl hw => ?_, fun hops hk => ?_, fun k hk hops => ?_⟩
  · refine Goes.of_next (launchTakeRecord_of (launchTake_bad h hr hq)) rfl ?_
    rw [lqOf_flushRecs_reap]
    have hl := lqOf_onLqRegs_self y v (fun r => { r with stopped := true, error := true })
    exact ⟨(congrArg LqRegs.stopped hl :), (congrArg LqRegs.error hl :), (congrArg LqRegs.head hl :)⟩
  · intro b z hr took
    refine ⟨fun hc => launchTakeRecord_of (launchTake_check_waits h hr hc), fun r hc => ⟨fun hd => launchTakeRecord_of
      (launchTake_refusal_waits h hr hc hd), fun hd => launchTakeRecord_of (launchTake_refuses h hr hc hd)⟩, fun l hc => ?_⟩
    refine Goes.of_next (launchTakeRecord_of (launchTake_accepts h hr hc)) rfl ?_
    rw [lqOf_flushRecs_reap, lqOf_acceptLaunch]
    obtain ⟨x, hx, he⟩ := launch_of_accepted (flushRecs_reap_accepted (acceptLaunch z v l)) (mem_acceptLaunch z v l)
    exact ⟨rfl, rfl, rfl, x, hx, (congrArg Launch.lid he :), (congrArg Launch.record he :), (congrArg Launch.prev he :),
      (congrArg Launch.cursor he :), (congrArg Launch.snap he :)⟩
  · rintro (h | ⟨l, hl, hd⟩)
    · exact launchComplete_none h
    · exact launchComplete_waits hl hd
  · refine ⟨_, launchComplete_ends hl hd hw, fun x hx => ?_, rfl⟩
    exact findLaunch_lid hl ▸ reap_finishLaunch_gone _ l _ x hx
  · have hk : killWaits (discardWork s (.launch lid)) (.launch lid) = false := by
      rw [← Bool.not_eq_true, killWaits_discardWork]
      rintro ⟨r, hr, ho, ha⟩
      exact absurd (hops r hr ho) (by simp [ha])
    by_cases ha : l.again = true
    · have ht := l.again_iff.mp ha
      obtain ⟨hg, hb⟩ := launchKill_noWork (owners_of_cores (onLaunch_cores (launchStopped s l lid) lid Launch.restart))
      refine ⟨_, launchKill_again vd hl hk ha, hg, hb, fun _ _ => ?_, fun hn => absurd ht hn⟩
      obtain ⟨x, hx, rfl⟩ := mem_onLaunch_restart ((findLaunch_of_lq (launchStopped_lq s l lid) lid).trans hl)
      rw [flushRecs_lq]
      exact ⟨_, hx, (findLaunch_lid hl :), rfl, rfl, rfl, rfl, rfl⟩
    · have ht := mt l.again_iff.mpr ha
      obtain ⟨hg, hb⟩ := launchKill_noWork (finishLaunch_owners (launchStopped s l lid) l 4)
      refine ⟨_, launchKill_over vd hl hk (by simpa using ha) (hdone.resolve_left ht), hg, hb, fun h1 h2 => absurd ⟨h1, h2⟩ ht, fun _ x hx => ?_⟩
      rw [flushRecs_lq] at hx
      exact findLaunch_lid hl ▸ finishLaunch_gone _ l 4 x hx
  · refine launchKill_waits vd hl (hw.imp (killWaits_discardWork ..).mpr fun ⟨hn, hd⟩ => ⟨?_, hd⟩)
    rw [← Bool.not_eq_true, l.again_iff]
    exact hn
  · obtain ⟨k, hk⟩ := Option.ne_none_iff_exists'.mp hk
    exact taskKill_waits vd hk ((killWaits_discardWork ..).mpr hops)
  · have hw : killWaits (discardWork s (.task lid)) (.task lid) = false := by
      rw [← Bool.not_eq_true, killWaits_discardWork]
      rintro ⟨r, hr, ho, ha⟩
      exact absurd (hops r hr ho) (by simp [ha])
    have hn : NoWork (flushRecs (finishTask (taskStopped s k lid) k)) (.task lid) := (discardWork_noWork s _).of_owners
      ((flushRecs_owners _).trans (owners_of_cores ((finishTask_cores ..).trans (taskStopped_cores ..))))
    refine ⟨_, taskKill_ends vd hk hw, hn.1, fun x hx => ?_, ?_⟩
    · rw [flushRecs_lq] at hx
      exact findTask_tid hk ▸ finishTask_gone _ k x hx
    · rw [flushRecs_lq, finishTask_ready]
      exact taskStopped_ready s k lid

end Sys2Proof
end

section
/-! PROOFS. Blocks and groups that start, and the dispatchers (R91, R100, R108, R110, R112 to R117). -/
namespace Sys2Proof.Machine

/-! A block that starts. -/

/-- A group as a start gives it, all of whose threads are ready at the entry. -/
structure Begun (x : Start) (n : Need) (g : Group) : Prop where
  owner : g.owner = x.owner
  vd : g.vd = x.vd
  core : g.core = x.core
  width : g.width = n.width
  regs : g.regs = n.regs
  threads : ∀ k ∈ g.threads, k.st = .ready ∧ k.pc = x.entry ∧ (x.clear = true → k.preds = 0)

/-- The second state has groups that began besides those of the first, and the same blocks and launch unit. -/
structure Grown (x : Start) (n : Need) (s t : State) : Prop where
  groups : ∃ gs, t.cores.groups = s.cores.groups ++ gs ∧ ∀ g ∈ gs, Begun x n g
  blocks : t.cores.blocks = s.cores.blocks
  lq : t.lq = s.lq

section
variable {x : Start} {n : Need} {s t u : State}
theorem Grown.same (hc : t.cores = s.cores) (hl : t.lq = s.lq) : Grown x n s t := ⟨⟨[], by simp [hc], by simp⟩, by rw [hc], hl⟩
theorem Grown.trans (h : Grown x n s t) (k : Grown x n t u) : Grown x n s u := by
  obtain ⟨gs, hg, hb⟩ := h.groups
  obtain ⟨gs', hg', hb'⟩ := k.groups
  refine ⟨⟨gs ++ gs', by rw [hg', hg, List.append_assoc], fun g hm => ?_⟩, k.blocks.trans h.blocks, k.lq.trans h.lq⟩
  exact (List.mem_append.mp hm).elim (hb g) (hb' g)
theorem Grown.foldl {β : Type} {f : State → β → State} (hf : ∀ s b, Grown x n s (f s b)) : ∀ (l : List β) (s : State), Grown x n s (l.foldl f s)
  | [], _ => .same rfl rfl
  | b :: l, s => (hf s b).trans (Grown.foldl hf l _)
end

theorem startThreads_cores (pc : DWord) (clear : Bool) : ∀ (n : Nat) (s : State), (startThreads s pc clear n).1.cores = s.cores
  | 0, _ => rfl
  | n + 1, s => (startThreads_cores pc clear n _).trans (by split_ifs <;> rfl)
theorem startThreads_lq (pc : DWord) (clear : Bool) : ∀ (n : Nat) (s : State), (startThreads s pc clear n).1.lq = s.lq
  | 0, _ => rfl
  | n + 1, s => (startThreads_lq pc clear n _).trans (by split_ifs <;> rfl)
theorem startThreads_ready (pc : DWord) (clear : Bool) : ∀ (n : Nat) (s : State), ∀ k ∈ (startThreads s pc clear n).2,
    k.st = .ready ∧ k.pc = pc ∧ (clear = true → k.preds = 0)
  | 0, _, _, h => by cases h
  | n + 1, s, k, h => by
    rcases List.mem_cons.mp h with rfl | h
    · exact ⟨rfl, rfl, fun hc => by rw [hc]; rfl⟩
    · exact startThreads_ready pc clear n _ k h
theorem meet_cores (s : State) (a core sc : Nat) (rs : List Rel) : (meet s a core sc rs).cores = s.cores := cores_of_aside (learn_aside ..)
theorem meet_lq (s : State) (a core sc : Nat) (rs : List Rel) : (meet s a core sc rs).lq = s.lq := lq_of_aside (learn_aside ..)

/-- The group of a start at a spot, with its threads. -/
def startGroup (x : Start) (n : Need) (bid cycle : Nat) (ts : List Thread) (sp : Spot × Nat) : Group :=
  ({ Group.blank with
    vd := x.vd, priv := x.priv, core := x.core, width := n.width, regs := n.regs, asid := x.asid, blk := bid, gix := sp.2, owner := x.owner,
    kregs := x.kregs, threads := ts, since := cycle } : Group).atSpot sp.1
/-- One group of a block starts at its spot. -/
def startSpot (x : Start) (n : Need) (bid : Nat) (rs : List Rel) (s : State) (sp : Spot × Nat) : State :=
  let q := startThreads s x.entry x.clear n.width
  let g := startGroup x n bid s.sch.cycle q.2 sp
  (List.range n.width).foldl (fun t i => meet t (threadAgent q.1.cores.nextGid i) x.core 5 rs) (addGroup (if x.clear then clearRows q.1 g else q.1) g)
/-- A block is there, without its groups. -/
def startBase (s : State) (x : Start) (f : Fit) (n : Need) : State :=
  let t := acquire s x.core x.vd 5
  let b : Block :=
    { bid := s.cores.nextNum, num := blockNum t x.core x.vd, vd := x.vd, core := x.core, owner := x.owner, lin := x.lin, idx := x.idx, ext := x.ext,
      rank := x.rank, nbrs := x.nbrs, rowStart := f.row, rowCount := n.rows, groups := rangeFrom s.cores.nextGid f.spots.length, bars := []
      team := x.team, inRegion := f.part }
  t.onCores fun c => { c with nextNum := s.cores.nextNum + 1, blocks := c.blocks ++ [b] }
theorem startBlock_eq (s : State) (x : Start) (f : Fit) (n : Need) : (startBlock s x f n).1 = f.spots.zipIdx.foldl
    (startSpot x n s.cores.nextNum (x.chans.flatMap (chanOf (startBase s x f n)))) (startBase s x f n) := rfl

theorem startSpot_grown (x : Start) (n : Need) (bid : Nat) (rs : List Rel) (s : State) (sp : Spot × Nat) : Grown x n s (startSpot x n bid rs s sp) := by
  unfold startSpot
  dsimp only
  have hc := startThreads_cores x.entry x.clear n.width s
  have hl := startThreads_lq x.entry x.clear n.width s
  have ht := startThreads_ready x.entry x.clear n.width s
  generalize startThreads s x.entry x.clear n.width = q at hc hl ht ⊢
  generalize hG : startGroup x n bid s.sch.cycle q.2 sp = g
  refine Grown.trans (t := addGroup (if x.clear then clearRows q.1 g else q.1) g) ?_ <|
    .same (foldl_proj State.cores (fun _ _ => meet_cores ..) _ _) (foldl_proj State.lq (fun _ _ => meet_lq ..) _ _)
  refine Grown.trans (t := if x.clear then clearRows q.1 g else q.1) (.same ?_ ?_) ⟨⟨_, rfl, fun g' hg => ?_⟩, rfl, rfl⟩
  · split_ifs <;> exact hc
  · split_ifs <;> exact hl
  · rw [List.mem_singleton.mp hg, ← hG]
    exact ⟨rfl, rfl, rfl, rfl, rfl, ht⟩

/-- A block starts with its groups: it is the last of the blocks, and its groups are the last of the groups. -/
structure Started (x : Start) (f : Fit) (n : Need) (s t : State) : Prop where
  blocks : ∃ b, t.cores.blocks = s.cores.blocks ++ [b] ∧ b.owner = x.owner ∧ b.vd = x.vd ∧ b.core = x.core ∧ b.rowStart = f.row
  groups : ∃ gs, t.cores.groups = s.cores.groups ++ gs ∧ ∀ g ∈ gs, Begun x n g
  lq : t.lq = s.lq
theorem startBlock_started (s : State) (x : Start) (f : Fit) (n : Need) : Started x f n s (startBlock s x f n).1 := by
  have hl : (startBase s x f n).lq = s.lq := (lq_of_aside (acquire_aside s x.core x.vd 5) :)
  have hg : (startBase s x f n).cores.groups = s.cores.groups :=
    (congrArg CoresState.groups (cores_of_aside (acquire_aside s x.core x.vd 5)) :)
  obtain ⟨b, hb, hx⟩ : ∃ b, (startBase s x f n).cores.blocks = s.cores.blocks ++ [b] ∧ b.owner = x.owner ∧ b.vd = x.vd ∧ b.core = x.core
      ∧ b.rowStart = f.row := by
    unfold startBase
    simp only [State.onCores_cores, cores_of_aside (acquire_aside s x.core x.vd 5)]
    exact ⟨_, rfl, rfl, rfl, rfl, rfl⟩
  rw [startBlock_eq]
  obtain ⟨hg', hb', hl'⟩ := Grown.foldl (startSpot_grown x n s.cores.nextNum (x.chans.flatMap (chanOf (startBase s x f n))))
    f.spots.zipIdx (startBase s x f n)
  rw [hg] at hg'
  exact ⟨⟨b, hb'.trans hb, hx⟩, hg', hl'.trans hl⟩

end Sys2Proof.Machine
end

section
/-! PROOFS. The dispatchers place blocks, teams and tasks (R91, R100, R108, R110, R112, R114 to R117). -/
namespace Sys2Proof.Machine

/-! Blocks of a launch. -/

/-- What the second state has besides the first once blocks of a launch have started at some spots. -/
structure Placed (l : Launch) (es : List (Nat × Fit)) (s t : State) : Prop where
  blocks : ∃ bs, t.cores.blocks = s.cores.blocks ++ bs ∧ bs.length = es.length
    ∧ ∀ b ∈ bs, b.owner = .launch l.lid ∧ b.vd = l.vd ∧ ∃ e ∈ es, b.core = e.1 ∧ b.rowStart = e.2.row
  groups : ∃ gs, t.cores.groups = s.cores.groups ++ gs ∧ ∀ g ∈ gs, g.owner = .launch l.lid ∧ g.vd = l.vd ∧ g.width = l.width ∧ g.regs = l.regs
    ∧ ∀ k ∈ g.threads, k.st = .ready ∧ k.pc = BitVec.ofNat 64 (l.f 8 8)
  lq : t.lq = s.lq

theorem placeOne_placed (s : State) (l : Launch) (L : Nat) (team : Option Nat) (e : Nat × Fit) : Placed l [e] s (placeOne s l L team e) := by
  obtain ⟨⟨b, hb, ho, hv, hcore, hrow⟩, ⟨gs, hg, hs⟩, hl⟩ := startBlock_started s
    { vd := l.vd, core := e.1, priv := userPriv l.vd, asid := l.asid, owner := .launch l.lid, entry := BitVec.ofNat 64 (l.f 8 8)
      kregs := Vector.ofFn fun i => BitVec.ofNat 32 (l.f (128 + 4 * i.val) 4), clear := false, lin := L, idx := (List.range l.nlev).map (l.idxAt L)
      ext := (List.range l.nlev).map l.ext, rank := l.rank, nbrs := l.nbrs, team := team, chans := [.launches l.vd] } e.2 l.need
  refine ⟨⟨[b], hb, rfl, fun c hc => ?_⟩, ⟨gs, hg, fun g hm => ?_⟩, hl⟩
  · rw [List.mem_singleton.mp hc]
    exact ⟨ho, hv, e, List.mem_singleton_self e, hcore, hrow⟩
  · have h := hs g hm
    exact ⟨h.owner, h.vd, h.width, h.regs, fun k hk => ⟨(h.threads k hk).1, (h.threads k hk).2.1⟩⟩
theorem Placed.cons {l : Launch} {e : Nat × Fit} {es : List (Nat × Fit)} {s t u : State} (h : Placed l [e] s t) (k : Placed l es t u) :
    Placed l (e :: es) s u := by
  obtain ⟨⟨bs, hb, hn, hbs⟩, ⟨gs, hg, hgs⟩, hl⟩ := h
  obtain ⟨⟨bs', hb', hn', hbs'⟩, ⟨gs', hg', hgs'⟩, hl'⟩ := k
  refine ⟨⟨bs ++ bs', by rw [hb', hb, List.append_assoc], by simp [hn, hn', Nat.add_comm], fun b hm => ?_⟩,
    ⟨gs ++ gs', by rw [hg', hg, List.append_assoc], fun g hm => (List.mem_append.mp hm).elim (hgs g) (hgs' g)⟩, hl'.trans hl⟩
  rcases List.mem_append.mp hm with hm | hm
  · obtain ⟨ho, hv, x, hx, hr⟩ := hbs b hm
    exact ⟨ho, hv, x, List.mem_cons.mpr (.inl (List.mem_singleton.mp hx)), hr⟩
  · obtain ⟨ho, hv, x, hx, hr⟩ := hbs' b hm
    exact ⟨ho, hv, x, List.mem_cons_of_mem _ hx, hr⟩
theorem placeAll_placed (l : Launch) (L : Nat) (team : Option Nat) : ∀ (es : List (Nat × Fit)) (k : Nat) (s : State),
    Placed l es s ((es.zipIdx k).foldl (fun s e => placeOne s l (L + e.2) team e.1) s)
  | [], _, s => ⟨⟨[], by simp⟩, ⟨[], by simp⟩, rfl⟩
  | e :: es, k, s => (placeOne_placed s l (L + k) team e).cons (placeAll_placed l L team es (k + 1) _)

/-- A team gets a number. -/
def teamed (s : State) (l : Launch) : State :=
  match (l.level 3).map (fun _ => s.cores.nextNum) with
  | some t => s.onCores fun c => { c with nextNum := c.nextNum + 1, teams := c.teams.put t false }
  | none => s
/-- The cursor of a launch passes the blocks that have started. -/
def Launch.passed (l : Launch) (L d n : Nat) (x : Launch) : Launch :=
  { x with
    cursor := L + n, dispatched := x.dispatched + n, resident := x.resident + n
    teamDie := match l.level 4 with | some j => x.teamDie.put (L / l.below j) d | none => x.teamDie }
/-- The blocks at the cursor start. -/
def placeBlocks (s : State) (l : Launch) (es : List (Nat × Fit)) : State :=
  es.zipIdx.foldl (fun t e => placeOne t l (l.next.getD 0 + e.2) ((l.level 3).map (fun _ => s.cores.nextNum)) e.1) (teamed s l)
theorem placeLaunch_eq (s : State) (l : Launch) (d : Nat) (es : List (Nat × Fit)) : placeLaunch s l d es =
    (onLaunch (placeBlocks s l es) l.lid (l.passed (l.next.getD 0) d es.length)).onLq fun q => { q with toggles := q.toggles.put (4 * l.vd + d) true } := rfl

theorem teamed_same (s : State) (l : Launch) : (teamed s l).cores.blocks = s.cores.blocks ∧ (teamed s l).cores.groups = s.cores.groups
    ∧ (teamed s l).lq = s.lq := by
  unfold teamed
  split <;> exact ⟨rfl, rfl, rfl⟩
theorem placeBlocks_placed (s : State) (l : Launch) (es : List (Nat × Fit)) : Placed l es s (placeBlocks s l es) := by
  obtain ⟨hb, hg, hl⟩ := teamed_same s l
  obtain ⟨hb', hg', hl'⟩ := placeAll_placed l (l.next.getD 0) ((l.level 3).map (fun _ => s.cores.nextNum)) es 0 (teamed s l)
  exact ⟨hb ▸ hb', hg ▸ hg', hl'.trans hl⟩
theorem placeLaunch_cores (s : State) (l : Launch) (d : Nat) (es : List (Nat × Fit)) : (placeLaunch s l d es).cores = (placeBlocks s l es).cores := rfl
/-- A placement moves the cursor of its launch, and the toggle. -/
theorem placeLaunch_lq (s : State) (l : Launch) (d : Nat) (es : List (Nat × Fit)) : (placeLaunch s l d es).lq =
    { s.lq with
      launches := s.lq.launches.map (fun x => if x.lid = l.lid then l.passed (l.next.getD 0) d es.length x else x)
      toggles := s.lq.toggles.put (4 * l.vd + d) true } := by
  rw [placeLaunch_eq]
  simp only [onLaunch, State.onLq_lq, (placeBlocks_placed s l es).lq]

/-! Tasks. -/

theorem startTask_started (s : State) (tid v asid core : Nat) (p : Bytes) (cs : List Chan) (f : Fit) :
    Started { vd := v, core := core, priv := userPriv v, asid := asid, owner := .task tid, entry := BitVec.ofNat 64 (pkEntry p), kregs := pkKregs p
              clear := true, lin := 0, idx := [0, 0, 0], ext := [(pkNeed p).width, 1, 1], rank := 0, nbrs := [], team := none, chans := cs }
      f (pkNeed p) s (startTask s tid v asid core p cs f).1 := startBlock_started ..

/-- A task as it leaves its queue or ring. -/
def freshTask (s : State) (v asid core d : Nat) (p : Bytes) (handle : Option (BitVec 32)) (worker : Option Nat) : Task :=
  { tid := s.lq.nextId, vd := v, die := d, core := core, asid := asid, packet := p, handle := handle, phaseNo := 0, worker := worker, killing := none }
/-- The counters with that of a task that runs. -/
def runningCounters (q : LqState) : Option (BitVec 32) → Tab Counter
  | some h => q.counters.write Counter.free (counterKey h.toNat) { q.counters.at Counter.free (counterKey h.toNat) with st := .running }
  | none => q.counters
/-- A new task is listed and its counter runs. -/
theorem newTask_lq (s : State) (v asid core d : Nat) (p : Bytes) (handle : Option (BitVec 32)) (worker : Option Nat) (f : Fit) :
    (newTask s v asid core d p handle worker f).lq =
      { s.lq with
        counters := runningCounters s.lq handle
        nextId := s.lq.nextId + 1
        tasks := s.lq.tasks ++ [freshTask s v asid core d p handle worker] } := by
  unfold newTask
  dsimp only
  rw [(startTask_started ..).lq]
  cases handle <;> rfl
/-- Its group starts at the entry with predicates of 0. -/
theorem newTask_groups (s : State) (v asid core d : Nat) (p : Bytes) (handle : Option (BitVec 32)) (worker : Option Nat) (f : Fit) :
    ∃ gs, (newTask s v asid core d p handle worker f).cores.groups = s.cores.groups ++ gs ∧ ∀ g ∈ gs, g.owner = .task s.lq.nextId ∧ g.core = core
      ∧ ∀ k ∈ g.threads, k.st = .ready ∧ k.pc = BitVec.ofNat 64 (pkEntry p) ∧ k.preds = 0 := by
  unfold newTask
  dsimp only
  obtain ⟨gs, hg, hs⟩ := (startTask_started _ s.lq.nextId v asid core p _ f).groups
  refine ⟨gs, hg.trans ?_, fun g hm => ⟨(hs g hm).owner, (hs g hm).core, fun k hk => ?_⟩⟩
  · cases handle <;> rfl
  · obtain ⟨hst, hpc, hp⟩ := (hs g hm).threads k hk
    exact ⟨hst, hpc, hp rfl⟩
theorem newTask_govOf (s : State) (v asid core d : Nat) (p : Bytes) (handle : Option (BitVec 32)) (worker : Option Nat) (f : Fit) (w e : Nat) :
    govOf (newTask s v asid core d p handle worker f) w e = govOf s w e := by
  rw [govOf, newTask_lq, govOf]
theorem newTask_readyOf (s : State) (v asid core d : Nat) (p : Bytes) (handle : Option (BitVec 32)) (worker : Option Nat) (f : Fit) (w e : Nat) :
    readyOf (newTask s v asid core d p handle worker f) w e = readyOf s w e := by
  rw [readyOf, newTask_lq, readyOf]
theorem newTask_running (s : State) (v asid core d : Nat) (p : Bytes) (worker : Option Nat) (f : Fit) (h : BitVec 32) :
    (counterAt (newTask s v asid core d p (some h) worker f) h.toNat).st = .running := by
  rw [counterAt, newTask_lq]
  simp only [runningCounters, Tab.at_write_self]

theorem readyOf_takeReady (s : State) (v d : Nat) (r : Ready) : readyOf (takeReady s v d r) v d = (readyOf s v d).erase r := readyOf_setReady_self ..

theorem takeReady_cores (s : State) (v d : Nat) (r : Ready) : (takeReady s v d r).cores = s.cores := rfl

/-! Whose turn it is (R117). -/

/-- The instruction that places a launch's blocks, and the one that places the head of a ready queue. -/
def Launch.placer (l : Launch) : Instr := if (l.level 3).isNone then .placeBlock else .placeTeam
def Ready.placer (r : Ready) : Instr := if r.resume.isSome then .phaseResume else .placeTask

section
variable {s : State} {v d : Nat}
theorem placement_none (hl : launchOffer s v d = none) (ht : taskOffer s v d = none) : placement s v d = none := by
  simp [placement, hl, ht]
theorem placement_launch {l : Launch} {x : List (Nat × Fit)} (hl : launchOffer s v d = some (l, x))
    (ht : taskOffer s v d = none ∨ s.lq.toggles.at false (4 * v + d) = false) : placement s v d = some l.placer := by
  rcases ht with ht | ht <;> simp [placement, hl, ht, Launch.placer]
theorem placement_task {r : Ready} {core : Nat} {f : Fit} (ht : taskOffer s v d = some (r, core, f))
    (hl : launchOffer s v d = none ∨ s.lq.toggles.at false (4 * v + d) = true) : placement s v d = some r.placer := by
  rcases hl with hl | hl <;> simp [placement, hl, ht, Ready.placer]
end

section
variable {s : State} {mine : Instr → Bool} {f : State → Answer} {i : Instr}
theorem placeAs_none (h : placement s s.sch.sel.vd.val s.sch.sel.die.val = none) : placeAs mine f s = .next s := by simp [placeAs, h]
theorem placeAs_mine (h : placement s s.sch.sel.vd.val s.sch.sel.die.val = some i) (hm : mine i = true) : placeAs mine f s = f s := by
  simp [placeAs, h, hm]
theorem placeAs_other (h : placement s s.sch.sel.vd.val s.sch.sel.die.val = some i) (hm : mine i = false) :
    placeAs mine f s = .next (s.push (.ev i s.sch.sel)) := by simp [placeAs, h, hm]
end

/-- The four instructions of a die's dispatcher. -/
def placers : List Instr := [.placeBlock, .placeTeam, .placeTask, .phaseResume]
/-- Each of them places when it is its turn. -/
theorem exec_placer {s : State} {j : Instr} (hj : j ∈ placers) :
    ∃ mine f, exec j s = placeAs mine f s ∧ ∀ i ∈ placers, i ≠ j → mine i = false := by
  simp only [placers, List.mem_cons, List.not_mem_nil, or_false] at hj
  rcases hj with rfl | rfl | rfl | rfl <;> exact ⟨_, _, rfl, by simp [placers]⟩
theorem exec_placers_none {s : State} (h : placement s s.sch.sel.vd.val s.sch.sel.die.val = none) : ∀ i ∈ placers, exec i s = .next s := by
  intro i hi
  obtain ⟨mine, f, he, -⟩ := exec_placer (s := s) hi
  exact he.trans (placeAs_none h)
/-- A placement of another kind has the one due take its turn. -/
theorem exec_placers_other {s : State} {i : Instr} (h : placement s s.sch.sel.vd.val s.sch.sel.die.val = some i) (hi : i ∈ placers) :
    ∀ j ∈ placers, j ≠ i → exec j s = .next (s.push (.ev i s.sch.sel)) := by
  intro j hj hne
  obtain ⟨mine, f, he, hm⟩ := exec_placer (s := s) hj
  exact he.trans (placeAs_other h (hm i hi hne.symm))
theorem Launch.placer_mem (l : Launch) : l.placer ∈ placers := by unfold Launch.placer; split_ifs <;> simp [placers]
theorem Ready.placer_mem (r : Ready) : r.placer ∈ placers := by unfold Ready.placer; split_ifs <;> simp [placers]

section
variable {s : State}
theorem exec_launch_placer {l : Launch} {x : List (Nat × Fit)} (hl : launchOffer s s.sch.sel.vd.val s.sch.sel.die.val = some (l, x))
    (h : placement s s.sch.sel.vd.val s.sch.sel.die.val = some l.placer) :
    exec l.placer s = .next (placeLaunch s l s.sch.sel.die.val x) := by
  have hf : fromLaunch s = .next (placeLaunch s l s.sch.sel.die.val x) := by simp only [fromLaunch, hl]
  unfold Launch.placer at h ⊢
  split_ifs at h ⊢
  · exact (placeAs_mine h rfl).trans hf
  · exact (placeAs_mine h rfl).trans hf
variable {r : Ready} {core : Nat} {f : Fit} (ht : taskOffer s s.sch.sel.vd.val s.sch.sel.die.val = some (r, core, f))
  (h : placement s s.sch.sel.vd.val s.sch.sel.die.val = some r.placer)
include ht h
theorem exec_placeTask (hr : r.resume = none) : exec .placeTask s =
    .next (newTask (takeReady s s.sch.sel.vd.val s.sch.sel.die.val r) s.sch.sel.vd.val r.asid core s.sch.sel.die.val r.packet r.handle none f) := by
  rw [Ready.placer, hr] at h
  exact (placeAs_mine h rfl).trans (by simp only [fromReady, ht])
theorem exec_phaseResume {tid cl : Nat} (hr : r.resume = some (tid, cl)) : exec .phaseResume s =
    .next (reap (phaseResume s s.sch.sel.vd.val s.sch.sel.die.val r tid core f)) := by
  rw [Ready.placer, hr] at h
  exact (placeAs_mine h rfl).trans (by simp only [fromBillet, ht, hr])
end

/-- What a VD's launch stream offers is one of its launches. -/
theorem launchOffer_mem {s : State} {v d : Nat} {l : Launch} {x : List (Nat × Fit)} (h : launchOffer s v d = some (l, x)) : l ∈ s.lq.launches := by
  obtain ⟨y, hy, he⟩ := List.exists_of_findSome?_eq_some h
  obtain ⟨z, -, hz⟩ := Option.map_eq_some_iff.mp he
  rw [← (Prod.mk.inj hz).1]
  exact (List.mem_filter.mp (List.mem_filter.mp hy).1).1

/-! A phase that resumes. -/

/-- The bytes of a billet. -/
def billetSize (p : Bytes) : Nat := 64 + 8 * pkWidth p + 4 * pkWidth p * pkCarryCnt p + 256 * pkCscr p
section
variable {s y : State} {v d tid core : Nat} {r : Ready} {f : Fit}
theorem phaseResume_waits (h : engReadN s (swEng s (clusterOfCore core) v r.asid) (pkBillet r.packet) (billetSize r.packet) = (y, .error .wait)) :
    phaseResume s v d r tid core f = y := by
  unfold billetSize at h
  simp only [phaseResume, h]
theorem phaseResume_fails {e : EngErr} (he : e ≠ .wait)
    (h : engReadN s (swEng s (clusterOfCore core) v r.asid) (pkBillet r.packet) (billetSize r.packet) = (y, .error e)) :
    phaseResume s v d r tid core f = startKill (takeReady y v d r) v (.task tid) 0 := by
  unfold billetSize at h
  cases e with
  | wait => exact absurd rfl he
  | _ => simp only [phaseResume, h]
section
variable {b : Bytes}
theorem phaseResume_poisoned (h : engReadN s (swEng s (clusterOfCore core) v r.asid) (pkBillet r.packet) (billetSize r.packet) = (y, .ok (b, true))) :
    phaseResume s v d r tid core f = startKill (takeReady y v d r) v (.task tid) 0 := by
  unfold billetSize at h
  simp only [phaseResume, h, if_true]
theorem phaseResume_read (h : engReadN s (swEng s (clusterOfCore core) v r.asid) (pkBillet r.packet) (billetSize r.packet) = (y, .ok (b, false))) :
    phaseResume s v d r tid core f = resumeKnow (resumeFrom (startTask (onTask (takeReady y v d r) tid
      (fun k => { k with core := core })) tid v r.asid core r.packet [] f).1 tid core f.row r.packet b) tid := by
  unfold billetSize at h
  simp only [phaseResume, h]
  rfl
end
end

/-! Stage workers (R110). -/

section
variable {s : State} {v d n : Nat}
/-- The packet at HEAD of a worker's stage, as it is read. -/
def stageRead (s : State) (v d n : Nat) : State × Except EngErr (Bytes × Bool) :=
  let g := (govOf s v d).stage (wkStage ((govOf s v d).worker n))
  gpaReadN s (ioEng v 0) (g.base + 256 * (g.head.toNat % 2 ^ g.log)) 256
/-- HEAD of a stage goes past its packet. -/
def stagePast (s : State) (v d i : Nat) : State := onGov s v d (fun g => g.onStage i (fun t => { t with head := t.head + 1 }))
theorem stage_stagePast (s : State) (v d i : Nat) : ((govOf (stagePast s v d i) v d).stage i).head = ((govOf s v d).stage i).head + 1 := by
  rw [stagePast, govOf_onGov_self, Gov.stage_onStage_self]
theorem stagePast_tasks (s : State) (v d i : Nat) : (stagePast s v d i).lq.tasks = s.lq.tasks := rfl
/-- May the packet be a stage's? -/
def stageOk (s : State) (v : Nat) (b : Bytes) : Bool := pkOk b && !pkPhased b && fitsGrant s v (pkNeed b)
theorem stageBad_eq (s : State) (v : Nat) (b : Bytes) : (!pkOk b || pkPhased b || !fitsGrant s v (pkNeed b)) = !stageOk s v b := by
  simp [stageOk]
/-- The record of a stage's packet that is not good. -/
def stageBadRec (v d : Nat) : Rec := { type := 0x0B, sev := 1, vd := v, unit := 0x420 + d, data0 := noHandle }

theorem workerTake_idle (h : workerIdle s v d n = false) : workerTake s v d n = s := by simp [workerTake, h]
section
variable {y : State} (h : workerIdle s v d n = true)
include h
theorem workerTake_waits (hr : stageRead s v d n = (y, .error .wait)) : workerTake s v d n = y := by
  simp [workerTake, h, show gpaReadN s _ _ 256 = _ from hr]
theorem workerTake_unread {e : EngErr} (he : e ≠ .wait) (hr : stageRead s v d n = (y, .error e)) : workerTake s v d n =
    stageFail y v d (wkStage ((govOf s v d).worker n)) ((govOf s v d).stage (wkStage ((govOf s v d).worker n))) := by
  cases e with
  | wait => exact absurd rfl he
  | _ => simp [workerTake, h, show gpaReadN s _ _ 256 = _ from hr]
theorem workerTake_poisoned {b : Bytes} (hr : stageRead s v d n = (y, .ok (b, true))) : workerTake s v d n =
    stageFail y v d (wkStage ((govOf s v d).worker n)) ((govOf s v d).stage (wkStage ((govOf s v d).worker n))) := by
  simp [workerTake, h, show gpaReadN s _ _ 256 = _ from hr]
section
variable {b : Bytes} (hr : stageRead s v d n = (y, .ok (b, false)))
include hr
theorem workerTake_unowned (ho : bit (field b 1 1) 7 ≠ ownerBit ((govOf s v d).stage (wkStage ((govOf s v d).worker n))).head
    ((govOf s v d).stage (wkStage ((govOf s v d).worker n))).log) : workerTake s v d n = y := by
  simp [workerTake, h, show gpaReadN s _ _ 256 = _ from hr, ho]
variable (ho : bit (field b 1 1) 7 = ownerBit ((govOf s v d).stage (wkStage ((govOf s v d).worker n))).head
  ((govOf s v d).stage (wkStage ((govOf s v d).worker n))).log)
include ho
theorem workerTake_bad (hk : stageOk y v b = false) : workerTake s v d n =
    stagePast (offerRec y v (stageBadRec v d)) v d (wkStage ((govOf s v d).worker n)) := by
  simp [workerTake, h, show gpaReadN s _ _ 256 = _ from hr, ho, stageBad_eq, hk, stagePast, stageBadRec]
variable (hk : stageOk y v b = true)
include hk
theorem workerTake_full (hf : workerFit y v (wkCore ((govOf s v d).worker n)) (wkSlot ((govOf s v d).worker n)) (pkNeed (b.take (16 * field b 0 1))) = none) :
    workerTake s v d n = y := by
  simp [workerTake, h, show gpaReadN s _ _ 256 = _ from hr, ho, stageBad_eq, hk, hf]
theorem workerTake_takes {f : Fit}
    (hf : workerFit y v (wkCore ((govOf s v d).worker n)) (wkSlot ((govOf s v d).worker n)) (pkNeed (b.take (16 * field b 0 1))) = some f) :
    workerTake s v d n = newTask (stagePast y v d (wkStage ((govOf s v d).worker n))) v (bits (govOf y v d).ctl.toNat 15 8)
      (wkCore ((govOf s v d).worker n)) d (b.take (16 * field b 0 1)) none (some n) f := by
  simp [workerTake, h, show gpaReadN s _ _ 256 = _ from hr, ho, stageBad_eq, hk, hf, stagePast]
end
end
end

end Sys2Proof.Machine

namespace Sys2Proof
open Machine

/-- Settles O43: which placement is due (`placement_launch`, `placement_task`), what a placement starts (`placeBlocks_placed`,
`newTask_groups`), and a stage worker by what it reads at HEAD. -/
theorem dispatchers : Obligations.Dispatchers := by
  unfold Obligations.Dispatchers
  intro s v d n placed four ready
  refine ⟨fun hl ht => exec_placers_none (placement_none hl ht), fun l x hl ht => ?_, fun r core f ht hl => ⟨fun hr => ?_, fun tid cl hr => ?_⟩,
    fun h => congrArg (fun t => Host.Outcome.next (flushRecs t)) (workerTake_idle h), fun h y z => ?_⟩
  · have hp := placement_launch hl ht
    intro i
    have hi : i = l.placer := by simp [i, Launch.placer]
    rw [hi]
    refine ⟨⟨_, exec_launch_placer hl hp, ?_⟩, exec_placers_other hp l.placer_mem⟩
    dsimp only
    rw [placeLaunch_cores, placeLaunch_lq]
    obtain ⟨⟨bs, hb, hn, hbs⟩, ⟨gs, hg, hgs⟩, -⟩ := placeBlocks_placed s l x
    rw [hb, hg, List.drop_left, List.drop_left, List.length_append, hn]
    refine ⟨rfl, ⟨_, List.mem_map.mpr ⟨l, launchOffer_mem hl, if_pos rfl⟩, rfl, rfl, rfl⟩, hbs, hgs, ?_⟩
    exact congrArg (Option.getD · false) (Tab.find_put_self ..)
  · have hp := placement_task ht hl
    have hi : r.placer = .placeTask := by simp [Ready.placer, hr]
    refine ⟨hi ▸ exec_placers_other hp r.placer_mem, _, exec_placeTask ht hp hr, ?_, ?_, fun h hh => ?_, ?_⟩
    · rw [newTask_readyOf, readyOf_takeReady]
    · rw [newTask_lq]
      exact ⟨_, rfl, rfl, rfl, rfl, rfl, rfl⟩
    · rw [hh]
      exact newTask_running ..
    · obtain ⟨gs, hg, hgs⟩ := newTask_groups (takeReady s v d r) v r.asid core d r.packet r.handle none f
      intro g hm
      rw [hg, takeReady_cores, List.drop_left] at hm
      exact hgs g hm
  · have hp := placement_task ht hl
    have hi : r.placer = .phaseResume := by simp [Ready.placer, hr]
    have he := fun t (h : phaseResume s v d r tid core f = t) => (exec_phaseResume ht hp hr).trans (congrArg (fun t => Host.Outcome.next (reap t)) h)
    refine ⟨hi ▸ exec_placers_other hp r.placer_mem, fun y z hz => ⟨fun hw => he _ (phaseResume_waits (hw ▸ hz)), ?_,
      fun b hb => he _ (phaseResume_read (hb ▸ hz))⟩⟩
    rintro (⟨e, rfl, hne⟩ | ⟨b, rfl⟩)
    · exact he _ (phaseResume_fails hne hz)
    · exact he _ (phaseResume_poisoned hz)
  · intro w g hz
    have he := fun t (h : workerTake s v d n = t) => (congrArg (fun t => Host.Outcome.next (flushRecs t)) h : exec .stageWorkerTake s = _)
    refine ⟨fun hw => he _ (workerTake_waits h (hw ▸ hz)), ?_, fun b hb => ⟨fun ho => he _ (workerTake_unowned h (hb ▸ hz) ho), fun ho hk => ?_,
      fun ho hk hf => he _ (workerTake_full h (hb ▸ hz) ho hk hf), fun ho hk f hf => ?_⟩⟩
    · rintro (⟨e, rfl, hne⟩ | ⟨b, rfl⟩)
      · exact he _ (workerTake_unread h hne hz)
      · exact he _ (workerTake_poisoned h hz)
    · refine ⟨_, he _ (workerTake_bad h (hb ▸ hz) ho hk), ?_, ?_⟩
      · rw [govOf, flushRecs_lq]
        exact stage_stagePast ..
      · rw [flushRecs_lq, stagePast_tasks, offerRec_lq]
    · refine ⟨_, he _ (workerTake_takes h (hb ▸ hz) ho hk hf), ?_, ?_⟩
      · rw [govOf, flushRecs_lq]
        exact (congrArg (fun x : Gov => (x.stage (wkStage w)).head) (newTask_govOf ..)).trans (stage_stagePast ..)
      · rw [flushRecs_lq, newTask_lq]
        exact ⟨_, List.mem_append_right _ (List.mem_singleton_self _), rfl, rfl, rfl, rfl⟩

end Sys2Proof
end

section
/-! PROOFS. What posts, records and kills that start leave of the cores' local memories, the windows and the engines' work. -/
namespace Sys2Proof.Machine

theorem loc_of_aside {s t : State} (h : t.aside = s.aside) : t.loc = s.loc := (congrArg State.loc h :)
theorem loc_fst {α : Type} {q : State × α} {x s : State} {y : α} (e : q = (x, y)) (h : q.1.loc = s.loc) : x.loc = s.loc := by
  rw [e] at h; exact h

theorem noteBatch_loc (s : State) (core v : Nat) : (noteBatch s core v).loc = s.loc := rfl
theorem onSvq_loc (s : State) (core v : Nat) (f : Svq → Svq) : (onSvq s core v f).loc = s.loc := rfl
theorem tryPost_loc (s : State) (num : Nat) : (tryPost s num).loc = s.loc := by
  unfold tryPost
  split
  · rfl
  · next p _ =>
    have h1 := loc_of_aside (svqSlot_aside s p.core p.vd (svqOf s p.core p.vd).tail.toNat)
    dsimp only
    split
    · rfl
    · split <;> rename_i e <;> replace h1 := loc_fst e h1
      · exact h1
      · exact (noteBatch_loc ..).trans <| (onSvq_loc ..).trans <| (State.onCores_loc ..).trans <| (loc_of_aside (postRel_aside ..)).trans
          ((loc_of_aside (mscWrite_aside ..)).trans ((loc_of_aside (mscWrite_aside ..)).trans h1))
theorem postDirect_loc (s : State) (core v cause addr : Nat) (arg : Bytes) (src : PostSrc) (asid : Nat) :
    (postDirect s core v cause addr arg src asid).loc = s.loc := tryPost_loc ..
theorem setMipAll_loc (s : State) (b : Nat) : (setMipAll s b).loc = s.loc := by
  unfold setMipAll
  generalize List.range 832 = l
  exact foldl_proj State.loc (f := fun s c => setMip s c b) (fun _ _ => rfl) l s
theorem writeRec_loc (s : State) (v : Nat) (b : Bytes) : (writeRec s v b).loc = s.loc := by
  have hm : ∀ y, State.loc (if v = 0 then setMipAll y 4 else setMip y (rpcCore y v) 3) = y.loc := by
    intro y; split
    · exact setMipAll_loc y 4
    · rfl
  unfold writeRec
  dsimp only
  split
  · rfl
  · split <;> rename_i e <;> have h1 := loc_fst e (loc_of_aside (regXlate_aside ..))
    · exact h1
    · next t a =>
      split
      · have h2 : (mscWrite (mscWrite t v (kidFor t v a) a (b.take 32)).1 v (kidFor (mscWrite t v (kidFor t v a) a (b.take 32)).1 v a) (a + 32)
            (b.drop 32)).1.loc = s.loc :=
          (loc_of_aside (mscWrite_aside ..)).trans ((loc_of_aside (mscWrite_aside ..)).trans h1)
        split
        · exact (postDirect_loc ..).trans ((hm _).trans h2)
        · exact (hm _).trans h2
      · exact h1
/-- The end of a step. -/
@[simp] theorem flushRecs_loc (s : State) : (flushRecs s).loc = s.loc := by
  unfold flushRecs
  exact foldl_proj State.loc (fun t (e : Nat × Bytes) => writeRec_loc t e.1 e.2) _ _

/-- A kill that starts marks its work, and its turn is queued. -/
theorem startKill_rest (s : State) (v : Nat) (w : Owner) (q : Nat) :
    (startKill s v w q).loc = s.loc ∧ (startKill s v w q).vds = s.vds ∧ (startKill s v w q).sch.cycle = s.sch.cycle := by
  unfold startKill
  split
  · split
    · dsimp only; split_ifs <;> exact ⟨rfl, rfl, rfl⟩
    · exact ⟨rfl, rfl, rfl⟩
  · split
    · dsimp only; split_ifs <;> exact ⟨rfl, rfl, rfl⟩
    · exact ⟨rfl, rfl, rfl⟩
  · exact ⟨rfl, rfl, rfl⟩
  · exact ⟨rfl, rfl, rfl⟩

end Sys2Proof.Machine
end

section
/-! PROOFS. What a switch leaves of the pairs' registers and the clock: whatever is saved and restored (R127 to R129). -/
namespace Sys2Proof.Machine

/-! One pair's registers. -/

theorem pairAt_congr {s t : State} (h : t.vds = s.vds) (n : Nat) : pairAt t n = pairAt s n := by rw [pairAt, pairAt, h]
@[simp] theorem pairAt_flushRecs (s : State) (n : Nat) : pairAt (flushRecs s) n = pairAt s n := pairAt_congr (flushRecs_vds s) n
theorem pairAt_onSlice_self (s : State) {n : Nat} (hn : n < 4) (f : SlicePair → SlicePair) : pairAt (onSlice s n f) n = f (pairAt s n) := by
  simp [pairAt, onSlice, hn]

/-- Whether one VD's state is held as saved. -/
def SlicePair.saved (p : SlicePair) (sideB : Bool) : Bool := if sideB = true then p.savedB else p.savedA
/-- The pair with that changed. -/
def SlicePair.mark (p : SlicePair) (sideB x : Bool) : SlicePair :=
  { p with savedA := if sideB = true then p.savedA else x, savedB := if sideB = true then x else p.savedB }
theorem SlicePair.saved_not (p : SlicePair) (sideB : Bool) : p.saved (!sideB) = if sideB = true then p.savedA else p.savedB := by
  cases sideB <;> rfl
theorem SlicePair.mark_saved (p : SlicePair) (sideB : Bool) : p.mark sideB (p.saved sideB) = p := by cases sideB <;> rfl
theorem SlicePair.saved_mark (p : SlicePair) (sideB x : Bool) : (p.mark sideB x).saved sideB = x := by cases sideB <;> rfl
theorem SlicePair.saved_mark_not (p : SlicePair) (sideB x : Bool) : (p.mark sideB x).saved (!sideB) = p.saved (!sideB) := by cases sideB <;> rfl

/-! The registers of the VDs with their pairs, and the cycle. -/

/-- What saving and restoring leave: a pair's registers decide the switch, and the cycle its next instant. -/
def State.paired (s : State) : VdsState × Nat := (s.vds, s.sch.cycle)

theorem paired_of_outer {s t : State} (h : t.outer = s.outer) : t.paired = s.paired := congrArg (fun o => (o.vds, o.sch.cycle)) h
theorem paired_of_aside {s t : State} (h : t.aside = s.aside) : t.paired = s.paired := congrArg (fun o => (o.vds, o.sch.cycle)) h
theorem paired_fst {α : Type} {q : State × α} {x s : State} {y : α} (e : q = (x, y)) (h : q.1.paired = s.paired) : x.paired = s.paired := by
  rw [e] at h; exact h
theorem paired_ite {c : Prop} [Decidable c] {s t u : State} (ht : t.paired = s.paired) (hu : u.paired = s.paired) :
    (if c then t else u).paired = s.paired := by split <;> assumption
theorem paired_foldl {β : Type} {f : State → β → State} (hf : ∀ s b, (f s b).paired = s.paired) (l : List β) (s : State) :
    (l.foldl f s).paired = s.paired := foldl_proj State.paired hf l s
/-- A fold that carries something beside the state. -/
theorem paired_foldl_fst {β γ : Type} {f : State × γ → β → State × γ} (hf : ∀ x b, (f x b).1.paired = x.1.paired) (l : List β) (x : State × γ) :
    (l.foldl f x).1.paired = x.1.paired := by
  induction l generalizing x with
  | nil => rfl
  | cons b l ih => exact (ih _).trans (hf x b)

theorem pairAt_of_paired {s t : State} (h : t.paired = s.paired) (n : Nat) : pairAt t n = pairAt s n := pairAt_congr (congrArg Prod.fst h) n
theorem nsNow_of_paired {s t : State} (h : t.paired = s.paired) : nsNow t = nsNow s := by
  rw [nsNow, nsNow, show t.sch.cycle = s.sch.cycle from congrArg Prod.snd h]

theorem onLoc_paired (s : State) (f : LocState → LocState) : (s.onLoc f).paired = s.paired := rfl
theorem setTileBad_paired (s : State) (c t r : Nat) (p : Bool) : (setTileBad s c t r p).paired = s.paired := rfl
theorem setSramBad_paired (s : State) (c w : Nat) (p : Bool) : (setSramBad s c w p).paired = s.paired := rfl
theorem setGroup_paired (s : State) (g : Group) : (setGroup s g).paired = s.paired := rfl
theorem queue_paired (s : State) (q : Turn) : (s.queue q).paired = s.paired := rfl
theorem wakeThreads_paired (s : State) (p : Group → Nat → Thread → Bool) (f : Thread → Thread) : (wakeThreads s p f).paired = s.paired := rfl
theorem startKill_paired (s : State) (v : Nat) (w : Owner) (q : Nat) : (startKill s v w q).paired = s.paired := by
  obtain ⟨-, hv, hc⟩ := startKill_rest s v w q
  exact Prod.ext hv hc
theorem startKills_paired (s : State) (v : Nat) (l : List Owner) : (l.foldl (fun s o => startKill s v o 0) s).paired = s.paired :=
  paired_foldl (fun t o => startKill_paired t v o 0) l s

/-! What is saved. -/

theorem engineRelease_outer (s : State) (die v sc paths : Nat) : (engineRelease s die v sc paths).outer = s.outer := by
  unfold engineRelease; split_ifs
  · exact l2Release_outer ..
  · rfl
theorem saveCore_paired (s : State) (n v core : Nat) : (saveCore s n v core).1.paired = s.paired := by
  refine (paired_of_outer (engineRelease_outer ..)).trans (paired_foldl_fst (fun x p => ?_) _ (s, true))
  exact paired_of_outer (gpaWriteN_outer ..)
/-- What a switch does before the outgoing VD's state is marked as saved. -/
theorem saveCores_paired (s : State) (n v : Nat) (l : List Nat) :
    (l.foldl (fun (a : State × Bool) c => let x := saveCore a.1 n v c; (x.1, a.2 && x.2)) (s, true)).1.paired = s.paired := by
  refine paired_foldl_fst (fun x c => ?_) l (s, true)
  exact saveCore_paired ..
/-- The outgoing VD's state may be saved afterwards; nothing else of its pair changes, and no time passes. -/
theorem sliceOut_ends (s : State) {n : Nat} (hn : n < 4) (v : Nat) (sideB : Bool) : nsNow (sliceOut s n v sideB) = nsNow s
    ∧ ∃ b, pairAt (sliceOut s n v sideB) n = (pairAt s n).mark sideB b := by
  unfold sliceOut
  extract_lets p cores r gs mineE mineS k x y z
  clear_value cores
  have hr : r.1.paired = s.paired := saveCores_paired s n v cores
  have hy : y.paired = s.paired := hr
  clear_value y
  have hz : State.paired (if r.2 = true then z else ((gs.map (·.owner)).eraseDups).foldl (fun s o => startKill s v o 0) z) = z.paired :=
    paired_ite rfl (startKills_paired ..)
  refine ⟨(nsNow_of_paired hz).trans (nsNow_of_paired hy :), ?_⟩
  rw [pairAt_of_paired hz, pairAt_onSlice_self y hn, pairAt_of_paired hy]
  by_cases hc : cores.isEmpty = true
  · exact ⟨p.saved sideB, (if_pos hc).trans (p.mark_saved sideB).symm⟩
  · exact ⟨true, (if_neg hc).trans (by cases sideB <;> rfl)⟩

/-! What is restored. -/

theorem loadPart_paired (s : State) (n v core off len : Nat) : (loadPart s n v core off len).1.paired = s.paired := by
  have h1 := paired_of_outer (gpaReadN_outer s { vd := v, asid := 0, cl := clusterOfCore core, die := some (dieOfCore core) }
    (saveBase s n v core + off) len)
  unfold loadPart
  split <;> rename_i e <;> exact paired_fst e h1
theorem loadWhole_paired (s : State) (n v core off len : Nat) : (loadWhole s n v core off len).1.paired = s.paired := loadPart_paired ..
theorem loadRows_paired (s : State) (n v core : Nat) : (loadRows s n v core).1.paired = s.paired := by
  refine paired_foldl_fst (fun x p => ?_) _ (s, true)
  exact loadWhole_paired ..
theorem loadSegs_paired (s : State) (n v core : Nat) : (loadSegs s n v core).1.paired = s.paired := by
  refine paired_foldl_fst (fun x p => ?_) _ (s, true)
  exact (setSramBad_paired ..).trans ((onLoc_paired ..).trans (loadPart_paired ..))
theorem loadTiles_paired (s : State) (n v core : Nat) : (loadTiles s n v core).1.paired = s.paired := by
  unfold loadTiles
  generalize List.range 64 = l
  refine paired_foldl_fst (fun x t => paired_foldl_fst (fun y i => ?_) _ x) _ (s, true)
  exact (setTileBad_paired ..).trans ((onLoc_paired ..).trans (loadPart_paired ..))
theorem loadCore_paired (s : State) (n v core : Nat) : (loadCore s n v core).paired = s.paired := by
  have h1 := (loadTiles_paired _ n v core).trans ((loadSegs_paired _ n v core).trans (loadRows_paired s n v core))
  exact paired_ite h1 ((startKills_paired ..).trans h1)
theorem barReturn_paired (s : State) (p : Group → Thread → Bool) (f : Thread → Thread) (sc : Nat) (c : Chan) :
    (barReturn s p f sc c).paired = s.paired :=
  (paired_foldl (fun t _ => paired_of_aside (recvBy_aside t ..)) _ _).trans rfl
theorem barResume_paired (s : State) (g : Group) : (barResume s g).paired = s.paired := by
  have h1 := fun q : Nat → Group → Thread → Bool => paired_foldl (f := fun s j => barReturn s (q j) (·.fromBar j) 2 (.bar g.blk j true))
    (fun t j => barReturn_paired t ..) (List.range 16) s
  unfold barResume
  dsimp only
  split
  · exact h1 _
  · exact (barReturn_paired ..).trans (h1 _)
theorem loadGroup_paired (s : State) (n v : Nat) (g : Group) : (loadGroup s n v g).paired = s.paired := by
  have h1 := (loadWhole_paired _ n v g.core (0x130000 + 1024 * g.coreSlot) 1024).trans
    (loadWhole_paired s n v g.core (0x400 + 1280 * g.coreSlot) 1280)
  unfold loadGroup
  extract_lets a b j y u t src w
  have hu : u.paired = s.paired := (barResume_paired ..).trans ((setGroup_paired ..).trans h1)
  have ht : t.paired = s.paired := (wakeThreads_paired ..).trans hu
  clear_value t
  have hw : w.paired = s.paired := (paired_foldl (fun _ _ => queue_paired ..) _ t).trans ht
  exact paired_ite hw ((startKill_paired ..).trans hw)
theorem loadBlock4_paired (s : State) (n v : Nat) (b : Block) : (loadBlock4 s n v b).paired = s.paired := by
  have h1 := loadWhole_paired s n v b.core (0x14400 + 256 * b.num) 256
  unfold loadBlock4
  dsimp only
  exact paired_ite h1 ((startKill_paired ..).trans h1)
theorem loadEntry_paired (s : State) (n v key : Nat) (e : AnvilEntry) : (loadEntry s n v key e).paired = s.paired := by
  have h1 := loadWhole_paired s n v (4 * (key / 32)) (0x18400 + 64 * (key % 32)) 64
  unfold loadEntry
  dsimp only
  exact paired_ite h1 ((startKill_paired ..).trans h1)
theorem loadContext_paired (s : State) (n v key : Nat) (c : SwageCtx) : (loadContext s n v key c).paired = s.paired := by
  have h1 := loadWhole_paired s n v (4 * (key / 8)) (0x18C00 + 128 * (key % 8)) 128
  have h2 : ∀ f g, (onWin ((loadWhole s n v (4 * (key / 8)) (0x18C00 + 128 * (key % 8)) 128).1.onLoc f) c.job.core c.job.entry g).paired
      = s.paired := fun f g => (onLoc_paired ..).trans ((onLoc_paired ..).trans h1)
  exact paired_ite (h2 ..) ((startKill_paired ..).trans (h2 ..))

/-- The incoming VD's state is saved no longer; nothing else of its pair changes, and no time passes. -/
theorem sliceIn_ends (s : State) {n : Nat} (hn : n < 4) (v : Nat) (sideB : Bool) : nsNow (sliceIn s n v sideB) = nsNow s
    ∧ pairAt (sliceIn s n v sideB) n = (pairAt s n).mark sideB false := by
  unfold sliceIn
  extract_lets cores a b c k es cs d e
  clear_value cores
  have ha : a.paired = s.paired := paired_foldl (fun t c => loadCore_paired t n v c) _ s
  have hb : b.paired = s.paired := (paired_foldl (fun t b => loadBlock4_paired t n v b) _ a).trans ha
  have hc : c.paired = s.paired := (paired_foldl (fun t g => loadGroup_paired t n v g) _ b).trans hb
  have hd : d.paired = s.paired := (paired_foldl (fun t x => (loadEntry_paired _ n v _ _).trans (onLoc_paired t _)) _ c).trans hc
  have he : e.paired = s.paired := (paired_foldl (fun t x => (loadContext_paired _ n v _ _).trans (onLoc_paired t _)) _ d).trans hd
  refine ⟨(nsNow_of_paired he :), ?_⟩
  rw [pairAt_onSlice_self e hn, pairAt_of_paired he]
  cases sideB <;> rfl

end Sys2Proof.Machine
end

section
/-! PROOFS. Slice pairs: enabling, disabling and the switch (R124 to R127). -/
namespace Sys2Proof.Machine

/-! The switch. -/

/-- A table without the entries whose keys a test names reads as the default there. -/
theorem Tab.at_keep_not {α : Type} (t : Tab α) (d : α) {f : Nat → Bool} {k : Nat} (h : f k = true) : (t.keep (fun k => !f k)).at d k = d := by
  rw [Tab.at, Tab.find_keep, h]; rfl

theorem nsNow_sliceClear (s : State) (n : Nat) : nsNow (sliceClear s n) = nsNow s := rfl
theorem pairAt_sliceClear (s : State) (n m : Nat) : pairAt (sliceClear s n) m = pairAt s m := rfl
/-- The region's rows, segments and tiles read as zero. -/
theorem sliceClear_reads (s : State) (n k : Nat) :
    (rowInPair (pairAt s n) k = true → (sliceClear s n).loc.rows.at 0 k = 0)
      ∧ (sramInPair (pairAt s n) k = true → (sliceClear s n).loc.sram.at 0 k = 0)
      ∧ (tileInPair (pairAt s n) k = true → (sliceClear s n).loc.tiles.at 0 k = 0) :=
  ⟨Tab.at_keep_not _ _, Tab.at_keep_not _ _, Tab.at_keep_not _ _⟩

/-- The holder has passed over. -/
def heldBy (s : State) (n : Nat) (sideB : Bool) : State := onSlice s n (fun p => { p with holderB := sideB })

theorem sliceGive_saved {s : State} {n : Nat} {toB : Bool} (h : (pairAt s n).saved toB = true) :
    sliceGive s n toB = sliceIn (heldBy s n toB) n (if toB then (pairAt s n).vdb.toNat else (pairAt s n).vda.toNat) toB := if_pos h
theorem sliceGive_unsaved {s : State} {n : Nat} {toB : Bool} (h : (pairAt s n).saved toB = false) : sliceGive s n toB = heldBy s n toB :=
  if_neg (by rw [show (if toB then (pairAt s n).savedB else (pairAt s n).savedA) = false from h]; decide)

/-- The region up to the point where the incoming VD's state is looked for. -/
def switchedOut (s : State) (n : Nat) : State :=
  sliceClear (sliceOut (onSlice s n (fun p => { p with switching := true })) n (pairAt s n).holder (pairAt s n).holderB) n
/-- The region has passed over: the outgoing side's state may be saved, the incoming side's is no longer. -/
def SlicePair.passed (p : SlicePair) (b : Bool) : SlicePair :=
  { { p with switching := true }.mark p.holderB b with holderB := !p.holderB }.mark (!p.holderB) false
theorem SlicePair.passed_unsaved (p : SlicePair) (b : Bool) :
    if p.holderB = true then (p.passed b).savedA = false else (p.passed b).savedB = false := by
  unfold passed
  cases p.holderB <;> rfl
/-- The end of a switch in the pair's registers. -/
def SlicePair.switched (p : SlicePair) (switches : BitVec 16) (now : Nat) : SlicePair :=
  { p with switching := false, switches := switches, nextNs := max (p.nextNs + 1000 * p.slice.toNat) now }

theorem sliceSwitch_idle {s : State} {n : Nat} (h : (pairAt s n).en = false ∨ (pairAt s n).stopped = true ∨ nsNow s < (pairAt s n).nextNs) :
    sliceSwitch s n = s := by
  unfold sliceSwitch
  exact if_pos (by rcases h with h | h | h <;> simp [h])
theorem sliceSwitch_due {s : State} {n : Nat} (he : (pairAt s n).en = true) (hs : (pairAt s n).stopped = false)
    (hd : (pairAt s n).nextNs ≤ nsNow s) : sliceSwitch s n =
      onSlice (sliceGive (switchedOut s n) n (!(pairAt s n).holderB)) n
        (fun p => p.switched (p.switches + 1) (nsNow (sliceGive (switchedOut s n) n (!(pairAt s n).holderB)))) := by
  unfold sliceSwitch
  exact if_neg (by simp [he, hs, hd])

section
variable (s : State) {n : Nat} (hn : n < 4)
include hn

theorem sliceGive_ends (toB : Bool) : nsNow (sliceGive s n toB) = nsNow s
    ∧ pairAt (sliceGive s n toB) n = { pairAt s n with holderB := toB }.mark toB false := by
  cases h : (pairAt s n).saved toB with
  | false =>
    rw [sliceGive_unsaved h, heldBy, pairAt_onSlice_self s hn, ← h]
    exact ⟨rfl, (SlicePair.mark_saved { pairAt s n with holderB := toB } toB).symm⟩
  | true =>
    rw [sliceGive_saved h]
    obtain ⟨hns, hp⟩ := sliceIn_ends (heldBy s n toB) hn (if toB then (pairAt s n).vdb.toNat else (pairAt s n).vda.toNat) toB
    exact ⟨hns, hp.trans (by rw [heldBy, pairAt_onSlice_self s hn])⟩

theorem switchedOut_ends : nsNow (switchedOut s n) = nsNow s
    ∧ ∃ b, pairAt (switchedOut s n) n = { pairAt s n with switching := true }.mark (pairAt s n).holderB b := by
  obtain ⟨hns, b, hp⟩ := sliceOut_ends (onSlice s n (fun p => { p with switching := true })) hn (pairAt s n).holder (pairAt s n).holderB
  exact ⟨(nsNow_sliceClear ..).trans hns, b, (pairAt_sliceClear ..).trans (hp.trans (by rw [pairAt_onSlice_self s hn]))⟩

/-- Once the outgoing VD's state is out, the region reads as zero. -/
theorem switchedOut_reads (k : Nat) : (rowInPair (pairAt s n) k = true → (switchedOut s n).loc.rows.at 0 k = 0)
    ∧ (sramInPair (pairAt s n) k = true → (switchedOut s n).loc.sram.at 0 k = 0)
    ∧ (tileInPair (pairAt s n) k = true → (switchedOut s n).loc.tiles.at 0 k = 0) := by
  obtain ⟨-, b, hp⟩ := sliceOut_ends (onSlice s n (fun p => { p with switching := true })) hn (pairAt s n).holder (pairAt s n).holderB
  rw [pairAt_onSlice_self s hn] at hp
  have h := sliceClear_reads (sliceOut (onSlice s n (fun p => { p with switching := true })) n (pairAt s n).holder (pairAt s n).holderB) n k
  rwa [hp] at h

variable {s} (he : (pairAt s n).en = true) (hs : (pairAt s n).stopped = false) (hd : (pairAt s n).nextNs ≤ nsNow s)
include he hs hd

theorem pairAt_sliceSwitch : ∃ b, pairAt (sliceSwitch s n) n = ((pairAt s n).passed b).switched ((pairAt s n).switches + 1) (nsNow s) := by
  obtain ⟨hgive, hg⟩ := sliceGive_ends (switchedOut s n) hn (!(pairAt s n).holderB)
  obtain ⟨hout, b, ho⟩ := switchedOut_ends s hn
  refine ⟨b, ?_⟩
  rw [sliceSwitch_due he hs hd, pairAt_onSlice_self _ hn, hg, ho, hgive, hout]
  rfl
theorem sliceSwitch_unsaved_loc (hu : (pairAt s n).saved (!(pairAt s n).holderB) = false) :
    (sliceSwitch s n).loc = (switchedOut s n).loc := by
  obtain ⟨-, b, ho⟩ := switchedOut_ends s hn
  have hu : (pairAt (switchedOut s n) n).saved (!(pairAt s n).holderB) = false := by rw [ho, SlicePair.saved_mark_not]; exact hu
  rw [sliceSwitch_due he hs hd, sliceGive_unsaved hu]
  rfl

end

/-! EN. -/

theorem bit_setEn (x k : Nat) : bit (setBits x 0 0 1) k = (decide (k = 0) || bit x k) := by
  have h := testBit_setBits x 0 1 1 k Nat.one_pos
  rw [bit_eq_testBit, bit_eq_testBit, show setBits x 0 0 1 = setBits x (0 + 1 - 1) 0 1 from rfl, h]
  by_cases hk : k = 0
  · subst hk; simp
  · rw [if_neg (by omega), decide_eq_false hk, Bool.false_or]
theorem wrote_setEn (p : SlicePair) (x : Nat) : p.wrote (setBits x 0 0 1) = p.wrote x := by
  have h := fun hi lo hl => bits_setBits_ne x 0 1 1 hi lo Nat.one_pos (.inr hl)
  simp only [Nat.zero_add, Nat.sub_self] at h
  rw [SlicePair.wrote, SlicePair.wrote, h _ _ (by decide), h _ _ (by decide), h _ _ (by decide)]

/-- The pair in use from the first holder on. -/
def SlicePair.started (p q : SlicePair) (clear : Bool) (now : Nat) : SlicePair :=
  { q with en := true, refused := p.refused && !clear, holderB := false, savedA := false, savedB := false, stopped := false,
           nextNs := (now / 1000 + 1) * 1000 + 1000 * q.slice.toNat }

section
variable {s : State} {n : Fin 4} {v : BitVec 64}

theorem exec_slicePairEnable_used (he : (pairAt s n.val).en = true) : exec (.slicePairEnable n v) s = .next s := by
  show Host.Outcome.next (slcCtlWrite s n.val (setBits v.toNat 0 0 1)) = _
  rw [slcCtlWrite, if_pos he, if_pos (by rw [bit_setEn]; rfl)]
theorem exec_slicePairEnable_free (he : (pairAt s n.val).en = false) :
    exec (.slicePairEnable n v) s = .next (sliceEnable s n.val (setBits v.toNat 0 0 1)) := by
  show Host.Outcome.next (slcCtlWrite s n.val (setBits v.toNat 0 0 1)) = _
  rw [slcCtlWrite, if_neg (by simp [he]), if_pos (by rw [bit_setEn]; rfl)]

theorem sliceEnable_refused (h : pairRefused s n.val ((pairAt s n.val).wrote v.toNat) = true
      ∨ savesOk s ((pairAt s n.val).wrote v.toNat) = some false) :
    sliceEnable s n.val (setBits v.toNat 0 0 1) = onSlice s n.val (fun p => { p with refused := true }) := by
  unfold sliceEnable slcWaits
  simp only [wrote_setEn]
  rw [if_neg (by rcases h with h | h <;> simp [h]), if_pos (by rcases h with h | h <;> simp [h])]
theorem sliceEnable_waits (he : (pairAt s n.val).en = false) (hr : pairRefused s n.val ((pairAt s n.val).wrote v.toNat) = false)
    (hs : savesOk s ((pairAt s n.val).wrote v.toNat) = none) :
    sliceEnable s n.val (setBits v.toNat 0 0 1) = s := by
  unfold sliceEnable slcWaits
  simp only [wrote_setEn]
  exact if_pos (by simp [he, hr, hs, bit_setEn])
theorem sliceEnable_starts (hr : pairRefused s n.val ((pairAt s n.val).wrote v.toNat) = false)
    (hs : savesOk s ((pairAt s n.val).wrote v.toNat) = some true) : sliceEnable s n.val (setBits v.toNat 0 0 1) =
      claimBlocks (onSlice s n.val fun p => p.started ((pairAt s n.val).wrote v.toNat) (bit v.toNat 1) (nsNow s)) n.val := by
  unfold sliceEnable slcWaits
  simp only [wrote_setEn, bit_setEn, show decide (1 = 0) = false from rfl, Bool.false_or]
  rw [if_neg (by simp [hs]), if_neg (by simp [hr, hs])]
  rfl

end

/-- A block that touches the pair's region is inside it once its blocks are claimed. -/
theorem claimBlocks_touching (s : State) (n : Nat) : ∀ b ∈ s.cores.blocks, touchesPair s (pairAt s n) b = true →
    ∃ b' ∈ (claimBlocks s n).cores.blocks, b'.bid = b.bid ∧ b'.inRegion = some n := by
  intro b hb ht
  have hit : (s.cores.blocks.filter (touchesPair s (pairAt s n))).any
      (fun x => x.bid == b.bid || (x.team.isSome && x.team == b.team)) = true :=
    List.any_eq_true.mpr ⟨b, List.mem_filter.mpr ⟨hb, ht⟩, by simp⟩
  refine ⟨_, List.mem_map.mpr ⟨b, hb, rfl⟩, ?_⟩
  rw [if_pos hit]
  exact ⟨rfl, rfl⟩

/-! Clearing EN. -/

section
variable {s : State}
theorem exec_slicePairDisable_idle (he : (pairAt s s.sch.sel.n).en = false) : exec .slicePairDisable s = .next s :=
  congrArg Host.Outcome.next (if_neg (by simp [he]))
theorem exec_slicePairDisable (he : (pairAt s s.sch.sel.n).en = true) : exec .slicePairDisable s = .next (sliceDisable s s.sch.sel.n) :=
  congrArg Host.Outcome.next (if_pos he)
/-- A pair whose other side has its state saved keeps EN. -/
theorem sliceDisable_refused {n : Nat} (h : (pairAt s n).saved (!(pairAt s n).holderB) = true) :
    sliceDisable s n = onSlice s n (fun p => { p with refused := true }) := by
  rw [SlicePair.saved_not] at h
  exact if_pos h
/-- The pair's EN falls, and its blocks are in no region. -/
def disabled (s : State) (n : Nat) : State :=
  (onSlice s n (fun p => { p with en := false, stopped := false })).onCores fun c =>
    { c with blocks := c.blocks.map (fun b => if b.inRegion = some n then { b with inRegion := none } else b) }
theorem sliceDisable_ends {n : Nat} (h : (pairAt s n).saved (!(pairAt s n).holderB) = false) : sliceDisable s n = disabled s n := by
  rw [SlicePair.saved_not] at h
  exact if_neg (by rw [h]; decide)
end
theorem pairAt_sliceDisable (s : State) {n : Nat} (hn : n < 4) : pairAt (sliceDisable s n) n =
    if (pairAt s n).saved (!(pairAt s n).holderB) = true then { pairAt s n with refused := true }
    else { pairAt s n with en := false, stopped := false } := by
  cases h : (pairAt s n).saved (!(pairAt s n).holderB) with
  | true => rw [sliceDisable_refused h, pairAt_onSlice_self s hn, if_pos rfl]
  | false => rw [sliceDisable_ends h, disabled, pairAt_congr (State.onCores_vds ..), pairAt_onSlice_self s hn, if_neg (by decide)]
theorem disabled_blocks (s : State) (n : Nat) : ∀ b ∈ (disabled s n).cores.blocks, b.inRegion ≠ some n := by
  intro b hb
  obtain ⟨a, -, rfl⟩ := List.mem_map.mp hb
  split
  · exact nofun
  · assumption

end Sys2Proof.Machine

namespace Sys2Proof
open Machine

/-- Settles O41: a write of EN and its clearing by their cases; a switch by what each of its parts leaves of the pair (`switchedOut_ends`,
`sliceGive_ends`), and by the region read as zero once the outgoing side's state is out (`switchedOut_reads`). -/
theorem slicePairs : Obligations.SlicePairs := by
  unfold Obligations.SlicePairs
  intro s n v p x q m r
  refine ⟨exec_slicePairEnable_used, fun he hr => ?_, fun he hr hs => ?_, fun he hr hs => ?_, fun hm => ?_⟩
  · exact ⟨_, (exec_slicePairEnable_free he).trans (congrArg _ (sliceEnable_refused hr)), pairAt_onSlice_self s n.isLt _⟩
  · exact (exec_slicePairEnable_free he).trans (congrArg _ (sliceEnable_waits he hr hs))
  · have hp := pairAt_onSlice_self s n.isLt fun p => p.started q (bit x 1) (nsNow s)
    refine ⟨_, (exec_slicePairEnable_free he).trans (congrArg _ (sliceEnable_starts hr hs)), hp, fun b hb ht => ?_⟩
    exact claimBlocks_touching (onSlice s n.val _) n.val b hb (by rw [pairAt_onSlice_self s n.isLt]; exact ht)
  · rw [← SlicePair.saved_not]
    refine ⟨exec_slicePairDisable_idle, fun he => ⟨?_, fun hs => ?_⟩, fun h => ?_, fun he hst hd => ?_⟩
    · exact ⟨_, exec_slicePairDisable he, pairAt_sliceDisable s hm⟩
    · exact ⟨_, (exec_slicePairDisable he).trans (congrArg _ (sliceDisable_ends hs)), disabled_blocks s m⟩
    · exact congrArg (fun y => Host.Outcome.next (flushRecs y)) (sliceSwitch_idle h)
    · obtain ⟨b, hp⟩ := pairAt_sliceSwitch hm he hst hd
      refine ⟨flushRecs (sliceSwitch s m), rfl, ?_⟩
      dsimp only
      rw [pairAt_flushRecs, hp, flushRecs_loc]
      refine ⟨rfl, rfl, rfl, he, rfl, r.passed_unsaved b, fun hs => ?_⟩
      rw [sliceSwitch_unsaved_loc hm he hst hd hs]
      have hz := switchedOut_reads s hm
      exact ⟨fun k => (hz k).1, fun k => (hz k).2.1, fun k => (hz k).2.2⟩

end Sys2Proof
end

section
/-! PROOFS. What translations, writes of engines and the ends of work leave of the Swage's contexts: all of each but the translation it holds
(R155, R177, R227). -/
namespace Sys2Proof.Machine

/-! Translation by virtual address. -/

theorem gpaRead_loc (s : State) (cl v gpa : Nat) : (gpaRead s cl v gpa).1.loc = s.loc := by
  have h1 := loc_of_aside (stage2_aside s cl v gpa (fun r _ _ => r))
  unfold gpaRead
  split <;> rename_i e <;> replace h1 := loc_fst e h1
  · exact h1
  · next t l =>
    split_ifs
    · exact h1
    · split
      · next a _ =>
        have h2 := (loc_of_aside (wkRead_aside t cl v a)).trans h1
        split <;> rename_i e2 <;> exact loc_fst e2 h2
      · exact h1
theorem s1Find_loc (cl v va : Nat) : ∀ (n table : Nat) (s : State), (s1Find s cl v va table n).1.loc = s.loc
  | 0, _, _ => rfl
  | n + 1, table, s => by
    have h1 := gpaRead_loc s cl v (table + 8 * bits va (12 + 9 * n + 8) (12 + 9 * n))
    unfold s1Find
    split <;> rename_i e <;> replace h1 := loc_fst e h1
    · exact h1
    · split_ifs
      · exact h1
      · exact h1
      · exact h1
      · exact h1
      · exact (s1Find_loc cl v va n _ _).trans h1
theorem s1Walk_loc (s : State) (cl v va table n : Nat) : (s1Walk s cl v va table n).1.loc = s.loc := by
  have h1 := s1Find_loc cl v va n table s
  unfold s1Walk
  split <;> rename_i e <;> replace h1 := loc_fst e h1
  · exact h1
  · split_ifs <;> exact h1
theorem walk_loc (s : State) (cl v asid va : Nat) (acc : Acc) : (walk s cl v asid va acc).1.loc = s.loc := by
  have h1 := gpaRead_loc s cl v (bits (trnOf s v).astb.toNat 63 12 * 4096 + 8 * asid)
  unfold walk
  split <;> rename_i e <;> replace h1 := loc_fst e h1
  · exact h1
  · next t r _ =>
    by_cases hr : (!bit r 0 || bits r 63 48 != 0 || bits r 11 1 != 0) = true
    · rw [if_pos hr]; exact h1
    · rw [if_neg hr]
      have h2 := (s1Walk_loc t cl v va (bits r 47 12 * 4096) 4).trans h1
      split <;> rename_i e2 <;> replace h2 := loc_fst e2 h2
      · exact h2
      · next u w lvl a =>
        by_cases hp : (!permits acc (bit w 1) (bit w 2) (bit w 3) || !userOk acc (bit w 4)) = true
        · rw [if_pos hp]; exact h2
        · rw [if_neg hp]
          have h3 := (loc_of_aside (stage2_aside u cl v (leafBase w lvl va + va % leafSize w lvl va) (permits acc))).trans h2
          dsimp only
          split <;> rename_i e3 <;> replace h3 := loc_fst e3 h3
          · exact h3
          · split_ifs
            · exact h3
            · exact h3
            · exact (loc_of_aside (wkOr_aside ..)).trans h3
theorem tlbFill_loc (s : State) (e : TlbEntry) : (tlbFill s e).loc = s.loc := by
  unfold tlbFill
  dsimp only
  split <;> rfl
theorem renewTlb_loc (s : State) (e : TlbEntry) : (renewTlb s e).loc = s.loc := State.onTrn_loc ..
theorem lookup_loc (s : State) (cl v asid va : Nat) (acc : Acc) : (lookup s cl v asid va acc).1.loc = s.loc := by
  unfold lookup
  split
  · exact renewTlb_loc ..
  · dsimp only
    split <;> rename_i e <;> have h1 := (loc_fst e (walk_loc ..)).trans (State.onTrn_loc s _)
    · exact h1
    · split
      · exact h1
      · exact (tlbFill_loc ..).trans h1
theorem setDirty_loc (s : State) (e : TlbEntry) : (setDirty s e).1.loc = s.loc := by
  have hif : ∀ (b : Bool) (t : State) (v a : Nat), (if b = true then (t, 1) else wkOr t e.cluster v a 0x40).1.loc = t.loc := by
    intro b t v a
    split_ifs
    · rfl
    · exact loc_of_aside (wkOr_aside ..)
  by_cases hd : (e.d1 && e.d2) = true
  · rw [setDirty, if_pos hd]
  · rw [setDirty, if_neg hd]
    exact (State.onTrn_loc ..).trans ((hif e.d2 _ 0 e.leaf2).trans (hif e.d1 s e.vd e.leaf1))
theorem xlate_loc (cl v asid va : Nat) (acc : Acc) : ∀ (n : Nat) (s : State), (xlate s cl v asid va acc n).1.loc = s.loc
  | 0, _ => rfl
  | n + 1, s => by
    have h1 := lookup_loc s cl v asid va acc
    unfold xlate
    by_cases hc : (!canonical va) = true
    · rw [if_pos hc]
    · rw [if_neg hc]
      split
      · split_ifs <;> rfl
      · rfl
      · split <;> rename_i e <;> replace h1 := loc_fst e h1
        · exact h1
        · exact h1
        · next t te =>
          dsimp only
          by_cases hs : (acc.write && te.sealedP) = true
          · rw [if_pos hs]; exact h1
          · rw [if_neg hs]
            have h2 := (setDirty_loc t te).trans h1
            split
            · split <;> rename_i e2 <;> replace h2 := loc_fst e2 h2
              · exact h2
              · exact (xlate_loc cl v asid va acc n _).trans h2
            · exact h1
theorem translate_loc (s : State) (cl v asid va : Nat) (acc : Acc) : (translate s cl v asid va acc).1.loc = s.loc :=
  xlate_loc cl v asid va acc 2 s

/-! The contexts, each without the translation it holds. -/

def SwageCtx.unheld (c : SwageCtx) : SwageCtx := { c with held := none }
def State.contexts (s : State) : Tab SwageCtx := s.loc.swage.map (fun e => (e.1, e.2.unheld))

theorem find_mapped {α β : Type} (f : α → β) (t : Tab α) (k : Nat) : Tab.find (t.map (fun e => (e.1, f e.2))) k = (t.find k).map f := by
  induction t with
  | nil => rfl
  | cons e t ih =>
    obtain ⟨j, x⟩ := e
    by_cases h : j = k
    · simp [Tab.find, h]
    · simpa [Tab.find, h] using ih
theorem contexts_of_loc {s t : State} (h : t.loc = s.loc) : t.contexts = s.contexts := by rw [State.contexts, State.contexts, h]
theorem contexts_of_aside {s t : State} (h : t.aside = s.aside) : t.contexts = s.contexts := contexts_of_loc (loc_of_aside h)
theorem contexts_fst {α : Type} {q : State × α} {x s : State} {y : α} (e : q = (x, y)) (h : q.1.contexts = s.contexts) :
    x.contexts = s.contexts := by rw [e] at h; exact h
theorem contexts_foldl {β : Type} {f : State → β → State} (hf : ∀ s b, (f s b).contexts = s.contexts) (l : List β) (s : State) :
    (l.foldl f s).contexts = s.contexts := foldl_proj State.contexts hf l s
/-- A context of a state, found in one that has the same contexts. -/
theorem find_of_contexts {s t : State} {k : Nat} {c : SwageCtx} (h : t.contexts = s.contexts) (hc : s.loc.swage.find k = some c) :
    ∃ d, t.loc.swage.find k = some d ∧ d.unheld = c.unheld := by
  have hk := congrArg (fun x : Tab SwageCtx => x.find k) h
  simp only [State.contexts, find_mapped, hc, Option.map_some, Option.map_eq_some_iff] at hk
  exact hk

/-! The shadow that a snapshot frame asks for. -/

theorem dropFrame_contexts (s : State) (f : Nat) : (dropFrame s f).contexts = s.contexts := by
  unfold dropFrame State.contexts
  simp only [State.onLoc_loc, State.onTrn_loc, List.map_map]
  refine List.map_congr_left fun e _ => Prod.ext rfl ?_
  dsimp only [Function.comp_apply]
  split_ifs <;> rfl
theorem ptWrite_contexts (s : State) (v a n : Nat) : (ptWrite s v a n).contexts = s.contexts := contexts_of_aside (ptWrite_aside ..)
theorem flushLines_contexts (s : State) (f : Nat → Bool) : (flushLines s f).contexts = s.contexts := contexts_of_aside (flushLines_aside ..)
theorem migDone_contexts (s : State) : (migDone s).contexts = s.contexts := contexts_of_loc (State.onCores_loc ..)
theorem onTrn_contexts (s : State) (f : TrnState → TrnState) : (s.onTrn f).contexts = s.contexts := contexts_of_loc (State.onTrn_loc ..)
theorem shadowTake_contexts (s : State) (v lid f : Nat) : (shadowTake s v lid f).1.contexts = s.contexts := by
  unfold shadowTake
  dsimp only
  split
  · rfl
  · split_ifs
    · rfl
    · refine (migDone_contexts ..).trans <| (onTrn_contexts ..).trans <| (contexts_foldl (fun t (a : Nat × Nat) => ptWrite_contexts t ..) _ _).trans <|
        (flushLines_contexts ..).trans <| (contexts_of_aside (copyPhys_aside ..)).trans <| (onTrn_contexts ..).trans <|
        (dropFrame_contexts ..).trans <| (flushLines_contexts ..).trans <| (flushLines_contexts ..).trans (onTrn_contexts ..)

/-! Writes by virtual address. -/

theorem engPhysWrite_contexts (s : State) (e : Eng) (a : Nat) (b : Bytes) (p : Bool) : (engPhysWrite s e a b p).1.contexts = s.contexts := by
  have hr : (match e.die with
      | some d => l2Write s d e.vd (kidFor s e.vd a) a b 1 e.ws p
      | none => mscWrite s e.vd (kidFor s e.vd a) a b p).1.contexts = s.contexts := by
    split
    · exact contexts_of_aside (l2Write_aside ..)
    · exact contexts_of_aside (mscWrite_aside ..)
  unfold engPhysWrite
  split
  · dsimp only
    split_ifs
    · exact shadowTake_contexts ..
    · rfl
  · dsimp only
    split <;> rename_i q <;> exact contexts_fst q hr
theorem engWrite1_contexts (e : Eng) (va : Nat) (b : Bytes) (p : Bool) : ∀ (f : Nat) (s : State), (engWrite1 s e va b p f).1.contexts = s.contexts
  | 0, _ => rfl
  | f + 1, s => by
    have h1 := contexts_of_loc (translate_loc s e.cl e.vd e.asid va { write := true, fetch := false, user := false, sup := false })
    unfold engWrite1
    split <;> rename_i e1 <;> replace h1 := contexts_fst e1 h1
    · exact h1
    · exact h1
    · next t x =>
      split
      · next a _ =>
        have h2 := (engPhysWrite_contexts t e a b p).trans h1
        split <;> rename_i e2 <;> replace h2 := contexts_fst e2 h2
        · exact h2
        · exact h2
        · exact (engWrite1_contexts e va b p f _).trans h2
      · exact h1
      · exact h1
      · split_ifs
        · exact h1
        · exact h1
theorem engWriteP_contexts (e : Eng) (p : Nat → Bool) : ∀ (f va o : Nat) (b : Bytes) (s : State), (engWriteP s e p f va o b).1.contexts = s.contexts
  | 0, _, _, _, _ => rfl
  | f + 1, va, o, b, s => by
    have h1 := engWrite1_contexts e va (b.take (sectorPart va b.length)) ((List.range (sectorPart va b.length)).any (fun i => p (o + i))) 2 s
    unfold engWriteP
    split_ifs
    · rfl
    · dsimp only
      split <;> rename_i e1 <;> replace h1 := contexts_fst e1 h1
      · exact h1
      · exact (engWriteP_contexts e p f _ _ _ _).trans h1
theorem engWriteBits_contexts (s : State) (e : Eng) (va : Nat) (b : Bytes) (p : Nat → Bool) :
    (engWriteBits s e va b p).1.contexts = s.contexts := engWriteP_contexts e p _ va 0 b s

/-! Phases, groups and blocks that end. -/

theorem onWin_contexts (s : State) (core e : Nat) (f : Window → Window) : (onWin s core e f).contexts = s.contexts := rfl
theorem emptyWindows_contexts (s : State) (b : Block) : (emptyWindows s b).contexts = s.contexts :=
  contexts_foldl (fun t (e : Nat × Window) => onWin_contexts t b.core e.1 _) _ s
theorem dropBlock_contexts (s : State) (b : Block) : (dropBlock s b).contexts = s.contexts :=
  (contexts_of_loc (State.onCores_loc ..)).trans (emptyWindows_contexts s b)
theorem releaseBy_aside (s : State) (g : Group) (us : List Nat) (sc m : Nat) : (releaseBy s g us sc m).aside = s.aside :=
  aside_foldl (fun t _ => release_aside t ..) _ s
theorem addChan_aside (s : State) (c : Chan) (rs : List Rel) : (addChan s c rs).aside = s.aside := by
  unfold addChan; split_ifs <;> rfl
theorem phaseLeave_contexts (s : State) (g : Group) : (phaseLeave s g).contexts = s.contexts := by
  unfold phaseLeave
  split
  · next tid b _ _ =>
    split
    · rfl
    · next k _ =>
      split_ifs
      · rfl
      · have h1 : (releaseBy (emptyWindows s b) g (List.range g.threads.length) 3 0xFF).contexts = s.contexts :=
          (contexts_of_aside (releaseBy_aside ..)).trans (emptyWindows_contexts ..)
        dsimp only
        generalize releaseBy (emptyWindows s b) g (List.range g.threads.length) 3 0xFF = x at h1 ⊢
        have h2 := (engWriteBits_contexts x (swEng x (clusterOfCore g.core) k.vd k.asid) (pkBillet k.packet) (billetBytes x k g b.rowStart)
          (billetBad x k g b.rowStart)).trans h1
        split <;> rename_i e <;> replace h2 := contexts_fst e h2
        · exact h2
        · exact (contexts_of_loc (startKill_rest ..).1).trans h2
        · exact (dropBlock_contexts ..).trans h2
  · rfl
theorem endGroups_loc (s : State) : (endGroups s).loc = s.loc := by
  unfold endGroups
  dsimp only
  split_ifs
  · rfl
  · exact foldl_proj State.loc (fun t g => loc_of_aside (addChan_aside ..)) _ s
theorem endBlocks_contexts (s : State) : (endBlocks s).contexts = s.contexts := by
  refine contexts_foldl (fun t b => ?_) _ s
  have h1 := dropBlock_contexts t b
  dsimp only
  split
  · exact h1
  · exact h1
theorem queueOnce_loc (s : State) (q : Turn) : (queueOnce s q).loc = s.loc := by
  unfold queueOnce; split_ifs <;> rfl
theorem reap_contexts (s : State) : (reap s).contexts = s.contexts := by
  have h1 : ((s.cores.groups.filter phaseFull).foldl phaseLeave s).contexts = s.contexts := contexts_foldl phaseLeave_contexts _ s
  unfold reap
  dsimp only
  refine (contexts_foldl (fun t _ => contexts_of_loc (queueOnce_loc t _)) _ _).trans ?_
  refine (contexts_foldl (fun t _ => contexts_of_loc (queueOnce_loc t _)) _ _).trans ?_
  exact (endBlocks_contexts _).trans ((contexts_of_loc (endGroups_loc _)).trans h1)
/-- The end of a step with what has come to its end. -/
theorem flushRecs_reap_contexts (s : State) : (flushRecs (reap s)).contexts = s.contexts :=
  (contexts_of_loc (flushRecs_loc _)).trans (reap_contexts s)

end Sys2Proof.Machine
end

section
/-! PROOFS. The Swage: contexts, beats and the completion of fills and drains (R122, R175 to R178, R215, R235). -/
namespace Sys2Proof.Machine

/-! A context that starts. -/

/-- A queued fill or drain is taken from its queue. -/
def tookJob (s : State) (cl : Nat) (j : SwageJob) : State :=
  s.onLoc fun l => { l with swageQueue := l.swageQueue.put cl ((l.swageQueue.at [] cl).erase j) }
section
variable {s : State} {cl v : Nat}
theorem swageStart_idle (h : swageNext s cl v = none) : swageStart s cl v = s := by simp only [swageStart, h]

/-- The turn of a context that has nothing to move is queued at once. -/
theorem swageDone_if_loc (P : Prop) [Decidable P] (s : State) (cl i : Nat) (drain : Bool) :
    (if P then swageDone s cl i drain else s).loc = s.loc := by
  split_ifs
  · exact queueOnce_loc ..
  · rfl

/-- Work that a context takes, by the block of its window and the failures found before any byte; a context that starts holds the work
from its first byte, and a drain's bytes. -/
theorem swageStart_takes {j : SwageJob} {k : Nat} (h : swageNext s cl v = some (j, k)) :
    (findBlock s (winOf s j.core j.entry).blk = none → swageStart s cl v = tookJob s cl j)
      ∧ ∀ b, findBlock s (winOf s j.core j.entry).blk = some b →
        ((winOf s j.core j.entry).early s ≠ 0 →
          swageStart s cl v = windowFail (tookJob s cl j) j.core j.entry ((winOf s j.core j.entry).early s))
        ∧ ((winOf s j.core j.entry).early s = 0 → ∃ c, (swageStart s cl v).loc.swage.find (swageCtxKey cl k) = some c
          ∧ c.job = j ∧ c.pos = 0 ∧ c.stopped = none
          ∧ c.buf = if j.drain = true then (drainPayload (tookJob s cl j) b (winOf s j.core j.entry)).1 else []) := by
  unfold swageStart
  rw [h]
  dsimp only
  refine ⟨fun hb => ?_, fun b hb => ⟨fun he => ?_, fun he => ?_⟩⟩
  · split
    · rfl
    · next e => cases hb.symm.trans e
  · split
    · next e => cases hb.symm.trans e
    · exact if_pos he
  · split
    · next e => cases hb.symm.trans e
    · next b' e =>
      cases hb.symm.trans e
      split
      · next hne => exact absurd he hne
      · rw [swageDone_if_loc]
        exact ⟨_, Tab.find_put_self .., rfl, rfl, rfl, apply_ite Prod.fst ..⟩
end

/-! A beat. -/

section
variable {s : State} {cl i : Nat}
theorem swageBeat_none (h : s.loc.swage.find (swageCtxKey cl i) = none) : swageBeat s cl i = s := by simp only [swageBeat, h]

variable {c : SwageCtx} (h : s.loc.swage.find (swageCtxKey cl i) = some c)
include h
theorem swageBeat_gone (hb : findBlock s (winOf s c.job.core c.job.entry).blk = none) : swageBeat s cl i = freeSwage s (swageCtxKey cl i) := by
  simp only [swageBeat, h, hb]

variable {b : Block} (hb : findBlock s (winOf s c.job.core c.job.entry).blk = some b)
include hb
theorem swageBeat_stalls (hs : c.stopped.isSome = true ∨ b.here s = false ∨ (winOf s c.job.core c.job.entry).payload ≤ c.pos) :
    swageBeat s cl i = s := by
  simp only [swageBeat, h, hb]
  exact if_pos (by rcases hs with hs | hs | hs <;> simp [hs])

variable (hs : c.stopped = none) (hh : b.here s = true) (hp : c.pos < (winOf s c.job.core c.job.entry).payload)
  {y : State}
include hs hh hp
theorem swageBeat_fails {st : Nat} (hm : swageMove s cl (swageCtxKey cl i) b c = (y, .failed st)) :
    swageBeat s cl i = windowFail (freeSwage y (swageCtxKey cl i)) c.job.core c.job.entry st := by
  simp [swageBeat, h, hb, hs, hh, hp, hm]
theorem swageBeat_waits {va n : Nat} (hm : swageMove s cl (swageCtxKey cl i) b c = (y, .fault va n .wait)) : swageBeat s cl i = y := by
  simp [swageBeat, h, hb, hs, hh, hp, hm]
theorem swageBeat_faults {va n : Nat} {f : EngErr} (hf : f ≠ .wait) (hm : swageMove s cl (swageCtxKey cl i) b c = (y, .fault va n f)) :
    swageBeat s cl i = swageStop y (swageCtxKey cl i) va n c.job.drain f := by
  cases f with
  | wait => exact absurd rfl hf
  | _ => simp [swageBeat, h, hb, hs, hh, hp, hm]
theorem swageBeat_moves {d : SwageCtx} (hm : swageMove s cl (swageCtxKey cl i) b c = (y, .moved))
    (hd : y.loc.swage.find (swageCtxKey cl i) = some d) :
    swageBeat s cl i = if (winOf s c.job.core c.job.entry).payload ≤ d.pos then swageDone y cl i c.job.drain else y := by
  simp [swageBeat, h, hb, hs, hh, hp, hm, hd]
end

/-! The bytes of a beat of a plain fill. -/

/-- The contexts replaced. -/
def withSwage (s : State) (t : Tab SwageCtx) : State := s.onLoc fun l => { l with swage := t }
theorem onSwage_eq {s : State} {key : Nat} {c : SwageCtx} (h : s.loc.swage.find key = some c) (f : SwageCtx → SwageCtx) :
    onSwage s key f = withSwage s (s.loc.swage.put key (f c)) := by
  unfold onSwage withSwage State.onLoc
  simp only [h]
theorem sramWrite_withSwage (s : State) (t : Tab SwageCtx) (core : Nat) (ws : List Nat) (o : Nat) (x : Bytes) :
    sramWrite (withSwage s t) core ws o x = withSwage (sramWrite s core ws o x) t :=
  List.foldl_hom (withSwage · t) fun _ _ => rfl
/-- Bytes reach a window without regard to the contexts, which they leave. -/
theorem winPut_withSwage (s : State) (t : Tab SwageCtx) (b : Block) (w : Window) (o : Nat) (x : Bytes) (p : Nat → Bool) :
    winPut (withSwage s t) b w o x p = withSwage (winPut s b w o x p) t := by
  unfold winPut
  rw [sramWrite_withSwage]
  exact List.foldl_hom (withSwage · t) fun _ _ => List.foldl_hom (withSwage · t) fun _ _ => rfl
/-- Where the next beat of a context begins, and its length within the row and the line. -/
def SwageCtx.va (c : SwageCtx) (w : Window) : Nat := (w.src + c.pos / w.rowLen * w.pitch + c.pos % w.rowLen) % 2 ^ 64
def SwageCtx.size (c : SwageCtx) (w : Window) : Nat := beatLen (c.va w) (w.rowLen - c.pos % w.rowLen)
theorem beatFill_plain {s y : State} {e : Eng} {key : Nat} {b : Block} {w : Window} {c : SwageCtx} {d : Bytes} {p : List Bool}
    {h : Option (Nat × Nat × Bool)} (hf : w.fmt = 0) (hr : swageRead s e c.held (c.va w) (c.size w) = (y, .ok (d, p), h))
    (hy : y.loc.swage.find key = some c) : beatFill s e key b w c =
      (withSwage (winPut y b w c.pos d (fun i => p.getD i false))
        (y.loc.swage.put key { c with held := h, pos := c.pos + c.size w }), .moved) := by
  rw [SwageCtx.size, SwageCtx.va] at hr
  unfold beatFill
  simp only [hr]
  rw [if_pos hf, onSwage_eq hy, winPut_withSwage]
  rfl

/-! Completion. -/

/-- The window of a fill is PRESENT, after its completion action. -/
def presentAfter (s : State) (cl key : Nat) (c : SwageCtx) : State :=
  onWin (winAction (freeSwage s key) cl (winOf s c.job.core c.job.entry) c.job.know) c.job.core c.job.entry (fun w => { w with st := .present })
/-- The bounds of a drain are checked, by the action they had when it started (R235). -/
def boundsChecked (s : State) (key : Nat) (c : SwageCtx) : State :=
  let w := winOf s c.job.core c.job.entry
  let y := freeSwage s key
  if w.bnd = 0xFF then y
  else boundEnd y c.job.core c.job.vd c.job.asid w.bnd { boundOf s c.job.core c.job.vd w.bnd with action := BitVec.ofNat 2 c.action } c.viol
    ((c.first.map BitVec.toNat).getD 0) (jobPc y c.job) (workTag y (blockOwner y w.blk))

section
variable {s : State} {cl i : Nat}
theorem fillDone_none (h : s.loc.swage.find (swageCtxKey cl i) = none) : fillDone s cl i = s := by simp only [fillDone, h]
theorem drainDone_none (h : s.loc.swage.find (swageCtxKey cl i) = none) : drainDone s cl i = s := by simp only [drainDone, h]

variable {c : SwageCtx} (h : s.loc.swage.find (swageCtxKey cl i) = some c)
include h
theorem fillDone_not (hn : c.job.drain = true ∨ winHere s (winOf s c.job.core c.job.entry) = false
    ∨ c.pos < (winOf s c.job.core c.job.entry).payload) : fillDone s cl i = s := by
  simp only [fillDone, h]
  exact if_pos (by rcases hn with hn | hn | hn <;> simp [hn])
theorem drainDone_not (hn : c.job.drain = false ∨ winHere s (winOf s c.job.core c.job.entry) = false
    ∨ c.pos < (winOf s c.job.core c.job.entry).payload) : drainDone s cl i = s := by
  simp only [drainDone, h]
  exact if_pos (by rcases hn with hn | hn | hn <;> simp [hn])

variable (hh : winHere s (winOf s c.job.core c.job.entry) = true) (hp : (winOf s c.job.core c.job.entry).payload ≤ c.pos)
include hh hp
theorem fillDone_ends (hj : c.job.drain = false) : fillDone s cl i =
    touchersGo (presentAfter s cl (swageCtxKey cl i) c) c.job.core c.job.entry
      (swageRel (presentAfter s cl (swageCtxKey cl i) c) cl 1 1 c.job.know).know := by
  simp only [fillDone, h]
  exact if_neg (by simp [hj, hh, hp])
theorem drainDone_ends (hj : c.job.drain = true) : drainDone s cl i =
    winEmpty (winAction (boundsChecked s (swageCtxKey cl i) c) cl (winOf s c.job.core c.job.entry) c.job.know) c.job.core c.job.entry := by
  simp only [drainDone, h]
  exact if_neg (by simp [hj, hh, hp])
end

/-! Steps of the Swage. -/

section
variable {s t : State}
theorem exec_swageContextStart (h : swageStart s s.sch.sel.cl.val s.sch.sel.vd.val = t) :
    exec .swageContextStart s = .next (flushRecs (reap t)) := congrArg (fun t => Host.Outcome.next (flushRecs (reap t))) h
theorem exec_windowFillComplete (h : fillDone s s.sch.sel.cl.val (s.sch.sel.n % 8) = t) :
    exec .windowFillComplete s = .next (flushRecs (reap t)) := congrArg (fun t => Host.Outcome.next (flushRecs (reap t))) h
theorem exec_windowDrainComplete (h : drainDone s s.sch.sel.cl.val (s.sch.sel.n % 8) = t) :
    exec .windowDrainComplete s = .next (flushRecs (reap t)) := congrArg (fun t => Host.Outcome.next (flushRecs (reap t))) h
/-- The context last moved for its VD. -/
def lastMoved (s : State) (cl i : Nat) (c : SwageCtx) : State :=
  s.onLoc fun l => { l with swageLast := l.swageLast.put (16 * cl + c.job.vd) i }
theorem exec_swageBeat_none (h : s.loc.swage.find (swageCtxKey s.sch.sel.cl.val (s.sch.sel.n % 8)) = none) :
    exec .swageBeat s = .next (flushRecs (reap s)) := by
  show execSwageBeat s = _
  unfold execSwageBeat
  simp only [h, swageBeat_none]
theorem exec_swageBeat {c : SwageCtx} (hc : s.loc.swage.find (swageCtxKey s.sch.sel.cl.val (s.sch.sel.n % 8)) = some c)
    (h : swageBeat (lastMoved s s.sch.sel.cl.val (s.sch.sel.n % 8) c) s.sch.sel.cl.val (s.sch.sel.n % 8) = t) :
    exec .swageBeat s = .next (flushRecs (reap t)) := by
  show execSwageBeat s = _
  unfold execSwageBeat
  simp only [hc]
  exact congrArg (fun t => Host.Outcome.next (flushRecs (reap t))) h
end

end Sys2Proof.Machine

namespace Sys2Proof
open Machine

/-- Settles O47: each step by the case of its function; a context that starts is one of the contexts, which the end of the step keeps but for
the translations they hold (`flushRecs_reap_contexts`). -/
theorem swageWork : Obligations.SwageWork := by
  unfold Obligations.SwageWork
  intro s cl v i key ends
  refine ⟨fun h => exec_swageContextStart (swageStart_idle h), fun j k h => ?_, fun h => ?_, fun c hc => ?_⟩
  · obtain ⟨gone, takes⟩ := swageStart_takes h
    intro y w
    refine ⟨fun hb => ?_, fun b hb => ⟨fun he => ?_, fun he => ?_⟩⟩
    · exact exec_swageContextStart (gone hb)
    · exact exec_swageContextStart ((takes b hb).1 he)
    · obtain ⟨c, hc, job, pos, stopped, buf⟩ := (takes b hb).2 he
      obtain ⟨d, hd, hu⟩ := find_of_contexts (flushRecs_reap_contexts (swageStart s cl v)) hc
      have hx : exec .swageContextStart s = .next (flushRecs (reap (swageStart s cl v))) := exec_swageContextStart rfl
      exact ⟨_, hx, d, hd, (congrArg SwageCtx.job hu).trans job, (congrArg SwageCtx.pos hu).trans pos,
        (congrArg SwageCtx.stopped hu).trans stopped, (congrArg SwageCtx.buf hu).trans buf⟩
  · exact ⟨exec_swageBeat_none h, exec_windowFillComplete (fillDone_none h), exec_windowDrainComplete (drainDone_none h)⟩
  · intro w x e
    have hcx : x.loc.swage.find key = some c := hc
    have hx : ∀ {t}, swageBeat x cl i = t → ends .swageBeat t := exec_swageBeat hc
    refine ⟨fun hb => hx (swageBeat_gone hcx hb), fun b hb => ⟨fun hn => hx (swageBeat_stalls hcx hb hn), fun hs hh hp => ?_, fun hf _ => ?_⟩,
      fun hn => exec_windowFillComplete (fillDone_not hc hn), fun hn => exec_windowDrainComplete (drainDone_not hc hn),
      fun hj hh hp => ?_, fun hj hh hp => ?_⟩
    · intro r
      have hm : ∀ {z}, r.2 = z → swageMove x cl key b c = (r.1, z) := fun hz => Prod.ext rfl hz
      exact ⟨fun st hr => hx (swageBeat_fails hcx hb hs hh hp (hm hr)), fun va n hr => hx (swageBeat_waits hcx hb hs hh hp (hm hr)),
        fun va n f hr hne => hx (swageBeat_faults hcx hb hs hh hp hne (hm hr)),
        fun hr d hd => hx (swageBeat_moves hcx hb hs hh hp (hm hr) hd)⟩
    · intro o va n y d p h hr hy
      rw [beatFill_plain hf hr hy]
      exact ⟨rfl, rfl, Tab.find_put_self ..⟩
    · exact exec_windowFillComplete (fillDone_ends hc hh hp hj)
    · exact exec_windowDrainComplete (drainDone_ends hc hh hp hj)

end Sys2Proof
end
